-- ==== Sys2Proof/Word.lean ====
section
/-! DEFINITION. The word types of the K4: bits as the spec numbers them (R6), registers and memory
units at the widths the spec gives. -/

namespace Sys2Proof

/-- A scalar register, an address or a 64-bit memory word. -/
abbrev Word := BitVec 64
/-- The unit of memory. -/
abbrev Byte := BitVec 8
/-- One cell of the Field (R87). -/
abbrev Cell16 := BitVec 16
/-- A 32-bit parcel (R126). -/
abbrev Parcel := BitVec 32

/-- Number of an `x` register (R128). -/
abbrev XReg := BitVec 5
/-- Number of an `h` register, 0-15 (R128). -/
abbrev HReg := BitVec 4
/-- Number of a plot, 0-63 (R128). -/
abbrev VReg := BitVec 6
/-- Number of a mask register, 0-15 (R128). -/
abbrev MReg := BitVec 4
/-- Number of a front, 0-7 (R128). -/
abbrev FReg := BitVec 3

/-- Bits 10:0 of `SELF` (R159): Miller, die, cluster, core, front end, context. -/
abbrev CtxId := BitVec 11

end Sys2Proof
end

