-- ==== Sys2Proof/Syntax.lean ====
section
/-! DEFINITION. The syntax of the K4: `Instr` has one constructor for each row of
spec/opcode_table.json. The encoded rows carry the fields of R129-R141; the rows that no word
encodes (steps of engines, of the Crier, of the Reeve, of errors) carry what selects the step. -/

namespace Sys2Proof

/-- Scope codes 0-5 of R131; 6 and 7 are illegal. -/
inductive Scope | strand | core | cluster | die | device | system
deriving DecidableEq, Repr

/-- Ordering of an atomic (R132). -/
inductive AOrd | plain | acq | rel | ar
deriving DecidableEq, Repr

/-- Scalar floating-point types (R139, major 0x08). -/
inductive STy | f32 | f64
deriving DecidableEq, Repr

/-- Floating-point element types (R134). -/
inductive FTy | bf16 | f32 | f64
deriving DecidableEq, Repr

/-- Integer element types (R134). -/
inductive ITy | i32 | i64
deriving DecidableEq, Repr

/-- The five element types (R134), in code order. -/
inductive ETy | bf16 | f32 | f64 | i32 | i64
deriving DecidableEq, Repr

/-- VL source of a vector instruction (R136). -/
inductive VLen | vl | lq | reg (x : XReg)
deriving DecidableEq, Repr

/-- Predicate, density-time and VL source of a vector instruction (R133-R136). -/
structure VOpts where
  mask : MReg
  inv  : Bool
  dt   : Bool
  vls  : VLen
deriving DecidableEq, Repr

/-- Second source of majors 0x31-0x33: a plot, or with S = 1 a scalar register (R186). -/
inductive VSrc | plot (v : VReg) | scalar (x : XReg)
deriving DecidableEq, Repr

/-- Count or element number k of the movement instructions (R222). -/
inductive VCount | imm (k : BitVec 5) | reg (x : XReg)
deriving DecidableEq, Repr

/-- Count of `mshift` (R207). -/
inductive MCount | imm (k : BitVec 8) | reg (x : XReg)
deriving DecidableEq, Repr

/-- Ordering of a vector load (R134): plain or acquire at a scope. -/
inductive LdOrd | plain | acq (s : Scope)
deriving DecidableEq, Repr

/-- Ordering of a vector store: plain or release at a scope. -/
inductive StOrd | plain | rel (s : Scope)
deriving DecidableEq, Repr

/-- Ordering of `vamo` (R134, R214): Order 0 carries Scope 0. -/
inductive VamoOrd | plain | acq (s : Scope) | rel (s : Scope) | ar (s : Scope)
deriving DecidableEq, Repr

/-- The eight atomic operations, in the code order of R221. -/
inductive AmoOp | swap | add | and | or | xor | min | max | maxu
deriving DecidableEq, Repr

/-- Conditions of `vfcmp` (R141). -/
inductive FCond | eq | ne | lt | le | gt | ge
deriving DecidableEq, Repr

/-- Conditions of `vcmp` (R141). -/
inductive ICond | eq | ne | lt | le | ltu | leu
deriving DecidableEq, Repr

/-- Operations of `vred` (R210). -/
inductive RedOp | add | and | or | xor | min | max | minu | maxu
deriving DecidableEq, Repr

/-- Operations of `vfred` (R210). -/
inductive FRedOp | add | min | max
deriving DecidableEq, Repr

/-- Feed formats of `vfeed` (R225). -/
inductive Feed | bf16 | e4m3 | e5m2 | f64
deriving DecidableEq, Repr

/-- Mode codes 0-12 of `mmul` (R236). -/
inductive MmulMode
  | bf16 | bf16q4 | bf16q3 | e4m3 | e5m2 | e4m3q4 | e4m3q3 | e5m2q4 | e5m2q3 | f64 | bf16s | bf16q4s | bf16q3s
deriving DecidableEq, Repr

/-- The four forms of CTL access (R156). -/
inductive CtlForm | read | write | set | clear
deriving DecidableEq, Repr

/-- A pot addition on its way to the pot's home slice (R53, R369): made for a sublease on a die, for a context's
command. -/
structure PotAdd where
  ctx   : CtxId
  die   : BitVec 2
  lease : Byte
  sub   : Byte
  pot   : Word
  count : Word
  scope : Scope
deriving DecidableEq, Repr

/-- What an uncorrectable error strikes (R316, R319, R321-R323). Lines are device physical addresses;
`words` marks the 8-byte words of a line that are destroyed. -/
inductive ErrTarget
  | dram (line : BitVec 48) (words : BitVec 16)
  | l1 (core : BitVec 8) (line : BitVec 48) (words : BitVec 16)
  | l2 (die : BitVec 2) (slice : Byte) (set : BitVec 5) (way : BitVec 4) (line : BitVec 2) (words : BitVec 16)
  | stash (core : BitVec 8) (line : BitVec 48) (words : BitVec 16)
  | field (core : BitVec 8) (row : Byte) (col : BitVec 9)
  | mask (c : CtxId) (m : MReg)
  | front (c : CtxId) (f : FReg)
  | plot (c : CtxId) (v : VReg)
  | xreg (c : CtxId) (r : XReg)
  | slice (cluster : BitVec 6) (column : Byte) (off : BitVec 16)
  | lane (core : BitVec 8) (lane : BitVec 6) (repeats : Bool)
deriving DecidableEq, Repr

/-- What an instruction of a control core does (R281): its memory accesses and `FENCE`; any other one writes a register or
`fcsr`. A step has the core fetch and decode the instruction, or carries one that is decoded already (log 82). -/
inductive CcKind
  | load | store | amo (op : AmoOp) | amominu | lr | sc | fence | other | fcsr
deriving DecidableEq, Repr

/-- One instruction of a RISC-V control core (R2, R281), run at level P, S or L of a sublease or lease: its destination
register, integer or floating point, whether a load extends its sign, and the address of the next instruction. Level W is
exercised by the Reeve only (R1): at level 3 it is an access of the Reeve's own, at a device physical address. -/
structure CcAccess where
  core  : BitVec 5
  lease : Byte
  sub   : Byte
  level : BitVec 2
  kind  : CcKind
  aq    : Bool
  rl    : Bool
  size  : BitVec 2
  addr  : Word
  data  : Word
  signed : Bool
  fp    : Bool
  rd    : BitVec 5
  next  : Word
deriving DecidableEq, Repr

/-- What a request names beside its arguments (R344): who asks, at which level, and the target. -/
structure Req where
  level : BitVec 2
  lease : Byte
  sub   : Byte
  tLease : Byte
  tSub  : Byte
  tag   : BitVec 32
deriving DecidableEq, Repr

/-- The six management rights of R346, as a mask: create, map, priority, counters, reset, inject. -/
abbrev Rights := BitVec 6

/-- What create-sublease assigns (R340): cores, `PIPEOWN` values, Mills, for a lease control cores, virtual queues of each
port, the root of a sublease's stage 1 tables or the frames of a lease's stage 2 roots, one for each die (R23), and the
lease-address window in which S may map by delegation (R345). -/
structure Assign where
  cores   : List (BitVec 8)
  pipes   : List (BitVec 9 × BitVec 8)
  mills   : List (BitVec 6)
  ccs     : List (BitVec 5)
  vqueues : Vector (BitVec 7) 16
  s1root  : BitVec 52
  s2roots : Vector Word 4
  window  : Option (BitVec 52 × BitVec 52)
deriving DecidableEq, Repr

/-- A boot image as the flash holds it (R350): its bytes, version, public key and XMSS signature. -/
structure Image where
  body    : List Byte
  version : BitVec 32
  key     : List Byte
  sig     : List Byte
deriving DecidableEq, Repr

/-- One flash slot: Reeve, monitor and command-processor images (R350). -/
structure FlashSlot where
  reeve   : Image
  monitor : Image
  cp      : Image
deriving DecidableEq, Repr

/-- Messages of the fabric (R349): a send, tagged or not, goes to a virtual queue of a sublease on a port, where a receive
takes it. -/
inductive FabricMsg
  | send (port : BitVec 4) (lease sub : Byte) (tag : Option Word) (data : List Byte)
  | receive (port : BitVec 4) (lease sub : Byte) (tag : Option Word)
  | rmaWrite (addr : BitVec 48) (data : List Byte)
  | rmaRead (addr : BitVec 48) (len : BitVec 16)
  | atomic (op : AmoOp) (addr : BitVec 48) (data : Word)
  | unsupported (option : BitVec 8)
  | coll (node : BitVec 32) (die : BitVec 2) (index : Nat) (params : List Word) (data : List Word)
  | collAbort (node : BitVec 32) (die : BitVec 2) (index : Nat)
deriving DecidableEq, Repr

/-- A register a context-access request names (R345); of a mask and of a front's image (R249) one 8-byte word. -/
inductive CtxReg
  | x (r : XReg) | h (r : HReg) | pc | ctl (n : BitVec 12) | plot (v : VReg) | mask (m : MReg) (i : BitVec 6)
  | front (f : FReg) (i : BitVec 8)
deriving DecidableEq, Repr

/-- The arguments of the requests of R345; `malformed` stands for what fits none of them (R344). -/
inductive ReqBody
  | createSublease (a : Assign) | destroySublease
  | map (stage2 large : Bool) (die : BitVec 2) (addr entry : Word)
  | setLimits (cap : BitVec 2) (quota : BitVec 16) (urn : BitVec 8)
  | setOccupants (die : BitVec 2) (slot : BitVec 6) (entry : Word)
  | readCounters (die : BitVec 2) (first : BitVec 6) | resetSublease | injectError (die : BitVec 2) (v : Word)
  | delegate (toLease toSub : Byte) (rights : Rights) | revoke (toLease toSub : Byte)
  | registerEventQueue (base : Word) (k : BitVec 5) | setLdm (v : Word)
  | resume (c : CtxId) | terminate (c : CtxId) | contextAccess (c : CtxId) (reg : CtxReg) (v : Option Word)
  | breakpoint (c : CtxId) (arm : Bool) (a : Word) | launchRequest (die : BitVec 2) (addr : Word)
  | readBlackBox (first : Word) | power (us : BitVec 32) | attest (nonce : BitVec 256)
  | releaseQuarantine (die : BitVec 2) (slice : Byte) (way : BitVec 4)
  | malformed
deriving DecidableEq, Repr

/-- What selects a step that no word encodes: it stands beside the step in the agenda (log 2). -/
inductive EventArg
  | none
  | word (v : Word)
  | dieWord (die : BitVec 2) (v : Word)
  | cluster (c : BitVec 6)
  | op (id : Nat)
  | stream (fe : BitVec 9) (slot : BitVec 4)
  | pot (p : PotAdd)
  | die (d : BitVec 2)
  | nest (die : BitVec 2) (nest : Nat)
  | ctx (c : CtxId)
  | lane (c : CtxId) (e : Nat)
  | way (die : BitVec 2) (slice : Byte) (set : BitVec 5) (way : BitVec 4) (line : BitVec 2)
  | addr (a : BitVec 48)
  | flash (s0 s1 : FlashSlot)
  | fabric (m : FabricMsg)
  | request (r : Req) (b : ReqBody)
  | waiting (n : Nat)
  | error (t : ErrTarget)
  | cc (a : CcAccess)
  | ccRun (core : BitVec 5) (lease sub : Byte) (level : BitVec 2)
  | migration (lease : Byte) (arrive : Bool) (time pause : Word) (roots : Vector Word 4)
deriving DecidableEq, Repr

/-- One constructor per row of the opcode table, the encoded rows first. A row that no word encodes carries
no field, as in the table: what selects its step is the `EventArg` of the turn that performs it (log 2). -/
inductive Instr
  -- integer arithmetic, major 0x01 (R143, R144)
  | add (d a b : XReg) | sub (d a b : XReg) | and (d a b : XReg) | or (d a b : XReg) | xor (d a b : XReg)
  | sll (d a b : XReg) | srl (d a b : XReg) | sra (d a b : XReg) | slt (d a b : XReg) | sltu (d a b : XReg)
  | min (d a b : XReg) | max (d a b : XReg) | minu (d a b : XReg) | maxu (d a b : XReg)
  | clz (d a : XReg) | ctz (d a : XReg) | popc (d a : XReg)
  | mul (d a b : XReg) | mulh (d a b : XReg) | mulhu (d a b : XReg)
  | div (d a b : XReg) | divu (d a b : XReg) | rem (d a b : XReg) | remu (d a b : XReg)
  -- immediates, majors 0x02-0x07 (R145)
  | addi (d a : XReg) (i : BitVec 16) | andi (d a : XReg) (i : BitVec 16) | ori (d a : XReg) (i : BitVec 16)
  | xori (d a : XReg) (i : BitVec 16) | slli (d a : XReg) (h : BitVec 6) | srli (d a : XReg) (h : BitVec 6)
  | srai (d a : XReg) (h : BitVec 6) | lui (d : XReg) (i : BitVec 16)
  -- scalar floating point, majors 0x08, 0x09 (R147, R148)
  | fadd (t : STy) (d a b : XReg) | fsub (t : STy) (d a b : XReg) | fmul (t : STy) (d a b : XReg)
  | fdiv (t : STy) (d a b : XReg) | fsqrt (t : STy) (d a : XReg) | fmin (t : STy) (d a b : XReg)
  | fmax (t : STy) (d a b : XReg) | fcmpEq (t : STy) (d a b : XReg) | fcmpLt (t : STy) (d a b : XReg)
  | fcmpLe (t : STy) (d a b : XReg) | fcvtToI64 (t : STy) (d a : XReg) | fcvtFromI64 (t : STy) (d a : XReg)
  | fcvtFpFp (t : STy) (d a : XReg) | fmv (t : STy) (d a : XReg) | fneg (t : STy) (d a : XReg)
  | fabs (t : STy) (d a : XReg)
  | ffma (t : STy) (d a b c : XReg) | ffms (t : STy) (d a b c : XReg) | ffnma (t : STy) (d a b c : XReg)
  | ffnms (t : STy) (d a b c : XReg)
  -- system, major 0x0A (R155)
  | waitev (d a b : XReg) | chkerr (d : XReg)
  -- CTL, major 0x0B (R156), and the register writes the table lists as steps of their own
  | ctlr (d : XReg) (c : BitVec 12) | ctlw (d a : XReg) (c : BitVec 12) | ctlset (d a : XReg) (c : BitVec 12)
  | ctlclr (d a : XReg) (c : BitVec 12)
  -- jumps and branches, majors 0x0C-0x16 (R150-R152)
  | jal (d : XReg) (o : BitVec 21) | jalr (d a : XReg) (i : BitVec 16)
  | beq (a b : XReg) (o : BitVec 16) | bne (a b : XReg) (o : BitVec 16) | blt (a b : XReg) (o : BitVec 16)
  | bge (a b : XReg) (o : BitVec 16) | bltu (a b : XReg) (o : BitVec 16) | bgeu (a b : XReg) (o : BitVec 16)
  | bany (m : MReg) (o : BitVec 16) | ball (m : MReg) (o : BitVec 16) | bnone (m : MReg) (o : BitVec 16)
  -- loads and stores, majors 0x17-0x21 (R131, R166)
  | ldB (d a : XReg) (c : BitVec 4) (o : BitVec 10) | ldBAcq (d a : XReg) (c : BitVec 4) (s : Scope) (o : BitVec 7)
  | ldH (d a : XReg) (c : BitVec 4) (o : BitVec 10) | ldHAcq (d a : XReg) (c : BitVec 4) (s : Scope) (o : BitVec 7)
  | ldW (d a : XReg) (c : BitVec 4) (o : BitVec 10) | ldWAcq (d a : XReg) (c : BitVec 4) (s : Scope) (o : BitVec 7)
  | ldD (d a : XReg) (c : BitVec 4) (o : BitVec 10) | ldDAcq (d a : XReg) (c : BitVec 4) (s : Scope) (o : BitVec 7)
  | ldBu (d a : XReg) (c : BitVec 4) (o : BitVec 10) | ldBuAcq (d a : XReg) (c : BitVec 4) (s : Scope) (o : BitVec 7)
  | ldHu (d a : XReg) (c : BitVec 4) (o : BitVec 10) | ldHuAcq (d a : XReg) (c : BitVec 4) (s : Scope) (o : BitVec 7)
  | ldWu (d a : XReg) (c : BitVec 4) (o : BitVec 10) | ldWuAcq (d a : XReg) (c : BitVec 4) (s : Scope) (o : BitVec 7)
  | stB (d a : XReg) (c : BitVec 4) (o : BitVec 10) | stBRel (d a : XReg) (c : BitVec 4) (s : Scope) (o : BitVec 7)
  | stH (d a : XReg) (c : BitVec 4) (o : BitVec 10) | stHRel (d a : XReg) (c : BitVec 4) (s : Scope) (o : BitVec 7)
  | stW (d a : XReg) (c : BitVec 4) (o : BitVec 10) | stWRel (d a : XReg) (c : BitVec 4) (s : Scope) (o : BitVec 7)
  | stD (d a : XReg) (c : BitVec 4) (o : BitVec 10) | stDRel (d a : XReg) (c : BitVec 4) (s : Scope) (o : BitVec 7)
  -- atomics, majors 0x22-0x24 (R168, R169)
  | amoswap (d a b : XReg) (c : BitVec 4) (r : AOrd) (s : Scope) | amoadd (d a b : XReg) (c : BitVec 4) (r : AOrd) (s : Scope)
  | amoand (d a b : XReg) (c : BitVec 4) (r : AOrd) (s : Scope) | amoor (d a b : XReg) (c : BitVec 4) (r : AOrd) (s : Scope)
  | amoxor (d a b : XReg) (c : BitVec 4) (r : AOrd) (s : Scope) | amomin (d a b : XReg) (c : BitVec 4) (r : AOrd) (s : Scope)
  | amomax (d a b : XReg) (c : BitVec 4) (r : AOrd) (s : Scope) | amomaxu (d a b : XReg) (c : BitVec 4) (r : AOrd) (s : Scope)
  | cas (d a b : XReg) (c : BitVec 4) (r : AOrd) (s : Scope)
  -- fences and maintenance, major 0x25 (R171-R176)
  | fence (s : Scope) (a b : XReg)
  | cacheopPf (a b : XReg) | cacheopPf2 (a b : XReg) | cacheopPfw (a b : XReg) | cacheopEvict (a b : XReg)
  | cacheopClean (a b : XReg)
  | tlbinvS1 (a b : XReg) | tlbinvS1all (b : XReg) | tlbinvS2 (a b : XReg) | tlbinvS2all (b : XReg)
  | stashmap (d a b : XReg) | stashunmap (a : XReg)
  -- references, majors 0x26-0x2C (R178)
  | hld (d a : HReg) (c : BitVec 4) (o : BitVec 10) | hldAcq (d a : HReg) (c : BitVec 4) (s : Scope) (o : BitVec 7)
  | hst (d a : HReg) (c : BitVec 4) (o : BitVec 10) | hstRel (d a : HReg) (c : BitVec 4) (s : Scope) (o : BitVec 7)
  | hldw (d : XReg) (a : HReg) (c : BitVec 4) (o : BitVec 10)
  | hldwAcq (d : XReg) (a : HReg) (c : BitVec 4) (s : Scope) (o : BitVec 7)
  | hstw (d : XReg) (a : HReg) (c : BitVec 4) (o : BitVec 10)
  | hstwRel (d : XReg) (a : HReg) (c : BitVec 4) (s : Scope) (o : BitVec 7)
  | hcas (d a : HReg) (b : XReg) (c : BitVec 4) (r : AOrd) (s : Scope)
  | hcasw (d : XReg) (a : HReg) (b : XReg) (c : BitVec 4) (r : AOrd) (s : Scope)
  | hcmp (d : XReg) (a b : HReg) | hpin (d : XReg) (a : HReg) | hunpin (a : HReg)
  | hmake (d : HReg) (a : XReg) | hmakeI (d a : HReg) (b : XReg)
  -- engine commands, major 0x2D (R251)
  | tdesc (a : XReg) (k : BitVec 4) | cpy (d a b : XReg) | cpyDsrc (d a b : XReg) (k : BitVec 4)
  | cpyDdst (d a b : XReg) (k : BitVec 4) | cpydrain (s : Scope) | strset (a : XReg) (k : BitVec 4)
  | mcast (d a n : XReg) | potinit (a b : XReg) | potadd (s : Scope) (a b : XReg) | potwait (s : Scope) (d a : XReg)
  | coll (d a : XReg) | collwait (d a : XReg) | hglean (d a b : XReg) | hgleanFree (d a : XReg) | launch (d a : XReg)
  -- the Miller, major 0x2E (R234)
  | mldb (d a b : XReg) | mmul (m : MmulMode) (t q : BitVec 2) (a b : XReg) | mclr (t : BitVec 2)
  | mout (f64 clr : Bool) (t q : BitVec 2) (a b : XReg)
  | vlend (o : BitVec 16)
  | convoyHeader (n u1 u2 u3 u4 u5 u6 : BitVec 3)
  -- configuration, major 0x30 (R189-R196)
  | plotset (dt : Bool) (vd : VReg) (xs : XReg) | plotget (dt : Bool) (xd : XReg) (va : VReg)
  | setvl (dt : Bool) (xd xc : XReg) | setvlW (dt partly : Bool) (s : Scope) (xd xa xc : XReg)
  | vloop (dt : Bool) (xa : XReg) | wmpub (dt : Bool) (s : Scope) (xa : XReg)
  -- floating-point arithmetic, majors 0x31, 0x32 (R198-R200)
  | vfadd (t : FTy) (o : VOpts) (vd va : VReg) (b : VSrc) | vfsub (t : FTy) (o : VOpts) (vd va : VReg) (b : VSrc)
  | vfmul (t : FTy) (o : VOpts) (vd va : VReg) (b : VSrc) | vfdiv (t : FTy) (o : VOpts) (vd va : VReg) (b : VSrc)
  | vfmin (t : FTy) (o : VOpts) (vd va : VReg) (b : VSrc) | vfmax (t : FTy) (o : VOpts) (vd va : VReg) (b : VSrc)
  | vfsgnj (t : FTy) (o : VOpts) (vd va : VReg) (b : VSrc) | vfsgnjn (t : FTy) (o : VOpts) (vd va : VReg) (b : VSrc)
  | vfsgnjx (t : FTy) (o : VOpts) (vd va : VReg) (b : VSrc)
  | vfma (t : FTy) (o : VOpts) (vd va : VReg) (b : VSrc) (vc : VReg) | vfms (t : FTy) (o : VOpts) (vd va : VReg) (b : VSrc) (vc : VReg)
  | vfnma (t : FTy) (o : VOpts) (vd va : VReg) (b : VSrc) (vc : VReg) | vfnms (t : FTy) (o : VOpts) (vd va : VReg) (b : VSrc) (vc : VReg)
  | vfsqrt (t : FTy) (o : VOpts) (vd va : VReg) | vfrec (t : FTy) (o : VOpts) (vd va : VReg)
  | vfrsqrt (t : FTy) (o : VOpts) (vd va : VReg) | vfexp (t : FTy) (o : VOpts) (vd va : VReg)
  | vflog (t : FTy) (o : VOpts) (vd va : VReg) | vfsin (t : FTy) (o : VOpts) (vd va : VReg)
  | vfcos (t : FTy) (o : VOpts) (vd va : VReg) | vftanh (t : FTy) (o : VOpts) (vd va : VReg)
  | vfabs (t : FTy) (o : VOpts) (vd va : VReg) | vfneg (t : FTy) (o : VOpts) (vd va : VReg)
  -- integer arithmetic, major 0x33 (R201, R202)
  | vadd (t : ITy) (o : VOpts) (vd va : VReg) (b : VSrc) | vsub (t : ITy) (o : VOpts) (vd va : VReg) (b : VSrc)
  | vmul (t : ITy) (o : VOpts) (vd va : VReg) (b : VSrc) | vmulh (t : ITy) (o : VOpts) (vd va : VReg) (b : VSrc)
  | vmulhu (t : ITy) (o : VOpts) (vd va : VReg) (b : VSrc) | vdiv (t : ITy) (o : VOpts) (vd va : VReg) (b : VSrc)
  | vdivu (t : ITy) (o : VOpts) (vd va : VReg) (b : VSrc) | vrem (t : ITy) (o : VOpts) (vd va : VReg) (b : VSrc)
  | vremu (t : ITy) (o : VOpts) (vd va : VReg) (b : VSrc) | vand (t : ITy) (o : VOpts) (vd va : VReg) (b : VSrc)
  | vor (t : ITy) (o : VOpts) (vd va : VReg) (b : VSrc) | vxor (t : ITy) (o : VOpts) (vd va : VReg) (b : VSrc)
  | vsll (t : ITy) (o : VOpts) (vd va : VReg) (b : VSrc) | vsrl (t : ITy) (o : VOpts) (vd va : VReg) (b : VSrc)
  | vsra (t : ITy) (o : VOpts) (vd va : VReg) (b : VSrc) | vmin (t : ITy) (o : VOpts) (vd va : VReg) (b : VSrc)
  | vmax (t : ITy) (o : VOpts) (vd va : VReg) (b : VSrc) | vminu (t : ITy) (o : VOpts) (vd va : VReg) (b : VSrc)
  | vmaxu (t : ITy) (o : VOpts) (vd va : VReg) (b : VSrc)
  | vadc (t : ITy) (o : VOpts) (vd va : VReg) (b : VSrc) (mci mco : MReg)
  | vsbc (t : ITy) (o : VOpts) (vd va : VReg) (b : VSrc) (mci mco : MReg)
  -- compares and conversions, major 0x34 (R204, R205)
  | vfcmp (c : FCond) (t : FTy) (o : VOpts) (md : MReg) (va vb : VReg) | vcmp (c : ICond) (t : ITy) (o : VOpts) (md : MReg) (va vb : VReg)
  | vcvt (dt st : ETy) (o : VOpts) (vd va : VReg)
  -- masks, reductions, random numbers, synchronisation, major 0x35 (R206-R212)
  | mand (o : VOpts) (md ma mb : MReg) | mor (o : VOpts) (md ma mb : MReg) | mxor (o : VOpts) (md ma mb : MReg)
  | mandn (o : VOpts) (md ma mb : MReg) | mnot (o : VOpts) (md ma : MReg)
  | mshift (down : Bool) (k : MCount) (o : VOpts) (md ma : MReg)
  | mpopc (lq : Bool) (o : VOpts) (xd : XReg) (ma : MReg) | mfirst (o : VOpts) (xd : XReg) (ma : MReg)
  | vred (op : RedOp) (t : ITy) (o : VOpts) (xd : XReg) (va : VReg) | vfred (op : FRedOp) (t : FTy) (o : VOpts) (xd : XReg) (va : VReg)
  | vrand (t : ETy) (o : VOpts) (vd : VReg) (xs : XReg) | vsync (dt : Bool) (s : Scope)
  -- vector memory, major 0x36 (R214-R221)
  | vld (t : ETy) (o : VOpts) (r : LdOrd) (c : BitVec 4) (xs : XReg) (vd vc : VReg)
  | vldStrided (t : ETy) (o : VOpts) (r : LdOrd) (c : BitVec 4) (xs xp : XReg) (vd : VReg)
  | vldx (t : ETy) (o : VOpts) (r : LdOrd) (c : BitVec 4) (ix64 : Bool) (xs : XReg) (vd vb : VReg)
  | vldt (t : ETy) (o : VOpts) (r : LdOrd) (c : BitVec 4) (xs xp : XReg) (vd : VReg)
  | vst (t : ETy) (o : VOpts) (r : StOrd) (c : BitVec 4) (xs : XReg) (va vc : VReg)
  | vstStrided (t : ETy) (o : VOpts) (r : StOrd) (c : BitVec 4) (xs xp : XReg) (va : VReg)
  | vstx (t : ETy) (o : VOpts) (r : StOrd) (c : BitVec 4) (ix64 : Bool) (xs : XReg) (va vb : VReg)
  | vamo (op : AmoOp) (t : ITy) (o : VOpts) (r : VamoOrd) (c : BitVec 4) (ix64 discard : Bool) (xs : XReg) (vd va vb : VReg)
  -- movement, major 0x37 (R220-R224)
  | vperm (t : ETy) (o : VOpts) (vd va vb : VReg) | vslideup (t : ETy) (o : VOpts) (vd va : VReg) (k : VCount)
  | vslidedn (t : ETy) (o : VOpts) (vd va : VReg) (k : VCount) | vcompress (lq : Bool) (t : ETy) (o : VOpts) (vd va : VReg) (mc : MReg)
  | vexpand (t : ETy) (o : VOpts) (vd va : VReg) (mc : MReg) | vbcast (t : ETy) (o : VOpts) (vd va : VReg) (k : VCount)
  | vextract (t : ETy) (o : VOpts) (xd : XReg) (va : VReg) (k : VCount) | vinsert (t : ETy) (o : VOpts) (vd : VReg) (xs : XReg) (k : VCount)
  | vunpk (t : ETy) (o : VOpts) (vd va : VReg)
  -- Mill queues and lane threads, major 0x38 (R225-R230)
  | vfeed (f : Feed) (t : FTy) (o : VOpts) (va : VReg) | vdrain (f64 : Bool) (t : FTy) (o : VOpts) (vd : VReg)
  | vdetach (o : VOpts) (va : VReg) (nt : BitVec 4) (xs : XReg) | vfence (dt : Bool) (s : Scope)
  -- fronts, major 0x39 (R241-R250)
  | fcfg (o : VOpts) (fd : FReg) (xs : XReg) | fins (o : VOpts) (fd : FReg) (va vb : VReg) | fmerge (o : VOpts) (fa fb : FReg)
  | fread (o : VOpts) (vd vb : VReg) (fa : FReg) (xd : XReg) | fclr (o : VOpts) (fd : FReg)
  | fsave (o : VOpts) (fa : FReg) (xs : XReg) | fload (o : VOpts) (fd : FReg) (xs : XReg)
  -- rows without a field (R155, R172, R240)
  | syscall | tret | yield | exit | vrelease | lexit | ifence | msync
  -- register writes the table lists as steps of their own (R108, R159, R328)
  | tqposWrite | statusProtectedWrite | pipeownWrite | errinjWrite
  -- steps of the Mill, of lane threads, of engines and streams (R44-R53, R67-R70, R120, R229, R258-R263)
  | millOperation | laneThreadLimit
  | engineIssuePoint | engineRetire | streamTransfer | mcastArrival | potAddition
  | collectiveStart | collectiveEnd | collectiveAbort | gleanerCycle | gleanerObjectCopy
  -- the Crier (R161, R292-R301)
  | crierPlacement | priorityAging | drainComplete | slotBoundary | eventRecordWrite | waitevWake | waitevTimeout
  -- errors (R316-R329)
  | dirtyL2UeContainment | pageRetire | dramPatrolScrub | l2SliceScrub | cpFault | cpRestart | reeveFault
  | reeveRestart | errinjPerform
  -- the board, flash and fabric (R348-R352)
  | deviceBoot | powerStateEntry | wake | fabricMessage
  -- requests to the Reeve (R345)
  | createSublease | destroySublease | map | setLimits | setOccupants | readCounters | resetSublease | injectError
  | delegate | revoke | registerEventQueue | setLdm | resume | terminate | contextAccess | breakpoint
  | launchRequest | readBlackBox | power | attest | releaseQuarantine
  -- dispatch, decode failure, errors from outside, control cores, migration
  | vectorDispatch | illegalInstruction | uncorrectableError | controlCoreAccess | leaseMigration
deriving DecidableEq, Repr

end Sys2Proof
end

