-- ==== Sys2Proof/Config.lean ====
section
/-! DEFINITION. What the spec leaves open and this model does not choose, and functions that other standards define and the
spec names: constants without a body. A claim that holds of the model holds whatever they are (log 8, log 15). -/

namespace Sys2Proof.Config

/-- The n-th 64-bit value the spec leaves open; `State.freeCtr` counts the values drawn (log 8). -/
opaque freeValue : Nat → Word

/-- SHAKE256 with 32 bytes of output (R350). -/
opaque shake256 : List Byte → BitVec 256

/-- XMSS verification in the parameter set of R350: key, message, signature. -/
opaque xmssVerify : List Byte → List Byte → List Byte → Bool

/-- An XMSS signature with the device's identity key under a leaf (R351): leaf, message. -/
opaque xmssSign : Nat → List Byte → Vector Byte 2820

/-- The bytes of a target's partition assignment and of the rest of a quote, whose layout the spec does not give (R351): they
are hashed and signed. -/
opaque quoteBytes : List Nat → List Byte

/-- The arguments that words 1-7 of a request of a code hold, whose places the spec does not give (R344, log 15). -/
opaque requestBody : BitVec 8 → List Word → Option ReqBody

end Sys2Proof.Config
end

