-- ==== Sys2Proof/WellFormed.lean ====
section
/-! DEFINITION. Well-formed instructions: the terms of `Instr` that a word of R129-R141 can hold. A step
that no word encodes is well-formed whatever it carries. Each check names its rule. -/

namespace Sys2Proof

/-- A length taken from a register (VL source 2, R136). -/
def VLen.isReg : VLen → Bool
  | .reg _ => true
  | _ => false

/-- R135: Mask-invert needs a mask register other than `m0`. -/
def VOpts.predOk (o : VOpts) : Bool := !(o.inv && o.mask == 0)

/-- R135, "no predicate": Mask and Mask-invert are zero. -/
def VOpts.noPred (o : VOpts) : Bool := !o.inv && o.mask == 0

/-- R136: VL source 2 is illegal where Scalar x is an operand already. -/
def VOpts.noReg (o : VOpts) : Bool := !o.vls.isReg

/-- The length names no register but `x0`: Scalar x is marked Zero (R241). -/
def VOpts.noX (o : VOpts) : Bool := o.predOk && (match o.vls with | .reg x => x == 0 | .vl | .lq => true)

/-- An instruction that leaves Scalar x free for the length (R136). -/
def VOpts.free (o : VOpts) : Bool := o.predOk

/-- An instruction that uses Scalar x (R136). -/
def VOpts.usesX (o : VOpts) : Bool := o.predOk && o.noReg

/-- R186: the scalar form of the second source uses Scalar x. -/
def VOpts.withSrc (o : VOpts) : VSrc → Bool
  | .plot _ => o.predOk
  | .scalar _ => o.predOk && o.noReg

/-- R128: the first register of a pair is even. -/
def evenX (r : XReg) : Bool := r.toNat % 2 == 0
/-- R128, for a pair of `h` registers. -/
def evenH (r : HReg) : Bool := r.toNat % 2 == 0

/-- R225: the register types a feed format admits. -/
def Feed.admits : Feed → FTy → Bool
  | .f64, t => t == .f64
  | _, t => t != .f64

/-- R226: FP64 entries admit only `.f64`. -/
def drainAdmits (f64 : Bool) (t : FTy) : Bool := !f64 || t == .f64

/-- R207: Scalar x = 0 selects the immediate form of `mshift`. -/
def MCount.ok : MCount → Bool
  | .imm _ => true
  | .reg x => x != 0

/-- R227: va + nt - 1 is at most 63 (nt - 1 is held). -/
def detachOk (va : VReg) (nt : BitVec 4) : Bool := va.toNat + nt.toNat < 64

/-- R255: stream slots are 1-8. -/
def streamSlotOk (k : BitVec 4) : Bool := decide (1 ≤ k.toNat) && decide (k.toNat ≤ 8)

/-- R128-R141: whether the fields of an instruction are ones its encoding admits. -/
def Instr.wf : Instr → Bool
  | .cas d _ _ _ _ _ => evenX d
  | .hcas d _ _ _ _ _ => evenH d
  | .hcasw d _ _ _ _ _ => evenX d
  | .mcast _ _ n => evenX n
  | .strset _ k => streamSlotOk k
  | .vfadd _ o _ _ b | .vfsub _ o _ _ b | .vfmul _ o _ _ b | .vfdiv _ o _ _ b | .vfmin _ o _ _ b
  | .vfmax _ o _ _ b | .vfsgnj _ o _ _ b | .vfsgnjn _ o _ _ b | .vfsgnjx _ o _ _ b
  | .vfma _ o _ _ b _ | .vfms _ o _ _ b _ | .vfnma _ o _ _ b _ | .vfnms _ o _ _ b _
  | .vadd _ o _ _ b | .vsub _ o _ _ b | .vmul _ o _ _ b | .vmulh _ o _ _ b | .vmulhu _ o _ _ b
  | .vdiv _ o _ _ b | .vdivu _ o _ _ b | .vrem _ o _ _ b | .vremu _ o _ _ b | .vand _ o _ _ b
  | .vor _ o _ _ b | .vxor _ o _ _ b | .vsll _ o _ _ b | .vsrl _ o _ _ b | .vsra _ o _ _ b
  | .vmin _ o _ _ b | .vmax _ o _ _ b | .vminu _ o _ _ b | .vmaxu _ o _ _ b
  | .vadc _ o _ _ b _ _ | .vsbc _ o _ _ b _ _ => o.withSrc b
  | .vfsqrt _ o _ _ | .vfrec _ o _ _ | .vfrsqrt _ o _ _ | .vfexp _ o _ _ | .vflog _ o _ _
  | .vfsin _ o _ _ | .vfcos _ o _ _ | .vftanh _ o _ _ | .vfabs _ o _ _ | .vfneg _ o _ _
  | .vfcmp _ _ o _ _ _ | .vcmp _ _ o _ _ _ | .vcvt _ _ o _ _
  | .mand o _ _ _ | .mor o _ _ _ | .mxor o _ _ _ | .mandn o _ _ _ | .mnot o _ _
  | .vperm _ o _ _ _ | .vslideup _ o _ _ _ | .vslidedn _ o _ _ _ | .vcompress _ _ o _ _ _
  | .vexpand _ o _ _ _ | .vbcast _ o _ _ _ | .vunpk _ o _ _
  | .fins o _ _ _ => o.free
  | .fmerge o _ _ | .fclr o _ => o.noX
  | .mshift _ k o _ _ => k.ok && o.usesX
  | .mpopc _ o _ _ | .mfirst o _ _ | .vred _ _ o _ _ | .vfred _ _ o _ _ | .vrand _ o _ _
  | .vld _ o _ _ _ _ _ | .vldStrided _ o _ _ _ _ _ | .vldx _ o _ _ _ _ _ _ | .vldt _ o _ _ _ _ _
  | .vst _ o _ _ _ _ _ | .vstStrided _ o _ _ _ _ _ | .vstx _ o _ _ _ _ _ _
  | .vinsert _ o _ _ _ | .fcfg o _ _ | .fread o _ _ _ _ | .fsave o _ _ | .fload o _ _ => o.usesX
  | .vamo _ _ o _ _ _ discard _ vd _ _ => o.usesX && (!discard || vd == 0)
  | .vextract _ o _ _ _ => o.noPred && o.noReg
  | .vfeed f t o _ => o.free && f.admits t
  | .vdrain f64 t o _ => o.free && drainAdmits f64 t
  | .vdetach o va nt _ => o.usesX && detachOk va nt
  | _ => true

end Sys2Proof
end

