-- ==== Sys2Proof/Decode.lean ====
section
/-! DEFINITION. Decoding and encoding (R126-R142). `decode32` and `decode64` read one instruction from its
word and reject by name; `decodeParcels` reads a parcel stream; `encode` writes a well-formed instruction
from the same tables. Fields are cut by division and remainder so that both directions evaluate on numerals. -/

namespace Sys2Proof

/-- Why a word names no instruction: each is cause 0x01 on a front end or Miller (R127, R137). -/
inductive Reject
  /-- Major, minor, func, selector or condition that no table lists (R137). -/
  | unassigned
  /-- A field the instruction does not use is nonzero (R128, R133). -/
  | nonzeroField
  /-- A register number outside its class or an odd pair (R128), a stream slot other than 1-8 (R255). -/
  | badRegister
  /-- Order 3, an acquire on a store, a release on a load (R131). -/
  | badOrder
  /-- Scope code 6 or 7 (R131). -/
  | badScope
  /-- An element type that the minor does not admit (R134). -/
  | badType
  /-- A predicate where none is admitted, or Mask-invert with `m0` (R135). -/
  | badPredicate
  /-- VL source 3, or 2 where Scalar x is in use (R136). -/
  | badLength
  /-- Fewer bytes than the instruction has. -/
  | truncated
deriving DecidableEq, Repr

abbrev Dec (α : Type) := Except Reject α

/-- Bits lo+n-1 : lo of w. -/
def fld (w lo n : Nat) : Nat := w / 2 ^ lo % 2 ^ n

/-- One decode check. -/
def need (b : Bool) (r : Reject) : Dec Unit := if b then .ok () else .error r

def xr (n : Nat) : XReg := BitVec.ofNat 5 n
def vr (n : Nat) : VReg := BitVec.ofNat 6 n

/-- An `h` register in a 5-bit field (R128). -/
def hr (n : Nat) : Dec HReg := if n < 16 then .ok (BitVec.ofNat 4 n) else .error .badRegister
/-- A mask register in a 5-bit or 6-bit field (R128). -/
def mr (n : Nat) : Dec MReg := if n < 16 then .ok (BitVec.ofNat 4 n) else .error .badRegister
/-- A front in a 6-bit field (R128). -/
def fr (n : Nat) : Dec FReg := if n < 8 then .ok (BitVec.ofNat 3 n) else .error .badRegister
/-- An `x` register in bits 6:2 of an encoding's vb field, with bit 7 zero (R193, R214, R222). -/
def xv (n : Nat) : Dec XReg := if n < 32 then .ok (BitVec.ofNat 5 n) else .error .nonzeroField

/-! Codes of the small enumerations. -/

def Scope.code : Scope → Nat
  | .strand => 0 | .core => 1 | .cluster => 2 | .die => 3 | .device => 4 | .system => 5

def scopeOf : Nat → Dec Scope
  | 0 => .ok .strand | 1 => .ok .core | 2 => .ok .cluster | 3 => .ok .die | 4 => .ok .device | 5 => .ok .system
  | _ => .error .badScope

def AOrd.code : AOrd → Nat
  | .plain => 0 | .acq => 1 | .rel => 2 | .ar => 3

def aordOf : Nat → AOrd
  | 0 => .plain | 1 => .acq | 2 => .rel | _ => .ar

def STy.code : STy → Nat
  | .f32 => 0 | .f64 => 1

def styOf : Nat → STy
  | 0 => .f32 | _ => .f64

def FTy.code : FTy → Nat
  | .bf16 => 0 | .f32 => 1 | .f64 => 2

def ftyOf : Nat → Dec FTy
  | 0 => .ok .bf16 | 1 => .ok .f32 | 2 => .ok .f64 | _ => .error .badType

def ITy.code : ITy → Nat
  | .i32 => 3 | .i64 => 4

def ityOf : Nat → Dec ITy
  | 3 => .ok .i32 | 4 => .ok .i64 | _ => .error .badType

def ETy.code : ETy → Nat
  | .bf16 => 0 | .f32 => 1 | .f64 => 2 | .i32 => 3 | .i64 => 4

def etyOf : Nat → Dec ETy
  | 0 => .ok .bf16 | 1 => .ok .f32 | 2 => .ok .f64 | 3 => .ok .i32 | 4 => .ok .i64 | _ => .error .badType

def FCond.code : FCond → Nat
  | .eq => 0 | .ne => 1 | .lt => 2 | .le => 3 | .gt => 4 | .ge => 5

def fcondOf : Nat → Dec FCond
  | 0 => .ok .eq | 1 => .ok .ne | 2 => .ok .lt | 3 => .ok .le | 4 => .ok .gt | 5 => .ok .ge
  | _ => .error .unassigned

def ICond.code : ICond → Nat
  | .eq => 0 | .ne => 1 | .lt => 2 | .le => 3 | .ltu => 4 | .leu => 5

def icondOf : Nat → Dec ICond
  | 0 => .ok .eq | 1 => .ok .ne | 2 => .ok .lt | 3 => .ok .le | 4 => .ok .ltu | 5 => .ok .leu
  | _ => .error .unassigned

def AmoOp.code : AmoOp → Nat
  | .swap => 0 | .add => 1 | .and => 2 | .or => 3 | .xor => 4 | .min => 5 | .max => 6 | .maxu => 7

def amoOf : Nat → AmoOp
  | 0 => .swap | 1 => .add | 2 => .and | 3 => .or | 4 => .xor | 5 => .min | 6 => .max | _ => .maxu

def RedOp.code : RedOp → Nat
  | .add => 0 | .and => 1 | .or => 2 | .xor => 3 | .min => 4 | .max => 5 | .minu => 6 | .maxu => 7

def redOf : Nat → RedOp
  | 0 => .add | 1 => .and | 2 => .or | 3 => .xor | 4 => .min | 5 => .max | 6 => .minu | _ => .maxu

def FRedOp.code : FRedOp → Nat
  | .add => 0 | .min => 1 | .max => 2

def fredOf : Nat → Dec FRedOp
  | 0 => .ok .add | 1 => .ok .min | 2 => .ok .max | _ => .error .unassigned

def Feed.code : Feed → Nat
  | .bf16 => 0 | .e4m3 => 1 | .e5m2 => 2 | .f64 => 3

def feedOf : Nat → Feed
  | 0 => .bf16 | 1 => .e4m3 | 2 => .e5m2 | _ => .f64

def MmulMode.code : MmulMode → Nat
  | .bf16 => 0 | .bf16q4 => 1 | .bf16q3 => 2 | .e4m3 => 3 | .e5m2 => 4 | .e4m3q4 => 5 | .e4m3q3 => 6
  | .e5m2q4 => 7 | .e5m2q3 => 8 | .f64 => 9 | .bf16s => 10 | .bf16q4s => 11 | .bf16q3s => 12

def mmulOf : Nat → Dec MmulMode
  | 0 => .ok .bf16 | 1 => .ok .bf16q4 | 2 => .ok .bf16q3 | 3 => .ok .e4m3 | 4 => .ok .e5m2 | 5 => .ok .e4m3q4
  | 6 => .ok .e4m3q3 | 7 => .ok .e5m2q4 | 8 => .ok .e5m2q3 | 9 => .ok .f64 | 10 => .ok .bf16s | 11 => .ok .bf16q4s
  | 12 => .ok .bf16q3s | _ => .error .unassigned

def Bool.code (b : Bool) : Nat := if b then 1 else 0
def bit (n : Nat) : Bool := n == 1

/-! The scalar formats (R129-R132). -/

def decInt (d a b f : Nat) : Dec Instr :=
  match f with
  | 0x00 => .ok (.add (xr d) (xr a) (xr b)) | 0x01 => .ok (.sub (xr d) (xr a) (xr b))
  | 0x02 => .ok (.and (xr d) (xr a) (xr b)) | 0x03 => .ok (.or (xr d) (xr a) (xr b))
  | 0x04 => .ok (.xor (xr d) (xr a) (xr b)) | 0x05 => .ok (.sll (xr d) (xr a) (xr b))
  | 0x06 => .ok (.srl (xr d) (xr a) (xr b)) | 0x07 => .ok (.sra (xr d) (xr a) (xr b))
  | 0x08 => .ok (.slt (xr d) (xr a) (xr b)) | 0x09 => .ok (.sltu (xr d) (xr a) (xr b))
  | 0x0A => .ok (.min (xr d) (xr a) (xr b)) | 0x0B => .ok (.max (xr d) (xr a) (xr b))
  | 0x0C => .ok (.minu (xr d) (xr a) (xr b)) | 0x0D => .ok (.maxu (xr d) (xr a) (xr b))
  | 0x10 => do need (b == 0) .nonzeroField; .ok (.clz (xr d) (xr a))
  | 0x11 => do need (b == 0) .nonzeroField; .ok (.ctz (xr d) (xr a))
  | 0x12 => do need (b == 0) .nonzeroField; .ok (.popc (xr d) (xr a))
  | 0x20 => .ok (.mul (xr d) (xr a) (xr b)) | 0x21 => .ok (.mulh (xr d) (xr a) (xr b))
  | 0x22 => .ok (.mulhu (xr d) (xr a) (xr b)) | 0x23 => .ok (.div (xr d) (xr a) (xr b))
  | 0x24 => .ok (.divu (xr d) (xr a) (xr b)) | 0x25 => .ok (.rem (xr d) (xr a) (xr b))
  | 0x26 => .ok (.remu (xr d) (xr a) (xr b))
  | _ => .error .unassigned

/-- Major 0x06 (R145): imm16 bits 15:8 zero, bits 7:6 the form. -/
def decShift (d a i : Nat) : Dec Instr := do
  need (i / 256 == 0) .nonzeroField
  let h : BitVec 6 := BitVec.ofNat 6 (i % 64)
  match i / 64 % 4 with
  | 0 => .ok (.slli (xr d) (xr a) h)
  | 1 => .ok (.srli (xr d) (xr a) h)
  | 2 => .ok (.srai (xr d) (xr a) h)
  | _ => .error .unassigned

/-- Major 0x08 (R147): type in func bit 10, operation in bits 9:5, bits 4:0 zero. -/
def decFp (d a b f : Nat) : Dec Instr := do
  need (f % 32 == 0) .nonzeroField
  let t := styOf (f / 1024)
  let d := xr d
  let a' := xr a
  let one (i : Instr) : Dec Instr := do need (b == 0) .nonzeroField; .ok i
  let b' := xr b
  match f / 32 % 32 with
  | 0 => .ok (.fadd t d a' b') | 1 => .ok (.fsub t d a' b') | 2 => .ok (.fmul t d a' b') | 3 => .ok (.fdiv t d a' b')
  | 4 => one (.fsqrt t d a') | 5 => .ok (.fmin t d a' b') | 6 => .ok (.fmax t d a' b') | 7 => .ok (.fcmpEq t d a' b')
  | 8 => .ok (.fcmpLt t d a' b') | 9 => .ok (.fcmpLe t d a' b') | 10 => one (.fcvtToI64 t d a')
  | 11 => one (.fcvtFromI64 t d a') | 12 => one (.fcvtFpFp t d a') | 13 => one (.fmv t d a')
  | 14 => one (.fneg t d a') | 15 => one (.fabs t d a')
  | _ => .error .unassigned

/-- Major 0x09 (R148): xc in func bits 10:6, form in 5:4, type in 3, bits 2:0 zero. -/
def decFma (d a b f : Nat) : Dec Instr := do
  need (f % 8 == 0) .nonzeroField
  let t := styOf (f / 8 % 2)
  let c := xr (f / 64)
  match f / 16 % 4 with
  | 0 => .ok (.ffma t (xr d) (xr a) (xr b) c)
  | 1 => .ok (.ffms t (xr d) (xr a) (xr b) c)
  | 2 => .ok (.ffnma t (xr d) (xr a) (xr b) c)
  | _ => .ok (.ffnms t (xr d) (xr a) (xr b) c)

/-- Major 0x0A (R155). -/
def decSys (d a b f : Nat) : Dec Instr :=
  let zero (i : Instr) : Dec Instr := do need (d == 0 && a == 0 && b == 0) .nonzeroField; .ok i
  match f with
  | 0 => zero .syscall | 1 => zero .tret | 2 => .ok (.waitev (xr d) (xr a) (xr b)) | 3 => zero .yield
  | 4 => zero .exit | 5 => zero .vrelease
  | 6 => do need (a == 0 && b == 0) .nonzeroField; .ok (.chkerr (xr d))
  | 7 => zero .lexit
  | _ => .error .unassigned

/-- Major 0x0B (R156). -/
def decCtl (d a i : Nat) : Dec Instr := do
  need (i / 4096 % 4 == 0) .nonzeroField
  let c : BitVec 12 := BitVec.ofNat 12 (i % 4096)
  match i / 16384 with
  | 0 => do need (a == 0) .nonzeroField; .ok (.ctlr (xr d) c)
  | 1 => .ok (.ctlw (xr d) (xr a) c)
  | 2 => .ok (.ctlset (xr d) (xr a) c)
  | _ => .ok (.ctlclr (xr d) (xr a) c)

/-- Majors 0x14-0x16 (R151): xa zero, the mask in bits 19:16 with bit 20 zero. -/
def decMaskBranch (mk : MReg → BitVec 16 → Instr) (a b o : Nat) : Dec Instr := do
  need (a == 0) .nonzeroField
  let m ← mr b
  .ok (mk m (BitVec.ofNat 16 o))

/-- Order and offset of format M for a load (R131): plain, or acquire at a scope. -/
def decLoad (i : Nat) (plain : BitVec 4 → BitVec 10 → Instr)
    (acq : BitVec 4 → Scope → BitVec 7 → Instr) : Dec Instr :=
  let c : BitVec 4 := BitVec.ofNat 4 (i / 4096)
  match i / 1024 % 4 with
  | 0 => .ok (plain c (BitVec.ofNat 10 (i % 1024)))
  | 1 => do let s ← scopeOf (i / 128 % 8); .ok (acq c s (BitVec.ofNat 7 (i % 128)))
  | _ => .error .badOrder

/-- Order and offset of format M for a store (R131): plain, or release at a scope. -/
def decStore (i : Nat) (plain : BitVec 4 → BitVec 10 → Instr)
    (rel : BitVec 4 → Scope → BitVec 7 → Instr) : Dec Instr :=
  let c : BitVec 4 := BitVec.ofNat 4 (i / 4096)
  match i / 1024 % 4 with
  | 0 => .ok (plain c (BitVec.ofNat 10 (i % 1024)))
  | 2 => do let s ← scopeOf (i / 128 % 8); .ok (rel c s (BitVec.ofNat 7 (i % 128)))
  | _ => .error .badOrder

/-- func of an atomic (R132): Class 10:7, Order 6:5, Scope 4:2. -/
def decAmo (f : Nat) (mk : BitVec 4 → AOrd → Scope → Instr) : Dec Instr := do
  let s ← scopeOf (f / 4 % 8)
  .ok (mk (BitVec.ofNat 4 (f / 128)) (aordOf (f / 32 % 4)) s)

def decAmo22 (d a b f : Nat) : Dec Instr :=
  match f % 4 with
  | 0 => decAmo f (.amoswap (xr d) (xr a) (xr b))
  | 1 => decAmo f (.amoadd (xr d) (xr a) (xr b))
  | 2 => decAmo f (.amoand (xr d) (xr a) (xr b))
  | _ => decAmo f (.amoor (xr d) (xr a) (xr b))

def decAmo23 (d a b f : Nat) : Dec Instr :=
  match f % 4 with
  | 0 => decAmo f (.amoxor (xr d) (xr a) (xr b))
  | 1 => decAmo f (.amomin (xr d) (xr a) (xr b))
  | 2 => decAmo f (.amomax (xr d) (xr a) (xr b))
  | _ => decAmo f (.amomaxu (xr d) (xr a) (xr b))

/-- Majors 0x24, 0x2A and 0x2B: Op zero and an even pair (R132). -/
def decCas (d f : Nat) (mk : BitVec 4 → AOrd → Scope → Instr) : Dec Instr := do
  need (f % 4 == 0) .unassigned
  need (d % 2 == 0) .badRegister
  decAmo f mk

/-- Major 0x25 (R171-R176): func bits 10:8 select, bits 7:5 the form or scope, bits 4:0 zero. -/
def decMaint (d a b f : Nat) : Dec Instr := do
  need (f % 32 == 0) .nonzeroField
  let k := f / 32 % 8
  match f / 256 with
  | 0 => do
    need (d == 0) .nonzeroField
    let s ← scopeOf k
    .ok (.fence s (xr a) (xr b))
  | 1 => do need (d == 0 && a == 0 && b == 0 && k == 0) .nonzeroField; .ok .ifence
  | 2 => do
    need (d == 0) .nonzeroField
    match k with
    | 0 => .ok (.cacheopPf (xr a) (xr b)) | 1 => .ok (.cacheopPf2 (xr a) (xr b)) | 2 => .ok (.cacheopPfw (xr a) (xr b))
    | 3 => .ok (.cacheopEvict (xr a) (xr b)) | 4 => .ok (.cacheopClean (xr a) (xr b))
    | _ => .error .unassigned
  | 3 => do
    need (d == 0) .nonzeroField
    match k with
    | 0 => .ok (.tlbinvS1 (xr a) (xr b))
    | 1 => do need (a == 0) .nonzeroField; .ok (.tlbinvS1all (xr b))
    | 2 => .ok (.tlbinvS2 (xr a) (xr b))
    | 3 => do need (a == 0) .nonzeroField; .ok (.tlbinvS2all (xr b))
    | _ => .error .unassigned
  | 4 => do need (k == 0) .nonzeroField; .ok (.stashmap (xr d) (xr a) (xr b))
  | 5 => do need (k == 0 && d == 0 && b == 0) .nonzeroField; .ok (.stashunmap (xr a))
  | _ => .error .unassigned

/-- Major 0x2C (R178). -/
def decRef (d a b f : Nat) : Dec Instr := do
  match f with
  | 0x000 => do let ha ← hr a; let hb ← hr b; .ok (.hcmp (xr d) ha hb)
  | 0x100 => do need (b == 0) .nonzeroField; let ha ← hr a; .ok (.hpin (xr d) ha)
  | 0x200 => do need (d == 0 && b == 0) .nonzeroField; let ha ← hr a; .ok (.hunpin ha)
  | 0x300 => do need (b == 0) .nonzeroField; let hd ← hr d; .ok (.hmake hd (xr a))
  | 0x380 => do let hd ← hr d; let ha ← hr a; .ok (.hmakeI hd ha (xr b))
  | _ => .error .unassigned

/-- Major 0x2D (R251): func bits 10:6 select, bits 5:0 as the table gives. -/
def decEngine (d a b f : Nat) : Dec Instr := do
  let z := f % 64
  match f / 64 with
  | 0x00 => do need (d == 0 && b == 0 && z / 16 == 0) .nonzeroField; .ok (.tdesc (xr a) (BitVec.ofNat 4 z))
  | 0x01 =>
    match z / 16 with
    | 0 => do need (z % 16 == 0) .nonzeroField; .ok (.cpy (xr d) (xr a) (xr b))
    | 1 => .ok (.cpyDsrc (xr d) (xr a) (xr b) (BitVec.ofNat 4 (z % 16)))
    | 2 => .ok (.cpyDdst (xr d) (xr a) (xr b) (BitVec.ofNat 4 (z % 16)))
    | _ => .error .unassigned
  | 0x02 => do
    need (d == 0 && a == 0 && b == 0 && z / 8 == 0) .nonzeroField
    let s ← scopeOf z
    .ok (.cpydrain s)
  | 0x03 => do
    need (d == 0 && b == 0 && z / 16 == 0) .nonzeroField
    need (decide (1 ≤ z) && decide (z ≤ 8)) .badRegister
    .ok (.strset (xr a) (BitVec.ofNat 4 z))
  | 0x04 => do
    need (z == 0) .nonzeroField
    need (b % 2 == 0) .badRegister
    .ok (.mcast (xr d) (xr a) (xr b))
  | 0x05 => do need (d == 0 && z == 0) .nonzeroField; .ok (.potinit (xr a) (xr b))
  | 0x06 => do
    need (d == 0 && z / 8 == 0) .nonzeroField
    let s ← scopeOf z
    .ok (.potadd s (xr a) (xr b))
  | 0x07 => do
    need (b == 0 && z / 8 == 0) .nonzeroField
    let s ← scopeOf z
    .ok (.potwait s (xr d) (xr a))
  | 0x08 => do need (b == 0 && z == 0) .nonzeroField; .ok (.coll (xr d) (xr a))
  | 0x09 => do need (b == 0 && z == 0) .nonzeroField; .ok (.collwait (xr d) (xr a))
  | 0x0A => do need (z == 0) .nonzeroField; .ok (.hglean (xr d) (xr a) (xr b))
  | 0x0B => do need (b == 0 && z == 0) .nonzeroField; .ok (.hgleanFree (xr d) (xr a))
  | 0x0C => do need (b == 0 && z == 0) .nonzeroField; .ok (.launch (xr d) (xr a))
  | _ => .error .unassigned

/-- Major 0x2E (R234): func bits 10:8 select. -/
def decMill (d a b f : Nat) : Dec Instr := do
  let t : BitVec 2 := BitVec.ofNat 2 (f / 64 % 4)
  let q : BitVec 2 := BitVec.ofNat 2 (f / 16 % 4)
  match f / 256 with
  | 0 => do need (f % 256 == 0) .nonzeroField; .ok (.mldb (xr d) (xr a) (xr b))
  | 1 => do
    need (d == 0) .nonzeroField
    let m ← mmulOf (f % 16)
    .ok (.mmul m t q (xr a) (xr b))
  | 2 => do need (d == 0 && a == 0 && b == 0 && f % 64 == 0) .nonzeroField; .ok (.mclr t)
  | 3 => do
    need (d == 0 && f % 4 == 0) .nonzeroField
    .ok (.mout (bit (f / 8 % 2)) (bit (f / 4 % 2)) t q (xr a) (xr b))
  | 4 => do need (d == 0 && a == 0 && b == 0 && f % 256 == 0) .nonzeroField; .ok .msync
  | _ => .error .unassigned

/-- The convoy header (R110): bits 4:0 are zero; n and the unit codes are checked when it executes (R111). -/
def decConvoy (w : Nat) : Dec Instr := do
  need (fld w 0 5 == 0) .nonzeroField
  let u (lo : Nat) : BitVec 3 := BitVec.ofNat 3 (fld w lo 3)
  .ok (.convoyHeader (u 23) (u 20) (u 17) (u 14) (u 11) (u 8) (u 5))

/-- The 32-bit instruction in w (R137, R139). -/
def decode32 (w : Nat) : Dec Instr :=
  let d := fld w 21 5
  let a := fld w 16 5
  let b := fld w 11 5
  let f := fld w 0 11
  let i := fld w 0 16
  let imm : BitVec 16 := BitVec.ofNat 16 i
  match fld w 26 6 with
  | 0x01 => decInt d a b f
  | 0x02 => .ok (.addi (xr d) (xr a) imm)
  | 0x03 => .ok (.andi (xr d) (xr a) imm)
  | 0x04 => .ok (.ori (xr d) (xr a) imm)
  | 0x05 => .ok (.xori (xr d) (xr a) imm)
  | 0x06 => decShift d a i
  | 0x07 => do need (a == 0) .nonzeroField; .ok (.lui (xr d) imm)
  | 0x08 => decFp d a b f
  | 0x09 => decFma d a b f
  | 0x0A => decSys d a b f
  | 0x0B => decCtl d a i
  | 0x0C => .ok (.jal (xr d) (BitVec.ofNat 21 (fld w 0 21)))
  | 0x0D => .ok (.jalr (xr d) (xr a) imm)
  | 0x0E => .ok (.beq (xr d) (xr a) imm)
  | 0x0F => .ok (.bne (xr d) (xr a) imm)
  | 0x10 => .ok (.blt (xr d) (xr a) imm)
  | 0x11 => .ok (.bge (xr d) (xr a) imm)
  | 0x12 => .ok (.bltu (xr d) (xr a) imm)
  | 0x13 => .ok (.bgeu (xr d) (xr a) imm)
  | 0x14 => decMaskBranch .bany d a i
  | 0x15 => decMaskBranch .ball d a i
  | 0x16 => decMaskBranch .bnone d a i
  | 0x17 => decLoad i (.ldB (xr d) (xr a)) (.ldBAcq (xr d) (xr a))
  | 0x18 => decLoad i (.ldH (xr d) (xr a)) (.ldHAcq (xr d) (xr a))
  | 0x19 => decLoad i (.ldW (xr d) (xr a)) (.ldWAcq (xr d) (xr a))
  | 0x1A => decLoad i (.ldD (xr d) (xr a)) (.ldDAcq (xr d) (xr a))
  | 0x1B => decLoad i (.ldBu (xr d) (xr a)) (.ldBuAcq (xr d) (xr a))
  | 0x1C => decLoad i (.ldHu (xr d) (xr a)) (.ldHuAcq (xr d) (xr a))
  | 0x1D => decLoad i (.ldWu (xr d) (xr a)) (.ldWuAcq (xr d) (xr a))
  | 0x1E => decStore i (.stB (xr d) (xr a)) (.stBRel (xr d) (xr a))
  | 0x1F => decStore i (.stH (xr d) (xr a)) (.stHRel (xr d) (xr a))
  | 0x20 => decStore i (.stW (xr d) (xr a)) (.stWRel (xr d) (xr a))
  | 0x21 => decStore i (.stD (xr d) (xr a)) (.stDRel (xr d) (xr a))
  | 0x22 => decAmo22 d a b f
  | 0x23 => decAmo23 d a b f
  | 0x24 => decCas d f (.cas (xr d) (xr a) (xr b))
  | 0x25 => decMaint d a b f
  | 0x26 => do let hd ← hr d; let ha ← hr a; decLoad i (.hld hd ha) (.hldAcq hd ha)
  | 0x27 => do let hd ← hr d; let ha ← hr a; decStore i (.hst hd ha) (.hstRel hd ha)
  | 0x28 => do let ha ← hr a; decLoad i (.hldw (xr d) ha) (.hldwAcq (xr d) ha)
  | 0x29 => do let ha ← hr a; decStore i (.hstw (xr d) ha) (.hstwRel (xr d) ha)
  | 0x2A => do let hd ← hr d; let ha ← hr a; decCas d f (.hcas hd ha (xr b))
  | 0x2B => do let ha ← hr a; decCas d f (.hcasw (xr d) ha (xr b))
  | 0x2C => decRef d a b f
  | 0x2D => decEngine d a b f
  | 0x2E => decMill d a b f
  | 0x2F => do need (d == 0 && a == 0) .nonzeroField; .ok (.vlend imm)
  | 0x3F => decConvoy w
  | _ => .error .unassigned

/-! The vector format (R133-R136). -/

/-- The fields of a 64-bit vector word, as the table of R133 names them. -/
structure VWord where
  vc : Nat
  mask : Nat
  inv : Nat
  dt : Nat
  sx : Nat
  vls : Nat
  cls : Nat
  fn : Nat
  major : Nat
  minor : Nat
  vd : Nat
  va : Nat
  vb : Nat
  zero : Nat
deriving DecidableEq, Repr

def vword (w : Nat) : VWord :=
  { vc := fld w 58 6, mask := fld w 54 4, inv := fld w 53 1, dt := fld w 52 1, sx := fld w 47 5
    vls := fld w 45 2, cls := fld w 41 4, fn := fld w 32 9, major := fld w 26 6, minor := fld w 20 6
    vd := fld w 14 6, va := fld w 8 6, vb := fld w 2 6, zero := fld w 0 2 }

/-- The word that holds the fields of `v`. -/
def unvword (v : VWord) : Nat :=
  ((((((((((((v.vc * 16 + v.mask) * 2 + v.inv) * 2 + v.dt) * 32 + v.sx) * 4 + v.vls) * 16 + v.cls) * 512 + v.fn)
    * 64 + v.major) * 64 + v.minor) * 64 + v.vd) * 64 + v.va) * 64 + v.vb) * 4 + v.zero

/-- The predicate of R135. -/
def VWord.pred (v : VWord) : Dec Unit := need (!(v.inv == 1 && v.mask == 0)) .badPredicate

/-- "No predicate" of R135. -/
def VWord.noPred (v : VWord) : Dec Unit := need (v.inv == 0 && v.mask == 0) .badPredicate

def VWord.opts (v : VWord) (l : VLen) : VOpts :=
  { mask := BitVec.ofNat 4 v.mask, inv := bit v.inv, dt := bit v.dt, vls := l }

/-- The options of an instruction that leaves Scalar x free: VL source 2 names the length in it (R136). -/
def VWord.free (v : VWord) : Dec VOpts := do
  v.pred
  match v.vls with
  | 0 => do need (v.sx == 0) .nonzeroField; .ok (v.opts .vl)
  | 1 => do need (v.sx == 0) .nonzeroField; .ok (v.opts .lq)
  | 2 => .ok (v.opts (.reg (xr v.sx)))
  | _ => .error .badLength

/-- The same where the length is ignored and Scalar x is marked Zero (R128, R241). -/
def VWord.noX (v : VWord) : Dec VOpts := do
  let o ← v.free
  need (v.sx == 0) .nonzeroField
  .ok o

/-- The options of an instruction that uses Scalar x. -/
def VWord.usesX (v : VWord) : Dec VOpts := do
  v.pred
  match v.vls with
  | 0 => .ok (v.opts .vl)
  | 1 => .ok (v.opts .lq)
  | _ => .error .badLength

/-- The second source of R186 and the options that go with it. -/
def VWord.src (v : VWord) : Dec (VOpts × VSrc) := do
  if v.fn / 32 % 2 == 0 then
    let o ← v.free
    .ok (o, .plot (vr v.vb))
  else
    need (v.vb == 0) .nonzeroField
    let o ← v.usesX
    .ok (o, .scalar (xr v.sx))

def VWord.ftype (v : VWord) : Dec FTy := ftyOf (v.fn / 64)
def VWord.itype (v : VWord) : Dec ITy := ityOf (v.fn / 64)
def VWord.etype (v : VWord) : Dec ETy := etyOf (v.fn / 64)

/-- Major 0x30 (R189-R196): no predicate, VL source 0. -/
def dec30 (v : VWord) : Dec Instr := do
  v.noPred
  need (v.vls == 0) .badLength
  let dt := bit v.dt
  let x := xr v.sx
  match v.minor with
  | 0x00 => do need (v.fn == 0 && v.va == 0 && v.vb == 0 && v.vc == 0) .nonzeroField; .ok (.plotset dt (vr v.vd) x)
  | 0x01 => do need (v.fn == 0 && v.vd == 0 && v.vb == 0 && v.vc == 0) .nonzeroField; .ok (.plotget dt x (vr v.va))
  | 0x02 => do
    need (v.fn == 0 && v.vd == 0 && v.va == 0 && v.vc == 0) .nonzeroField
    let c ← xv v.vb
    .ok (.setvl dt x c)
  | 0x03 => do
    need (v.fn / 16 == 0 && v.vd == 0 && v.vc == 0) .nonzeroField
    let a ← xv v.va
    let c ← xv v.vb
    let s ← scopeOf (v.fn / 2 % 8)
    .ok (.setvlW dt (bit (v.fn % 2)) s x a c)
  | 0x04 => do
    need (v.fn == 0 && v.vd == 0 && v.va == 0 && v.vb == 0 && v.vc == 0) .nonzeroField
    .ok (.vloop dt x)
  | 0x05 => do
    need (v.fn / 16 == 0 && v.fn % 2 == 0 && v.vd == 0 && v.va == 0 && v.vb == 0 && v.vc == 0) .nonzeroField
    let s ← scopeOf (v.fn / 2 % 8)
    .ok (.wmpub dt s x)
  | _ => .error .unassigned

/-- Major 0x31 (R198): function bits 36:32 zero. -/
def dec31 (v : VWord) : Dec Instr := do
  need (v.fn % 32 == 0 && v.vc == 0) .nonzeroField
  let t ← v.ftype
  let (o, b) ← v.src
  let d := vr v.vd
  let a := vr v.va
  match v.minor with
  | 0x00 => .ok (.vfadd t o d a b) | 0x01 => .ok (.vfsub t o d a b) | 0x02 => .ok (.vfmul t o d a b)
  | 0x03 => .ok (.vfdiv t o d a b) | 0x04 => .ok (.vfmin t o d a b) | 0x05 => .ok (.vfmax t o d a b)
  | 0x06 => .ok (.vfsgnj t o d a b) | 0x07 => .ok (.vfsgnjn t o d a b) | 0x08 => .ok (.vfsgnjx t o d a b)
  | _ => .error .unassigned

/-- The fused products of major 0x32 (R199). -/
def dec32Fused (v : VWord) (mk : FTy → VOpts → VReg → VReg → VSrc → VReg → Instr) : Dec Instr := do
  need (v.fn % 32 == 0) .nonzeroField
  let t ← v.ftype
  let (o, b) ← v.src
  .ok (mk t o (vr v.vd) (vr v.va) b (vr v.vc))

/-- The one-source functions of major 0x32 (R200): vb, vc and function bits 37:32 zero. -/
def dec32One (v : VWord) (mk : FTy → VOpts → VReg → VReg → Instr) : Dec Instr := do
  need (v.fn % 64 == 0 && v.vb == 0 && v.vc == 0) .nonzeroField
  let t ← v.ftype
  let o ← v.free
  .ok (mk t o (vr v.vd) (vr v.va))

def dec32 (v : VWord) : Dec Instr :=
  match v.minor with
  | 0x00 => dec32Fused v .vfma | 0x01 => dec32Fused v .vfms | 0x02 => dec32Fused v .vfnma | 0x03 => dec32Fused v .vfnms
  | 0x10 => dec32One v .vfsqrt | 0x11 => dec32One v .vfrec | 0x12 => dec32One v .vfrsqrt | 0x13 => dec32One v .vfexp
  | 0x14 => dec32One v .vflog | 0x15 => dec32One v .vfsin | 0x16 => dec32One v .vfcos | 0x17 => dec32One v .vftanh
  | 0x18 => dec32One v .vfabs | 0x19 => dec32One v .vfneg
  | _ => .error .unassigned

/-- The two-source operations of major 0x33 (R201). -/
def dec33Two (v : VWord) (mk : ITy → VOpts → VReg → VReg → VSrc → Instr) : Dec Instr := do
  need (v.fn % 32 == 0 && v.vc == 0) .nonzeroField
  let t ← v.itype
  let (o, b) ← v.src
  .ok (mk t o (vr v.vd) (vr v.va) b)

/-- `vadc` and `vsbc` (R202): carry-in in vc, carry-out in function bits 35:32, bit 36 zero. -/
def dec33Carry (v : VWord) (mk : ITy → VOpts → VReg → VReg → VSrc → MReg → MReg → Instr) : Dec Instr := do
  need (v.fn / 16 % 2 == 0) .nonzeroField
  let t ← v.itype
  let (o, b) ← v.src
  let mci ← mr v.vc
  .ok (mk t o (vr v.vd) (vr v.va) b mci (BitVec.ofNat 4 (v.fn % 16)))

def dec33 (v : VWord) : Dec Instr :=
  match v.minor with
  | 0x00 => dec33Two v .vadd | 0x01 => dec33Two v .vsub | 0x02 => dec33Two v .vmul | 0x03 => dec33Two v .vmulh
  | 0x04 => dec33Two v .vmulhu | 0x05 => dec33Two v .vdiv | 0x06 => dec33Two v .vdivu | 0x07 => dec33Two v .vrem
  | 0x08 => dec33Two v .vremu | 0x09 => dec33Two v .vand | 0x0A => dec33Two v .vor | 0x0B => dec33Two v .vxor
  | 0x0C => dec33Two v .vsll | 0x0D => dec33Two v .vsrl | 0x0E => dec33Two v .vsra | 0x0F => dec33Two v .vmin
  | 0x10 => dec33Two v .vmax | 0x11 => dec33Two v .vminu | 0x12 => dec33Two v .vmaxu
  | 0x13 => dec33Carry v .vadc | 0x14 => dec33Carry v .vsbc
  | _ => .error .unassigned

/-- Major 0x34 (R141, R204, R205). -/
def dec34 (v : VWord) : Dec Instr := do
  need (v.vc == 0) .nonzeroField
  let o ← v.free
  match v.minor with
  | 0x00 => do
    let t ← v.ftype
    let c ← fcondOf (v.fn % 64)
    let md ← mr v.vd
    .ok (.vfcmp c t o md (vr v.va) (vr v.vb))
  | 0x01 => do
    let t ← v.itype
    let c ← icondOf (v.fn % 64)
    let md ← mr v.vd
    .ok (.vcmp c t o md (vr v.va) (vr v.vb))
  | 0x02 => do
    need (v.vb == 0 && v.fn % 8 == 0) .nonzeroField
    let dt ← v.etype
    let st ← etyOf (v.fn / 8 % 8)
    .ok (.vcvt dt st o (vr v.vd) (vr v.va))
  | _ => .error .unassigned

/-- The logical mask operations (R206). -/
def dec35Mask (v : VWord) (mk : VOpts → MReg → MReg → MReg → Instr) : Dec Instr := do
  need (v.fn == 0 && v.vc == 0) .nonzeroField
  let o ← v.free
  let md ← mr v.vd
  let ma ← mr v.va
  let mb ← mr v.vb
  .ok (mk o md ma mb)

/-- `mshift` (R207): Scalar x is its count field in both forms. -/
def decMshift (v : VWord) : Dec Instr := do
  need (v.vb == 0 && v.vc == 0) .nonzeroField
  let o ← v.usesX
  let md ← mr v.vd
  let ma ← mr v.va
  let down := bit (v.fn / 256)
  if v.sx == 0 then .ok (.mshift down (.imm (BitVec.ofNat 8 (v.fn % 256))) o md ma)
  else do
    need (v.fn % 256 == 0) .nonzeroField
    .ok (.mshift down (.reg (xr v.sx)) o md ma)

/-- Major 0x35 (R206-R212). -/
def dec35 (v : VWord) : Dec Instr := do
  match v.minor with
  | 0x00 => dec35Mask v .mand
  | 0x01 => dec35Mask v .mor
  | 0x02 => dec35Mask v .mxor
  | 0x03 => dec35Mask v .mandn
  | 0x04 => do need (v.vb == 0) .nonzeroField; dec35Mask v (fun o md ma _ => .mnot o md ma)
  | 0x05 => decMshift v
  | 0x06 => do
    need (v.fn / 2 == 0 && v.vd == 0 && v.vb == 0 && v.vc == 0) .nonzeroField
    let o ← v.usesX
    let ma ← mr v.va
    .ok (.mpopc (bit (v.fn % 2)) o (xr v.sx) ma)
  | 0x07 => do
    need (v.fn == 0 && v.vd == 0 && v.vb == 0 && v.vc == 0) .nonzeroField
    let o ← v.usesX
    let ma ← mr v.va
    .ok (.mfirst o (xr v.sx) ma)
  | 0x10 => do
    need (v.fn / 8 % 8 == 0 && v.vd == 0 && v.vb == 0 && v.vc == 0) .nonzeroField
    let t ← v.itype
    let o ← v.usesX
    .ok (.vred (redOf (v.fn % 8)) t o (xr v.sx) (vr v.va))
  | 0x11 => do
    need (v.fn / 8 % 8 == 0 && v.vd == 0 && v.vb == 0 && v.vc == 0) .nonzeroField
    let t ← v.ftype
    let op ← fredOf (v.fn % 8)
    let o ← v.usesX
    .ok (.vfred op t o (xr v.sx) (vr v.va))
  | 0x12 => do
    need (v.fn % 64 == 0 && v.va == 0 && v.vb == 0 && v.vc == 0) .nonzeroField
    let t ← v.etype
    let o ← v.usesX
    .ok (.vrand t o (vr v.vd) (xr v.sx))
  | 0x13 => do
    v.noPred
    need (v.vls == 0) .badLength
    need (v.fn / 8 == 0 && v.sx == 0 && v.vd == 0 && v.va == 0 && v.vb == 0 && v.vc == 0) .nonzeroField
    let s ← scopeOf v.fn
    .ok (.vsync (bit v.dt) s)
  | _ => .error .unassigned

/-- Order and Scope of a vector memory instruction (R134): Scope is zero when Order is 0. -/
def VWord.plainScope (v : VWord) : Dec Unit := need (v.fn / 2 % 8 == 0) .nonzeroField

def VWord.ldOrd (v : VWord) : Dec LdOrd :=
  match v.fn / 16 % 4 with
  | 0 => do v.plainScope; .ok .plain
  | 1 => do let s ← scopeOf (v.fn / 2 % 8); .ok (.acq s)
  | _ => .error .badOrder

def VWord.stOrd (v : VWord) : Dec StOrd :=
  match v.fn / 16 % 4 with
  | 0 => do v.plainScope; .ok .plain
  | 2 => do let s ← scopeOf (v.fn / 2 % 8); .ok (.rel s)
  | _ => .error .badOrder

def VWord.vamoOrd (v : VWord) : Dec VamoOrd :=
  match v.fn / 16 % 4 with
  | 0 => do v.plainScope; .ok .plain
  | 1 => do let s ← scopeOf (v.fn / 2 % 8); .ok (.acq s)
  | 2 => do let s ← scopeOf (v.fn / 2 % 8); .ok (.rel s)
  | _ => do let s ← scopeOf (v.fn / 2 % 8); .ok (.ar s)

/-- Major 0x36 (R214): Scalar x is the base register of each. -/
def dec36 (v : VWord) : Dec Instr := do
  let c : BitVec 4 := BitVec.ofNat 4 v.cls
  let x := xr v.sx
  match v.minor with
  | 0x00 => do
    need (v.fn % 2 == 0 && v.va == 0 && v.vb == 0) .nonzeroField
    let t ← v.etype; let o ← v.usesX; let r ← v.ldOrd
    .ok (.vld t o r c x (vr v.vd) (vr v.vc))
  | 0x01 => do
    need (v.fn % 2 == 0 && v.va == 0 && v.vc == 0) .nonzeroField
    let t ← v.etype; let o ← v.usesX; let r ← v.ldOrd; let p ← xv v.vb
    .ok (.vldStrided t o r c x p (vr v.vd))
  | 0x02 => do
    need (v.va == 0 && v.vc == 0) .nonzeroField
    let t ← v.etype; let o ← v.usesX; let r ← v.ldOrd
    .ok (.vldx t o r c (bit (v.fn % 2)) x (vr v.vd) (vr v.vb))
  | 0x03 => do
    need (v.fn % 2 == 0 && v.va == 0 && v.vc == 0) .nonzeroField
    let t ← v.etype; let o ← v.usesX; let r ← v.ldOrd; let p ← xv v.vb
    .ok (.vldt t o r c x p (vr v.vd))
  | 0x08 => do
    need (v.fn % 2 == 0 && v.vd == 0 && v.vb == 0) .nonzeroField
    let t ← v.etype; let o ← v.usesX; let r ← v.stOrd
    .ok (.vst t o r c x (vr v.va) (vr v.vc))
  | 0x09 => do
    need (v.fn % 2 == 0 && v.vd == 0 && v.vc == 0) .nonzeroField
    let t ← v.etype; let o ← v.usesX; let r ← v.stOrd; let p ← xv v.vb
    .ok (.vstStrided t o r c x p (vr v.va))
  | 0x0A => do
    need (v.vd == 0 && v.vc == 0) .nonzeroField
    let t ← v.etype; let o ← v.usesX; let r ← v.stOrd
    .ok (.vstx t o r c (bit (v.fn % 2)) x (vr v.va) (vr v.vb))
  | 0x0B => do
    need (v.vc / 16 == 0) .nonzeroField
    let discard := bit (v.vc / 8 % 2)
    need (!discard || v.vd == 0) .nonzeroField
    let t ← v.itype; let o ← v.usesX; let r ← v.vamoOrd
    .ok (.vamo (amoOf (v.vc % 8)) t o r c (bit (v.fn % 2)) discard x (vr v.vd) (vr v.va) (vr v.vb))
  | _ => .error .unassigned

/-- The count k of R222. -/
def VWord.count (v : VWord) : Dec VCount :=
  if v.fn / 32 % 2 == 0 then do
    need (v.vb == 0) .nonzeroField
    .ok (.imm (BitVec.ofNat 5 (v.fn % 32)))
  else do
    need (v.fn % 32 == 0) .nonzeroField
    let x ← xv v.vb
    .ok (.reg x)

/-- Slides and `vbcast` (R222, R223). -/
def dec37Count (v : VWord) (mk : ETy → VOpts → VReg → VReg → VCount → Instr) : Dec Instr := do
  need (v.vc == 0) .nonzeroField
  let t ← v.etype
  let o ← v.free
  let k ← v.count
  .ok (mk t o (vr v.vd) (vr v.va) k)

/-- Major 0x37 (R220, R222-R224). -/
def dec37 (v : VWord) : Dec Instr := do
  match v.minor with
  | 0x00 => do
    need (v.fn % 64 == 0 && v.vc == 0) .nonzeroField
    let t ← v.etype
    let o ← v.free
    .ok (.vperm t o (vr v.vd) (vr v.va) (vr v.vb))
  | 0x01 => dec37Count v .vslideup
  | 0x02 => dec37Count v .vslidedn
  | 0x03 => do
    need (v.fn / 2 % 32 == 0 && v.vb == 0) .nonzeroField
    let t ← v.etype
    let o ← v.free
    let mc ← mr v.vc
    .ok (.vcompress (bit (v.fn % 2)) t o (vr v.vd) (vr v.va) mc)
  | 0x04 => do
    need (v.fn % 64 == 0 && v.vb == 0) .nonzeroField
    let t ← v.etype
    let o ← v.free
    let mc ← mr v.vc
    .ok (.vexpand t o (vr v.vd) (vr v.va) mc)
  | 0x05 => dec37Count v .vbcast
  | 0x06 => do
    need (v.vd == 0 && v.vc == 0) .nonzeroField
    v.noPred
    let t ← v.etype
    let o ← v.usesX
    let k ← v.count
    .ok (.vextract t o (xr v.sx) (vr v.va) k)
  | 0x07 => do
    need (v.va == 0 && v.vc == 0) .nonzeroField
    let t ← v.etype
    let o ← v.usesX
    let k ← v.count
    .ok (.vinsert t o (vr v.vd) (xr v.sx) k)
  | 0x08 => do
    need (v.fn % 64 == 0 && v.vb == 0 && v.vc == 0) .nonzeroField
    let t ← v.etype
    let o ← v.free
    .ok (.vunpk t o (vr v.vd) (vr v.va))
  | _ => .error .unassigned

/-- Major 0x38 (R225-R230). -/
def dec38 (v : VWord) : Dec Instr := do
  match v.minor with
  | 0x00 => do
    need (v.fn % 16 == 0 && v.vd == 0 && v.vb == 0 && v.vc == 0) .nonzeroField
    let t ← v.ftype
    let f := feedOf (v.fn / 16 % 4)
    need (f.admits t) .badType
    let o ← v.free
    .ok (.vfeed f t o (vr v.va))
  | 0x01 => do
    need (v.fn % 16 == 0 && v.va == 0 && v.vb == 0 && v.vc == 0) .nonzeroField
    let t ← v.ftype
    need (v.fn / 32 % 2 == 0) .unassigned
    let f64 := bit (v.fn / 16 % 2)
    need (drainAdmits f64 t) .badType
    let o ← v.free
    .ok (.vdrain f64 t o (vr v.vd))
  | 0x02 => do
    need (v.fn / 16 == 0 && v.vd == 0 && v.vb == 0 && v.vc == 0) .nonzeroField
    need (v.va + v.fn % 16 < 64) .badRegister
    let o ← v.usesX
    .ok (.vdetach o (vr v.va) (BitVec.ofNat 4 (v.fn % 16)) (xr v.sx))
  | 0x03 => do
    v.noPred
    need (v.vls == 0) .badLength
    need (v.fn / 8 == 0 && v.sx == 0 && v.vd == 0 && v.va == 0 && v.vb == 0 && v.vc == 0) .nonzeroField
    let s ← scopeOf v.fn
    .ok (.vfence (bit v.dt) s)
  | _ => .error .unassigned

/-- Major 0x39 (R241). -/
def dec39 (v : VWord) : Dec Instr := do
  need (v.fn == 0 && v.vc == 0) .nonzeroField
  match v.minor with
  | 0x00 => do
    need (v.va == 0 && v.vb == 0) .nonzeroField
    let o ← v.usesX; let fd ← fr v.vd
    .ok (.fcfg o fd (xr v.sx))
  | 0x01 => do
    let o ← v.free; let fd ← fr v.vd
    .ok (.fins o fd (vr v.va) (vr v.vb))
  | 0x02 => do
    need (v.vb == 0) .nonzeroField
    let o ← v.noX; let fa ← fr v.vd; let fb ← fr v.va
    .ok (.fmerge o fa fb)
  | 0x03 => do
    let o ← v.usesX; let fa ← fr v.va
    .ok (.fread o (vr v.vd) (vr v.vb) fa (xr v.sx))
  | 0x04 => do
    need (v.va == 0 && v.vb == 0) .nonzeroField
    let o ← v.noX; let fd ← fr v.vd
    .ok (.fclr o fd)
  | 0x05 => do
    need (v.vd == 0 && v.vb == 0) .nonzeroField
    let o ← v.usesX; let fa ← fr v.va
    .ok (.fsave o fa (xr v.sx))
  | 0x06 => do
    need (v.va == 0 && v.vb == 0) .nonzeroField
    let o ← v.usesX; let fd ← fr v.vd
    .ok (.fload o fd (xr v.sx))
  | _ => .error .unassigned

/-- The 64-bit vector instruction in w (R133, R140). Class is zero outside major 0x36. -/
def decode64 (w : Nat) : Dec Instr := do
  let v := vword w
  need (v.zero == 0) .nonzeroField
  need (v.cls == 0 || v.major == 0x36) .nonzeroField
  match v.major with
  | 0x30 => dec30 v
  | 0x31 => dec31 v
  | 0x32 => dec32 v
  | 0x33 => dec33 v
  | 0x34 => dec34 v
  | 0x35 => dec35 v
  | 0x36 => dec36 v
  | 0x37 => dec37 v
  | 0x38 => dec38 v
  | 0x39 => dec39 v
  | _ => .error .unassigned

/-- R126: a first parcel of major 0x30-0x3D begins a 64-bit instruction. -/
def isVectorParcel (p : Nat) : Bool := 0x30 ≤ fld p 26 6 && fld p 26 6 ≤ 0x3D

/-- The instruction in a word of 32 or 64 bits, as its major settles the length. -/
def decodeWord (w : Nat) : Dec Instr := if isVectorParcel w then decode64 w else decode32 w

/-- Little-endian value of a byte string (R7). -/
def leNat : List Byte → Nat
  | [] => 0
  | b :: bs => b.toNat + 256 * leNat bs

/-- The n low bytes of v, least significant first (R7). -/
def leBytes : Nat → Nat → List Byte
  | 0, _ => []
  | n + 1, v => BitVec.ofNat 8 (v % 256) :: leBytes n (v / 256)

/-- One instruction from a byte string, with the rest (R126). -/
def decodeBytes (bs : List Byte) : Dec (Instr × List Byte) := do
  need (4 ≤ bs.length) .truncated
  if isVectorParcel (leNat (bs.take 4)) then
    need (8 ≤ bs.length) .truncated
    let i ← decode64 (leNat (bs.take 8))
    .ok (i, bs.drop 8)
  else
    let i ← decode32 (leNat (bs.take 4))
    .ok (i, bs.drop 4)

/-- The instruction read from one whose bits are w, every bit above nbits zero; the longest has 64 bits. -/
def decodeTableWord (nbits w : Nat) : Option Instr :=
  match decodeBytes (leBytes 8 (w % 2 ^ nbits)) with
  | .ok (i, _) => some i
  | .error _ => none

/-! The encoder, from the same tables. -/

def encR (maj d a b f : Nat) : Nat := (((maj * 32 + d) * 32 + a) * 32 + b) * 2048 + f
def encI (maj d a i : Nat) : Nat := ((maj * 32 + d) * 32 + a) * 65536 + i

/-- Major 0x01: func of each operation. -/
def encInt (d a b : XReg) (f : Nat) : Nat := encR 0x01 d.toNat a.toNat b.toNat f
def encFp (t : STy) (d a b : XReg) (op : Nat) : Nat := encR 0x08 d.toNat a.toNat b.toNat (t.code * 1024 + op * 32)
def encFma (t : STy) (d a b c : XReg) (form : Nat) : Nat :=
  encR 0x09 d.toNat a.toNat b.toNat (c.toNat * 64 + form * 16 + t.code * 8)
def encM (maj d a : Nat) (c : BitVec 4) (ord : Nat) (off : Nat) : Nat :=
  encI maj d a (c.toNat * 4096 + ord * 1024 + off)
def encLd (maj : Nat) (d a : XReg) (c : BitVec 4) (o : BitVec 10) : Nat := encM maj d.toNat a.toNat c 0 o.toNat
def encAcq (maj : Nat) (d a : XReg) (c : BitVec 4) (s : Scope) (o : BitVec 7) : Nat :=
  encM maj d.toNat a.toNat c 1 (s.code * 128 + o.toNat)
def encRel (maj : Nat) (d a : XReg) (c : BitVec 4) (s : Scope) (o : BitVec 7) : Nat :=
  encM maj d.toNat a.toNat c 2 (s.code * 128 + o.toNat)
def amoFunc (c : BitVec 4) (r : AOrd) (s : Scope) (op : Nat) : Nat :=
  c.toNat * 128 + r.code * 32 + s.code * 4 + op
def encAmo (maj : Nat) (d a b : XReg) (c : BitVec 4) (r : AOrd) (s : Scope) (op : Nat) : Nat :=
  encR maj d.toNat a.toNat b.toNat (amoFunc c r s op)
def encB (maj : Nat) (a b : XReg) (o : BitVec 16) : Nat := encI maj a.toNat b.toNat o.toNat
def encEng (sel : Nat) (d a b : XReg) (z : Nat) : Nat := encR 0x2D d.toNat a.toNat b.toNat (sel * 64 + z)

/-- A vector word with every field zero but major and minor. -/
def vz (major minor : Nat) : VWord :=
  { vc := 0, mask := 0, inv := 0, dt := 0, sx := 0, vls := 0, cls := 0, fn := 0, major := major, minor := minor
    vd := 0, va := 0, vb := 0, zero := 0 }

/-- Predicate, density-time and VL source of `o`; a length register goes to Scalar x. -/
def VWord.setOpts (v : VWord) (o : VOpts) : VWord :=
  let v := { v with mask := o.mask.toNat, inv := Bool.code o.inv, dt := Bool.code o.dt }
  match o.vls with
  | .vl => v
  | .lq => { v with vls := 1 }
  | .reg x => { v with vls := 2, sx := x.toNat }

/-- The second source of R186, into vb or into Scalar x with S = 1. -/
def VWord.setSrc (v : VWord) : VSrc → VWord
  | .plot b => { v with vb := b.toNat }
  | .scalar x => { v with sx := x.toNat, fn := v.fn + 32 }

/-- The count of R222. -/
def VWord.setCount (v : VWord) : VCount → VWord
  | .imm k => { v with fn := v.fn + k.toNat }
  | .reg x => { v with fn := v.fn + 32, vb := x.toNat }

def enc31 (minor : Nat) (t : FTy) (o : VOpts) (vd va : VReg) (b : VSrc) : Nat :=
  unvword (({ vz 0x31 minor with fn := t.code * 64, vd := vd.toNat, va := va.toNat } : VWord).setOpts o |>.setSrc b)
def encFused (minor : Nat) (t : FTy) (o : VOpts) (vd va : VReg) (b : VSrc) (vc : VReg) : Nat :=
  unvword (({ vz 0x32 minor with fn := t.code * 64, vd := vd.toNat, va := va.toNat, vc := vc.toNat } : VWord).setOpts o
    |>.setSrc b)
def encOne (minor : Nat) (t : FTy) (o : VOpts) (vd va : VReg) : Nat :=
  unvword (({ vz 0x32 minor with fn := t.code * 64, vd := vd.toNat, va := va.toNat } : VWord).setOpts o)
def enc33 (minor : Nat) (t : ITy) (o : VOpts) (vd va : VReg) (b : VSrc) : Nat :=
  unvword (({ vz 0x33 minor with fn := t.code * 64, vd := vd.toNat, va := va.toNat } : VWord).setOpts o |>.setSrc b)
def encCarry (minor : Nat) (t : ITy) (o : VOpts) (vd va : VReg) (b : VSrc) (mci mco : MReg) : Nat :=
  unvword (({ vz 0x33 minor with fn := t.code * 64 + mco.toNat, vd := vd.toNat, va := va.toNat, vc := mci.toNat }
    : VWord).setOpts o |>.setSrc b)
def encMask (minor : Nat) (o : VOpts) (md ma mb : MReg) : Nat :=
  unvword (({ vz 0x35 minor with vd := md.toNat, va := ma.toNat, vb := mb.toNat } : VWord).setOpts o)

def LdOrd.code : LdOrd → Nat
  | .plain => 0
  | .acq s => 16 + s.code * 2
def StOrd.code : StOrd → Nat
  | .plain => 0
  | .rel s => 32 + s.code * 2
def VamoOrd.code : VamoOrd → Nat
  | .plain => 0
  | .acq s => 16 + s.code * 2
  | .rel s => 32 + s.code * 2
  | .ar s => 48 + s.code * 2

def enc36 (minor : Nat) (t : Nat) (o : VOpts) (ord : Nat) (c : BitVec 4) (low : Bool) (xs : XReg)
    (vd va vb vc : Nat) : Nat :=
  unvword { ({ vz 0x36 minor with
      fn := t * 64 + ord + Bool.code low, cls := c.toNat, vd := vd, va := va, vb := vb, vc := vc } : VWord).setOpts o with
    sx := xs.toNat }

/-- A typed movement instruction of major 0x37. -/
def w37 (minor : Nat) (t : ETy) (o : VOpts) (vd va : VReg) : VWord :=
  ({ vz 0x37 minor with fn := t.code * 64, vd := vd.toNat, va := va.toNat } : VWord).setOpts o

def w39 (minor : Nat) (o : VOpts) (vd va vb : Nat) : VWord :=
  ({ vz 0x39 minor with vd := vd, va := va, vb := vb } : VWord).setOpts o

/-- The words of a well-formed instruction; none for a step that no word encodes. -/
def encode : Instr → Option Nat
  | .add d a b => some (encInt d a b 0x00) | .sub d a b => some (encInt d a b 0x01)
  | .and d a b => some (encInt d a b 0x02) | .or d a b => some (encInt d a b 0x03)
  | .xor d a b => some (encInt d a b 0x04) | .sll d a b => some (encInt d a b 0x05)
  | .srl d a b => some (encInt d a b 0x06) | .sra d a b => some (encInt d a b 0x07)
  | .slt d a b => some (encInt d a b 0x08) | .sltu d a b => some (encInt d a b 0x09)
  | .min d a b => some (encInt d a b 0x0A) | .max d a b => some (encInt d a b 0x0B)
  | .minu d a b => some (encInt d a b 0x0C) | .maxu d a b => some (encInt d a b 0x0D)
  | .clz d a => some (encInt d a 0 0x10) | .ctz d a => some (encInt d a 0 0x11) | .popc d a => some (encInt d a 0 0x12)
  | .mul d a b => some (encInt d a b 0x20) | .mulh d a b => some (encInt d a b 0x21)
  | .mulhu d a b => some (encInt d a b 0x22) | .div d a b => some (encInt d a b 0x23)
  | .divu d a b => some (encInt d a b 0x24) | .rem d a b => some (encInt d a b 0x25)
  | .remu d a b => some (encInt d a b 0x26)
  | .addi d a i => some (encI 0x02 d.toNat a.toNat i.toNat) | .andi d a i => some (encI 0x03 d.toNat a.toNat i.toNat)
  | .ori d a i => some (encI 0x04 d.toNat a.toNat i.toNat) | .xori d a i => some (encI 0x05 d.toNat a.toNat i.toNat)
  | .slli d a h => some (encI 0x06 d.toNat a.toNat h.toNat)
  | .srli d a h => some (encI 0x06 d.toNat a.toNat (64 + h.toNat))
  | .srai d a h => some (encI 0x06 d.toNat a.toNat (128 + h.toNat))
  | .lui d i => some (encI 0x07 d.toNat 0 i.toNat)
  | .fadd t d a b => some (encFp t d a b 0) | .fsub t d a b => some (encFp t d a b 1)
  | .fmul t d a b => some (encFp t d a b 2) | .fdiv t d a b => some (encFp t d a b 3)
  | .fsqrt t d a => some (encFp t d a 0 4) | .fmin t d a b => some (encFp t d a b 5)
  | .fmax t d a b => some (encFp t d a b 6) | .fcmpEq t d a b => some (encFp t d a b 7)
  | .fcmpLt t d a b => some (encFp t d a b 8) | .fcmpLe t d a b => some (encFp t d a b 9)
  | .fcvtToI64 t d a => some (encFp t d a 0 10) | .fcvtFromI64 t d a => some (encFp t d a 0 11)
  | .fcvtFpFp t d a => some (encFp t d a 0 12) | .fmv t d a => some (encFp t d a 0 13)
  | .fneg t d a => some (encFp t d a 0 14) | .fabs t d a => some (encFp t d a 0 15)
  | .ffma t d a b c => some (encFma t d a b c 0) | .ffms t d a b c => some (encFma t d a b c 1)
  | .ffnma t d a b c => some (encFma t d a b c 2) | .ffnms t d a b c => some (encFma t d a b c 3)
  | .syscall => some (encR 0x0A 0 0 0 0) | .tret => some (encR 0x0A 0 0 0 1)
  | .waitev d a b => some (encR 0x0A d.toNat a.toNat b.toNat 2) | .yield => some (encR 0x0A 0 0 0 3)
  | .exit => some (encR 0x0A 0 0 0 4) | .vrelease => some (encR 0x0A 0 0 0 5)
  | .chkerr d => some (encR 0x0A d.toNat 0 0 6) | .lexit => some (encR 0x0A 0 0 0 7)
  | .ctlr d c => some (encI 0x0B d.toNat 0 c.toNat)
  | .ctlw d a c => some (encI 0x0B d.toNat a.toNat (0x4000 + c.toNat))
  | .ctlset d a c => some (encI 0x0B d.toNat a.toNat (0x8000 + c.toNat))
  | .ctlclr d a c => some (encI 0x0B d.toNat a.toNat (0xC000 + c.toNat))
  | .jal d o => some ((0x0C * 32 + d.toNat) * 2097152 + o.toNat)
  | .jalr d a i => some (encI 0x0D d.toNat a.toNat i.toNat)
  | .beq a b o => some (encB 0x0E a b o) | .bne a b o => some (encB 0x0F a b o) | .blt a b o => some (encB 0x10 a b o)
  | .bge a b o => some (encB 0x11 a b o) | .bltu a b o => some (encB 0x12 a b o) | .bgeu a b o => some (encB 0x13 a b o)
  | .bany m o => some (encI 0x14 0 m.toNat o.toNat) | .ball m o => some (encI 0x15 0 m.toNat o.toNat)
  | .bnone m o => some (encI 0x16 0 m.toNat o.toNat)
  | .ldB d a c o => some (encLd 0x17 d a c o) | .ldBAcq d a c s o => some (encAcq 0x17 d a c s o)
  | .ldH d a c o => some (encLd 0x18 d a c o) | .ldHAcq d a c s o => some (encAcq 0x18 d a c s o)
  | .ldW d a c o => some (encLd 0x19 d a c o) | .ldWAcq d a c s o => some (encAcq 0x19 d a c s o)
  | .ldD d a c o => some (encLd 0x1A d a c o) | .ldDAcq d a c s o => some (encAcq 0x1A d a c s o)
  | .ldBu d a c o => some (encLd 0x1B d a c o) | .ldBuAcq d a c s o => some (encAcq 0x1B d a c s o)
  | .ldHu d a c o => some (encLd 0x1C d a c o) | .ldHuAcq d a c s o => some (encAcq 0x1C d a c s o)
  | .ldWu d a c o => some (encLd 0x1D d a c o) | .ldWuAcq d a c s o => some (encAcq 0x1D d a c s o)
  | .stB d a c o => some (encLd 0x1E d a c o) | .stBRel d a c s o => some (encRel 0x1E d a c s o)
  | .stH d a c o => some (encLd 0x1F d a c o) | .stHRel d a c s o => some (encRel 0x1F d a c s o)
  | .stW d a c o => some (encLd 0x20 d a c o) | .stWRel d a c s o => some (encRel 0x20 d a c s o)
  | .stD d a c o => some (encLd 0x21 d a c o) | .stDRel d a c s o => some (encRel 0x21 d a c s o)
  | .amoswap d a b c r s => some (encAmo 0x22 d a b c r s 0) | .amoadd d a b c r s => some (encAmo 0x22 d a b c r s 1)
  | .amoand d a b c r s => some (encAmo 0x22 d a b c r s 2) | .amoor d a b c r s => some (encAmo 0x22 d a b c r s 3)
  | .amoxor d a b c r s => some (encAmo 0x23 d a b c r s 0) | .amomin d a b c r s => some (encAmo 0x23 d a b c r s 1)
  | .amomax d a b c r s => some (encAmo 0x23 d a b c r s 2) | .amomaxu d a b c r s => some (encAmo 0x23 d a b c r s 3)
  | .cas d a b c r s => some (encAmo 0x24 d a b c r s 0)
  | .fence s a b => some (encR 0x25 0 a.toNat b.toNat (s.code * 32)) | .ifence => some (encR 0x25 0 0 0 0x100)
  | .cacheopPf a b => some (encR 0x25 0 a.toNat b.toNat 0x200) | .cacheopPf2 a b => some (encR 0x25 0 a.toNat b.toNat 0x220)
  | .cacheopPfw a b => some (encR 0x25 0 a.toNat b.toNat 0x240)
  | .cacheopEvict a b => some (encR 0x25 0 a.toNat b.toNat 0x260)
  | .cacheopClean a b => some (encR 0x25 0 a.toNat b.toNat 0x280)
  | .tlbinvS1 a b => some (encR 0x25 0 a.toNat b.toNat 0x300) | .tlbinvS1all b => some (encR 0x25 0 0 b.toNat 0x320)
  | .tlbinvS2 a b => some (encR 0x25 0 a.toNat b.toNat 0x340) | .tlbinvS2all b => some (encR 0x25 0 0 b.toNat 0x360)
  | .stashmap d a b => some (encR 0x25 d.toNat a.toNat b.toNat 0x400) | .stashunmap a => some (encR 0x25 0 a.toNat 0 0x500)
  | .hld d a c o => some (encM 0x26 d.toNat a.toNat c 0 o.toNat)
  | .hldAcq d a c s o => some (encM 0x26 d.toNat a.toNat c 1 (s.code * 128 + o.toNat))
  | .hst d a c o => some (encM 0x27 d.toNat a.toNat c 0 o.toNat)
  | .hstRel d a c s o => some (encM 0x27 d.toNat a.toNat c 2 (s.code * 128 + o.toNat))
  | .hldw d a c o => some (encM 0x28 d.toNat a.toNat c 0 o.toNat)
  | .hldwAcq d a c s o => some (encM 0x28 d.toNat a.toNat c 1 (s.code * 128 + o.toNat))
  | .hstw d a c o => some (encM 0x29 d.toNat a.toNat c 0 o.toNat)
  | .hstwRel d a c s o => some (encM 0x29 d.toNat a.toNat c 2 (s.code * 128 + o.toNat))
  | .hcas d a b c r s => some (encR 0x2A d.toNat a.toNat b.toNat (amoFunc c r s 0))
  | .hcasw d a b c r s => some (encR 0x2B d.toNat a.toNat b.toNat (amoFunc c r s 0))
  | .hcmp d a b => some (encR 0x2C d.toNat a.toNat b.toNat 0) | .hpin d a => some (encR 0x2C d.toNat a.toNat 0 0x100)
  | .hunpin a => some (encR 0x2C 0 a.toNat 0 0x200) | .hmake d a => some (encR 0x2C d.toNat a.toNat 0 0x300)
  | .hmakeI d a b => some (encR 0x2C d.toNat a.toNat b.toNat 0x380)
  | .tdesc a k => some (encEng 0x00 0 a 0 k.toNat) | .cpy d a b => some (encEng 0x01 d a b 0)
  | .cpyDsrc d a b k => some (encEng 0x01 d a b (16 + k.toNat)) | .cpyDdst d a b k => some (encEng 0x01 d a b (32 + k.toNat))
  | .cpydrain s => some (encEng 0x02 0 0 0 s.code) | .strset a k => some (encEng 0x03 0 a 0 k.toNat)
  | .mcast d a n => some (encEng 0x04 d a n 0) | .potinit a b => some (encEng 0x05 0 a b 0)
  | .potadd s a b => some (encEng 0x06 0 a b s.code) | .potwait s d a => some (encEng 0x07 d a 0 s.code)
  | .coll d a => some (encEng 0x08 d a 0 0) | .collwait d a => some (encEng 0x09 d a 0 0)
  | .hglean d a b => some (encEng 0x0A d a b 0) | .hgleanFree d a => some (encEng 0x0B d a 0 0)
  | .launch d a => some (encEng 0x0C d a 0 0)
  | .mldb d a b => some (encR 0x2E d.toNat a.toNat b.toNat 0)
  | .mmul m t q a b => some (encR 0x2E 0 a.toNat b.toNat (256 + t.toNat * 64 + q.toNat * 16 + m.code))
  | .mclr t => some (encR 0x2E 0 0 0 (512 + t.toNat * 64))
  | .mout f64 clr t q a b => some (encR 0x2E 0 a.toNat b.toNat
      (768 + t.toNat * 64 + q.toNat * 16 + Bool.code f64 * 8 + Bool.code clr * 4))
  | .msync => some (encR 0x2E 0 0 0 1024)
  | .vlend o => some (encI 0x2F 0 0 o.toNat)
  | .convoyHeader n u1 u2 u3 u4 u5 u6 => some ((((((((0x3F * 8 + n.toNat) * 8 + u1.toNat) * 8 + u2.toNat) * 8 + u3.toNat) * 8
      + u4.toNat) * 8 + u5.toNat) * 8 + u6.toNat) * 32)
  | .plotset dt vd xs => some (unvword { vz 0x30 0x00 with dt := Bool.code dt, vd := vd.toNat, sx := xs.toNat })
  | .plotget dt xd va => some (unvword { vz 0x30 0x01 with dt := Bool.code dt, va := va.toNat, sx := xd.toNat })
  | .setvl dt xd xc => some (unvword { vz 0x30 0x02 with dt := Bool.code dt, vb := xc.toNat, sx := xd.toNat })
  | .setvlW dt p s xd xa xc => some (unvword { vz 0x30 0x03 with
      dt := Bool.code dt, fn := s.code * 2 + Bool.code p, va := xa.toNat, vb := xc.toNat, sx := xd.toNat })
  | .vloop dt xa => some (unvword { vz 0x30 0x04 with dt := Bool.code dt, sx := xa.toNat })
  | .wmpub dt s xa => some (unvword { vz 0x30 0x05 with dt := Bool.code dt, fn := s.code * 2, sx := xa.toNat })
  | .vfadd t o vd va b => some (enc31 0x00 t o vd va b) | .vfsub t o vd va b => some (enc31 0x01 t o vd va b)
  | .vfmul t o vd va b => some (enc31 0x02 t o vd va b) | .vfdiv t o vd va b => some (enc31 0x03 t o vd va b)
  | .vfmin t o vd va b => some (enc31 0x04 t o vd va b) | .vfmax t o vd va b => some (enc31 0x05 t o vd va b)
  | .vfsgnj t o vd va b => some (enc31 0x06 t o vd va b) | .vfsgnjn t o vd va b => some (enc31 0x07 t o vd va b)
  | .vfsgnjx t o vd va b => some (enc31 0x08 t o vd va b)
  | .vfma t o vd va b vc => some (encFused 0x00 t o vd va b vc) | .vfms t o vd va b vc => some (encFused 0x01 t o vd va b vc)
  | .vfnma t o vd va b vc => some (encFused 0x02 t o vd va b vc) | .vfnms t o vd va b vc => some (encFused 0x03 t o vd va b vc)
  | .vfsqrt t o vd va => some (encOne 0x10 t o vd va) | .vfrec t o vd va => some (encOne 0x11 t o vd va)
  | .vfrsqrt t o vd va => some (encOne 0x12 t o vd va) | .vfexp t o vd va => some (encOne 0x13 t o vd va)
  | .vflog t o vd va => some (encOne 0x14 t o vd va) | .vfsin t o vd va => some (encOne 0x15 t o vd va)
  | .vfcos t o vd va => some (encOne 0x16 t o vd va) | .vftanh t o vd va => some (encOne 0x17 t o vd va)
  | .vfabs t o vd va => some (encOne 0x18 t o vd va) | .vfneg t o vd va => some (encOne 0x19 t o vd va)
  | .vadd t o vd va b => some (enc33 0x00 t o vd va b) | .vsub t o vd va b => some (enc33 0x01 t o vd va b)
  | .vmul t o vd va b => some (enc33 0x02 t o vd va b) | .vmulh t o vd va b => some (enc33 0x03 t o vd va b)
  | .vmulhu t o vd va b => some (enc33 0x04 t o vd va b) | .vdiv t o vd va b => some (enc33 0x05 t o vd va b)
  | .vdivu t o vd va b => some (enc33 0x06 t o vd va b) | .vrem t o vd va b => some (enc33 0x07 t o vd va b)
  | .vremu t o vd va b => some (enc33 0x08 t o vd va b) | .vand t o vd va b => some (enc33 0x09 t o vd va b)
  | .vor t o vd va b => some (enc33 0x0A t o vd va b) | .vxor t o vd va b => some (enc33 0x0B t o vd va b)
  | .vsll t o vd va b => some (enc33 0x0C t o vd va b) | .vsrl t o vd va b => some (enc33 0x0D t o vd va b)
  | .vsra t o vd va b => some (enc33 0x0E t o vd va b) | .vmin t o vd va b => some (enc33 0x0F t o vd va b)
  | .vmax t o vd va b => some (enc33 0x10 t o vd va b) | .vminu t o vd va b => some (enc33 0x11 t o vd va b)
  | .vmaxu t o vd va b => some (enc33 0x12 t o vd va b)
  | .vadc t o vd va b mci mco => some (encCarry 0x13 t o vd va b mci mco)
  | .vsbc t o vd va b mci mco => some (encCarry 0x14 t o vd va b mci mco)
  | .vfcmp c t o md va vb => some (unvword (({ vz 0x34 0x00 with
      fn := t.code * 64 + c.code, vd := md.toNat, va := va.toNat, vb := vb.toNat } : VWord).setOpts o))
  | .vcmp c t o md va vb => some (unvword (({ vz 0x34 0x01 with
      fn := t.code * 64 + c.code, vd := md.toNat, va := va.toNat, vb := vb.toNat } : VWord).setOpts o))
  | .vcvt dt st o vd va => some (unvword (({ vz 0x34 0x02 with
      fn := dt.code * 64 + st.code * 8, vd := vd.toNat, va := va.toNat } : VWord).setOpts o))
  | .mand o md ma mb => some (encMask 0x00 o md ma mb) | .mor o md ma mb => some (encMask 0x01 o md ma mb)
  | .mxor o md ma mb => some (encMask 0x02 o md ma mb) | .mandn o md ma mb => some (encMask 0x03 o md ma mb)
  | .mnot o md ma => some (encMask 0x04 o md ma 0)
  | .mshift down k o md ma =>
    let v := ({ vz 0x35 0x05 with fn := Bool.code down * 256, vd := md.toNat, va := ma.toNat } : VWord).setOpts o
    match k with
    | .imm k => some (unvword { v with fn := v.fn + k.toNat })
    | .reg x => some (unvword { v with sx := x.toNat })
  | .mpopc lq o xd ma => some (unvword { ({ vz 0x35 0x06 with fn := Bool.code lq, va := ma.toNat } : VWord).setOpts o with
      sx := xd.toNat })
  | .mfirst o xd ma => some (unvword { ({ vz 0x35 0x07 with va := ma.toNat } : VWord).setOpts o with sx := xd.toNat })
  | .vred op t o xd va => some (unvword { ({ vz 0x35 0x10 with fn := t.code * 64 + op.code, va := va.toNat } : VWord).setOpts o
      with sx := xd.toNat })
  | .vfred op t o xd va => some (unvword { ({ vz 0x35 0x11 with fn := t.code * 64 + op.code, va := va.toNat } : VWord).setOpts o
      with sx := xd.toNat })
  | .vrand t o vd xs => some (unvword { ({ vz 0x35 0x12 with fn := t.code * 64, vd := vd.toNat } : VWord).setOpts o with
      sx := xs.toNat })
  | .vsync dt s => some (unvword { vz 0x35 0x13 with dt := Bool.code dt, fn := s.code })
  | .vld t o r c xs vd vc => some (enc36 0x00 t.code o r.code c false xs vd.toNat 0 0 vc.toNat)
  | .vldStrided t o r c xs xp vd => some (enc36 0x01 t.code o r.code c false xs vd.toNat 0 xp.toNat 0)
  | .vldx t o r c ix xs vd vb => some (enc36 0x02 t.code o r.code c ix xs vd.toNat 0 vb.toNat 0)
  | .vldt t o r c xs xp vd => some (enc36 0x03 t.code o r.code c false xs vd.toNat 0 xp.toNat 0)
  | .vst t o r c xs va vc => some (enc36 0x08 t.code o r.code c false xs 0 va.toNat 0 vc.toNat)
  | .vstStrided t o r c xs xp va => some (enc36 0x09 t.code o r.code c false xs 0 va.toNat xp.toNat 0)
  | .vstx t o r c ix xs va vb => some (enc36 0x0A t.code o r.code c ix xs 0 va.toNat vb.toNat 0)
  | .vamo op t o r c ix disc xs vd va vb => some (enc36 0x0B t.code o r.code c ix xs vd.toNat va.toNat vb.toNat
      (Bool.code disc * 8 + op.code))
  | .vperm t o vd va vb => some (unvword { w37 0x00 t o vd va with vb := vb.toNat })
  | .vslideup t o vd va k => some (unvword ((w37 0x01 t o vd va).setCount k))
  | .vslidedn t o vd va k => some (unvword ((w37 0x02 t o vd va).setCount k))
  | .vcompress lq t o vd va mc => some (unvword { w37 0x03 t o vd va with fn := t.code * 64 + Bool.code lq, vc := mc.toNat })
  | .vexpand t o vd va mc => some (unvword { w37 0x04 t o vd va with vc := mc.toNat })
  | .vbcast t o vd va k => some (unvword ((w37 0x05 t o vd va).setCount k))
  | .vextract t o xd va k => some (unvword ((({ w37 0x06 t o 0 va with sx := xd.toNat }) : VWord).setCount k))
  | .vinsert t o vd xs k => some (unvword ((({ w37 0x07 t o vd 0 with sx := xs.toNat }) : VWord).setCount k))
  | .vunpk t o vd va => some (unvword (w37 0x08 t o vd va))
  | .vfeed f t o va => some (unvword (({ vz 0x38 0x00 with fn := t.code * 64 + f.code * 16, va := va.toNat } : VWord).setOpts o))
  | .vdrain f64 t o vd => some (unvword (({ vz 0x38 0x01 with
      fn := t.code * 64 + Bool.code f64 * 16, vd := vd.toNat } : VWord).setOpts o))
  | .vdetach o va nt xs => some (unvword { ({ vz 0x38 0x02 with fn := nt.toNat, va := va.toNat } : VWord).setOpts o with
      sx := xs.toNat })
  | .vfence dt s => some (unvword { vz 0x38 0x03 with dt := Bool.code dt, fn := s.code })
  | .fcfg o fd xs => some (unvword { w39 0x00 o fd.toNat 0 0 with sx := xs.toNat })
  | .fins o fd va vb => some (unvword (w39 0x01 o fd.toNat va.toNat vb.toNat))
  | .fmerge o fa fb => some (unvword (w39 0x02 o fa.toNat fb.toNat 0))
  | .fread o vd vb fa xd => some (unvword { w39 0x03 o vd.toNat fa.toNat vb.toNat with sx := xd.toNat })
  | .fclr o fd => some (unvword (w39 0x04 o fd.toNat 0 0))
  | .fsave o fa xs => some (unvword { w39 0x05 o 0 fa.toNat 0 with sx := xs.toNat })
  | .fload o fd xs => some (unvword { w39 0x06 o fd.toNat 0 0 with sx := xs.toNat })
  | _ => none

end Sys2Proof
end

