-- ==== Sys2Proof/Machine/Bits.lean ====
section
/-! DEFINITION. Bit fields, sign extension and list updates that every meaning uses. -/

namespace Sys2Proof.Machine

/-- Bits hi:lo of a 64-bit word, as a number (R6). -/
def bits (w : Word) (hi lo : Nat) : Nat := w.toNat / 2 ^ lo % 2 ^ (hi + 1 - lo)

/-- Bit k of a 64-bit word. -/
def bitAt (w : Word) (k : Nat) : Bool := w.getLsbD k

/-- A 64-bit word from a number, modulo 2^64. -/
def word (n : Nat) : Word := BitVec.ofNat 64 n

/-- A 64-bit word from an integer, modulo 2^64. -/
def wordI (i : Int) : Word := BitVec.ofInt 64 i

/-- The low n bits of v read as two's complement. -/
def sextN (n v : Nat) : Int :=
  let u := v % 2 ^ n
  if 2 * u < 2 ^ n then (u : Int) else (u : Int) - 2 ^ n

/-- The integer i modulo 2^n. -/
def modN (n : Nat) (i : Int) : Nat := (i % (2 ^ n : Int)).toNat

/-- A bit field as a sign-extended 64-bit word. -/
def sext {n : Nat} (b : BitVec n) : Word := b.signExtend 64

def boolWord (b : Bool) : Word := if b then 1 else 0

/-- Number of bits of n; 0 for 0. -/
def bitLen (n : Nat) : Nat := if n = 0 then 0 else Nat.log2 n + 1

/-- Ceiling of a / b. -/
def ceilDiv (a b : Nat) : Nat := (a + b - 1) / b

/-- First index below n, counted from 0, at which p holds. -/
def findBelow (n : Nat) (p : Nat → Bool) : Option Nat := (List.range n).find? p

/-- Value under key k of an association list. -/
def lookupN {α : Type} (k : Nat) : List (Nat × α) → Option α
  | [] => none
  | (k', v) :: l => if k' = k then some v else lookupN k l

/-- Sets key k of an association list, keeping the keys in rising order. -/
def insertN {α : Type} (k : Nat) (v : α) : List (Nat × α) → List (Nat × α)
  | [] => [(k, v)]
  | (k', v') :: l =>
    if k < k' then (k, v) :: (k', v') :: l
    else if k = k' then (k, v) :: l
    else (k', v') :: insertN k v l

/-- Removes key k of an association list. -/
def eraseN {α : Type} (k : Nat) (l : List (Nat × α)) : List (Nat × α) := l.filter (fun p => p.1 != k)

/-- Replaces, in a list of records, the ones that p selects. -/
def updateWhere {α : Type} (p : α → Bool) (f : α → α) (l : List α) : List α :=
  l.map (fun a => if p a then f a else a)

/-- Runs f for each of a list, from left to right, until it fails. -/
def foldE {ε σ α : Type} (f : σ → α → Except ε σ) (s : σ) : List α → Except ε σ
  | [] => .ok s
  | a :: l =>
    match f s a with
    | .ok s' => foldE f s' l
    | .error e => .error e

end Sys2Proof.Machine
end

