-- ==== Sys2Proof/Machine/State.lean ====
section
/-! DEFINITION. The state of the K4 as plain data: contexts, cores, Mills, dies, memory, the engines' and the
Crier's work in progress, leases and the Reeve's records; and the state after reset. The fields follow
INVENTORY.md, '## State'. -/

namespace Sys2Proof.Machine

/-- Bytes by device physical address, rising, no entry 0 (log 1). -/
abbrev Memory := List Host.Cell

/-- What a context is doing (R88, R161, R301, R302, R312); `stopping`: a slot boundary has passed and its lane threads
are not done. -/
inductive Phase | free | running | asleep | suspended | draining | stopping | saved
deriving DecidableEq, Repr

/-- A committed vector instruction (R96, R153): its operand registers as read at commit, its address and
encoding, its queue position, and the count it popped from `lq` (R188). `regs` is what the `x` registers become when it
traps or is discarded; `flags` and `marks` are the flags that younger scalar instructions have raised and the poison they
have consumed since, which take effect when it is done. -/
structure VQEntry where
  instr : Instr
  xs : Vector Word 32
  pc : Word
  enc : Word
  pos : BitVec 5
  popped : Option Nat
  regs : Vector Word 32
  flags : BitVec 5
  marks : Nat
deriving DecidableEq, Repr

/-- The vector loop context (R191). -/
structure LoopCtx where
  remaining : BitVec 40
  grant : BitVec 13
  base : BitVec 40
  strips : BitVec 24
deriving DecidableEq, Repr

/-- A valid slot of a front (R117): its number, objectives and payload. -/
structure FSlot where
  slot : Nat
  objs : Vector (BitVec 32) 4
  payload : BitVec 32
deriving DecidableEq, Repr

/-- A front: configuration word (R242) and valid slots, oldest first (R243). -/
structure Front where
  cfg : Word
  slots : List FSlot
deriving DecidableEq, Repr

/-- A lane thread that has not ended (R227, R229). -/
structure LaneThread where
  elem : Nat
  pc : Word
  count : Nat
deriving DecidableEq, Repr

/-- A lane-thread fault (R231). -/
structure LaneFault where
  elem : Nat
  cause : Byte
  addr : Word
deriving DecidableEq, Repr

/-- A `vdetach` without its `vfence` (R227-R231). -/
structure Detach where
  va : VReg
  nt : Nat
  threads : List LaneThread
  faults : List LaneFault
deriving DecidableEq, Repr

/-- A pin window (R71): the object's header and its size in bytes. -/
structure PinWin where
  header : Word
  size : Nat
deriving DecidableEq, Repr

/-- A `waitev` under way (R161): destination, watched line (device physical), nanoseconds left of its timeout,
whether another agent has written the line. -/
structure Wait where
  dest : XReg
  line : Nat
  left : Option Nat
  hit : Bool
deriving DecidableEq, Repr

/-- Which structure caches a combined translation (R27): a core's main TLB, a bank of its gather TLB, a cluster's TLB. -/
inductive TlbAt
  | main (core : Nat)
  | gather (core bank : Nat)
  | cluster (n : Nat)
deriving DecidableEq, Repr

/-- A combined translation (R24), tagged with its lease and sublease, and where it is cached (R27); `size2` is log2 of the size of
the stage 2 leaf under it. -/
structure Tlb where
  place : TlbAt
  lease : Byte
  sub : Byte
  die : BitVec 2
  va : Nat
  ipa : Nat
  pa : Nat
  size : Nat
  size2 : Nat
  cls : BitVec 2
  home : BitVec 2
  skew : BitVec 2
  ce : Bool
  amo : Bool
  x : Bool
  w : Bool
  r : Bool
deriving DecidableEq, Repr

/-- A table pointer in a die's walk cache (R27): for stage 1 the sublease, the level at which it was read, the address
bits that select it, and the table page that it names. -/
structure WalkEntry where
  die : BitVec 2
  lease : Byte
  sub : Option Byte
  level : Nat
  key : Nat
  table : Nat
deriving DecidableEq, Repr

/-- A filled line of a stash mapping (R42, R43): its number in the mapping, the translation under which it was filled, and
whether it has been written and not written back. -/
structure StashLine where
  idx : Nat
  entry : Tlb
  dirty : Bool
deriving DecidableEq, Repr

/-- A stash mapping (R41): the context that made it, offset, address and length in bytes, and the lines filled. -/
structure StashMap where
  ctx : CtxId
  off : Nat
  addr : Word
  len : Nat
  lines : List StashLine
deriving DecidableEq, Repr

/-- A stream element in a slot's buffer (R49, R50): its value, a poison mark, the fault its fetch met, for an output stream
whether it was masked off, and the number that the next engine command had when the element came, which tells what is older
(R45, R47). -/
structure StreamElem where
  val : Word
  bad : Bool
  fault : Option (Nat × Word)
  skip : Bool
  stamp : Nat
deriving DecidableEq, Repr

/-- A stream slot (R48, R49, R255): the context that configured it, whose accesses its transfers are, configuration,
captured `MFMT`, the program's position, elements fetched ahead or waiting to be stored in order, in stream order, and the number
that the next engine command had when it was configured (R45). -/
structure Stream where
  ctx : CtxId
  base : Word
  output : Bool
  ty : ETy
  counts : List Nat
  strides : List Int
  mfmt : Word
  pos : Nat
  ahead : List StreamElem
  stamp : Nat
deriving DecidableEq, Repr

/-- What the save of a context keeps beside its registers (R105, R303): what it was doing, cells of its plots, those
with an error, stash mappings and stream slots. -/
structure SaveArea where
  phase : Phase
  cells : List (Nat × Cell16)
  badCells : List Nat
  maps : List StashMap
  streams : List (Nat × Stream)
deriving DecidableEq, Repr

/-- A trap record that awaits an answer (R312): the level that received it, whether the trap left the trap registers
alone (R315), its cause and `TVAL`. -/
structure Await where
  level : BitVec 2
  nested : Bool
  cause : Byte
  tval : Word
deriving DecidableEq, Repr

/-- A context: a strand's, or with `self` bit 10 a Miller's (R128, R158, R292). `unit` says that it holds its front
end's vector unit (R164), `convoy` the members that a convoy header has fetched (R373), `passed` that it has passed scalar issue on (R162), `unissued` that a Miller has not issued its
first instruction (R294). -/
structure Ctx where
  phase : Phase
  self : BitVec 20
  lease : Byte
  sub : Byte
  nest : Nat
  x : Vector Word 32
  h : Vector Word 16
  pc : Word
  status : Word
  tvec : Word
  tpc : Word
  tcause : Word
  tval : Word
  tqpos : Word
  tplot : Word
  tcell : Word
  vstart : Word
  tdeleg : Word
  vl : Word
  mvl : Word
  vtype : Word
  mfmt : Word
  fill : Word
  fcsr : Word
  kvwin : Word
  fovf : Word
  cki : Word
  lq : List Nat
  pdirty : BitVec 64
  cycle : Word
  nestidx : Vector Word 4
  bypassth : Word
  urnshare : Word
  loop : LoopCtx
  plots : Vector Word 64
  masks : Vector (BitVec 4096) 16
  fronts : Vector Front 8
  vq : List VQEntry
  vqNext : BitVec 5
  held : Option VQEntry
  convoy : List Word
  detach : Option Detach
  descs : List (Nat × List Word)
  pins : List PinWin
  handles : List (Nat × Nat)
  wait : Option Wait
  breaks : List Word
  unit : Bool
  passed : Bool
  unissued : Bool
  area : Option SaveArea
  awaits : Option Await
deriving DecidableEq, Repr

/-- A front end: pipes owned, stash mappings, stream slots, the sublease that last used its rows. -/
structure FrontEnd where
  pipeown : Byte
  maps : List StashMap
  streams : List (Nat × Stream)
  rowsOwner : Option (Byte × Byte)
deriving DecidableEq, Repr

/-- A gathered line of the L1 (R37). -/
structure Gathered where
  base : Nat
  stride : Int
  size : Nat
  lines : List Nat
deriving DecidableEq, Repr

/-- Whose range a scoreboard entry records: an engine operation's, or the fill of a stream slot of a front end (R44). -/
inductive SbOp
  | engine (id : Nat)
  | stream (fe : Bool) (slot : Nat)
deriving DecidableEq, Repr

/-- A range-scoreboard entry (R44): whose it is, and the stash bytes that it affects (first offset, length). -/
structure SbEntry where
  op : SbOp
  ranges : List (Nat × Nat)
deriving DecidableEq, Repr

/-- A line of an L1 (R37-R39): device physical line, whether it is dirty, and whether it was inserted at the highest
replacement priority. -/
structure L1Line where
  line : Nat
  dirty : Bool
  high : Bool
deriving DecidableEq, Repr

/-- A hit kept in a core's forwarding cache (R66): lease and sublease, region, phase, old header and reference to the
present copy. -/
structure FwdHit where
  lease : Byte
  sub : Byte
  region : Word
  phase : Nat
  header : Word
  ref : Word
deriving DecidableEq, Repr

/-- A vector core; `split` is its arrangement between two front ends (R88). -/
structure Core where
  field : List (Nat × Cell16)
  fieldErr : List Nat
  fe0 : FrontEnd
  fe1 : FrontEnd
  split : Bool
  board : List SbEntry
  evsel : Vector Word 16
  evcnt : Vector Word 16
  l1 : List L1Line
  gathered : List Gathered
  laneErr : List (Nat × Bool)
  fwd : List FwdHit
deriving DecidableEq, Repr

/-- An operation handed to a Mill (R234); `mldb` has read its source and holds its lines until it completes (R235, R240). -/
inductive MillOp
  | mldb (p : Nat) (holds : List Nat) (off : Nat) (bytes : List Byte)
  | mmul (mode : MmulMode) (t q : Nat) (row m off : Nat) (slices : Nat)
  | mclr (t : Nat)
  | mout (f64 clr : Bool) (t q : Nat) (row count : Nat)
deriving DecidableEq, Repr

/-- The Mill of a cluster (R118-R120): slices, tiles (FP32 words by tile, row and column), queues,
operations handed over, holding nest and the
sublease that last held it (R341). `bad` lists slice bytes with an uncorrectable error (R321). -/
structure Mill where
  slices : List (Nat × Byte)
  bad : List Nat
  tiles : List (Nat × BitVec 32)
  feed : Vector (List Byte) 4
  drain : Vector (List Byte) 4
  ops : List (Nat × MillOp)
  holder : Option Nat
  owner : Option (Byte × Byte)
deriving DecidableEq, Repr

/-- An L2 superblock (R35): place, tag, valid, dirty, and corruption not yet detected (R323) with the words
destroyed in each line. -/
structure L2Way where
  slice : Nat
  set : Nat
  way : Nat
  tag : Nat
  valid : BitVec 4
  dirty : BitVec 4
  bad : List (Nat × BitVec 16)
deriving DecidableEq, Repr

/-- A die. `present` and `inForce` are the slot under way and its entry as it stood when the slot began (R342, R343),
`served` the nest last served at each priority (R298), `power` 2 or 3 for the die in that state, `slow` the clusters in
S1 (R352). -/
structure Die where
  l2 : List L2Way
  quarantined : List (Nat × Nat)
  slots : Vector Word 64
  present : Option Nat
  inForce : Word
  slotEnd : Word
  errinj : Word
  selects : Vector Word 64
  counts : Vector Word 64
  cpFrozen : Bool
  served : List (Nat × Nat)
  power : BitVec 2
  slow : BitVec 16
deriving DecidableEq, Repr

/-- A copying engine's work (R46, R51, R253, R256). -/
inductive EngKind
  | cpy (dst src : Word) (len : Nat)
  | dsrc (desc : List Word) (dst : Word) (first count : Nat)
  | ddst (desc : List Word) (first : Nat) (src : Word) (count : Nat)
  | mcast (dst src : Word) (len : Nat) (targets : BitVec 4) (pot : Word)
deriving DecidableEq, Repr

/-- An engine operation issued and not retired (R44-R46): who issued it, its work, whether its issue point
is past, the device physical bytes it writes and reads (address, length), their lines, and for a multicast the
arrivals (target core, number) still to be received. -/
structure EngineOp where
  id : Nat
  ctx : CtxId
  lease : Byte
  sub : Byte
  core : Nat
  kind : EngKind
  issued : Bool
  dst : List (Nat × Nat)
  src : List (Nat × Nat)
  owns : List Nat
  holds : List Nat
  arrivals : List (Nat × Nat)
deriving DecidableEq, Repr

/-- A collective's progress (R258-R263). -/
inductive CollState | armed | started | ended (status : Nat)
deriving DecidableEq, Repr

/-- A collective armed on a die's Urn (R54, R258-R263, R371): `partners` pairs a rank on another die of this K4 with
the collective armed there, `lines` are the device physical lines of its buffer and residuals as the range checker compares
them (R45), `start` holds what this participant contributes, element by element, and `residual` the updated residuals. -/
structure Coll where
  id : Nat
  die : BitVec 2
  ctx : CtxId
  lease : Byte
  sub : Byte
  handle : Nat
  block : List Word
  peers : List Word
  share : Word
  partners : List (Nat × Nat)
  lines : List Nat
  state : CollState
  start : List Word
  residual : List Word
  owns : List Nat
deriving DecidableEq, Repr

/-- What another participant has sent to a collective of this K4, which `index` names (R259, R349, log 22): its
parameters and, once it has started, its contribution. -/
structure CollPeer where
  node : BitVec 32
  die : BitVec 2
  index : Nat
  params : List Word
  data : List Word
deriving DecidableEq, Repr

/-- Steps of a relocation cycle (R67). -/
inductive GleanStep | copy | fixup | heal | done
deriving DecidableEq, Repr

/-- A relocation cycle in a Gleaner (R67-R69, R264, R370): what remains to be copied, the next free to-space, the
parcels that hold an object left in place, and the lines owned and held as runs (first line, count). -/
structure Glean where
  id : Nat
  die : BitVec 2
  ctx : CtxId
  lease : Byte
  sub : Byte
  base : Word
  bitmap : Word
  step : GleanStep
  todo : List Word
  toParcels : List Nat
  toOff : Nat
  inPlace : List Nat
  stopped : Bool
  owns : List (Nat × Nat)
  holds : List (Nat × Nat)
deriving DecidableEq, Repr

/-- A nest from launch to completion (R265-R267, R292-R301); `gated` until its upstream word has read nonzero. -/
structure Nest where
  id : Nat
  die : BitVec 2
  lease : Byte
  sub : Byte
  level : BitVec 2
  words : List Word
  next : Nat
  live : Nat
  waited : Nat
  raised : Bool
  inPool : Bool
  gated : Bool
  failed : Bool
deriving DecidableEq, Repr

/-- An event queue (R372): base, log2 of its entries, next index. -/
structure EvQueue where
  base : Word
  k : Nat
  next : Nat
deriving DecidableEq, Repr

/-- A lease (R23, R340, R348, R352, R372): its stage 2 root on each die, its share of cores, Mills, control cores and of each
port's virtual queues, and while it is paused the reading of `TIME` at the pause. -/
structure Lease where
  num : Byte
  roots : Vector Word 4
  offset : Word
  tolerance : Word
  queue : Option EvQueue
  cores : List (BitVec 8)
  mills : List (BitVec 6)
  ccs : List (BitVec 5)
  vqueues : Vector (BitVec 7) 16
  pausedAt : Option Word
deriving DecidableEq, Repr

/-- A sublease (R23, R311, R340, R372). `ldmClear` holds for each die the mask bits revoked and still in force there. -/
structure Sub where
  lease : Byte
  num : Byte
  root : BitVec 52
  cores : List (BitVec 8)
  pipes : List (BitVec 9 × BitVec 8)
  mills : List (BitVec 6)
  vqueues : Vector (BitVec 7) 16
  quota : BitVec 16
  cap : BitVec 2
  urn : BitVec 8
  ldm : Word
  ldmClear : Vector Word 4
  queue : Option EvQueue
  window : Option (BitVec 52 × BitVec 52)
deriving DecidableEq, Repr

/-- A delegation record (R346): delegator, holder, target (0xFF: the lease itself), rights; `revoked` until the next slot boundary takes it away. -/
structure Deleg where
  byLevel : BitVec 2
  byLease : Byte
  bySub : Byte
  toLevel : BitVec 2
  toLease : Byte
  toSub : Byte
  tLease : Byte
  tSub : Byte
  rights : Rights
  revoked : Bool
deriving DecidableEq, Repr

/-- An event record on its way to a level's queue (R312, R313). -/
structure EvRecord where
  level : BitVec 2
  lease : Byte
  sub : Byte
  words : List Word
deriving DecidableEq, Repr

/-- A black-box entry (R330). -/
structure BlackBox where
  seq : Word
  time : Word
  header : Word
  detail : Word
deriving DecidableEq, Repr

/-- A response of the Reeve (R344): who asked, and its eight words. -/
structure Response where
  level : BitVec 2
  lease : Byte
  sub : Byte
  words : List Word
deriving DecidableEq, Repr

/-- A request that has arrived and is not answered, in arrival order; `begun` once its right has been found (R346). -/
structure Waiting where
  num : Nat
  req : Req
  body : ReqBody
  begun : Bool
deriving DecidableEq, Repr

/-- A line whose destroyed copy has been removed and whose page is still to be retired, for the sublease that owned its
way-group (R323, R338); `unhurt` marks the words that were not destroyed, which read as poisoned until then. -/
structure Retiring where
  line : Nat
  lease : Byte
  sub : Byte
  unhurt : BitVec 16
deriving DecidableEq, Repr

/-- A quote (R351). -/
structure Quote where
  serial : Word
  measurements : List (BitVec 256)
  partition : BitVec 256
  nonce : BitVec 256
  leaf : Nat
  signature : Vector Byte 2820
deriving DecidableEq, Repr

/-- The Reeve's tables and what the I/O die keeps (R327, R330, R340-R355). -/
structure Reeve where
  booted : Bool
  measurements : List (BitVec 256)
  minVersion : BitVec 32
  keyHash : BitVec 256
  serial : Word
  frozen : Bool
  leases : List Lease
  subs : List Sub
  delegs : List Deleg
  inbox : List Waiting
  responses : List Response
  records : List EvRecord
  wQueue : Option EvQueue
  box : List BlackBox
  boxNext : Word
  retired : List Nat
  used : List Nat
  retiring : List Retiring
  leaf : Nat
  quotes : List Quote
deriving DecidableEq, Repr

/-- A control core (R2, R281): the registers of RV64GC, and its reservation (device physical address, bytes). -/
structure CcCore where
  x : Vector Word 32
  f : Vector Word 32
  fcsr : Word
  pc : Word
  resv : Option (Nat × Nat)
deriving DecidableEq, Repr

/-- What an Ultra Ethernet virtual queue of a sublease holds (R340, R347, R349): one message, with its tag where it has
one. -/
structure UeMsg where
  port : BitVec 4
  lease : Byte
  sub : Byte
  tag : Option Word
  data : List Byte
deriving DecidableEq, Repr

/-- What the K4 has answered to a peer (R349): data of a read or an atomic, or the unsupported status. -/
structure Reply where
  msg : FabricMsg
  supported : Bool
  data : List Byte
deriving DecidableEq, Repr

/-- What moves next, as plain data (log 2): a context or lane thread executes, a step that no word encodes is
performed, board time or clock cycles pass, a cached translation or a table pointer is dropped. -/
inductive Turn
  | run (c : CtxId)
  | lane (c : CtxId) (e : Nat)
  | event (i : Instr) (a : EventArg)
  | tick (ns : Nat)
  | cycles (n : Nat)
  | tlbDrop (k : Nat)
  | walkDrop (k : Nat)
deriving DecidableEq, Repr

/-- The machine. `node` is this K4's fabric node number (R259); `latent` holds the marks of words in DRAM that a good
cached copy still hides (R316, R322). -/
structure State where
  node : BitVec 32
  ctx : Ctx
  others : List Ctx
  lane : Option Nat
  enc : Word
  arg : EventArg
  cores : List (Nat × Core)
  mills : List (Nat × Mill)
  dies : Vector Die 4
  mem : Memory
  poison : List Nat
  dramErr : List (Nat × BitVec 16)
  latent : List (Nat × BitVec 16)
  tlb : List Tlb
  walks : List WalkEntry
  ops : List EngineOp
  colls : List Coll
  peers : List CollPeer
  gleans : List Glean
  nests : List Nest
  reeve : Reeve
  ccs : List (Nat × CcCore)
  ue : List UeMsg
  replies : List Reply
  time : Word
  agenda : List Turn
  pend : List (Instr × EventArg)
  yielded : Nat
  streak : Nat
  freeCtr : Nat
  nextId : Nat
deriving DecidableEq, Repr

/-- Why the machine stops. -/
inductive Fault
  /-- Raised by the steps that strike or move DRAM (`UNCORRECTABLE_ERROR`, `PAGE_RETIRE`,
  `DRAM_PATROL_SCRUB`) for an address outside package DRAM, where R17 puts no DRAM. Safe: no program reaches it. -/
  | noDram (addr : Nat)
deriving DecidableEq, Repr

/-- Why the model gives no meaning. -/
inductive Refusal
  /-- An instruction without a meaning, raised by its arm of `exec`. Safe. -/
  | notModelled (mnemonic : String)
deriving DecidableEq, Repr

/-! Reset. -/

def loop0 : LoopCtx := { remaining := 0, grant := 0, base := 0, strips := 0 }
def front0 : Front := { cfg := 0, slots := [] }

/-- A context as placement finds it (R293), before `self` and the record's values are set; the values of a
context that was never placed are the model's (log 3). -/
def ctx0 : Ctx :=
  { phase := .free, self := 0, lease := 0, sub := 0, nest := 0
    x := Vector.replicate 32 0, h := Vector.replicate 16 0, pc := 0
    status := 0, tvec := 0, tpc := 0, tcause := 0, tval := 0, tqpos := 0, tplot := 0, tcell := 0, vstart := 0
    tdeleg := 0x010F0000, vl := 0, mvl := 4096, vtype := 0x71, mfmt := 0, fill := 0, fcsr := 0, kvwin := 1
    fovf := 0, cki := 0, lq := [], pdirty := 0, cycle := 0, nestidx := Vector.replicate 4 0
    bypassth := 0x8000, urnshare := 16, loop := loop0
    plots := Vector.replicate 64 0, masks := Vector.replicate 16 0, fronts := Vector.replicate 8 front0
    vq := [], vqNext := 0, held := none, convoy := [], detach := none, descs := [], pins := [], handles := []
    wait := none, breaks := [], unit := false, passed := false
    unissued := false, area := none, awaits := none }

def fe0 : FrontEnd := { pipeown := 0, maps := [], streams := [], rowsOwner := none }

def core0 : Core :=
  { field := [], fieldErr := [], fe0 := fe0, fe1 := fe0, split := false, board := []
    evsel := Vector.replicate 16 0, evcnt := Vector.replicate 16 0, l1 := [], gathered := [], laneErr := [], fwd := [] }

def mill0 : Mill :=
  { slices := [], bad := [], tiles := [], feed := Vector.replicate 4 [], drain := Vector.replicate 4 [], ops := []
    holder := none, owner := none }

/-- An unused entry of the gang slot table (R342). -/
def slot0 : Word := 0x0000FFFFFFFFFFFF

def die0 : Die :=
  { l2 := [], quarantined := [], slots := Vector.replicate 64 slot0, present := none, inForce := slot0, slotEnd := 10000
    errinj := 0, selects := Vector.replicate 64 0, counts := Vector.replicate 64 0, cpFrozen := false
    served := [], power := 0, slow := 0 }

def reeve0 : Reeve :=
  { booted := false, measurements := [], minVersion := 0, keyHash := 0, serial := 0, frozen := false, leases := [], subs := []
    delegs := [], inbox := [], responses := [], records := [], wQueue := none, box := [], boxNext := 1
    retired := [], used := [], retiring := [], leaf := 0, quotes := [] }

/-- A control core before its first instruction; the spec gives its registers no reset value (log 3). -/
def cc0 : CcCore := { x := Vector.replicate 32 0, f := Vector.replicate 32 0, fcsr := 0, pc := 0, resv := none }

/-- The machine right after reset: no strand, no lease, nothing cached, memory with nothing listed. -/
def State.reset : State :=
  { node := 0, ctx := ctx0, others := [], lane := none, enc := 0, arg := .none, cores := [], mills := []
    dies := Vector.replicate 4 die0, mem := [], poison := [], dramErr := [], latent := [], tlb := [], walks := [], ops := [], colls := []
    peers := [], gleans := [], nests := [], reeve := reeve0, ccs := [], ue := [], replies := [], time := 0, agenda := [], pend := []
    yielded := 0, streak := 0, freeCtr := 0, nextId := 0 }

end Sys2Proof.Machine
end

