-- ==== Sys2Proof/Machine/Ops.lean ====
section
/-! DEFINITION. Named operations on the state: sparse storage, contexts, registers, event records, taking a
trap (R153, R154, R308-R315) and returning from one (R155, R312), and how a meaning ends. -/

namespace Sys2Proof.Machine

/-! Sparse storage: rising keys, no entry equal to the default. -/

/-- Value under key k, or d. -/
def sget {α : Type} (d : α) : List (Nat × α) → Nat → α
  | [], _ => d
  | (k', v) :: l, k => if k' = k then v else if k < k' then d else sget d l k

/-- Sets key k to v, keeping the form. -/
def sset {α : Type} [DecidableEq α] (d : α) : List (Nat × α) → Nat → α → List (Nat × α)
  | [], k, v => if v = d then [] else [(k, v)]
  | (k', v') :: l, k, v =>
    if k < k' then (if v = d then (k', v') :: l else (k, v) :: (k', v') :: l)
    else if k = k' then (if v = d then l else (k, v) :: l)
    else (k', v') :: sset d l k v

/-- The canonical form, from a lower bound of the keys on. -/
def swf {α : Type} [DecidableEq α] (d : α) : Nat → List (Nat × α) → Bool
  | _, [] => true
  | b, (k, v) :: l => decide (b ≤ k) && decide (v ≠ d) && swf d (k + 1) l

/-- Memory is in canonical form (log 1). -/
def Memory.wf (m : Memory) : Bool := swf 0 0 m

/-- The byte at a device physical address (log 1: an unlisted byte reads 0). -/
def Memory.byte (m : Memory) (a : Nat) : Byte := sget 0 m a

/-- m with one byte written. -/
def Memory.setByte (m : Memory) (a : Nat) (b : Byte) : Memory := sset 0 m a b

/-- n bytes from address a on, of memory that lists nothing below a. -/
def Memory.run (a : Nat) : Nat → Memory → List Byte
  | 0, _ => []
  | n + 1, [] => 0 :: Memory.run (a + 1) n []
  | n + 1, (k, v) :: l => if k = a then v :: Memory.run (a + 1) n l else 0 :: Memory.run (a + 1) n ((k, v) :: l)

/-- n bytes from address a on. -/
def Memory.bytes (m : Memory) (a n : Nat) : List Byte := Memory.run a n (m.dropWhile (fun c => decide (c.1 < a)))

/-- The entries that a byte string makes at address a. -/
def cellsOf (a : Nat) : List Byte → Memory
  | [] => []
  | b :: bs => if b = 0 then cellsOf (a + 1) bs else (a, b) :: cellsOf (a + 1) bs

/-- Writes a byte string at address a. -/
def Memory.setBytes (m : Memory) (a : Nat) (bs : List Byte) : Memory :=
  m.takeWhile (fun c => decide (c.1 < a)) ++ (cellsOf a bs ++ m.dropWhile (fun c => decide (c.1 < a + bs.length)))

/-- n bytes at a, little-endian (R7). -/
def Memory.num (m : Memory) (a n : Nat) : Nat := leNat (m.bytes a n)

/-- Writes the low n bytes of v at a, little-endian (R7). -/
def Memory.setNum (m : Memory) (a n v : Nat) : Memory := m.setBytes a (leBytes n v)

/-! How a meaning ends. -/

/-- Where a vector instruction traps (R100-R102): the entry, and what `VSTART`, `TPLOT` and `TCELL` record. -/
structure VTrap where
  entry : VQEntry
  vstart : Nat
  plot : Nat
  cell : Nat
deriving DecidableEq, Repr

/-- A trap on its way (R308): cause, `TVAL`, the vector position, and whether `TPC` is the next address. -/
structure Trap where
  cause : Nat
  tval : Word
  vec : Option VTrap
  after : Bool
deriving DecidableEq, Repr

/-- What a meaning answers instead of its effect: a trap with the state it left, or a wait. -/
inductive Stop
  | trap (s : State) (t : Trap)
  | wait (s : State)
deriving DecidableEq, Repr

abbrev Res (α : Type) := Except Stop α

/-- A scalar trap, precise at the instruction. -/
def Trap.scalar (cause : Nat) (tval : Word) : Trap := { cause := cause, tval := tval, vec := none, after := false }

def raise {α : Type} (s : State) (cause : Nat) (tval : Word) : Res α := .error (.trap s (.scalar cause tval))

/-- The instruction waits and is executed again (R31). -/
def waits {α : Type} (s : State) : Res α := .error (.wait s)

/-- Continues when b holds, else raises a cause. -/
def check (b : Bool) (s : State) (cause : Nat) (tval : Word) : Res Unit :=
  if b then .ok () else raise s cause tval

/-! Contexts. -/

def Ctx.id (c : Ctx) : CtxId := c.self.extractLsb' 0 11
def Ctx.isMiller (c : Ctx) : Bool := c.self.getLsbD 10
def Ctx.die (c : Ctx) : BitVec 2 := c.self.extractLsb' 8 2
/-- Cluster of the device, 0-63: die and cluster. -/
def Ctx.cluster (c : Ctx) : Nat := (c.self.extractLsb' 4 6).toNat
/-- Core of the device, 0-255: die, cluster and core. -/
def Ctx.core (c : Ctx) : Nat := (c.self.extractLsb' 2 8).toNat
def Ctx.fe (c : Ctx) : Bool := c.self.getLsbD 1
/-- Level of the code a context runs (R159). -/
def Ctx.level (c : Ctx) : Nat := bits c.status 1 0
def Ctx.inTrap (c : Ctx) : Bool := bitAt c.status 4
def Ctx.protected (c : Ctx) : Bool := bitAt c.status 15
/-- A context that holds a strand or is draining makes its front end active (R88). -/
def Ctx.active (c : Ctx) : Bool := c.phase != .free
/-- The strand stands in its hardware context: it is not saved (R302). -/
def Ctx.present (c : Ctx) : Bool := match c.phase with | .free | .saved => false | _ => true

/-- Two contexts of one front end (R162); a Miller has none. -/
def Ctx.sibling (k j : Ctx) : Bool := !k.isMiller && !j.isMiller && j.id != k.id && j.core == k.core && j.fe == k.fe

/-- The vector state is dead (R88, R164): it is as `vrelease` and placement leave it, and no vector instruction is under
way; a draining context keeps none. -/
def Ctx.vdead (c : Ctx) : Bool :=
  c.phase == .draining || c.vq.isEmpty && c.held.isNone && c.detach.isNone && c.vl == 0 && c.lq.isEmpty && c.plots == Vector.replicate 64 0 &&
  c.masks == Vector.replicate 16 0 && c.fronts == Vector.replicate 8 front0 && c.loop == loop0

namespace State

/-- Every context that is not free, the current one first. -/
def ctxs (s : State) : List Ctx := s.ctx :: s.others

def findCtx (s : State) (c : CtxId) : Option Ctx := s.ctxs.find? (fun k => k.id == c && k.present)

/-- Changes the contexts that p selects. -/
def mapCtxs (s : State) (p : Ctx → Bool) (f : Ctx → Ctx) : State :=
  { s with ctx := if p s.ctx then f s.ctx else s.ctx, others := updateWhere p f s.others }

def updCtx (s : State) (c : CtxId) (f : Ctx → Ctx) : State := s.mapCtxs (fun k => k.id == c && k.present) f

def modCtx (s : State) (f : Ctx → Ctx) : State := { s with ctx := f s.ctx }

/-- Makes another context the current one; the one set aside is kept unless it is free. -/
def switchTo (s : State) (c : CtxId) : State :=
  if s.ctx.id == c && s.ctx.present then s
  else match s.others.find? (fun k => k.id == c && k.present) with
    | none => s
    | some k =>
      let rest := s.others.erase k
      { s with ctx := k, others := if s.ctx.active then s.ctx :: rest else rest, lane := none }

/-- A strand waits for the first instruction of its crew's Miller (R294). -/
def awaitsMiller (s : State) (k : Ctx) : Bool :=
  !k.isMiller && s.ctxs.any (fun j => j.present && j.isMiller && j.unissued && j.nest == k.nest && j.cluster == k.cluster)

/-- Whether the other context of the same front end is ready (R162). -/
def siblingRuns (s : State) (k : Ctx) : Bool :=
  s.ctxs.any (fun j => j.phase == .running && k.sibling j && !s.awaitsMiller j)

/-- Whether a context can issue: it runs, has not passed issue to a running sibling (R162), and its Miller has
started. A sibling that is suspended for the answer to a trap has ended the pass, as one that waits has (log 74). -/
def canIssue (s : State) (k : Ctx) : Bool :=
  k.phase == .running && !(k.passed && s.siblingRuns k) && !s.awaitsMiller k

/-- The next context that can issue, after the current one. -/
def nextRunnable (s : State) : Option CtxId := (s.others.find? s.canIssue).map Ctx.id

/-- The current context waits, ends or releases the vector unit: its sibling issues again (R162). -/
def unpass (s : State) : State :=
  { s with others := updateWhere s.ctx.sibling (fun j => { j with passed := false }) s.others }

/-- The other context of a context's front end. -/
def besides (c : CtxId) (j : Ctx) : Bool :=
  !c.getLsbD 10 && !j.isMiller && j.id != c && j.id.extractLsb' 1 10 == c.extractLsb' 1 10

/-- What had passed issue to context c issues again: c has ended, or begins (R162). -/
def endPass (s : State) (c : CtxId) : State := s.mapCtxs (besides c) (fun j => { j with passed := false })

/-- Another context that can issue becomes the current one, and the units beside it have their turns (log 2). -/
def rotate (s : State) : State :=
  let s := { s with yielded := 1, streak := 0 }
  match s.others.find? s.canIssue with
  | none => s
  | some k =>
    let rest := s.others.erase k
    { s with ctx := k, others := if s.ctx.active then rest ++ [s.ctx] else rest, lane := none }

/-- A waiting context lets another, or the units beside it, move first (R31, R162, log 2); a lane thread that waits ends no
pass of its context. -/
def yieldTurn (s : State) : State :=
  let s := { s with yielded := 1 }
  (if s.lane.isSome then s else s.unpass).rotate

/-! Cores, Mills and dies. -/

def core (s : State) (n : Nat) : Core := (lookupN n s.cores).getD core0
def setCore (s : State) (n : Nat) (c : Core) : State := { s with cores := insertN n c s.cores }
def modCore (s : State) (n : Nat) (f : Core → Core) : State := s.setCore n (f (s.core n))
def mill (s : State) (n : Nat) : Mill := (lookupN n s.mills).getD mill0
def setMill (s : State) (n : Nat) (m : Mill) : State := { s with mills := insertN n m s.mills }
def die (s : State) (d : BitVec 2) : Die := s.dies[d.toNat]'d.isLt
def setDie (s : State) (d : BitVec 2) (x : Die) : State := { s with dies := s.dies.set d.toNat x d.isLt }
def modDie (s : State) (d : BitVec 2) (f : Die → Die) : State := s.setDie d (f (s.die d))

def myCore (s : State) : Core := s.core s.ctx.core

end State

def Core.fe (c : Core) (f : Bool) : FrontEnd := if f then c.fe1 else c.fe0
def Core.setFe (c : Core) (f : Bool) (x : FrontEnd) : Core := if f then { c with fe1 := x } else { c with fe0 := x }
def Core.modFe (c : Core) (f : Bool) (g : FrontEnd → FrontEnd) : Core := c.setFe f (g (c.fe f))

namespace State

def myFe (s : State) : FrontEnd := s.myCore.fe s.ctx.fe
def modMyFe (s : State) (g : FrontEnd → FrontEnd) : State := s.modCore s.ctx.core (fun c => c.modFe s.ctx.fe g)

/-- Whether front end f of core n is active (R88). -/
def feActive (s : State) (n : Nat) (f : Bool) : Bool :=
  s.ctxs.any (fun k => k.active && !k.isMiller && k.core == n && k.fe == f)

/-- The core takes the arrangement that its active front ends ask for, once the vector state of every context there is
dead (R88). -/
def arrange (s : State) (n : Nat) : State :=
  if s.ctxs.any (fun k => k.present && !k.isMiller && k.core == n && !k.vdead) then s
  else s.modCore n (fun c => { c with split := s.feActive n false && s.feActive n true })

/-- The command processors of a die are stopped: no placement, no step of a collective or of a cycle begins (R326). -/
def cpFrozen (s : State) (d : BitVec 2) : Bool := (s.die d).cpFrozen

/-- A die that sleeps is woken before it serves what has arrived (R352). -/
def asleep (s : State) (d : BitVec 2) : Bool := (s.die d).power != 0 || (s.die d).slow != 0
def callWake (s : State) (d : BitVec 2) : State :=
  if s.pend.contains (.wake, .die d) then s else { s with pend := (.wake, .die d) :: s.pend }

/-- A value the spec leaves open (log 8). -/
def free (s : State) : Word × State := (Config.freeValue s.freeCtr, { s with freeCtr := s.freeCtr + 1 })

def fresh (s : State) : Nat × State := (s.nextId, { s with nextId := s.nextId + 1 })

/-- Work that a unit has been given and that moves when its turn comes (log 2). -/
def post (s : State) (i : Instr) (a : EventArg) : State := { s with pend := s.pend ++ [(i, a)] }

/-! Leases and time. -/

def lease? (s : State) (l : Byte) : Option Lease := s.reeve.leases.find? (fun k => k.num == l)
def sub? (s : State) (l b : Byte) : Option Sub := s.reeve.subs.find? (fun k => k.lease == l && k.num == b)
def modLease (s : State) (l : Byte) (f : Lease → Lease) : State :=
  { s with reeve := { s.reeve with leases := updateWhere (fun k => k.num == l) f s.reeve.leases } }
def modSub (s : State) (l b : Byte) (f : Sub → Sub) : State :=
  { s with reeve := { s.reeve with subs := updateWhere (fun k => k.lease == l && k.num == b) f s.reeve.subs } }

/-- `TIME` for a lease (R348). -/
def timeOf (s : State) (l : Byte) : Word := s.time + ((s.lease? l).map Lease.offset).getD 0

/-! Event records and the black box (R312-R314, R330). -/

/-- Header of a record (R313, word 0). -/
def header (kind cause : Nat) (lease sub : Byte) (coord : Nat) : Word :=
  word (((kind * 256 + cause) * 256 + lease.toNat) * 256 + sub.toNat) * 4294967296 + word coord

/-- Appends a black-box entry and answers its sequence number (R330). -/
def addBox (s : State) (header detail : Word) : State × Word :=
  let r := s.reeve
  let e : BlackBox := { seq := r.boxNext, time := s.time, header := header, detail := detail }
  let box := r.box ++ [e]
  ({ s with reeve := { r with box := (box.reverse.take 4096).reverse, boxNext := r.boxNext + 1 } }, r.boxNext)

/-- Level L's or S's or W's record, to be written when its queue has room (R372). -/
def addRecord (s : State) (level : BitVec 2) (lease sub : Byte) (words : List Word) : State :=
  let r : EvRecord := { level := level, lease := lease, sub := sub, words := words }
  let s := { s with reeve := { s.reeve with records := s.reeve.records ++ [r] } }
  s.post .eventRecordWrite .none

/-- Whether a level has registered an event queue (R309). -/
def hasQueue (s : State) (level : Nat) (lease sub : Byte) : Bool :=
  match level with
  | 1 => ((s.sub? lease sub).bind Sub.queue).isSome
  | 2 => ((s.lease? lease).bind Lease.queue).isSome
  | 3 => true
  | _ => false

/-- A notice without a trap: the eight words of R313 with value and detail. -/
def noticeWords (s : State) (hd value detail seq : Word) (lease : Byte) : List Word :=
  [hd, value, 0, 0, 0, s.timeOf lease, detail, seq]

end State

/-! Registers. -/

def Ctx.getX (c : Ctx) (r : XReg) : Word := if r = 0 then 0 else c.x[r.toNat]'r.isLt
def Ctx.setX (c : Ctx) (r : XReg) (v : Word) : Ctx := if r = 0 then c else { c with x := c.x.set r.toNat v r.isLt }
def Ctx.getH (c : Ctx) (r : HReg) : Word := if r = 0 then 0 else c.h[r.toNat]'r.isLt
def Ctx.setH (c : Ctx) (r : HReg) (v : Word) : Ctx := if r = 0 then c else { c with h := c.h.set r.toNat v r.isLt }
def Ctx.mask (c : Ctx) (m : MReg) : BitVec 4096 := c.masks[m.toNat]'m.isLt
def Ctx.setMask (c : Ctx) (m : MReg) (b : BitVec 4096) : Ctx := { c with masks := c.masks.set m.toNat b m.isLt }
def Ctx.plot (c : Ctx) (v : VReg) : Word := c.plots[v.toNat]'v.isLt
def Ctx.setPlot (c : Ctx) (v : VReg) (e : Word) : Ctx := { c with plots := c.plots.set v.toNat e v.isLt }
def Ctx.front (c : Ctx) (f : FReg) : Front := c.fronts[f.toNat]'f.isLt
def Ctx.setFront (c : Ctx) (f : FReg) (x : Front) : Ctx := { c with fronts := c.fronts.set f.toNat x f.isLt }

/-- `CKI` with a bit set and the count raised, saturating (R317, R318). -/
def Ctx.addCki (c : Ctx) (bit : Nat) : Ctx :=
  let n := bits c.cki 47 32
  { c with cki := (if n < 0xFFFF then c.cki + 0x100000000 else c.cki) ||| word (2 ^ bit) }

/-- The flags of an operation, made sticky in `FCSR` (R115). -/
def Ctx.addFlags (c : Ctx) (f : BitVec 5) : Ctx := { c with fcsr := c.fcsr ||| f.zeroExtend 64 }

/-- Changes the youngest entry of the vector queue. -/
def Ctx.modLast (c : Ctx) (f : VQEntry → VQEntry) : Ctx :=
  match c.vq.reverse with
  | [] => c
  | en :: rest => { c with vq := (f en :: rest).reverse }

/-- The same for the scalar core: behind a vector instruction that may still trap, the flags stand aside (R153). -/
def Ctx.scalarFlags (c : Ctx) (f : BitVec 5) : Ctx :=
  if c.vq.isEmpty then c.addFlags f else c.modLast (fun en => { en with flags := en.flags ||| f })

/-- Poison consumed by the scalar core, likewise. -/
def Ctx.scalarMark (c : Ctx) : Ctx :=
  if c.vq.isEmpty then c.addCki 1 else c.modLast (fun en => { en with marks := en.marks + 1 })

/-- A queued instruction is done: what stood aside behind it takes effect. -/
def Ctx.retired (c : Ctx) (en : VQEntry) : Ctx :=
  (List.range en.marks).foldl (fun c _ => c.addCki 1) (c.addFlags en.flags)

/-! Taking a trap. -/

/-- The owner of a cause (R308): 0 P, 1 S, 2 L, 3 W. -/
def causeOwner (c : Nat) : Nat :=
  if c = 0x08 || c = 0x09 || c = 0x0A then 2
  else if c = 0x0C || c = 0x30 || c = 0x31 then 3
  else if (0x10 ≤ c && c ≤ 0x13) || c = 0x18 then 0
  else 1

/-- Causes whose `TVAL` is an address (R231, R308). -/
def causeHasAddress (c : Nat) : Bool :=
  c = 0x04 || c = 0x08 || c = 0x09 || c = 0x0A || c = 0x0C || c = 0x0D || c = 0x0E || c = 0x1C

namespace State

/-- Whether a level has a handler for a trap of context c (R309). -/
def hasHandler (s : State) (c : Ctx) (level : Nat) : Bool :=
  match level with
  | 0 => !c.inTrap && c.tvec != 0
  | n => s.hasQueue n c.lease c.sub

/-- The lease delegation mask as it stands for a context: a revoked bit counts until its die's boundary (R311). -/
def ldmOf (s : State) (c : Ctx) : Word :=
  match s.sub? c.lease c.sub with
  | none => 0
  | some b => b.ldm ||| b.ldmClear[c.die.toNat]'c.die.isLt

/-- The level that receives cause n raised by context c (R309). -/
def route (s : State) (c : Ctx) (n : Nat) : Nat :=
  let ldm := s.ldmOf c
  let tdeleg : Word := if c.isMiller then 0x010F0000 else c.tdeleg
  let own := causeOwner n
  let l := if own = 2 && bitAt ldm n then 1 else own
  let l := if (l = 1 || own = 0) && bitAt tdeleg n then 0 else l
  let l := if own = 0 && !bitAt tdeleg n then 1 else l
  let up (l : Nat) : Nat := if s.hasHandler c l then l else l + 1
  if l = 0 then (let l := up 0; if l = 0 then 0 else let l := up 1; if l = 1 then 1 else up 2)
  else if l = 1 then (let l := up 1; if l = 1 then 1 else up 2)
  else if l = 2 then up 2
  else 3

/-- The context ends and drains (R163, R301): its scalar and vector state are not kept. -/
def endCtx (s : State) (c : CtxId) : State :=
  let s := s.updCtx c (fun k => { k with
    phase := .draining, vq := [], held := none, detach := none, wait := none, unit := false
    awaits := none })
  let s := if c.getLsbD 10 then s else (s.endPass c).arrange (c.extractLsb' 2 8).toNat
  s.post .drainComplete (.ctx c)

/-- Notices of kind 0x02 for a context that is terminated (R314). `own` says that S itself asked for it; `value` is
word 1 of the record. -/
def endNotice (s : State) (c : Ctx) (cause : Nat) (own : Bool) (value : Word) : State :=
  let hd := header 2 cause c.lease c.sub c.self.toNat
  let (s, seq) := s.addBox hd (word cause)
  let ws := s.noticeWords hd value (word cause) seq c.lease
  let s := s.addRecord 2 c.lease 0xFF ws
  if own then s else s.addRecord 1 c.lease c.sub ws

/-- The collectives that p selects are aborted (R263), at steps of their own. -/
def abortColls (s : State) (p : Coll → Bool) : State :=
  (s.colls.filter p).foldl (fun s c => s.post .collectiveAbort (.op c.id)) s

/-- The context is terminated (R312, R321, R331): notices, then as `endCtx`, and its collectives are aborted (R263). -/
def terminate (s : State) (c : Ctx) (cause : Nat) (own : Bool) (value : Word) : State :=
  ((s.endNotice c cause own value).endCtx c.id).abortColls (fun k => k.ctx == c.id && c.handles.any (fun h => h.2 == k.id))

/-- The record of a trap that awaits an answer (R313): from the trap registers, or under R315 from the trap. -/
def trapRecord (s : State) (c : Ctx) (t : Trap) (pc seq : Word) : List Word :=
  let hd := header 1 t.cause c.lease c.sub c.self.toNat
  if c.inTrap then [hd, t.tval, pc, 0, 0, s.timeOf c.lease, 0, seq]
  else [hd, c.tval, c.tpc, c.tqpos,
    word (c.tcell.toNat % 2 ^ 32 * 2 ^ 32 + bits c.tplot 6 0 * 2 ^ 24 + bits c.vstart 11 0),
    s.timeOf c.lease, 0, seq]

end State

/-- Address after a queued instruction: `strset` and `vlend` are of 4 bytes (R195, R255). -/
def VQEntry.next (en : VQEntry) : Word :=
  match en.instr with
  | .strset _ _ | .vlend _ => en.pc + 4
  | _ => en.pc + 8

/-- The trap registers at a trap (R153, R100-R102). -/
def Ctx.trapRegs (c : Ctx) (t : Trap) (size : Word) : Ctx :=
  let c := { c with tcause := word t.cause, tval := t.tval }
  match t.vec with
  | none => { c with tpc := if t.after then c.pc + size else c.pc }
  | some v => { c with
      tpc := v.entry.next, vqNext := v.entry.pos + 1, tqpos := 0x8000000000000000 + v.entry.pos.zeroExtend 64
      vstart := word v.vstart, tplot := word v.plot, tcell := word v.cell, held := some v.entry }

/-- The context as it stood when a vector instruction that traps was committed (R153): younger instructions are
discarded, and a convoy that was begun is fetched again (R373). -/
def Ctx.undone (c : Ctx) (t : Trap) : Ctx :=
  { c with vq := [], convoy := [], x := (t.vec.map (fun v => v.entry.regs)).getD c.x }

/-- Address of the instruction that traps. -/
def Ctx.trapPc (c : Ctx) (t : Trap) : Word :=
  match t.vec with
  | none => c.pc
  | some v => v.entry.pc

namespace State

/-- A lane thread ends with a fault (R229, R231). -/
def laneFault (s : State) (e : Nat) (cause : Nat) (addr : Word) : State :=
  let upd (d : Detach) : Detach := { d with
    threads := d.threads.filter (fun t => t.elem != e)
    faults := { elem := e, cause := BitVec.ofNat 8 cause, addr := addr } :: d.faults }
  { s with lane := none, ctx := { s.ctx with detach := s.ctx.detach.map upd } }

/-- The running lane thread. -/
def thread? (s : State) : Option LaneThread :=
  s.lane.bind (fun e => s.ctx.detach.bind (fun d => d.threads.find? (fun t => t.elem == e)))

/-- Address of the instruction being executed, by the context or by its lane thread. -/
def pc (s : State) : Word :=
  match s.thread? with
  | some t => t.pc
  | none => s.ctx.pc

/-- Taking a trap (R153, R154, R309, R312, R315). A lane thread's trap is its fault (R229). The handler at P is
entered at `TVEC` with InTrap set; above P the context is suspended and a record is written; W answers with
terminate. Instructions younger than a vector instruction that traps are discarded and what the scalar core has done
since is undone; a trap of the scalar core waits for the older vector instructions. -/
def takeTrap (s : State) (t : Trap) : State :=
  match s.lane with
  | some e => s.laneFault e t.cause (if causeHasAddress t.cause then t.tval else s.pc)
  | none =>
    if t.vec.isNone && !s.ctx.vq.isEmpty then s.yieldTurn else
    let c := s.ctx.undone t
    let level := s.route c t.cause
    let pc := c.trapPc t
    let c1 :=
      if c.inTrap then { c with pc := pc, vqNext := (t.vec.map (fun v => v.entry.pos)).getD c.vqNext }
      else c.trapRegs t 4
    if level = 0 then
      { s with ctx := { c1 with status := c1.status ||| 0x10, pc := c1.tvec } }
    else
      let a : Await := { level := BitVec.ofNat 2 level, nested := c.inTrap, cause := BitVec.ofNat 8 t.cause, tval := t.tval }
      let s1 := ({ s with ctx := { c1 with phase := .suspended, awaits := some a } } : State).unpass
      let hd := header 1 t.cause c.lease c.sub c.self.toNat
      let (s2, seq) : State × Word := if 2 ≤ level then s1.addBox hd 0 else (s1, 0)
      let s3 := s2.addRecord (BitVec.ofNat 2 level) c.lease (if level = 1 then c.sub else 0xFF)
        (s2.trapRecord c1 t pc seq)
      if level = 3 && !s.reeve.frozen then s3.terminate s3.ctx 0x30 false t.tval else s3

end State

/-- Return from a trap (R155, R312): InTrap clears, Valid clears, and fetch goes on at `TPC`. -/
def Ctx.returned (c : Ctx) : Ctx :=
  { c with status := c.status &&& ~~~0x10, held := none, tqpos := c.tqpos &&& 0x7FFFFFFFFFFFFFFF, pc := c.tpc }

/-- The vector instruction that the return dispatches, its registers those of the return. -/
def Ctx.resumes (c : Ctx) : Option VQEntry :=
  if bitAt c.tqpos 63 then c.held.map (fun en => { en with regs := c.x, flags := 0, marks := 0 }) else none

def State.returnFromTrap (s : State) : State := { s with ctx := s.ctx.returned }

/-- The outcome of a meaning: an effect or a trap is a next state; a wait lets others move and is tried again. -/
def settle : Res State → Host.Outcome State Fault Refusal
  | .ok s => .next s
  | .error (.trap s t) => .next (s.takeTrap t)
  | .error (.wait s) => .next s.yieldTurn

end Sys2Proof.Machine
end

