-- ==== Sys2Proof/Machine/Translate.lean ====
section
/-! DEFINITION. Translation: the device physical map (R17, R18), bank skew (R19), table entries (R22) and how two leaves
combine (R24), who makes an access, and checks 5 and 6 of R25: region classes (R21), pin windows (R72) and atomic support
(R26). The walks stand in Walk.lean. -/

namespace Sys2Proof.Machine

/-- Package DRAM (R17). -/
def isDram (pa : Nat) : Bool := pa < 2 ^ 39
def isFabric (pa : Nat) : Bool := 2 ^ 47 ≤ pa && pa < 2 ^ 48
/-- Device space that holds a region of R355. -/
def isDeviceRegion (pa : Nat) : Bool :=
  (0x8000000000 ≤ pa && pa < 0x8001000000) || (0x8100000000 ≤ pa && pa < 0x8100010000)
/-- The die counters' and selects' window (R355). -/
def isCounterWindow (pa : Nat) : Bool := 0x8100000000 ≤ pa && pa < 0x8100010000
def dieOfPa (pa : Nat) : Nat := pa / 2 ^ 37 % 4
def dieOffset (pa : Nat) : Nat := pa % 2 ^ 37
/-- The prime zone and its backed part (R18). -/
def primeBase : Nat := 0x1C00000000
def primeEnd : Nat := primeBase + 16288 * 2 ^ 20

/-- Where a line of a die lies: channel, bank and position (R19). -/
def bankPlace (skew off : Nat) : Option (Nat × Nat × Nat) :=
  match skew with
  | 0 => let i := off / 128; some (i % 64, i / 64 % 8, i / 512)
  | 1 =>
    let i := off / 128
    let b := i / 64
    some ((i ^^^ (i / 64) ^^^ (i / 4096)) % 64, (b ^^^ (b / 8) ^^^ (b / 64)) % 8, i / 512)
  | 2 =>
    let z := (off - primeBase) / 128
    let u := z % 509
    some (u % 64, u / 64, 1835008 + z / 509)
  | _ => none

/-- The kinds of access that R21 and R25 tell apart. -/
inductive Acc | load | store | atomic | fetch
deriving DecidableEq, Repr

/-- Who makes an access (R21, R72). -/
inductive Agent | scalar | word | vector | gather | stream | lane | engine | gleaner | walker
deriving DecidableEq, Repr

/-- The scalar core's accesses: its instructions', and those that `setvl.w` and `wmpub` make to a watermark word. -/
def Agent.isScalar (a : Agent) : Bool := a == .scalar || a == .word

/-- Through which structures of R27 an access is translated: a core's main or gather TLB, its cluster's TLB alone, or none
of them, as units without one do; the accesses of a lease handler's code, and the Reeve's own (R34). -/
inductive Via
  | core (n : Nat)
  | gather (n : Nat)
  | cluster (n : Nat)
  | unit
  | handler
  | reeve
deriving DecidableEq, Repr

/-- For whom an access is made: sublease and die (R23), and through which TLBs. -/
structure Who where
  lease : Byte
  sub : Byte
  die : BitVec 2
  via : Via := .unit
deriving DecidableEq, Repr

/-- A context's accesses; a Miller has the cluster's TLB only. -/
def Ctx.who (c : Ctx) : Who :=
  { lease := c.lease, sub := c.sub, die := c.die, via := if c.isMiller then .cluster c.cluster else .core c.core }

/-- The same for a gather, a scatter, `vamo` or a lane thread (R27, R228). -/
def Ctx.whoFor (c : Ctx) (a : Agent) : Who :=
  if (a == .gather || a == .lane) && !c.isMiller then { c.who with via := .gather c.core } else c.who

/-- A failed check: cause and `TVAL` (R25). -/
structure XFault where
  cause : Nat
  tval : Word
deriving DecidableEq, Repr

/-- What an access answers instead of its effect: a failed check, with what walking the tables has changed, or a wait for
a unit. -/
inductive AStop
  | fault (s : State) (f : XFault)
  | wait (s : State)
deriving DecidableEq, Repr

abbrev ARes (α : Type) := Except AStop α

/-- A leaf of either stage (R22): address and log2 of its size. -/
structure Leaf where
  addr : Nat
  size : Nat
  cls : BitVec 2
  home : BitVec 2
  skew : BitVec 2
  ce : Bool
  amo : Bool
  x : Bool
  w : Bool
  r : Bool
deriving DecidableEq, Repr

/-- A table entry as read. -/
inductive TEntry
  | bad
  | ptr (addr : Nat)
  | leaf (l : Leaf)
deriving DecidableEq, Repr

/-- An entry read at a level, 1-3, of either stage (R22). Invalid and malformed entries fault alike. -/
def parseEntry (stage2 : Bool) (level : Nat) (e : Word) : TEntry :=
  let addr := bits e 51 16 * 2 ^ 16
  if !bitAt e 63 || bits e 61 52 != 0 || bits e 4 0 != 0 then .bad
  else if stage2 && bits e 51 48 != 0 then .bad
  else if bitAt e 62 then
    if level = 3 || bits e 15 14 != 0 then .bad else .ptr addr
  else if level = 1 || bits e 15 14 = 3 || (level = 2 && bits e 28 16 != 0) then .bad
  else .leaf
    { addr := addr, size := if level = 2 then 29 else 16, cls := e.extractLsb' 14 2, home := e.extractLsb' 12 2
      skew := e.extractLsb' 10 2, ce := bitAt e 9, amo := bitAt e 8, x := bitAt e 7, w := bitAt e 6, r := bitAt e 5 }

/-- Whether a stage 2 leaf's frame, home, class and skew agree (R17, R20, R22). R20 speaks of a frame and not of a leaf of
512 MiB that lies in the backed part of the prime zone and beyond it: the model takes the whole of it for malformed. What
an access to the unbacked 96 MiB does, which only a leaf of device class, a table pointer or a remote access reaches, R18
leaves open: the model keeps bytes there as elsewhere (log 55). -/
def leaf2Ok (die : BitVec 2) (l : Leaf) : Bool :=
  let last := l.addr + 2 ^ l.size - 1
  if isDram l.addr then
    let home : Nat := if dieOfPa l.addr = die.toNat then 0 else 1
    let o := dieOffset l.addr
    let prime := primeBase ≤ o
    l.home.toNat == home && (l.cls == 2 ||
      (if prime then l.skew == 2 && o + 2 ^ l.size ≤ primeEnd else l.skew.toNat ≤ 1))
  else if isFabric l.addr then l.home == 2
  else isDeviceRegion l.addr && isDeviceRegion last && l.home == 0 && l.cls == 2

/-- Index of a level's entry: bits of the address from the level's shift on. -/
def entryIndex (level addr : Nat) : Nat :=
  match level with
  | 1 => addr / 2 ^ 42 % 2 ^ 13
  | 2 => addr / 2 ^ 29 % 2 ^ 13
  | _ => addr / 2 ^ 16 % 2 ^ 13

/-- Device physical address under a leaf. -/
def leafPa (l : Leaf) (a : Nat) : Nat := l.addr + a % 2 ^ l.size

/-- An address whose bits 63:55 equal bit 54 (R22). -/
def canonical (va : Word) : Bool := bits va 63 54 == 0 || bits va 63 54 == 1023

/-- The cause of a stage 1 failure, by kind of access (R25). -/
def Acc.cause : Acc → Nat
  | .load => 0x08 | .store => 0x09 | .atomic => 0x09 | .fetch => 0x0A

/-- Whether permissions admit a kind of access; an atomic needs Read and Write (R25). -/
def Acc.allowed (k : Acc) (x w r : Bool) : Bool :=
  match k with
  | .load => r | .store => w | .atomic => r && w | .fetch => x

def Tlb.allows (e : Tlb) (k : Acc) : Bool := k.allowed e.x e.w e.r

/-- The page of a combined entry covers a virtual address; the stage 2 leaf under it covers a lease address (R174). -/
def Tlb.covers (e : Tlb) (va : Word) : Bool := e.va == va.toNat / 2 ^ e.size
def Tlb.covers2 (e : Tlb) (ipa : Nat) : Bool := e.ipa / 2 ^ e.size2 == ipa / 2 ^ e.size2

/-- Device physical address of a virtual address under a combined entry. -/
def Tlb.phys (e : Tlb) (va : Word) : Nat := e.pa + va.toNat % 2 ^ e.size

/-- The two leaves of an address combined (R24). -/
def combine (w : Who) (va : Word) (l1 l2 : Leaf) : Tlb :=
  let ipa := leafPa l1 va.toNat
  let size := min l1.size l2.size
  { place := .cluster 0, lease := w.lease, sub := w.sub, die := w.die
    va := va.toNat / 2 ^ size, ipa := ipa / 2 ^ size * 2 ^ size
    pa := leafPa l2 ipa / 2 ^ size * 2 ^ size, size := size, size2 := l2.size
    cls := if l1.cls.toNat < l2.cls.toNat then l2.cls else l1.cls
    home := l2.home, skew := l2.skew, ce := l1.ce && l2.ce, amo := l1.amo && l2.amo
    x := l1.x && l2.x, w := l1.w && l2.w, r := l1.r && l2.r }

/-- Whether [a, a+n) lies inside a pin window (R71, R72). -/
def Ctx.pinned (c : Ctx) (va : Word) (n : Nat) : Bool :=
  c.pins.any (fun p => (va - p.header).toNat + n ≤ p.size && 16 ≤ (va - p.header).toNat)

/-- Check 5 of R25: the combined class admits the access (R21, R72). -/
def classAdmits (c : Ctx) (a : Agent) (k : Acc) (cls : BitVec 2) (va : Word) (n : Nat) : Bool :=
  match cls.toNat with
  | 0 => true
  | 1 =>
    match a with
    | .gleaner => true
    | .walker => false
    | _ => k != .fetch && c.pinned va n
  | _ => k != .fetch && a.isScalar

/-- Check 6 of R25 (R26). -/
def atomicOk (k : Acc) (sc : Scope) (e : Tlb) : Bool :=
  k != .atomic || e.amo || (e.home != 2 && sc != .system)

/-- Checks 5 and 6 of R25: the cause of the first that fails. -/
def classTest (c : Ctx) (a : Agent) (k : Acc) (sc : Scope) (va : Word) (n : Nat) (e : Tlb) : Option Nat :=
  if !classAdmits c a k e.cls va n then some 0x0D
  else if !atomicOk k sc e then some 0x0E
  else none

end Sys2Proof.Machine
end

