-- ==== Sys2Proof/Machine/Caches.lean ====
section
/-! DEFINITION. The L1s, the L2 and the stashes (R32-R43) as records of which lines are present and dirty; values are
coherent and live in `State.mem`. Filling, recalling, writing back, the detection of uncorrectable errors (R322, R323),
ownership by units (R46), and event counting (R353). -/

namespace Sys2Proof.Machine

/-- Home slice of a superblock (R32). -/
def l2Slice (sb : Nat) : Nat := (sb ^^^ (sb / 2 ^ 8) ^^^ (sb / 2 ^ 16) ^^^ (sb / 2 ^ 24)) % 256
/-- Set and tag of a superblock (R35). -/
def l2Set (sb : Nat) : Nat := sb / 256 % 32
def l2Tag (sb : Nat) : Nat := sb / 8192

/-- The same party at the die of a core, whose copy is written back (R32). -/
def Who.at (w : Who) (core : Nat) : Who := { w with die := BitVec.ofNat 2 (core / 64) }

/-- The die whose L2 holds a line: its own for DRAM, the requester's for the fabric window (R32). -/
def l2Die (w : Who) (line : Nat) : BitVec 2 :=
  if isDram (line * 128) then BitVec.ofNat 2 (dieOfPa (line * 128)) else w.die

/-- Whether the L2 can cache a line at all: not device space (R21). -/
def cacheable (line : Nat) : Bool := isDram (line * 128) || isFabric (line * 128)

def L2Way.holds (x : L2Way) (sb : Nat) : Bool := x.slice == l2Slice sb && x.set == l2Set sb && x.tag == l2Tag sb

/-- Device physical superblock number of a way's contents, on a die. -/
def L2Way.superblock (x : L2Way) : Nat :=
  let hi := x.tag * 8192 + x.set * 256
  ((x.slice ^^^ l2Slice hi) % 256) + hi

/-- Device physical line of a filled stash line. -/
def StashMap.physLine (m : StashMap) (l : StashLine) : Nat := l.entry.phys (m.addr + word (128 * l.idx)) / 128

/-- Way-group of a sublease in the present slot (R33, R34, R342). -/
def Die.groupOf (d : Die) (lease sub : Byte) : Option Nat :=
  match d.present with
  | none => none
  | some _ =>
    let e := d.inForce
    let occ := lease.toNat * 256 + sub.toNat
    if bits e 15 0 = occ then some 0 else if bits e 31 16 = occ then some 1
    else if bits e 47 32 = occ then some 2 else none

/-- The sublease that owns a way-group of a die (R33): none for W's. -/
def Die.ownerOf (x : Die) (group : Nat) : Option (Byte × Byte) :=
  if x.present.isNone || 3 ≤ group then none
  else
    let o := bits x.inForce (16 * group + 15) (16 * group)
    if o = 0xFFFF then none else some (BitVec.ofNat 8 (o / 256), BitVec.ofNat 8 o)

/-- The lines on which an operation of a Mill has a read-hold (R235). -/
def MillOp.lines (o : MillOp) : List Nat :=
  match o with
  | .mldb _ holds _ _ => holds
  | .mmul _ _ _ _ _ _ _ | .mclr _ | .mout _ _ _ _ _ _ => []

namespace State

/-- Marks the words of a line poisoned (R316). -/
def poisonLine (s : State) (line : Nat) (words : BitVec 16) : State :=
  let ws := ((List.range 16).filter (fun i => words.getLsbD i)).map (fun i => line * 16 + i)
  { s with poison := ws.filter (fun a => !s.poison.contains a) ++ s.poison }

/-- A cache holds a copy of the line: an L2, an L1 or a stash (R32). -/
def cachedCopy (s : State) (line : Nat) : Bool :=
  s.dies.toList.any (fun x => x.l2.any (fun y => y.holds (line / 4) && y.valid.getLsbD (line % 4))) ||
  s.cores.any (fun p => p.2.l1.any (fun q => q.line == line) ||
    (p.2.fe0.maps ++ p.2.fe1.maps).any (fun m => m.lines.any (fun l => m.physLine l == line)))

/-- The DRAM copy of a line is read: an error there is detected, its words are marked, and its page is to be retired
(R322). Marks under a good cached copy stay with the copy in DRAM (R316). -/
def dramScan (s : State) (line : Nat) : State :=
  match lookupN line s.dramErr with
  | none => s
  | some ws =>
    let s := { s with dramErr := eraseN line s.dramErr, latent := insertN line (((lookupN line s.latent).getD 0) ||| ws) s.latent }
    s.post .pageRetire (.addr (BitVec.ofNat 48 (line * 128 / 65536 * 65536)))

/-- A line is fetched from DRAM with its marks. While a cache still holds a copy, that copy is delivered (log 56). -/
def dramRead (s : State) (line : Nat) : State :=
  if s.cachedCopy line then s
  else
    let s := s.dramScan line
    match lookupN line s.latent with
    | none => s
    | some ws => ({ s with latent := eraseN line s.latent } : State).poisonLine line ws

/-- The whole line is written to DRAM, which replaces the stored bits (R322). -/
def dramWrite (s : State) (line : Nat) : State :=
  { s with dramErr := eraseN line s.dramErr, latent := eraseN line s.latent }

/-- One event of a die's counters (R354). -/
def countDie (s : State) (d : BitVec 2) (lease sub : Byte) (e n : Nat) : State :=
  let x := s.die d
  if x.selects.toList.all (fun v => v.toNat % 256 != e) then s
  else
    let tag := lease.toNat * 256 + sub.toNat
    let cnt := (List.range 64).map (fun i =>
      let sel := x.selects.toList.getD i 0
      let v := x.counts.toList.getD i 0
      if sel.toNat % 256 == e && (bits sel 31 16 == 0xFFFF || bits sel 31 16 == tag) then v + word n else v)
    s.setDie d { x with counts := Vector.ofFn (fun i : Fin 64 => cnt.getD i.val 0) }

/-- Bytes that go to or come from the DRAM under a line, for a sublease (R354). -/
def dramBytes (s : State) (line : Nat) (lease sub : Byte) (n : Nat) : State :=
  if isDram (line * 128) then s.countDie (BitVec.ofNat 2 (dieOfPa (line * 128))) lease sub 0x21 n else s

/-- Writes a way's dirty lines back, for the owner of the way-group. -/
def l2WriteBack (s : State) (d : BitVec 2) (x : L2Way) : State :=
  let (l, b) : Byte × Byte := ((s.die d).ownerOf (x.way / 4)).getD (0xFF, 0xFF)
  (List.range 4).foldl (fun s i =>
    if x.dirty.getLsbD i then (s.dramWrite (x.superblock * 4 + i)).dramBytes (x.superblock * 4 + i) l b 128 else s) s

/-- The way that holds a line: at most one (R33). -/
def l2Find (s : State) (d : BitVec 2) (line : Nat) : Option L2Way :=
  (s.die d).l2.find? (fun x => x.holds (line / 4) && x.valid.getLsbD (line % 4))

/-- Changes one way of a die; a way without a valid line holds nothing. -/
def l2Mod (s : State) (d : BitVec 2) (y : L2Way) (f : L2Way → L2Way) : State :=
  s.modDie d (fun x => { x with l2 := (updateWhere (fun z => z == y) f x.l2).filter (fun z => z.valid != 0) })

/-- A way of a group for a new superblock: the lowest unused one (R336), else a victim the spec does not choose
(log 11). Where a victim's write-back meets an error, that error comes first (R323), and there is no way now. -/
def l2Victim (s : State) (d : BitVec 2) (slice set group : Nat) : Except State (Nat × State) :=
  let x := s.die d
  let usable := (List.range 4).map (fun i => group * 4 + i) |>.filter (fun w => !x.quarantined.contains (slice, w))
  let taken := x.l2.filter (fun y => y.slice == slice && y.set == set)
  match usable.find? (fun w => !taken.any (fun y => y.way == w)) with
  | some w => .ok (w, s)
  | none =>
    match usable with
    | [] => .error s
    | w0 :: _ =>
      let (v, s) := s.free
      let w := usable.getD (v.toNat % usable.length) w0
      match taken.find? (fun y => y.way == w) with
      | none => .ok (w, s)
      | some y =>
        match y.bad.find? (fun b => y.dirty.getLsbD b.1) with
        | some b => .error (s.post .dirtyL2UeContainment (.way d (BitVec.ofNat 8 slice) (BitVec.ofNat 5 set)
            (BitVec.ofNat 4 w) (BitVec.ofNat 2 b.1)))
        | none =>
        let s := s.l2WriteBack d y
        .ok (w, s.modDie d (fun x => { x with
          l2 := x.l2.filter (fun z => !(z.slice == slice && z.set == set && z.way == w)) }))

/-- A line reaches the L2 for a party in a way-group, or in none (R34): a line present is hit in place, and a fill
allocates in the party's own group (R33). `whole` says that all 128 bytes are written. -/
def l2Touch (s : State) (d : BitVec 2) (group : Option Nat) (line : Nat) (write whole : Bool) : State :=
  let bit : BitVec 4 := 1 <<< (line % 4)
  let sb := line / 4
  match s.l2Find d line with
  | some y => if write then s.l2Mod d y (fun x => { x with dirty := x.dirty ||| bit }) else s
  | none =>
    let s := if write && whole then s.dramWrite line else s.dramRead line
    match group with
    | none => s
    | some g =>
      let e := (s.die d).errinj
      let s := if bitAt e 63 && bits e 62 60 == 0 && bits e 47 7 == line then s.post .errinjPerform (.die d) else s
      let dirty : BitVec 4 := if write then bit else 0
      match (s.die d).l2.find? (fun x => x.holds sb && x.way / 4 == g) with
      | some y => s.l2Mod d y (fun x => { x with valid := x.valid ||| bit, dirty := x.dirty ||| dirty })
      | none =>
        match s.l2Victim d (l2Slice sb) (l2Set sb) g with
        | .error s => s
        | .ok (w, s) =>
          let y : L2Way := { slice := l2Slice sb, set := l2Set sb, way := w, tag := l2Tag sb, valid := bit
                             dirty := dirty, bad := [] }
          s.modDie d (fun x => { x with l2 := y :: x.l2 })

/-- The way-group in which a party's fills allocate: the Reeve's is group 3, and code at level L has none (R34). -/
def groupFor (s : State) (w : Who) (line : Nat) : Option Nat :=
  match w.via with
  | .reeve => some 3
  | .handler => none
  | .core _ | .gather _ | .cluster _ | .unit => (s.die (l2Die w line)).groupOf w.lease w.sub

/-- An uncorrectable error of the L2 in a line, not yet detected (R322, R323): in a clean line the copy is
dropped and fetched again; a dirty line answers its way, whose containment comes first. -/
def l2Detect (s : State) (d : BitVec 2) (line : Nat) : State × Option L2Way :=
  match s.l2Find d line with
  | none => (s, none)
  | some x =>
    if !x.bad.any (fun b => b.1 == line % 4) then (s, none)
    else if x.dirty.getLsbD (line % 4) then (s, some x)
    else
      let bit : BitVec 4 := 1 <<< (line % 4)
      let s := s.l2Mod d x (fun y => { y with
        valid := y.valid &&& ~~~bit, bad := y.bad.filter (fun b => b.1 != line % 4) })
      ((s.addBox (header 5 0 0 0 0xFFFFF) (word (line * 128))).1, none)

/-- The containment of a destroyed line in a way is on its way (R323). -/
def postContain (s : State) (d : BitVec 2) (x : L2Way) (line : Nat) : State :=
  s.post .dirtyL2UeContainment (.way d (BitVec.ofNat 8 x.slice) (BitVec.ofNat 5 x.set) (BitVec.ofNat 4 x.way)
    (BitVec.ofNat 2 (line % 4)))

/-- A unit reaches a line of the L2: an error there that is detected in dirty data must first be contained (R323),
and the state then answered holds that work. -/
def detectLine (s : State) (w : Who) (line : Nat) : Except State State :=
  match s.l2Detect (l2Die w line) line with
  | (s2, some x) => .error (s2.postContain (l2Die w line) x line)
  | (s2, none) => .ok s2

/-- A dirty copy of an L1 or a stash is written back to the L2, whole. Where it meets a destroyed line, that is contained: the
copy of a line's owner is lost with its contexts, and another's is written afterwards, whole, so that no word of the line is
marked (R316, R323, R337, log 75). -/
def writeBack (s : State) (w : Who) (line : Nat) : State :=
  let d := l2Die w line
  match s.l2Detect d line with
  | (s, none) =>
    let g := s.groupFor w line
    let s := if g.isNone && (s.l2Find d line).isNone then s.dramBytes line w.lease w.sub 128 else s
    s.l2Touch d g line true true
  | (s, some x) =>
    let fix (y : L2Way) : L2Way := { y with bad := (line % 4, 0) :: y.bad.filter (fun b => b.1 != line % 4) }
    (if (s.die d).ownerOf (x.way / 4) == some (w.lease, w.sub) then s else s.l2Mod d x fix).postContain d x line

/-- A line that an engine, the Urn or a Gleaner owns, or for a write holds, as the weight paths of the Mills do (R46, R62, R67,
R235, R260). A write waits too while the page of a destroyed line is to be retired (R323). -/
def ownedLine (s : State) (line : Nat) (write : Bool) : Bool :=
  s.ops.any (fun o => o.issued && (o.owns.contains line || (write && o.holds.contains line))) ||
  s.colls.any (fun c => c.owns.contains line) ||
  s.gleans.any (fun g => g.owns.any (fun r => r.1 ≤ line && line < r.1 + r.2) ||
    (write && g.holds.any (fun r => r.1 ≤ line && line < r.1 + r.2))) ||
  (write && (s.mills.any (fun m => m.2.ops.any (fun o => o.2.lines.contains line)) ||
    s.reeve.retiring.any (fun r => r.line == line)))

/-- One event of a core's counters (R353): code `e`, of front end f, counted n times. -/
def count (s : State) (core : Nat) (f : Bool) (e n : Nat) : State :=
  let c := s.core core
  if c.evsel.toList.all (fun v => v.toNat % 256 != e) then s
  else
    let both := s.feActive core false && s.feActive core true
    let mine (i : Nat) : Bool := !both || (decide (8 ≤ i) == f)
    let cnt := (List.range 16).map (fun i =>
      let v := c.evcnt.toList.getD i 0
      if mine i && (c.evsel.toList.getD i 0).toNat % 256 == e then word ((v.toNat + n) % 2 ^ 48) else v)
    s.setCore core { c with evcnt := Vector.ofFn (fun i : Fin 16 => cnt.getD i.val 0) }

/-- Counts an event of a context, for its core and front end; a Miller has no counters. -/
def countCtx (s : State) (e n : Nat) : State :=
  if s.ctx.isMiller then s else s.count s.ctx.core s.ctx.fe e n

/-- A line that the L2 does not hold is a miss (R354): it is read from DRAM, but for a write of the whole line, and a write
that allocates nothing goes there. -/
def l2Count (s : State) (w : Who) (line : Nat) (write whole : Bool) : State :=
  let d := l2Die w line
  match s.l2Find d line with
  | some _ => s
  | none =>
    let out := write && (s.groupFor w line).isNone
    (s.countDie d w.lease w.sub 0x20 1).dramBytes line w.lease w.sub
      ((if write && whole then 0 else 128) + if out then 128 else 0)

/-! The L1s and the stashes. -/

end State

/-- Where an access is served: an L1, a line of a stash mapping (core, front end, offset of the mapping, line), the L2 by an
agent without an L1, or its home uncached (R21, R280). -/
inductive Path
  | l1 (core : Nat) (fe : Bool)
  | stash (core : Nat) (fe : Bool) (off idx : Nat) (e : Tlb)
  | l2
  | uncached
deriving DecidableEq, Repr

/-- Whether a miss allocates in the L1, and at which priority (R39). -/
inductive Keep | no | normal | high
deriving DecidableEq, Repr

def Path.isL1 (p : Path) (n : Nat) : Bool := match p with | .l1 m _ => m == n | _ => false
def Path.isStash (p : Path) (n : Nat) (f : Bool) (off idx : Nat) : Bool :=
  match p with
  | .stash m g o i _ => m == n && g == f && o == off && i == idx
  | _ => false

namespace State

/-- What a set of the L1 holds: ordinary lines, then gathered lines by their bases (R37). Which of the 128 sets an address
selects the spec leaves open: the model takes its device physical line modulo 128 (log 76). -/
def l1SetOf (c : Core) (set : Nat) : List L1Line := c.l1.filter (fun l => l.line % 128 == set)
def l1GatheredOf (c : Core) (set : Nat) : List Gathered := c.gathered.filter (fun g => g.base / 128 % 128 == set)

/-- Makes room in a set of the L1: lines of normal priority go before those of the highest one (R39), and which of them
goes the spec leaves open (log 11). -/
def l1Evict (s : State) (w : Who) (core set : Nat) : State :=
  let c := s.core core
  let ls := l1SetOf c set
  let gs := l1GatheredOf c set
  if ls.length + gs.length < 8 then s
  else
    let low := ls.filter (fun l => !l.high)
    let pick := if low.isEmpty then ls else low
    let others := if low.isEmpty then gs else []
    let (v, s) := s.free
    let i := v.toNat % (pick.length + others.length)
    match pick[i]? with
    | none =>
      match others[i - pick.length]? with
      | none => s
      | some g => s.setCore core { c with gathered := c.gathered.erase g }
    | some l =>
      let s := s.setCore core { c with l1 := c.l1.filter (fun p => p.line != l.line) }
      if l.dirty then s.writeBack w l.line else s

/-- Drops or cleans a core's L1 copy of a line, writing it back when dirty; a recall for a write drops the gathered lines
that draw on it too (R38). -/
def recallL1 (s : State) (w : Who) (n line : Nat) (write : Bool) : State :=
  let c := s.core n
  let near (g : Gathered) : Bool := g.lines.any (fun a => a / 128 == line || (a + g.size - 1) / 128 == line)
  let dirty := c.l1.any (fun q => q.line == line && q.dirty)
  let w := w.at n
  let c := { c with
    l1 := if write then c.l1.filter (fun r => r.line != line)
          else updateWhere (fun r => r.line == line) (fun r => { r with dirty := false }) c.l1
    gathered := if write then c.gathered.filter (fun g => !near g) else c.gathered }
  let s := s.setCore n c
  if dirty then s.writeBack w line else s

/-- The same for the copy in a stash mapping: a recall for a write returns the line to unfilled, one for a read leaves it
clean (R42, R43). -/
def recallStash (s : State) (w : Who) (n : Nat) (f : Bool) (p : Path) (line : Nat) (write : Bool) : State :=
  let hit (m : StashMap) (l : StashLine) : Bool := m.physLine l == line && !p.isStash n f m.off l.idx
  let maps := ((s.core n).fe f).maps
  if !maps.any (fun m => m.lines.any (hit m)) then s
  else
    let dirty := maps.any (fun m => m.lines.any (fun l => hit m l && l.dirty))
    let w := w.at n
    let fix (m : StashMap) : StashMap := { m with
      lines := if write then m.lines.filter (fun l => !hit m l)
               else updateWhere (hit m) (fun l => { l with dirty := false }) m.lines }
    let s := s.modCore n (fun c => c.modFe f (fun x => { x with maps := x.maps.map fix }))
    if dirty then s.writeBack w line else s

/-- Whether a core's copies of a line are kept coherent with an agent's accesses: a line of the fabric window is kept so by each
die among its own agents only (R280). -/
def coherent (w : Who) (line n : Nat) : Bool := !isFabric (line * 128) || decide (n / 64 = w.die.toNat)

/-- An agent reaches a line by a path: its directory recalls every other copy for a write and cleans the dirty ones for a
read (R32, R38, R42). -/
def recallLine (s : State) (w : Who) (p : Path) (line : Nat) (write : Bool) : State :=
  s.cores.foldl (fun s q =>
    if !coherent w line q.1 then s
    else
      let s := if p.isL1 q.1 then s else s.recallL1 w q.1 line write
      (s.recallStash w q.1 false p line write).recallStash w q.1 true p line write) s

/-- A store to bytes [pa, pa+n) drops the gathered lines that hold an element there, in every core (R38). -/
def dropGathered (s : State) (pa n : Nat) : State :=
  if s.cores.all (fun p => p.2.gathered.isEmpty) then s
  else
    let hit (g : Gathered) : Bool := g.lines.any (fun a => a < pa + n && pa < a + g.size)
    { s with cores := s.cores.map (fun p => (p.1, { p.2 with gathered := p.2.gathered.filter (fun g => !hit g) })) }

/-- A core reaches a line through its L1 (R37-R39). -/
def l1Touch (s : State) (w : Who) (core : Nat) (f : Bool) (line : Nat) (write whole : Bool) (keep : Keep) : State :=
  let c := s.core core
  if c.l1.any (fun p => p.line == line) then
    if write then
      s.setCore core { c with l1 := updateWhere (fun p => p.line == line) (fun p => { p with dirty := true }) c.l1 }
    else s
  else
    let s := (s.count core f 0x05 1).l2Count w line (write && keep == .no) whole
    let d := l2Die w line
    let g := s.groupFor w line
    if keep == .no then s.l2Touch d g line write whole
    else
      let s := s.l2Touch d g line false false
      let s := s.l1Evict w core (line % 128)
      let c := s.core core
      s.setCore core { c with l1 := { line := line, dirty := write, high := keep == .high } :: c.l1 }

/-- A core reaches a line of a stash mapping: the first touch fills it, and a write makes it dirty (R42, R43). -/
def stashTouch (s : State) (w : Who) (core : Nat) (f : Bool) (off idx : Nat) (e : Tlb) (line : Nat) (write : Bool) : State :=
  let filled := ((s.core core).fe f).maps.any (fun m => m.off == off && m.lines.any (fun l => l.idx == idx))
  let s := if filled then s else (s.l2Count w line false false).l2Touch (l2Die w line) (s.groupFor w line) line false false
  let put (ls : List StashLine) : List StashLine :=
    if ls.any (fun l => l.idx == idx) then
      updateWhere (fun l => l.idx == idx) (fun l => { l with entry := e, dirty := l.dirty || write }) ls
    else { idx := idx, entry := e, dirty := write } :: ls
  s.modCore core (fun c => c.modFe f (fun x => { x with
    maps := updateWhere (fun m => m.off == off) (fun m => { m with lines := put m.lines }) x.maps }))

/-- The dirty lines of a stash mapping are written back to their home (R43); the mapping's own lines are the caller's. -/
def stashFlush (s : State) (w : Who) (m : StashMap) : State :=
  (m.lines.filter StashLine.dirty).foldl (fun s l => s.writeBack w (m.physLine l)) s

/-- An uncached access reaches its home; in DRAM it meets the error that stands there (R322). -/
def uncached (s : State) (w : Who) (line : Nat) (write whole : Bool) : State :=
  if !isDram (line * 128) then s
  else
    let s := s.dramBytes line w.lease w.sub ((if write && whole then 0 else 128) + if write then 128 else 0)
    if whole && !s.cachedCopy line then s.dramWrite line else s.dramRead line

/-- The path of an access through the caches. -/
def touch (s : State) (w : Who) (p : Path) (line : Nat) (write whole : Bool) (keep : Keep) : State :=
  if !cacheable line then s
  else
    let s := s.recallLine w p line write
    match p with
    | .l1 n f => s.l1Touch w n f line write whole keep
    | .stash n f off idx e => s.stashTouch w n f off idx e line write
    | .l2 => (s.l2Count w line write whole).l2Touch (l2Die w line) (s.groupFor w line) line write whole
    | .uncached => s.uncached w line write whole

end State

end Sys2Proof.Machine
end

