-- ==== Sys2Proof/Machine/Walk.lean ====
section
/-! DEFINITION. Table walks of both stages through the L2 (R22-R24), the TLBs and walk caches (R27, R28), and checks 1-6
of R25 of one access. -/

namespace Sys2Proof.Machine

namespace State

/-- Whether any word under [pa, pa+n) is marked poisoned (R316). -/
def poisonedAt (s : State) (pa n : Nat) : Bool :=
  s.poison.any (fun a => a * 8 < pa + n && pa < a * 8 + 8)

/-- A walker reads a table entry coherently through the L2 (R23), for the access that caused the walk (R34): it waits for a
unit that owns the line (R290) and meets errors there (R322, R323). A marked entry is invalid (R317). -/
def readEntry (s : State) (w : Who) (pa : Nat) : ARes (Word × State) :=
  if s.ownedLine (pa / 128) false then .error (.wait s)
  else match s.detectLine w (pa / 128) with
    | .error s => .error (.wait s)
    | .ok s =>
      let s := s.touch w .l2 (pa / 128) false false .no
      .ok (if s.poisonedAt pa 8 then 0 else word (s.mem.num pa 8), s)

/-! The walk cache (R27). -/

/-- The address bits that select an entry at a level. -/
def walkKey (level addr : Nat) : Nat := if level = 1 then addr / 2 ^ 42 else addr / 2 ^ 29

/-- Where a walk starts: how many levels are left, and the table page; `fresh` passes the walk cache by (R28). -/
def walkFrom (s : State) (w : Who) (sub : Option Byte) (fresh : Bool) (addr root : Nat) : Nat × Nat :=
  let hit (level : Nat) : Option WalkEntry :=
    s.walks.find? (fun e => e.die == w.die && e.lease == w.lease && e.sub == sub && e.level == level && e.key == walkKey level addr)
  if fresh then (3, root)
  else match hit 2, hit 1 with
    | some e, _ => (1, e.table)
    | none, some e => (2, e.table)
    | none, none => (3, root)

/-- A table pointer enters the die's walk cache of 512 entries; which one makes room the spec leaves open (log 6). -/
def walkPut (s : State) (e : WalkEntry) : State :=
  let l := s.walks.filter (fun x => !(x.die == e.die && x.lease == e.lease && x.sub == e.sub && x.level == e.level && x.key == e.key))
  let mine := l.filter (fun x => x.die == e.die)
  if mine.length < 512 then { s with walks := e :: l }
  else
    let (v, s) := s.free
    let out := (mine[v.toNat % mine.length]?).toList
    { s with walks := e :: l.filter (fun x => !out.contains x) }

/-! Walks. -/

/-- Stage 2 (R22): the leaf of a lease address, from a table page on; `n` levels are left. -/
def walk2 (s : State) (w : Who) (ipa : Nat) : Nat → Nat → ARes (Option Leaf × State)
  | 0, _ => .ok (none, s)
  | n + 1, table => do
    let level := 3 - n
    let (e, s) ← s.readEntry w (table + 8 * entryIndex level ipa)
    match parseEntry true level e with
    | .bad => .ok (none, s)
    | .ptr t =>
      walk2 (s.walkPut { die := w.die, lease := w.lease, sub := none, level := level, key := walkKey level ipa, table := t }) w ipa n t
    | .leaf l => .ok (if leaf2Ok w.die l then some l else none, s)

/-- Stage 2 translation of a lease address for a sublease's die (R23). -/
def stage2 (s : State) (w : Who) (fresh : Bool) (ipa : Nat) : ARes (Option Leaf × State) :=
  match s.lease? w.lease with
  | none => .ok (none, s)
  | some l =>
    let (n, table) := s.walkFrom w none fresh ipa ((l.roots[w.die.toNat]'w.die.isLt).toNat)
    s.walk2 w ipa n table

/-- Stage 1 (R22, R23): each table read is itself translated (check 2 of R25). No leaf stands for an entry that is invalid
or malformed. -/
def walk1 (s : State) (w : Who) (fresh : Bool) (va : Nat) : Nat → Nat → ARes (Option Leaf × State)
  | 0, _ => .ok (none, s)
  | n + 1, table => do
    let level := 3 - n
    let ea := table + 8 * entryIndex level va
    let (l2, s) ← s.stage2 w fresh ea
    match l2.filter (fun l => l.r && l.cls == 0) with
    | none => .error (.fault s { cause := 0x0C, tval := word ea })
    | some l2 =>
      let (e, s) ← s.readEntry w (leafPa l2 ea)
      match parseEntry false level e with
      | .bad => .ok (none, s)
      | .ptr t =>
        walk1 (s.walkPut { die := w.die, lease := w.lease, sub := some w.sub, level := level, key := walkKey level va, table := t })
          w fresh va n t
      | .leaf l => .ok (some l, s)

/-- Checks 2-4 of R25 by a walk of both stages, and the combined entry (R24). -/
def walkBoth (s : State) (w : Who) (fresh : Bool) (k : Acc) (va : Word) : ARes (Tlb × State) :=
  let bad (s : State) : ARes (Tlb × State) := .error (.fault s { cause := k.cause, tval := va })
  if !canonical va then bad s
  else match s.sub? w.lease w.sub with
    | none => bad s
    | some b => do
      let v := (va &&& 0x7FFFFFFFFFFFFF).toNat
      let (n, table) := s.walkFrom w (some w.sub) fresh v b.root.toNat
      let (l1, s) ← s.walk1 w fresh v n table
      match l1.filter (fun l => k.allowed l.x l.w l.r) with
      | none => bad s
      | some l1 =>
        let ipa := leafPa l1 va.toNat
        let (l2, s) ← s.stage2 w fresh ipa
        match l2.filter (fun l => k.allowed l.x l.w l.r) with
        | none => .error (.fault s { cause := 0x0C, tval := word ipa })
        | some l2 => .ok (combine w va l1 l2, s)

/-! The TLBs (R27). -/

/-- Where the accesses of a party may be cached, the nearest first. -/
def tlbPlaces (w : Who) (va : Word) : List TlbAt :=
  match w.via with
  | .core n => [.main n, .cluster (n / 4)]
  | .gather n => [.gather n (bits va 19 16), .cluster (n / 4)]
  | .cluster n => [.cluster n]
  | .unit | .handler | .reeve => []

def tlbHit (w : Who) (va : Word) (p : TlbAt) (e : Tlb) : Bool :=
  e.place == p && e.lease == w.lease && e.sub == w.sub && e.die == w.die && e.va == va.toNat / 2 ^ e.size

/-- A cached translation of the address. -/
def tlbFind (s : State) (w : Who) (va : Word) : Option Tlb :=
  (tlbPlaces w va).findSome? (fun p => s.tlb.find? (tlbHit w va p))

/-- Entries that compete for room with one: a main TLB holds 128, a bank 16, and the cluster's TLB 8 in each of 512 sets,
which the model selects by the page number (log 6). -/
def tlbRivals (e : Tlb) (x : Tlb) : Bool :=
  x.place == e.place &&
  (match e.place with | .cluster _ => x.va % 512 == e.va % 512 | .main _ | .gather _ _ => true)

def tlbRoom (p : TlbAt) : Nat := match p with | .main _ => 128 | .gather _ _ => 16 | .cluster _ => 8

/-- A translation enters one structure, in place of an older one of its address; which entry makes room the spec leaves
open (log 6). -/
def tlbPut (s : State) (w : Who) (va : Word) (e : Tlb) (p : TlbAt) : State :=
  let e := { e with place := p }
  let l := s.tlb.filter (fun x => !tlbHit w va p x)
  let rivals := l.filter (tlbRivals e)
  if rivals.length < tlbRoom p then { s with tlb := e :: l }
  else
    let (v, s) := s.free
    let out := (rivals[v.toNat % rivals.length]?).toList
    { s with tlb := e :: l.filter (fun x => !out.contains x) }

def cacheTlb (s : State) (w : Who) (va : Word) (e : Tlb) : State :=
  (tlbPlaces w va).foldl (fun s p => s.tlbPut w va e p) s

/-- A cached entry that serves an access is in the nearest structure afterwards. -/
def refill (s : State) (w : Who) (va : Word) (e : Tlb) : State :=
  match tlbPlaces w va with
  | p :: _ => if e.place == p then s else s.tlbPut w va e p
  | [] => s

/-- A fault always walks the tables afresh (R28): the access by a walk that uses nothing cached. -/
def walkFresh (s : State) (w : Who) (k : Acc) (va : Word) (test : Tlb → Option Nat) : ARes (Tlb × State) := do
  let (e, s) ← s.walkBoth w true k va
  match test e with
  | some c => .error (.fault s { cause := c, tval := va })
  | none => .ok (e, s.cacheTlb w va e)

/-- Translation with checks 2-4 of R25 and the later checks that `test` makes of the combined entry: a cached entry that
passes is used, and nothing faults on what is cached (R28). -/
def translate (s : State) (w : Who) (k : Acc) (va : Word) (test : Tlb → Option Nat) : ARes (Tlb × State) :=
  match s.tlbFind w va with
  | some e => if e.allows k && (test e).isNone then .ok (e, s.refill w va e) else s.walkFresh w k va test
  | none =>
    match s.walkBoth w false k va with
    | .ok (e, s) => if (test e).isNone then .ok (e, s.cacheTlb w va e) else s.walkFresh w k va test
    | .error (.fault s _) => s.walkFresh w k va test
    | .error (.wait s) => .error (.wait s)

/-- Checks 1-6 of R25 for n aligned bytes at an address, for a context. -/
def checked (s : State) (w : Who) (c : Ctx) (a : Agent) (k : Acc) (sc : Scope) (align : Nat) (va : Word) (n : Nat) :
    ARes (Tlb × State) :=
  if va.toNat % align != 0 then .error (.fault s { cause := 0x04, tval := va })
  else s.translate w k va (classTest c a k sc va n)

end State

end Sys2Proof.Machine
end

