-- ==== Sys2Proof/Machine/Memory.lean ====
section
/-! DEFINITION. Accesses to memory: the stash (R41-R43), the range scoreboard and engine ownership (R44-R47), poison (R316,
R317), and loads, stores and atomics of n bytes as single steps (R167, R170); checks of ranges for commands (R251). -/

namespace Sys2Proof.Machine

/-- Bytes that an engine operation moves: pairs of virtual addresses and a length, destination first. -/
structure Chunk where
  dst : Word
  src : Word
  len : Nat
deriving DecidableEq, Repr

/-! Descriptors (R85). -/

def descEnc (d : List Word) : Nat := bits (d.getD 0 0) 63 60
def descRank (d : List Word) : Nat := bits (d.getD 0 0) 59 58
def descBase (d : List Word) : Nat := bits (d.getD 0 0) 54 0
/-- Base as a virtual address: the sign extension of bit 54 (R22, R85). -/
def descAddr (d : List Word) : Word := ((d.getD 0 0).extractLsb' 0 55).signExtend 64
def descOrder (d : List Word) (k : Nat) : Nat := bits (d.getD 3 0) (57 + 2 * k) (56 + 2 * k)
def descStride (d : List Word) (k : Nat) : Int := sextN 32 (bits (d.getD (4 + k) 0) 63 32)
def descExtent (d : List Word) (k : Nat) : Nat := bits (d.getD (4 + k) 0) 31 0

/-- Elements of a q4 or q3 group, from a block-size code (R75). -/
def blockElems (code : Nat) : Nat := 16 * 2 ^ code
/-- Bytes of a group of bs elements (R75): `q3` tells q3 from q4. -/
def groupBytes (q3 : Bool) (bs : Nat) : Nat := 2 + if q3 then 3 * bs / 8 else bs / 2

/-- Stored size of an `MFMT` code in bytes; a group's unit is 2 (R73-R76). -/
def encSize (code : Nat) : Nat :=
  if code = 1 || code = 8 then 2 else if code = 9 then 4 else if code = 10 then 8 else if code = 6 || code = 7 then 2 else 1

def descIsGroup (d : List Word) : Bool := descEnc d = 6 || descEnc d = 7
def descBs (d : List Word) : Nat := blockElems (bits (d.getD 3 0) 1 0)

/-- Product of the extents. -/
def descTotal (d : List Word) : Nat := (List.range (descRank d + 1)).foldl (fun p k => p * descExtent d k) 1

/-- Address of walked element i, or for q4 and q3 of the group that holds it (R253). -/
def descWalk (d : List Word) (i : Nat) : Word :=
  let step (st : Nat × Int) (m : Nat) : Nat × Int :=
    let k := descOrder d m
    let n := descExtent d k
    let w := st.1 % n
    let t : Int :=
      if m = 0 && descIsGroup d then (w / descBs d * groupBytes (descEnc d = 7) (descBs d) : Nat)
      else (w : Int) * descStride d k
    (st.1 / n, st.2 + t)
  descAddr d + wordI (((List.range (descRank d + 1)).foldl step (i, 0)).2)

/-- Bytes and elements of a descriptor's unit (R253). -/
def descUnit (d : List Word) : Nat × Nat :=
  if descIsGroup d then (groupBytes (descEnc d = 7) (descBs d), descBs d) else (encSize (descEnc d), 1)

/-- What an operation moves, in order (R253, R256, R235). -/
def EngKind.chunks : EngKind → List Chunk
  | .cpy d s n => [{ dst := d, src := s, len := n }]
  | .mcast d s n _ _ => [{ dst := d, src := s, len := n }]
  | .dsrc desc d i n =>
    let (z, u) := descUnit desc
    (List.range (n / u)).map (fun j => { dst := d + word (j * z), src := descWalk desc (i + j * u), len := z })
  | .ddst desc i s n =>
    let (z, u) := descUnit desc
    (List.range (n / u)).map (fun j => { dst := descWalk desc (i + j * u), src := s + word (j * z), len := z })

/-- Whether [a, a+n) and [b, b+m) share a byte, modulo 2^64. -/
def meets (a : Word) (n : Nat) (b : Word) (m : Nat) : Bool :=
  0 < n && 0 < m && ((b - a).toNat < n || (a - b).toNat < m)

/-- Whether an access to n bytes at va overlaps what an operation reads or writes (R47). -/
def EngineOp.overlaps (o : EngineOp) (va : Word) (n : Nat) (write : Bool) : Bool :=
  o.kind.chunks.any (fun c => meets c.dst c.len va n || (write && meets c.src c.len va n))

namespace State

/-- The mapping of the core's front ends that covers an address (R42): front end and mapping. -/
def stashAt (s : State) (core : Nat) (va : Word) : Option (Bool × StashMap) :=
  let c := s.core core
  let hit (m : StashMap) : Bool := (va - m.addr).toNat < m.len
  match c.fe0.maps.find? hit with
  | some m => some (false, m)
  | none => (c.fe1.maps.find? hit).map (fun m => (true, m))

/-- A recorded stash range of the scoreboard overlaps [lo, lo+n) (R44). -/
def boardHit (s : State) (core lo n : Nat) : Bool :=
  (s.core core).board.any (fun e => e.ranges.any (fun r => lo < r.1 + r.2 && r.1 < lo + n))

/-- An engine command of another sublease has ranges in the scoreboard of a core (R303). -/
def foreignBoard (s : State) (core : Nat) (l b : Byte) : Bool :=
  (s.core core).board.any (fun e =>
    match e.op with
    | .engine id => s.ops.any (fun o => o.id == id && (o.lease != l || o.sub != b))
    | .stream _ _ => false)

/-- Lines of device physical bytes [pa, pa+n). -/
def linesOf (pa n : Nat) : List Nat :=
  if n = 0 then [] else (List.range ((pa + n - 1) / 128 - pa / 128 + 1)).map (fun i => pa / 128 + i)

/-- A store clears the marks of the words it covers whole (R316). -/
def clearPoison (s : State) (pa n : Nat) : State :=
  if s.poison.isEmpty then s
  else { s with poison := s.poison.filter (fun a => !(pa ≤ a * 8 && a * 8 + 8 ≤ pa + n)) }

/-- Wakes the `waitev`s of other contexts that watch the line (R161). -/
def notifyLine (s : State) (writer : Option CtxId) (line : Nat) : State :=
  let watches (k : Ctx) : Bool :=
    k.phase == .asleep && some k.id != writer && k.wait.any (fun w => w.line == line && !w.hit)
  match s.ctxs.filter watches with
  | [] => s
  | ks =>
    let s := s.mapCtxs watches (fun k => { k with wait := k.wait.map (fun w => { w with hit := true }) })
    ks.foldl (fun s k => s.post .waitevWake (.ctx k.id)) s

/-- A write ends the reservations that it touches (R281). -/
def dropResv (s : State) (pa n : Nat) : State :=
  if s.ccs.isEmpty then s
  else
    let hit (r : Nat × Nat) : Bool := decide (r.1 < pa + n) && decide (pa < r.1 + r.2)
    { s with ccs := s.ccs.map (fun p => (p.1, { p.2 with resv := p.2.resv.filter (fun r => !hit r) })) }

/-- Bytes written at device physical addresses, with marks, gathered lines, reservations and watchers (R38, R161,
R281, R316). -/
def putBytes (s : State) (writer : Option CtxId) (pa : Nat) (bs : List Byte) : State :=
  let s := ({ s with mem := s.mem.setBytes pa bs } : State).dropResv pa bs.length
  let s := (s.clearPoison pa bs.length).dropGathered pa bs.length
  (linesOf pa bs.length).foldl (fun s l => s.notifyLine writer l) s

/-- Where an agent's accesses go: its core and front end, when it has a core (R42). -/
def coreOf (c : Ctx) : Option (Nat × Bool) := if c.isMiller then none else some (c.core, c.fe)

/-- The path of a context's accesses outside the stash. -/
def pathOf (c : Ctx) : Path := if c.isMiller then .l2 else .l1 c.core c.fe

/-- Where an access has arrived: device physical address and path. -/
structure Reached where
  pa : Nat
  path : Path
deriving DecidableEq, Repr

/-- Checks 5 and 6 for a line of a stash mapping: a page of device class never fills one (R175). -/
def stashTest (c : Ctx) (a : Agent) (k : Acc) (sc : Scope) (va : Word) (n : Nat) (e : Tlb) : Option Nat :=
  if e.cls == 2 then some 0x0D else classTest c a k sc va n e

/-- The translation of an access to a mapped line: the fill translates through the main TLB, a filled line keeps the one it was
filled under (R42), and nothing faults on it (R28). -/
def stashEntry (s : State) (m : StashMap) (idx : Nat) (a : Agent) (k : Acc) (sc : Scope) (va : Word) (n : Nat) : ARes (Tlb × State) :=
  let w := s.ctx.who
  let test := stashTest s.ctx a k sc va n
  match m.lines.find? (fun l => l.idx == idx) with
  | none => s.translate w k va test
  | some l => if l.entry.allows k && (test l.entry).isNone then .ok (l.entry, s) else s.walkFresh w k va test

/-- A command that the context has issued earlier and that has not begun comes before its access to a line of its ranges (R47): a
copy or a multicast, or a collective without a signal word; one with a signal word waits for what the context does later (R260). -/
def heldByOwn (s : State) (va : Word) (n pa : Nat) (write : Bool) : Bool :=
  let c := s.ctx
  s.ops.any (fun o => !o.issued && o.ctx == c.id && o.overlaps va n write) ||
  s.colls.any (fun o => o.state == .armed && o.ctx == c.id && o.block.getD 4 0 == 0 && o.lines.contains (pa / 128) &&
    c.handles.any (fun h => h.2 == o.id))

/-- One access of n aligned bytes by the current context, its lane thread or its stream unit, up to the caches: checks 1-6 of
R25, the owners (R46, R47), the stash (R42) and the scoreboard (R44), and errors of the L2 (R323). A scalar instruction's load of
a page of device class is held back behind vector instructions that may trap (R153). What a stream's transfer waits for beside
these is its own matter (R45). -/
def reach (s : State) (a : Agent) (k : Acc) (sc : Scope) (va : Word) (n : Nat) : ARes (Reached × State) := do
  let c := s.ctx
  let write := k == .store || k == .atomic
  let busy (pa : Nat) : Bool := (a != .stream && s.heldByOwn va n pa write) || s.ownedLine (pa / 128) write
  match if c.isMiller then none else s.stashAt c.core va with
  | some (f, m) =>
    let idx := (va - m.addr).toNat / 128
    if va.toNat % n != 0 then .error (.fault s { cause := 0x04, tval := va })
    else
      let (e, s1) ← s.stashEntry m idx a k sc va n
      let pa := e.phys va
      if busy pa || s.boardHit c.core (m.off + (va - m.addr).toNat) n then .error (.wait s1)
      else
        let mine := m.lines.any (fun l => l.idx == idx && (l.dirty || !write))
        match if mine then .ok s1 else s1.detectLine c.who (pa / 128) with
        | .error s2 => .error (.wait s2)
        | .ok s2 => .ok ({ pa := pa, path := .stash c.core f m.off idx e }, s2)
  | none =>
    let (e, s1) ← s.checked (c.whoFor a) c a k sc n va n
    let pa := e.phys va
    let heldBack := e.cls == 2 && a == .scalar && !c.vq.isEmpty
    if busy pa || heldBack then .error (.wait s1)
    else match s1.detectLine c.who (pa / 128) with
      | .error s2 => .error (.wait s2)
      | .ok s2 =>
        .ok ({ pa := pa, path := if e.cls == 2 || (k == .atomic && isFabric pa) then .uncached else pathOf c }, s2)

/-- An access and its path through the caches; `keep` says how a miss allocates in the L1 (R39). An atomic reads first. -/
def access (s : State) (a : Agent) (k : Acc) (sc : Scope) (va : Word) (n : Nat) (keep : Keep) : ARes (Reached × State) := do
  let (r, s1) ← s.reach a k sc va n
  .ok (r, s1.touch s.ctx.who r.path (r.pa / 128) (k == .store) false keep)

/-! The window of the die counters (R354, R355), at addresses that the model chooses (log 24). -/

/-- The die and the number of a counter or of a select at an address of the window. -/
def counterAt (pa : Nat) : Option (BitVec 2 × Nat) :=
  let o := pa % 2 ^ 14
  if isCounterWindow pa && o < 512 then some (BitVec.ofNat 2 (pa / 2 ^ 14), o / 8) else none
def selectAt (pa : Nat) : Option (BitVec 2 × Nat) :=
  let o := pa % 2 ^ 14
  if isCounterWindow pa && 8192 ≤ o && o < 8192 + 512 then some (BitVec.ofNat 2 (pa / 2 ^ 14), (o - 8192) / 8) else none

/-- A value of a select register that R353 and R354 admit. -/
def selectOk (v : Word) : Bool := bits v 63 32 == 0 && bits v 15 8 == 0 && (bits v 7 0 == 0 || (0x20 ≤ bits v 7 0 && bits v 7 0 ≤ 0x25))

def setSelect (s : State) (d : BitVec 2) (k : Nat) (v : Word) : State :=
  s.modDie d (fun x => { x with selects := Vector.ofFn (fun i : Fin 64 => if i.val = k then v else x.selects[i]) })

/-- What n bytes read as: memory, but for device space: a counter or select gives its value, and a request window gives a
value that nothing constrains (log 24). -/
def readAt (s : State) (a : Agent) (pa n : Nat) : Nat × State :=
  if a.isScalar && isDeviceRegion pa then
    let part (v : Word) : Nat := v.toNat / 256 ^ (pa % 8) % 256 ^ n
    match counterAt pa, selectAt pa with
    | some (d, k), _ => (part ((s.die d).counts.toList.getD k 0), s)
    | none, some (d, k) => (part ((s.die d).selects.toList.getD k 0), s)
    | none, none =>
      let (v, s) := s.free
      (v.toNat % 256 ^ n, s)
  else (s.mem.num pa n, s)

/-- A load of n bytes: none stands for a value with a poisoned word (R317). -/
def load (s : State) (a : Agent) (va : Word) (n : Nat) (keep : Keep) : ARes (Option Nat × State) := do
  let (r, s) ← s.access a .load .strand va n keep
  if s.poisonedAt r.pa n then .ok (none, s)
  else
    let (v, s) := s.readAt a r.pa n
    .ok (some v, s)

/-- Whose write it is for `waitev` (R161): lane threads and stream units are agents of their own (R268). -/
def writer (s : State) (a : Agent) : Option CtxId := if a == .lane || a == .stream then none else some s.ctx.id

/-- A select register with some of its bytes replaced. -/
def selectWith (s : State) (d : BitVec 2) (k pa n v : Nat) : Word :=
  let old := (s.die d).selects.toList.getD k 0
  let sh := 256 ^ (pa % 8)
  word (old.toNat % sh + v % 256 ^ n * sh + old.toNat / (sh * 256 ^ n) * (sh * 256 ^ n))

/-- Bytes written where an access has arrived; a select register takes a value as a whole, and one that R353 does not admit
raises cause 0x02, as a filter of 0xFFFF does, which W alone sets (R354). -/
def putAt (s : State) (a : Agent) (pa n v : Nat) : ARes State :=
  match if a.isScalar then selectAt pa else none with
  | some (d, k) =>
    let new := s.selectWith d k pa n v
    if selectOk new && bits new 31 16 != 0xFFFF then .ok (s.setSelect d k new)
    else .error (.fault s { cause := 0x02, tval := s.enc })
  | none => .ok (s.putBytes (s.writer a) pa (leBytes n v))

/-- A store of the low n bytes of v. -/
def store (s : State) (a : Agent) (va : Word) (n v : Nat) : ARes State := do
  let (r, s) ← s.access a .store .strand va n .normal
  s.putAt a r.pa n v

/-- An atomic on n bytes (R168-R170): `f` answers the new value, or none for a failed compare, which writes nothing and
reaches no other copy as a write (R169). A poisoned word reads as 0 and is written in full (R317). -/
def atomic (s : State) (a : Agent) (sc : Scope) (va : Word) (n : Nat) (f : Nat → Option Nat) :
    ARes (Nat × Bool × State) := do
  let w := s.ctx.who
  let (r, s) ← s.access a .atomic sc va n .normal
  let bad := s.poisonedAt r.pa n
  let (old, s) := if bad then (0, s) else s.readAt a r.pa n
  match f old with
  | none => .ok (old, bad, s)
  | some v =>
    let s ← (s.touch w r.path (r.pa / 128) true true .normal).putAt a r.pa n v
    .ok (old, bad, if bad then { s with poison := s.poison.filter (fun w => w != r.pa / 8) } else s)

end State

/-- An access of a scalar instruction: a failed check is a precise trap (R25, R251). -/
def scalarAcc {α : Type} : ARes α → Res α
  | .ok a => .ok a
  | .error (.fault s f) => raise s f.cause f.tval
  | .error (.wait s) => .error (.wait s)

namespace State

/-! Accesses by units that act for a sublease (R300, R370, R371, R372): checked by R25, never trapping. -/

/-- One aligned access of a Gleaner, or of a queue's writer: its device physical address. -/
def unitCheck (s : State) (w : Who) (k : Acc) (sc : Scope) (align : Nat) (va : Word) (n : Nat) : ARes (Nat × State) := do
  let (e, s) ← s.checked w s.ctx .gleaner k sc align va n
  .ok (e.phys va, s)

/-- A word on a page of ordinary class, with atomic support at a scope (R52, R300, R369, R372). -/
def ordinaryTest (sc : Option Scope) (e : Tlb) : Option Nat :=
  if e.cls != 0 then some 0x0D else if sc.any (fun c => !atomicOk .atomic c e) then some 0x0E else none

def ordinaryCheck (s : State) (w : Who) (k : Acc) (sc : Option Scope) (align : Nat) (va : Word) : ARes (Nat × State) :=
  if va.toNat % align != 0 then .error (.fault s { cause := 0x04, tval := va })
  else do
    let (e, s) ← s.translate w k va (ordinaryTest sc)
    .ok (e.phys va, s)

/-- First address of each page piece of [va, va+n): 64 KiB pieces, since no page is smaller. -/
def pieces (va : Word) : Nat → Nat → List (Word × Nat)
  | 0, _ => []
  | fuel + 1, n =>
    if n = 0 then []
    else
      let room := 65536 - va.toNat % 65536
      let k := min n room
      (va, k) :: pieces (va + word k) fuel (n - k)

def piecesOf (va : Word) (n : Nat) : List (Word × Nat) := pieces va (n / 65536 + 2) n

/-- Checks a whole range by R25 for a command (R251): the device physical pieces, or the first failing
address. The pin-window test of R72 is of the whole range. -/
def rangeCheckBy (s : State) (w : Who) (c : Ctx) (a : Agent) (k : Acc) (va : Word) (n : Nat) :
    ARes (List (Nat × Nat) × State) :=
  let test (p : Word × Nat) (e : Tlb) : Option Nat :=
    if if e.cls == 1 then a == .gleaner || c.pinned va n else classAdmits c a k e.cls p.1 p.2 then none else some 0x0D
  foldE (fun (st : List (Nat × Nat) × State) (p : Word × Nat) => do
    let (e, s) ← st.2.translate w k p.1 (test p)
    .ok (st.1 ++ [(e.phys p.1, p.2)], s)) ([], s) (piecesOf va n)

/-- The same for the executing context. -/
def rangeCheck (s : State) (a : Agent) (k : Acc) (va : Word) (n : Nat) : ARes (List (Nat × Nat) × State) :=
  s.rangeCheckBy s.ctx.who s.ctx a k va n

/-- Bytes of device physical pieces, in order. -/
def readPieces (s : State) (ps : List (Nat × Nat)) : List Byte := ps.flatMap (fun p => s.mem.bytes p.1 p.2)

def readWords (s : State) (ps : List (Nat × Nat)) : List Word :=
  let bs := s.readPieces ps
  (List.range (bs.length / 8)).map (fun i => word (leNat ((bs.drop (8 * i)).take 8)))

/-- Writes bytes over device physical pieces, in order. -/
def writePieces (s : State) (writer : Option CtxId) : List (Nat × Nat) → List Byte → State
  | [], _ => s
  | p :: ps, bs => writePieces (s.putBytes writer p.1 (bs.take p.2)) writer ps (bs.drop p.2)

end State

end Sys2Proof.Machine
end

