-- ==== Sys2Proof/Machine/Field.lean ====
section
/-! DEFINITION. The Field and its plots (R87-R95): plot-table entries, positions and boxes, element reads and
writes, ownership of rows, and the scalar registers of a lane thread (R128, R228). -/

namespace Sys2Proof.Machine

/-! Fields of a plot-table entry (R89). -/

def plotValid (p : Word) : Bool := bitAt p 63
def plotSlot (p : Word) : Nat := bits p 62 59
def plotW (p : Word) : Nat := bits p 56 47
def plotH (p : Word) : Nat := bits p 46 38
def plotCol (p : Word) : Nat := bits p 37 29
def plotRow (p : Word) : Nat := bits p 28 21
def plotEwCode (p : Word) : Nat := bits p 20 19
/-- Cells of an element: 1, 2 or 4. -/
def plotEw (p : Word) : Nat := 2 ^ plotEwCode p
def plotShape (p : Word) : Nat := bits p 18 16

/-- Element count (R90); 0 for an undefined plot. -/
def plotCount (p : Word) : Nat :=
  if !plotValid p then 0
  else match plotShape p with
    | 0 => plotW p * plotH p
    | 1 => plotW p
    | _ => plotH p

/-- Row and lowest cell column of element e (R90). -/
def plotPos (p : Word) (e : Nat) : Nat × Nat :=
  match plotShape p with
  | 0 => (plotRow p + e / plotW p, plotCol p + e % plotW p * plotEw p)
  | 1 => (plotRow p, plotCol p + e * plotEw p)
  | 2 => (plotRow p + e, plotCol p)
  | 3 => (plotRow p + e, plotCol p + e * plotEw p)
  | _ => (plotRow p + e, plotCol p - e * plotEw p)

/-- A bounding box: first and last row, first and last cell column (R90). -/
structure Box where
  r0 : Nat
  r1 : Nat
  c0 : Nat
  c1 : Nat
deriving DecidableEq, Repr

def plotBox (p : Word) : Box :=
  let h := plotH p
  let w := plotW p
  let ew := plotEw p
  match plotShape p with
  | 0 => { r0 := plotRow p, r1 := plotRow p + h - 1, c0 := plotCol p, c1 := plotCol p + w * ew - 1 }
  | 1 => { r0 := plotRow p, r1 := plotRow p, c0 := plotCol p, c1 := plotCol p + w * ew - 1 }
  | 2 => { r0 := plotRow p, r1 := plotRow p + h - 1, c0 := plotCol p, c1 := plotCol p + ew - 1 }
  | 3 => { r0 := plotRow p, r1 := plotRow p + h - 1, c0 := plotCol p, c1 := plotCol p + h * ew - 1 }
  | _ => { r0 := plotRow p, r1 := plotRow p + h - 1, c0 := plotCol p - (h - 1) * ew, c1 := plotCol p + ew - 1 }

def Box.meets (a b : Box) : Bool :=
  decide (a.r0 ≤ b.r1) && decide (b.r0 ≤ a.r1) && decide (a.c0 ≤ b.c1) && decide (b.c0 ≤ a.c1)

/-- The first row a front end owns and the row after its last (R88). -/
def State.rows (s : State) (core : Nat) (f : Bool) : Nat × Nat :=
  if (s.core core).split then (if f then (128, 256) else (0, 128)) else (0, 256)

def Box.inRows (b : Box) (rows : Nat × Nat) : Bool := decide (rows.1 ≤ b.r0) && decide (b.r1 < rows.2)

/-- Whether `plotset` admits an entry with Valid 1 under the rows owned (R89-R91). -/
def plotLegal (p : Word) (rows : Nat × Nat) : Bool :=
  let w := plotW p
  let h := plotH p
  let shapeOk :=
    match plotShape p with
    | 0 => true
    | 1 => h == 1
    | 2 | 3 | 4 => w == 1
    | _ => false
  decide (plotSlot p ≤ 8) && bits p 58 57 == 0 && bits p 15 0 == 0 &&
  decide (1 ≤ w) && decide (w ≤ 512) && decide (1 ≤ h) && decide (h ≤ 256) &&
  decide (plotEwCode p ≤ 2) && shapeOk && decide (plotCol p % plotEw p = 0) && decide (plotCount p ≤ 4096) &&
  (plotShape p != 4 || decide ((h - 1) * plotEw p ≤ plotCol p)) &&
  decide ((plotBox p).c1 ≤ 511) && (plotBox p).inRows rows

/-! Cells and elements. -/

def cellIndex (r c : Nat) : Nat := r * 512 + c

/-- The cells of element e, lowest first (R87). -/
def plotCells (p : Word) (e : Nat) : List Nat :=
  let (r, c) := plotPos p e
  (List.range (plotEw p)).map (fun i => cellIndex r (c + i))

def cellsNum (f : List (Nat × Cell16)) : List Nat → Nat
  | [] => 0
  | c :: cs => (sget 0 f c).toNat + 65536 * cellsNum f cs

def setCells (f : List (Nat × Cell16)) : List Nat → Nat → List (Nat × Cell16)
  | [], _ => f
  | c :: cs, v => setCells (sset 0 f c (BitVec.ofNat 16 (v % 65536))) cs (v / 65536)

/-- Element e of an entry, as a number of 16, 32 or 64 bits. -/
def Core.elem (c : Core) (p : Word) (e : Nat) : Nat := cellsNum c.field (plotCells p e)

/-- Whether element e has a cell with an uncorrectable error (R321). -/
def Core.elemBad (c : Core) (p : Word) (e : Nat) : Bool :=
  !c.fieldErr.isEmpty && (plotCells p e).any (fun i => c.fieldErr.contains i)

def Core.setElem (c : Core) (p : Word) (e v : Nat) : Core :=
  let cs := plotCells p e
  { c with field := setCells c.field cs v
           fieldErr := if c.fieldErr.isEmpty then [] else c.fieldErr.filter (fun i => !cs.contains i) }

namespace State

def plotOf (s : State) (v : VReg) : Word := s.ctx.plot v

/-- Element e of plot v of the current context. -/
def elem (s : State) (v : VReg) (e : Nat) : Nat := s.myCore.elem (s.plotOf v) e

/-- Writes element e of plot v and sets its dirty bit (R104). -/
def setElem (s : State) (v : VReg) (e x : Nat) : State :=
  let p := s.plotOf v
  let s := s.modCore s.ctx.core (fun c => c.setElem p e x)
  { s with ctx := { s.ctx with pdirty := s.ctx.pdirty ||| (1 <<< v.toNat) } }

/-- `TCELL` for element e of an entry (R102). -/
def cellWord (p : Word) (e : Nat) : Nat := (plotPos p e).1 * 65536 + (plotPos p e).2

/-! Scalar registers as the executing agent sees them (R128, R138, R228). -/

/-- A lane thread's field that names `t0`-`t15` within its plots. -/
def laneReg (s : State) (r : XReg) : Option VReg :=
  match s.ctx.detach with
  | none => none
  | some d => if 16 ≤ r.toNat && r.toNat < 16 + d.nt then some (d.va + BitVec.ofNat 6 (r.toNat - 16)) else none

/-- Whether a field names a register of the agent (R229). -/
def regOk (s : State) (r : XReg) : Bool := s.lane.isNone || r == 0 || (s.laneReg r).isSome

def getX (s : State) (r : XReg) : Word :=
  match s.lane with
  | none => s.ctx.getX r
  | some e =>
    match s.laneReg r with
    | none => 0
    | some v =>
      if s.myCore.elemBad (s.plotOf v) e then 0 else wordI (sextN (16 * plotEw (s.plotOf v)) (s.elem v e))

/-- A register of a lane thread has a cell with an uncorrectable error: it reads as 0 (R321). -/
def laneBad (s : State) (r : XReg) : Bool :=
  s.lane.any (fun e => (s.laneReg r).any (fun v => s.myCore.elemBad (s.plotOf v) e))

def setX (s : State) (r : XReg) (x : Word) : State :=
  match s.lane with
  | none => { s with ctx := s.ctx.setX r x }
  | some e =>
    match s.laneReg r with
    | none => s
    | some v => s.setElem v e x.toNat

/-- Sets the pc of the executing agent. -/
def setPc (s : State) (a : Word) : State :=
  match s.lane with
  | none => { s with ctx := { s.ctx with pc := a } }
  | some e =>
    let upd (d : Detach) : Detach :=
      { d with threads := updateWhere (fun t => t.elem == e) (fun t => { t with pc := a }) d.threads }
    { s with ctx := { s.ctx with detach := s.ctx.detach.map upd } }

/-- On to the next instruction. -/
def advance (s : State) (n : Word) : State := s.setPc (s.pc + n)

end State

/-! The synchronising reads (R187). -/

/-- The register to which an instruction sends a value through the synchronising read queue. -/
def syncDest (i : Instr) : Option XReg :=
  match i with
  | .plotget _ d _ | .mpopc _ _ d _ | .mfirst _ d _ | .vred _ _ _ d _ | .vfred _ _ _ d _ | .vextract _ _ d _ _
  | .fread _ _ _ _ d => some d
  | .setvlW _ _ _ d _ _ => some d
  | _ => none

/-- A vector instruction that accesses memory by itself. -/
def accessesMemory (i : Instr) : Bool :=
  match i with
  | .vld _ _ _ _ _ _ _ | .vldStrided _ _ _ _ _ _ _ | .vldx _ _ _ _ _ _ _ _ | .vldt _ _ _ _ _ _ _
  | .vst _ _ _ _ _ _ _ | .vstStrided _ _ _ _ _ _ _ | .vstx _ _ _ _ _ _ _ _ | .vamo _ _ _ _ _ _ _ _ _ _ _
  | .setvlW _ _ _ _ _ _ | .wmpub _ _ _ | .fsave _ _ _ | .fload _ _ _ => true
  | _ => false

/-- The vector queue holds accesses to memory, which come before those of younger scalar instructions (R271, R272, log 9). -/
def Ctx.memoryQueued (c : Ctx) : Bool := c.vq.any (fun en => accessesMemory en.instr)

/-- Registers that instructions of the vector queue are to write. -/
def Ctx.sendsTo (c : Ctx) : List XReg := (c.vq.filterMap (fun en => syncDest en.instr)).filter (fun r => r != 0)

/-- A value arrives in an `x` register: also in what the younger instructions of the queue leave when they trap. -/
def State.sendX (s : State) (d : XReg) (v : Word) : State :=
  if d = 0 then s
  else { s with ctx := { s.ctx.setX d v with vq := s.ctx.vq.map (fun en => { en with regs := en.regs.set d.toNat v d.isLt }) } }

/-- The agents of R138. -/
inductive Legal | any | frontMiller | front | miller | lane
deriving DecidableEq, Repr

/-- Whether the executing agent may run an instruction (R138). -/
def Legal.admits (l : Legal) (s : State) : Bool :=
  match l with
  | .any => true
  | .frontMiller => s.lane.isNone
  | .front => s.lane.isNone && !s.ctx.isMiller
  | .miller => s.lane.isNone && s.ctx.isMiller
  | .lane => s.lane.isSome

/-- Legality and register fields, both cause 0x01 (R127, R138, R229); a register that a vector instruction of the queue is
to write is awaited (R187). -/
def legal (l : Legal) (rs : List XReg) (s : State) : Res Unit := do
  check (l.admits s && rs.all s.regOk) s 0x01 s.enc
  if s.lane.isNone && rs.any (fun r => s.ctx.sendsTo.contains r) then waits s else .ok ()

/-- A scalar load keeps its place behind the older vector accesses (R269, R271, R272, R284). -/
def inOrder (s : State) : Res Unit := if s.lane.isNone && s.ctx.memoryQueued then waits s else .ok ()

/-- Instructions held back until older vector instructions are past their last trap point (R153), and those that
wait for the vector queue (R151, R158, R163-R165): the queue holds what has not been dispatched. -/
def drained (s : State) : Res Unit := if s.lane.isSome || s.ctx.vq.isEmpty then .ok () else waits s

end Sys2Proof.Machine
end

