-- ==== Sys2Proof/Machine/Arith.lean ====
section
/-! DEFINITION. Integer arithmetic of majors 0x01-0x07 (R143-R145), for front ends, Millers and lane threads. -/

namespace Sys2Proof.Machine

/-! Results. -/

def clz64 (a : Word) : Word := word (64 - bitLen a.toNat)
def ctz64 (a : Word) : Word := word ((findBelow 64 (fun k => bitAt a k)).getD 64)
def popc64 (a : Word) : Word := word ((List.range 64).countP (fun k => bitAt a k))
def mulh64 (a b : Word) : Word := wordI (a.toInt * b.toInt / 2 ^ 64)
def mulhu64 (a b : Word) : Word := word (a.toNat * b.toNat / 2 ^ 64)
/-- R144. -/
def div64 (a b : Word) : Word := if b = 0 then -1 else wordI (a.toInt.tdiv b.toInt)
def divu64 (a b : Word) : Word := if b = 0 then -1 else word (a.toNat / b.toNat)
def rem64 (a b : Word) : Word := if b = 0 then a else wordI (a.toInt.tmod b.toInt)
def remu64 (a b : Word) : Word := if b = 0 then a else word (a.toNat % b.toNat)
/-- A shift uses bits 5:0 of the amount (R143). -/
def shamt (b : Word) : Nat := b.toNat % 64

/-- xd := f xa xb, then the next instruction. -/
def alu2 (f : Word → Word → Word) (d a b : XReg) (s : State) : Res State := do
  legal .any [d, a, b] s
  .ok ((s.setX d (f (s.getX a) (s.getX b))).advance 4)

/-- xd := f xa, then the next instruction. -/
def alu1 (f : Word → Word) (d a : XReg) (s : State) : Res State := do
  legal .any [d, a] s
  .ok ((s.setX d (f (s.getX a))).advance 4)

def execAdd (d a b : XReg) (s : State) := settle (alu2 (· + ·) d a b s)
def execSub (d a b : XReg) (s : State) := settle (alu2 (· - ·) d a b s)
def execAnd (d a b : XReg) (s : State) := settle (alu2 (· &&& ·) d a b s)
def execOr (d a b : XReg) (s : State) := settle (alu2 (· ||| ·) d a b s)
def execXor (d a b : XReg) (s : State) := settle (alu2 (· ^^^ ·) d a b s)
def execSll (d a b : XReg) (s : State) := settle (alu2 (fun x y => x <<< shamt y) d a b s)
def execSrl (d a b : XReg) (s : State) := settle (alu2 (fun x y => x >>> shamt y) d a b s)
def execSra (d a b : XReg) (s : State) := settle (alu2 (fun x y => x.sshiftRight (shamt y)) d a b s)
def execSlt (d a b : XReg) (s : State) := settle (alu2 (fun x y => boolWord (x.slt y)) d a b s)
def execSltu (d a b : XReg) (s : State) := settle (alu2 (fun x y => boolWord (x.ult y)) d a b s)
def execMin (d a b : XReg) (s : State) := settle (alu2 (fun x y => if x.slt y then x else y) d a b s)
def execMax (d a b : XReg) (s : State) := settle (alu2 (fun x y => if x.slt y then y else x) d a b s)
def execMinu (d a b : XReg) (s : State) := settle (alu2 (fun x y => if x.ult y then x else y) d a b s)
def execMaxu (d a b : XReg) (s : State) := settle (alu2 (fun x y => if x.ult y then y else x) d a b s)
def execClz (d a : XReg) (s : State) := settle (alu1 clz64 d a s)
def execCtz (d a : XReg) (s : State) := settle (alu1 ctz64 d a s)
def execPopc (d a : XReg) (s : State) := settle (alu1 popc64 d a s)
def execMul (d a b : XReg) (s : State) := settle (alu2 (· * ·) d a b s)
def execMulh (d a b : XReg) (s : State) := settle (alu2 mulh64 d a b s)
def execMulhu (d a b : XReg) (s : State) := settle (alu2 mulhu64 d a b s)
def execDiv (d a b : XReg) (s : State) := settle (alu2 div64 d a b s)
def execDivu (d a b : XReg) (s : State) := settle (alu2 divu64 d a b s)
def execRem (d a b : XReg) (s : State) := settle (alu2 rem64 d a b s)
def execRemu (d a b : XReg) (s : State) := settle (alu2 remu64 d a b s)

/-! Immediates (R145): imm16 is sign-extended but for the logical forms (R130). -/

def execAddi (d a : XReg) (i : BitVec 16) (s : State) := settle (alu1 (fun x => x + sext i) d a s)
def execAndi (d a : XReg) (i : BitVec 16) (s : State) := settle (alu1 (fun x => x &&& i.zeroExtend 64) d a s)
def execOri (d a : XReg) (i : BitVec 16) (s : State) := settle (alu1 (fun x => x ||| i.zeroExtend 64) d a s)
def execXori (d a : XReg) (i : BitVec 16) (s : State) := settle (alu1 (fun x => x ^^^ i.zeroExtend 64) d a s)
def execSlli (d a : XReg) (h : BitVec 6) (s : State) := settle (alu1 (fun x => x <<< h.toNat) d a s)
def execSrli (d a : XReg) (h : BitVec 6) (s : State) := settle (alu1 (fun x => x >>> h.toNat) d a s)
def execSrai (d a : XReg) (h : BitVec 6) (s : State) := settle (alu1 (fun x => x.sshiftRight h.toNat) d a s)
def execLui (d : XReg) (i : BitVec 16) (s : State) := settle (alu1 (fun _ => sext i <<< 16) d 0 s)

end Sys2Proof.Machine
end

