-- ==== Sys2Proof/Machine/Order.lean ====
section
/-! DEFINITION. Acquire and release (R272, R280, R282). Accesses are performed at their steps, in program order
(log 9); what is left of ordering is that a release waits for the issue points of the context's own engine
commands, and what `.system` does to lines of the fabric window. -/

namespace Sys2Proof.Machine

/-- Stream element j's address (R48). -/
def Stream.addr (t : Stream) (j : Nat) : Word :=
  let n (k : Nat) : Nat := t.counts.getD k 1
  let d (k : Nat) : Int := t.strides.getD k 0
  t.base + wordI (((j % n 0 : Nat) : Int) * d 0 + ((j / n 0 % n 1 : Nat) : Int) * d 1
    + ((j / (n 0 * n 1) : Nat) : Int) * d 2)

/-- Whether an operation's destination lies in the fabric window. -/
def EngineOp.toFabric (o : EngineOp) : Bool := o.owns.any (fun l => isFabric (l * 128))

namespace State

/-- A context's output streams have stored what its vector instructions have passed to them (R49, R282). -/
def streamsOut (s : State) (k : Ctx) : Bool :=
  k.isMiller || ((s.core k.core).fe k.fe).streams.all (fun q => q.2.ctx != k.id || !q.2.output || q.2.ahead.isEmpty)

/-- The collectives that the context has armed without a signal word have started (R260, R282): one with a signal word may
wait for what the context does later. -/
def ownStarted (s : State) : Bool :=
  s.colls.all (fun c => c.ctx != s.ctx.id || c.state != .armed || c.block.getD 4 0 != 0 || !s.ctx.handles.any (fun h => h.2 == c.id))

/-- A collective of the context that has started writes to the fabric window. -/
def ownCollOut (s : State) : Bool :=
  s.colls.any (fun c => c.ctx == s.ctx.id && c.state == .started && c.lines.any (fun l => isFabric (l * 128)) &&
    s.ctx.handles.any (fun h => h.2 == c.id))

/-- The engine commands of the context are past their issue points, and at `.system` those to the fabric window
have retired (R282). -/
def ownIssued (s : State) (sc : Scope) : Bool :=
  s.ops.all (fun o => o.ctx != s.ctx.id || (o.issued && !(sc == .system && o.toFabric))) && s.streamsOut s.ctx && s.ownStarted &&
  !(sc == .system && s.ownCollOut)

/-! Lines of the fabric window in a die's L2 and in the L1s and stashes of its cores (R280). -/

def fabricLine (line : Nat) : Bool := isFabric (line * 128)
def fabricWay (x : L2Way) : Bool := fabricLine (x.superblock * 4)

/-- Changes the cores of a die. -/
def modCores (s : State) (d : BitVec 2) (f : Core → Core) : State :=
  { s with cores := s.cores.map (fun q => if q.1 / 64 = d.toNat then (q.1, f q.2) else q) }

/-- Changes the stash mappings of a core. -/
def modMaps (c : Core) (f : StashMap → StashMap) : Core :=
  { c with fe0 := { c.fe0 with maps := c.fe0.maps.map f }, fe1 := { c.fe1 with maps := c.fe1.maps.map f } }

/-- Dirty fabric-window bytes are written back. -/
def fabricClean (s : State) (d : BitVec 2) : State :=
  let mapped (m : StashMap) : StashMap :=
    { m with lines := updateWhere (fun l => fabricLine (m.physLine l)) (fun l => { l with dirty := false }) m.lines }
  let core (c : Core) : Core :=
    modMaps { c with l1 := updateWhere (fun l => fabricLine l.line) (fun l => { l with dirty := false }) c.l1 } mapped
  (s.modCores d core).modDie d (fun x => { x with l2 := updateWhere fabricWay (fun y => { y with dirty := 0 }) x.l2 })

/-- Clean fabric-window lines are dropped, with the gathered lines that draw on them. -/
def fabricDrop (s : State) (d : BitVec 2) : State :=
  let mapped (m : StashMap) : StashMap := { m with lines := m.lines.filter (fun l => l.dirty || !fabricLine (m.physLine l)) }
  let core (c : Core) : Core :=
    modMaps { c with
      l1 := c.l1.filter (fun l => l.dirty || !fabricLine l.line)
      gathered := c.gathered.filter (fun g => !g.lines.any (fun a => fabricLine (a / 128))) } mapped
  (s.modCores d core).modDie d (fun x => { x with
    l2 := (updateWhere fabricWay (fun y => { y with valid := y.valid &&& y.dirty }) x.l2).filter (fun y => y.valid != 0) })

/-- What an acquire at a scope does. -/
def acquire (s : State) (sc : Option Scope) : State := if sc == some .system then s.fabricDrop s.ctx.die else s

end State

/-- What a release at a scope waits for and does; that of a lane thread orders only its own accesses (R228). -/
def release (sc : Option Scope) (s : State) : Res State :=
  match sc with
  | none => .ok s
  | some sc =>
    if s.lane.isNone && !s.ownIssued sc then waits s
    else .ok (if sc == .system then s.fabricClean s.ctx.die else s)

/-- The acquire and the release that an atomic's order names (R132). -/
def acqScope (r : AOrd) (sc : Scope) : Option Scope :=
  match r with
  | .acq | .ar => some sc
  | .plain | .rel => none

def relScope (r : AOrd) (sc : Scope) : Option Scope :=
  match r with
  | .rel | .ar => some sc
  | .plain | .acq => none

end Sys2Proof.Machine
end

