-- ==== Sys2Proof/Machine/LoadStore.lean ====
section
/-! DEFINITION. Scalar loads and stores (R166, R167), atomics and compare-and-swap (R168-R170). Each access is
performed at its step, in program order, which is one of the orders that R268-R286 admit (log 9); the class adds
no effect. -/

namespace Sys2Proof.Machine

/-- Poison met by a scalar access: `CKI`.Scalar, or `CKI`.Vector for a lane thread (R317). -/
def State.consume (s : State) (bad : Bool) : State :=
  if bad then ({ s with ctx := if s.lane.isSome then s.ctx.addCki 0 else s.ctx.scalarMark } : State).countCtx 0x0B 1 else s

def State.agent (s : State) : Agent := if s.lane.isSome then .lane else .scalar

/-- How a load widens its value (R166). -/
inductive Ext | signed | zero
deriving DecidableEq, Repr

def extend (x : Ext) (n v : Nat) : Word :=
  match x with
  | .signed => wordI (sextN (8 * n) v)
  | .zero => word v

/-- Address of format M: base plus offset in units of n bytes (R130, R166). -/
def mAddr {k : Nat} (base : Word) (n : Nat) (o : BitVec k) : Word := base + sext o * word n

/-- A scalar load of n bytes at an address into xd. -/
def loadX (x : Ext) (n : Nat) (d : XReg) (va : Word) (s : State) : Res State := do
  let (v, s') ← scalarAcc (s.load s.agent va n .normal)
  .ok (((s'.consume v.isNone).setX d (extend x n (v.getD 0))).advance 4)

/-- `ld` (R166), with the scope of an acquire. -/
def ldOp {k : Nat} (x : Ext) (n : Nat) (q : Option Scope) (d a : XReg) (o : BitVec k) (s : State) : Res State := do
  legal .any [d, a] s
  inOrder s
  let s' ← loadX x n d (mAddr (s.getX a) n o) s
  .ok (s'.acquire q)

/-- `st` (R166), held back by R153, with the scope of a release. -/
def stOp {k : Nat} (n : Nat) (q : Option Scope) (d a : XReg) (o : BitVec k) (s : State) : Res State := do
  legal .any [d, a] s
  drained s
  let s ← release q s
  let s' ← scalarAcc (s.store s.agent (mAddr (s.getX a) n o) n (s.getX d).toNat)
  .ok (s'.advance 4)

def execLdB (d a : XReg) (_c : BitVec 4) (o : BitVec 10) (s : State) := settle (ldOp .signed 1 none d a o s)
def execLdBAcq (d a : XReg) (_c : BitVec 4) (q : Scope) (o : BitVec 7) (s : State) := settle (ldOp .signed 1 (some q) d a o s)
def execLdH (d a : XReg) (_c : BitVec 4) (o : BitVec 10) (s : State) := settle (ldOp .signed 2 none d a o s)
def execLdHAcq (d a : XReg) (_c : BitVec 4) (q : Scope) (o : BitVec 7) (s : State) := settle (ldOp .signed 2 (some q) d a o s)
def execLdW (d a : XReg) (_c : BitVec 4) (o : BitVec 10) (s : State) := settle (ldOp .signed 4 none d a o s)
def execLdWAcq (d a : XReg) (_c : BitVec 4) (q : Scope) (o : BitVec 7) (s : State) := settle (ldOp .signed 4 (some q) d a o s)
def execLdD (d a : XReg) (_c : BitVec 4) (o : BitVec 10) (s : State) := settle (ldOp .zero 8 none d a o s)
def execLdDAcq (d a : XReg) (_c : BitVec 4) (q : Scope) (o : BitVec 7) (s : State) := settle (ldOp .zero 8 (some q) d a o s)
def execLdBu (d a : XReg) (_c : BitVec 4) (o : BitVec 10) (s : State) := settle (ldOp .zero 1 none d a o s)
def execLdBuAcq (d a : XReg) (_c : BitVec 4) (q : Scope) (o : BitVec 7) (s : State) := settle (ldOp .zero 1 (some q) d a o s)
def execLdHu (d a : XReg) (_c : BitVec 4) (o : BitVec 10) (s : State) := settle (ldOp .zero 2 none d a o s)
def execLdHuAcq (d a : XReg) (_c : BitVec 4) (q : Scope) (o : BitVec 7) (s : State) := settle (ldOp .zero 2 (some q) d a o s)
def execLdWu (d a : XReg) (_c : BitVec 4) (o : BitVec 10) (s : State) := settle (ldOp .zero 4 none d a o s)
def execLdWuAcq (d a : XReg) (_c : BitVec 4) (q : Scope) (o : BitVec 7) (s : State) := settle (ldOp .zero 4 (some q) d a o s)
def execStB (d a : XReg) (_c : BitVec 4) (o : BitVec 10) (s : State) := settle (stOp 1 none d a o s)
def execStBRel (d a : XReg) (_c : BitVec 4) (q : Scope) (o : BitVec 7) (s : State) := settle (stOp 1 (some q) d a o s)
def execStH (d a : XReg) (_c : BitVec 4) (o : BitVec 10) (s : State) := settle (stOp 2 none d a o s)
def execStHRel (d a : XReg) (_c : BitVec 4) (q : Scope) (o : BitVec 7) (s : State) := settle (stOp 2 (some q) d a o s)
def execStW (d a : XReg) (_c : BitVec 4) (o : BitVec 10) (s : State) := settle (stOp 4 none d a o s)
def execStWRel (d a : XReg) (_c : BitVec 4) (q : Scope) (o : BitVec 7) (s : State) := settle (stOp 4 (some q) d a o s)
def execStD (d a : XReg) (_c : BitVec 4) (o : BitVec 10) (s : State) := settle (stOp 8 none d a o s)
def execStDRel (d a : XReg) (_c : BitVec 4) (q : Scope) (o : BitVec 7) (s : State) := settle (stOp 8 (some q) d a o s)

/-! Atomics. -/

/-- The eight operations on w-bit values (R168, R221). -/
def amoFn (op : AmoOp) (w old x : Nat) : Nat :=
  let signedLess : Bool := decide (sextN w old < sextN w x)
  match op with
  | .swap => x
  | .add => (old + x) % 2 ^ w
  | .and => old &&& x
  | .or => old ||| x
  | .xor => old ^^^ x
  | .min => if signedLess then old else x
  | .max => if signedLess then x else old
  | .maxu => if old < x then x else old

/-- An atomic memory operation (R168). -/
def amo8 (op : AmoOp) (d a b : XReg) (r : AOrd) (sc : Scope) (s : State) : Res State := do
  legal .any [d, a, b] s
  drained s
  let s ← release (relScope r sc) s
  let x := (s.getX b).toNat
  let (old, bad, s') ← scalarAcc (s.atomic s.agent sc (s.getX a) 8 (fun o => some (amoFn op 64 o x)))
  .ok ((((s'.consume bad).setX d (word old)).advance 4).acquire (acqScope r sc))

/-- The second register of a pair (R128). -/
def pairNext (r : XReg) : XReg := r + 1

/-- `cas` (R169): both registers of the pair are read before any write. -/
def cas8 (d a b : XReg) (r : AOrd) (sc : Scope) (s : State) : Res State := do
  legal .any [d, pairNext d, a, b] s
  drained s
  let s ← release (relScope r sc) s
  let comparand := (s.getX d).toNat
  let new := (s.getX (pairNext d)).toNat
  let (old, bad, s') ← scalarAcc (s.atomic s.agent sc (s.getX a + s.getX b) 8
    (fun o => if o = comparand then some new else none))
  .ok ((((s'.consume bad).setX d (word old)).advance 4).acquire (acqScope r sc))

def execAmoswap (d a b : XReg) (_c : BitVec 4) (r : AOrd) (sc : Scope) (s : State) := settle (amo8 .swap d a b r sc s)
def execAmoadd (d a b : XReg) (_c : BitVec 4) (r : AOrd) (sc : Scope) (s : State) := settle (amo8 .add d a b r sc s)
def execAmoand (d a b : XReg) (_c : BitVec 4) (r : AOrd) (sc : Scope) (s : State) := settle (amo8 .and d a b r sc s)
def execAmoor (d a b : XReg) (_c : BitVec 4) (r : AOrd) (sc : Scope) (s : State) := settle (amo8 .or d a b r sc s)
def execAmoxor (d a b : XReg) (_c : BitVec 4) (r : AOrd) (sc : Scope) (s : State) := settle (amo8 .xor d a b r sc s)
def execAmomin (d a b : XReg) (_c : BitVec 4) (r : AOrd) (sc : Scope) (s : State) := settle (amo8 .min d a b r sc s)
def execAmomax (d a b : XReg) (_c : BitVec 4) (r : AOrd) (sc : Scope) (s : State) := settle (amo8 .max d a b r sc s)
def execAmomaxu (d a b : XReg) (_c : BitVec 4) (r : AOrd) (sc : Scope) (s : State) := settle (amo8 .maxu d a b r sc s)
def execCas (d a b : XReg) (_c : BitVec 4) (r : AOrd) (sc : Scope) (s : State) := settle (cas8 d a b r sc s)

end Sys2Proof.Machine
end

