-- ==== Sys2Proof/Machine/Float.lean ====
section
/-! DEFINITION. Floating point (R73, R115, R116): encodings are decoded to exact values, an operation
computes exactly on integers, and one rounding writes the result with its flags. -/

namespace Sys2Proof.Machine

/-- A floating-point encoding of R73: exponent bits, fraction bits, bias, largest finite magnitude, whether
an infinity exists, canonical NaN. -/
structure Fmt where
  ebits : Nat
  mbits : Nat
  bias : Nat
  maxFinite : Nat
  hasInf : Bool
  nan : Nat
deriving DecidableEq, Repr

def fBf16 : Fmt := { ebits := 8, mbits := 7, bias := 127, maxFinite := 0x7F7F, hasInf := true, nan := 0x7FC0 }
def fFp16 : Fmt := { ebits := 5, mbits := 10, bias := 15, maxFinite := 0x7BFF, hasInf := true, nan := 0x7E00 }
def fFp32 : Fmt :=
  { ebits := 8, mbits := 23, bias := 127, maxFinite := 0x7F7FFFFF, hasInf := true, nan := 0x7FC00000 }
def fFp64 : Fmt :=
  { ebits := 11, mbits := 52, bias := 1023, maxFinite := 0x7FEFFFFFFFFFFFFF, hasInf := true
    nan := 0x7FF8000000000000 }
def fE4m3 : Fmt := { ebits := 4, mbits := 3, bias := 7, maxFinite := 0x7E, hasInf := false, nan := 0x7F }
def fE5m2 : Fmt := { ebits := 5, mbits := 2, bias := 15, maxFinite := 0x7B, hasInf := true, nan := 0x7E }

/-- Position of the sign bit. -/
def Fmt.signBit (f : Fmt) : Nat := f.ebits + f.mbits
/-- Width in bits. -/
def Fmt.width (f : Fmt) : Nat := f.ebits + f.mbits + 1

def sFmt : STy → Fmt
  | .f32 => fFp32 | .f64 => fFp64
def ftFmt : FTy → Fmt
  | .bf16 => fBf16 | .f32 => fFp32 | .f64 => fFp64

/-- Rounding modes of R115, and nearest-even for the conversions that ignore `FCSR`. -/
inductive RMode | rne | rtz | rdn | rup | rna
deriving DecidableEq, Repr

def rmodeOf : Nat → RMode
  | 1 => .rtz | 2 => .rdn | 3 => .rup | 4 => .rna | _ => .rne

/-- An exact value: NaN, an infinity, or (-1)^neg * m * 2^e (zero when m = 0). -/
inductive FVal
  | nan
  | inf (neg : Bool)
  | num (neg : Bool) (m : Nat) (e : Int)
deriving DecidableEq, Repr

/-- Flags of R115, in the places of `FCSR` bits 4:0. -/
abbrev FFlags := BitVec 5
def fNV : FFlags := 16
def fDZ : FFlags := 8
def fOF : FFlags := 4
def fUF : FFlags := 2
def fNX : FFlags := 1

/-- A result: its bits and the exceptions it raised. -/
structure FRes where
  bits : Nat
  flags : FFlags
deriving DecidableEq, Repr

/-- The value that bits b encode (R73). -/
def Fmt.decode (f : Fmt) (b : Nat) : FVal :=
  let neg := b / 2 ^ f.signBit % 2 == 1
  let mag := b % 2 ^ f.signBit
  let ex := mag / 2 ^ f.mbits
  let fr := mag % 2 ^ f.mbits
  if f.maxFinite < mag then
    if f.hasInf && mag == f.maxFinite + 1 then .inf neg else .nan
  else if ex = 0 then .num neg fr (1 - (f.bias : Int) - f.mbits)
  else .num neg (2 ^ f.mbits + fr) ((ex : Int) - f.bias - f.mbits)

def Fmt.withSign (f : Fmt) (neg : Bool) (mag : Nat) : Nat := if neg then 2 ^ f.signBit + mag else mag
def Fmt.zero (f : Fmt) (neg : Bool) : Nat := f.withSign neg 0
def Fmt.inf (f : Fmt) (neg : Bool) : Nat :=
  if f.hasInf then f.withSign neg (f.maxFinite + 1) else f.nan
def Fmt.one (f : Fmt) (neg : Bool) : Nat := f.withSign neg (f.bias * 2 ^ f.mbits)
def Fmt.isNan (f : Fmt) (b : Nat) : Bool := f.decode b == .nan

/-- Whether a magnitude with the remaining bits r of 2^sh rounds up. -/
def roundsUp (rm : RMode) (neg : Bool) (odd : Bool) (r sh : Nat) : Bool :=
  if r = 0 then false
  else match rm with
    | .rne => 2 * r > 2 ^ sh || (2 * r == 2 ^ sh && odd)
    | .rna => 2 * r ≥ 2 ^ sh
    | .rtz => false
    | .rdn => neg
    | .rup => !neg

/-- m * 2^e rounded to a multiple of 2^q: the multiple, and whether it is inexact. -/
def roundAt (rm : RMode) (neg : Bool) (m : Nat) (e q : Int) : Nat × Bool :=
  if q ≤ e then (m * 2 ^ (e - q).toNat, false)
  else
    let sh := (q - e).toNat
    let t := m / 2 ^ sh
    let r := m % 2 ^ sh
    (if roundsUp rm neg (t % 2 == 1) r sh then t + 1 else t, r != 0)

/-- One rounding into f: magnitude bits with unbounded exponent, inexactness, tininess after rounding. -/
structure Rounded where
  mag : Nat
  inexact : Bool
  tiny : Bool
deriving DecidableEq, Repr

def Fmt.roundMag (f : Fmt) (rm : RMode) (neg : Bool) (m : Nat) (e : Int) : Rounded :=
  if m = 0 then { mag := 0, inexact := false, tiny := false }
  else
    let top : Int := e + bitLen m - 1
    let emin : Int := 1 - (f.bias : Int)
    let q := max top emin - f.mbits
    let (t, nx) := roundAt rm neg m e q
    let be := (q + f.mbits + f.bias).toNat
    let tiny := decide (top < emin) &&
      !(decide (top + 1 = emin) && (roundAt rm neg m e (top - f.mbits)).1 == 2 ^ (f.mbits + 1))
    { mag := (be - 1) * 2 ^ f.mbits + t, inexact := nx, tiny := tiny }

/-- Whether an overflowing result keeps the largest finite value instead of going to infinity. -/
def keepsMax (rm : RMode) (neg : Bool) : Bool :=
  match rm with
  | .rne | .rna => false
  | .rtz => true
  | .rdn => !neg
  | .rup => neg

/-- The exact value (-1)^neg * m * 2^e, m > 0, rounded once with its flags (R116). -/
def Fmt.round (f : Fmt) (rm : RMode) (neg : Bool) (m : Nat) (e : Int) : FRes :=
  let r := f.roundMag rm neg m e
  if f.maxFinite < r.mag then
    { bits := if keepsMax rm neg then f.withSign neg f.maxFinite else f.inf neg, flags := fOF ||| fNX }
  else
    { bits := f.withSign neg r.mag
      flags := (if r.inexact then fNX else 0) ||| (if r.tiny && r.inexact then fUF else 0) }

/-- A value written in f under a rounding mode. -/
def Fmt.ofVal (f : Fmt) (rm : RMode) : FVal → FRes
  | .nan => { bits := f.nan, flags := 0 }
  | .inf neg => { bits := f.inf neg, flags := 0 }
  | .num neg m e => if m = 0 then { bits := f.zero neg, flags := 0 } else f.round rm neg m e

def Fmt.invalid (f : Fmt) : FRes := { bits := f.nan, flags := fNV }

def FVal.neg : FVal → FVal
  | .nan => .nan
  | .inf s => .inf (!s)
  | .num s m e => .num (!s) m e

def FVal.isZero : FVal → Bool
  | .num _ m _ => m == 0
  | _ => false

/-- Signed magnitude as an integer multiple of 2^e0, for e0 at most the value's exponent. -/
def signedAt (neg : Bool) (m : Nat) (e e0 : Int) : Int :=
  let v : Int := (m * 2 ^ (e - e0).toNat : Nat)
  if neg then -v else v

/-- Exact sum; the sign of an exact zero follows R116. Infinities of opposite signs answer none (invalid). -/
def FVal.add (rm : RMode) : FVal → FVal → Option FVal
  | .nan, _ => some .nan
  | _, .nan => some .nan
  | .inf s, .inf t => if s == t then some (.inf s) else none
  | .inf s, _ => some (.inf s)
  | _, .inf t => some (.inf t)
  | .num s m e, .num t n f =>
    let e0 := min e f
    let v := signedAt s m e e0 + signedAt t n f e0
    if v = 0 then
      let neg := if m = 0 && n = 0 && s == t then s else rm == .rdn
      some (.num neg 0 0)
    else some (.num (v < 0) v.natAbs e0)

/-- Exact product; infinity by zero answers none (invalid). -/
def FVal.mul : FVal → FVal → Option FVal
  | .nan, _ => some .nan
  | _, .nan => some .nan
  | .inf s, .inf t => some (.inf (s != t))
  | .inf s, .num t n _ => if n = 0 then none else some (.inf (s != t))
  | .num s m _, .inf t => if m = 0 then none else some (.inf (s != t))
  | .num s m e, .num t n f => some (.num (s != t) (m * n) (e + f))

def Fmt.fin (f : Fmt) (rm : RMode) : Option FVal → FRes
  | none => f.invalid
  | some v => f.ofVal rm v

def Fmt.add (f : Fmt) (rm : RMode) (a b : Nat) : FRes := f.fin rm ((f.decode a).add rm (f.decode b))
def Fmt.sub (f : Fmt) (rm : RMode) (a b : Nat) : FRes := f.fin rm ((f.decode a).add rm (f.decode b).neg)
def Fmt.mul (f : Fmt) (rm : RMode) (a b : Nat) : FRes := f.fin rm ((f.decode a).mul (f.decode b))

/-- The quotient rounded once; its low bit stands for the remainder. -/
def FVal.div (f : Fmt) (rm : RMode) : FVal → FVal → FRes
  | .nan, _ => { bits := f.nan, flags := 0 }
  | _, .nan => { bits := f.nan, flags := 0 }
  | .inf _, .inf _ => f.invalid
  | .inf s, .num t _ _ => { bits := f.inf (s != t), flags := 0 }
  | .num s _ _, .inf t => { bits := f.zero (s != t), flags := 0 }
  | .num s m e, .num t n g =>
    if n = 0 then
      if m = 0 then f.invalid else { bits := f.inf (s != t), flags := fDZ }
    else if m = 0 then { bits := f.zero (s != t), flags := 0 }
    else
      let q := m * 2 ^ 130 / n
      let r := m * 2 ^ 130 % n
      f.round rm (s != t) (2 * q + if r = 0 then 0 else 1) (e - g - 131)

def Fmt.div (f : Fmt) (rm : RMode) (a b : Nat) : FRes := FVal.div f rm (f.decode a) (f.decode b)

/-- Integer square root, bit by bit from bit k. -/
def isqrtFrom : Nat → Nat → Nat → Nat
  | 0, n, r => if (r + 1) * (r + 1) ≤ n then r + 1 else r
  | k + 1, n, r =>
    let c := r + 2 ^ (k + 1)
    isqrtFrom k n (if c * c ≤ n then c else r)

def isqrt (n : Nat) : Nat := isqrtFrom (bitLen n / 2 + 1) n 0

/-- The square root rounded once (R147, R200). -/
def Fmt.sqrt (f : Fmt) (rm : RMode) (a : Nat) : FRes :=
  match f.decode a with
  | .nan => { bits := f.nan, flags := 0 }
  | .inf neg => if neg then f.invalid else { bits := f.inf false, flags := 0 }
  | .num neg m e =>
    if m = 0 then { bits := f.zero neg, flags := 0 }
    else if neg then f.invalid
    else
      let k : Nat := if e % 2 = 0 then 130 else 131
      let n := m * 2 ^ k
      let r := isqrt n
      f.round rm false (2 * r + if r * r = n then 0 else 1) ((e - k) / 2 - 1)

/-- a * b + c with one rounding (R148, R199): the exact product is formed first. -/
def Fmt.fma (f : Fmt) (rm : RMode) (negProd negC : Bool) (a b c : Nat) : FRes :=
  match (f.decode a).mul (f.decode b) with
  | none => f.invalid
  | some p =>
    let p := if negProd then p.neg else p
    let c := if negC then (f.decode c).neg else f.decode c
    f.fin rm (p.add rm c)

/-- Order of two values that are not NaN: a < b. -/
def FVal.lt : FVal → FVal → Bool
  | .nan, _ => false
  | _, .nan => false
  | .inf s, .inf t => s && !t
  | .inf s, _ => s
  | _, .inf t => !t
  | .num s m e, .num t n f =>
    let e0 := min e f
    signedAt s m e e0 < signedAt t n f e0

def FVal.eqv : FVal → FVal → Bool
  | .nan, _ => false
  | _, .nan => false
  | .inf s, .inf t => s == t
  | .inf _, _ => false
  | _, .inf _ => false
  | .num s m e, .num t n f =>
    let e0 := min e f
    signedAt s m e e0 == signedAt t n f e0

def FVal.isNeg : FVal → Bool
  | .nan => false
  | .inf s => s
  | .num s _ _ => s

/-- `fmin` and `fmax` (R147, R198): -0 < +0; one NaN gives the other operand, two the canonical NaN. -/
def Fmt.minmax (f : Fmt) (isMax : Bool) (a b : Nat) : Nat :=
  let x := f.decode a
  let y := f.decode b
  if x == .nan then (if y == .nan then f.nan else b)
  else if y == .nan then a
  else
    let aLess := x.lt y || (x.eqv y && x.isNeg && !y.isNeg)
    if aLess != isMax then a else b

/-- Compare conditions with the invalid flag of R147 and R204. -/
def Fmt.cmp (f : Fmt) (c : FCond) (a b : Nat) : Bool × FFlags :=
  let x := f.decode a
  let y := f.decode b
  let un := x == .nan || y == .nan
  match c with
  | .eq => (x.eqv y, 0)
  | .ne => (!x.eqv y, 0)
  | .lt => (x.lt y, if un then fNV else 0)
  | .le => (x.lt y || x.eqv y, if un then fNV else 0)
  | .gt => (y.lt x, if un then fNV else 0)
  | .ge => (y.lt x || x.eqv y, if un then fNV else 0)

/-- A finite value rounded to an integer, and whether that is inexact. -/
def roundInt (rm : RMode) (neg : Bool) (m : Nat) (e : Int) : Int × Bool :=
  let (t, nx) := roundAt rm neg m e 0
  (if neg then -(t : Int) else t, nx)

/-- Conversion to a signed integer of w bits (R147, R205), as its low w bits. -/
def Fmt.toInt (f : Fmt) (rm : RMode) (w : Nat) (a : Nat) : FRes :=
  let top : Int := 2 ^ (w - 1) - 1
  let bot : Int := -(2 ^ (w - 1))
  match f.decode a with
  | .nan => { bits := 0, flags := fNV }
  | .inf neg => { bits := modN w (if neg then bot else top), flags := fNV }
  | .num neg m e =>
    let (v, nx) := roundInt rm neg m e
    if v > top then { bits := modN w top, flags := fNV }
    else if v < bot then { bits := modN w bot, flags := fNV }
    else { bits := modN w v, flags := if nx then fNX else 0 }

/-- Conversion from a signed integer (R147, R205). -/
def Fmt.ofInt (f : Fmt) (rm : RMode) (v : Int) : FRes :=
  if v = 0 then { bits := 0, flags := 0 } else f.round rm (v < 0) v.natAbs 0

/-- Conversion between formats (R147, R205): a NaN becomes the canonical NaN of g. -/
def Fmt.conv (f g : Fmt) (rm : RMode) (a : Nat) : FRes := g.ofVal rm (f.decode a)

/-! The functions of R200. An operand's exact value x is dyadic, so each result but the listed special cases
is irrational: an enclosure whose ends round alike gives the correctly rounded result. -/

/-- 2^p * atan(1/k) or 2^p * atanh(1/k), by the power series, n terms. -/
def atanSeries (alt : Bool) (k : Nat) : Nat → Nat → Nat → Int → Int
  | 0, _, _, acc => acc
  | n + 1, pw, i, acc =>
    let t : Int := (pw / (2 * i + 1) : Nat)
    let acc := if alt && i % 2 == 1 then acc - t else acc + t
    atanSeries alt k n (pw / (k * k)) (i + 1) acc

/-- 2^p * ln 2 = 2^p * 2 atanh(1/3). -/
def ln2Fix (p : Nat) : Int := 2 * atanSeries false 3 (p / 3 + 4) (2 ^ p / 3) 0 0

/-- 2^p * pi, by Machin's formula. -/
def piFix (p : Nat) : Int :=
  16 * atanSeries true 5 (p / 4 + 4) (2 ^ p / 5) 0 0 - 4 * atanSeries true 239 (p / 15 + 4) (2 ^ p / 239) 0 0

/-- Value of (-1)^neg m 2^e as a multiple of 2^-p, truncated. -/
def toFix (p : Nat) (neg : Bool) (m : Nat) (e : Int) : Int :=
  let v : Int := if 0 ≤ e + p then (m * 2 ^ (e + p).toNat : Nat) else (m / 2 ^ (-(e + p)).toNat : Nat)
  if neg then -v else v

/-- Product of two fixed-point numbers. -/
def fixMul (p : Nat) (a b : Int) : Int := a * b / 2 ^ p

/-- Sum of r^i / i!, from the term t on, n terms. -/
def expSeries (p : Nat) (r : Int) : Nat → Nat → Int → Int → Int
  | 0, _, _, acc => acc
  | n + 1, i, t, acc => expSeries p r n (i + 1) (fixMul p t r / (i + 1 : Nat)) (acc + t)

/-- Terms with steps of two in the index, alternating in sign: sine from i = 1, cosine from i = 0. -/
def trigSeries (p : Nat) (r2 : Int) : Nat → Nat → Int → Int → Int
  | 0, _, _, acc => acc
  | n + 1, i, t, acc => trigSeries p r2 n (i + 2) (-(fixMul p t r2) / ((i + 1) * (i + 2) : Nat)) (acc + t)

/-- e^x for x a multiple of 2^-p: mantissa v with e^x near v * 2^(k - p). -/
def expFix (p : Nat) (x : Int) : Int × Int :=
  let l := ln2Fix p
  let k := x / l
  let r := x - k * l
  (expSeries p r (p / 2 + 8) 0 (2 ^ p) 0, k)

/-- 2^p * ln y for y = m 2^e > 0. -/
def logFix (p : Nat) (m : Nat) (e : Int) : Int :=
  let k : Int := e + bitLen m
  let y := toFix p false m (e - k)
  let z := (y - 2 ^ p) * 2 ^ p / (y + 2 ^ p)
  let z2 := fixMul p z z
  let s := (List.range (p / 2 + 8)).foldl (fun (st : Int × Int) i => (st.1 + st.2 / (2 * i + 1 : Nat), fixMul p st.2 z2))
    ((0, z) : Int × Int)
  2 * s.1 + k * ln2Fix p

/-- 2^p times the sine or cosine of x, a multiple of 2^-p with |x| < 2^18. -/
def trigFix (p : Nat) (cosine : Bool) (x : Int) : Int :=
  let h := piFix p / 2
  let k := (2 * x + h) / (2 * h)
  let r := x - k * h
  let j := ((if cosine then k + 1 else k) % 4).toNat
  let r2 := fixMul p r r
  let s := trigSeries p r2 (p / 6 + 12) 1 r 0
  let c := trigSeries p r2 (p / 6 + 12) 0 (2 ^ p) 0
  match j with
  | 0 => s
  | 1 => c
  | 2 => -s
  | _ => -c

/-- The result when every number within err of v * 2^q rounds alike. -/
def Fmt.roundBall (f : Fmt) (rm : RMode) (v err : Int) (q : Int) : Option FRes :=
  let lo := v - err
  let hi := v + err
  if lo > 0 then
    let a := f.round rm false lo.natAbs q
    if a == f.round rm false hi.natAbs q then some a else none
  else if hi < 0 then
    let a := f.round rm true lo.natAbs q
    if a == f.round rm true hi.natAbs q then some a else none
  else none

/-- Tries rising precisions; each entry answers a value, its error bound and its unit's exponent. -/
def Fmt.ziv (f : Fmt) (rm : RMode) (approx : Nat → Int × Int × Int) : List Nat → FRes
  | [] =>
    let (v, _, q) := approx 2400
    f.round rm (v < 0) v.natAbs q
  | p :: ps =>
    let (v, err, q) := approx p
    match f.roundBall rm v err q with
    | some r => r
    | none => Fmt.ziv f rm approx ps

def zivPrecisions : List Nat := [160, 320, 640, 1200]

/-- Just above, or just below, the value m 2^e in magnitude. -/
def Fmt.nudge (f : Fmt) (rm : RMode) (neg up : Bool) (m : Nat) (e : Int) : FRes :=
  f.round rm neg (if up then m * 2 ^ 130 + 1 else m * 2 ^ 130 - 1) (e - 130)

/-- Exponent of the leading bit of m 2^e. -/
def topExp (m : Nat) (e : Int) : Int := e + bitLen m - 1

def Fmt.rsqrt (f : Fmt) (rm : RMode) (a : Nat) : FRes :=
  match f.decode a with
  | .nan => { bits := f.nan, flags := 0 }
  | .inf neg => if neg then f.invalid else { bits := f.zero false, flags := 0 }
  | .num neg m e =>
    if m = 0 then { bits := f.inf neg, flags := fDZ }
    else if neg then f.invalid
    else
      let (m, e) := if e % 2 = 0 then (m, e) else (2 * m, e - 1)
      let s := isqrt (2 ^ 260 / m)
      f.round rm false (2 * s + if s * s * m = 2 ^ 260 then 0 else 1) (-(e / 2) - 131)

def Fmt.recip (f : Fmt) (rm : RMode) (a : Nat) : FRes := f.div rm (f.one false) a

def Fmt.exp (f : Fmt) (rm : RMode) (a : Nat) : FRes :=
  match f.decode a with
  | .nan => { bits := f.nan, flags := 0 }
  | .inf neg => { bits := if neg then f.zero false else f.inf false, flags := 0 }
  | .num neg m e =>
    if m = 0 then { bits := f.one false, flags := 0 }
    else if topExp m e ≥ 12 then f.round rm false 1 (if neg then -5000 else 5000)
    else if topExp m e < -80 then f.nudge rm false (!neg) 1 0
    else f.ziv rm (fun p =>
      let (v, k) := expFix (p + 64) (toFix (p + 64) neg m e)
      (v, 2 ^ 60, k - (p + 64 : Nat))) zivPrecisions

def Fmt.log (f : Fmt) (rm : RMode) (a : Nat) : FRes :=
  match f.decode a with
  | .nan => { bits := f.nan, flags := 0 }
  | .inf neg => if neg then f.invalid else { bits := f.inf false, flags := 0 }
  | .num neg m e =>
    if m = 0 then { bits := f.inf true, flags := fDZ }
    else if neg then f.invalid
    else if f.decode (f.one false) |>.eqv (.num neg m e) then { bits := f.zero false, flags := 0 }
    else f.ziv rm (fun p => (logFix (p + 64) m e, 2 ^ 60, -(p + 64 : Nat))) zivPrecisions

def Fmt.trig (f : Fmt) (rm : RMode) (cosine : Bool) (a : Nat) : FRes :=
  match f.decode a with
  | .nan => { bits := f.nan, flags := 0 }
  | .inf _ => f.invalid
  | .num neg m e =>
    if m = 0 then { bits := if cosine then f.one false else f.zero neg, flags := 0 }
    else if topExp m e ≥ 18 then f.invalid
    else if topExp m e < -45 then
      if cosine then f.nudge rm false false 1 0 else f.nudge rm neg false m e
    else f.ziv rm (fun p => (trigFix (p + 64) cosine (toFix (p + 64) neg m e), 2 ^ 60, -(p + 64 : Nat))) zivPrecisions

def Fmt.tanh (f : Fmt) (rm : RMode) (a : Nat) : FRes :=
  match f.decode a with
  | .nan => { bits := f.nan, flags := 0 }
  | .inf neg => { bits := f.one neg, flags := 0 }
  | .num neg m e =>
    if m = 0 then { bits := f.zero neg, flags := 0 }
    else if topExp m e ≥ 7 then f.nudge rm neg false 1 0
    else if topExp m e < -45 then f.nudge rm neg false m e
    else f.ziv rm (fun p =>
      let w := p + 320
      let (v, k) := expFix w (toFix w false m (e + 1))
      let t := v * 2 ^ k.toNat
      let r := (t - 2 ^ w) * 2 ^ w / (t + 2 ^ w)
      (if neg then -r else r, 2 ^ 310, -(w : Int))) zivPrecisions

end Sys2Proof.Machine
end

