-- ==== Sys2Proof/Machine/Flags.lean ====
section
/-! DEFINITION. Flags and exceptions of floating point (R115, R116, R149): rounding mode, sticky flags and the
cause of an enabled exception. Integer operations set no flag. -/

namespace Sys2Proof.Machine

def Ctx.rmode (c : Ctx) : RMode := rmodeOf (bits c.fcsr 15 13)

/-- The cause of the lowest-numbered exception that is raised and enabled (R116, R149). -/
def fpCause (fcsr : Word) (f : FFlags) : Option Nat :=
  if bitAt fcsr 8 && f.getLsbD 4 then some 0x10
  else if bitAt fcsr 9 && f.getLsbD 3 then some 0x11
  else if bitAt fcsr 10 && f.getLsbD 2 then some 0x12
  else if bitAt fcsr 11 && f.getLsbD 1 then some 0x13
  else none

/-- Delivers a scalar floating-point result (R149): an enabled exception traps with `TVAL` 0; otherwise the
flags stick and xd is written. -/
def fpDeliver (d : XReg) (r : FRes) (s : State) : Res State :=
  match fpCause s.ctx.fcsr r.flags with
  | some c => raise s c 0
  | none => .ok (({ s with ctx := if s.lane.isSome then s.ctx.addFlags r.flags else s.ctx.scalarFlags r.flags } : State).setX d (word r.bits) |>.advance 4)

end Sys2Proof.Machine
end

