-- ==== Sys2Proof/Machine/ScalarFp.lean ====
section
/-! DEFINITION. Scalar floating point, majors 0x08 and 0x09 (R146-R149), legal on front ends only (R138). -/

namespace Sys2Proof.Machine

/-- An operand: FP32 ignores bits 63:32 (R146). -/
def fpArg (t : STy) (v : Word) : Nat :=
  match t with
  | .f32 => v.toNat % 2 ^ 32
  | .f64 => v.toNat

/-- Two operands, one rounded result under `FCSR`. -/
def fp2 (f : Fmt → RMode → Nat → Nat → FRes) (t : STy) (d a b : XReg) (s : State) : Res State := do
  legal .front [d, a, b] s
  fpDeliver d (f (sFmt t) s.ctx.rmode (fpArg t (s.getX a)) (fpArg t (s.getX b))) s

/-- One operand. -/
def fp1 (f : Fmt → RMode → Nat → FRes) (t : STy) (d a : XReg) (s : State) : Res State := do
  legal .front [d, a] s
  fpDeliver d (f (sFmt t) s.ctx.rmode (fpArg t (s.getX a))) s

/-- A result without a flag. -/
def pureRes (n : Nat) : FRes := { bits := n, flags := 0 }

def boolRes (p : Bool × FFlags) : FRes := { bits := if p.1 then 1 else 0, flags := p.2 }

/-- A fused product (R148): signs of product and addend by form. -/
def fp3 (negP negC : Bool) (t : STy) (d a b c : XReg) (s : State) : Res State := do
  legal .front [d, a, b, c] s
  fpDeliver d ((sFmt t).fma s.ctx.rmode negP negC (fpArg t (s.getX a)) (fpArg t (s.getX b)) (fpArg t (s.getX c))) s

/-- The bits with the sign inverted (R147). -/
def Fmt.flip (f : Fmt) (a : Nat) : Nat := a ^^^ 2 ^ f.signBit
/-- The bits with the sign cleared (R147). -/
def Fmt.clear (f : Fmt) (a : Nat) : Nat := a % 2 ^ f.signBit

def execFadd (t : STy) (d a b : XReg) (s : State) := settle (fp2 Fmt.add t d a b s)
def execFsub (t : STy) (d a b : XReg) (s : State) := settle (fp2 Fmt.sub t d a b s)
def execFmul (t : STy) (d a b : XReg) (s : State) := settle (fp2 Fmt.mul t d a b s)
def execFdiv (t : STy) (d a b : XReg) (s : State) := settle (fp2 Fmt.div t d a b s)
def execFsqrt (t : STy) (d a : XReg) (s : State) := settle (fp1 Fmt.sqrt t d a s)
def execFmin (t : STy) (d a b : XReg) (s : State) :=
  settle (fp2 (fun f _ x y => pureRes (f.minmax false x y)) t d a b s)
def execFmax (t : STy) (d a b : XReg) (s : State) :=
  settle (fp2 (fun f _ x y => pureRes (f.minmax true x y)) t d a b s)
def execFcmpEq (t : STy) (d a b : XReg) (s : State) := settle (fp2 (fun f _ x y => boolRes (f.cmp .eq x y)) t d a b s)
def execFcmpLt (t : STy) (d a b : XReg) (s : State) := settle (fp2 (fun f _ x y => boolRes (f.cmp .lt x y)) t d a b s)
def execFcmpLe (t : STy) (d a b : XReg) (s : State) := settle (fp2 (fun f _ x y => boolRes (f.cmp .le x y)) t d a b s)
def execFcvtToI64 (t : STy) (d a : XReg) (s : State) := settle (fp1 (fun f rm x => f.toInt rm 64 x) t d a s)
/-- The operand is all 64 bits of xa, signed. -/
def execFcvtFromI64 (t : STy) (d a : XReg) (s : State) := settle (do
  legal .front [d, a] s
  fpDeliver d ((sFmt t).ofInt s.ctx.rmode (s.getX a).toInt) s)
/-- The type field names the source; the destination is the other type (R139). -/
def execFcvtFpFp (t : STy) (d a : XReg) (s : State) :=
  settle (fp1 (fun f rm x => f.conv (match t with | .f32 => fFp64 | .f64 => fFp32) rm x) t d a s)
def execFmv (t : STy) (d a : XReg) (s : State) := settle (fp1 (fun _ _ x => pureRes x) t d a s)
def execFneg (t : STy) (d a : XReg) (s : State) := settle (fp1 (fun f _ x => pureRes (f.flip x)) t d a s)
def execFabs (t : STy) (d a : XReg) (s : State) := settle (fp1 (fun f _ x => pureRes (f.clear x)) t d a s)
def execFfma (t : STy) (d a b c : XReg) (s : State) := settle (fp3 false false t d a b c s)
def execFfms (t : STy) (d a b c : XReg) (s : State) := settle (fp3 false true t d a b c s)
def execFfnma (t : STy) (d a b c : XReg) (s : State) := settle (fp3 true true t d a b c s)
def execFfnms (t : STy) (d a b c : XReg) (s : State) := settle (fp3 true false t d a b c s)

end Sys2Proof.Machine
end

