-- ==== Sys2Proof/Machine/Riscv.lean ====
section
/-! DEFINITION. RV64GC, the instruction set of the control cores (R2): the unprivileged RV64IMAFDC with Zicsr and Zifencei, PRESUMED
from its own manual, since the spec names it and does not describe it (log 82). A compressed instruction is expanded to the one it
stands for. An instruction either changes the core's own registers, or asks for an access, which `ccPerform` makes. -/

namespace Sys2Proof.Machine

/-! Compressed instructions. -/

/-- Encodings in the formats I, S, B and J, and R; an immediate stands modulo its width. -/
def rvI (op f3 rd a imm : Nat) : Nat := op + rd * 2 ^ 7 + f3 * 2 ^ 12 + a * 2 ^ 15 + imm % 2 ^ 12 * 2 ^ 20
def rvS (op f3 a b imm : Nat) : Nat :=
  op + fld imm 0 5 * 2 ^ 7 + f3 * 2 ^ 12 + a * 2 ^ 15 + b * 2 ^ 20 + fld imm 5 7 * 2 ^ 25
def rvB (f3 a imm : Nat) : Nat :=
  0x63 + fld imm 11 1 * 2 ^ 7 + fld imm 1 4 * 2 ^ 8 + f3 * 2 ^ 12 + a * 2 ^ 15 + fld imm 5 6 * 2 ^ 25 + fld imm 12 1 * 2 ^ 31
def rvJ (rd imm : Nat) : Nat :=
  0x6F + rd * 2 ^ 7 + fld imm 12 8 * 2 ^ 12 + fld imm 11 1 * 2 ^ 20 + fld imm 1 10 * 2 ^ 21 + fld imm 20 1 * 2 ^ 31
def rvR (op f3 f7 rd a b : Nat) : Nat := op + rd * 2 ^ 7 + f3 * 2 ^ 12 + a * 2 ^ 15 + b * 2 ^ 20 + f7 * 2 ^ 25

/-- A six-bit immediate of a compressed instruction, in two's complement and as it stands. -/
def cUimm (c : Nat) : Nat := fld c 12 1 * 32 + fld c 2 5
def cImm (c w : Nat) : Nat := modN w (sextN 6 (cUimm c))

/-- Quadrant 0: loads, stores and a stack address, on registers 8 to 15. -/
def rvExpand0 (c : Nat) : Option Nat :=
  let d := 8 + fld c 2 3
  let a := 8 + fld c 7 3
  let w4 := fld c 10 3 * 8 + fld c 6 1 * 4 + fld c 5 1 * 64
  let w8 := fld c 10 3 * 8 + fld c 5 2 * 64
  let sp := fld c 11 2 * 16 + fld c 7 4 * 64 + fld c 6 1 * 4 + fld c 5 1 * 8
  match fld c 13 3 with
  | 0 => if sp = 0 then none else some (rvI 0x13 0 d 2 sp)
  | 1 => some (rvI 0x07 3 d a w8)
  | 2 => some (rvI 0x03 2 d a w4)
  | 3 => some (rvI 0x03 3 d a w8)
  | 5 => some (rvS 0x27 3 a d w8)
  | 6 => some (rvS 0x23 2 a d w4)
  | 7 => some (rvS 0x23 3 a d w8)
  | _ => none

/-- Quadrant 1: immediates, arithmetic and branches. -/
def rvExpand1 (c : Nat) : Option Nat :=
  let d := fld c 7 5
  let r := 8 + fld c 7 3
  let q := 8 + fld c 2 3
  let i12 := cImm c 12
  let sp := modN 12 (sextN 10 (fld c 12 1 * 512 + fld c 6 1 * 16 + fld c 5 1 * 64 + fld c 3 2 * 128 + fld c 2 1 * 32))
  let j := modN 21 (sextN 12 (fld c 12 1 * 2048 + fld c 11 1 * 16 + fld c 9 2 * 256 + fld c 8 1 * 1024 + fld c 7 1 * 64 +
    fld c 6 1 * 128 + fld c 3 3 * 2 + fld c 2 1 * 32))
  let b := modN 13 (sextN 9 (fld c 12 1 * 256 + fld c 10 2 * 8 + fld c 5 2 * 64 + fld c 3 2 * 2 + fld c 2 1 * 32))
  match fld c 13 3 with
  | 0 => some (rvI 0x13 0 d d i12)
  | 1 => if d = 0 then none else some (rvI 0x1B 0 d d i12)
  | 2 => some (rvI 0x13 0 d 0 i12)
  | 3 =>
    if d = 2 then (if sp = 0 then none else some (rvI 0x13 0 2 2 sp))
    else if cUimm c = 0 then none
    else some (0x37 + d * 2 ^ 7 + cImm c 20 * 2 ^ 12)
  | 4 =>
    match fld c 10 2 with
    | 0 => some (rvI 0x13 5 r r (cUimm c))
    | 1 => some (rvI 0x13 5 r r (0x400 + cUimm c))
    | 2 => some (rvI 0x13 7 r r i12)
    | _ =>
      match fld c 12 1, fld c 5 2 with
      | 0, 0 => some (rvR 0x33 0 0x20 r r q)
      | 0, 1 => some (rvR 0x33 4 0 r r q)
      | 0, 2 => some (rvR 0x33 6 0 r r q)
      | 0, _ => some (rvR 0x33 7 0 r r q)
      | _, 0 => some (rvR 0x3B 0 0x20 r r q)
      | _, 1 => some (rvR 0x3B 0 0 r r q)
      | _, _ => none
  | 5 => some (rvJ 0 j)
  | 6 => some (rvB 0 r b)
  | _ => some (rvB 1 r b)

/-- Quadrant 2: shifts, stack accesses, jumps and moves. -/
def rvExpand2 (c : Nat) : Option Nat :=
  let d := fld c 7 5
  let b := fld c 2 5
  let l4 := fld c 12 1 * 32 + fld c 4 3 * 4 + fld c 2 2 * 64
  let l8 := fld c 12 1 * 32 + fld c 5 2 * 8 + fld c 2 3 * 64
  let s4 := fld c 9 4 * 4 + fld c 7 2 * 64
  let s8 := fld c 10 3 * 8 + fld c 7 3 * 64
  match fld c 13 3 with
  | 0 => some (rvI 0x13 1 d d (cUimm c))
  | 1 => some (rvI 0x07 3 d 2 l8)
  | 2 => if d = 0 then none else some (rvI 0x03 2 d 2 l4)
  | 3 => if d = 0 then none else some (rvI 0x03 3 d 2 l8)
  | 4 =>
    match fld c 12 1, b with
    | 0, 0 => if d = 0 then none else some (rvI 0x67 0 0 d 0)
    | 0, _ => some (rvR 0x33 0 0 d 0 b)
    | _, 0 => some (if d = 0 then 0x100073 else rvI 0x67 0 1 d 0)
    | _, _ => some (rvR 0x33 0 0 d d b)
  | 5 => some (rvS 0x27 3 2 b s8)
  | 6 => some (rvS 0x23 2 2 b s4)
  | _ => some (rvS 0x23 3 2 b s8)

def rvExpand (c : Nat) : Option Nat :=
  match c % 4 with
  | 0 => rvExpand0 c
  | 1 => rvExpand1 c
  | _ => rvExpand2 c

/-! Integer arithmetic. -/

def sx32 (w : Word) : Word := wordI (sextN 32 w.toNat)

/-- An operation on whole registers; an immediate has no funct7 but for shifts. -/
def rvOp (f3 f7 : Nat) (a b : Word) : Option Word :=
  match f7, f3 with
  | 0, 0 => some (a + b)
  | 0, 1 => some (a <<< shamt b)
  | 0, 2 => some (boolWord (a.slt b))
  | 0, 3 => some (boolWord (a.ult b))
  | 0, 4 => some (a ^^^ b)
  | 0, 5 => some (a >>> shamt b)
  | 0, 6 => some (a ||| b)
  | 0, 7 => some (a &&& b)
  | 0x20, 0 => some (a - b)
  | 0x20, 5 => some (a.sshiftRight (shamt b))
  | 1, 0 => some (a * b)
  | 1, 1 => some (mulh64 a b)
  | 1, 2 => some (wordI (a.toInt * b.toNat / 2 ^ 64))
  | 1, 3 => some (mulhu64 a b)
  | 1, 4 => some (div64 a b)
  | 1, 5 => some (divu64 a b)
  | 1, 6 => some (rem64 a b)
  | 1, 7 => some (remu64 a b)
  | _, _ => none

/-- An operation on the low 32 bits, its result sign-extended. -/
def rvOp32 (f3 f7 : Nat) (a b : Word) : Option Word :=
  let sh := b.toNat % 32
  let za : Word := word (a.toNat % 2 ^ 32)
  let zb : Word := word (b.toNat % 2 ^ 32)
  match f7, f3 with
  | 0, 0 => some (sx32 (a + b))
  | 0, 1 => some (sx32 (a <<< sh))
  | 0, 5 => some (sx32 (za >>> sh))
  | 0x20, 0 => some (sx32 (a - b))
  | 0x20, 5 => some ((sx32 a).sshiftRight sh)
  | 1, 0 => some (sx32 (a * b))
  | 1, 4 => some (sx32 (div64 (sx32 a) (sx32 b)))
  | 1, 5 => some (if zb = 0 then -1 else sx32 (divu64 za zb))
  | 1, 6 => some (sx32 (rem64 (sx32 a) (sx32 b)))
  | 1, 7 => some (sx32 (remu64 za zb))
  | _, _ => none

def rvTaken (f3 : Nat) (a b : Word) : Option Bool :=
  match f3 with
  | 0 => some (a == b)
  | 1 => some (a != b)
  | 4 => some (a.slt b)
  | 5 => some (!a.slt b)
  | 6 => some (a.ult b)
  | 7 => some (!a.ult b)
  | _ => none

/-! Floating point. -/

/-- A single-precision value stands boxed in ones. -/
def rvBox (n : Nat) : Word := word (0xFFFFFFFF00000000 + n % 2 ^ 32)
def rvFmt (double : Bool) : Fmt := if double then fFp64 else fFp32
def rvArg (double : Bool) (w : Word) : Nat :=
  if double then w.toNat
  else if w.toNat / 2 ^ 32 = 0xFFFFFFFF then w.toNat % 2 ^ 32 else fFp32.nan
def rvFres (double : Bool) (n : Nat) : Word := if double then word n else rvBox n

/-- A signalling NaN raises the invalid flag. -/
def rvSignals (f : Fmt) (n : Nat) : Bool := f.isNan n && n / 2 ^ (f.mbits - 1) % 2 == 0
def rvNv (f : Fmt) (l : List Nat) (r : FRes) : FRes := { r with flags := r.flags ||| if l.any (rvSignals f) then fNV else 0 }

/-- Conversion to an integer between two bounds, NaN to the upper one. -/
def rvToInt (f : Fmt) (rm : RMode) (lo hi : Int) (a : Nat) : Int × FFlags :=
  match f.decode a with
  | .nan => (hi, fNV)
  | .inf neg => (if neg then lo else hi, fNV)
  | .num neg m e =>
    let (v, nx) := roundInt rm neg m e
    if hi < v then (hi, fNV) else if v < lo then (lo, fNV) else (v, if nx then fNX else 0)

def rvClass (f : Fmt) (n : Nat) : Nat :=
  match f.decode n with
  | .nan => if rvSignals f n then 256 else 512
  | .inf neg => if neg then 1 else 128
  | .num neg m _ =>
    if m = 0 then (if neg then 8 else 16)
    else if m < 2 ^ f.mbits then (if neg then 4 else 32)
    else if neg then 2 else 64

/-- The bounds of the integer types W, WU, L and LU. -/
def rvBounds (k : Nat) : Int × Int :=
  match k with
  | 0 => (-(2 ^ 31), 2 ^ 31 - 1)
  | 1 => (0, 2 ^ 32 - 1)
  | 2 => (-(2 ^ 63), 2 ^ 63 - 1)
  | _ => (0, 2 ^ 64 - 1)
def rvIntArg (k : Nat) (a : Word) : Int :=
  match k with
  | 0 => sextN 32 a.toNat
  | 1 => (a.toNat % 2 ^ 32 : Nat)
  | 2 => a.toInt
  | _ => a.toNat
def rvIntRes (k : Nat) (v : Int) : Word := if k < 2 then sx32 (wordI v) else wordI v

/-! One instruction. -/

/-- What an instruction does: it changes the core's registers, asks for an access, or traps to an environment of which the spec
says nothing. -/
inductive RvRes
  | core (c : CcCore)
  | mem (a : CcAccess)
  | trap
deriving DecidableEq, Repr

/-- An instruction i of so many bytes at the core's pc, by whose code, with the core's registers. -/
structure RvIns where
  c : CcCore
  core : BitVec 5
  lease : Byte
  sub : Byte
  level : BitVec 2
  i : Nat
  size : Nat
deriving DecidableEq, Repr

namespace RvIns

def rd (r : RvIns) : BitVec 5 := BitVec.ofNat 5 (fld r.i 7 5)
def xa (r : RvIns) : Word := r.c.x.toList.getD (fld r.i 15 5) 0
def xb (r : RvIns) : Word := r.c.x.toList.getD (fld r.i 20 5) 0
def fa (r : RvIns) (double : Bool) : Nat := rvArg double (r.c.f.toList.getD (fld r.i 15 5) 0)
def fb (r : RvIns) (double : Bool) : Nat := rvArg double (r.c.f.toList.getD (fld r.i 20 5) 0)
def fc (r : RvIns) (double : Bool) : Nat := rvArg double (r.c.f.toList.getD (fld r.i 27 5) 0)
def f3 (r : RvIns) : Nat := fld r.i 12 3
def f7 (r : RvIns) : Nat := fld r.i 25 7
def next (r : RvIns) : Word := r.c.pc + word r.size
def immI (r : RvIns) : Word := wordI (sextN 12 (fld r.i 20 12))
def immS (r : RvIns) : Word := wordI (sextN 12 (r.f7 * 32 + fld r.i 7 5))
def immB (r : RvIns) : Word :=
  wordI (sextN 13 (fld r.i 31 1 * 4096 + fld r.i 7 1 * 2048 + fld r.i 25 6 * 32 + fld r.i 8 4 * 2))
def immU (r : RvIns) : Word := sx32 (word (fld r.i 12 20 * 4096))
def immJ (r : RvIns) : Word :=
  wordI (sextN 21 (fld r.i 31 1 * 2 ^ 20 + fld r.i 12 8 * 4096 + fld r.i 20 1 * 2048 + fld r.i 21 10 * 2))

/-- A result for an integer register, or a floating-point one; flags accrue. -/
def put (r : RvIns) (fp : Bool) (v : Word) (flags : FFlags) (pc : Word) : RvRes :=
  let c := r.c
  let c := if fp then { c with f := c.f.set r.rd.toNat v r.rd.isLt }
    else if r.rd = 0 then c
    else { c with x := c.x.set r.rd.toNat v r.rd.isLt }
  .core { c with fcsr := c.fcsr ||| flags.zeroExtend 64, pc := pc }
def int (r : RvIns) (v : Word) : RvRes := r.put false v 0 r.next
def intIf (r : RvIns) (v : Option Word) : RvRes := match v with | some v => r.int v | none => .trap
def float (r : RvIns) (double : Bool) (v : FRes) : RvRes := r.put true (rvFres double v.bits) v.flags r.next

/-- An access of 2^size bytes. -/
def access (r : RvIns) (k : CcKind) (size : Nat) (addr data : Word) (signed fp : Bool) : RvRes :=
  .mem { core := r.core, lease := r.lease, sub := r.sub, level := r.level, kind := k, aq := false, rl := false
         size := BitVec.ofNat 2 size, addr := addr, data := data, signed := signed, fp := fp, rd := r.rd, next := r.next }

/-- The rounding mode of an instruction, or the dynamic one; 5 and 6 are reserved. -/
def rm (r : RvIns) : Option RMode :=
  let m := if r.f3 = 7 then bits r.c.fcsr 7 5 else r.f3
  if m < 5 then some (rmodeOf m) else none

/-- Loads and stores of both register files. -/
def load (r : RvIns) : RvRes :=
  let a := r.xa + r.immI
  match r.f3 with
  | 0 => r.access .load 0 a 0 true false
  | 1 => r.access .load 1 a 0 true false
  | 2 => r.access .load 2 a 0 true false
  | 3 => r.access .load 3 a 0 true false
  | 4 => r.access .load 0 a 0 false false
  | 5 => r.access .load 1 a 0 false false
  | 6 => r.access .load 2 a 0 false false
  | _ => .trap
def store (r : RvIns) : RvRes := if r.f3 < 4 then r.access .store r.f3 (r.xa + r.immS) r.xb false false else .trap
def floatLoad (r : RvIns) : RvRes :=
  if r.f3 = 2 || r.f3 = 3 then r.access .load r.f3 (r.xa + r.immI) 0 false true else .trap
def floatStore (r : RvIns) : RvRes :=
  if r.f3 = 2 || r.f3 = 3 then r.access .store r.f3 (r.xa + r.immS) (r.c.f.toList.getD (fld r.i 20 5) 0) false false else .trap

/-- The operation of an AMO's funct5. -/
def amoKind (n : Nat) : Option CcKind :=
  match n with
  | 0 => some (.amo .add) | 1 => some (.amo .swap) | 4 => some (.amo .xor) | 8 => some (.amo .or) | 12 => some (.amo .and)
  | 16 => some (.amo .min) | 20 => some (.amo .max) | 24 => some .amominu | 28 => some (.amo .maxu)
  | 3 => some .sc
  | _ => none

def atomic (r : RvIns) : RvRes :=
  let k := if fld r.i 27 5 = 2 then (if fld r.i 20 5 = 0 then some .lr else none) else amoKind (fld r.i 27 5)
  match k with
  | some k =>
    if r.f3 = 2 || r.f3 = 3 then
      match r.access k r.f3 r.xa r.xb true false with
      | .mem a => .mem { a with aq := fld r.i 26 1 == 1, rl := fld r.i 25 1 == 1 }
      | o => o
    else .trap
  | none => .trap

/-- Immediate operations: a shift keeps funct7, of whose lowest bit a 64-bit shift makes its amount. -/
def opImm (r : RvIns) : RvRes :=
  let f6 := r.f7 / 2 * 2
  r.intIf (if r.f3 = 1 || r.f3 = 5 then (if f6 = 0 || (f6 = 0x20 && r.f3 = 5) then rvOp r.f3 f6 r.xa r.immI else none)
    else rvOp r.f3 0 r.xa r.immI)
def opImm32 (r : RvIns) : RvRes :=
  r.intIf (if r.f3 = 0 then rvOp32 0 0 r.xa r.immI
    else if (r.f3 = 1 && r.f7 = 0) || (r.f3 = 5 && (r.f7 = 0 || r.f7 = 0x20)) then rvOp32 r.f3 r.f7 r.xa r.immI else none)

/-- `fflags`, `frm` and `fcsr`, the registers of RV64GC's Zicsr. -/
def csr (r : RvIns) : RvRes :=
  let n := fld r.i 20 12
  let x : Word := if r.f3 < 4 then r.xa else word (fld r.i 15 5)
  let lo := if n = 2 then 5 else 0
  let width := match n with | 1 => 5 | 2 => 3 | _ => 8
  let old : Word := word (r.c.fcsr.toNat / 2 ^ lo % 2 ^ width)
  let new : Word := match r.f3 % 4 with | 1 => x | 2 => old ||| x | _ => old &&& ~~~x
  if !(n == 1 || n == 2 || n == 3) || r.f3 % 4 == 0 then .trap
  else
    let mask : Word := word ((2 ^ width - 1) * 2 ^ lo)
    { r with c := { r.c with fcsr := (r.c.fcsr &&& ~~~mask) ||| ((new <<< lo) &&& mask) } }.int old

/-- The operations of opcode OP-FP. -/
def floatOp (r : RvIns) : RvRes :=
  let d := r.f7 % 4 == 1
  let f := rvFmt d
  let x := r.fa d
  let y := r.fb d
  let k := fld r.i 20 5
  let two (g : RMode → FRes) : RvRes := match r.rm with | some m => r.float d (rvNv f [x, y] (g m)) | none => .trap
  let one (g : RMode → RvRes) : RvRes := match r.rm with | some m => g m | none => .trap
  if 2 ≤ r.f7 % 4 then .trap
  else match r.f7 / 4 with
  | 0x00 => two (fun m => f.add m x y)
  | 0x01 => two (fun m => f.sub m x y)
  | 0x02 => two (fun m => f.mul m x y)
  | 0x03 => two (fun m => f.div m x y)
  | 0x0B => if k = 0 then one (fun m => r.float d (rvNv f [x] (f.sqrt m x))) else .trap
  | 0x04 =>
    let sign (n : Nat) : Bool := n / 2 ^ f.signBit % 2 == 1
    let v (neg : Bool) : RvRes := r.float d (pureRes (f.withSign neg (f.clear x)))
    match r.f3 with
    | 0 => v (sign y)
    | 1 => v (!sign y)
    | 2 => v (sign x != sign y)
    | _ => .trap
  | 0x05 => if r.f3 < 2 then r.float d (rvNv f [x, y] (pureRes (f.minmax (r.f3 == 1) x y))) else .trap
  | 0x08 =>
    let from_ := k == 1
    if k < 2 && d != from_ then
      let g := rvFmt from_
      one (fun m => r.float d (rvNv g [r.fa from_] (g.conv f m (r.fa from_))))
    else .trap
  | 0x14 =>
    let cmp (c : FCond) : RvRes :=
      let v := rvNv f [x, y] (boolRes (f.cmp c x y))
      r.put false (word v.bits) v.flags r.next
    match r.f3 with
    | 0 => cmp .le
    | 1 => cmp .lt
    | 2 => cmp .eq
    | _ => .trap
  | 0x18 =>
    if k < 4 then one (fun m =>
      let (lo, hi) := rvBounds k
      let (v, fl) := rvToInt f m lo hi x
      r.put false (rvIntRes k v) fl r.next)
    else .trap
  | 0x1A => if k < 4 then one (fun m => r.float d (f.ofInt m (rvIntArg k r.xa))) else .trap
  | 0x1C =>
    let raw := r.c.f.toList.getD (fld r.i 15 5) 0
    if k != 0 then .trap
    else match r.f3 with
      | 0 => r.int (if d then raw else sx32 raw)
      | 1 => r.int (word (rvClass f x))
      | _ => .trap
  | 0x1E => if k = 0 && r.f3 = 0 then r.put true (rvFres d r.xa.toNat) 0 r.next else .trap
  | _ => .trap

/-- The fused operations, by their opcode. -/
def fused (r : RvIns) (negP negC : Bool) : RvRes :=
  let d := r.f7 % 4 == 1
  let f := rvFmt d
  match r.rm with
  | some m =>
    if 2 ≤ r.f7 % 4 then .trap
    else r.float d (rvNv f [r.fa d, r.fb d, r.fc d] (f.fma m negP negC (r.fa d) (r.fb d) (r.fc d)))
  | none => .trap

/-- Any instruction of 32 bits. `ECALL` and `EBREAK` go to the environment. -/
def run (r : RvIns) : RvRes :=
  match r.i % 128 with
  | 0x03 => r.load
  | 0x07 => r.floatLoad
  | 0x0F => if r.f3 < 2 then r.access .fence 0 0 0 false false else .trap
  | 0x13 => r.opImm
  | 0x17 => r.int (r.c.pc + r.immU)
  | 0x1B => r.opImm32
  | 0x23 => r.store
  | 0x27 => r.floatStore
  | 0x2F => r.atomic
  | 0x33 => r.intIf (rvOp r.f3 r.f7 r.xa r.xb)
  | 0x37 => r.int r.immU
  | 0x3B => r.intIf (rvOp32 r.f3 r.f7 r.xa r.xb)
  | 0x43 => r.fused false false
  | 0x47 => r.fused false true
  | 0x4B => r.fused true false
  | 0x4F => r.fused true true
  | 0x53 => r.floatOp
  | 0x63 =>
    match rvTaken r.f3 r.xa r.xb with
    | some t => .core { r.c with pc := if t then r.c.pc + r.immB else r.next }
    | none => .trap
  | 0x67 => if r.f3 = 0 then r.put false r.next 0 ((r.xa + r.immI) &&& ~~~1) else .trap
  | 0x6F => r.put false r.next 0 (r.c.pc + r.immJ)
  | 0x73 => r.csr
  | _ => .trap

end RvIns

end Sys2Proof.Machine
end

