-- ==== Sys2Proof/Machine/System.lean ====
section
/-! DEFINITION. System instructions of major 0x0A (R155, R161-R165), but `tret`, which dispatches a held vector
instruction, and `lexit`; and the wakes of `waitev`. -/

namespace Sys2Proof.Machine

/-- Fresh vector state (R106, R164, R191, R287): plots, masks, fronts, `lq`, lengths and the loop context. -/
def Ctx.freshVector (c : Ctx) : Ctx :=
  { c with
    plots := Vector.replicate 64 0, masks := Vector.replicate 16 0, fronts := Vector.replicate 8 front0
    pdirty := 0, lq := [], vl := 0, vstart := 0, loop := loop0, vq := [], vqNext := 0, detach := none }

/-- Whether the context has lane threads that have not ended. -/
def Ctx.threading (c : Ctx) : Bool := c.detach.any (fun d => !d.threads.isEmpty)

/-- The vector queue is empty and no lane thread runs (log 12). -/
def quiet (s : State) : Res Unit := do
  drained s
  if s.ctx.threading then waits s else .ok ()

/-- `syscall`: cause 0x20, `TPC` the next address. -/
def execSyscall (s : State) := settle (do
  legal .frontMiller [] s
  drained s
  .error (.trap s { cause := 0x20, tval := 0, vec := none, after := true }))

/-- `waitev` (R161): the address is checked as a load, then the context sleeps. -/
def execWaitev (d a b : XReg) (s : State) := settle (do
  legal .frontMiller [d, a, b] s
  drained s
  let (r, s1) ← scalarAcc (s.access .scalar .load .strand (s.getX a) 8 .normal)
  let s2 := s1.consume (s1.poisonedAt r.pa 8)
  let t := (s.getX b).toNat
  let w : Wait := { dest := d, line := r.pa / 128, left := if t = 0 then none else some t, hit := false }
  .ok (({ s2 with ctx := { s2.ctx with phase := .asleep, wait := some w } } : State).advance 4).unpass)

/-- A sleeping context wakes with a reason in xd. -/
def State.wakeCtx (s : State) (c : CtxId) (reason : Word) : State :=
  s.updCtx c (fun k =>
    match k.wait with
    | none => k
    | some w => { (k.setX w.dest reason) with phase := .running, wait := none })

/-- `yield` (R162): issue passes to the front end's other context when that one runs. -/
def execYield (s : State) := settle (do
  legal .frontMiller [] s
  drained s
  let s := s.advance 4
  .ok (if s.siblingRuns s.ctx then { s.unpass with ctx := { s.ctx with passed := true } } else s))

/-- `exit` (R163, R301, R318): a nonzero `CKI` is told to S, and the context drains. -/
def execExit (s : State) := settle (do
  legal .frontMiller [] s
  quiet s
  let c := s.ctx
  let s := if c.cki = 0 then s
    else s.addRecord 1 c.lease c.sub
      (s.noticeWords (State.header 0x0A 0 c.lease c.sub c.self.toNat) c.cki c.cki 0 c.lease)
  .ok (s.unpass.endCtx c.id))

/-- `vrelease` (R164). -/
def execVrelease (s : State) := settle (do
  legal .front [] s
  quiet s
  let s := s.advance 4
  let s := ({ s with ctx := { s.ctx.freshVector with unit := false } } : State).unpass
  .ok (s.arrange s.ctx.core))

/-- `chkerr` (R165): on a Miller it waits for the Mill. Whether an older `vdetach` is done before its lane threads are the spec leaves
open: `chkerr` does not wait for the threads (log 12). -/
def execChkerr (d : XReg) (s : State) := settle (do
  legal .frontMiller [d] s
  drained s
  if s.ctx.isMiller && !(s.mill s.ctx.cluster).ops.isEmpty then waits s
  else .ok (({ s with ctx := { s.ctx with cki := 0 } } : State).setX d s.ctx.cki |>.advance 4))

/-- A write to the watched line wakes the context with reason 0. -/
def execWaitevWake (s : State) : Host.Outcome State Fault Refusal :=
  match s.arg with
  | .ctx c =>
    match s.findCtx c with
    | some k => .next (if k.phase == .asleep && k.wait.any (fun w => w.hit) then s.wakeCtx c 0 else s)
    | none => .next s
  | _ => .next s

/-- The timeout elapses and wakes the context with reason 1. -/
def execWaitevTimeout (s : State) : Host.Outcome State Fault Refusal :=
  match s.arg with
  | .ctx c =>
    match s.findCtx c with
    | some k => .next (if k.phase == .asleep && k.wait.any (fun w => w.left == some 0) then s.wakeCtx c 1 else s)
    | none => .next s
  | _ => .next s

end Sys2Proof.Machine
end

