-- ==== Sys2Proof/Machine/Fetch.lean ====
section
/-! DEFINITION. Fetching an instruction (R25, R126, R127, R142, R317), and giving a word to the machine's next
fetch. -/

namespace Sys2Proof.Machine

/-- What a fetch answers: a trap at the instruction, the end of the context by a poisoned parcel, a wait for a
unit, or an encoding with its length in bytes. -/
inductive Fetched
  | trap (s : State) (cause : Nat) (tval : Word)
  | poison (s : State)
  | wait (s : State)
  | word (s : State) (enc : Nat) (size : Nat)
deriving DecidableEq, Repr

namespace State

/-- One parcel through the L2, where errors are found (R322, R323): its device physical address. It waits for a unit that
owns its line (R46, R290). -/
def parcelAt (s : State) (a : Word) : ARes (Nat × State) := do
  let w := s.ctx.who
  let (e, s) ← s.checked w s.ctx .scalar .fetch .strand 4 a 4
  let pa := e.phys a
  if s.ownedLine (pa / 128) false then .error (.wait s)
  else match s.detectLine w (pa / 128) with
    | .error s => .error (.wait s)
    | .ok s => .ok (pa, s.touch w .l2 (pa / 128) false false .no)

/-- Fetches the instruction at an address. Of a 64-bit instruction a fault of the second parcel reports that
parcel's address (R126). -/
def fetchAt (s : State) (pc : Word) : Fetched :=
  match s.parcelAt pc with
  | .error (.fault s f) => .trap s f.cause f.tval
  | .error (.wait s) => .wait s
  | .ok (p1, s) =>
    if s.poisonedAt p1 4 then .poison s
    else
      let lo := s.mem.num p1 4
      if !isVectorParcel lo then .word s lo 4
      else match s.parcelAt (pc + 4) with
        | .error (.fault s f) => .trap s f.cause f.tval
        | .error (.wait s) => .wait s
        | .ok (p2, s) =>
          if s.poisonedAt p2 4 then .poison s
          else .word s (lo + s.mem.num p2 4 * 2 ^ 32) 8

/-- The executing agent's next instruction, or the breakpoint at its address (R345); a member of a convoy has been fetched
with its header (R373). -/
def fetch (s : State) : Fetched :=
  if s.lane.isNone && s.ctx.breaks.contains s.pc then .trap s 0x21 s.pc
  else match s.lane, s.ctx.convoy with
    | none, m :: _ => .word s m.toNat 8
    | _, _ => s.fetchAt s.pc

/-! Time and lane threads, as turns use them. -/

/-- Instructions a context executes in a row when nothing else says who moves (log 2). -/
def turnLength : Nat := 64

/-- A lane thread has completed one more instruction. -/
def countLane (s : State) (c : CtxId) (e : Nat) : State :=
  let upd (d : Detach) : Detach :=
    { d with threads := updateWhere (fun t => t.elem == e) (fun t => { t with count := t.count + 1 }) d.threads }
  s.updCtx c (fun k => { k with detach := k.detach.map upd })

/-- The running lane thread stands at its 65,536th instruction, and that is not `lexit` (R229). -/
def overLimit (s : State) : Bool :=
  match s.thread? with
  | none => false
  | some t => decide (65535 ≤ t.count) && (match s.fetch with | .word _ enc _ => enc != 0x28000007 | _ => false)

/-- Registers that an instruction of a lane thread reads. -/
def laneReads (i : Instr) : List XReg :=
  match i with
  | .add _ a b | .sub _ a b | .and _ a b | .or _ a b | .xor _ a b | .sll _ a b | .srl _ a b | .sra _ a b | .slt _ a b
  | .sltu _ a b | .min _ a b | .max _ a b | .minu _ a b | .maxu _ a b | .mul _ a b | .mulh _ a b | .mulhu _ a b
  | .div _ a b | .divu _ a b | .rem _ a b | .remu _ a b => [a, b]
  | .clz _ a | .ctz _ a | .popc _ a | .addi _ a _ | .andi _ a _ | .ori _ a _ | .xori _ a _ | .slli _ a _ | .srli _ a _
  | .srai _ a _ | .jalr _ a _ => [a]
  | .fadd _ _ a b | .fsub _ _ a b | .fmul _ _ a b | .fdiv _ _ a b | .fmin _ _ a b | .fmax _ _ a b | .fcmpEq _ _ a b
  | .fcmpLt _ _ a b | .fcmpLe _ _ a b => [a, b]
  | .fsqrt _ _ a | .fcvtToI64 _ _ a | .fcvtFromI64 _ _ a | .fcvtFpFp _ _ a | .fmv _ _ a | .fneg _ _ a | .fabs _ _ a => [a]
  | .ffma _ _ a b c | .ffms _ _ a b c | .ffnma _ _ a b c | .ffnms _ _ a b c => [a, b, c]
  | .beq a b _ | .bne a b _ | .blt a b _ | .bge a b _ | .bltu a b _ | .bgeu a b _ => [a, b]
  | .ldB _ a _ _ | .ldH _ a _ _ | .ldW _ a _ _ | .ldD _ a _ _ | .ldBu _ a _ _ | .ldHu _ a _ _ | .ldWu _ a _ _ => [a]
  | .ldBAcq _ a _ _ _ | .ldHAcq _ a _ _ _ | .ldWAcq _ a _ _ _ | .ldDAcq _ a _ _ _ | .ldBuAcq _ a _ _ _
  | .ldHuAcq _ a _ _ _ | .ldWuAcq _ a _ _ _ => [a]
  | .stB d a _ _ | .stH d a _ _ | .stW d a _ _ | .stD d a _ _ | .stBRel d a _ _ _ | .stHRel d a _ _ _ | .stWRel d a _ _ _
  | .stDRel d a _ _ _ => [d, a]
  | .amoswap _ a b _ _ _ | .amoadd _ a b _ _ _ | .amoand _ a b _ _ _ | .amoor _ a b _ _ _ | .amoxor _ a b _ _ _
  | .amomin _ a b _ _ _ | .amomax _ a b _ _ _ | .amomaxu _ a b _ _ _ => [a, b]
  | .cas d a b _ _ _ => [d, d + 1, a, b]
  | _ => []

/-- The running lane thread's next instruction reads a register with an uncorrectable error, as poison (R321). -/
def laneConsumes (s : State) : Bool :=
  !s.myCore.fieldErr.isEmpty && (match s.fetch with
    | .word _ enc _ => (match decodeWord enc with | .ok i => (laneReads i).any s.laneBad | .error _ => false)
    | _ => false)

/-- Threads of one lane run one after another, in rising order of their elements (R228). -/
def laneFirst (s : State) (e : Nat) : Bool :=
  s.ctx.detach.any (fun d => d.threads.all (fun t => t.elem % 64 != e % 64 || decide (e ≤ t.elem)))

/-- A lane thread that has not ended. -/
def someLane (s : State) : Option (CtxId × Nat) :=
  (s.ctxs.find? (fun k => k.present && k.threading)).bind (fun k =>
    (k.detach.bind (fun d => d.threads.head?)).map (fun t => (k.id, t.elem)))

/-- Board time passes (R348): timeouts of `waitev` run down, and slot boundaries fall due (R343). -/
def tick (s : State) (n : Nat) : State :=
  let s := { s with time := s.time + word n }
  let run (k : Ctx) : Ctx := { k with wait := k.wait.map (fun w => { w with left := w.left.map (fun t => t - n) }) }
  let s := s.mapCtxs (fun k => k.phase == .asleep) run
  let due := s.ctxs.filter (fun k => k.phase == .asleep && k.wait.any (fun w => w.left == some 0))
  let s := due.foldl (fun s k => s.post .waitevTimeout (.ctx k.id)) s
  (List.range 4).foldl (fun s d =>
    let d := BitVec.ofNat 2 d
    if (s.die d).slotEnd.toNat ≤ s.time.toNat && !s.pend.contains (.slotBoundary, .die d) then
      s.post .slotBoundary (.die d)
    else s) s

/-- Clock cycles pass: `CYCLE` of placed contexts, the count of cycles placed (R159, R353), and the waiting time of
nests in the pool (R298). -/
def cycles (s : State) (n : Nat) : State :=
  let placed (k : Ctx) : Bool := k.present
  let s := s.mapCtxs placed (fun k => { k with cycle := k.cycle + word n })
  let s := { s with nests := updateWhere (fun x => x.inPool) (fun x => { x with waited := x.waited + n }) s.nests }
  let s := (s.nests.filter (fun x => x.inPool && !x.raised && decide (2 ^ 16 < x.waited))).foldl
    (fun s x => s.post .priorityAging (.nest x.die x.id)) s
  (s.ctxs.filter (fun k => placed k && !k.isMiller)).foldl (fun s k => s.count k.core k.fe 0x01 n) s

/-! Giving the machine an instruction. -/

/-- Where a context of the model's own making finds its code. -/
def codeBase : Nat := 0x100000

/-- Both stages map addresses 0 to 2^29 - 1 to themselves, ordinary, all permissions: table pages at 64, 128, 192
and 256 KiB. -/
def identityTables (m : Memory) : Memory :=
  let ptr (a : Nat) : Nat := 0xC000000000000000 + a
  let leaf : Nat := 0x80000000000001E0
  (((m.setNum 0x10000 8 (ptr 0x20000)).setNum 0x20000 8 leaf).setNum 0x30000 8 (ptr 0x40000)).setNum 0x40000 8 leaf

/-- A lease and a sublease under which such a context runs. -/
def loadLease : Lease :=
  { num := 1, roots := Vector.replicate 4 0x10000, offset := 0, tolerance := 0, queue := none, cores := [0], mills := [0]
    ccs := [], vqueues := Vector.replicate 16 0, pausedAt := none }

def loadSub : Sub :=
  { lease := 1, num := 1, root := 0x30000, cores := [0], pipes := [(0, 0xFF)], mills := [0], vqueues := Vector.replicate 16 0
    quota := 64, cap := 0, urn := 64, ldm := 0, ldmClear := Vector.replicate 4 0, queue := none, window := none }

/-- The agent that may run a word: a Miller for major 0x2E, a lane thread for `lexit`, else a front end. -/
def loadCtx (w : Nat) : Ctx :=
  let c : Ctx := { ctx0 with
    phase := .running, lease := 1, sub := 1, pc := word codeBase, unit := true
    self := if fld w 26 6 = 0x2E then 0x400 else 0 }
  if w = 0x28000007 then
    let t : LaneThread := { elem := 0, pc := word codeBase, count := 0 }
    let d : Detach := { va := 0, nt := 1, threads := [t], faults := [] }
    { c with detach := some d }
  else c

/-- A context, its lease, its tables and its pipes, with nothing else changed. -/
def loadPlace (s : State) (w : Nat) : State :=
  let r := s.reeve
  let s := { s with
    ctx := loadCtx w, lane := none, mem := identityTables s.mem
    tlb := [], walks := [], reeve := { r with leases := loadLease :: r.leases, subs := loadSub :: r.subs } }
  (s.modMyFe (fun f => { f with pipeown := 0xFF }))

/-- The next turn is this context's, or its lane thread's. -/
def loadTurn (s : State) (w : Nat) : State :=
  { s with yielded := 0
           agenda := [if w = 0x28000007 then .lane s.ctx.id 0 else .run s.ctx.id] }

end State

end Sys2Proof.Machine
end

