-- ==== Sys2Proof/Machine/Engine.lean ====
section
/-! DEFINITION. Engine commands that copy, and pots: descriptors (R85, R86, R252), `cpy` (R253), `cpydrain` (R254),
`mcast` (R51, R256), pot commands (R52, R53, R257, R369), the issue point and the retirement of an operation
(R44-R47). -/

namespace Sys2Proof.Machine

/-! What every command does first (R251). -/

/-- Legal on a front end, and held back by R153. -/
def command (rs : List XReg) (s : State) : Res Unit := do
  legal .front rs s
  drained s

/-- Words of an aligned block read as loads; a marked word reads 0 and is counted (log 25). -/
def readBlock (s : State) (va : Word) (n : Nat) : Res (List Word × State) :=
  foldE (fun (st : List Word × State) i => do
    let (v, s') ← scalarAcc (st.2.load .engine (va + word (8 * i)) 8 .normal)
    .ok (st.1 ++ [word (v.getD 0)], s'.consume v.isNone)) (([], s) : List Word × State) (List.range n)

/-! Descriptors. -/

/-- Smallest and largest byte offsets from the base (R86, check 5), the largest exclusive. -/
def descSpan (d : List Word) : Int × Int :=
  let grp := descIsGroup d
  let bs := descBs d
  let term (k : Nat) : Int := ((descExtent d k : Int) - 1) * descStride d k
  let dims := (List.range (descRank d + 1)).filter (fun k => !(grp && k == 0))
  let z : Int := if grp then ((descExtent d 0 / bs * groupBytes (descEnc d = 7) bs : Nat) : Int) else (encSize (descEnc d) : Nat)
  (dims.foldl (fun a k => a + min 0 (term k)) 0, dims.foldl (fun a k => a + max 0 (term k)) 0 + z)

/-- The checks of R86. -/
def descOk (d : List Word) : Bool :=
  let w (i : Nat) : Word := d.getD i 0
  let n := descRank d + 1
  let dims := List.range n
  let grp := descIsGroup d
  let z : Int := encSize (descEnc d)
  let orders := dims.map (descOrder d)
  let zeros := bits (w 0) 57 55 == 0 && bits (w 1) 63 55 == 0 && bits (w 2) 63 48 == 0 && bits (w 3) 55 2 == 0 &&
    (List.range 4).all (fun k => decide (k < n) || (descOrder d k == 0 && w (4 + k) == 0))
  let sizes := decide ((descBase d : Int) % z = 0) && dims.all (fun k => decide (descStride d k % z = 0)) &&
    (if grp then descStride d 0 == 0 && decide (bits (w 3) 1 0 ≤ 2) && decide (descExtent d 0 % descBs d = 0)
     else bits (w 3) 1 0 == 0)
  let (lo, hi) := descSpan d
  let alloc : Int := (bits (w 1) 54 0 : Nat)
  let len : Int := (bits (w 2) 47 0 : Nat)
  decide (1 ≤ descEnc d) && decide (descEnc d ≤ 10) && zeros && dims.all (fun k => orders.contains k) &&
  dims.all (fun k => decide (1 ≤ descExtent d k)) && decide (1 ≤ len) && sizes &&
  decide (alloc ≤ (descBase d : Int) + lo) && decide ((descBase d : Int) + hi ≤ alloc + len)

/-- `tdesc` (R252). -/
def execTdesc (a : XReg) (k : BitVec 4) (s : State) := settle (do
  command [a] s
  let va := s.getX a
  check (decide (va.toNat % 64 = 0)) s 0x04 va
  let (d, s) ← readBlock s va 8
  check (descOk d) s 0x1C va
  .ok (({ s with ctx := { s.ctx with descs := insertN k.toNat d s.ctx.descs } } : State).advance 4))

/-! Issuing an operation. -/

/-- For whom an operation's accesses are made. -/
def EngineOp.who (o : EngineOp) : Who :=
  { lease := o.lease, sub := o.sub, die := o.ctx.extractLsb' 8 2, via := .core o.core }

namespace State

/-- The parts of [va, va+n) in the stash mappings of a core: front end, mapping, first byte of the mapping, length. -/
def stashParts (s : State) (core : Nat) (va : Word) (n : Nat) : List (Bool × StashMap × Nat × Nat) :=
  let c := s.core core
  let part (f : Bool) (m : StashMap) : Option (Bool × StashMap × Nat × Nat) :=
    let lo := max va.toNat m.addr.toNat
    let hi := min (va.toNat + n) (m.addr.toNat + m.len)
    if lo < hi then some (f, m, lo - m.addr.toNat, hi - lo) else none
  c.fe0.maps.filterMap (part false) ++ c.fe1.maps.filterMap (part true)

/-- The lines of [va, va+n) that stand in stash mappings of a core, each with its path (R42). -/
def stashPaths (s : State) (core : Nat) (w : Who) (va : Word) (n : Nat) : List (Nat × Path) :=
  (s.stashParts core va n).flatMap (fun (f, m, lo, len) =>
    (List.range ((lo + len - 1) / 128 + 1 - lo / 128)).filterMap (fun i =>
      let idx := lo / 128 + i
      let a := m.addr + word (128 * idx)
      let path (e : Tlb) : Nat × Path := (e.phys a / 128, .stash core f m.off idx e)
      match m.lines.find? (fun l => l.idx == idx) with
      | some l => some (path l.entry)
      | none =>
        match s.translate w .load a (fun _ => none) with
        | .ok (e, _) => some (path e)
        | .error _ => none))

/-- Every range of an operation by R25: sources as loads, then destinations as stores (R251, log 26). -/
def checkChunks (s : State) (k : EngKind) : ARes (List (Nat × Nat) × List (Nat × Nat) × State) := do
  let one (kind : Acc) (st : List (Nat × Nat) × State) (r : Word × Nat) : ARes (List (Nat × Nat) × State) := do
    let (ps, s) ← st.2.rangeCheck .engine kind r.1 r.2
    .ok (st.1 ++ ps, s)
  let (src, s) ← foldE (one .load) (([], s) : List (Nat × Nat) × State) (k.chunks.map (fun c => (c.src, c.len)))
  let (dst, s) ← foldE (one .store) (([], s) : List (Nat × Nat) × State) (k.chunks.map (fun c => (c.dst, c.len)))
  .ok (dst, src, s)

/-- Lines under pieces. -/
def pieceLines (ps : List (Nat × Nat)) : List Nat := (ps.flatMap (fun p => linesOf p.1 p.2)).dedup

def overlap (a b : List Nat) : Bool := a.any (fun l => b.contains l)

/-- Lines of some elements of a stream, as the context that configured it reaches them. -/
def elemLines (s : State) (t : Stream) (k : Acc) (js : List Nat) : List Nat :=
  match s.findCtx t.ctx with
  | none => []
  | some c => js.filterMap (fun j =>
      match s.translate c.who k (t.addr j) (fun _ => none) with
      | .ok (e, _) => some (e.phys (t.addr j) / 128)
      | .error _ => none)

/-- The elements that a stream has still to store for vector instructions older than a command. -/
def Stream.unstored (t : Stream) (id : Nat) : List Nat :=
  if !t.output then []
  else ((List.range t.ahead.length).filter (fun i => (t.ahead[i]?).any (fun x => !x.skip && decide (x.stamp ≤ id)))).map
    (fun i => t.pos - t.ahead.length + i)

/-- The elements that a stream older than a command has still to fetch. -/
def Stream.unfetched (t : Stream) (id : Nat) : List Nat :=
  if t.output || decide (id < t.stamp) then []
  else (List.range (t.counts.foldl (· * ·) 1)).drop (t.pos + t.ahead.length)

/-- The stream transfers of a core that stand before a command of it (R45, R47): one has still to store a line that the command
reads or writes, or to fetch one that it writes. -/
def streamBefore (s : State) (id core : Nat) (owns holds : List Nat) : Bool :=
  let x := s.core core
  (x.fe0.streams ++ x.fe1.streams).any (fun q =>
    (s.elemLines q.2 .store (Stream.unstored q.2 id)).any (fun l => owns.contains l || holds.contains l) ||
    (s.elemLines q.2 .load (Stream.unfetched q.2 id)).any owns.contains)

/-- A collective that has not ended stands before a command of its core, with a line of its own (R45). -/
def collBefore (s : State) (id core : Nat) (ls : List Nat) : Bool :=
  s.colls.any (fun c => decide (c.id < id) && (c.ctx.extractLsb' 2 8).toNat == core &&
    (match c.state with | .ended _ => false | _ => true) && overlap c.lines ls)

/-- An operation stands before a command of its core, where one writes what the other reads or writes (R45). -/
def opBefore (s : State) (id core : Nat) (owns holds : List Nat) : Bool :=
  s.ops.any (fun p => decide (p.id < id) && p.core == core &&
    (overlap owns p.owns || overlap owns p.holds || overlap holds p.owns))

/-- An older command of the core that has not retired conflicts (R45), an older access of the strand is not performed (R47),
or another unit has a line (R46). -/
def opBlocked (s : State) (o : EngineOp) : Bool :=
  s.opBefore o.id o.core o.owns o.holds || s.collBefore o.id o.core (o.owns ++ o.holds) ||
  s.streamBefore o.id o.core o.owns o.holds ||
  o.owns.any (fun l => s.ownedLine l true) || o.holds.any (fun l => s.ownedLine l false)

/-- Errors of the L2 met by the lines of an operation, which must be contained first (R323). -/
def detectLines (s : State) (w : Who) (ls : List Nat) : Except State State := foldE (fun (s : State) l => s.detectLine w l) s ls

/-- Whether each byte under pieces is marked (R316). -/
def markBytes (s : State) (ps : List (Nat × Nat)) : List Bool :=
  if s.poison.isEmpty then []
  else ps.flatMap (fun p => (List.range p.2).map (fun i => s.poison.contains ((p.1 + i) / 8)))

/-- Words that receive a marked byte are marked (R317). -/
def addMarks (s : State) (ps : List (Nat × Nat)) (marks : List Bool) : State :=
  if !marks.any id then s
  else
    let addrs := ps.flatMap (fun p => (List.range p.2).map (fun i => p.1 + i))
    let ws := ((addrs.zip marks).filter Prod.snd).map (fun p => p.1 / 8)
    { s with poison := (ws.filter (fun a => !s.poison.contains a)).dedup ++ s.poison }

/-- Bytes move from pieces to pieces, all read before any is written. -/
def moveBytes (s : State) (src dst : List (Nat × Nat)) : State :=
  let bs := s.readPieces src
  let marks := s.markBytes src
  (s.writePieces none dst bs).addMarks dst marks

/-- The lines of an operation are reached in the core's stash where it maps them, else through the L2; copies elsewhere are
recalled (R42, R46). -/
def touchOp (s : State) (o : EngineOp) : State :=
  let whole (l : Nat) : Bool := o.dst.any (fun p => decide (p.1 ≤ l * 128) && decide (l * 128 + 128 ≤ p.1 + p.2))
  let paths := o.kind.chunks.flatMap (fun c => s.stashPaths o.core o.who c.src c.len ++ s.stashPaths o.core o.who c.dst c.len)
  let path (l : Nat) : Path := (lookupN l paths).getD .l2
  let s := o.holds.foldl (fun s l => s.touch o.who (path l) l false false .no) s
  o.owns.foldl (fun s l => s.touch o.who (path l) l true (whole l) .no) s

end State

/-- The arrivals of a multicast: target core of the cluster and number (R256). -/
def EngKind.arrivals (k : EngKind) : List (Nat × Nat) :=
  match k with
  | .mcast _ _ len targets _ =>
    let ts := (List.range 4).filter (fun t => targets.getLsbD t)
    (List.range (ceilDiv len 2048)).flatMap (fun i => ts.map (fun t => (t, i)))
  | .cpy _ _ _ | .dsrc _ _ _ _ | .ddst _ _ _ _ => []

namespace State

/-- The issue point (R46): the operation holds all its lines, and at once its data moves. A unit in the way leaves
it for a later turn. -/
def issueOp (s : State) (o : EngineOp) : State :=
  let again (s : State) : State := s.post .engineIssuePoint (.op o.id)
  if s.opBlocked o then again s
  else match s.detectLines o.who (o.holds ++ o.owns) with
    | .error s => again s
    | .ok s =>
      let s := (s.touchOp o).moveBytes o.src o.dst
      let arr := o.kind.arrivals
      let s := { s with ops := updateWhere (fun p => p.id == o.id) (fun p => { p with issued := true, arrivals := arr }) s.ops }
      if arr.isEmpty then s.post .engineRetire (.op o.id) else s.post .mcastArrival (.op o.id)

/-- A command handed to the core's engines: its ranges are checked, its stash ranges recorded in one entry of the scoreboard
(R44, log 67), and it starts at once unless something is in its way. The command queue has room for it (log 68). -/
def giveEngine (s : State) (k : EngKind) : Res State := do
  let (dst, src, s1) ← scalarAcc (s.checkChunks k)
  let c := s1.ctx
  let parts := k.chunks.flatMap (fun h => s1.stashParts c.core h.src h.len ++ s1.stashParts c.core h.dst h.len)
  if !parts.isEmpty && decide (32 ≤ s1.myCore.board.length) then waits s
  else
    let (id, s2) := s1.fresh
    let o : EngineOp := { id := id, ctx := c.id, lease := c.lease, sub := c.sub, core := c.core, kind := k, issued := false
                          dst := dst, src := src, owns := pieceLines dst, holds := pieceLines src, arrivals := [] }
    let entry : SbEntry := { op := .engine id, ranges := parts.map (fun (_, m, lo, len) => (m.off + lo, len)) }
    let s3 := s2.modCore c.core (fun x => { x with board := x.board ++ if parts.isEmpty then [] else [entry] })
    .ok (({ s3 with ops := s3.ops ++ [o] } : State).issueOp o)

end State

/-- The operation that a step's argument names. -/
def State.argOp (s : State) : Option EngineOp :=
  match s.arg with
  | .op id => s.ops.find? (fun o => o.id == id)
  | _ => none

def execEngineIssuePoint (s : State) : Host.Outcome State Fault Refusal :=
  match s.argOp with
  | some o => .next (if o.issued then s else s.issueOp o)
  | none => .next s

/-- Retirement (R44): nothing of it is outstanding; its lines and its scoreboard entries are released. -/
def execEngineRetire (s : State) : Host.Outcome State Fault Refusal :=
  match s.argOp with
  | some o =>
    if o.issued && o.arrivals.isEmpty then
      let s := s.modCore o.core (fun x => { x with board := x.board.filter (fun e => e.op != .engine o.id) })
      .next { s with ops := s.ops.filter (fun p => p.id != o.id) }
    else .next s
  | none => .next s

/-! Copies. -/

/-- `cpy`, form 0 (R253). -/
def execCpy (d a b : XReg) (s : State) := settle (do
  command [d, a, b] s
  let n := (s.getX b).toNat
  check (decide (n ≤ 0x1000000)) s 0x02 (s.getX b)
  if n = 0 then .ok (s.advance 4)
  else
    let s ← s.giveEngine (.cpy (s.getX d) (s.getX a) n)
    .ok (s.advance 4))

/-- What forms 1 and 2 demand of slot, index and count (R253). -/
def walkOk (desc : List Word) (i n : Nat) : Bool :=
  decide (i + n ≤ descTotal desc) && decide (n ≤ 2 ^ 24) &&
  (!descIsGroup desc || (descOrder desc 0 == 0 && decide (i % descBs desc = 0) && decide (n % descBs desc = 0)))

def cpyWalk (k : BitVec 4) (ix b : XReg) (mk : List Word → Nat → Nat → EngKind) (s : State) : Res State := do
  let i := s.getX ix
  let n := (s.getX b).toNat
  if n = 0 then .ok (s.advance 4)
  else match lookupN k.toNat s.ctx.descs with
    | none => raise s 0x02 i
    | some desc =>
      check (walkOk desc i.toNat n) s 0x02 i
      let s ← s.giveEngine (mk desc i.toNat n)
      .ok (s.advance 4)

def execCpyDsrc (d a b : XReg) (k : BitVec 4) (s : State) := settle (do
  command [d, a, b] s
  cpyWalk k a b (fun desc i n => .dsrc desc (s.getX d) i n) s)

def execCpyDdst (d a b : XReg) (k : BitVec 4) (s : State) := settle (do
  command [d, a, b] s
  cpyWalk k d b (fun desc i n => .ddst desc i (s.getX a) n) s)

/-- `cpydrain` (R254): every copy and multicast of the context has retired; at `.system` their bytes of the fabric window are
at their home, and it acts as an acquire (R280). -/
def execCpydrain (sc : Scope) (s : State) := settle (do
  command [] s
  if s.ops.any (fun o => o.ctx == s.ctx.id) then waits s
  else .ok (((if sc == .system then s.fabricClean s.ctx.die else s).acquire (some sc)).advance 4))

/-! Pots (R52, R53). -/

def potState (w : Word) : Nat := bits w 63 62
def potBytes (w : Word) : Nat := bits w 35 0

/-- Words 0 and 1 after an addition. -/
def potSum (w0 w1 : Word) (count : Nat) : Word × Word :=
  let st := potState w0
  let sum := potBytes w1 + count
  let past := decide (2 ≤ st) || decide (potBytes w0 < sum)
  let st' := if 2 ≤ st then st else if potBytes w0 < sum then 2 else if sum = potBytes w0 then 1 else st
  let arr := if past then min sum (2 ^ 36 - 1) else sum
  (word (st' * 2 ^ 62 + w0.toNat % 2 ^ 62), word (w1.toNat / 2 ^ 36 * 2 ^ 36 + arr))

namespace State

/-- A pot's address, page and, for an addition at a scope, atomic support (R52, R257, R369). -/
def potCheck (s : State) (w : Who) (sc : Option Scope) (pot : Word) : ARes (Nat × State) := s.ordinaryCheck w .atomic sc 64 pot

/-- A pot's home is reached for a sublease (R34, R53, R323), uncached where it lies on another device (R280): the state waits where
another unit owns the line, or an error of the L2 is to be contained first. -/
def potReach (s : State) (w : Who) (pa : Nat) (owned : Bool) : Except State State :=
  if owned then .error s
  else (s.detectLine w (pa / 128)).map (fun s => s.touch w (if isFabric pa then .uncached else .l2) (pa / 128) true false .no)

/-- A pot word, or where it is marked a value that nothing constrains, with State overrun in word 0 (R317, log 8). -/
def potWord (s : State) (pa : Nat) (first : Bool) : Word × State :=
  if s.poisonedAt pa 8 then
    let (v, s) := s.free
    (if first then (v &&& 0x3FFFFFFFFFFFFFFF) ||| 0x8000000000000000 else v, s)
  else (word (s.mem.num pa 8), s)

/-- `CKI`.Engine of a context whose engine met poison (R317). -/
def enginePoison (s : State) (c : CtxId) (bad : Bool) : State := if bad then s.updCtx c (fun k => k.addCki 2) else s

/-- One addition at a pot's device physical address (R53); a marked pot acts as overrun and is written whole. -/
def potPut (s : State) (pa count : Nat) : State :=
  let bad := s.poisonedAt pa 16
  let (w0, s) := s.potWord pa true
  let w0 := if bad then (w0 &&& 0x3FFFFFFFFFFFFFFF) ||| 0x8000000000000000 else w0
  let (w1, s) := s.potWord (pa + 8) false
  let (v0, v1) := potSum w0 w1 count
  s.putBytes none pa (leBytes 8 v0.toNat ++ leBytes 8 v1.toNat)

/-- An addition made for a context. -/
def potAddAt (s : State) (c : CtxId) (pa count : Nat) : State :=
  (s.potPut pa count).enginePoison c (s.poisonedAt pa 16)

/-- A peer abort (R53, R263). -/
def potAbortAt (s : State) (pa : Nat) : State :=
  let w0 := s.mem.num pa 8
  s.putBytes none pa (leBytes 8 (w0 % 2 ^ 62 + 3 * 2 ^ 62))

end State

/-- `potinit` (R257). -/
def execPotinit (a b : XReg) (s : State) := settle (do
  command [a, b] s
  let pot := s.getX a
  let n := (s.getX b).toNat
  let (_, s) ← scalarAcc (s.potCheck s.ctx.who none pot)
  check (decide (n < 2 ^ 36)) s 0x02 (s.getX b)
  let (r, s) ← scalarAcc (s.access .engine .store .strand pot 64 .normal)
  let w0 := if n = 0 then 2 ^ 62 else n
  .ok ((s.putBytes (some s.ctx.id) r.pa (leBytes 64 w0)).advance 4))

/-- `potadd` (R257): a release at its scope. -/
def execPotadd (sc : Scope) (a b : XReg) (s : State) := settle (do
  command [a, b] s
  let pot := s.getX a
  let n := (s.getX b).toNat
  let (_, s) ← scalarAcc (s.potCheck s.ctx.who (some sc) pot)
  check (decide (n < 2 ^ 36)) s 0x02 s.enc
  let s ← release (some sc) s
  let (r, s) ← scalarAcc (s.reach .engine .atomic sc pot 64)
  match s.potReach s.ctx.who r.pa (s.ownedLine (r.pa / 128) true) with
  | .error s => waits s
  | .ok s => .ok ((s.potAddAt s.ctx.id r.pa n).advance 4))

/-- `potwait` (R257): it waits while the pot is pending; an acquire at its scope. -/
def execPotwait (sc : Scope) (d a : XReg) (s : State) := settle (do
  command [d, a] s
  let pot := s.getX a
  let (_, s) ← scalarAcc (s.potCheck s.ctx.who none pot)
  let (r, s') ← scalarAcc (s.access .engine .load .strand pot 64 .normal)
  let bad := s'.poisonedAt r.pa 16
  let (w0, s') := s'.potWord r.pa true
  let w0 := if bad then (w0 &&& 0x3FFFFFFFFFFFFFFF) ||| 0x8000000000000000 else w0
  let (w1, s') := s'.potWord (r.pa + 8) false
  if potState w0 = 0 then waits s
  else
    let s' := s'.enginePoison s'.ctx.id bad
    .ok (((s'.setX d (word (potState w0 * 2 ^ 62 + potBytes w1))).advance 4).acquire (some sc)))

/-- An addition on its way reaches the pot (R53, R369); one whose pot can no longer be reached adds nothing. -/
def execPotAddition (s : State) : Host.Outcome State Fault Refusal :=
  match s.arg with
  | .pot p =>
    let w : Who := { lease := p.lease, sub := p.sub, die := p.die }
    let again (s : State) : State := s.post .potAddition (.pot p)
    match s.potCheck w (some p.scope) p.pot with
    | .error (.fault s _) => .next s
    | .error (.wait s) => .next (again s)
    | .ok (pa, s) =>
      .next (match s.potReach w pa (s.ownedLine (pa / 128) true) with
        | .error s => again s
        | .ok s => s.potAddAt p.ctx pa p.count.toNat)
  | _ => .next s

/-! Multicast (R51, R256). -/

def execMcast (d a n : XReg) (s : State) := settle (do
  command [d, a, n] s
  let v := s.getX n
  let pot := s.getX (pairNext n)
  let len := bits v 23 0
  let tgt : BitVec 4 := v.extractLsb' 32 4
  check (tgt != 0 && len != 0 && decide (len ≤ 0x800000) && bits v 63 36 == 0 && bits v 31 24 == 0) s 0x02 v
  let s ← if pot = 0 then .ok s else (scalarAcc (s.potCheck s.ctx.who (some .cluster) pot)).map Prod.snd
  let s ← s.giveEngine (.mcast (s.getX d) (s.getX a) len tgt pot)
  .ok (s.advance 4))

/-- One arrival at one target: the lines it covers enter the target's stash, then its count is on its way. -/
def execMcastArrival (s : State) : Host.Outcome State Fault Refusal :=
  match s.argOp with
  | none => .next s
  | some o =>
    match o.kind, o.arrivals with
    | .mcast dst _ len _ pot, (t, i) :: rest =>
      let n := min 2048 (len - 2048 * i)
      let target := o.core / 4 * 4 + t
      let mine := s.ctxs.any (fun k => k.present && !k.isMiller && k.core == target && k.lease == o.lease && k.sub == o.sub)
      let w := { o.who with via := .core target }
      let paths := if mine then s.stashPaths target w (dst + word (2048 * i)) n else []
      match s.detectLines w (paths.map Prod.fst) with
      | .error s => .next (s.post .mcastArrival (.op o.id))
      | .ok s =>
      let s := paths.foldl (fun s p => s.touch w p.2 p.1 false false .no) s
      let p : PotAdd := { ctx := o.ctx, die := o.who.die, lease := o.lease, sub := o.sub, pot := pot, count := word n, scope := .cluster }
      let s := if pot = 0 then s else s.post .potAddition (.pot p)
      let s := { s with ops := updateWhere (fun q => q.id == o.id) (fun q => { q with arrivals := rest }) s.ops }
      .next (if rest.isEmpty then s.post .engineRetire (.op o.id) else s.post .mcastArrival (.op o.id))
    | _, _ => .next s

end Sys2Proof.Machine
end

