-- ==== Sys2Proof/Machine/Refs.lean ====
section
/-! DEFINITION. Managed regions (R56-R66) and the reference instructions, majors 0x26-0x2C (R178-R184, R285). -/

namespace Sys2Proof.Machine

/-! References, regions and headers. -/

def refPhase (r : Word) : Nat := bits r 63 62
def refKind (r : Word) : Nat := bits r 61 60
def refField (r : Word) : Word := r &&& 0x7FFFFFFFFFFFFF
/-- Virtual address a reference names (R57, R22). -/
def refAddr (r : Word) : Word := (r.extractLsb' 0 55).signExtend 64
/-- Base of the region an address lies in, and its parcel (R56). -/
def regionBase (va : Word) : Word := va &&& ~~~0x1FFFFFFF
def parcelOf (va : Word) : Nat := va.toNat / 2 ^ 21 % 256
/-- A reference of a kind and phase. -/
def mkRef (phase kind : Nat) (va : Word) : Word := word (phase * 2 ^ 62) ||| word (kind * 2 ^ 60) ||| refField va
/-- Equal in kind and address, and two nulls always (R181, R182). -/
def sameObject (a b : Word) : Bool := refKind a == refKind b && (refKind a == 0 || refField a == refField b)
/-- A word that may stand in a reference field (R57, R179 check 7): null with address zero, or an object's header. -/
def refWordOk (v : Word) : Bool :=
  bits v 59 55 == 0 && (if refKind v = 0 then refField v == 0 else refKind v == 1 && bits v 3 0 == 0)

/-- Why the barrier cannot heal (R65, R179): an operand fault, a descriptor or table that cannot be read, a line
whose error is to be contained first. -/
inductive HealFault
  | operand (s : State) (tval : Word)
  | unread (s : State) (f : XFault) (tval : Word)
  | wait (s : State)
deriving DecidableEq, Repr

abbrev HealRes (α : Type) := Except HealFault α

namespace State

/-- A word of a descriptor or table, read by the barrier or a Gleaner even while a Gleaner owns it (R290). -/
def descWord (s : State) (w : Who) (core : Option (Nat × Bool)) (va tval : Word) : HealRes (Word × State) :=
  match s.checked w s.ctx .walker .load .strand 8 va 8 with
  | .error (.fault s f) => .error (.unread s f tval)
  | .error (.wait s) => .error (.wait s)
  | .ok (e, s) =>
    let pa := e.phys va
    match s.detectLine w (pa / 128) with
    | .error s => .error (.wait s)
    | .ok s =>
      let s := s.touch w (match core with | some (n, f) => .l1 n f | none => .l2) (pa / 128) false false .normal
      if s.poisonedAt pa 8 then .error (.unread s { cause := 0, tval := va } tval) else .ok (word (s.mem.num pa 8), s)

/-- Whether an address lies in a parcel that a descriptor mask names, from word k of the descriptor on. -/
def parcelBit (s : State) (w : Who) (core : Option (Nat × Bool)) (k : Nat) (va : Word) : HealRes (Bool × State) := do
  let b := regionBase va
  let p := parcelOf va
  if p = 0 then .ok (false, s)
  else
    let (m, s) ← s.descWord w core (b + word (8 * (k + p / 64))) b
    .ok (bitAt m (p % 64), s)

end State

/-- Forwarding base and number of entries of a descriptor's word 1 (R62). -/
def fwdBase (d1 : Word) : Word := refAddr (d1 &&& 0x7FFFFFFFFF0000)
def fwdCount (d1 : Word) : Nat := 2 ^ (10 + bits d1 2 0)
/-- Where a header address hashes to (R64). -/
def fwdIndex (hdr : Word) (n : Nat) : Nat :=
  (refField hdr).toNat / 2 ^ 4 ^^^ (refField hdr).toNat / 2 ^ 21 |>.mod n

namespace State

/-- Probes the forwarding table from an index upward (R64). In a table without an invalid entry, which the flip of a cycle rules out,
the rule ends no probe but at a match: the model answers a miss after n of them (log 81). -/
def probe (s : State) (w : Who) (core : Option (Nat × Bool)) (region table hdr : Word) (n : Nat) :
    Nat → Nat → HealRes (Option Word × State)
  | 0, _ => .ok (none, s)
  | fuel + 1, i => do
    let (e0, s) ← s.descWord w core (table + word (16 * i)) region
    if !bitAt e0 63 then .ok (none, s)
    else if e0 &&& 0x7FFFFFFFFFFFF0 == refField hdr &&& 0x7FFFFFFFFFFFF0 then
      let (r, s) ← s.descWord w core (table + word (16 * i + 8)) region
      .ok (some r, s)
    else probe s w core region table hdr n fuel ((i + 1) % n)

/-- Looks a header up: the core's forwarding cache, then the table (R64, R66). -/
def lookup (s : State) (w : Who) (core : Option (Nat × Bool)) (phase : Nat) (hdr : Word) :
    HealRes (Option Word × State) := do
  let b := regionBase hdr
  let hit : Option FwdHit := core.bind (fun c =>
    (s.core c.1).fwd.find? (fun h => h.lease == w.lease && h.sub == w.sub && h.region == b && h.phase == phase && h.header == hdr))
  match hit with
  | some h => .ok (some h.ref, s)
  | none =>
    let s := match core with | some (n, f) => s.count n f 0x0A 1 | none => s
    let (d1, s) ← s.descWord w core (b + 8) b
    let n := fwdCount d1
    let (r, s) ← s.probe w core b (fwdBase d1) hdr n n (fwdIndex hdr n)
    match r, core with
    | some r, some (c, _) =>
      let h : FwdHit := { lease := w.lease, sub := w.sub, region := b, phase := phase, header := hdr, ref := r }
      .ok (some r, s.modCore c (fun k => { k with fwd := (h :: k.fwd).take 256 }))
    | r, _ => .ok (r, s)

/-- A word of a liveness bitmap, read as a descriptor's word is but on a page of any class; one that cannot be read, or that is
marked, answers its failure. -/
def bitmapWord (s : State) (w : Who) (core : Option (Nat × Bool)) (va : Word) : HealRes (Except XFault Word × State) :=
  match s.translate w .load va (fun _ => none) with
  | .error (.wait s) => .error (.wait s)
  | .error (.fault s f) => .ok (.error f, s)
  | .ok (e, s) =>
    let pa := e.phys va
    match s.detectLine w (pa / 128) with
    | .error s => .error (.wait s)
    | .ok s =>
      let s := s.touch w (match core with | some (n, f) => .l1 n f | none => .l2) (pa / 128) false false .normal
      .ok (if s.poisonedAt pa 8 then .error { cause := 0, tval := va } else .ok (word (s.mem.num pa 8)), s)

/-- The nearest set bit at or below a granule of a parcel's bitmap, word by word: `k` counts down. The rule names no fate for a word
of the bitmap that cannot be read or that is marked, which here counts as clear (log 57); those that were met are answered
too. -/
def bitBelow (s : State) (w : Who) (core : Option (Nat × Bool)) (bitmap : Word) (gran : Nat) (met : List XFault) :
    Nat → HealRes (Option Nat × List XFault × State)
  | 0 => .ok (none, met, s)
  | k + 1 => do
    let (v, s) ← s.bitmapWord w core (bitmap + word (8 * k))
    match v with
    | .error f => bitBelow s w core bitmap gran (met ++ [f]) k
    | .ok v =>
      match ((List.range 64).filter (fun i => decide (64 * k + i ≤ gran) && v.getLsbD i)).getLast? with
      | some i => .ok (some (64 * k + i), met, s)
      | none => bitBelow s w core bitmap gran met k

/-- Header of the object around a granule, by the liveness bitmap of the region's cycle (R65, R264), and the words of it that could
not be read. -/
def headerSearch (s : State) (w : Who) (core : Option (Nat × Bool)) (va : Word) :
    HealRes (Option Word × List XFault × State) := do
  let b := regionBase va
  match s.gleans.find? (fun g => g.base == b && g.lease == w.lease && g.sub == w.sub) with
  | none => .ok (none, [], s)
  | some g =>
    let p := parcelOf va
    let count (st : HealRes (Nat × State)) (k : Nat) : HealRes (Nat × State) := do
      let (n, s) ← st
      let (x, s) ← s.parcelBit w core 4 (b + word (k * 2 ^ 21))
      .ok (if x then n + 1 else n, s)
    let (i, s) ← (List.range p).foldl count (.ok (0, s))
    let gran := va.toNat % 2 ^ 21 / 16
    let (k, met, s) ← s.bitBelow w core (g.bitmap + word (16384 * i)) gran [] (gran / 64 + 1)
    .ok (k.map (fun k => b + word (p * 2 ^ 21 + 16 * k)), met, s)

def headerBelow (s : State) (w : Who) (core : Option (Nat × Bool)) (va : Word) : HealRes (Option Word × State) := do
  let (hdr, _, s) ← s.headerSearch w core va
  .ok (hdr, s)

/-- The barrier (R65): the healed reference. R57 speaks of words read from memory: an `h` register whose value has kind 11 or
a nonzero bit of 59:55, which only a context access can give it, faults here in the same way; one that holds an object's address
which is not a multiple of 16, or a null with a nonzero address, is taken as it stands. `TVAL` is the reference's address field,
for an interior reference without a set bit too, whichever operand it is (log 58). -/
def healRef (s : State) (w : Who) (core : Option (Nat × Bool)) (r : Word) : HealRes (Word × State) := do
  let va := refAddr r
  let b := regionBase va
  if refKind r = 0 then .ok (r, s)
  else if refKind r = 3 || bits r 59 55 != 0 then .error (.operand s (refField r))
  else
    let (d0, s) ← s.descWord w core b b
    let p := bits d0 63 62
    let s := if refPhase r = p then s else match core with | some (n, f) => s.count n f 0x09 1 | none => s
    if refPhase r = p then .ok (r, s)
    else if refPhase r != (p + 3) % 4 then .error (.operand s (refField r))
    else
      let (moved, s) ← if bitAt d0 61 then s.parcelBit w core 4 va else .ok (false, s)
      if !moved then .ok (mkRef p (refKind r) va, s)
      else
        let (hdr, s) ← if refKind r = 1 then .ok (some va, s) else s.headerBelow w core va
        match hdr with
        | none => .error (.operand s (refField r))
        | some hdr =>
          let (hit, s) ← s.lookup w core p hdr
          match hit with
          | none => .ok (r, s)
          | some h => .ok (if refKind r = 1 then h else mkRef (refPhase h) 2 (refAddr h + (va - hdr)), s)

end State

/-! Layouts and headers. -/

/-- A layout-table entry that R60 admits. -/
structure Layout where
  kind : Nat
  period : Nat
  map : Nat
deriving DecidableEq, Repr

def layoutOf (e : Word) : Option Layout :=
  let per := bits e 53 48
  match bits e 63 62 with
  | 1 => if bits e 61 56 = 0 then some { kind := 1, period := 0, map := bits e 55 0 } else none
  | 3 =>
    if bits e 61 54 = 0 && 1 ≤ per && per ≤ 48 && bits e 47 0 / 2 ^ per == 0 then
      some { kind := 3, period := per, map := bits e 47 0 }
    else none
  | k => if bits e 61 0 = 0 then some { kind := k, period := 0, map := 0 } else none

/-- Whether body word n is a reference field (R60). -/
def Layout.isRef (l : Layout) (n : Nat) : Bool :=
  match l.kind with
  | 0 => false
  | 1 => decide (n < 56) && l.map.testBit n
  | 2 => true
  | _ => l.map.testBit (n % l.period)

/-- A well-formed header (R59): size in 16-byte units and layout. -/
structure Head where
  size : Nat
  layout : Layout
deriving DecidableEq, Repr

def headState (w0 : Word) : Nat := bits w0 63 62
def headPins (w0 : Word) : Nat := bits w0 61 54

/-- The header at an address, with its layout entry read (R59, R60, R179). -/
def State.headOf (s : State) (w : Who) (core : Option (Nat × Bool)) (hdr w0 : Word) : HealRes (Option Head × State) := do
  let size := bits w0 17 0
  if headState w0 = 3 || bits w0 53 48 != 0 || bits w0 31 18 != 0 || size = 0
      || 2 ^ 21 < hdr.toNat % 2 ^ 21 + 16 * size then .ok (none, s)
  else
    let b := regionBase hdr
    let (d2, s) ← s.descWord w core (b + 16) b
    let idx := bits w0 47 32
    if bits d2 15 0 ≤ idx then .ok (none, s)
    else
      let ea := fwdBase d2 + word (8 * idx)
      let (e, s) ← s.descWord w core ea ea
      .ok ((layoutOf e).map (fun l => { size := size, layout := l }), s)

/-! The checks of R179. -/

/-- A barrier's answer as a trap of the instruction. -/
def healed {α : Type} : HealRes α → Res α
  | .ok a => .ok a
  | .error (.operand s t) => raise s 0x02 t
  | .error (.unread s _ t) => raise s 0x1C t
  | .error (.wait s') => waits s'

def State.here (s : State) : Option (Nat × Bool) := State.coreOf s.ctx

/-- The healed value of an `h` register; the register is not yet written. -/
def hval (r : HReg) (s : State) : Res (Word × State) := healed (s.healRef s.ctx.who s.here (s.ctx.getH r))

def State.setH (s : State) (r : HReg) (v : Word) : State := { s with ctx := s.ctx.setH r v }

/-- Checks 1-3: the base is healed, which stays in its register, and names an object. -/
def refBase (r : HReg) (s : State) : Res (Word × State) := do
  let (v, s) ← hval r s
  let s := s.setH r v
  check (refKind v != 0) s 0x02 0
  check (refKind v == 1) s 0x02 (refField v)
  .ok (v, s)

/-- The later checks of R25 for a reference instruction: the address lies in parcels 1-255 of a managed page (R58), and the
page admits the atomic. -/
def refTest (k : Acc) (sc : Scope) (va : Word) (e : Tlb) : Option Nat :=
  if e.cls != 1 || parcelOf va = 0 then some 0x0D else if !atomicOk k sc e then some 0x0E else none

/-- Check 5 (R25, R58). -/
def refAdmits (k : Acc) (sc : Scope) (va : Word) (s : State) : Res (Tlb × State) := do
  check (decide (va.toNat % 8 = 0)) s 0x04 va
  scalarAcc (s.translate s.ctx.who k va (refTest k sc va))

/-- The header as read by the instruction: word 0, and its size and layout where well formed. -/
def refHead (hdr : Word) (s : State) : Res (Word × Option Head × State) := do
  let (v, s) ← scalarAcc (s.load .gleaner hdr 8 .normal)
  let s := s.consume v.isNone
  let w0 := word (v.getD 0)
  let (h, s) ← healed (s.headOf s.ctx.who s.here hdr w0)
  .ok (w0, h, s)

/-- A store form on an object in the copying state stalls (R70). -/
def notCopying (store : Bool) (w0 : Word) (h : Option Head) (s : State) : Res Unit :=
  if store && h.isSome && headState w0 == 1 then waits s else .ok ()

/-- Checks 1-6 for an access at a byte offset: the word's address, whether its page admits writes, the state. -/
def refReach (r : HReg) (off : Word) (k : Acc) (sc : Scope) (isRef : Bool) (s : State) :
    Res (Word × Bool × State) := do
  let (base, s) ← refBase r s
  let hdr := refAddr base
  let w := hdr + off
  check (off.toNat % 8 == 0) s 0x04 w
  let (_, s) ← refAdmits .load .strand hdr s
  let (e, s) ← refAdmits k sc w s
  let (w0, h, s) ← refHead hdr s
  match h with
  | none => raise s 0x02 off
  | some hd =>
    check (decide (16 ≤ off.toNat) && decide (off.toNat ≤ 16 * hd.size - 8)
      && hd.layout.isRef ((off.toNat - 16) / 8) == isRef) s 0x02 off
    notCopying (k == .store || k == .atomic) w0 h s
    .ok (w, e.w, s)

/-- Check 8 (R57, R63): the value stored in a field at an address. -/
def refStorable (field v : Word) (s : State) : Res State := do
  check (refKind v != 2) s 0x02 field
  let a := regionBase field
  let b := regionBase (refAddr v)
  if refKind v = 0 || a = b then .ok s
  else
    let look (st : HealRes (Bool × State)) (k : Nat) : HealRes (Bool × State) := do
      let (ok, s) ← st
      let (e, s) ← s.descWord s.ctx.who s.here (b + word (8 * (12 + k))) b
      .ok (ok || (bitAt e 63 && regionBase (refAddr e) == a), s)
    let (ok, s) ← healed ((List.range 16).foldl look (.ok (false, s)))
    check ok s 0x02 field
    .ok s

/-! Loads and stores (R180). -/

/-- Byte offset of format M: units of 8 bytes (R130). -/
def hOff {k : Nat} (o : BitVec k) : Word := sext o * 8

def hldOp {k : Nat} (q : Option Scope) (d a : HReg) (o : BitVec k) (s : State) : Res State := do
  legal .front [] s
  drained s
  let (w, writes, s) ← refReach a (hOff o) .load .strand true s
  let (v, s) ← scalarAcc (s.load .gleaner w 8 .normal)
  match v with
  | none => .ok ((((s.consume true).setH d 0).advance 4).acquire q)
  | some n =>
    let v := word n
    check (refWordOk v) s 0x02 w
    let (h, s) ← healed (s.healRef s.ctx.who s.here v)
    if h != v && writes then
      let (_, _, s) ← scalarAcc (s.atomic .gleaner .device w 8 (fun o => if o = n then some h.toNat else none))
      .ok (((s.setH d h).advance 4).acquire q)
    else .ok (((s.setH d h).advance 4).acquire q)

def hstOp {k : Nat} (q : Option Scope) (b a : HReg) (o : BitVec k) (s : State) : Res State := do
  legal .front [] s
  drained s
  let s ← release q s
  let (w, _, s) ← refReach a (hOff o) .store .strand true s
  let (v, s) ← hval b s
  let s ← refStorable w v s
  let s ← scalarAcc (s.store .gleaner w 8 v.toNat)
  .ok ((s.setH b v).advance 4)

def hldwOp {k : Nat} (q : Option Scope) (d : XReg) (a : HReg) (o : BitVec k) (s : State) : Res State := do
  legal .front [] s
  drained s
  let (w, _, s) ← refReach a (hOff o) .load .strand false s
  let (v, s) ← scalarAcc (s.load .gleaner w 8 .normal)
  .ok ((((s.consume v.isNone).setX d (word (v.getD 0))).advance 4).acquire q)

def hstwOp {k : Nat} (q : Option Scope) (d : XReg) (a : HReg) (o : BitVec k) (s : State) : Res State := do
  legal .front [] s
  drained s
  let s ← release q s
  let x := (s.getX d).toNat
  let (w, _, s) ← refReach a (hOff o) .store .strand false s
  let s ← scalarAcc (s.store .gleaner w 8 x)
  .ok (s.advance 4)

def execHld (d a : HReg) (_c : BitVec 4) (o : BitVec 10) (s : State) := settle (hldOp none d a o s)
def execHldAcq (d a : HReg) (_c : BitVec 4) (q : Scope) (o : BitVec 7) (s : State) := settle (hldOp (some q) d a o s)
def execHst (d a : HReg) (_c : BitVec 4) (o : BitVec 10) (s : State) := settle (hstOp none d a o s)
def execHstRel (d a : HReg) (_c : BitVec 4) (q : Scope) (o : BitVec 7) (s : State) := settle (hstOp (some q) d a o s)
def execHldw (d : XReg) (a : HReg) (_c : BitVec 4) (o : BitVec 10) (s : State) := settle (hldwOp none d a o s)
def execHldwAcq (d : XReg) (a : HReg) (_c : BitVec 4) (q : Scope) (o : BitVec 7) (s : State) :=
  settle (hldwOp (some q) d a o s)
def execHstw (d : XReg) (a : HReg) (_c : BitVec 4) (o : BitVec 10) (s : State) := settle (hstwOp none d a o s)
def execHstwRel (d : XReg) (a : HReg) (_c : BitVec 4) (q : Scope) (o : BitVec 7) (s : State) :=
  settle (hstwOp (some q) d a o s)

/-! Compare and swap (R181), compare (R182), pins (R71, R183), making references (R184). -/

/-- `hcas`: comparison after healing; a field that is not replaced is healed in place. R179 does not place the heals of the comparand and
of the new value among its checks: both registers are healed before the word is read for check 7 (log 85). -/
def execHcas (d a : HReg) (b : XReg) (_c : BitVec 4) (r : AOrd) (sc : Scope) (s : State) := settle (do
  legal .front [] s
  drained s
  let s ← release (relScope r sc) s
  let (w, _, s) ← refReach a (s.getX b) .atomic sc true s
  let (cmp, s) ← hval d s
  let (new, s) ← hval (d + 1) s
  let (n, s) ← scalarAcc (s.load .gleaner w 8 .normal)
  let v : Word := word (n.getD 0)
  check (refWordOk v) s 0x02 w
  let s ← refStorable w new s
  let (old, s) ← healed (s.healRef s.ctx.who s.here v)
  let put : Option Nat :=
    if sameObject old cmp then some new.toNat else if old != v && n.isSome then some old.toNat else none
  let (_, _, s) ← scalarAcc (s.atomic .gleaner sc w 8 (fun _ => put))
  .ok (((((s.consume n.isNone).setH (d + 1) new).setH d old).advance 4).acquire (acqScope r sc)))

/-- `hcasw`: both registers of the pair are read before any write. -/
def execHcasw (d : XReg) (a : HReg) (b : XReg) (_c : BitVec 4) (r : AOrd) (sc : Scope) (s : State) := settle (do
  legal .front [] s
  drained s
  let s ← release (relScope r sc) s
  let cmp := (s.getX d).toNat
  let new := (s.getX (d + 1)).toNat
  let (w, _, s) ← refReach a (s.getX b) .atomic sc false s
  let (old, bad, s) ← scalarAcc (s.atomic .gleaner sc w 8 (fun o => if o = cmp then some new else none))
  .ok ((((s.consume bad).setX d (word old)).advance 4).acquire (acqScope r sc)))

def execHcmp (d : XReg) (a b : HReg) (s : State) := settle (do
  legal .front [] s
  drained s
  let (x, s) ← hval a s
  let s := s.setH a x
  let (y, s) ← hval b s
  let s := s.setH b y
  .ok ((s.setX d (boolWord (sameObject x y))).advance 4))

/-- Checks 1-5 with the header as the word, and its form (R183). -/
def refPinned (a : HReg) (pin : Bool) (s : State) : Res (Word × Word × Head × State) := do
  let (base, s) ← refBase a s
  let hdr := refAddr base
  let (_, s) ← refAdmits .atomic .device hdr s
  let (w0, h, s) ← refHead hdr s
  match h with
  | none => raise s 0x02 hdr
  | some hd =>
    notCopying pin w0 h s
    .ok (hdr, w0, hd, s)

/-- `hpin`: an acquire at device scope (R183). -/
def execHpin (d : XReg) (a : HReg) (s : State) := settle (do
  legal .front [] s
  drained s
  let (hdr, w0, hd, s) ← refPinned a true s
  check (decide (s.ctx.pins.length < 8) && headPins w0 != 255) s 0x02 hdr
  let (_, _, s) ← scalarAcc (s.atomic .gleaner .device hdr 8 (fun o => some ((o + 2 ^ 54) % 2 ^ 64)))
  let p : PinWin := { header := hdr, size := 16 * hd.size }
  let s := { s with ctx := { s.ctx with pins := s.ctx.pins ++ [p] } }
  .ok ((s.setX d hdr).advance 4))

/-- `hunpin`: a release at device scope. The rule names no fate for a count that is already 0, which only a store to the header
can leave beside a window: the window goes and the header stays (log 59). -/
def execHunpin (a : HReg) (s : State) := settle (do
  legal .front [] s
  drained s
  let s ← release (some .device) s
  let (hdr, w0, _, s) ← refPinned a false s
  match s.ctx.pins.find? (fun p => p.header == hdr) with
  | none => raise s 0x02 hdr
  | some p =>
    let (_, _, s) ← scalarAcc (s.atomic .gleaner .device hdr 8
      (fun o => if headPins w0 = 0 then none else some ((o + 2 ^ 64 - 2 ^ 54) % 2 ^ 64)))
    let s := { s with ctx := { s.ctx with pins := s.ctx.pins.erase p } }
    .ok (s.advance 4))

/-- `hmake`: the phase is that before the flip for an object in a from-parcel of an active cycle (R65). -/
def execHmake (d : HReg) (a : XReg) (s : State) := settle (do
  legal .front [] s
  drained s
  let va := s.getX a
  check (va.toNat % 16 == 0) s 0x02 va
  let (_, s) ← refAdmits .load .strand va s
  let (_, h, s) ← refHead va s
  check h.isSome s 0x02 va
  let b := regionBase va
  let (d0, s) ← healed (s.descWord s.ctx.who s.here b b)
  let (moved, s) ← healed (if bitAt d0 61 then s.parcelBit s.ctx.who s.here 4 va else .ok (false, s))
  let p := if moved then (bits d0 63 62 + 3) % 4 else bits d0 63 62
  .ok ((s.setH d (mkRef p 1 va)).advance 4))

def execHmakeI (d a : HReg) (b : XReg) (s : State) := settle (do
  legal .front [] s
  drained s
  let off := s.getX b
  let (base, s) ← refBase a s
  let hdr := refAddr base
  let (_, s) ← refAdmits .load .strand hdr s
  let (_, h, s) ← refHead hdr s
  match h with
  | none => raise s 0x02 off
  | some hd =>
    check (off.toNat % 16 == 0 && decide (16 ≤ off.toNat) && decide (off.toNat < 16 * hd.size)) s 0x02 off
    .ok ((s.setH d (mkRef (refPhase base) 2 (hdr + off))).advance 4))

end Sys2Proof.Machine
end

