-- ==== Sys2Proof/Machine/Gleaner.lean ====
section
/-! DEFINITION. Relocation: `hglean` and `hglean.free` (R264), the Gleaner's copying of objects (R68), its fix-up scan
(R69) and healing of registers (R67), its records (R370). -/

namespace Sys2Proof.Machine

/-- What an access of a Gleaner answers instead of its effect: a failure of R370 (cause, address, code) with the state it
left, or a line that another unit has. -/
inductive GStop
  | fail (s : State) (f : XFault) (code : Nat)
  | wait (s : State)
deriving DecidableEq, Repr

abbrev GRes (α : Type) := Except GStop α

/-- An access by R25 that fails with a code of R370. -/
def gleanAcc {α : Type} (code : Nat) : ARes α → GRes α
  | .ok a => .ok a
  | .error (.fault s f) => .error (.fail s f code)
  | .error (.wait s) => .error (.wait s)

def Glean.who (g : Glean) : Who := { lease := g.lease, sub := g.sub, die := g.die }

namespace State

def findGlean (s : State) (id : Nat) : Option Glean := s.gleans.find? (fun g => g.id == id)
def modGlean (s : State) (id : Nat) (f : Glean → Glean) : State :=
  { s with gleans := updateWhere (fun g => g.id == id) f s.gleans }
def argGlean (s : State) : Option Glean := match s.arg with | .op id => s.findGlean id | _ => none

/-- A step that must wait has no effect but the containment that it asked for. -/
def undone (s s' : State) : State :=
  { s with pend := s.pend ++ s'.pend.filter (fun p => p.1 == .dirtyL2UeContainment && !s.pend.contains p) }

/-- A record of a failed access (R370). -/
def gleanRecord (s : State) (g : Glean) (f : XFault) (code : Nat) : State :=
  s.addRecord 1 g.lease g.sub (s.noticeWords (State.header 0x0C f.cause g.lease g.sub 0xFFFFF) f.tval (word code) 0 g.lease)

/-- Another unit than the cycle itself owns a line, or for a write holds it (R46). -/
def lineElsewhere (s : State) (g : Glean) (line : Nat) (write : Bool) : Bool :=
  ({ s with gleans := s.gleans.filter (fun x => x.id != g.id) } : State).ownedLine line write

/-- A cycle's access to a line: it waits for other units and for the containment of an error. -/
def gleanLine (s : State) (g : Glean) (line : Nat) (write whole : Bool) : GRes State :=
  if s.lineElsewhere g line write then .error (.wait s)
  else match s.detectLine g.who line with
    | .error s => .error (.wait s)
    | .ok s => .ok (s.touch g.who .l2 line write whole .no)

/-- Reads a word; a failed check or a marked word fails with a code (R370). -/
def gleanLoad (s : State) (g : Glean) (va : Word) (code : Nat) : GRes (Word × State) := do
  let (pa, s) ← gleanAcc code (s.unitCheck g.who .load .strand 8 va 8)
  let s ← s.gleanLine g (pa / 128) false false
  if s.poisonedAt pa 8 then .error (.fail s { cause := 0, tval := va } code) else .ok (word (s.mem.num pa 8), s)

/-- Writes a word, or with `k` atomic replaces the one just read. -/
def gleanStore (s : State) (g : Glean) (k : Acc) (va v : Word) (code : Nat) : GRes State := do
  let (pa, s) ← gleanAcc code (s.unitCheck g.who k .device 8 va 8)
  let s ← s.gleanLine g (pa / 128) true false
  .ok (s.putBytes none pa (leBytes 8 v.toNat))

/-- Checks a range and takes its lines. -/
def gleanRange (s : State) (g : Glean) (k : Acc) (va : Word) (n code : Nat) : GRes (List (Nat × Nat) × State) := do
  let (ps, s) ← gleanAcc code (s.rangeCheckBy g.who s.ctx .gleaner k va n)
  let whole (l : Nat) : Bool := ps.any (fun p => decide (p.1 ≤ l * 128) && decide (l * 128 + 128 ≤ p.1 + p.2))
  let s ← foldE (fun (s : State) l => s.gleanLine g l (k == .store) (whole l)) s (State.pieceLines ps)
  .ok (ps, s)

end State

/-! Objects (R68). -/

/-- Puts a forwarding entry at the first invalid place from its hash upward (R64); none where no place is left. -/
def installAt (s : State) (g : Glean) (table hdr ref : Word) (n : Nat) : Nat → Nat → GRes (Option State)
  | 0, _ => .ok none
  | fuel + 1, i => do
    let e := table + word (16 * i)
    let (w0, s) ← s.gleanLoad g e 2
    if bitAt w0 63 then installAt s g table hdr ref n fuel ((i + 1) % n)
    else
      let s ← s.gleanStore g .store (e + 8) ref 2
      let s ← s.gleanStore g .store e (0x8000000000000000 ||| (refField hdr &&& 0x7FFFFFFFFFFFF0)) 2
      .ok (some s)

/-- Installs an entry that maps a header to a copy, or to itself. -/
def installFwd (s : State) (g : Glean) (hdr target : Word) : GRes (Option State) := do
  let (d0, s) ← s.gleanLoad g g.base 2
  let (d1, s) ← s.gleanLoad g (g.base + 8) 2
  let n := fwdCount d1
  installAt s g (fwdBase d1) hdr (mkRef (bits d0 63 62) 1 target) n n (fwdIndex hdr n)

/-- Bad objects counts one more (R62). -/
def addBadObject (s : State) (g : Glean) : GRes State := do
  let (v, s) ← s.gleanLoad g (g.base + 24) 2
  s.gleanStore g .store (g.base + 24) (v + 1) 2

/-- A failure of the table or the descriptor: nothing more is copied, and what is left stays in place (R370). -/
def Glean.halt (g : Glean) (hdr : Word) : Glean :=
  { g with stopped := true, inPlace := parcelOf hdr :: g.todo.map parcelOf ++ g.inPlace, todo := [] }

/-- What handling one object leaves: the state and the cycle, or a wait. -/
abbrev GObj := Except State (State × Glean)

/-- The object stays in place, with an entry to its own address (R68, step 1). -/
def keepObject (s : State) (g : Glean) (hdr : Word) : GObj :=
  let g := { g with inPlace := parcelOf hdr :: g.inPlace }
  match installFwd s g hdr hdr with
  | .error (.fail s f code) => .ok (s.gleanRecord g f code, g.halt hdr)
  | .error (.wait s) => .error s
  | .ok none => .ok (s, g)
  | .ok (some s) => .ok (s, g)

/-- As R370 has it for a failed access to an object, the descriptor or the table. -/
def failObject (s : State) (g : Glean) (hdr : Word) (f : XFault) (code : Nat) : GObj :=
  let s := s.gleanRecord g f code
  if code = 2 then .ok (s, g.halt hdr) else keepObject s g hdr

/-- Answers a failure by `failObject`. -/
def orFail {α : Type} (g : Glean) (hdr : Word) (r : GRes α) (k : α → GObj) : GObj :=
  match r with
  | .error (.fail s f code) => failObject s g hdr f code
  | .error (.wait s) => .error s
  | .ok a => k a

/-- The next to-parcel with room, and the offset there (R68, step 3). -/
def roomFor (n : Nat) : List Nat → Nat → Option (List Nat × Nat)
  | [], _ => none
  | p :: ps, off => if off + n ≤ 2 ^ 21 then some (p :: ps, off) else roomFor n ps 0

/-- Steps 3-5 of R68 for a well-formed, stable, unpinned object of n bytes with header word 0 `w0`. Header word 0 is copying
only within this step: an object that stays in place has it stable again at the end. -/
def moveObject (s : State) (g : Glean) (hdr w0 : Word) (n : Nat) : GObj :=
  match roomFor n g.toParcels g.toOff with
  | none => keepObject s g hdr
  | some (ps, off) =>
    let dst := g.base + word (ps.headD 0 * 2 ^ 21 + off)
    orFail g hdr (s.gleanRange g .load hdr n 0) (fun (src, s) =>
      match (s.markBytes src).findIdx? id with
      | some i => failObject s g hdr { cause := 0, tval := hdr + word (i / 8 * 8) } 0
      | none => match s.gleanRange g .store dst n 1 with
        | .error (.wait s) => .error s
        | .error (.fail s f code) => failObject s { g with toParcels := ps.drop 1, toOff := 0 } hdr f code
        | .ok (room, s) =>
          let bytes := leBytes 8 (w0 &&& 0x003FFFFFFFFFFFFF).toNat ++ (s.readPieces src).drop 8
          let s := s.writePieces none room bytes
          let g := { g with toParcels := ps, toOff := off + n }
          orFail g hdr (installFwd s g hdr dst) (fun done =>
            match done with
            | none => .ok (s, { g with inPlace := parcelOf hdr :: g.inPlace })
            | some s =>
              orFail g hdr (s.gleanStore g .store hdr (w0 ||| 0x8000000000000000) 0) (fun s =>
                .ok (s.countDie g.die g.lease g.sub 0x23 1, g))))

/-- The code of a failed read of a header's descriptor or layout entry, which `tval` tells apart: the layout table has no row of its own,
and takes that of the object (log 69). -/
def headCode (hdr tval : Word) (code : Nat) : Nat := if tval = regionBase hdr then 2 else code

/-- One live object (R68). R370 has no row for a failed write check of its old header, which the compare-and-swap of step 2
makes: the model takes the row of the object's reads, with code 0 (log 69). -/
def copyObject (s : State) (g : Glean) (hdr : Word) : GObj :=
  orFail g hdr (s.gleanLoad g hdr 0) (fun (w0, s) =>
  match s.headOf g.who none hdr w0 with
  | .error (.wait s) => .error s
  | .error (.operand s t) => failObject s g hdr { cause := 0x02, tval := t } 0
  | .error (.unread s f t) => failObject s g hdr f (headCode hdr t 0)
  | .ok (none, s) => orFail g hdr (addBadObject s g) (fun s => keepObject s g hdr)
  | .ok (some h, s) =>
    if headPins w0 != 0 || headState w0 != 0 then keepObject s g hdr
    else orFail g hdr (gleanAcc 0 (s.unitCheck g.who .atomic .device 8 hdr 8)) (fun (_, s) =>
      moveObject s g hdr w0 (16 * h.size)))

/-- `GLEANER_OBJECT_COPY`: the next live object of a cycle. -/
def execGleanerObjectCopy (s : State) : Host.Outcome State Fault Refusal :=
  match s.argGlean with
  | none => .next s
  | some g =>
    match g.step, g.todo with
    | .copy, hdr :: rest =>
      if s.cpFrozen g.die then .next (s.post .gleanerObjectCopy (.op g.id))
      else match copyObject s { g with todo := rest } hdr with
      | .error s' => .next ((s.undone s').post .gleanerObjectCopy (.op g.id))
      | .ok (s, g') =>
        let s := s.modGlean g.id (fun _ => g')
        .next (if g'.todo.isEmpty then s.post .gleanerCycle (.op g.id) else s.post .gleanerObjectCopy (.op g.id))
    | _, _ => .next s

/-! Fix-up (R69) and registers (R67, step 4). -/

/-- Where healing an interior reference has searched the liveness bitmap: the words of it that could not be read. -/
def searchFaults (s : State) (g : Glean) (r : Word) : HealRes (List XFault × State) := do
  let va := refAddr r
  let (d0, s) ← s.descWord g.who none (regionBase va) (regionBase va)
  if refKind r != 2 || !bitAt d0 61 || refPhase r != (bits d0 63 62 + 3) % 4 then .ok ([], s)
  else
    let (moved, s) ← s.parcelBit g.who none 4 va
    if !moved then .ok ([], s)
    else
      let (_, met, s) ← s.headerSearch g.who none va
      .ok (met, s)

/-- A reference as the Gleaner heals it; one that R65 faults on stays, and what cannot be read of the descriptor, the table
or the bitmap is recorded. -/
def gleanHeal (s : State) (g : Glean) (r : Word) : GRes (Word × State) :=
  if refKind r != 2 && !refWordOk r then .ok (r, s)
  else
    let s := match searchFaults s g r with
      | .ok (fs, _) => fs.foldl (fun (s : State) f => s.gleanRecord g f 2) s
      | .error _ => s
    match s.healRef g.who none r with
    | .ok a => .ok a
    | .error (.operand s _) => .ok (r, s)
    | .error (.unread s f _) => .ok (r, s.gleanRecord g f 2)
    | .error (.wait s) => .error (.wait s)

/-- A failure that is recorded, after which the scan goes on. -/
def recordFail (g : Glean) (r : GRes State) : GRes State :=
  match r with
  | .error (.fail s f code) => .ok (s.gleanRecord g f code)
  | .error (.wait s) => .error (.wait s)
  | .ok s => .ok s

/-- One reference field: replaced where healing changes it. A field that cannot be read fails, one that cannot be replaced
is left. -/
def fixField (s : State) (g : Glean) (va : Word) : GRes State := do
  let (v, s) ← s.gleanLoad g va 3
  let (h, s) ← gleanHeal s g v
  if h = v then .ok s else recordFail g (s.gleanStore g .atomic va h 3)

/-- Parses a parcel from an offset on; the fuel bounds the number of objects. A failed read ends the parse, with the descriptor's own
code where it is the descriptor's (R370). -/
def fixParcel (s : State) (g : Glean) (base : Word) : Nat → Nat → GRes State
  | 0, _ => .ok s
  | fuel + 1, off =>
    if 2 ^ 21 ≤ off then .ok s
    else do
      let hdr := base + word off
      let (w0, s) ← s.gleanLoad g hdr 3
      if w0 = 0 then .ok s
      else match s.headOf g.who none hdr w0 with
        | .error (.wait s) => .error (.wait s)
        | .error (.operand s t) => .error (.fail s { cause := 0x02, tval := t } 3)
        | .error (.unread s f t) => .error (.fail s f (headCode hdr t 3))
        | .ok (none, s) => addBadObject s g
        | .ok (some h, s) => do
          let fields := (List.range (2 * h.size - 2)).filter h.layout.isRef
          let s ← foldE (fun s w => fixField s g (hdr + word (16 + 8 * w))) s fields
          fixParcel s g base fuel (off + 16 * h.size)

/-- Bits of four descriptor words from word k on: parcels 1-255. -/
def parcelsOf (ws : List Word) : List Nat :=
  (List.range 256).filter (fun p => p != 0 && bitAt (ws.getD (p / 64) 0) (p % 64))

/-- Words k to k+n-1 of a cycle's descriptor. -/
def descWords (s : State) (g : Glean) (k n : Nat) : GRes (List Word × State) :=
  foldE (fun (st : List Word × State) i => do
    let (v, s) ← st.2.gleanLoad g (g.base + word (8 * (k + i))) 2
    .ok (st.1 ++ [v], s)) (([], s) : List Word × State) (List.range n)

/-- The parcels that the fix-up scan parses. -/
def scanParcels (s : State) (g : Glean) : GRes (List Word × State) := do
  let (frm, s) ← descWords s g 4 4
  let (scan, s) ← descWords s g 12 16
  let parcels := (List.range 256).filter (· != 0)
  let own := parcels.filter (fun p => !(parcelsOf frm).contains p)
  let others := (scan.filter (fun e => bitAt e 63)).map (fun e => regionBase (refAddr e))
  .ok (own.map (fun p => g.base + word (p * 2 ^ 21)) ++ others.flatMap (fun b => parcels.map (fun p => b + word (p * 2 ^ 21))), s)

/-- Whether a cycle heals a context's registers (R67, step 4). -/
def Glean.healsCtx (g : Glean) (k : Ctx) : Bool :=
  k.lease == g.lease && k.sub == g.sub && (match k.phase with | .free | .draining => false | _ => true)

/-- The registers of one context. -/
def healCtx (s : State) (g : Glean) (k : Ctx) : GRes State := do
  let (h, s) ← foldE (fun (st : Vector Word 16 × State) (r : Fin 16) => do
    let (v, s) ← gleanHeal st.2 g (st.1[r.val]'r.isLt)
    .ok (st.1.set r.val v r.isLt, s)) ((k.h, s) : Vector Word 16 × State) (List.finRange 16)
  .ok (s.mapCtxs (fun j => j.id == k.id && j.phase == k.phase && g.healsCtx j) (fun j => { j with h := h }))

/-- `GLEANER_CYCLE`: the next step of a cycle. -/
def execGleanerCycle (s : State) : Host.Outcome State Fault Refusal :=
  match s.argGlean with
  | none => .next s
  | some g =>
    let again (s : State) : State := s.post .gleanerCycle (.op g.id)
    if s.cpFrozen g.die && g.step != .done then .next (again s)
    else match g.step with
    | .done => .next s
    | .copy =>
      if !g.todo.isEmpty then .next (s.post .gleanerObjectCopy (.op g.id))
      else match scanParcels s g with
        | .error (.wait s') => .next (again (s.undone s'))
        | .error (.fail s f code) =>
          .next (again ((s.gleanRecord g f code).modGlean g.id (fun x => { x with step := .heal })))
        | .ok (ps, s) => .next (again (s.modGlean g.id (fun x => { x with step := .fixup, todo := ps })))
    | .fixup =>
      match g.todo with
      | [] => .next (again (s.modGlean g.id (fun x => { x with step := .heal })))
      | p :: rest =>
        match recordFail g (fixParcel s g p (2 ^ 17) 0) with
        | .error (.fail s' _ _) | .error (.wait s') => .next (again (s.undone s'))
        | .ok s => .next (again (s.modGlean g.id (fun x => { x with todo := rest })))
    | .heal =>
      match foldE (fun s k => healCtx s g k) s (s.ctxs.filter g.healsCtx) with
      | .error (.fail s' _ _) | .error (.wait s') => .next (again (s.undone s'))
      | .ok s =>
        if g.owns.isEmpty then .next { s with gleans := s.gleans.filter (fun x => x.id != g.id) }
        else .next (s.modGlean g.id (fun x => { x with step := .done }))

/-! Commands (R264). -/

/-- A descriptor word read by a command of a Gleaner (R72): as a load by R25, and from the Gleaner's copy where it owns the
line. -/
def commandWord (s : State) (va : Word) : Res (Word × State) := do
  let w := s.ctx.who
  let (e, s1) ← scalarAcc (s.checked w s.ctx .gleaner .load .strand 8 va 8)
  let line := e.phys va / 128
  if ({ s1 with gleans := [] } : State).ownedLine line false then waits s1
  else match s1.detectLine w line with
    | .error s => waits s
    | .ok s =>
      let s := s.touch w (State.pathOf s.ctx) line false false .normal
      let bad := s.poisonedAt (e.phys va) 8
      .ok (if bad then 0 else word (s.mem.num (e.phys va) 8), s.consume bad)

def commandWords (s : State) (va : Word) (n : Nat) : Res (List Word × State) :=
  foldE (fun (st : List Word × State) i => do
    let (v, s) ← commandWord st.2 (va + word (8 * i))
    .ok (st.1 ++ [v], s)) (([], s) : List Word × State) (List.range n)

/-- Whether every page of [va, va+n) is mapped with combined Read (R62). -/
def readable (s : State) (va : Word) (n : Nat) : ARes (Bool × State) :=
  foldE (fun (st : Bool × State) (p : Word × Nat) =>
    match st.2.translate s.ctx.who .load p.1 (fun _ => none) with
    | .ok (_, s) => .ok (st.1, s)
    | .error (.fault s _) => .ok (false, s)
    | .error (.wait s) => .error (.wait s)) ((true, s) : Bool × State) (State.piecesOf va n)

/-- Physical lines under a virtual range, as runs. -/
def runsOf (s : State) (w : Who) (va : Word) (n : Nat) : List (Nat × Nat) :=
  (State.piecesOf va n).filterMap (fun p =>
    match s.translate w .load p.1 (fun _ => none) with
    | .ok (e, _) => let pa := e.phys p.1; some (pa / 128, (pa + p.2 - 1) / 128 + 1 - pa / 128)
    | .error _ => none)

/-- `hglean`. -/
def execHglean (d a b : XReg) (s : State) := settle (do
  command [d, a, b] s
  let base := s.getX a
  let map := s.getX b
  check (decide (base.toNat % 2 ^ 29 = 0)) s 0x02 base
  check (decide (map.toNat % 128 = 0)) s 0x04 map
  let (ws, s) ← commandWords s base 12
  let d0 := ws.getD 0 0
  let d1 := ws.getD 1 0
  let d2 := ws.getD 2 0
  if bitAt d0 61 then .ok ((s.setX d 2).advance 4)
  else
    let (fwdOk, s) ← scalarAcc (readable s (fwdBase d1) (16 * fwdCount d1))
    let (layOk, s) ← scalarAcc (readable s (fwdBase d2) (8 * bits d2 15 0))
    check (decide (bits d1 2 0 < 6) && fwdOk && layOk) s 0x1C base
    let frm := parcelsOf (ws.drop 4)
    let (ps, s) ← scalarAcc (s.rangeCheck .gleaner .load map (16384 * frm.length))
    let mapLines := State.pieceLines ps
    if s.cpFrozen s.ctx.die || s.gleans.any (fun g => g.base == base && g.lease == s.ctx.lease && g.sub == s.ctx.sub)
        || mapLines.any (fun l => s.ownedLine l false) then waits s
    else match s.detectLines s.ctx.who mapLines with
      | .error s => waits s
      | .ok s =>
        let s := mapLines.foldl (fun (s : State) l => s.touch s.ctx.who .l2 l false false .no) s
        let bytes := s.readPieces ps
        let marks := s.markBytes ps
        let s := s.consume (marks.any id)
        let live (i : Nat) : Bool := !marks.getD (i / 8) false && (bytes.getD (i / 8) 0).getLsbD (i % 8)
        let todo := (List.range frm.length).flatMap (fun i =>
          ((List.range (2 ^ 17)).filter (fun k => live (2 ^ 17 * i + k))).map (fun k =>
            base + word (frm.getD i 0 * 2 ^ 21 + 16 * k)))
        if fwdCount d1 / 2 < todo.length then .ok ((s.setX d 1).advance 4)
        else
          let w := s.ctx.who
          let (id, s) := s.fresh
          let g : Glean :=
            { id := id, die := s.ctx.die, ctx := s.ctx.id, lease := s.ctx.lease, sub := s.ctx.sub, base := base, bitmap := map
              step := .copy, todo := todo, toParcels := parcelsOf (ws.drop 8), toOff := 0, inPlace := [], stopped := false
              owns := runsOf s w base 256 ++ runsOf s w (fwdBase d1) (16 * fwdCount d1)
              holds := runsOf s w map (16384 * frm.length) }
          let lines := g.owns.flatMap (fun r => (List.range r.2).map (fun i => r.1 + i))
          if lines.any (fun l => s.ownedLine l true) || s.opBefore id s.ctx.core lines mapLines ||
              s.collBefore id s.ctx.core (lines ++ mapLines) then waits s
          else
            let p := (bits d0 63 62 + 1) % 4
            let flip : Word := (d0 &&& 0x1FFFFFFFFFFFFFFF) ||| word (p * 2 ^ 62 + 2 ^ 61)
            let (s, g) : State × Glean ← match s.gleanStore g .store base flip 2 with
              | .ok s => (.ok (s, g) : Res (State × Glean))
              | .error (.wait s) => waits s
              | .error (.fail s f code) =>
                .ok (s.gleanRecord g f code, { g with stopped := true, todo := [], owns := [], holds := [] })
            let s := ({ s with gleans := s.gleans ++ [g] } : State).post .gleanerCycle (.op id)
            .ok ((s.setX d 0).advance 4))

/-- Invalidates the forwarding table's entries (R64): they are zeroed whole (log 27). -/
def clearTable (s : State) (g : Glean) (table : Word) (n : Nat) : GRes State := do
  let (ps, s) ← s.gleanRange g .store table (16 * n) 2
  .ok (s.writePieces none ps (List.replicate (16 * n) 0))

/-- The from-parcels returned: zeroed one by one; a parcel that cannot be zeroed is kept and recorded. -/
def returnParcels (s : State) (g : Glean) : List Nat → GRes (List Nat × State)
  | [] => .ok ([], s)
  | p :: ps =>
    match s.gleanRange g .store (g.base + word (p * 2 ^ 21)) (2 ^ 21) 4 with
    | .error (.wait s) => .error (.wait s)
    | .error (.fail s f code) => returnParcels (s.gleanRecord g f code) g ps
    | .ok (room, s) => do
      let s := s.writePieces none room (List.replicate (2 ^ 21) 0)
      let (done, s) ← returnParcels s g ps
      .ok (p :: done, s)

/-- A write of the descriptor at the end of a cycle; a failure is recorded. -/
def freeWrite (g : Glean) (s : State) (va v : Word) : GRes State := recordFail g (s.gleanStore g .store va v 2)

/-- Step 5 of R67 for a cycle whose descriptor words 0-7 are `ws`: parcels returned. -/
def freeCycle (s : State) (g : Glean) (ws : List Word) : GRes (Nat × State) := do
  let mine (h : FwdHit) : Bool := h.lease == g.lease && h.sub == g.sub && h.region == g.base
  let s := { s with cores := s.cores.map (fun p => (p.1, { p.2 with fwd := p.2.fwd.filter (fun h => !mine h) })) }
  let d1 := ws.getD 1 0
  let s ← recordFail g (clearTable s g (fwdBase d1) (fwdCount d1))
  let frm := ws.drop 4
  let (done, s) ← returnParcels s g ((parcelsOf frm).filter (fun p => !g.inPlace.contains p))
  let left (k : Nat) : Word :=
    done.foldl (fun v p => if p / 64 = k then v &&& ~~~(word (2 ^ (p % 64))) else v) (frm.getD k 0)
  let s ← foldE (fun s k => freeWrite g s (g.base + word (8 * (4 + k))) (left k)) s (List.range 4)
  let s ← freeWrite g s g.base (ws.getD 0 0 &&& 0xDFFFFFFFFFFFFFFF)
  .ok (done.length, { s with gleans := s.gleans.filter (fun x => x.id != g.id) })

/-- `hglean.free`. -/
def execHgleanFree (d a : XReg) (s : State) := settle (do
  command [d, a] s
  let base := s.getX a
  let (ws, s) ← commandWords s base 8
  check (bitAt (ws.getD 0 0) 61) s 0x02 base
  let none0 : Glean :=
    { id := s.nextId, die := s.ctx.die, ctx := s.ctx.id, lease := s.ctx.lease, sub := s.ctx.sub, base := base, bitmap := 0
      step := .done, todo := [], toParcels := [], toOff := 0, inPlace := [], stopped := false, owns := [], holds := [] }
  let g := (s.gleans.find? (fun g => g.base == base && g.lease == s.ctx.lease && g.sub == s.ctx.sub)).getD none0
  if g.step != .done || s.cpFrozen s.ctx.die then waits s
  else match freeCycle s g ws with
    | .error (.fail s' _ _) | .error (.wait s') => waits (s.undone s')
    | .ok (n, s) => .ok ((s.setX d (word n)).advance 4))

end Sys2Proof.Machine
end

