-- ==== Sys2Proof/Machine/Crier.lean ====
section
/-! DEFINITION. The Crier: loop-nest records (R266, R267), `launch` (R265), the pool and its priorities (R297, R298),
eligibility and placement (R293-R296, R299), draining and the completion of a nest (R300, R301). -/

namespace Sys2Proof.Machine

/-! Records (R266, R267). -/

def nestLoops (ws : List Word) : Nat := bits (ws.getD 12 0) 61 60 + 1
def nestStart (ws : List Word) (k : Nat) : Int := sextN 40 (bits (ws.getD (4 + 2 * k) 0) 63 24)
def nestStep (ws : List Word) (k : Nat) : Int := sextN 24 (bits (ws.getD (4 + 2 * k) 0) 23 0)
def nestStop (ws : List Word) (k : Nat) : Int := sextN 40 (bits (ws.getD (5 + 2 * k) 0) 63 24)
def nestTile (ws : List Word) (k : Nat) : Nat := bits (ws.getD (5 + 2 * k) 0) 23 0
def nestOrder (ws : List Word) : Nat := bits (ws.getD 12 0) 63 62
def nestStage (ws : List Word) : Nat := bits (ws.getD 12 0) 59 56
def nestPriority (ws : List Word) : Nat := bits (ws.getD 12 0) 55 54
def nestPreload (ws : List Word) (r : Nat) : Nat := bits (ws.getD 12 0) (42 + 3 * r) (40 + 3 * r)
def nestMill (ws : List Word) : Bool := bitAt (ws.getD 13 0) 63
def nestRows (ws : List Word) : Nat := bits (ws.getD 13 0) 62 54
def nestStash (ws : List Word) : Nat := bits (ws.getD 13 0) 46 38
def nestPot (ws : List Word) : Word := ws.getD 3 0
def nestUp (ws : List Word) : Option Word := if bitAt (ws.getD 14 0) 63 then some (refAddr (ws.getD 14 0)) else none
def nestDown (ws : List Word) : Option Word := if bitAt (ws.getD 15 0) 63 then some (refAddr (ws.getD 15 0)) else none

/-- Points of loop k: ⌈(End - Start) / Step⌉, or 0. -/
def nestPoints (ws : List Word) (k : Nat) : Nat :=
  let d := nestStop ws k - nestStart ws k
  let st := nestStep ws k
  if 0 < st then ceilDiv d.toNat st.toNat else ceilDiv (-d).toNat (-st).toNat

/-- Q_k, tile iterations of each loop. -/
def nestCounts (ws : List Word) : List Nat :=
  (List.range (nestLoops ws)).map (fun k => ceilDiv (nestPoints ws k) (nestTile ws k))

def nestTotal (ws : List Word) : Nat := (nestCounts ws).foldl (fun p q => p * q) 1

/-- An entry PC: a multiple of 4, the sign extension of its bit 54. -/
def entryOk (v : Word) : Bool := decide (v.toNat % 4 = 0) && canonical v

/-- A word 14 or 15. -/
def linkOk (v : Word) : Bool := if bitAt v 63 then bits v 62 55 == 0 && bits v 2 0 == 0 else v == 0

/-- The rules of R266 and the bound of R267. -/
def nestOk (ws : List Word) : Bool :=
  let w (i : Nat) : Word := ws.getD i 0
  let n := nestLoops ws
  entryOk (w 0) && (w 1 == 0 || (entryOk (w 1) && nestMill ws)) && decide ((w 3).toNat % 64 = 0) &&
  (List.range 4).all (fun k =>
    if k < n then nestStep ws k != 0 && nestTile ws k != 0 else w (4 + 2 * k) == 0 && w (5 + 2 * k) == 0) &&
  bits (w 12) 53 52 == 0 && bits (w 12) 39 0 == 0 &&
  (List.range 4).all (fun r => decide (nestPreload ws r < n) || nestPreload ws r == 4) &&
  decide (1 ≤ nestRows ws) && decide (nestRows ws ≤ 256) &&
  decide (1 ≤ bits (w 13) 53 47) && decide (bits (w 13) 53 47 ≤ 64) && decide (nestStash ws ≤ 384) && bits (w 13) 37 0 == 0 &&
  linkOk (w 14) && linkOk (w 15) && decide (nestTotal ws ≤ 2 ^ 48)

/-- q_k of Morton index z among n loops: bits k, k + n, k + 2n and on. -/
def mortonCoord (z k n : Nat) : Nat :=
  (List.range 49).foldl (fun q j => if z.testBit (k + j * n) then q + 2 ^ j else q) 0

/-- The tuple of the i-th Morton index whose tuple is in range. -/
def mortonTuple (qs : List Nat) : Nat → Nat → Nat → List Nat
  | 0, _, _ => []
  | fuel + 1, z, i =>
    let t := (List.range qs.length).map (fun k => mortonCoord z k qs.length)
    if (t.zip qs).all (fun p => decide (p.1 < p.2)) then
      (match i with | 0 => t | i + 1 => mortonTuple qs fuel (z + 1) i)
    else mortonTuple qs fuel (z + 1) i

/-- Digits of i, the first loop fastest. -/
def lexTuple : List Nat → Nat → List Nat
  | [], _ => []
  | q :: qs, i => i % q :: lexTuple qs (i / q)

/-- Serpentine: each q_k runs downward while q_{k+1} is odd. -/
def serpTuple : List Nat → List Nat → List Nat
  | q :: qs, t :: ts =>
    let rest := serpTuple qs ts
    (match rest with | [] => t | u :: _ => if u % 2 = 1 then q - 1 - t else t) :: rest
  | _, _ => []

/-- The i-th tile iteration of a record (R267). -/
def nestTuple (ws : List Word) (i : Nat) : List Nat :=
  let qs := nestCounts ws
  match nestOrder ws with
  | 0 => lexTuple qs i
  | 1 => serpTuple qs (lexTuple qs i)
  | 2 => mortonTuple qs (2 ^ 196) 0 i
  | _ => (lexTuple qs.reverse i).reverse

/-- Index of loop k in the i-th tile iteration. -/
def nestIndex (ws : List Word) (i k : Nat) : Word :=
  if k < nestLoops ws then
    wordI (nestStart ws k + ((nestTuple ws i).getD k 0 : Int) * (nestTile ws k : Int) * nestStep ws k)
  else 0

/-! Nests and the pool (R297). -/

def Nest.who (n : Nest) : Who := { lease := n.lease, sub := n.sub, die := n.die }
def Nest.total (n : Nest) : Nat := nestTotal n.words

namespace State

def findNest (s : State) (id : Nat) : Option Nest := s.nests.find? (fun n => n.id == id)
def modNest (s : State) (id : Nat) (f : Nest → Nest) : State :=
  { s with nests := updateWhere (fun n => n.id == id) f s.nests }

/-- Entries that the pool of a die holds, and those of one sublease. -/
def poolCount (s : State) (d : BitVec 2) : Nat := (s.nests.filter (fun n => n.inPool && n.die == d)).length
def poolMine (s : State) (d : BitVec 2) (l b : Byte) : Nat :=
  (s.nests.filter (fun n => n.inPool && n.die == d && n.lease == l && n.sub == b)).length

/-- Work for a die's Crier, once. -/
def wakeCrier (s : State) (d : BitVec 2) : State :=
  if s.pend.contains (.crierPlacement, .die d) then s else s.post .crierPlacement (.die d)

/-- A record of an access of the Crier that failed (R300). -/
def crierRecord (s : State) (n : Nest) (f : XFault) (addr : Word) (code : Nat) : State :=
  s.addRecord 1 n.lease n.sub (s.noticeWords (State.header 0x0B f.cause n.lease n.sub 0xFFFFF) addr (word code) 0 n.lease)

/-- An access of the Crier reaches its line, or something stands in its way. -/
def crierLine (s : State) (n : Nest) (pa : Nat) (write : Bool) : Except State State :=
  if s.ownedLine (pa / 128) write then .error s
  else (s.detectLine n.who (pa / 128)).map (fun s => s.touch n.who .l2 (pa / 128) write false .no)

/-- The completion-pot addition (R265, R300). -/
def nestPay (s : State) (n : Nest) : Except State State :=
  if nestPot n.words = 0 then .ok s
  else match s.potCheck n.who (some .device) (nestPot n.words) with
    | .error (.fault s f) => .ok (s.crierRecord n f (nestPot n.words) 2)
    | .error (.wait s) => .error s
    | .ok (pa, s) => (s.crierLine n pa true).map (fun s => s.potPut pa 1)

/-- The downstream word (R299, R300). The Crier holds no pin window, and R72 asks it for none (log 71). -/
def nestTell (s : State) (n : Nest) : Except State State :=
  match nestDown n.words with
  | none => .ok s
  | some va =>
    match s.unitCheck n.who .store .strand 8 va 8 with
    | .error (.fault s f) => .ok (s.crierRecord n f va 1)
    | .error (.wait s) => .error s
    | .ok (pa, s) => (s.crierLine n pa true).map (fun s => s.putBytes none pa (List.replicate 8 0xFF))

/-- A nest completes when nothing of it is left to place and its strands, its Millers among them, have drained (R286, R301, log
48): the pot, then the downstream word. A line in the way leaves it for a later turn. -/
def finishNest (s : State) (id : Nat) : State :=
  match s.findNest id with
  | none => s
  | some n =>
    if n.inPool || n.live != 0 || s.ctxs.any (fun k => k.active && k.isMiller && k.nest == n.id) then s
    else
      match s.nestPay n >>= (fun s => s.nestTell n) with
      | .error s' => (s.undone s').post .drainComplete (.nest n.die n.id)
      | .ok s => { s with nests := s.nests.filter (fun x => x.id != id) }

/-- A record accepted into the pool (R265, R267, R297): a nest with no iteration completes at once. -/
def acceptNest (s : State) (d : BitVec 2) (l b : Byte) (level : BitVec 2) (ws : List Word) : State :=
  let (id, s) := s.fresh
  let n : Nest := { id := id, die := d, lease := l, sub := b, level := level, words := ws, next := 0, live := 0, waited := 0
                    raised := false, inPool := nestTotal ws != 0, gated := (nestUp ws).isSome, failed := false }
  let s := { s with nests := s.nests ++ [n] }
  if n.inPool then s.wakeCrier d else s.finishNest id

end State

/-- The address checks of `launch` (R265): the watermark words as accesses of the launcher (R72). -/
def launchAddrs (s : State) (w : Who) (c : Ctx) (ws : List Word) : ARes State := do
  let word8 (s : State) (k : Acc) (va : Option Word) : ARes State :=
    match va with
    | none => .ok s
    | some va => (s.checked w c .engine k .strand 8 va 8).map Prod.snd
  let s ← word8 s .load (nestUp ws)
  let s ← word8 s .store (nestDown ws)
  if nestPot ws = 0 then .ok s else (s.potCheck w (some .device) (nestPot ws)).map Prod.snd

/-- The pool or the sublease's quota is full (R297). -/
def State.poolFull (s : State) (d : BitVec 2) (l b : Byte) : Bool :=
  decide (256 ≤ s.poolCount d) || decide ((((s.sub? l b).map Sub.quota).getD 0).toNat ≤ s.poolMine d l b)

/-- `launch` (R265): a release at device scope (R286). -/
def execLaunch (d a : XReg) (s : State) := settle (do
  command [d, a] s
  let va := s.getX a
  check (decide (va.toNat % 128 = 0)) s 0x04 va
  let (ws, s) ← readBlock s va 16
  check (nestOk ws) s 0x1C va
  let s ← scalarAcc (launchAddrs s s.ctx.who s.ctx ws)
  let s ← release (some .device) s
  let c := s.ctx
  if s.poolFull c.die c.lease c.sub then .ok ((s.setX d 1).advance 4)
  else .ok ((s.acceptNest c.die c.lease c.sub (BitVec.ofNat 2 c.level) ws).setX d 0 |>.advance 4))

/-! Priorities (R298). -/

/-- Effective priority: raised once the nest has waited more than 2^16 cycles. -/
def State.nestLevel (s : State) (n : Nest) : Nat :=
  let cap := (((s.sub? n.lease n.sub).map Sub.cap).getD 0).toNat
  let p := min (nestPriority n.words) cap
  if n.raised || decide (2 ^ 16 < n.waited) then min (p + 1) 3 else p

/-- A nest that has waited more than 2^16 cycles is raised. -/
def execPriorityAging (s : State) : Host.Outcome State Fault Refusal :=
  match s.arg with
  | .nest _ id => .next (s.modNest id (fun n => if n.inPool && decide (2 ^ 16 < n.waited) then { n with raised := true } else n))
  | _ => .next s

/-- The nests of a die in the order in which one placement looks at them: by effective priority, then those after the
one last served at that priority. -/
def State.candidates (s : State) (d : BitVec 2) : List Nest :=
  let pool := s.nests.filter (fun n => n.inPool && n.die == d)
  [3, 2, 1, 0].flatMap (fun p =>
    let here := pool.filter (fun n => s.nestLevel n == p)
    match lookupN p (s.die d).served with
    | none => here
    | some last => here.filter (fun n => decide (last < n.id)) ++ here.filter (fun n => decide (n.id ≤ last)))

/-! Eligibility (R295). -/

/-- A slot entry names a sublease as an occupant. -/
def slotNames (l b : Byte) (e : Word) : Bool :=
  let tag := l.toNat * 256 + b.toNat
  bits e 15 0 == tag || bits e 31 16 == tag || bits e 47 32 == tag

/-- The slot in force on a die names a sublease; some slot of the die's table does. -/
def Die.has (x : Die) (l b : Byte) : Bool := x.present.isSome && slotNames l b x.inForce
def Die.names (x : Die) (l b : Byte) : Bool := x.slots.toList.any (fun e => bitAt e 63 && slotNames l b e)

/-- A sublease has its turn on a die: it is an occupant of the slot in force, or no slot names it (log 16). -/
def State.onTurn (s : State) (d : BitVec 2) (l b : Byte) : Bool :=
  let x := s.die d
  !(s.lease? l).any (fun k => k.pausedAt.isSome) && (x.has l b || !x.names l b)

/-- Another occupant of the slot in force has the core. -/
def State.coreTaken (s : State) (d : BitVec 2) (l b core : Byte) : Bool :=
  let x := s.die d
  x.present.isSome && (List.range 3).any (fun i =>
    let o := bits x.inForce (16 * i + 15) (16 * i)
    o != l.toNat * 256 + b.toNat &&
    ((s.sub? (BitVec.ofNat 8 (o / 256)) (BitVec.ofNat 8 o)).map (fun k => k.cores.contains core)).getD false)

/-- Words of the record of a context's nest. -/
def State.nestWords (s : State) (k : Ctx) : List Word := ((s.findNest k.nest).map Nest.words).getD []

/-- Strands that a front end holds for a placement: those present, and saved ones of the same sublease. -/
def State.feStrands (s : State) (n : Nest) (core : Nat) (f : Bool) : List Ctx :=
  s.ctxs.filter (fun k => k.active && !k.isMiller && k.core == core && k.fe == f &&
    (k.present || (k.lease == n.lease && k.sub == n.sub)))

/-- Output slots of a context that still have elements to store (R286, R303). -/
def State.pendingOut (s : State) (k : Ctx) : List Nat :=
  if k.isMiller then []
  else (((s.core k.core).fe k.fe).streams.filter (fun t => t.2.ctx == k.id && t.2.output && !t.2.ahead.isEmpty)).map Prod.fst

/-- The stash banks of a core cannot pass to a sublease yet: a context of another one is being saved or has elements to store there,
or an engine command of another one has ranges in the scoreboard (R303). -/
def State.banksHeld (s : State) (core : Nat) (l b : Byte) : Bool :=
  s.foreignBoard core l b ||
  s.ctxs.any (fun k => k.present && !k.isMiller && k.core == core && (k.lease != l || k.sub != b) &&
    (k.phase == .stopping || !(s.pendingOut k).isEmpty))

/-- Whether a scalar context, by its `SELF` bits 9:0, may take the next iteration of a nest. -/
def State.eligible (s : State) (n : Nest) (coord : BitVec 10) : Bool :=
  let core : Byte := coord.extractLsb' 2 8
  let f := coord.getLsbD 1
  let mine := s.feStrands n core.toNat f
  let theirs := s.feStrands n core.toNat (!f)
  let rowsThere := theirs.any (fun k => k.phase != .draining && decide (128 < nestRows (s.nestWords k)))
  let other := s.feActive core.toNat (!f)
  let need (ks : List Ctx) : Nat := ks.foldl (fun a k => a + nestStash (s.nestWords k)) 0
  let dead := !s.ctxs.any (fun k => k.present && !k.isMiller && k.core == core.toNat && !k.vdead)
  let cluster := (coord.extractLsb' 4 6).toNat
  let hold := (s.mill cluster).holder
  coord.extractLsb' 8 2 == n.die &&
  (s.sub? n.lease n.sub).any (fun b => b.cores.contains core && (!nestMill n.words || b.mills.contains (coord.extractLsb' 4 6))) &&
  s.onTurn n.die n.lease n.sub && !s.coreTaken n.die n.lease n.sub core &&
  !mine.any (fun k => k.id.toNat == coord.toNat) && !mine.any (fun k => k.unit) &&
  decide (nestRows n.words ≤ if other then 128 else 256) && !rowsThere &&
  decide (need mine + nestStash n.words ≤ if other then 192 else 384) && (!other || decide (need theirs ≤ 192)) &&
  (!other || (s.core core.toNat).split || dead) &&
  (!nestMill n.words || hold.isNone || hold == some n.id) && !s.banksHeld core.toNat n.lease n.sub

/-- Whether a crew of the nest stands on a cluster (R292, R296). -/
def State.crewAt (s : State) (n : Nest) (cluster : Nat) : Bool :=
  s.ctxs.any (fun k => k.active && k.nest == n.id && k.cluster == cluster)

/-- The context of a placement (R296): on a cluster with a crew of the nest first, then by lowest coordinate. -/
def State.chooseCtx (s : State) (n : Nest) : Option (BitVec 10) :=
  let all := (List.range 256).map (fun i => BitVec.ofNat 10 (n.die.toNat * 256 + i))
  let ok := all.filter (s.eligible n)
  match ok.find? (fun c => s.crewAt n (c.extractLsb' 4 6).toNat) with
  | some c => some c
  | none => ok.head?

/-! Placement (R293, R294). -/

/-- A new strand, or with no coordinate the crew's Miller. -/
def Nest.strand (n : Nest) (coord : BitVec 10) : Ctx :=
  let ws := n.words
  let ix (k : Nat) : Word := nestIndex ws n.next k
  let pre (r : Nat) : Word := if nestPreload ws r < 4 then ix (nestPreload ws r) else 0
  { ctx0 with
    phase := .running, self := BitVec.ofNat 20 (nestStage ws * 2 ^ 16 + coord.toNat), lease := n.lease, sub := n.sub
    nest := n.id, status := n.level.setWidth 64, pc := ws.getD 0 0, unit := true
    x := Vector.ofFn (fun r : Fin 32 =>
      if r.val = 9 then ws.getD 2 0 else if 10 ≤ r.val && r.val ≤ 13 then pre (r.val - 10) else 0)
    nestidx := Vector.ofFn (fun k : Fin 4 => ix k.val) }

def Nest.miller (n : Nest) (cluster : Nat) : Ctx :=
  { ctx0 with
    phase := .running, self := BitVec.ofNat 20 (nestStage n.words * 2 ^ 16 + 2 ^ 10 + cluster * 16), lease := n.lease, sub := n.sub
    nest := n.id, status := n.level.setWidth 64, pc := n.words.getD 1 0, unissued := true
    x := Vector.ofFn (fun r : Fin 32 => if r.val = 9 then n.words.getD 2 0 else 0) }

/-- A context starts. -/
def State.addCtx (s : State) (k : Ctx) : State :=
  if s.ctx.active then { s with others := s.others ++ [k] } else { s with ctx := k, lane := none }

/-- A Mill is taken by a crew: its contents are cleared first when they are another sublease's (R341). -/
def State.holdMill (s : State) (cluster : Nat) (n : Nest) : State :=
  let m := s.mill cluster
  let mine := some (n.lease, n.sub)
  let m := if m.owner.isSome && m.owner != mine then mill0 else m
  s.setMill cluster { m with holder := some n.id, owner := mine }

/-! The mapping table (R177). -/

/-- A saved mapping: every line unfilled. -/
def StashMap.unfilled (m : StashMap) : StashMap := { m with lines := [] }

/-- The stash mappings that a context has made are removed, their dirty lines written back first (R43), and its stream slots with
their scoreboard entries. -/
def State.dropMaps (s : State) (k : Ctx) : State :=
  if k.isMiller then s
  else
    let fe := (s.core k.core).fe k.fe
    let gone (e : SbEntry) : Bool :=
      match e.op with
      | .engine _ => false
      | .stream f slot => f == k.fe && fe.streams.any (fun t => t.1 == slot && t.2.ctx == k.id)
    let s := (fe.maps.filter (fun m => m.ctx == k.id)).foldl (fun s m => s.stashFlush k.who m) s
    s.modCore k.core (fun c => { c with board := c.board.filter (fun e => !gone e) }.modFe k.fe (fun f =>
      { f with maps := f.maps.filter (fun m => m.ctx != k.id), streams := f.streams.filter (fun t => t.2.ctx != k.id) }))

/-- The front end's other context of the same sublease, which shares the mapping table. -/
def State.sharer (s : State) (k : Ctx) : Option Ctx :=
  s.ctxs.find? (fun j => j.active && k.sibling j && j.lease == k.lease && j.sub == k.sub && j.phase != .draining)

/-- The mappings that a context has made, and that its sibling shares, stay the sibling's, in the table or in its save (R177, log
80); those that nobody shares end. -/
def State.leaveMaps (s : State) (k : Ctx) : State :=
  if k.isMiller then s
  else match s.sharer k with
    | none => s.dropMaps k
    | some j =>
      if j.phase == .saved then
        let mine := ((s.core k.core).fe k.fe).maps.filter (fun m => m.ctx == k.id)
        let keep (a : SaveArea) : SaveArea := { a with maps := a.maps ++ mine.map (fun m => { m.unfilled with ctx := j.id }) }
        (s.dropMaps k).mapCtxs (fun x => x == j) (fun x => { x with area := x.area.map keep })
      else
        (s.modCore k.core (fun c => c.modFe k.fe (fun f =>
          { f with maps := updateWhere (fun m => m.ctx == k.id) (fun m => { m with ctx := j.id }) f.maps }))).dropMaps k

/-- The vector unit of a front end passes to a sublease: what a draining context of another one has still in the mapping table is
removed (R177). -/
def State.passMaps (s : State) (core : Nat) (f : Bool) (l b : Byte) : State :=
  let out (k : Ctx) : Bool := k.present && !k.isMiller && k.core == core && (k.fe == f || !(s.core core).split) &&
    (k.lease != l || k.sub != b)
  (s.ctxs.filter out).foldl State.leaveMaps s

/-- The next iteration of a nest begins on a context. -/
def State.place (s : State) (n : Nest) (coord : BitVec 10) (level : Nat) : State :=
  let core := (coord.extractLsb' 2 8).toNat
  let f := coord.getLsbD 1
  let cluster := (coord.extractLsb' 4 6).toNat
  let first := nestMill n.words && (s.mill cluster).holder.isNone
  let crew := first && n.words.getD 1 0 != 0
  let own := ((s.sub? n.lease n.sub).bind (fun b => (b.pipes.find? (fun p => p.1 == coord.extractLsb' 1 9)).map Prod.snd)).getD 0
  let s := if first then s.holdMill cluster n else s
  let s := if crew then s.addCtx (n.miller cluster) else s
  let s := (s.passMaps core f n.lease n.sub).modCore core (fun c => c.modFe f (fun x => { x with pipeown := own }))
  let k := n.strand coord
  let s := ((s.addCtx k).endPass k.id).arrange core
  let s := s.modNest n.id (fun x => { x with
    next := n.next + 1, live := n.live + 1, waited := 0, raised := false, gated := false
    inPool := decide (n.next + 1 < n.total) })
  (s.modDie n.die (fun x => { x with served := insertN level n.id x.served })).countDie n.die n.lease n.sub 0x24 1

/-- The upstream gate of a nest (R299, R300): open, and the state after reading the word. -/
def State.gate (s : State) (n : Nest) : Bool × State :=
  if !n.gated then (true, s)
  else match nestUp n.words with
    | none => (true, s)
    | some va =>
      match s.unitCheck n.who .load .strand 8 va 8 with
      | .error (.fault s f) =>
        let s := (s.crierRecord n f va 0).modNest n.id (fun x => { x with failed := true, inPool := false })
        (false, s.finishNest n.id)
      | .error (.wait s) => (false, s)
      | .ok (pa, s) =>
        match s.crierLine n pa false with
        | .error s => (false, s)
        | .ok s =>
          let v := if s.poisonedAt pa 8 then 0 else s.mem.num pa 8
          if v = 0 then (false, s) else (true, s.modNest n.id (fun x => { x with gated := false }))

/-- One placement: the first candidate that is open and fits. -/
def State.placeFirst (s : State) : List Nest → State
  | [] => s
  | n :: ns =>
    match s.gate n with
    | (false, s) => s.placeFirst ns
    | (true, s) =>
      match s.chooseCtx n with
      | none => s.placeFirst ns
      | some coord => s.place n coord (s.nestLevel n)

/-- `CRIER_PLACEMENT`: one placement of a die's Crier; while its pool holds nests it looks again. -/
def execCrierPlacement (s : State) : Host.Outcome State Fault Refusal :=
  match s.arg with
  | .die d =>
    let ns := s.candidates d
    let s := if s.cpFrozen d || ns.isEmpty then s else if s.asleep d then s.callWake d else s.placeFirst ns
    .next (if 0 < s.poolCount d then s.wakeCrier d else s)
  | _ => .next s

/-! Draining (R301). -/

/-- The transfers of a context's output slots are asked for. -/
def State.sendOut (s : State) (k : Ctx) : State :=
  (s.pendingOut k).foldl (fun s i =>
    let a : EventArg := .stream (k.self.extractLsb' 1 9) (BitVec.ofNat 4 i)
    if s.pend.contains (.streamTransfer, a) then s else s.post .streamTransfer a) s

/-- A context becomes free: its stream slots and the mappings that it does not share end with it (R177, R293, R301). -/
def State.freeCtx (s : State) (k : Ctx) : State :=
  let s := if k.present then s.leaveMaps k else s
  let s := if k = s.ctx then { s with ctx := ctx0, lane := none } else { s with others := s.others.erase k }
  let mine (c : Coll) : Bool := c.ctx == k.id && k.handles.any (fun h => h.2 == c.id) && (match c.state with | .ended _ => true | _ => false)
  let gone := (s.colls.filter mine).map Coll.id
  let s := { s with colls := s.colls.filter (fun c => !gone.contains c.id), peers := s.peers.filter (fun p => !gone.contains p.index) }
  if k.isMiller then s else s.arrange k.core

/-- When the last of a crew has drained, its Mill is free (R294, R301). -/
def State.releaseMill (s : State) (k : Ctx) : State :=
  let m := s.mill k.cluster
  if m.holder == some k.nest && !s.ctxs.any (fun j => j.active && j.nest == k.nest && j.cluster == k.cluster) then
    s.setMill k.cluster { m with holder := none }
  else s

/-- An engine command of a context has not retired: a copy or a multicast, or a Miller's `mldb` (R268, R301). -/
def State.commandsLeft (s : State) (k : Ctx) : Bool :=
  s.ops.any (fun o => o.ctx == k.id) || (k.isMiller && (s.mill k.cluster).ops.any (fun o => !o.2.lines.isEmpty))

/-- `DRAIN_COMPLETE`: a draining context whose engine commands have retired, and whose stream elements are stored, becomes
free; the last of a nest completes it. -/
def execDrainComplete (s : State) : Host.Outcome State Fault Refusal :=
  match s.arg with
  | .ctx c =>
    match s.findCtx c with
    | none => .next s
    | some k =>
      if k.phase != .draining then .next s
      else if s.commandsLeft k then .next (s.post .drainComplete (.ctx c))
      else if !(s.pendingOut k).isEmpty then .next ((s.sendOut k).post .drainComplete (.ctx c))
      else
        let s := (s.freeCtx k).releaseMill k
        let s := if k.isMiller then s else s.modNest k.nest (fun n => { n with live := n.live - 1 })
        .next (s.finishNest k.nest)
  | .nest _ id => .next (s.finishNest id)
  | _ => .next s

end Sys2Proof.Machine
end

