-- ==== Sys2Proof/Machine/Inject.lean ====
section
/-! DEFINITION. Error injection (R328, R329), and what it does to the L2, DRAM and lanes. -/

namespace Sys2Proof.Machine

/-- A correctable error of a die is counted (R322, R354). -/
def State.corrected (s : State) (d : BitVec 2) : State := s.countDie d 0xFF 0xFF 0x25 1

/-- Every word of a way's line is destroyed (R336). -/
def State.corruptLine (s : State) (d : BitVec 2) (y : L2Way) (i : Nat) (words : BitVec 16) : State :=
  let fix (z : L2Way) : L2Way :=
    { z with bad := (i, ((lookupN i z.bad).getD 0) ||| words) :: z.bad.filter (fun b => b.1 != i) }
  s.modDie d (fun x => { x with l2 := updateWhere (fun z => z == y) fix x.l2 })

/-- Words of a DRAM line are destroyed. -/
def State.corruptDram (s : State) (line : Nat) (words : BitVec 16) : State :=
  { s with dramErr := insertN line (((lookupN line s.dramErr).getD 0) ||| words) s.dramErr }

/-- The injection is done: Arm clears and an entry is written (R329, R338). -/
def State.injected (s : State) (d : BitVec 2) (v : Word) (owner : Option (Byte × Byte)) : State :=
  let s := s.modDie d (fun x => { x with errinj := v &&& 0x7FFFFFFFFFFFFFFF })
  let (l, b) : Byte × Byte := owner.getD (0, 0)
  (s.addBox (State.header 9 0 l b 0xFFFFF) v).1

/-- A pending injection is performed: a line of the L2 where it is present, and otherwise it stays armed for the line's next
fill; a line of DRAM; a read of the Reeve's memory; an instruction of the command processors. That of a lane stays armed
for the lane's next element group (R329). -/
def State.performInjection (s : State) (d : BitVec 2) : State :=
  let v := (s.die d).errinj
  let line := bits v 47 7
  let sev := bits v 59 58
  if !bitAt v 63 then s
  else match bits v 62 60 with
    | 0 =>
      match s.l2Find d line with
      | none => s
      | some y =>
        let s' := if sev = 1 then s.corruptLine d y (line % 4) 0xFFFF else s.corrected d
        s'.injected d v ((s.die d).ownerOf (y.way / 4))
    | 1 => (if sev = 1 then s.corruptDram line 0xFFFF else s.corrected d).injected d v none
    | 2 => s
    | 3 => (if sev = 1 then s.post .reeveFault .none else s.corrected d).injected d v none
    | _ => (if sev = 0 then s.corrected d else s.post .cpFault (.die d)).injected d v none

/-- An injection that is armed for a lane of a core (R329): whether the error repeats at the replay. -/
def State.laneInjection (s : State) (core lane : Nat) : Option Bool :=
  let v := (s.die (BitVec.ofNat 2 (core / 64))).errinj
  if bitAt v 63 && bits v 62 60 == 2 && bits v 9 2 == core && bits v 15 10 == lane then some (bits v 59 58 == 1) else none

/-- The lane's next element group has met it; one that is corrected counts in the core (R353). -/
def State.laneInjected (s : State) (core : Nat) : State :=
  let d := BitVec.ofNat 2 (core / 64)
  let v := (s.die d).errinj
  (if bits v 59 58 == 0 then s.countCtx 0x0C 1 else s).injected d v none

/-- An injection is armed, in place of any pending one (R329): what strikes stored bits is performed at once, what waits for
a read of the Reeve's memory or for an instruction of the command processors at a step of its own. -/
def State.setErrinj (s : State) (d : BitVec 2) (v : Word) : State :=
  let s := s.modDie d (fun x => { x with errinj := v })
  if bitAt v 63 && 3 ≤ bits v 62 60 then s.post .errinjPerform (.die d) else s.performInjection d

end Sys2Proof.Machine
end

