-- ==== Sys2Proof/Machine/Maint.lean ====
section
/-! DEFINITION. Fences, cache maintenance, removal of cached translations and stash mappings, major 0x25
(R171-R177, R41-R43). -/

namespace Sys2Proof.Machine

/-- `fence` (R171, R282): with a nonzero before-mask and after-mask it waits for the context's engine commands. -/
def execFence (sc : Scope) (a b : XReg) (s : State) := settle (do
  legal .frontMiller [a, b] s
  drained s
  if (s.getX a).toNat % 65536 = 0 || (s.getX b).toNat % 65536 = 0 then .ok (s.advance 4)
  else
    let s' ← release (some sc) s
    .ok ((s'.acquire (some sc)).advance 4))

/-- `ifence` (R172): a fetch of this model reads memory as it stands (log 9). -/
def execIfence (s : State) := settle (do
  legal .frontMiller [] s
  .ok (s.advance 4))

/-! `cacheop` (R173). -/

/-- The lines of a count of bytes from an address rounded down on, as virtual addresses. -/
def cacheLines (a : Word) (n : Nat) : List Word :=
  if n = 0 then []
  else
    let base := a &&& ~~~127
    (List.range ((a.toNat % 128 + n - 1) / 128 + 1)).map (fun i => base + word (128 * i))

namespace State

/-- The device physical line that a form acts on, or none where it is skipped. -/
def cacheLine (s : State) (k : Acc) (va : Word) : Res (Option Nat × State) :=
  if (s.stashAt s.ctx.core va).isSome then .ok (none, s)
  else match s.translate s.ctx.who k va (fun e => if e.cls = 0 then none else some 0x0D) with
    | .ok (e, s) => .ok (some (e.phys va / 128), s)
    | .error (.fault s _) => .ok (none, s)
    | .error (.wait s) => waits s

/-- The line is written back to DRAM where it is dirty in the L2 and stays, clean. -/
def l2Clean (s : State) (w : Who) (line : Nat) : State :=
  let d := l2Die w line
  let bit : BitVec 4 := 1 <<< (line % 4)
  match s.l2Find d line with
  | none => s
  | some x =>
    if x.dirty.getLsbD (line % 4) then
      let (l, b) : Byte × Byte := ((s.die d).ownerOf (x.way / 4)).getD (0xFF, 0xFF)
      ((s.dramWrite line).dramBytes line l b 128).l2Mod d x (fun y => { y with dirty := y.dirty &&& ~~~bit })
    else s

end State

/-- One form of `cacheop` over its lines. A line that an engine owns, or that meets an error, is awaited by the forms that complete;
the forms that only fetch return at issue, and fetch no such line (log 79). -/
def cacheop (k : Acc) (fetch : Bool) (act : State → Who → Nat → State) (a b : XReg) (s : State) : Res State := do
  legal .front [a, b] s
  drained s
  let n := (s.getX b).toNat
  check (decide (n ≤ 0x1000000)) s 0x02 (s.getX b)
  let line (s : State) (va : Word) : Res State := do
    match (← s.cacheLine k va) with
    | (none, s) => .ok s
    | (some l, s) =>
      if s.ownedLine l (k == .store) then if fetch then .ok s else waits s
      else match s.detectLine s.ctx.who l with
        | .error s => if fetch then .ok s else waits s
        | .ok s => .ok (act s s.ctx.who l)
  let s' ← foldE line s (cacheLines (s.getX a) n)
  .ok (s'.advance 4)

def execCacheopPf (a b : XReg) (s : State) :=
  settle (cacheop .load true (fun s w l => s.touch w (State.pathOf s.ctx) l false false .normal) a b s)
def execCacheopPf2 (a b : XReg) (s : State) := settle (cacheop .load true (fun s w l => s.touch w .l2 l false false .no) a b s)
def execCacheopPfw (a b : XReg) (s : State) :=
  settle (cacheop .store true (fun s w l =>
    (s.recallLine w (State.pathOf s.ctx) l true).touch w (State.pathOf s.ctx) l false false .normal) a b s)
def execCacheopEvict (a b : XReg) (s : State) := settle (cacheop .load false (fun s w l => s.recallL1 w s.ctx.core l true) a b s)
def execCacheopClean (a b : XReg) (s : State) := settle (cacheop .load false (fun s w l => s.l2Clean w l) a b s)

/-! `tlbinv` (R174). -/

namespace State

/-- The mappings of a front end that p selects are written back, and all their lines return to unfilled (R43). -/
def unfillMaps (s : State) (w : Who) (n : Nat) (f : Bool) (p : StashMap → Bool) : State :=
  let maps := (((s.core n).fe f).maps).filter p
  let s := maps.foldl (fun s m => s.stashFlush w m) s
  s.modCore n (fun c => c.modFe f (fun x => { x with maps := updateWhere p (fun m => { m with lines := [] }) x.maps }))

/-- The same for a lease's sublease, or for all of it: every mapping with a line that was filled under a page that p selects. -/
def unfill (s : State) (lease : Byte) (sub : Option Byte) (p : Tlb → Bool) : State :=
  let mine (k : Ctx) : Bool := k.present && !k.isMiller && k.lease == lease && (sub == none || sub == some k.sub)
  let covered (k : Ctx) (m : StashMap) : Bool :=
    m.lines.any (fun l => l.entry.lease == k.lease && l.entry.sub == k.sub && p l.entry)
  (s.ctxs.filter mine).foldl (fun s k => s.unfillMaps k.who k.core k.fe (covered k)) s

/-- Removes the cached translations that p selects, with the stash lines under them, and the walk-cache entries of a lease or
sublease (R174, log 6). -/
def dropTlb (s : State) (lease : Byte) (sub : Option Byte) (p : Tlb → Bool) : State :=
  let s := { s with
    tlb := s.tlb.filter (fun e => !(e.lease == lease && (sub == none || sub == some e.sub) && p e))
    walks := s.walks.filter (fun e => !(e.lease == lease && (sub == none || sub == e.sub))) }
  s.unfill lease sub p

/-- The output streams of a front end have elements to store, which were translated at their dispatch (R49). -/
def storesLeft (s : State) (core : Nat) (f : Bool) (p : CtxId → Bool) : Bool :=
  ((s.core core).fe f).streams.any (fun q => q.2.output && p q.2.ctx && q.2.ahead.any (fun x => !x.skip))

/-- An engine operation of a lease or sublease (R268) has not been performed whole: a copy or a multicast, a collective that has
started, an object that a Gleaner copies, the source of an `mldb`, what an output stream has still to store. -/
def busy (s : State) (lease : Byte) (sub : Option Byte) : Bool :=
  let mine (l b : Byte) : Bool := l == lease && (sub == none || sub == some b)
  s.ops.any (fun o => mine o.lease o.sub) || s.colls.any (fun c => mine c.lease c.sub && c.state == .started) ||
  s.gleans.any (fun g => mine g.lease g.sub && g.step != .done && !g.owns.isEmpty) ||
  s.mills.any (fun m => m.2.owner.any (fun o => mine o.1 o.2) && m.2.ops.any (fun o => !o.2.lines.isEmpty)) ||
  s.ctxs.any (fun k => k.present && !k.isMiller && mine k.lease k.sub && s.storesLeft k.core k.fe (fun c => c == k.id))

end State

/-- Forms of stage 1: the sublease of the issuer's lease in xb. -/
def tlbinv1 (b : XReg) (regs : List XReg) (p : Tlb → Bool) (s : State) : Res State := do
  legal .front regs s
  check (decide (2 ≤ s.ctx.level)) s 0x03 s.enc
  drained s
  let n : Byte := (s.getX b).setWidth 8
  check (s.sub? s.ctx.lease n).isSome s 0x02 (s.getX b)
  if s.busy s.ctx.lease (some n) then waits s
  else .ok ((s.dropTlb s.ctx.lease (some n) p).advance 4)

/-- Forms of stage 2: the lease in xb. -/
def tlbinv2 (b : XReg) (regs : List XReg) (p : Tlb → Bool) (s : State) : Res State := do
  legal .front regs s
  check (decide (3 ≤ s.ctx.level)) s 0x03 s.enc
  drained s
  let n : Byte := (s.getX b).setWidth 8
  check (s.lease? n).isSome s 0x02 (s.getX b)
  if s.busy n none then waits s
  else .ok ((s.dropTlb n none p).advance 4)

def execTlbinvS1 (a b : XReg) (s : State) :=
  settle (tlbinv1 b [a, b] (fun e => e.covers (s.getX a)) s)
def execTlbinvS1all (b : XReg) (s : State) := settle (tlbinv1 b [b] (fun _ => true) s)
def execTlbinvS2 (a b : XReg) (s : State) := settle (tlbinv2 b [a, b] (fun e => e.covers2 (s.getX a).toNat) s)
def execTlbinvS2all (b : XReg) (s : State) := settle (tlbinv2 b [b] (fun _ => true) s)

/-! Stash mappings (R41, R175, R176). -/

namespace State

/-- Byte offsets that a front end owns: first, and one past the last (R41). -/
def stashRange (s : State) (core : Nat) (f : Bool) : Nat × Nat :=
  if (s.core core).split then (if f then (196608, 393216) else (0, 196608)) else (0, 393216)

end State

/-- Whether address + length - 1 lies in the same canonical half as the address (R175). -/
def sameHalf (a n : Word) : Bool :=
  let last := a.toNat + n.toNat - 1
  canonical a && (if a.toNat < 2 ^ 54 then decide (last < 2 ^ 54) else decide (last < 2 ^ 64))

def execStashmap (d a b : XReg) (s : State) := settle (do
  legal .front [d, a, b] s
  drained s
  let off := s.getX d
  let va := s.getX a
  let len := s.getX b
  let c := s.myCore
  let f := s.myFe
  let (lo, hi) := s.stashRange s.ctx.core s.ctx.fe
  let meetsOff (m : StashMap) : Bool := decide (m.off < off.toNat + len.toNat) && decide (off.toNat < m.off + m.len)
  check (va.toNat % 128 == 0) s 0x04 va
  check (off.toNat % 128 == 0) s 0x02 off
  check (len.toNat % 128 == 0 && len != 0) s 0x02 len
  check (decide (lo ≤ off.toNat) && decide (off.toNat + len.toNat ≤ hi)) s 0x02 off
  check (!f.maps.any meetsOff) s 0x02 off
  check (sameHalf va len) s 0x02 va
  check (!(c.fe0.maps ++ c.fe1.maps).any (fun m => meets m.addr m.len va len.toNat)) s 0x02 va
  check (decide (f.maps.length < 16)) s 0x02 0
  let m : StashMap := { ctx := s.ctx.id, off := off.toNat, addr := va, len := len.toNat, lines := [] }
  .ok ((s.modMyFe (fun f => { f with maps := f.maps ++ [m] })).advance 4))

/-- `stashunmap` (R176): the dirty lines are written back first. -/
def execStashunmap (a : XReg) (s : State) := settle (do
  legal .front [a] s
  drained s
  let off := s.getX a
  match s.myFe.maps.find? (fun m => m.off == off.toNat) with
  | none => raise s 0x02 off
  | some m =>
    if s.boardHit s.ctx.core m.off m.len then waits s
    else .ok (((s.stashFlush s.ctx.who m).modMyFe (fun f => { f with maps := f.maps.filter (fun k => k.off != m.off) })).advance 4))

end Sys2Proof.Machine
end

