-- ==== Sys2Proof/Machine/Control.lean ====
section
/-! DEFINITION. Branches and jumps, majors 0x0C-0x16 (R150-R152), with the targets of R130. -/

namespace Sys2Proof.Machine

/-- Target of formats B and J (R130). -/
def target {n : Nat} (pc : Word) (o : BitVec n) : Word := pc + sext o * 4

/-- A compare branch (R150). -/
def branch (taken : Word → Word → Bool) (a b : XReg) (o : BitVec 16) (s : State) : Res State := do
  legal .any [a, b] s
  .ok (if taken (s.getX a) (s.getX b) then s.setPc (target s.pc o) else s.advance 4)

/-- The stored bits 0 to `VL` - 1 of a mask, the rest read 0 (R151). -/
def maskVl (c : Ctx) (m : MReg) : BitVec 4096 := c.mask m &&& BitVec.ofNat 4096 (2 ^ (c.vl.toNat % 8192) - 1)

/-- A mask branch (R151): it waits for the vector queue. -/
def maskBranch (taken : BitVec 4096 → BitVec 4096 → Bool) (m : MReg) (o : BitVec 16) (s : State) : Res State := do
  legal .front [] s
  drained s
  let full := BitVec.ofNat 4096 (2 ^ (s.ctx.vl.toNat % 8192) - 1)
  .ok (if taken (maskVl s.ctx m) full then s.setPc (target s.pc o) else s.advance 4)

def execBeq (a b : XReg) (o : BitVec 16) (s : State) := settle (branch (fun x y => x == y) a b o s)
def execBne (a b : XReg) (o : BitVec 16) (s : State) := settle (branch (fun x y => x != y) a b o s)
def execBlt (a b : XReg) (o : BitVec 16) (s : State) := settle (branch (fun x y => x.slt y) a b o s)
def execBge (a b : XReg) (o : BitVec 16) (s : State) := settle (branch (fun x y => !x.slt y) a b o s)
def execBltu (a b : XReg) (o : BitVec 16) (s : State) := settle (branch (fun x y => x.ult y) a b o s)
def execBgeu (a b : XReg) (o : BitVec 16) (s : State) := settle (branch (fun x y => !x.ult y) a b o s)
def execBany (m : MReg) (o : BitVec 16) (s : State) := settle (maskBranch (fun b _ => b != 0) m o s)
def execBall (m : MReg) (o : BitVec 16) (s : State) := settle (maskBranch (fun b full => b == full) m o s)
def execBnone (m : MReg) (o : BitVec 16) (s : State) := settle (maskBranch (fun b _ => b == 0) m o s)

/-- `jal` (R152). -/
def execJal (d : XReg) (o : BitVec 21) (s : State) := settle (do
  legal .any [d] s
  .ok ((s.setX d (s.pc + 4)).setPc (target s.pc o)))

/-- `jalr` (R152, R126): the target is read before xd is written. -/
def execJalr (d a : XReg) (i : BitVec 16) (s : State) := settle (do
  legal .any [d, a] s
  let t := s.getX a + sext i
  check (t.toNat % 4 == 0) s 0x04 t
  .ok ((s.setX d (s.pc + 4)).setPc t))

end Sys2Proof.Machine
end

