-- ==== Sys2Proof/Machine/VCore.lean ====
section
/-! DEFINITION. What every vector instruction shares: commit to the vector queue (R96, R136, R153, R287), the vector
unit (R106, R164, R177), the checks of dispatch (R88, R91, R93, R99, R109, R188), streams bound to plots (R49,
R50), element reads (R93, R95, R321), the element loop (R185) with lane errors (R319, R320), traps (R100-R102)
and completion. -/

namespace Sys2Proof.Machine

/-! Types. -/

/-- Cells of an element of a type (R91). -/
def ETy.cells (t : ETy) : Nat :=
  match t with
  | .bf16 => 1 | .f32 | .i32 => 2 | .f64 | .i64 => 4

/-- Width in bits. -/
def ETy.width (t : ETy) : Nat := 16 * ETy.cells t

def ftyE (t : FTy) : ETy := match t with | .bf16 => .bf16 | .f32 => .f32 | .f64 => .f64
def ityE (t : ITy) : ETy := match t with | .i32 => .i32 | .i64 => .i64

/-- The canonical value of R317. -/
def ETy.canon (t : ETy) : Nat :=
  match t with
  | .bf16 => 0x7FC0 | .f32 => 0x7FC00000 | .f64 => 0x7FF8000000000000 | .i32 | .i64 => 0

/-! What an instruction names, and what its dispatch settles. -/

/-- Unit class (R107), options, destination, further plots that it writes, and sources, with the cells their elements must
have, the plots that bound L (R93), whether it reads across lanes (R95), yields a scalar (R209), and takes a length at
all. -/
structure VSpec where
  unit : Nat
  o : VOpts
  dest : Option (VReg × Option Nat)
  also : List (VReg × Option Nat) := []
  srcs : List (VReg × Option Nat)
  lenOf : List VReg
  cross : Bool
  scalarRes : Bool
  governed : Bool
deriving DecidableEq, Repr

/-- A dispatched instruction: its queue entry, length taken, first element, effective length, whether it is
self-overlapping (R99), the state its sources are read from, and the first element whose stream faults. -/
structure VRun where
  entry : VQEntry
  spec : VSpec
  vl : Nat
  start : Nat
  len : Nat
  selfov : Bool
  src : State
  sfault : Option (Nat × XFault)
deriving DecidableEq, Repr

/-- Every plot that an instruction writes. -/
def VSpec.writes (k : VSpec) : List VReg := (k.dest.toList ++ k.also).map Prod.fst

/-- The plot that `TPLOT` names (R102). -/
def VSpec.tplot (k : VSpec) : Nat :=
  match k.dest with
  | some (v, _) => v.toNat
  | none => match k.srcs with | (v, _) :: _ => v.toNat | [] => 0x7F

/-- Whether element e is active under the predicate (R185): `m0` as a predicate reads 1. -/
def VOpts.active (o : VOpts) (c : Ctx) (e : Nat) : Bool :=
  (if o.mask = 0 then true else (c.mask o.mask).getLsbD e) != o.inv

def VRun.active (k : VRun) (e : Nat) : Bool := VOpts.active k.spec.o k.src.ctx e

/-- Elements processed, in order: those of `VSTART` to L - 1 that are active. -/
def VRun.elems (k : VRun) : List Nat := ((List.range k.len).drop k.start).filter k.active

/-! Traps (R100-R102). -/

/-- A trap of a vector instruction; `elem` is the element it is at, none for a check of dispatch. A handler's own
instruction gives back the length it popped (R315). -/
def vraise {α : Type} (en : VQEntry) (tplot : Nat) (s : State) (cause : Nat) (tval : Word) (elem : Option Nat)
    (vstart : Nat) : Res α :=
  let s := if s.ctx.inTrap then { s with ctx := { s.ctx with lq := en.popped.toList ++ s.ctx.lq } } else s
  let en := if s.ctx.inTrap then { en with popped := none } else en
  let cell :=
    match elem with
    | some e => if tplot < 64 then State.cellWord (s.ctx.plot (BitVec.ofNat 6 tplot)) e else 0
    | none => 0
  let v : VTrap := { entry := en, vstart := vstart, plot := tplot, cell := cell }
  .error (.trap s { cause := cause, tval := tval, vec := some v, after := false })

/-- A check of dispatch: nothing is written, `VSTART` is 0, `TVAL` the encoding (R127). -/
def vcheck (en : VQEntry) (k : VSpec) (b : Bool) (s : State) (cause : Nat) : Res Unit :=
  if b then .ok () else vraise en k.tplot s cause en.enc none 0

/-! Streams bound to plots (R48-R50). -/

def Stream.total (t : Stream) : Nat := t.counts.foldl (· * ·) 1

/-- Bytes an element of the stream occupies in memory (R74). -/
def Stream.size (t : Stream) : Nat :=
  let c := bits t.mfmt 15 12
  if c = 0 then 2 * ETy.cells t.ty else encSize c

def State.streamAt (s : State) (slot : Nat) : Option Stream := lookupN slot s.myFe.streams

/-- The front end as the table's stream events name it: core and front end. -/
def State.feNum (s : State) : BitVec 9 := BitVec.ofNat 9 (2 * s.ctx.core + if s.ctx.fe then 1 else 0)

/-- Work for a slot's transfer unit, once. -/
def State.postStream (s : State) (slot : Nat) : State :=
  let a : EventArg := .stream s.feNum (BitVec.ofNat 4 slot)
  if s.pend.contains (.streamTransfer, a) then s else s.post .streamTransfer a

/-- The stream that a source plot is bound to, for input. -/
def State.inputOf (s : State) (v : VReg) : Option Stream :=
  let slot := plotSlot (s.plotOf v)
  if slot = 0 then none else (s.streamAt slot).bind (fun t => if t.output then none else some t)

def State.outputOf (s : State) (v : VReg) : Option Stream :=
  let slot := plotSlot (s.plotOf v)
  if slot = 0 then none else (s.streamAt slot).bind (fun t => if t.output then some t else none)

/-- Whether a source's stream holds the elements that L = `vl` needs: past the end is cause 0x02, a short buffer
waits. -/
def streamIn (en : VQEntry) (k : VSpec) (vl : Nat) (s : State) (v : VReg) : Res State := do
  match s.inputOf v with
  | none => .ok s
  | some t =>
    vcheck en k (decide (t.pos + vl ≤ t.total)) s 0x02
    if t.ahead.length < vl then waits (s.postStream (plotSlot (s.plotOf v))) else .ok s

/-- Elements that a slot's buffer of 8 KiB holds, each of its stored size (R49, log 21). -/
def Stream.room (t : Stream) : Nat := 8192 / t.size

/-- Whether a destination's stream has the elements left, and room in its buffer. -/
def streamOut (en : VQEntry) (k : VSpec) (vl : Nat) (s : State) (v : VReg) : Res State := do
  match s.outputOf v with
  | none => .ok s
  | some t =>
    vcheck en k (decide (t.pos + vl ≤ t.total)) s 0x02
    if t.room < t.ahead.length + vl then
      waits (s.postStream (plotSlot (s.plotOf v)))
    else .ok s

/-- The fault that the transfer unit met at element j of an input-bound plot (R50). -/
def State.inputFault (s : State) (v : VReg) (j : Nat) : Option XFault :=
  (((s.inputOf v).bind (fun t => t.ahead[j]?)).bind StreamElem.fault).map (fun p => { cause := p.1, tval := p.2 })

/-- The fault of a store of element j of an output-bound plot (R50). -/
def State.outputFault (s : State) (v : VReg) (j : Nat) : Option XFault :=
  (s.outputOf v).bind (fun t =>
    match s.checked s.ctx.who s.ctx .stream .store .strand t.size (t.addr (t.pos + j)) t.size with
    | .error (.fault _ f) => some f
    | _ => none)

/-- First active element from `start` to L - 1 whose stream element faults: element e takes those of its own index, or across
lanes those that the instruction says (`VRun.taking`). -/
def streamFault (k : VSpec) (start len : Nat) (s : State) : Option (Nat × XFault) :=
  let ins := if k.cross then [] else (k.srcs.map Prod.fst).filter (fun v => (s.inputOf v).isSome)
  let outs := k.writes.filter (fun v => (s.outputOf v).isSome)
  if ins.isEmpty && outs.isEmpty then none
  else
    let met (e : Nat) : Option XFault :=
      match ins.findSome? (fun v => s.inputFault v e) with
      | some f => some f
      | none => outs.findSome? (fun v => s.outputFault v e)
    (((List.range len).drop start).filter (VOpts.active k.o s.ctx)).findSome? (fun e => (met e).map (fun f => (e, f)))

/-- An instruction whose element e takes source elements of other indexes stops at the first element that takes one which
faults; that element's index is what `VSTART` records (log 60). -/
def VRun.taking (k : VRun) (takes : Nat → List (VReg × Nat)) : VRun :=
  let met (e : Nat) : Option (Nat × XFault) :=
    let seen (p : VReg × Nat) : Bool := p.2 < k.vl && p.2 < plotCount (k.src.plotOf p.1)
    match ((takes e).filter seen).findSome? (fun p => k.src.inputFault p.1 p.2) with
    | some f => some (e, f)
    | none => k.sfault.filter (fun p => p.1 == e)
  if k.spec.srcs.all (fun p => (k.src.inputOf p.1).isNone) then k else { k with sfault := k.elems.findSome? met }

/-- Input slots' buffers are cut at the first faulting element, which is fetched again (R50). -/
def State.streamCut (s : State) (k : VSpec) : State :=
  k.srcs.foldl (fun s p =>
    match s.inputOf p.1 with
    | none => s
    | some _ =>
      let slot := plotSlot (s.plotOf p.1)
      s.modMyFe (fun f => { f with
        streams := f.streams.map (fun q =>
          if q.1 = slot then (q.1, { q.2 with ahead := q.2.ahead.takeWhile (fun x => x.fault.isNone) }) else q) })) s

/-- A trap at element i: a self-overlapping instruction has written nothing (R101). -/
def VRun.trapAt {α : Type} (k : VRun) (s : State) (cause : Nat) (tval : Word) (i : Nat) : Res α :=
  if k.selfov then
    let old := if k.sfault.isSome then k.src.streamCut k.spec else k.src
    vraise k.entry k.spec.tplot { old with freeCtr := s.freeCtr, nextId := s.nextId } cause tval (some i) 0
  else vraise k.entry k.spec.tplot s cause tval (some i) i

/-- Elements below this one are performed: the one whose stream faults, or L. -/
def VRun.stop (k : VRun) : Nat := match k.sfault with | some (i, _) => i | none => k.len

/-- After those elements: the stream fault, if there is one, at its element (R50, R100). -/
def VRun.ended (k : VRun) (s : State) : Res State :=
  match k.sfault with
  | some (i, f) => k.trapAt (s.streamCut k.spec) f.cause f.tval i
  | none => .ok s

/-- A stream fault met by an instruction that is not resumed at an element: reported before anything is written, with its element
in `VSTART` all the same (R50), which such an instruction then refuses (R209) unless the handler clears it. -/
def VRun.whole (k : VRun) (s : State) : Res Unit :=
  match k.sfault with
  | some (i, f) => vraise k.entry k.spec.tplot (s.streamCut k.spec) f.cause f.tval (some i) i
  | none => .ok ()

/-! Dispatch. -/

/-- The bits of `PIPEOWN` of a class (R108). -/
def pipeMask (unit : Nat) : Byte := match unit with | 0 => 0x0F | 1 => 0x30 | 2 => 0x40 | _ => 0x80

/-- The length of R93's `VL` for an instruction (R136, R188): the value, the popped count, and the state. -/
def takeLength (en : VQEntry) (k : VSpec) (s : State) : Res (Nat × VQEntry × State) :=
  let mvl := s.ctx.mvl.toNat
  if !k.governed then .ok (s.ctx.vl.toNat, en, s)
  else match k.o.vls with
    | .vl => .ok (s.ctx.vl.toNat, en, s)
    | .reg x => .ok (min (en.xs[x.toNat]'x.isLt).toNat mvl, en, s)
    | .lq =>
      match en.popped with
      | some n => .ok (min n mvl, en, s)
      | none =>
        match s.ctx.lq with
        | [] => vraise en k.tplot s 0x02 en.enc none 0
        | n :: rest =>
          .ok (min n mvl, { en with popped := some n }, { s with ctx := { s.ctx with lq := rest } })

/-- The checks of one plot at dispatch (R88, R91, R255). -/
def plotReady (en : VQEntry) (k : VSpec) (vl : Nat) (s : State) (v : VReg) (cells : Option Nat) : Res Unit := do
  let p := s.plotOf v
  let rows := s.rows s.ctx.core s.ctx.fe
  let slot := plotSlot p
  vcheck en k (plotValid p && (plotBox p).inRows rows && (cells == none || cells == some (plotEw p))
    && (slot == 0 || ((s.streamAt slot).isSome && decide (vl ≤ plotCount p)))) s 0x02

/-- Equal placement (R99). -/
def samePlace (p q : Word) : Bool :=
  bits p 56 16 == bits q 56 16

/-- The dispatch checks, the length and the trap class. -/
def vbegin (en : VQEntry) (k : VSpec) (s : State) : Res VRun := do
  vcheck en k (decide (4 ≤ k.unit) || s.myFe.pipeown &&& pipeMask k.unit != 0) s 0x01
  let (vl, en, s) ← takeLength en k s
  let plots := k.dest.toList ++ k.also ++ k.srcs
  let _ ← foldE (fun (_ : Unit) (p : VReg × Option Nat) => plotReady en k vl s p.1 p.2) () plots
  let len := (k.lenOf.map (fun v => plotCount (s.plotOf v))).foldl min vl
  let start := if s.ctx.inTrap then 0 else s.ctx.vstart.toNat
  let meets (d : VReg) (p : VReg × Option Nat) : Bool :=
    (plotBox (s.plotOf d)).meets (plotBox (s.plotOf p.1)) && (k.cross || !samePlace (s.plotOf d) (s.plotOf p.1))
  let selfov := k.dest.any (fun d => k.srcs.any (meets d.1))
  vcheck en k (start == 0 || !(selfov || k.scalarRes)) s 0x02
  let s ← if len = 0 then .ok s else foldE (streamIn en k vl) s (k.srcs.map Prod.fst)
  let s ← if len = 0 then .ok s else foldE (streamOut en k vl) s k.writes
  let sf := streamFault k start len s
  .ok { entry := en, spec := k, vl := vl, start := start, len := len, selfov := selfov, src := s, sfault := sf }

/-- Streams advance once by the length (R49); a masked-off element of an output is not stored. -/
def VRun.advanceStreams (k : VRun) (s : State) : State :=
  if k.len = 0 then s
  else
    let slots := ((k.spec.srcs.filter (fun p => (k.src.inputOf p.1).isSome)).map
      (fun p => plotSlot (k.src.plotOf p.1))).dedup
    let s := slots.foldl (fun s slot => s.modMyFe (fun f => { f with
      streams := f.streams.map (fun q =>
        if q.1 = slot then (q.1, { q.2 with pos := q.2.pos + k.vl, ahead := q.2.ahead.drop k.vl }) else q) })) s
    let pass (s : State) (v : VReg) : State :=
      let slot := plotSlot (k.src.plotOf v)
      let el (e : Nat) : StreamElem :=
        { val := word (s.elem v e), bad := s.myCore.elemBad (s.plotOf v) e, fault := none, skip := !k.active e
          stamp := s.nextId }
      let new := (List.range k.vl).map el
      let s := s.modMyFe (fun f => { f with
        streams := f.streams.map (fun q =>
          if q.1 = slot then (q.1, { q.2 with pos := q.2.pos + k.vl, ahead := q.2.ahead ++ new }) else q) })
      s.postStream slot
    (k.spec.writes.filter (fun v => (k.src.outputOf v).isSome)).foldl pass s

/-! Element groups, density-time and lanes (R92, R114, R319, R320). -/

/-- Elements of an element group (R92, R320). -/
def groupSize (c : Ctx) : Nat := if c.protected then 32 else 64

/-- Density-time skips the group of element e: no element of it below L is active; PM0 and units 4-6 ignore the bit (R114). -/
def VRun.skips (k : VRun) (e : Nat) : Bool :=
  let g := groupSize k.src.ctx
  k.spec.o.dt && decide (k.spec.unit < 3) && !(List.range g).any (fun i => decide (e / g * g + i < k.len) && k.active (e / g * g + i))

/-- Groups that are processed (R353). -/
def VRun.groups (k : VRun) : Nat :=
  let g := groupSize k.src.ctx
  (List.range (ceilDiv k.len g)).countP (fun i => !k.skips (i * g))

/-- Completion: streams advance, `VSTART` becomes 0 outside a handler (R102, R154). -/
def VRun.done (k : VRun) (s : State) : Res State :=
  let s := k.advanceStreams s
  let s := if s.ctx.inTrap then s else { s with ctx := { s.ctx with vstart := 0 } }
  .ok ((s.countCtx 0x02 1).countCtx 0x03 k.groups)

/-! Element reads. -/

/-- Element j of a source plot of a type, as the sources stood at dispatch: its value, and whether it was consumed
as poison (R93, R95, R317, R321). -/
def VRun.get (k : VRun) (v : VReg) (t : ETy) (j : Nat) : Nat × Bool :=
  let p := k.src.plotOf v
  if plotCount p ≤ j || k.vl ≤ j then (k.src.ctx.fill.toNat % 2 ^ (16 * plotEw p), false)
  else match k.src.inputOf v with
    | some st =>
      match st.ahead[j]? with
      | some x => if x.bad then (ETy.canon t, true) else (x.val.toNat % 2 ^ (16 * plotEw p), false)
      | none => (k.src.ctx.fill.toNat % 2 ^ (16 * plotEw p), false)
    | none => if k.src.myCore.elemBad p j then (ETy.canon t, true) else (k.src.elem v j, false)

/-- A second source: a plot's element or the scalar operand's low bits (R186). -/
def VRun.getB (k : VRun) (b : VSrc) (t : ETy) (e : Nat) : Nat × Bool :=
  match b with
  | .plot v => k.get v t e
  | .scalar x => ((k.entry.xs[x.toNat]'x.isLt).toNat % 2 ^ ETy.width t, false)

/-- An element consumed as poison (R317). -/
def State.vectorPoison (s : State) (bad : Bool) : State :=
  if bad then ({ s with ctx := s.ctx.addCki 0 } : State).countCtx 0x0B 1 else s

/-! The element loop (R185). -/

/-- What an element computes: its result with flags, and whether a source was poisoned. -/
structure EWork where
  res : FRes
  bad : Bool
deriving DecidableEq, Repr

/-- The lane of an element, or its lane pair in protected mode (R92, R320). -/
def lanesOf (c : Ctx) (e : Nat) : List Nat := if c.protected then [e % 32, 32 + e % 32] else [e % 64]

/-- An error that a lane meets (R319, R320, R329): whether it repeats at the replay, and whether it was injected. -/
structure LaneErr where
  lane : Nat
  repeats : Bool
  injected : Bool
deriving DecidableEq, Repr

/-- The error that the lane of element e still meets. -/
def State.laneHit (s : State) (e : Nat) : Option LaneErr :=
  let lanes := lanesOf s.ctx e
  match s.myCore.laneErr.find? (fun p => lanes.contains p.1) with
  | some p => some { lane := p.1, repeats := p.2, injected := false }
  | none => lanes.findSome? (fun l => (s.laneInjection s.ctx.core l).map (fun r => { lane := l, repeats := r, injected := true }))

/-- The group in a lane has met its error (R319, R320): replayed, or given the canonical value. -/
def State.laneMeets (s : State) (p : LaneErr) : State :=
  let s := if p.injected then s.laneInjected s.ctx.core
    else s.modCore s.ctx.core (fun c => { c with laneErr := c.laneErr.erase (p.lane, p.repeats) })
  let s := s.countCtx 0x04 1
  if !p.repeats then s
  else if s.ctx.protected then
    let s := { s with ctx := s.ctx.addCki 4 }
    (s.addBox (State.header 6 0 s.ctx.lease s.ctx.sub s.ctx.self.toNat) (word p.lane)).1
  else { s with ctx := s.ctx.addCki 3 }

/-- The lane of element e processes its element group, as the vector pipes, PM0, the mask unit and the load-store unit do:
the state, and whether the element receives the canonical value. -/
def VRun.lane (k : VRun) (s : State) (e : Nat) : State × Bool :=
  let covered := k.spec.unit < 4 || k.spec.unit = 5
  match (if covered && !k.skips e then s.laneHit e else none) with
  | none => (s, false)
  | some p => (s.laneMeets p, p.repeats && k.active e)

/-- The lanes of an instruction that takes its elements together: the state, and the elements that receive the canonical
value. -/
def VRun.lanes (k : VRun) (s : State) : State × List Nat :=
  ((List.range k.stop).drop k.start).foldl (fun st e =>
    let (s, lost) := k.lane st.1 e
    (s, if lost then e :: st.2 else st.2)) (s, [])

/-- One element: inactive ones only pass through their lane. -/
def VRun.element (k : VRun) (canon : Nat) (work : Nat → EWork) (put : State → Nat → Nat → State) (s : State) (e : Nat) :
    Res State :=
  let (s, lost) := k.lane s e
  if !k.active e then .ok s
  else if lost then .ok (put s e canon)
  else
    let w := work e
    match fpCause s.ctx.fcsr w.res.flags with
    | some c => k.trapAt s c (word e) e
    | none => .ok (put (({ s with ctx := s.ctx.addFlags w.res.flags } : State).vectorPoison w.bad) e w.res.bits)

/-- The loop over elements, with the stream fault of R50 where one stands. -/
def VRun.loop (k : VRun) (canon : Nat) (work : Nat → EWork) (put : State → Nat → Nat → State) (s : State) : Res State := do
  let s ← foldE (k.element canon work put) s ((List.range k.stop).drop k.start)
  k.ended s

/-- An instruction that computes each element of a destination plot. -/
def vmap (en : VQEntry) (k : VSpec) (t : ETy) (d : VReg) (work : VRun → Nat → EWork) (s : State) : Res State := do
  let r ← vbegin en k s
  let s ← r.loop (ETy.canon t) (work r) (fun s e v => s.setElem d e v) r.src
  r.done s

/-! Commit (R96, R136, R153, R164, R287). -/

namespace State

/-- One half of the Field passes to a sublease: cells that last belonged to another one become 0 (R106). -/
def passRows (s : State) (core : Nat) (f : Bool) (mine : Byte × Byte) : State :=
  let old := ((s.core core).fe f).rowsOwner
  if old == some mine then s
  else
    let out (i : Nat) : Bool := decide (128 ≤ i / 512) != f
    s.modCore core (fun k =>
      let k := k.modFe f (fun x => { x with rowsOwner := some mine })
      if old.isNone then k
      else { k with field := k.field.filter (fun p => out p.1), fieldErr := k.fieldErr.filter out })

/-- The front end's rows pass to the context's sublease (R106); its stash mappings have passed as the context was placed or resumed
(R177). -/
def passUnit (s : State) : State :=
  let c := s.ctx
  let mine := (c.lease, c.sub)
  let old := s.myFe.rowsOwner
  if old == some mine && ((s.myCore.fe (!c.fe)).rowsOwner == some mine || s.myCore.split) then s
  else
    let s := s.passRows c.core c.fe mine
    if s.myCore.split then s else s.passRows c.core (!c.fe) mine

end State

/-- The context holds the vector unit, or takes it with fresh vector state, or waits for it (R164), or for the engine
commands of another sublease that use the core's stash (R303). -/
def takeUnit (s : State) : Res State :=
  let c := s.ctx
  if s.foreignBoard c.core c.lease c.sub then waits s
  else if c.unit then .ok s.passUnit
  else if s.others.any (fun k => k.present && !k.isMiller && k.core == c.core && k.fe == c.fe && k.unit) then waits s
  else .ok ({ s with ctx := { c.freshVector with unit := true } } : State).passUnit

/-! The registers that a vector instruction reads at commit. -/

def VOpts.regs (o : VOpts) : List XReg := match o.vls with | .reg x => [x] | .vl | .lq => []
def VSrc.regs (b : VSrc) : List XReg := match b with | .scalar x => [x] | .plot _ => []
def VCount.regs (k : VCount) : List XReg := match k with | .reg x => [x] | .imm _ => []
def MCount.regs (k : MCount) : List XReg := match k with | .reg x => [x] | .imm _ => []

def vectorReads (i : Instr) : List XReg :=
  match i with
  | .plotset _ _ x | .vloop _ x | .wmpub _ _ x => [x]
  | .setvl _ d c => [d, c]
  | .setvlW _ _ _ _ a c => [a, c]
  | .vfadd _ o _ _ b | .vfsub _ o _ _ b | .vfmul _ o _ _ b | .vfdiv _ o _ _ b | .vfmin _ o _ _ b | .vfmax _ o _ _ b
  | .vfsgnj _ o _ _ b | .vfsgnjn _ o _ _ b | .vfsgnjx _ o _ _ b => VOpts.regs o ++ VSrc.regs b
  | .vfma _ o _ _ b _ | .vfms _ o _ _ b _ | .vfnma _ o _ _ b _ | .vfnms _ o _ _ b _ => VOpts.regs o ++ VSrc.regs b
  | .vadd _ o _ _ b | .vsub _ o _ _ b | .vmul _ o _ _ b | .vmulh _ o _ _ b | .vmulhu _ o _ _ b | .vdiv _ o _ _ b
  | .vdivu _ o _ _ b | .vrem _ o _ _ b | .vremu _ o _ _ b | .vand _ o _ _ b | .vor _ o _ _ b | .vxor _ o _ _ b
  | .vsll _ o _ _ b | .vsrl _ o _ _ b | .vsra _ o _ _ b | .vmin _ o _ _ b | .vmax _ o _ _ b | .vminu _ o _ _ b
  | .vmaxu _ o _ _ b => VOpts.regs o ++ VSrc.regs b
  | .vadc _ o _ _ b _ _ | .vsbc _ o _ _ b _ _ => VOpts.regs o ++ VSrc.regs b
  | .vfsqrt _ o _ _ | .vfrec _ o _ _ | .vfrsqrt _ o _ _ | .vfexp _ o _ _ | .vflog _ o _ _ | .vfsin _ o _ _ | .vfcos _ o _ _
  | .vftanh _ o _ _ | .vfabs _ o _ _ | .vfneg _ o _ _ => VOpts.regs o
  | .vfcmp _ _ o _ _ _ | .vcmp _ _ o _ _ _ => VOpts.regs o
  | .vcvt _ _ o _ _ | .vperm _ o _ _ _ | .vunpk _ o _ _ => VOpts.regs o
  | .mand o _ _ _ | .mor o _ _ _ | .mxor o _ _ _ | .mandn o _ _ _ | .mnot o _ _ => VOpts.regs o
  | .mshift _ k o _ _ => VOpts.regs o ++ MCount.regs k
  | .mpopc _ o _ _ | .mfirst o _ _ => VOpts.regs o
  | .vred _ _ o x _ | .vfred _ _ o x _ => x :: VOpts.regs o
  | .vrand _ o _ x => x :: VOpts.regs o
  | .vld _ o _ _ x _ _ | .vst _ o _ _ x _ _ => x :: VOpts.regs o
  | .vldStrided _ o _ _ x y _ | .vstStrided _ o _ _ x y _ | .vldt _ o _ _ x y _ => x :: y :: VOpts.regs o
  | .vldx _ o _ _ _ x _ _ | .vstx _ o _ _ _ x _ _ => x :: VOpts.regs o
  | .vamo _ _ o _ _ _ _ x _ _ _ => x :: VOpts.regs o
  | .vslideup _ o _ _ k | .vslidedn _ o _ _ k | .vbcast _ o _ _ k | .vextract _ o _ _ k => VOpts.regs o ++ VCount.regs k
  | .vcompress _ _ o _ _ _ => VOpts.regs o
  | .vexpand _ o _ _ _ => VOpts.regs o
  | .vinsert _ o _ x k => x :: (VOpts.regs o ++ VCount.regs k)
  | .vfeed _ _ o _ | .vdrain _ _ o _ => VOpts.regs o
  | .vdetach o _ _ x => x :: VOpts.regs o
  | .fcfg _ _ x | .fsave _ _ x | .fload _ _ x => [x]
  | .fins o _ _ _ | .fread o _ _ _ _ => VOpts.regs o
  | _ => []

/-! The loop context (R191-R195) as it stands, and as the scalar core knows it ahead of the queue. -/

/-- Register r as read at commit. -/
def VQEntry.x (en : VQEntry) (r : XReg) : Word := en.xs[r.toNat]'r.isLt

/-- The cap of `setvl` (R193). -/
def VQEntry.capOf (en : VQEntry) (xc : XReg) : Nat := if xc = 0 then 2 ^ 40 else (en.x xc).toNat

/-- What `setvl` grants (R193). -/
def LoopCtx.grantOf (l : LoopCtx) (mvl : Word) (cap : Nat) : Nat := min (min l.remaining.toNat mvl.toNat) cap

/-- The strip is done (R195). -/
def LoopCtx.ended (l : LoopCtx) : LoopCtx :=
  let g : BitVec 40 := l.grant.setWidth 40
  { remaining := l.remaining - g, grant := 0, base := l.base + g, strips := l.strips + 1 }

/-- The loop context after a queued instruction. -/
def VQEntry.loopAfter (mvl : Word) (l : LoopCtx) (en : VQEntry) : LoopCtx :=
  match en.instr with
  | .vloop _ xa => if (en.x xa).toNat < 2 ^ 40 then { loop0 with remaining := (en.x xa).setWidth 40 } else l
  | .setvl _ _ xc => { l with grant := BitVec.ofNat 13 (l.grantOf mvl (en.capOf xc)) }
  | .vlend _ => l.ended
  | _ => l

/-- The scalar core's copy of the loop context (R195). -/
def Ctx.loopAhead (c : Ctx) : LoopCtx := c.vq.foldl (VQEntry.loopAfter c.mvl) c.loop

/-- The next queue entry for an instruction, and the state in which it is committed; `setvl` has written its register then
(R193). -/
def vcommit (i : Instr) (s : State) : VQEntry × State :=
  let c := s.ctx
  let en : VQEntry := { instr := i, xs := Vector.ofFn (fun r : Fin 32 => c.getX (BitVec.ofNat 5 r.val))
                        pc := c.pc, enc := s.enc, pos := c.vqNext, popped := none, regs := c.x, flags := 0, marks := 0 }
  let c :=
    match i with
    | .setvl _ xd xc => c.setX xd (word (c.loopAhead.grantOf c.mvl (en.capOf xc)))
    | _ => c
  (en, { s with ctx := { c with pc := en.next, vqNext := c.vqNext + 1, convoy := c.convoy.tail } })

/-- A queued instruction is tried: when it stalls, nothing of it is done but the work it asked of other units, and
it stays at the head of the queue; only what `setvl.w` has consumed as poison stands, since it reads again (R194, R317). -/
def vtry (body : VQEntry → State → Res State) (en : VQEntry) (s : State) : Res State :=
  match body en s with
  | .error (.wait s') =>
    let read := match en.instr with | .setvlW _ _ _ _ _ _ => true | _ => false
    waits { s with ctx := { s.ctx with vq := en :: s.ctx.vq, cki := if read then s'.ctx.cki else s.ctx.cki }, pend := s'.pend }
  | r => r

/-- A `setvl.w` is committed and not dispatched, for which `setvl` and `vlend` wait (R193, R195). -/
def Ctx.grantPending (c : Ctx) : Bool := c.vq.any (fun en => match en.instr with | .setvlW _ _ _ _ _ _ => true | _ => false)

/-- Whether an instruction must wait at its commit: for room in the queue (R287) or in the synchronising read queue, for a
register that an older one is to write (R187), or for a grant. -/
def Ctx.commitWaits (c : Ctx) (i : Instr) : Bool :=
  decide (32 ≤ c.vq.length) || (vectorReads i).any (fun r => c.sendsTo.contains r) ||
  ((syncDest i).isSome && decide (8 ≤ c.vq.countP (fun en => (syncDest en.instr).isSome))) ||
  ((match i with | .setvl _ _ _ | .vlend _ => true | _ => false) && c.grantPending)

/-- A committed instruction: it is dispatched at once unless older ones wait, or lane threads run (R227). -/
def vqueue (body : VQEntry → State → Res State) (en : VQEntry) (s : State) : Res State :=
  if s.ctx.threading || !s.ctx.vq.isEmpty then .ok { s with ctx := { s.ctx with vq := s.ctx.vq ++ [en] } }
  else vtry body en s

/-- A vector instruction: checks, commit, and dispatch at once unless older ones wait. -/
def vissue (i : Instr) (body : VQEntry → State → Res State) (s : State) : Host.Outcome State Fault Refusal := settle (do
  legal .front [] s
  let s ← takeUnit s
  if s.ctx.commitWaits i then waits s
  let (en, s) := vcommit i s
  vqueue body en s)

end Sys2Proof.Machine
end

