-- ==== Sys2Proof/Machine/VConfig.lean ====
section
/-! DEFINITION. Configuration, major 0x30, with `vlend` and `vsync` (R189-R196, R212). -/

namespace Sys2Proof.Machine

/-- Options of an instruction that takes none. -/
def noOpts : VOpts := { mask := 0, inv := false, dt := false, vls := .vl }

/-- An instruction of the configuration unit that names no plot. -/
def cfgSpec (scalarRes : Bool) : VSpec :=
  { unit := 6, o := noOpts, dest := none, srcs := [], lenOf := [], cross := false, scalarRes := scalarRes
    governed := false }

/-! Plots. -/

/-- The most plots that a strand of the context's nest may hold valid (R189, R266). -/
def State.plotLimit (s : State) : Nat :=
  match s.nests.find? (fun n => n.id == s.ctx.nest && n.die == s.ctx.die) with
  | some n => bits (n.words.getD 13 0) 53 47
  | none => 64

def plotsetBody (vd : VReg) (xs : XReg) (en : VQEntry) (s : State) : Res State := do
  let e := en.x xs
  let r ← vbegin en (cfgSpec false) s
  if !plotValid e then
    let c := s.ctx.setPlot vd 0
    r.done { s with ctx := { c with pdirty := c.pdirty &&& ~~~((1 : Word) <<< vd.toNat) } }
  else
    let used := s.ctx.plots.toList.countP plotValid
    let ok := plotLegal e (s.rows s.ctx.core s.ctx.fe) && (plotValid (s.plotOf vd) || used < s.plotLimit)
    if ok then r.done { s with ctx := s.ctx.setPlot vd e }
    else vraise en vd.toNat s 0x02 e none 0

def execPlotset (dt : Bool) (vd : VReg) (xs : XReg) (s : State) := vissue (.plotset dt vd xs) (plotsetBody vd xs) s

def plotgetBody (xd : XReg) (va : VReg) (en : VQEntry) (s : State) : Res State := do
  let r ← vbegin en (cfgSpec true) s
  let e := s.plotOf va
  r.done (s.sendX xd (if plotValid e then e else 0))

def execPlotget (dt : Bool) (xd : XReg) (va : VReg) (s : State) := vissue (.plotget dt xd va) (plotgetBody xd va) s

/-! Strips. -/

def vloopBody (xa : XReg) (en : VQEntry) (s : State) : Res State := do
  let r ← vbegin en (cfgSpec false) s
  let n := en.x xa
  if 2 ^ 40 ≤ n.toNat then vraise en 0x7F s 0x02 n none 0
  else r.done { s with ctx := { s.ctx with loop := { loop0 with remaining := n.setWidth 40 } } }

def execVloop (dt : Bool) (xa : XReg) (s : State) := vissue (.vloop dt xa) (vloopBody xa) s

/-- Grants n elements: `VL` and Grant. -/
def granted (s : State) (n : Nat) : State :=
  let c := s.ctx
  { s with ctx := { c with vl := word n, loop := { c.loop with grant := BitVec.ofNat 13 n } } }

/-- `setvl` (R193): xd is written at commit (`vcommit`). -/
def setvlBody (xc : XReg) (en : VQEntry) (s : State) : Res State := do
  let k := cfgSpec false
  let r ← vbegin en k s
  let cap := en.capOf xc
  vcheck en k (cap != 0) s 0x02
  r.done (granted s (s.ctx.loop.grantOf s.ctx.mvl cap))

def execSetvl (dt : Bool) (xd xc : XReg) (s : State) := vissue (.setvl dt xd xc) (setvlBody xc) s

/-- A memory access of a queued instruction outside its elements: a failed check traps with its address. -/
def vAccess {α : Type} (en : VQEntry) (tplot : Nat) : ARes α → Res α
  | .ok a => .ok a
  | .error (.fault s f) => vraise en tplot s f.cause f.tval none 0
  | .error (.wait s) => waits s

/-- Poison that `setvl.w` or `wmpub` meets counts as the scalar core's (R317). -/
def State.consumeWord (s : State) (bad : Bool) : State :=
  if bad then ({ s with ctx := s.ctx.addCki 1 } : State).countCtx 0x0B 1 else s

/-- `setvl.w` (R194): it waits until the watermark word admits its grant. -/
def setvlWBody (partly : Bool) (sc : Scope) (xd xa xc : XReg) (en : VQEntry) (s : State) : Res State := do
  let k := cfgSpec true
  let r ← vbegin en k s
  let cap := en.capOf xc
  vcheck en k (cap != 0) s 0x02
  let want := s.ctx.loop.grantOf s.ctx.mvl cap
  let grant (s : State) (n : Nat) : Res State := r.done ((granted s n).sendX xd (word n))
  if want = 0 then grant s 0
  else
    let (v, s) ← vAccess en 0x7F (s.load .word (en.x xa) 8 .normal)
    let mark := v.getD 0
    let base := s.ctx.loop.base.toNat
    let s := s.consumeWord v.isNone
    if partly then
      if base < mark then grant (s.acquire (some sc)) (min want (mark - base)) else waits s
    else if base + want ≤ mark then grant (s.acquire (some sc)) want else waits s

def execSetvlW (dt partly : Bool) (sc : Scope) (xd xa xc : XReg) (s : State) :=
  vissue (.setvlW dt partly sc xd xa xc) (setvlWBody partly sc xd xa xc) s

/-- `wmpub` (R196): Base + Grant, as a release. -/
def wmpubBody (sc : Scope) (xa : XReg) (en : VQEntry) (s : State) : Res State := do
  let r ← vbegin en (cfgSpec false) s
  let s ← release (some sc) s
  let s ← vAccess en 0x7F (s.store .word (en.x xa) 8 (s.ctx.loop.base.toNat + s.ctx.loop.grant.toNat))
  r.done s

def execWmpub (dt : Bool) (sc : Scope) (xa : XReg) (s : State) := vissue (.wmpub dt sc xa) (wmpubBody sc xa) s

/-- The update of `vlend` reaches the loop context. -/
def vlendBody (_en : VQEntry) (s : State) : Res State := .ok { s with ctx := { s.ctx with loop := s.ctx.loop.ended } }

/-- `vlend` (R195): decided from the scalar core's own copy of the loop context; its update takes a queue entry (R287). -/
def execVlend (o : BitVec 16) (s : State) := settle (do
  legal .front [] s
  if s.ctx.commitWaits (.vlend o) then waits s
  let l := s.ctx.loopAhead
  check (!(l.grant == 0 && l.remaining != 0)) s 0x02 0
  let (en, s') := vcommit (.vlend o) s
  let s' := s'.setPc (if l.ended.remaining != 0 then target s.pc o else s.pc + 4)
  vqueue vlendBody en s')

/-- `vsync` (R212): the older instructions have retired, and what they have done is performed at the scope. -/
def vsyncBody (sc : Scope) (en : VQEntry) (s : State) : Res State := do
  let r ← vbegin en (cfgSpec false) s
  if !s.streamsOut s.ctx then waits s
  r.done (if sc == .system then s.fabricClean s.ctx.die else s)

/-- The scalar core waits at an instruction until the vector unit has dispatched every older one and may dispatch this one. -/
def vwaiting (i : Instr) (body : VQEntry → State → Res State) (s : State) : Host.Outcome State Fault Refusal := settle (do
  legal .front [] s
  let s ← takeUnit s
  drained s
  if s.ctx.threading then waits s
  let (en, s1) := vcommit i s
  match body en s1 with
  | .error (.wait s2) => waits { s with pend := s2.pend }
  | r => r)

def execVsync (dt : Bool) (sc : Scope) (s : State) := vwaiting (.vsync dt sc) (vsyncBody sc) s

end Sys2Proof.Machine
end

