-- ==== Sys2Proof/Machine/VArith.lean ====
section
/-! DEFINITION. Vector floating-point arithmetic, majors 0x31 and 0x32 (R198-R200), and integer arithmetic, major
0x33 (R201, R202). -/

namespace Sys2Proof.Machine

/-- Plots named by a second source. -/
def VSrc.plots (b : VSrc) (t : ETy) : List (VReg × Option Nat) :=
  match b with
  | .plot v => [(v, some (ETy.cells t))]
  | .scalar _ => []

/-- An element-wise instruction of the MA pipes with destination and sources of one type. -/
def maSpec (t : ETy) (o : VOpts) (vd : VReg) (srcs : List (VReg × Option Nat)) : VSpec :=
  { unit := 0, o := o, dest := some (vd, some (ETy.cells t)), srcs := srcs, lenOf := [vd], cross := false
    scalarRes := false, governed := true }

/-- A result without a flag. -/
def plainRes (n : Nat) : FRes := { bits := n, flags := 0 }

/-! Two sources. -/

def fp2Body (f : Fmt → RMode → Nat → Nat → FRes) (t : FTy) (o : VOpts) (vd va : VReg) (b : VSrc) (en : VQEntry)
    (s : State) : Res State :=
  let e := ftyE t
  vmap en (maSpec e o vd ((va, some (ETy.cells e)) :: VSrc.plots b e)) e vd (fun r i =>
    let x := r.get va e i
    let y := r.getB b e i
    { res := f (ftFmt t) r.src.ctx.rmode x.1 y.1, bad := x.2 || y.2 }) s

def Fmt.signOf (f : Fmt) (a : Nat) : Nat := a / 2 ^ f.signBit % 2

/-- Magnitude of a with a sign bit (R198). -/
def Fmt.inject (f : Fmt) (a sign : Nat) : FRes := plainRes (a % 2 ^ f.signBit + sign * 2 ^ f.signBit)

def vfaddBody := fp2Body Fmt.add
def vfsubBody := fp2Body Fmt.sub
def vfmulBody := fp2Body Fmt.mul
def vfdivBody := fp2Body Fmt.div
def vfminBody := fp2Body (fun f _ x y => plainRes (f.minmax false x y))
def vfmaxBody := fp2Body (fun f _ x y => plainRes (f.minmax true x y))
def vfsgnjBody := fp2Body (fun f _ x y => f.inject x (f.signOf y))
def vfsgnjnBody := fp2Body (fun f _ x y => f.inject x (1 - f.signOf y))
def vfsgnjxBody := fp2Body (fun f _ x y => f.inject x ((f.signOf x + f.signOf y) % 2))

def execVfadd (t : FTy) (o : VOpts) (vd va : VReg) (b : VSrc) (s : State) := vissue (.vfadd t o vd va b) (vfaddBody t o vd va b) s
def execVfsub (t : FTy) (o : VOpts) (vd va : VReg) (b : VSrc) (s : State) := vissue (.vfsub t o vd va b) (vfsubBody t o vd va b) s
def execVfmul (t : FTy) (o : VOpts) (vd va : VReg) (b : VSrc) (s : State) := vissue (.vfmul t o vd va b) (vfmulBody t o vd va b) s
def execVfdiv (t : FTy) (o : VOpts) (vd va : VReg) (b : VSrc) (s : State) := vissue (.vfdiv t o vd va b) (vfdivBody t o vd va b) s
def execVfmin (t : FTy) (o : VOpts) (vd va : VReg) (b : VSrc) (s : State) := vissue (.vfmin t o vd va b) (vfminBody t o vd va b) s
def execVfmax (t : FTy) (o : VOpts) (vd va : VReg) (b : VSrc) (s : State) := vissue (.vfmax t o vd va b) (vfmaxBody t o vd va b) s
def execVfsgnj (t : FTy) (o : VOpts) (vd va : VReg) (b : VSrc) (s : State) := vissue (.vfsgnj t o vd va b) (vfsgnjBody t o vd va b) s
def execVfsgnjn (t : FTy) (o : VOpts) (vd va : VReg) (b : VSrc) (s : State) := vissue (.vfsgnjn t o vd va b) (vfsgnjnBody t o vd va b) s
def execVfsgnjx (t : FTy) (o : VOpts) (vd va : VReg) (b : VSrc) (s : State) := vissue (.vfsgnjx t o vd va b) (vfsgnjxBody t o vd va b) s

/-! Fused products (R199). -/

def fp3Body (negP negC : Bool) (t : FTy) (o : VOpts) (vd va : VReg) (b : VSrc) (vc : VReg) (en : VQEntry) (s : State) :
    Res State :=
  let e := ftyE t
  let c := some (ETy.cells e)
  vmap en (maSpec e o vd ((va, c) :: VSrc.plots b e ++ [(vc, c)])) e vd (fun r i =>
    let x := r.get va e i
    let y := r.getB b e i
    let z := r.get vc e i
    { res := (ftFmt t).fma r.src.ctx.rmode negP negC x.1 y.1 z.1, bad := x.2 || y.2 || z.2 }) s

def vfmaBody := fp3Body false false
def vfmsBody := fp3Body false true
def vfnmaBody := fp3Body true true
def vfnmsBody := fp3Body true false

def execVfma (t : FTy) (o : VOpts) (vd va : VReg) (b : VSrc) (vc : VReg) (s : State) := vissue (.vfma t o vd va b vc) (vfmaBody t o vd va b vc) s
def execVfms (t : FTy) (o : VOpts) (vd va : VReg) (b : VSrc) (vc : VReg) (s : State) := vissue (.vfms t o vd va b vc) (vfmsBody t o vd va b vc) s
def execVfnma (t : FTy) (o : VOpts) (vd va : VReg) (b : VSrc) (vc : VReg) (s : State) := vissue (.vfnma t o vd va b vc) (vfnmaBody t o vd va b vc) s
def execVfnms (t : FTy) (o : VOpts) (vd va : VReg) (b : VSrc) (vc : VReg) (s : State) := vissue (.vfnms t o vd va b vc) (vfnmsBody t o vd va b vc) s

/-! One source (R200). -/

def fp1Body (f : Fmt → RMode → Nat → FRes) (t : FTy) (o : VOpts) (vd va : VReg) (en : VQEntry) (s : State) : Res State :=
  let e := ftyE t
  vmap en (maSpec e o vd [(va, some (ETy.cells e))]) e vd (fun r i =>
    let x := r.get va e i
    { res := f (ftFmt t) r.src.ctx.rmode x.1, bad := x.2 }) s

def vfsqrtBody := fp1Body Fmt.sqrt
def vfrecBody := fp1Body Fmt.recip
def vfrsqrtBody := fp1Body Fmt.rsqrt
def vfexpBody := fp1Body Fmt.exp
def vflogBody := fp1Body Fmt.log
def vfsinBody := fp1Body (fun f rm x => f.trig rm false x)
def vfcosBody := fp1Body (fun f rm x => f.trig rm true x)
def vftanhBody := fp1Body Fmt.tanh
def vfabsBody := fp1Body (fun f _ x => plainRes (f.clear x))
def vfnegBody := fp1Body (fun f _ x => plainRes (f.flip x))

def execVfsqrt (t : FTy) (o : VOpts) (vd va : VReg) (s : State) := vissue (.vfsqrt t o vd va) (vfsqrtBody t o vd va) s
def execVfrec (t : FTy) (o : VOpts) (vd va : VReg) (s : State) := vissue (.vfrec t o vd va) (vfrecBody t o vd va) s
def execVfrsqrt (t : FTy) (o : VOpts) (vd va : VReg) (s : State) := vissue (.vfrsqrt t o vd va) (vfrsqrtBody t o vd va) s
def execVfexp (t : FTy) (o : VOpts) (vd va : VReg) (s : State) := vissue (.vfexp t o vd va) (vfexpBody t o vd va) s
def execVflog (t : FTy) (o : VOpts) (vd va : VReg) (s : State) := vissue (.vflog t o vd va) (vflogBody t o vd va) s
def execVfsin (t : FTy) (o : VOpts) (vd va : VReg) (s : State) := vissue (.vfsin t o vd va) (vfsinBody t o vd va) s
def execVfcos (t : FTy) (o : VOpts) (vd va : VReg) (s : State) := vissue (.vfcos t o vd va) (vfcosBody t o vd va) s
def execVftanh (t : FTy) (o : VOpts) (vd va : VReg) (s : State) := vissue (.vftanh t o vd va) (vftanhBody t o vd va) s
def execVfabs (t : FTy) (o : VOpts) (vd va : VReg) (s : State) := vissue (.vfabs t o vd va) (vfabsBody t o vd va) s
def execVfneg (t : FTy) (o : VOpts) (vd va : VReg) (s : State) := vissue (.vfneg t o vd va) (vfnegBody t o vd va) s

/-! Integers (R201): values of w bits, modulo 2^w. -/

def int2Body (f : Nat → Nat → Nat → Nat) (t : ITy) (o : VOpts) (vd va : VReg) (b : VSrc) (en : VQEntry) (s : State) :
    Res State :=
  let e := ityE t
  let w := ETy.width e
  vmap en (maSpec e o vd ((va, some (ETy.cells e)) :: VSrc.plots b e)) e vd (fun r i =>
    let x := r.get va e i
    let y := r.getB b e i
    { res := plainRes (f w x.1 y.1 % 2 ^ w), bad := x.2 || y.2 }) s

def divW (w a b : Nat) : Nat := if b = 0 then 2 ^ w - 1 else modN w ((sextN w a).tdiv (sextN w b))
def divuW (w a b : Nat) : Nat := if b = 0 then 2 ^ w - 1 else a / b
def remW (w a b : Nat) : Nat := if b = 0 then a else modN w ((sextN w a).tmod (sextN w b))
def remuW (_w a b : Nat) : Nat := if b = 0 then a else a % b
def lessW (w a b : Nat) : Bool := decide (sextN w a < sextN w b)

def vaddBody := int2Body (fun _ a b => a + b)
def vsubBody := int2Body (fun w a b => a + 2 ^ w - b)
def vmulBody := int2Body (fun _ a b => a * b)
def vmulhBody := int2Body (fun w a b => modN w (sextN w a * sextN w b / 2 ^ w))
def vmulhuBody := int2Body (fun w a b => a * b / 2 ^ w)
def vdivBody := int2Body divW
def vdivuBody := int2Body divuW
def vremBody := int2Body remW
def vremuBody := int2Body remuW
def vandBody := int2Body (fun _ a b => a &&& b)
def vorBody := int2Body (fun _ a b => a ||| b)
def vxorBody := int2Body (fun _ a b => a ^^^ b)
def vsllBody := int2Body (fun w a b => a * 2 ^ (b % w))
def vsrlBody := int2Body (fun w a b => a / 2 ^ (b % w))
def vsraBody := int2Body (fun w a b => modN w (sextN w a / 2 ^ (b % w)))
def vminBody := int2Body (fun w a b => if lessW w b a then b else a)
def vmaxBody := int2Body (fun w a b => if lessW w a b then b else a)
def vminuBody := int2Body (fun _ a b => min a b)
def vmaxuBody := int2Body (fun _ a b => max a b)

def execVadd (t : ITy) (o : VOpts) (vd va : VReg) (b : VSrc) (s : State) := vissue (.vadd t o vd va b) (vaddBody t o vd va b) s
def execVsub (t : ITy) (o : VOpts) (vd va : VReg) (b : VSrc) (s : State) := vissue (.vsub t o vd va b) (vsubBody t o vd va b) s
def execVmul (t : ITy) (o : VOpts) (vd va : VReg) (b : VSrc) (s : State) := vissue (.vmul t o vd va b) (vmulBody t o vd va b) s
def execVmulh (t : ITy) (o : VOpts) (vd va : VReg) (b : VSrc) (s : State) := vissue (.vmulh t o vd va b) (vmulhBody t o vd va b) s
def execVmulhu (t : ITy) (o : VOpts) (vd va : VReg) (b : VSrc) (s : State) := vissue (.vmulhu t o vd va b) (vmulhuBody t o vd va b) s
def execVdiv (t : ITy) (o : VOpts) (vd va : VReg) (b : VSrc) (s : State) := vissue (.vdiv t o vd va b) (vdivBody t o vd va b) s
def execVdivu (t : ITy) (o : VOpts) (vd va : VReg) (b : VSrc) (s : State) := vissue (.vdivu t o vd va b) (vdivuBody t o vd va b) s
def execVrem (t : ITy) (o : VOpts) (vd va : VReg) (b : VSrc) (s : State) := vissue (.vrem t o vd va b) (vremBody t o vd va b) s
def execVremu (t : ITy) (o : VOpts) (vd va : VReg) (b : VSrc) (s : State) := vissue (.vremu t o vd va b) (vremuBody t o vd va b) s
def execVand (t : ITy) (o : VOpts) (vd va : VReg) (b : VSrc) (s : State) := vissue (.vand t o vd va b) (vandBody t o vd va b) s
def execVor (t : ITy) (o : VOpts) (vd va : VReg) (b : VSrc) (s : State) := vissue (.vor t o vd va b) (vorBody t o vd va b) s
def execVxor (t : ITy) (o : VOpts) (vd va : VReg) (b : VSrc) (s : State) := vissue (.vxor t o vd va b) (vxorBody t o vd va b) s
def execVsll (t : ITy) (o : VOpts) (vd va : VReg) (b : VSrc) (s : State) := vissue (.vsll t o vd va b) (vsllBody t o vd va b) s
def execVsrl (t : ITy) (o : VOpts) (vd va : VReg) (b : VSrc) (s : State) := vissue (.vsrl t o vd va b) (vsrlBody t o vd va b) s
def execVsra (t : ITy) (o : VOpts) (vd va : VReg) (b : VSrc) (s : State) := vissue (.vsra t o vd va b) (vsraBody t o vd va b) s
def execVmin (t : ITy) (o : VOpts) (vd va : VReg) (b : VSrc) (s : State) := vissue (.vmin t o vd va b) (vminBody t o vd va b) s
def execVmax (t : ITy) (o : VOpts) (vd va : VReg) (b : VSrc) (s : State) := vissue (.vmax t o vd va b) (vmaxBody t o vd va b) s
def execVminu (t : ITy) (o : VOpts) (vd va : VReg) (b : VSrc) (s : State) := vissue (.vminu t o vd va b) (vminuBody t o vd va b) s
def execVmaxu (t : ITy) (o : VOpts) (vd va : VReg) (b : VSrc) (s : State) := vissue (.vmaxu t o vd va b) (vmaxuBody t o vd va b) s

/-! Carries (R202). -/

/-- Writes bit e of a mask. -/
def State.setMaskBit (s : State) (m : MReg) (e : Nat) (b : Bool) : State :=
  let old := s.ctx.mask m
  let one : BitVec 4096 := 1 <<< e
  { s with ctx := s.ctx.setMask m (if b then old ||| one else old &&& ~~~one) }

/-- The sum or difference with carry of an element, exact: value modulo 2^w and carry out. -/
def carryOf (sub : Bool) (w a b c : Nat) : Nat × Bool :=
  if sub then ((a + 2 ^ (w + 1) - b - c) % 2 ^ w, decide (a < b + c))
  else ((a + b + c) % 2 ^ w, decide (2 ^ w ≤ a + b + c))

def carryBody (sub : Bool) (t : ITy) (o : VOpts) (vd va : VReg) (b : VSrc) (mci mco : MReg) (en : VQEntry) (s : State) :
    Res State := do
  let e := ityE t
  let w := ETy.width e
  let r ← vbegin en (maSpec e o vd ((va, some (ETy.cells e)) :: VSrc.plots b e)) s
  let sum (i : Nat) : Nat × Bool :=
    carryOf sub w (r.get va e i).1 (r.getB b e i).1 (if (r.src.ctx.mask mci).getLsbD i then 1 else 0)
  let s ← r.loop 0 (fun i => { res := plainRes (sum i).1, bad := (r.get va e i).2 || (r.getB b e i).2 })
    (fun s i v => (s.setElem vd i v).setMaskBit mco i (sum i).2) r.src
  r.done s

def vadcBody := carryBody false
def vsbcBody := carryBody true

def execVadc (t : ITy) (o : VOpts) (vd va : VReg) (b : VSrc) (mci mco : MReg) (s : State) :=
  vissue (.vadc t o vd va b mci mco) (vadcBody t o vd va b mci mco) s
def execVsbc (t : ITy) (o : VOpts) (vd va : VReg) (b : VSrc) (mci mco : MReg) (s : State) :=
  vissue (.vsbc t o vd va b mci mco) (vsbcBody t o vd va b mci mco) s

end Sys2Proof.Machine
end

