-- ==== Sys2Proof/Machine/VMask.lean ====
section
/-! DEFINITION. Compares and conversions, major 0x34 (R204, R205), and mask operations, reductions and random
numbers, major 0x35 (R206-R211). -/

namespace Sys2Proof.Machine

/-! Compares: the result is a mask bit. -/

/-- Writes the loop's value, 0 or 1, to bit e of a mask. -/
def putBit (m : MReg) (s : State) (e v : Nat) : State := s.setMaskBit m e (v == 1)

def cmpSpec (t : ETy) (o : VOpts) (va vb : VReg) : VSpec :=
  { unit := 0, o := o, dest := none, srcs := [(va, some (ETy.cells t)), (vb, some (ETy.cells t))], lenOf := [va]
    cross := false, scalarRes := false, governed := true }

def vfcmpBody (c : FCond) (t : FTy) (o : VOpts) (md : MReg) (va vb : VReg) (en : VQEntry) (s : State) : Res State := do
  let e := ftyE t
  let r ← vbegin en (cmpSpec e o va vb) s
  let s ← r.loop 0 (fun i =>
    let x := r.get va e i
    let y := r.get vb e i
    { res := boolRes ((ftFmt t).cmp c x.1 y.1), bad := x.2 || y.2 }) (putBit md) r.src
  r.done s

def execVfcmp (c : FCond) (t : FTy) (o : VOpts) (md : MReg) (va vb : VReg) (s : State) :=
  vissue (.vfcmp c t o md va vb) (vfcmpBody c t o md va vb) s

def ICond.holds (c : ICond) (w a b : Nat) : Bool :=
  match c with
  | .eq => a == b
  | .ne => a != b
  | .lt => lessW w a b
  | .le => !lessW w b a
  | .ltu => decide (a < b)
  | .leu => decide (a ≤ b)

def vcmpBody (c : ICond) (t : ITy) (o : VOpts) (md : MReg) (va vb : VReg) (en : VQEntry) (s : State) : Res State := do
  let e := ityE t
  let r ← vbegin en (cmpSpec e o va vb) s
  let s ← r.loop 0 (fun i =>
    let x := r.get va e i
    let y := r.get vb e i
    { res := plainRes (if ICond.holds c (ETy.width e) x.1 y.1 then 1 else 0), bad := x.2 || y.2 }) (putBit md) r.src
  r.done s

def execVcmp (c : ICond) (t : ITy) (o : VOpts) (md : MReg) (va vb : VReg) (s : State) :=
  vissue (.vcmp c t o md va vb) (vcmpBody c t o md va vb) s

/-! Conversions (R205). -/

/-- The floating-point type of an element type. -/
def ETy.fmt? (t : ETy) : Option Fmt :=
  match t with
  | .bf16 => some fBf16 | .f32 => some fFp32 | .f64 => some fFp64 | .i32 | .i64 => none

def cvtElem (d t : ETy) (rm : RMode) (x : Nat) : FRes :=
  if d = t then plainRes x
  else match ETy.fmt? t, ETy.fmt? d with
    | some f, some g => f.conv g rm x
    | some f, none => f.toInt rm (ETy.width d) x
    | none, some g => g.ofInt rm (sextN (ETy.width t) x)
    | none, none => plainRes (modN (ETy.width d) (sextN (ETy.width t) x))

def vcvtBody (d t : ETy) (o : VOpts) (vd va : VReg) (en : VQEntry) (s : State) : Res State :=
  vmap en { unit := 0, o := o, dest := some (vd, some (ETy.cells d)), srcs := [(va, some (ETy.cells t))], lenOf := [vd]
            cross := false, scalarRes := false, governed := true } d vd (fun r i =>
    let x := r.get va t i
    { res := cvtElem d t r.src.ctx.rmode x.1, bad := x.2 }) s

def execVcvt (d t : ETy) (o : VOpts) (vd va : VReg) (s : State) := vissue (.vcvt d t o vd va) (vcvtBody d t o vd va) s

/-! Mask operations (R206-R209). -/

def maskSpec (o : VOpts) (scalarRes : Bool) : VSpec :=
  { unit := 5, o := o, dest := none, srcs := [], lenOf := [], cross := false, scalarRes := scalarRes, governed := true }

/-- Bit e of the destination from the stored bits as they stood at dispatch. -/
def maskBody (f : VRun → Nat → Bool) (o : VOpts) (md : MReg) (en : VQEntry) (s : State) : Res State := do
  let r ← vbegin en (maskSpec o false) s
  let s ← r.loop 0 (fun i => { res := plainRes (if f r i then 1 else 0), bad := false }) (putBit md) r.src
  r.done s

def maskLogic (f : Bool → Bool → Bool) (o : VOpts) (md ma mb : MReg) : VQEntry → State → Res State :=
  maskBody (fun r i => f ((r.src.ctx.mask ma).getLsbD i) ((r.src.ctx.mask mb).getLsbD i)) o md

def mandBody := maskLogic (fun a b => a && b)
def morBody := maskLogic (fun a b => a || b)
def mxorBody := maskLogic (fun a b => a != b)
def mandnBody := maskLogic (fun a b => a && !b)
def mnotBody (o : VOpts) (md ma : MReg) := maskLogic (fun a _ => !a) o md ma ma

def execMand (o : VOpts) (md ma mb : MReg) (s : State) := vissue (.mand o md ma mb) (mandBody o md ma mb) s
def execMor (o : VOpts) (md ma mb : MReg) (s : State) := vissue (.mor o md ma mb) (morBody o md ma mb) s
def execMxor (o : VOpts) (md ma mb : MReg) (s : State) := vissue (.mxor o md ma mb) (mxorBody o md ma mb) s
def execMandn (o : VOpts) (md ma mb : MReg) (s : State) := vissue (.mandn o md ma mb) (mandnBody o md ma mb) s
def execMnot (o : VOpts) (md ma : MReg) (s : State) := vissue (.mnot o md ma) (mnotBody o md ma) s

/-- Source bits below 0 or at or above L read 0. -/
def mshiftBody (down : Bool) (k : MCount) (o : VOpts) (md ma : MReg) (en : VQEntry) : State → Res State :=
  let n := match k with | .imm n => n.toNat | .reg x => (en.x x).toNat
  maskBody (fun r i =>
    let bit (j : Nat) : Bool := decide (j < r.len) && (r.src.ctx.mask ma).getLsbD j
    if down then bit (i + n) else decide (n ≤ i) && bit (i - n)) o md en

def execMshift (down : Bool) (k : MCount) (o : VOpts) (md ma : MReg) (s : State) :=
  vissue (.mshift down k o md ma) (mshiftBody down k o md ma) s

/-- The active elements below L whose bit of a mask is 1; an element that its lane lost counts as 0 (R319, log 61). -/
def maskHits (r : VRun) (ma : MReg) (lost : List Nat) : List Nat :=
  (List.range r.len).filter (fun i => r.active i && !lost.contains i && (r.src.ctx.mask ma).getLsbD i)

/-- `mpopc`, with `.lq` pushing its count (R188, R208). -/
def mpopcBody (lq : Bool) (o : VOpts) (xd : XReg) (ma : MReg) (en : VQEntry) (s : State) : Res State := do
  let k := maskSpec o true
  let r ← vbegin en k s
  let s := r.src
  vcheck r.entry k (!lq || decide (s.ctx.lq.length < 16)) s 0x02
  let (s, lost) := r.lanes s
  let n := (maskHits r ma lost).length
  let s := if lq then { s with ctx := { s.ctx with lq := s.ctx.lq ++ [n] } } else s
  r.done (s.sendX xd (word n))

def execMpopc (lq : Bool) (o : VOpts) (xd : XReg) (ma : MReg) (s : State) := vissue (.mpopc lq o xd ma) (mpopcBody lq o xd ma) s

def mfirstBody (o : VOpts) (xd : XReg) (ma : MReg) (en : VQEntry) (s : State) : Res State := do
  let r ← vbegin en (maskSpec o true) s
  let (s, lost) := r.lanes r.src
  r.done (s.sendX xd (match maskHits r ma lost with | i :: _ => word i | [] => -1))

def execMfirst (o : VOpts) (xd : XReg) (ma : MReg) (s : State) := vissue (.mfirst o xd ma) (mfirstBody o xd ma) s

/-! Reductions (R210). -/

/-- ⊕ of two values, either of which may be none; the flags collect. -/
def redJoin (f : Nat → Nat → FRes) (a b : Option Nat) (fl : FFlags) : Option Nat × FFlags :=
  match a, b with
  | none, y => (y, fl)
  | x, none => (x, fl)
  | some x, some y => let r := f x y; (some r.bits, fl ||| r.flags)

/-- One level: neighbours combine. -/
def pairUp (f : Nat → Nat → FRes) : List (Option Nat) → FFlags → List (Option Nat) × FFlags
  | a :: b :: rest, fl =>
    let (x, fl) := redJoin f a b fl
    let (xs, fl) := pairUp f rest fl
    (x :: xs, fl)
  | l, fl => (l, fl)

/-- A group of 64 folds in six levels. -/
def foldLevels (f : Nat → Nat → FRes) : Nat → List (Option Nat) → FFlags → Option Nat × FFlags
  | 0, l, fl => (l.headD none, fl)
  | n + 1, l, fl => let (l, fl) := pairUp f l fl; foldLevels f n l fl

/-- Groups combine in ascending order. -/
def foldGroups (f : Nat → Nat → FRes) (elem : Nat → Option Nat) : List Nat → Option Nat → FFlags → Option Nat × FFlags
  | [], acc, fl => (acc, fl)
  | g :: gs, acc, fl =>
    let (p, fl) := foldLevels f 6 ((List.range 64).map (fun i => elem (64 * g + i))) fl
    let (acc, fl) := redJoin f acc p fl
    foldGroups f elem gs acc fl

def redSpec (t : ETy) (o : VOpts) (va : VReg) : VSpec :=
  { unit := 3, o := o, dest := none, srcs := [(va, some (ETy.cells t))], lenOf := [va], cross := true
    scalarRes := true, governed := true }

/-- A reduction: `out` widens the result for the register. An element that its lane lost takes part with the canonical value
(R319, log 61). -/
def reduceBody (f : RMode → Nat → Nat → FRes) (out : Nat → Word) (t : ETy) (o : VOpts) (xd : XReg) (va : VReg)
    (en : VQEntry) (s : State) : Res State := do
  let r ← vbegin en (redSpec t o va) s
  let r := r.taking (fun i => [(va, i)])
  r.whole r.src
  let (s, lost) := r.lanes r.src
  let val (i : Nat) : Nat := if lost.contains i then ETy.canon t else (r.get va t i).1
  let el (i : Nat) : Option Nat := if i < r.len && r.active i then some (val i) else none
  let op := f r.src.ctx.rmode
  let s := (List.range r.len).foldl (fun (s : State) i =>
    s.vectorPoison (r.active i && !lost.contains i && (r.get va t i).2)) s
  match foldGroups op el (List.range (ceilDiv r.len 64)) none 0 with
  | (none, _) => r.done s
  | (some acc, fl) =>
    let z := op ((en.x xd).toNat % 2 ^ ETy.width t) acc
    let s := { s with ctx := s.ctx.addFlags (fl ||| z.flags) }
    r.done (s.sendX xd (out z.bits))

def redOp (op : RedOp) (w a b : Nat) : Nat :=
  match op with
  | .add => (a + b) % 2 ^ w
  | .and => a &&& b
  | .or => a ||| b
  | .xor => a ^^^ b
  | .min => if lessW w b a then b else a
  | .max => if lessW w a b then b else a
  | .minu => min a b
  | .maxu => max a b

def vredBody (op : RedOp) (t : ITy) (o : VOpts) (xd : XReg) (va : VReg) : VQEntry → State → Res State :=
  let w := ETy.width (ityE t)
  reduceBody (fun _ a b => plainRes (redOp op w a b)) (fun n => wordI (sextN w n)) (ityE t) o xd va

def fredOp (op : FRedOp) (f : Fmt) (rm : RMode) (a b : Nat) : FRes :=
  match op with
  | .add => f.add rm a b
  | .min => plainRes (f.minmax false a b)
  | .max => plainRes (f.minmax true a b)

def vfredBody (op : FRedOp) (t : FTy) (o : VOpts) (xd : XReg) (va : VReg) : VQEntry → State → Res State :=
  reduceBody (fredOp op (ftFmt t)) word (ftyE t) o xd va

def execVred (op : RedOp) (t : ITy) (o : VOpts) (xd : XReg) (va : VReg) (s : State) :=
  vissue (.vred op t o xd va) (vredBody op t o xd va) s
def execVfred (op : FRedOp) (t : FTy) (o : VOpts) (xd : XReg) (va : VReg) (s : State) :=
  vissue (.vfred op t o xd va) (vfredBody op t o xd va) s

/-! Random numbers (R211). -/

/-- The 64-bit mix of a seed and an index. -/
def randMix (seed : Word) (i : Nat) : Word :=
  let z := seed + word (i + 1) * 0x9E3779B97F4A7C15
  let z := (z ^^^ (z >>> 30)) * 0xBF58476D1CE4E5B9
  let z := (z ^^^ (z >>> 27)) * 0x94D049BB133111EB
  z ^^^ (z >>> 31)

def randElem (t : ETy) (z : Word) : Nat :=
  match t with
  | .i64 => z.toNat
  | .i32 => z.toNat / 2 ^ 32
  | .bf16 => (fBf16.round .rne false (z.toNat / 2 ^ 56) (-8)).bits
  | .f32 => (fFp32.round .rne false (z.toNat / 2 ^ 40) (-24)).bits
  | .f64 => (fFp64.round .rne false (z.toNat / 2 ^ 11) (-53)).bits

def vrandBody (t : ETy) (o : VOpts) (vd : VReg) (xs : XReg) (en : VQEntry) (s : State) : Res State :=
  vmap en (maSpec t o vd []) t vd (fun r i =>
    { res := plainRes (randElem t (randMix (en.x xs) (r.src.ctx.loop.base.toNat + i))), bad := false }) s

def execVrand (t : ETy) (o : VOpts) (vd : VReg) (xs : XReg) (s : State) := vissue (.vrand t o vd xs) (vrandBody t o vd xs) s

end Sys2Proof.Machine
end

