-- ==== Sys2Proof/Machine/Convert.lean ====
section
/-! DEFINITION. Stored encodings (R73-R76), the combinations that R78 admits, and the conversions of loads and
stores (R79, R80). -/

namespace Sys2Proof.Machine

/-- A stored encoding (R76): the register type itself, floating point, integer of a width and sign, or groups. -/
inductive Enc
  | native
  | fp (f : Fmt)
  | int (w : Nat) (signed : Bool)
  | group (q3 : Bool)
deriving DecidableEq, Repr

/-- The encoding of a code of `MFMT` bits 15:12. -/
def encOf (code : Nat) : Enc :=
  match code with
  | 1 => .fp fFp16 | 2 => .fp fE4m3 | 3 => .fp fE5m2 | 4 => .int 8 true | 5 => .int 8 false
  | 6 => .group false | 7 => .group true | 8 => .fp fBf16 | 9 => .fp fFp32 | 10 => .fp fFp64
  | _ => .native

/-- Fields of `MFMT` (R76). -/
structure MForm where
  enc : Enc
  sat : Bool
  scale : Nat
deriving DecidableEq, Repr

def mform (v : Word) : MForm := { enc := encOf (bits v 15 12), sat := bits v 11 10 == 0, scale := bits v 9 8 }

/-- Access kinds that R78 tells apart. -/
inductive AKind | unit | other | vldt
deriving DecidableEq, Repr

/-- The table of R78, with R219's demand of BF16 for the groups that `vldt` moves. R219 puts them under scale mode none, R78
under group; the model asks for group (log 63). -/
def MForm.admits (m : MForm) (t : ETy) (k : AKind) : Bool :=
  let fpReg := t == .bf16 || t == .f32 || t == .f64
  let channel := m.scale == 2 && t == .bf16 && k == .unit
  match m.enc with
  | .native => m.scale == 0
  | .fp f => fpReg && (m.scale == 0 || (f.width == 8 && channel))
  | .int _ signed => m.scale == 0 || (signed && channel)
  | .group _ =>
    m.scale == 1 && (match k with
      | .unit => t == .bf16 || t == .f32 || t == .i32
      | .vldt => t == .bf16
      | .other => false)

/-- Stored bytes of an element; a group's unit is 2 (R215, R219). -/
def Enc.size (e : Enc) (t : ETy) : Nat :=
  match e with
  | .native => 2 * ETy.cells t
  | .fp f => f.width / 8
  | .int w _ => w / 8
  | .group _ => 2

/-- One rounding into f to nearest-even with the overflow rule of R80: the bits, and whether Clamped is set. -/
def Fmt.overflow (f : Fmt) (sat : Bool) (v : FVal) : Nat × Bool :=
  match v with
  | .nan => (f.nan, false)
  | .inf neg => if sat then (f.withSign neg f.maxFinite, true) else (f.inf neg, false)
  | .num neg m e =>
    let r := f.roundMag .rne neg m e
    if f.maxFinite < r.mag then (if sat then (f.withSign neg f.maxFinite, true) else (f.inf neg, false))
    else (f.withSign neg r.mag, false)

/-- The exact value of an integer. -/
def FVal.ofInt (i : Int) : FVal := .num (i < 0) i.natAbs 0

/-- The value of stored bits, without a scale. -/
def Enc.value (e : Enc) (t : ETy) (b : Nat) : FVal :=
  match e with
  | .native => match ETy.fmt? t with | some f => f.decode b | none => .ofInt (sextN (ETy.width t) b)
  | .fp f => f.decode b
  | .int w signed => .ofInt (if signed then sextN w b else ((b % 2 ^ w : Nat) : Int))
  | .group q3 => .ofInt (sextN (if q3 then 3 else 4) b)

/-- Scale times value; infinity by zero is NaN (R79). -/
def FVal.scaled (v : FVal) (s : Option Nat) : FVal :=
  match s with
  | none => v
  | some b => ((v.mul (fBf16.decode b)).getD .nan)

/-- `load_conv` (R79): the element of a register type, and whether Clamped is set. The native encoding is copied bit for
bit (log 62). -/
def loadConv (e : Enc) (sat : Bool) (t : ETy) (s : Option Nat) (b : Nat) : Nat × Bool :=
  match e, ETy.fmt? t with
  | .native, _ => (b, false)
  | _, some f => f.overflow sat ((e.value t b).scaled s)
  | .int w signed, none => (modN (ETy.width t) (if signed then sextN w b else ((b % 2 ^ w : Nat) : Int)), false)
  | .group q3, none => (modN (ETy.width t) (sextN (if q3 then 3 else 4) b), false)
  | .fp _, none => (b, false)

/-- A scale that a store may divide by: finite, not zero, not subnormal (R80). -/
def scaleOk (b : Nat) : Bool :=
  let ex := b / 128 % 256
  ex != 0 && ex != 255

/-- x / s exactly enough for one rounding: the quotient's low bit stands for the remainder. -/
def FVal.over (x : FVal) (s : Option Nat) : FVal :=
  match s with
  | none => x
  | some b =>
    match x, fBf16.decode b with
    | .num p m e, .num q n g =>
      if n = 0 then .nan
      else .num (p != q) (2 * (m * 2 ^ 130 / n) + if m * 2 ^ 130 % n = 0 then 0 else 1) (e - g - 131)
    | .inf p, .num q _ _ => .inf (p != q)
    | _, _ => .nan

/-- m·2^e divided by n·2^g and rounded to the nearest integer, to even on a tie. -/
def divRne (m : Nat) (e : Int) (n : Nat) (g : Int) : Nat :=
  let top := m * 2 ^ (e - g).toNat
  let bot := n * 2 ^ (g - e).toNat
  let q := top / bot
  let r := top % bot
  if bot < 2 * r || (2 * r == bot && q % 2 == 1) then q + 1 else q

/-- `rne_integer(x / s)`, from the exact quotient (R79). -/
def FVal.overInt (x : FVal) (s : Option Nat) : FVal :=
  match s with
  | none => x
  | some b =>
    match x, fBf16.decode b with
    | .num p m e, .num q n g => if n = 0 then .nan else .num (p != q) (divRne m e n g) 0
    | _, _ => x.over s

/-- An exact integer, or a value rounded to one, into a field of w bits (R80). -/
def intOverflow (w : Nat) (signed sat : Bool) (i : Int) : Nat × Bool :=
  let lo : Int := if signed then -(2 ^ (w - 1)) else 0
  let hi : Int := if signed then 2 ^ (w - 1) - 1 else 2 ^ w - 1
  if hi < i then (if sat then (modN w hi, true) else (modN w i, false))
  else if i < lo then (if sat then (modN w lo, true) else (modN w i, false))
  else (modN w i, false)

/-- Width and sign of an integer encoding; q4 and q3 are signed. -/
def Enc.intForm (e : Enc) : Option (Nat × Bool) :=
  match e with
  | .int w signed => some (w, signed)
  | .group q3 => some (if q3 then 3 else 4, true)
  | .native | .fp _ => none

/-- A floating-point register element to an integer encoding (R79, R80). -/
def fpToField (w : Nat) (signed sat : Bool) (x : FVal) : Nat × Bool :=
  match x with
  | .nan => (0, true)
  | .inf neg =>
    let lo : Int := if signed then -(2 ^ (w - 1)) else 0
    let hi : Int := if signed then 2 ^ (w - 1) - 1 else 2 ^ w - 1
    (modN w (if neg then lo else hi), true)
  | .num neg m e => intOverflow w signed sat (roundInt .rne neg m e).1

/-- `store_conv` (R79): the stored bits of a register element, and whether Clamped is set. -/
def storeConv (e : Enc) (sat : Bool) (t : ETy) (s : Option Nat) (x : Nat) : Nat × Bool :=
  match e, ETy.fmt? t with
  | .native, _ => (x, false)
  | .fp g, some f =>
    if s.any (fun b => !scaleOk b) then (0, true) else g.overflow sat ((f.decode x).over s)
  | _, some f =>
    match e.intForm with
    | none => (x, false)
    | some (w, signed) =>
      if s.any (fun b => !scaleOk b) then (0, true) else fpToField w signed sat ((f.decode x).overInt s)
  | _, none =>
    match e.intForm with
    | none => (x, false)
    | some (w, signed) => intOverflow w signed sat (sextN (ETy.width t) x)

/-- `MFMT`.Clamped, sticky (R76, R80). -/
def State.clampIf (s : State) (b : Bool) : State :=
  if b then { s with ctx := { s.ctx with mfmt := s.ctx.mfmt ||| 0x40 } } else s

/-! Groups (R75, R82). -/

/-- Bits per element of a group. -/
def codeBits (q3 : Bool) : Nat := if q3 then 3 else 4

/-- Code j of the packed field after a group's scale. -/
def codeAt (q3 : Bool) (packed j : Nat) : Nat := packed / 2 ^ (codeBits q3 * j) % 2 ^ codeBits q3

/-- The packed field of a list of codes. -/
def packCodes (q3 : Bool) : List Nat → Nat
  | [] => 0
  | c :: cs => c + 2 ^ codeBits q3 * packCodes q3 cs

/-- 16-bit units as one little-endian number; an unread one counts 0. -/
def unitsNum : List (Option Nat) → Nat
  | [] => 0
  | u :: us => u.getD 0 + 65536 * unitsNum us

/-- Block size of `VTYPE` (R75). -/
def State.blockSize (s : State) : Nat := blockElems (bits s.ctx.vtype 1 0)

end Sys2Proof.Machine
end

