-- ==== Sys2Proof/Machine/VMem.lean ====
section
/-! DEFINITION. Vector memory, major 0x36 (R214-R221): element addresses, the loop with precise faults (R30, R217),
scoreboard and L1 allocation (R37-R39, R44), group and channel scales (R81-R84), transposed loads and atomics. -/

namespace Sys2Proof.Machine

/-! The loop over active elements. -/

namespace VRun

/-- Runs f for each active element in order, with whether its lane lost it (R319, R320), up to where a stream's element
faults (R50). -/
def each (k : VRun) (f : Bool → State → Nat → Res State) (s : State) : Res State := do
  let one (s : State) (e : Nat) : Res State :=
    let (s, lost) := k.lane s e
    if k.active e then f lost s e else .ok s
  let s ← foldE one s ((List.range k.stop).drop k.start)
  k.ended s

/-- An access of element e: a failed check traps there (R217). -/
def acc {α : Type} (k : VRun) (e : Nat) : ARes α → Res α
  | .ok a => .ok a
  | .error (.fault s f) => k.trapAt s f.cause f.tval e
  | .error (.wait s) => waits s

/-- The scoreboard's test of the bounding range of the active elements that lie in the stash (R44). -/
def board (k : VRun) (addr : Nat → Word) (z : Nat) (s : State) : Res Unit :=
  if s.myCore.board.isEmpty then .ok ()
  else
    let offs := k.elems.filterMap (fun e =>
      (s.stashAt s.ctx.core (addr e)).map (fun p => p.2.off + (addr e - p.2.addr).toNat))
    match offs with
    | [] => .ok ()
    | o :: os =>
      let lo := os.foldl min o
      let hi := os.foldl max o
      if s.boardHit s.ctx.core lo (hi + z - lo) then waits s else .ok ()

end VRun

/-- How a load of a footprint in bytes allocates in the L1 (R39, R40). -/
def State.keeps (s : State) (bytes : Nat) : Keep := if bytes ≤ bits s.ctx.bypassth 23 0 then .high else .no

/-- A loader of one element: its bytes, or none where a marked word lies under them. -/
abbrev Loader := State → Word → Nat → ARes (Option Nat × State)

def plainLoad (a : Agent) (keep : Keep) : Loader := fun s va z => s.load a va z keep

/-- One loaded element: converted and written (R79), or canonical where poison was met (R317) or the lane lost it (R320).
The address stands with whether an index or a scale that gave it was poisoned. -/
def VRun.loadElem (k : VRun) (ld : Loader) (e' : Enc) (sat : Bool) (t : ETy) (d : VReg) (scale : Option Nat)
    (va : Word × Bool) (z : Nat) (lost : Bool) (s : State) (e : Nat) : Res State := do
  let (b, s) ← k.acc e (ld s va.1 z)
  let s := s.vectorPoison (!lost && (b.isNone || va.2))
  match if lost then none else b with
  | none => .ok (s.setElem d e (ETy.canon t))
  | some b =>
    let (v, c) := loadConv e' sat t scale b
    .ok ((s.clampIf c).setElem d e v)

/-- One stored element, or with `lost` the canonical value in its place (R320). -/
def VRun.storeElem (k : VRun) (a : Agent) (e' : Enc) (sat : Bool) (t : ETy) (v : VReg) (scale : Option Nat)
    (va : Word × Bool) (z : Nat) (lost : Bool) (s : State) (e : Nat) : Res State := do
  let x := if lost then (ETy.canon t, false) else k.get v t e
  let (b, c) := storeConv e' sat t scale x.1
  let s' ← k.acc e (s.store a va.1 z b)
  .ok ((s'.vectorPoison (x.2 || va.2)).clampIf c)

/-! Channel scale (R84). -/

def kvC (v : Word) : Nat := bits v 12 0
def kvWindow (v : Word) : Nat := bits v 39 16
def kvBase (v : Word) : Nat := bits v 63 40

/-- Byte offset of element e, and whether its row is kept in BF16. -/
def kvPlace (v : Word) (e : Nat) : Nat × Bool :=
  let c := kvC v
  let raw := decide (kvWindow v ≤ kvBase v + e / c)
  (e / c * (2 * c) + e % c * (if raw then 2 else 1), raw)

/-- The dispatch checks of a channel-mode access. -/
def kvOk (v : Word) (vl : Nat) (scalePlot : Word) : Bool :=
  decide (kvC v ≤ plotCount scalePlot) && decide (vl % kvC v = 0) && decide (kvBase v + vl / kvC v ≤ 2 ^ 24 - 1)

/-- A completed channel-mode store moves the base row on. -/
def State.kvStep (s : State) (vl : Nat) : State :=
  { s with ctx := { s.ctx with kvwin := s.ctx.kvwin + word (vl / kvC s.ctx.kvwin * 2 ^ 40) } }

/-! Group scale (R75, R81, R82). -/

/-- The 2-byte units of a group are reached one by one, before any of them has an effect on plot or memory. -/
def VRun.groupUnits (k : VRun) (ld : Loader) (va : Word) (n f : Nat) (s : State) : Res (List (Option Nat) × State) :=
  foldE (fun (st : List (Option Nat) × State) i => do
    let (b, s) ← k.acc f (ld st.2 (va + word (2 * i)) 2)
    .ok (st.1 ++ [b], s)) ([], s) (List.range n)

/-- The elements of group g that the instruction processes, active or not. -/
def VRun.groupElems (k : VRun) (bs g : Nat) : List Nat :=
  ((List.range k.stop).drop k.start).filter (fun e => e / bs = g)

/-- One group loaded: its scale goes to element g of the scale plot while that plot has one. -/
def VRun.groupLoad (k : VRun) (ld : Loader) (q3 sat : Bool) (t : ETy) (d vc : VReg) (bs : Nat) (base : Word) (s : State)
    (g : Nat) : Res State := do
  let es := k.groupElems bs g
  match es.find? k.active with
  | none => .ok (es.foldl (fun s e => (k.lane s e).1) s)
  | some f =>
    let n := groupBytes q3 bs
    let (us, s) ← k.groupUnits ld (base + word (g * n)) (n / 2) f s
    let bad := us.any Option.isNone
    let scale := if bad then 0x7FC0 else (us.headD none).getD 0
    let packed := unitsNum (us.drop 1)
    let s := if g < plotCount (s.plotOf vc) then s.setElem vc g scale else s
    let one (s : State) (e : Nat) : State :=
      let (s, lost) := k.lane s e
      if !k.active e then s
      else if lost then s.setElem d e (ETy.canon t)
      else if bad then (s.vectorPoison true).setElem d e (ETy.canon t)
      else
        let (v, c) := loadConv (.group q3) sat t (some scale) (codeAt q3 packed (e % bs))
        (s.clampIf c).setElem d e v
    .ok (es.foldl one s)

/-- A 2-byte unit of a group, written in the bits of a mask alone: those of codes that are not processed keep what memory holds
(log 77). -/
def State.storeBits (s : State) (va : Word) (mask v : Nat) : ARes State := do
  let (r, s) ← s.access .vector .store .strand va 2 .normal
  s.putAt .vector r.pa 2 ((v &&& mask) ||| (s.mem.num r.pa 2 &&& (65535 - mask)))

/-- One group stored: every unit is checked before the first is written. The scale word and the codes of the elements from `VSTART`
(R102) up to the one whose stream faults (R100) are written. Codes of elements that the data plot has not, where L is below `VL`,
are those of `FILL` (log 65). -/
def VRun.groupStore (k : VRun) (q3 sat : Bool) (t : ETy) (v vc : VReg) (bs : Nat) (base : Word) (s : State) (g : Nat) :
    Res State := do
  match k.groupElems bs g with
  | [] => .ok s
  | f :: es =>
    let n := groupBytes q3 bs
    let va := base + word (g * n)
    let sc := k.get vc .bf16 g
    let lo := k.start - g * bs
    let hi := if k.sfault.isSome then min bs (k.stop - g * bs) else bs
    let w := codeBits q3
    let mask := 65535 + 65536 * (2 ^ (w * hi) - 2 ^ (w * lo))
    let part (i : Nat) : Nat := mask / 65536 ^ i % 65536
    let addrs := ((List.range (n / 2)).filter (fun i => part i != 0)).map (fun i => (i, va + word (2 * i)))
    let s ← foldE (fun (s : State) (p : Nat × Word) => do
      let (_, s) ← k.acc f (s.reach .vector .store .strand p.2 2)
      .ok s) s addrs
    let (s, lost) := (f :: es).foldl (fun (st : State × List Nat) e =>
      let (s, l) := k.lane st.1 e
      (s, if l then e :: st.2 else st.2)) (s, [])
    let els := (List.range bs).map (fun j =>
      if lost.contains (g * bs + j) then (ETy.canon t, false) else k.get v t (g * bs + j))
    let codes := els.map (fun x => storeConv (.group q3) sat t (some sc.1) x.1)
    let bytes := sc.1 + 65536 * packCodes q3 (codes.map Prod.fst)
    let s ← foldE (fun (s : State) (p : Nat × Word) =>
      k.acc f (s.storeBits p.2 (part p.1) (bytes / 65536 ^ p.1 % 65536))) s addrs
    let done {α : Type} (l : List α) : List α := (l.take hi).drop lo
    .ok (((done els).foldl (fun (s : State) x => s.vectorPoison (x.2 || sc.2)) s).clampIf ((done codes).any Prod.snd))

/-- Elements whose addresses the instruction gives one by one, without a scale. -/
def VRun.loadElem' (k : VRun) (ld : Loader) (e' : Enc) (sat : Bool) (t : ETy) (d : VReg) (va : Nat → Word × Bool) (z : Nat)
    (lost : Bool) (s : State) (e : Nat) : Res State := k.loadElem ld e' sat t d none (va e) z lost s e

def VRun.storeElem' (k : VRun) (a : Agent) (e' : Enc) (sat : Bool) (t : ETy) (v : VReg) (va : Nat → Word × Bool) (z : Nat)
    (lost : Bool) (s : State) (e : Nat) : Res State := k.storeElem a e' sat t v none (va e) z lost s e

/-! Unit stride. -/

/-- What a memory instruction names; `unit` is 1 for loads, 2 for stores. -/
def memSpec (unit : Nat) (o : VOpts) (dest : Option (VReg × Option Nat)) (srcs : List (VReg × Option Nat)) (len : VReg)
    (cross : Bool) : VSpec :=
  { unit := unit, o := o, dest := dest, srcs := srcs, lenOf := [len], cross := cross, scalarRes := false, governed := true }

/-- A unit-stride load (R218). The footprint that R39 compares is that of the whole groups for q4 and q3, and 1 byte an element for a
channel-mode load (log 78). -/
def vldBody (t : ETy) (o : VOpts) (q : LdOrd) (xs : XReg) (vd vc : VReg) (en : VQEntry) (s : State) : Res State := do
  let m := mform s.ctx.mfmt
  let ch := m.scale == 2
  let k := memSpec 1 o (some (vd, some (ETy.cells t))) (if ch then [(vc, some 1)] else []) vd ch
  let k := if m.scale == 1 then { k with also := [(vc, some 1)] } else k
  let r ← vbegin en k s
  let s := r.src
  vcheck r.entry k (m.admits t .unit && (m.scale != 0 || vc == 0)) s 0x02
  let base := en.x xs
  let acq : Option Scope := match q with | .plain => none | .acq a => some a
  let s ← match m.enc, m.scale with
    | .group q3, _ => do
      let bs := s.blockSize
      let n := groupBytes q3 bs
      vcheck r.entry k (!(plotBox (s.plotOf vc)).meets (plotBox (s.plotOf vd))) s 0x02
      r.board (fun e => base + word (e / bs * n)) n s
      let ld := plainLoad .vector (s.keeps (ceilDiv r.vl bs * n))
      let s ← foldE (r.groupLoad ld q3 m.sat t vd vc bs base) s (List.range (ceilDiv r.stop bs))
      r.ended s
    | e', 2 => do
      let kv := s.ctx.kvwin
      vcheck r.entry k (kvOk kv r.vl (s.plotOf vc)) s 0x02
      let r := r.taking (fun e => if (kvPlace kv e).2 then [] else [(vc, e % kvC kv)])
      let at' (e : Nat) : Word := base + word (kvPlace kv e).1
      r.board at' 2 s
      let ld := plainLoad .vector (s.keeps r.vl)
      r.each (fun lost s e =>
        let raw := (kvPlace kv e).2
        let sc := r.get vc .bf16 (e % kvC kv)
        if raw then r.loadElem ld .native m.sat t vd none (at' e, false) 2 lost s e
        else r.loadElem ld e' m.sat t vd (some sc.1) (at' e, sc.2) (e'.size t) lost s e) s
    | e', _ => do
      let z := e'.size t
      let at' (e : Nat) : Word := base + word (e * z)
      r.board at' z s
      r.each (r.loadElem' (plainLoad .vector (s.keeps (r.vl * z))) e' m.sat t vd (fun e => (at' e, false)) z) s
  let s ← r.done s
  .ok (s.acquire acq)

def relOf (q : StOrd) : Option Scope := match q with | .plain => none | .rel a => some a
def acqOf (q : LdOrd) : Option Scope := match q with | .plain => none | .acq a => some a

def vstBody (t : ETy) (o : VOpts) (q : StOrd) (xs : XReg) (va vc : VReg) (en : VQEntry) (s : State) : Res State := do
  let m := mform s.ctx.mfmt
  let scaled := m.scale != 0
  let k := memSpec 2 o none ((va, some (ETy.cells t)) :: if scaled then [(vc, some 1)] else []) va scaled
  let r ← vbegin en k s
  vcheck r.entry k (m.admits t .unit && (scaled || vc == 0)) r.src 0x02
  let s ← release (relOf q) r.src
  let base := en.x xs
  match m.enc, m.scale with
    | .group q3, _ =>
      let bs := s.blockSize
      let n := groupBytes q3 bs
      vcheck r.entry k (decide (ceilDiv r.vl bs ≤ plotCount (s.plotOf vc)) && decide (r.vl % bs = 0) &&
        o.mask == 0 && !o.inv) s 0x02
      let r := r.taking (fun e => [(va, e), (vc, e / bs)])
      r.board (fun e => base + word (e / bs * n)) n s
      let s ← foldE (r.groupStore q3 m.sat t va vc bs base) s (List.range (ceilDiv r.stop bs))
      let s ← r.ended s
      r.done s
    | e', 2 =>
      let kv := s.ctx.kvwin
      vcheck r.entry k (kvOk kv r.vl (s.plotOf vc)) s 0x02
      let r := r.taking (fun e => (va, e) :: if (kvPlace kv e).2 then [] else [(vc, e % kvC kv)])
      let at' (e : Nat) : Word := base + word (kvPlace kv e).1
      r.board at' 2 s
      let s ← r.each (fun lost s e =>
        let raw := (kvPlace kv e).2
        let sc := r.get vc .bf16 (e % kvC kv)
        if raw then r.storeElem .vector .native m.sat t va none (at' e, false) 2 lost s e
        else r.storeElem .vector e' m.sat t va (some sc.1) (at' e, sc.2) (e'.size t) lost s e) s
      r.done (s.kvStep r.vl)
    | e', _ =>
      let z := e'.size t
      let at' (e : Nat) : Word := base + word (e * z)
      r.board at' z s
      let s ← r.each (r.storeElem' .vector e' m.sat t va (fun e => (at' e, false)) z) s
      r.done s

def execVld (t : ETy) (o : VOpts) (r : LdOrd) (c : BitVec 4) (xs : XReg) (vd vc : VReg) (s : State) :=
  vissue (.vld t o r c xs vd vc) (vldBody t o r xs vd vc) s
def execVst (t : ETy) (o : VOpts) (r : StOrd) (c : BitVec 4) (xs : XReg) (va vc : VReg) (s : State) :=
  vissue (.vst t o r c xs va vc) (vstBody t o r xs va vc) s

/-! Loads and stores of scale mode none at an address of each element. -/

/-- A load's elements, after its format is checked. -/
def loadAll (kind : AKind) (ld : Nat → Loader) (t : ETy) (vd : VReg) (at' : Nat → VRun → Nat → Word × Bool) (r : VRun)
    (s : State) : Res State := do
  let m := mform s.ctx.mfmt
  vcheck r.entry r.spec (m.admits t kind) s 0x02
  let z := m.enc.size t
  let e' : Enc := match kind, m.enc with | .vldt, .group _ => .native | _, e => e
  r.board (fun e => (at' z r e).1) z s
  r.each (r.loadElem' (ld z) e' m.sat t vd (at' z r) z) s

def storeAll (a : Agent) (kind : AKind) (t : ETy) (va : VReg) (at' : VRun → Nat → Word × Bool) (q : StOrd) (r : VRun) : Res State := do
  let m := mform r.src.ctx.mfmt
  vcheck r.entry r.spec (m.admits t kind) r.src 0x02
  let s ← release (relOf q) r.src
  let z := m.enc.size t
  r.board (fun e => (at' r e).1) z s
  let s ← r.each (r.storeElem' a m.enc m.sat t va (at' r) z) s
  r.done s

/-! Strided. -/

/-- A gathered line of the core with a stride and element size holds the element at pa (R37). -/
def State.gatheredHit (s : State) (core : Nat) (d : Int) (z pa : Nat) : Bool :=
  (s.core core).gathered.any (fun g => g.stride == d && g.size == z && g.lines.contains pa)

/-- A line from which a gathered line may take the element at an address: one that the load could read now. -/
def State.gatherable (s : State) (z : Nat) (va : Word) : Option Nat :=
  match s.checked s.ctx.who s.ctx .vector .load .strand z va z with
  | .error _ => none
  | .ok (e, _) =>
    let pa := e.phys va
    let line := pa / 128
    if (s.stashAt s.ctx.core va).isSome || s.ownedLine line false || !cacheable line ||
      (s.l2Detect (l2Die s.ctx.who line) line).2.isSome then none else some pa

/-- A missed element allocates a gathered line (R37): it and the elements of the pattern after it, 128/z in all, of which
those that cannot be read now are left out (log 66). -/
def State.addGathered (s : State) (d : Word) (z : Nat) (va : Word) : State :=
  let core := s.ctx.core
  let take (st : List Nat × State) (i : Nat) : List Nat × State :=
    match st.2.gatherable z (va + word i * d) with
    | none => st
    | some pa => (st.1 ++ [pa], st.2.touch st.2.ctx.who .l2 (pa / 128) false false .no)
  match (List.range (128 / z)).foldl take ([], s) with
  | ([], s) => s
  | (pa :: pas, s) =>
    let s := s.l1Evict s.ctx.who core (pa / 128 % 128)
    s.modCore core (fun c => { c with gathered := { base := pa, stride := d.toInt, size := z, lines := pa :: pas } :: c.gathered })

/-- The loader of a strided load: with |d| above 128 a gathered line may serve it, and a miss allocates one and takes its
element without keeping the ordinary line (R37, R39). -/
def stridedLoad (d : Word) (keep : Keep) : Loader := fun s va z =>
  if d.toInt.natAbs ≤ 128 then s.load .vector va z keep
  else do
    let (r, s1) ← s.reach .vector .load .strand va z
    let core := s1.ctx.core
    let line := r.pa / 128
    let inL1 := r.path.isL1 core
    let s2 :=
      if inL1 && s1.gatheredHit core d.toInt z r.pa then s1.countCtx 0x06 1
      else
        let held := s1.myCore.l1.any (fun l => l.line == line)
        let s2 := s1.touch s.ctx.who r.path line false false .no
        if inL1 && !held && keep != .no then s2.addGathered d z va else s2
    .ok (if s2.poisonedAt r.pa z then none else some (s2.mem.num r.pa z), s2)

def vldStridedBody (t : ETy) (o : VOpts) (q : LdOrd) (xs xp : XReg) (vd : VReg) (en : VQEntry) (s : State) : Res State := do
  let r ← vbegin en (memSpec 1 o (some (vd, some (ETy.cells t))) [] vd false) s
  let d := en.x xp
  let ld := stridedLoad d (r.src.keeps (r.vl * d.toInt.natAbs))
  let s ← loadAll .other (fun _ => ld) t vd (fun _ _ e => (en.x xs + word e * d, false)) r r.src
  let s ← r.done s
  .ok (s.acquire (acqOf q))

def vstStridedBody (t : ETy) (o : VOpts) (q : StOrd) (xs xp : XReg) (va : VReg) (en : VQEntry) (s : State) : Res State := do
  let r ← vbegin en (memSpec 2 o none [(va, some (ETy.cells t))] va false) s
  storeAll .vector .other t va (fun _ e => (en.x xs + word e * en.x xp, false)) q r

def execVldStrided (t : ETy) (o : VOpts) (r : LdOrd) (c : BitVec 4) (xs xp : XReg) (vd : VReg) (s : State) :=
  vissue (.vldStrided t o r c xs xp vd) (vldStridedBody t o r xs xp vd) s
def execVstStrided (t : ETy) (o : VOpts) (r : StOrd) (c : BitVec 4) (xs xp : XReg) (va : VReg) (s : State) :=
  vissue (.vstStrided t o r c xs xp va) (vstStridedBody t o r xs xp va) s

/-! Indexed (R215): a signed byte offset that is not scaled. -/

def ixCells (ix64 : Bool) : Nat := if ix64 then 4 else 2
def ixTy (ix64 : Bool) : ETy := if ix64 then .i64 else .i32

/-- The address of element e, and whether its index was poisoned. -/
def VRun.indexed (r : VRun) (base : Word) (vb : VReg) (ix64 : Bool) (e : Nat) : Word × Bool :=
  let i := r.get vb (ixTy ix64) e
  (base + wordI (sextN (16 * ixCells ix64) i.1), i.2)

def vldxBody (t : ETy) (o : VOpts) (q : LdOrd) (ix64 : Bool) (xs : XReg) (vd vb : VReg) (en : VQEntry) (s : State) :
    Res State := do
  let r ← vbegin en (memSpec 1 o (some (vd, some (ETy.cells t))) [(vb, some (ixCells ix64))] vd false) s
  let s ← loadAll .other (fun _ => plainLoad .gather .normal) t vd (fun _ r => r.indexed (en.x xs) vb ix64) r r.src
  let s ← r.done s
  .ok (s.acquire (acqOf q))

def vstxBody (t : ETy) (o : VOpts) (q : StOrd) (ix64 : Bool) (xs : XReg) (va vb : VReg) (en : VQEntry) (s : State) :
    Res State := do
  let r ← vbegin en (memSpec 2 o none [(va, some (ETy.cells t)), (vb, some (ixCells ix64))] va false) s
  storeAll .gather .other t va (fun r => r.indexed (en.x xs) vb ix64) q r

def execVldx (t : ETy) (o : VOpts) (r : LdOrd) (c : BitVec 4) (ix64 : Bool) (xs : XReg) (vd vb : VReg) (s : State) :=
  vissue (.vldx t o r c ix64 xs vd vb) (vldxBody t o r ix64 xs vd vb) s
def execVstx (t : ETy) (o : VOpts) (r : StOrd) (c : BitVec 4) (ix64 : Bool) (xs : XReg) (va vb : VReg) (s : State) :=
  vissue (.vstx t o r c ix64 xs va vb) (vstxBody t o r ix64 xs va vb) s

/-! Transposed loads from the stash (R219). -/

def vldtAddr (base pitch : Word) (z e : Nat) : Word :=
  let k := e % 64
  base + word (16 * (e / 64) + k % 16) * pitch + word (k / 16 * z)

/-- After the checks of R25 an element must lie inside a stash mapping. -/
def stashLoad : Loader := fun s va z =>
  if (s.stashAt s.ctx.core va).isSome then s.load .vector va z .normal
  else do
    let (_, s) ← s.checked s.ctx.who s.ctx .vector .load .strand z va z
    .error (.fault s { cause := 0x02, tval := va })

def vldtBody (t : ETy) (o : VOpts) (q : LdOrd) (xs xp : XReg) (vd : VReg) (en : VQEntry) (s : State) : Res State := do
  let r ← vbegin en (memSpec 1 o (some (vd, some (ETy.cells t))) [] vd false) s
  let s ← loadAll .vldt (fun _ => stashLoad) t vd (fun z _ e => (vldtAddr (en.x xs) (en.x xp) z e, false)) r r.src
  let s ← r.done s
  .ok (s.acquire (acqOf q))

def execVldt (t : ETy) (o : VOpts) (r : LdOrd) (c : BitVec 4) (xs xp : XReg) (vd : VReg) (s : State) :=
  vissue (.vldt t o r c xs xp vd) (vldtBody t o r xs xp vd) s

/-! Atomic updates (R221). -/

def vamoScope (r : VamoOrd) : Scope := match r with | .plain => .strand | .acq a | .rel a | .ar a => a
def vamoRel (r : VamoOrd) : Option Scope := match r with | .rel a | .ar a => some a | .plain | .acq _ => none
def vamoAcq (r : VamoOrd) : Option Scope := match r with | .acq a | .ar a => some a | .plain | .rel _ => none

/-- One element: one single-copy atomic step; an element at or past the destination's count gives no old value. -/
def VRun.amoElem (r : VRun) (op : AmoOp) (t : ETy) (q : VamoOrd) (discard : Bool) (base : Word) (ix64 : Bool) (vd va vb : VReg)
    (lost : Bool) (s : State) (e : Nat) : Res State := do
  let w := ETy.width t
  let i := r.indexed base vb ix64 e
  let x := r.get va t e
  let (old, bad, s) ← r.acc e (s.atomic .gather (vamoScope q) i.1 (w / 8) (fun o => some (amoFn op w o x.1)))
  let s := s.vectorPoison (bad || x.2 || i.2)
  .ok (if discard || decide (plotCount (s.plotOf vd) ≤ e) then s
    else s.setElem vd e (if lost then ETy.canon t else old))

def vamoBody (op : AmoOp) (t : ITy) (o : VOpts) (q : VamoOrd) (ix64 discard : Bool) (xs : XReg) (vd va vb : VReg)
    (en : VQEntry) (s : State) : Res State := do
  let e' := ityE t
  let dest := if discard then none else some (vd, some (ETy.cells e'))
  let k := memSpec 2 o dest [(va, some (ETy.cells e')), (vb, some (ixCells ix64))] va false
  let r ← vbegin en k s
  let box (v : VReg) : Box := plotBox (r.src.plotOf v)
  vcheck r.entry k (discard || !((box vd).meets (box va) || (box vd).meets (box vb))) r.src 0x02
  let s ← release (vamoRel q) r.src
  r.board (fun e => (r.indexed (en.x xs) vb ix64 e).1) (ETy.width e' / 8) s
  let s ← r.each (r.amoElem op e' q discard (en.x xs) ix64 vd va vb) s
  let s ← r.done s
  .ok (s.acquire (vamoAcq q))

def execVamo (op : AmoOp) (t : ITy) (o : VOpts) (r : VamoOrd) (c : BitVec 4) (ix64 discard : Bool) (xs : XReg) (vd va vb : VReg)
    (s : State) := vissue (.vamo op t o r c ix64 discard xs vd va vb) (vamoBody op t o r ix64 discard xs vd va vb) s

end Sys2Proof.Machine
end

