-- ==== Sys2Proof/Machine/VQueue.lean ====
section
/-! DEFINITION. The vector unit's ends of the Mill queues (R225, R226) and lane threads (R227-R231), major 0x38. -/

namespace Sys2Proof.Machine

/-! Mill queues. -/

/-- Bytes a feed or drain queue holds (R119). -/
def queueBytes : Nat := 32768

/-- The core's place in its cluster. -/
def Ctx.queue (c : Ctx) : Fin 4 := ⟨c.core % 4, Nat.mod_lt _ (by decide)⟩

/-- The Mill of the context's cluster, when a crew of its nest holds it (R294); else the instruction stalls. -/
def heldMill (s : State) : Res Mill :=
  let m := s.mill s.ctx.cluster
  if m.holder == some s.ctx.nest then .ok m else waits s

/-- A register element in a feed format, as its bytes (R225). -/
def feedBytes (f : Feed) (t : FTy) (x : Nat) : List Byte :=
  let v := (ftFmt t).decode x
  match f with
  | .bf16 => leBytes 2 (fBf16.overflow false v).1
  | .e4m3 => leBytes 1 (fE4m3.overflow true v).1
  | .e5m2 => leBytes 1 (fE5m2.overflow true v).1
  | .f64 => leBytes 8 (fFp64.overflow false v).1

def vfeedBody (f : Feed) (t : FTy) (o : VOpts) (va : VReg) (en : VQEntry) (s : State) : Res State := do
  let e := ftyE t
  let k := memSpec 1 o none [(va, some (ETy.cells e))] va false
  let r ← vbegin en k s
  let s := r.src
  if r.len ≤ r.start then r.done s
  else
    let m ← heldMill s
    let q := s.ctx.queue
    if queueBytes < m.feed[q].length + (r.len - r.start) * (feedBytes f t 0).length then waits s
    else
      let (s, lost) := r.lanes s
      let el (i : Nat) : Nat × Bool :=
        if !r.active i then (0, false) else if lost.contains i then (ETy.canon e, false) else r.get va e i
      let es := ((List.range r.stop).drop r.start).map el
      let s := es.foldl (fun (s : State) x => s.vectorPoison x.2) s
      let s ← r.ended (s.setMill s.ctx.cluster { m with feed := m.feed.set q (m.feed[q] ++ es.flatMap (fun x => feedBytes f t x.1)) })
      r.done s

def execVfeed (f : Feed) (t : FTy) (o : VOpts) (va : VReg) (s : State) := vissue (.vfeed f t o va) (vfeedBody f t o va) s

/-- A drain entry as a register element (R226). -/
def drainElem (f64 : Bool) (t : FTy) (x : Nat) : Nat :=
  match f64, t with
  | true, _ => x
  | false, .f32 => x
  | false, _ => ((ftFmt t).overflow false (fFp32.decode x)).1

def vdrainBody (f64 : Bool) (t : FTy) (o : VOpts) (vd : VReg) (en : VQEntry) (s : State) : Res State := do
  let k := memSpec 2 o (some (vd, some (ETy.cells (ftyE t)))) [] vd false
  let r ← vbegin en k s
  let s := r.src
  if r.len ≤ r.start then r.done s
  else
    let m ← heldMill s
    let q := s.ctx.queue
    let size := if f64 then 8 else 4
    if m.drain[q].length < (r.len - r.start) * size then waits s
    else
      let old := m.drain[q]
      let s := s.setMill s.ctx.cluster { m with drain := m.drain.set q (old.drop ((r.stop - r.start) * size)) }
      let (s, lost) := r.lanes s
      let put (s : State) (e : Nat) : State :=
        s.setElem vd e (if lost.contains e then ETy.canon (ftyE t)
          else drainElem f64 t (leNat ((old.drop ((e - r.start) * size)).take size)))
      let s ← r.ended ((((List.range r.stop).drop r.start).filter r.active).foldl put s)
      r.done s

def execVdrain (f64 : Bool) (t : FTy) (o : VOpts) (vd : VReg) (s : State) := vissue (.vdrain f64 t o vd) (vdrainBody f64 t o vd) s

/-! Lane threads. -/

/-- `vdetach` (R227): one thread for each active element, over nt plots, after a release at `.core` (R274). -/
def vdetachBody (o : VOpts) (va : VReg) (nt : BitVec 4) (xs : XReg) (en : VQEntry) (s : State) : Res State := do
  let n := nt.toNat + 1
  let plots := (List.range n).map (fun i => va + BitVec.ofNat 6 i)
  let k : VSpec := { unit := 7, o := o, dest := none, srcs := plots.map (fun v => (v, none)), lenOf := plots
                     cross := false, scalarRes := true, governed := true }
  let r ← vbegin en k s
  vcheck r.entry k r.src.ctx.detach.isNone r.src 0x02
  r.whole r.src
  let s ← release (some .core) r.src
  let t (e : Nat) : LaneThread := { elem := e, pc := en.xs[xs.toNat]'xs.isLt, count := 0 }
  let d : Detach := { va := va, nt := n, threads := r.elems.map t, faults := [] }
  r.done { s with ctx := { s.ctx with detach := some d } }

def execVdetach (o : VOpts) (va : VReg) (nt : BitVec 4) (xs : XReg) (s : State) :=
  vissue (.vdetach o va nt xs) (vdetachBody o va nt xs) s

/-- The fault of the lowest element (R231). -/
def lowestFault (l : List LaneFault) : Option LaneFault :=
  l.foldl (fun (m : Option LaneFault) f =>
    match m with
    | none => some f
    | some g => if f.elem < g.elem then some f else some g) none

/-- `vfence` (R230, R231): every thread has ended, or their fault is reported; the scalar core waits for it. -/
def vfenceBody (sc : Scope) (en : VQEntry) (s : State) : Res State := do
  if s.ctx.threading then waits s
  else
    let r ← vbegin en { unit := 7, o := { mask := 0, inv := false, dt := false, vls := .vl }, dest := none, srcs := [], lenOf := []
                        cross := false, scalarRes := false, governed := false } s
    let s := r.src
    if !s.streamsOut s.ctx then waits s
    match s.ctx.detach with
    | none => r.done s
    | some d =>
      let s := { s with ctx := { s.ctx with detach := none } }
      let s := if sc == .system then s.fabricClean s.ctx.die else s
      match lowestFault d.faults with
      | some f =>
        vraise en d.va.toNat s 0x1A (word (f.cause.toNat * 2 ^ 56 + bits f.addr 55 0)) (some f.elem) 0
      | none => r.done s

def execVfence (dt : Bool) (sc : Scope) (s : State) := vwaiting (.vfence dt sc) (vfenceBody sc) s

/-- The running lane thread ends. -/
def State.endThread (s : State) (e : Nat) : State :=
  let upd (d : Detach) : Detach := { d with threads := d.threads.filter (fun t => t.elem != e) }
  { s with lane := none, ctx := { s.ctx with detach := s.ctx.detach.map upd } }

/-- `lexit` (R229): legal in a lane thread only. -/
def execLexit (s : State) := settle (do
  legal .lane [] s
  match s.lane with
  | some e => .ok (s.endThread e)
  | none => .ok s)

/-- The 65,536th instruction of a lane thread that is not `lexit` ends it with a fault (R229, R231). -/
def execLaneThreadLimit (s : State) : Host.Outcome State Fault Refusal :=
  match s.arg with
  | .lane c e =>
    match s.findCtx c with
    | none => .next s
    | some _ =>
      let t := { s.switchTo c with lane := some e }
      if t.overLimit then .next (t.laneFault e 0x1A t.pc) else .next s
  | _ => .next s

end Sys2Proof.Machine
end

