-- ==== Sys2Proof/Machine/Mill.lean ====
section
/-! DEFINITION. The Miller, major 0x2E (R234-R240), and the Mill's work (R118-R124). -/

namespace Sys2Proof.Machine

/-! Modes (R118, R236). -/

/-- How a column record holds B: plain values of a format, q4 or q3 groups of 32, or either 2:4 sparse. -/
inductive BKind
  | plain (f : Fmt)
  | quant (q3 : Bool)
  | sparse (q : Option Bool)
deriving DecidableEq, Repr

structure MillMode where
  a : Fmt
  b : BKind
  k : Nat
  rowBytes : Nat
  record : Nat
deriving DecidableEq, Repr

def MmulMode.info (m : MmulMode) : MillMode :=
  let mk (a : Fmt) (b : BKind) (k row p : Nat) : MillMode := { a := a, b := b, k := k, rowBytes := row, record := p }
  match m with
  | .bf16 => mk fBf16 (.plain fBf16) 128 256 256
  | .bf16q4 => mk fBf16 (.quant false) 256 512 144
  | .bf16q3 => mk fBf16 (.quant true) 256 512 112
  | .e4m3 => mk fE4m3 (.plain fBf16) 256 256 512
  | .e5m2 => mk fE5m2 (.plain fBf16) 256 256 512
  | .e4m3q4 => mk fE4m3 (.quant false) 512 512 288
  | .e4m3q3 => mk fE4m3 (.quant true) 512 512 224
  | .e5m2q4 => mk fE5m2 (.quant false) 512 512 288
  | .e5m2q3 => mk fE5m2 (.quant true) 512 512 224
  | .f64 => mk fFp64 (.plain fFp64) 128 1024 1024
  | .bf16s => mk fBf16 (.sparse none) 256 512 288
  | .bf16q4s => mk fBf16 (.sparse (some false)) 512 1024 224
  | .bf16q3s => mk fBf16 (.sparse (some true)) 512 1024 192

/-! Instructions: checked at issue, then handed over (R234). -/

def sliceBytes : Nat := 49152

def State.giveMill (s : State) (op : MillOp) : State :=
  let n := s.ctx.cluster
  let (id, s) := s.fresh
  let m := s.mill n
  (s.setMill n { m with ops := m.ops ++ [(id, op)] }).post .millOperation (.cluster (BitVec.ofNat 6 n))

/-- Bytes with those of marked words read as 0 (R317), and whether there was one. -/
def State.cleanBytes (s : State) (ps : List (Nat × Nat)) : List Byte × Bool :=
  let bs := s.readPieces ps
  let marks := s.markBytes ps
  if marks.any id then ((bs.zip marks).map (fun p => if p.2 then 0 else p.1), true) else (bs, false)

/-- `mldb` (R235): the source is read at issue, and its lines are held until the slices are written. -/
def execMldb (d a b : XReg) (s : State) := settle (do
  legal .miller [d, a, b] s
  let p := (s.getX d).toNat
  let off := (s.getX b).toNat
  let va := s.getX a
  check (decide (p % 16 = 0) && decide (16 ≤ p) && decide (p ≤ sliceBytes)) s 0x02 (s.getX d)
  check (decide (off % 16 = 0) && decide (off + p ≤ sliceBytes)) s 0x02 (s.getX b)
  let (ps, s1) ← scalarAcc (s.rangeCheck .engine .load va (256 * p))
  let lines := State.pieceLines ps
  if lines.any (fun l => s1.ownedLine l false) then waits s
  else match s1.detectLines s.ctx.who lines with
    | .error s2 => waits s2
    | .ok s2 =>
      let s3 := lines.foldl (fun s l => s.touch s.ctx.who .l2 l false false .no) s2
      let (bs, bad) := s3.cleanBytes ps
      let s4 := s3.enginePoison s3.ctx.id bad
      .ok ((s4.giveMill (.mldb p lines off bs)).advance 4))

/-- `mmul` (R237). -/
def execMmul (m : MmulMode) (t q : BitVec 2) (a b : XReg) (s : State) := settle (do
  legal .miller [a, b] s
  let rows := (s.getX a).toNat
  let off := (s.getX b).toNat
  check (decide (1 ≤ rows) && decide (rows ≤ 128)) s 0x02 (s.getX a)
  check (decide (off % 16 = 0) && decide (off + (MmulMode.info m).record ≤ sliceBytes)) s 0x02 (s.getX b)
  check (m != .f64 || t.toNat % 2 == 0) s 0x02 (word t.toNat)
  .ok ((s.giveMill (.mmul m t.toNat q.toNat 0 rows off (bits s.ctx.vtype 7 4))).advance 4))

/-- `mclr` (R238). -/
def execMclr (t : BitVec 2) (s : State) := settle (do
  legal .miller [] s
  .ok ((s.giveMill (.mclr t.toNat)).advance 4))

/-- `mout` (R239). -/
def execMout (f64 clr : Bool) (t q : BitVec 2) (a b : XReg) (s : State) := settle (do
  legal .miller [a, b] s
  let row := (s.getX a).toNat
  let count := (s.getX b).toNat
  check (decide (row ≤ 127)) s 0x02 (s.getX a)
  check (decide (1 ≤ count) && decide (count ≤ 128) && decide (row + count ≤ 128)) s 0x02 (s.getX b)
  check (!f64 || t.toNat % 2 == 0) s 0x02 (word t.toNat)
  .ok ((s.giveMill (.mout f64 clr t.toNat q.toNat row count)).advance 4))

/-- `msync` (R240). -/
def execMsync (s : State) := settle (do
  legal .miller [] s
  if (s.mill s.ctx.cluster).ops.isEmpty then .ok (s.advance 4) else waits s)

/-! Column records (R236). -/

/-- Byte i of column j's slice. -/
def Mill.sliceByte (m : Mill) (j i : Nat) : Byte := sget 0 m.slices (j * sliceBytes + i)

/-- n bytes of a slice, little-endian. -/
def Mill.sliceNum (m : Mill) (j i n : Nat) : Nat := leNat ((List.range n).map (fun k => m.sliceByte j (i + k)))

/-- A slice byte of column j in [i, i+n) has an uncorrectable error (R321). -/
def Mill.sliceBad (m : Mill) (j i n : Nat) : Bool :=
  !m.bad.isEmpty && m.bad.any (fun b => decide (j * sliceBytes + i ≤ b) && decide (b < j * sliceBytes + i + n))

/-- A stored value of n bytes; one with an error is zero. -/
def Mill.valNum (m : Mill) (j i n : Nat) : Nat := if m.sliceBad j i n then 0 else m.sliceNum j i n

/-- Code k of w bits in the packed field at byte i; one with an error is zero. -/
def Mill.code (m : Mill) (w j i k : Nat) : FVal :=
  let lo := w * k / 8
  let n := (w * k + w - 1) / 8 + 1 - lo
  if m.sliceBad j (i + lo) n then .num false 0 0
  else .ofInt (sextN w (m.sliceNum j (i + lo) n / 2 ^ (w * k % 8)))

/-- A group of 32 k positions: its scale, and the pairs of a position and the value that meets it. -/
structure BGroup where
  scale : Nat
  vals : List (Nat × FVal)
deriving DecidableEq, Repr

/-- FP32 1.0, the scale where B carries none. -/
def oneFp32 : Nat := 0x3F800000

/-- A BF16 scale as FP32 bits. -/
def scaleFp32 (b : Nat) : Nat := (fBf16.conv fFp32 .rne b).bits

/-- Value n of a sparse record, and the byte at which the metadata starts. -/
def Mill.sparseVal (m : Mill) (q : Option Bool) (j off n : Nat) : FVal :=
  match q with
  | none => fBf16.decode (m.valNum j (off + 2 * n) 2)
  | some q3 => m.code (codeBits q3) j (off + n / 16 * (2 + 2 * codeBits q3) + 2) (n % 16)

/-- Group g of column j's record; the values that an erroneous metadata byte would place are zero (R321). -/
def Mill.group (m : Mill) (md : MillMode) (j off g : Nat) : BGroup :=
  match md.b with
  | .plain f =>
    let z := f.width / 8
    { scale := oneFp32
      vals := (List.range 32).map (fun i => (32 * g + i, f.decode (m.valNum j (off + z * (32 * g + i)) z))) }
  | .quant q3 =>
    let w := codeBits q3
    let n := 2 + 4 * w
    { scale := scaleFp32 (m.valNum j (off + n * g) 2)
      vals := (List.range 32).map (fun i => (32 * g + i, m.code w j (off + n * g + 2) i)) }
  | .sparse q =>
    let values := md.k / 2
    let metaAt := match q with | none => 2 * values | some q3 => values / 16 * (2 + 2 * codeBits q3)
    let nibble (u : Nat) : Nat := (m.sliceByte j (off + metaAt + u / 2)).toNat / 16 ^ (u % 2) % 16
    let val (u n : Nat) : FVal := if m.sliceBad j (off + metaAt + u / 2) 1 then .num false 0 0 else m.sparseVal q j off n
    let pair (u : Nat) : List (Nat × FVal) :=
      let b := nibble u
      [(4 * u + b % 4, val u (2 * u)), (4 * u + b / 4, val u (2 * u + 1))]
    { scale := match q with | none => oneFp32 | some q3 => scaleFp32 (m.valNum j (off + g * (2 + 2 * codeBits q3)) 2)
      vals := (List.range 8).flatMap (fun i => pair (8 * g + i)) }

/-! Accumulation (R121, R122, R124). -/

/-- Exact finite products as signed multiples of a power of two, or what R122 makes of the group. -/
inductive GroupSum
  | nan
  | inf (neg : Bool)
  | terms (l : List (Int × Int))
deriving DecidableEq, Repr

/-- Adds one product; `mul` gives the finite ones. -/
def GroupSum.push (mul : Bool → Nat → Int → Bool → Nat → Int → Int × Int) (g : GroupSum) (a b : FVal) : GroupSum :=
  match g with
  | .nan => .nan
  | _ =>
    match a, b with
    | .nan, _ => .nan
    | _, .nan => .nan
    | .num s m e, .num t n f =>
      if m = 0 || n = 0 then g
      else match g with
        | .terms l => .terms (mul s m e t n f :: l)
        | _ => g
    | x, y =>
      match x.mul y with
      | some (.inf s) => (match g with | .inf t => if s == t then g else .nan | _ => .inf s)
      | _ => .nan

/-- The aligned sum of R121: each term cut toward zero to a multiple of 2^(E - low). -/
def alignedSum (low : Nat) (l : List (Int × Int)) : FVal :=
  let lead (p : Int × Int) : Int := p.2 + bitLen p.1.natAbs - 1
  match l with
  | [] => .num false 0 0
  | p :: ps =>
    let top := ps.foldl (fun e q => max e (lead q)) (lead p)
    let u : Int := top - low
    let cut (q : Int × Int) : Int := if u ≤ q.2 then q.1 * 2 ^ (q.2 - u).toNat else q.1.tdiv (2 ^ (u - q.2).toNat)
    let sum := (p :: ps).foldl (fun a q => a + cut q) (0 : Int)
    .num (sum < 0) sum.natAbs u

/-- An exact product. -/
def exactProduct (s : Bool) (m : Nat) (e : Int) (t : Bool) (n : Nat) (f : Int) : Int × Int :=
  (if s == t then ((m * n : Nat) : Int) else -((m * n : Nat) : Int), e + f)

/-- The first s slices of 8 bits of M/2 (R124), and the exponent of M. -/
def slicesOf (s m : Nat) (e : Int) : List Nat × Int :=
  let frac := m * 2 ^ (8 * s) / 2 ^ bitLen m
  ((List.range s).map (fun i => frac / 2 ^ (8 * (s - 1 - i)) % 256), e + bitLen m - 1)

/-- The retained product of sliced mode. -/
def slicedProduct (k : Nat) (s : Bool) (m : Nat) (e : Int) (t : Bool) (n : Nat) (f : Int) : Int × Int :=
  let (d, ea) := slicesOf k m e
  let (c, eb) := slicesOf k n f
  let sum := (List.range k).foldl (fun acc i =>
    (List.range (k - i)).foldl (fun acc j => acc + d.getD i 0 * c.getD j 0 * 2 ^ (8 * (k - 1 - i - j))) acc) 0
  (if s == t then (sum : Int) else -(sum : Int), 2 + ea + eb - 8 * ((k : Int) + 1))

/-- The pairs of a group with an A row. -/
def groupSum (mul : Bool → Nat → Int → Bool → Nat → Int → Int × Int) (row : List FVal) (g : BGroup) : GroupSum :=
  g.vals.foldl (fun acc p => acc.push mul (row.getD p.1 (.num false 0 0)) p.2) (.terms [])

/-- An FP32 group term. -/
def groupTerm (row : List FVal) (g : BGroup) : Nat :=
  match groupSum exactProduct row g with
  | .nan => fFp32.nan
  | .inf s => fFp32.inf s
  | .terms l => (fFp32.mul .rne (fFp32.ofVal .rne (alignedSum 36 l)).bits g.scale).bits

/-- An FP64 group term of sliced mode. -/
def slicedTerm (k : Nat) (row : List FVal) (g : BGroup) : Nat :=
  match groupSum (slicedProduct k) row g with
  | .nan => fFp64.nan
  | .inf s => fFp64.inf s
  | .terms l => (fFp64.ofVal .rne (alignedSum 80 l)).bits

/-! Tiles (R119). -/

def tileKey (t i j : Nat) : Nat := (t * 128 + i) * 256 + j

def Mill.tile32 (m : Mill) (t i j : Nat) : Nat := (sget 0 m.tiles (tileKey t i j)).toNat
def Mill.setTile32 (m : Mill) (t i j v : Nat) : Mill :=
  { m with tiles := sset 0 m.tiles (tileKey t i j) (BitVec.ofNat 32 v) }
def Mill.tile64 (m : Mill) (t i j : Nat) : Nat := m.tile32 t i j + 2 ^ 32 * m.tile32 (t + 1) i j
def Mill.setTile64 (m : Mill) (t i j v : Nat) : Mill := (m.setTile32 t i j (v % 2 ^ 32)).setTile32 (t + 1) i j (v / 2 ^ 32)

/-- One A row against every column (R237). -/
def Mill.row (m : Mill) (md : MmulMode) (t i off slices : Nat) (row : List FVal) : Mill :=
  let inf := MmulMode.info md
  (List.range 256).foldl (fun m' j =>
    let gs := (List.range (inf.k / 32)).map (fun g => m.group inf j off g)
    if md = .f64 then
      m'.setTile64 t i j (gs.foldl (fun c g => (fFp64.add .rne c (slicedTerm slices row g)).bits) (m'.tile64 t i j))
    else m'.setTile32 t i j (gs.foldl (fun c g => (fFp32.add .rne c (groupTerm row g)).bits) (m'.tile32 t i j))) m

/-! Operations in progress (R120). -/

/-- Tiles that an operation reads or writes. -/
def MillOp.tilesOf (o : MillOp) : List Nat :=
  match o with
  | .mldb _ _ _ _ => []
  | .mmul md t _ _ _ _ _ => if md = .f64 then [t, t + 1] else [t]
  | .mclr t => [t]
  | .mout f64 _ t _ _ _ => if f64 then [t, t + 1] else [t]

/-- Slice bytes that an operation uses, first and count. -/
def MillOp.slice (o : MillOp) : Nat × Nat :=
  match o with
  | .mldb p _ off _ => (off, p)
  | .mmul md _ _ _ _ off _ => (off, (MmulMode.info md).record)
  | .mclr _ | .mout _ _ _ _ _ _ => (0, 0)

/-- A queue end, feed or drain, that an operation uses. -/
def MillOp.queueOf (o : MillOp) : Option (Bool × Nat) :=
  match o with
  | .mmul _ _ q _ _ _ _ => some (false, q)
  | .mout _ _ _ q _ _ => some (true, q)
  | .mldb _ _ _ _ | .mclr _ => none

/-- Rows of its tiles that an operation has still to change or to read: the first and the row after the last. -/
def MillOp.rowsOf (o : MillOp) : Nat × Nat :=
  match o with
  | .mldb _ _ _ _ => (0, 0)
  | .mmul _ _ _ row m _ _ => (row, m)
  | .mclr _ => (0, 128)
  | .mout _ _ _ _ row count => (row, row + count)

def MillOp.isOut (o : MillOp) : Bool := match o with | .mout _ _ _ _ _ _ => true | .mldb _ _ _ _ | .mmul _ _ _ _ _ _ _ | .mclr _ => false

/-- Whether a later operation waits for an earlier one over a tile: what changes rows waits only until a `mout` has read those
rows, every other pair goes in order (R120, R234). -/
def MillOp.tileAfter (o p : MillOp) : Bool :=
  let (a, b) := o.rowsOf
  let (c, d) := p.rowsOf
  o.tilesOf.any (fun t => p.tilesOf.contains t) && (o.isOut || !p.isOut || (decide (a < d) && decide (c < b)))

/-- The same over a tile, a slice range or a queue end in common. -/
def MillOp.after (o p : MillOp) : Bool :=
  let (a, n) := o.slice
  let (b, k) := p.slice
  o.tileAfter p ||
  (decide (0 < n) && decide (0 < k) && decide (a < b + k) && decide (b < a + n)) ||
  (o.queueOf.isSome && o.queueOf == p.queueOf)

/-- What an operation does next: nothing yet, or a Mill with what remains of the operation. -/
def Mill.work (m : Mill) (o : MillOp) : Option (Mill × Option MillOp) :=
  match o with
  | .mldb p _ off bs =>
    let put (l : List (Nat × Byte)) (i : Nat) : List (Nat × Byte) :=
      sset 0 l (i / p * sliceBytes + off + i % p) (bs.getD i 0)
    let hit (b : Nat) : Bool := decide (off ≤ b % sliceBytes) && decide (b % sliceBytes < off + p)
    some ({ m with slices := (List.range (256 * p)).foldl put m.slices, bad := m.bad.filter (fun b => !hit b) }, none)
  | .mclr t =>
    some ({ m with tiles := m.tiles.filter (fun e => !(tileKey t 0 0 ≤ e.1 && e.1 < tileKey (t + 1) 0 0)) }, none)
  | .mmul md t q row n off slices =>
    let inf := MmulMode.info md
    let fq := m.feed.toList.getD q []
    if fq.length < inf.rowBytes then none
    else
      let raw := fq.take inf.rowBytes
      let z := inf.rowBytes / inf.k
      let a := (List.range inf.k).map (fun k => inf.a.decode (leNat ((raw.drop (z * k)).take z)))
      let m := { m with feed := Vector.ofFn (fun i : Fin 4 => if i.val = q then fq.drop inf.rowBytes else m.feed[i]) }
      some (m.row md t row off slices a, if row + 1 < n then some (.mmul md t q (row + 1) n off slices) else none)
  | .mout f64 clr t q row count =>
    let dq := m.drain.toList.getD q []
    let z := if f64 then 8 else 4
    if queueBytes < dq.length + 256 * z then none
    else
      let val (j : Nat) : Nat := if f64 then m.tile64 t row j else m.tile32 t row j
      let out := (List.range 256).flatMap (fun j => leBytes z (val j))
      let clear (m : Mill) (j : Nat) : Mill := if f64 then m.setTile64 t row j 0 else m.setTile32 t row j 0
      let m := if clr then (List.range 256).foldl clear m else m
      let m := { m with drain := Vector.ofFn (fun i : Fin 4 => if i.val = q then dq ++ out else m.drain[i]) }
      some (m, if 1 < count then some (.mout f64 clr t q (row + 1) (count - 1)) else none)

/-- An `mmul` reads a slice byte with an error. -/
def Mill.meetsError (m : Mill) (o : MillOp) : Bool :=
  match o with
  | .mmul _ _ _ _ _ _ _ =>
    let (a, n) := o.slice
    m.bad.any (fun b => decide (a ≤ b % sliceBytes) && decide (b % sliceBytes < a + n))
  | .mldb _ _ _ _ | .mclr _ | .mout _ _ _ _ _ _ => false

/-- The first operation that waits for no earlier one and can go on, goes on; whether it met an error. -/
def Mill.advanceOps (m : Mill) (earlier : List (Nat × MillOp)) : List (Nat × MillOp) → Mill × Bool
  | [] => (m, false)
  | p :: rest =>
    if earlier.any (fun q => p.2.after q.2) then m.advanceOps (earlier ++ [p]) rest
    else match m.work p.2 with
      | none => m.advanceOps (earlier ++ [p]) rest
      | some (m', left) => ({ m' with ops := earlier ++ (left.map (fun o => (p.1, o))).toList ++ rest }, m.meetsError p.2)

def execMillOperation (s : State) : Host.Outcome State Fault Refusal :=
  match s.arg with
  | .cluster c =>
    let m := s.mill c.toNat
    let (m, bad) := m.advanceOps [] m.ops
    let s := (s.setMill c.toNat m).enginePoison (BitVec.ofNat 11 (0x400 + 16 * c.toNat)) bad
    .next (if m.ops.isEmpty || s.pend.contains (.millOperation, .cluster c) then s else s.post .millOperation (.cluster c))
  | _ => .next s

end Sys2Proof.Machine
end

