-- ==== Sys2Proof/Machine/Urn.lean ====
section
/-! DEFINITION. Collectives: arming and waiting (R258, R259, R263), and the Urn's start, end and abort (R54, R260-R263,
R371). -/

namespace Sys2Proof.Machine

/-! The block (R258, R259). -/

def cOp (b : List Word) : Nat := bits (b.getD 0 0) 63 60
def cTy (b : List Word) : ETy :=
  match bits (b.getD 0 0) 59 57 with
  | 0 => .bf16 | 1 => .f32 | 2 => .f64 | 3 => .i32 | _ => .i64
def cRed (b : List Word) : Nat := bits (b.getD 0 0) 56 55
def cComp (b : List Word) : Bool := bits (b.getD 0 0) 54 53 == 1
def cRank (b : List Word) : Nat := bits (b.getD 0 0) 39 32
def cRoot (b : List Word) : Nat := bits (b.getD 0 0) 31 24
def cN (b : List Word) : Nat := bits (b.getD 0 0) 15 8 + 1
def cBuf (b : List Word) : Word := b.getD 1 0
def cCount (b : List Word) : Nat := (b.getD 2 0).toNat
def cSignal (b : List Word) : Word := b.getD 4 0
def cTrigger (b : List Word) : Word := b.getD 5 0
def cPot (b : List Word) : Word := b.getD 6 0
def cResid (b : List Word) : Word := b.getD 7 0
/-- Bytes of an element. -/
def cZ (b : List Word) : Nat := 2 * ETy.cells (cTy b)

/-- The rules of the block whose breach is cause 0x1C (R259, check 3). -/
def collOk (b : List Word) : Bool :=
  let w := b.getD 0 0
  decide (cOp b ≤ 3) && decide (bits w 59 57 ≤ 4) && decide (cRed b ≤ 2) && (decide (cOp b < 2) || cRed b == 0) &&
  decide (bits w 54 53 ≤ 1) && bits w 52 40 == 0 && decide (cRank b < cN b) &&
  (if cOp b = 3 then decide (cRoot b < cN b) else cRoot b == 0) && bits w 23 16 == 0 && decide (2 ≤ cN b) && bits w 7 0 == 0 &&
  decide (1 ≤ cCount b) && decide (cCount b ≤ 2 ^ 32) &&
  (!cComp b || (cTy b == .f32 && decide (cOp b < 2) && cRed b == 0)) &&
  decide ((cBuf b).toNat % cZ b = 0) && decide ((b.getD 3 0).toNat % 8 = 0) && decide ((cSignal b).toNat % 8 = 0) &&
  decide ((cPot b).toNat % 64 = 0) && (if cComp b then decide ((cResid b).toNat % 4 = 0) else cResid b == 0)

/-- An entry of the peer table (R259). -/
def peerNode (e : Word) : BitVec 32 := e.extractLsb' 16 32
def peerDie (e : Word) : BitVec 2 := e.extractLsb' 8 2
def peerOk (e : Word) : Bool := bitAt e 63 && bits e 62 48 == 0 && bits e 15 10 == 0 && bits e 7 0 == 0

/-- What the participants must agree on (R259): op, type, reduction, compress, N, n and the peer table. -/
def collParams (b peers : List Word) : List Word :=
  [(b.getD 0 0) &&& 0xFFE000000000FF00, b.getD 2 0] ++ peers

/-! Arming. -/

/-- A record of a failed access (R371). -/
def State.urnRecord (s : State) (c : Coll) (f : XFault) (code : Nat) : State :=
  s.addRecord 1 c.lease c.sub (s.noticeWords (State.header 0x0C f.cause c.lease c.sub 0xFFFFF) f.tval (word code) 0 c.lease)

/-- Whether a collective ended because the participants differ (R259). -/
def Coll.differed (c : Coll) : Bool := match c.state with | .ended st => st == 2 | .armed | .started => false

/-- Parties of this K4 that a collective has not met. -/
def State.unmet (s : State) (c : Coll) : Bool :=
  (List.range c.peers.length).any (fun i => i != cRank c.block && peerNode (c.peers.getD i 0) == s.node &&
    !c.partners.any (fun p => p.1 == i))

def Coll.who (c : Coll) : Who := { lease := c.lease, sub := c.sub, die := c.die }

namespace State

def findColl (s : State) (id : Nat) : Option Coll := s.colls.find? (fun c => c.id == id)
/-- The strand that issued a collective, while it lives: its pin windows count (R72). -/
def collOwner (s : State) (c : Coll) : Option Ctx :=
  s.ctxs.find? (fun k => k.active && k.id == c.ctx && k.handles.any (fun h => h.2 == c.id))

/-- A range of the buffer or the residual, under the issuing sublease's translation (R371). -/
def collRange (s : State) (c : Coll) (va : Word) (n : Nat) : ARes (List (Nat × Nat) × State) :=
  s.rangeCheckBy c.who ((s.collOwner c).getD ctx0) .engine .store va n

/-- The buffer and, under compression, the residuals. -/
def collRanges (s : State) (c : Coll) : ARes (List (Nat × Nat) × List (Nat × Nat) × State) := do
  let (ps, s) ← s.collRange c (cBuf c.block) (cCount c.block * cZ c.block)
  let (rs, s) ← if cComp c.block then s.collRange c (cResid c.block) (cCount c.block * 4) else .ok ([], s)
  .ok (ps, rs, s)

/-- A line that a unit other than the collectives of the same context has: none of those waits for another (R333). -/
def ownedByOther (s : State) (c : Coll) (line : Nat) (write : Bool) : Bool :=
  ({ s with colls := s.colls.filter (fun x => x.ctx != c.ctx) } : State).ownedLine line write

/-- A conflicting command of the core, older and not retired, stands before the collective (R45), or an older access of its
strand (R47). -/
def collBlocked (s : State) (c : Coll) : Bool :=
  let core := (c.ctx.extractLsb' 2 8).toNat
  s.opBefore c.id core c.lines [] || s.streamBefore c.id core c.lines [] ||
  ({ s with colls := s.colls.filter (fun x => x.ctx != c.ctx) } : State).collBefore c.id core c.lines

def modColl (s : State) (id : Nat) (f : Coll → Coll) : State :=
  { s with colls := updateWhere (fun c => c.id == id) f s.colls }

/-- What a participant is known to have sent: the latest word counts. -/
def deliver (s : State) (p : CollPeer) : State :=
  { s with peers := s.peers.filter (fun q => !(q.node == p.node && q.die == p.die && q.index == p.index)) ++ [p] }

/-- A collective tells its partners on this K4 its parameters and what it contributes. -/
def tellPartners (s : State) (c : Coll) (data : List Word) : State :=
  c.partners.foldl (fun s p => s.deliver
    { node := s.node, die := c.die, index := p.2, params := collParams c.block c.peers, data := data }) s

/-- The collective on another die of this K4 that a new one meets for one rank: the oldest that names this die and has no
partner for it, also one that ended because they differ (R259, log 22). -/
def partnerFor (s : State) (die : BitVec 2) (rank : Nat) (e : Word) : Option Nat :=
  let fits (c : Coll) : Bool :=
    c.die == peerDie e && c.peers.any (fun p => peerNode p == s.node && peerDie p == die) &&
    !c.partners.any (fun p => p.1 == rank) && (c.differed || (match c.state with | .ended _ => false | .armed | .started => true))
  (s.colls.find? fits).map Coll.id

/-- Pairs a new collective with those that it meets on this K4. -/
def pairUpColls (s : State) (c : Coll) : State :=
  let me := cRank c.block
  let step (s : State) (p : Nat × Word) : State :=
    if p.1 = me || peerNode p.2 != s.node then s
    else match s.partnerFor c.die me p.2 with
      | none => s
      | some id => (s.modColl id (fun x => { x with partners := x.partners ++ [(me, c.id)] })).modColl c.id
          (fun x => { x with partners := x.partners ++ [(p.1, id)] })
  let s := ((List.range c.peers.length).zip c.peers).foldl step s
  match s.findColl c.id with
  | none => s
  | some c =>
    let s := s.tellPartners c []
    c.partners.foldl (fun s p =>
      match s.findColl p.2 with
      | none => s
      -- What a collective that differed has sent agrees with nothing.
      | some o => s.deliver { node := s.node, die := o.die, index := c.id, params := if o.differed then [] else collParams o.block o.peers
                              data := (match o.state with | .armed => [] | _ => o.start) }) s

end State

/-- The address checks of an armed collective (R259, check 7), with the lines of its buffer and residuals. -/
def collAddrs (s : State) (b : List Word) : ARes (List Nat × State) := do
  let w := s.ctx.who
  let (ps, s) ← s.rangeCheck .engine .store (cBuf b) (cCount b * cZ b)
  let s ← if cSignal b = 0 then .ok s else (s.rangeCheck .engine .load (cSignal b) 8).map Prod.snd
  let (rs, s) ← if cComp b then s.rangeCheck .engine .store (cResid b) (cCount b * 4) else .ok ([], s)
  let s ← if cPot b = 0 then .ok s else (s.potCheck w (some .system) (cPot b)).map Prod.snd
  .ok (State.pieceLines (ps ++ rs), s)

/-- `coll` (R258, R259). -/
def execColl (d a : XReg) (s : State) := settle (do
  command [d, a] s
  match findBelow 16 (fun h => !s.ctx.handles.any (fun p => p.1 == h)) with
  | none => waits s
  | some h =>
    let va := s.getX a
    check (decide (va.toNat % 64 = 0)) s 0x04 va
    let (b, s) ← readBlock s va 8
    check (collOk b) s 0x1C va
    let (peers, s) ← readBlock s (b.getD 3 0) (cN b)
    let mine := peers.getD (cRank b) 0
    check (peers.all peerOk && peerNode mine == s.node && peerDie mine == s.ctx.die) s 0x1C va
    let queues := (s.sub? s.ctx.lease s.ctx.sub).any (fun b => b.vqueues.toList.any (· != 0))
    match (List.range peers.length).find? (fun i => peerNode (peers.getD i 0) != s.node) with
    | some i => check queues s 0x0E (b.getD 3 0 + word (8 * i))
    | none => .ok ()
    let (lines, s) ← scalarAcc (collAddrs s b)
    let (id, s) := s.fresh
    let c : Coll := { id := id, die := s.ctx.die, ctx := s.ctx.id, lease := s.ctx.lease, sub := s.ctx.sub, handle := h
                      block := b, peers := peers, share := s.ctx.urnshare, partners := [], lines := lines, state := .armed, start := []
                      residual := [], owns := [] }
    let s := ({ s with colls := s.colls ++ [c] } : State).pairUpColls c
    let s := s.post .collectiveStart (.op id)
    let s := { s with ctx := { s.ctx with handles := s.ctx.handles ++ [(h, id)] } }
    .ok ((s.setX d (word h)).advance 4))

/-- A collective that nobody waits for any more is forgotten, but for one that differed and that a party of this K4 has still to
meet (R259). -/
def State.forgetColl (s : State) (c : Coll) : State :=
  if c.differed && s.unmet c then s
  else { s with colls := s.colls.filter (fun x => x.id != c.id), peers := s.peers.filter (fun p => p.index != c.id) }

/-- `collwait` (R263): an acquire at system scope. -/
def execCollwait (d a : XReg) (s : State) := settle (do
  command [d, a] s
  let h := (s.getX a).toNat
  match lookupN h s.ctx.handles with
  | none => raise s 0x02 (s.getX a)
  | some id =>
    match s.findColl id, (s.findColl id).map Coll.state with
    | some c, some (.ended st) =>
      let s := s.forgetColl c
      let s := { s with ctx := { s.ctx with handles := s.ctx.handles.filter (fun p => p.1 != h) } }
      .ok (((s.setX d (word st)).advance 4).acquire (some .system))
    | _, _ => waits s)

/-! What the Urn does. -/

def State.argColl (s : State) : Option Coll :=
  match s.arg with
  | .op id => s.findColl id
  | _ => none

/-- A collective ends with a status: its lines are released; one that nobody can wait for is forgotten. -/
def State.endColl (s : State) (c : Coll) (status : Nat) : State :=
  let s := s.modColl c.id (fun x => { x with state := .ended status, owns := [], start := [], residual := [] })
  if s.ctxs.any (fun k => k.active && k.phase != .draining && k.id == c.ctx && k.handles.any (fun h => h.2 == c.id)) then s
  else match s.findColl c.id with
    | none => s
    | some c => s.forgetColl c

/-- Elements of z bytes at pieces: values, and whether each has a marked word. -/
def State.readElems (s : State) (ps : List (Nat × Nat)) (z n : Nat) : List (Nat × Bool) :=
  let bs := s.readPieces ps
  let marks := s.markBytes ps
  (List.range n).map (fun i => (leNat ((bs.drop (z * i)).take z), ((marks.drop (z * i)).take z).any id))

/-- What the participant known for rank i has sent. -/
def State.sent (s : State) (c : Coll) (i : Nat) : Option CollPeer :=
  let e := c.peers.getD i 0
  s.peers.find? (fun p => p.index == c.id && p.node == peerNode e && p.die == peerDie e)

/-- Ranks other than the collective's own. -/
def Coll.others (c : Coll) : List Nat := (List.range (cN c.block)).filter (fun i => i != cRank c.block)

/-! Results (R261). -/

/-- One combining step. -/
def collCombine (t : ETy) (red a b : Nat) : Nat :=
  match ETy.fmt? t with
  | some f =>
    if red = 0 then (f.add .rne a b).bits
    else if f.isNan a || f.isNan b then f.nan else f.minmax (red == 2) a b
  | none =>
    let w := ETy.width t
    if red = 0 then (a + b) % 2 ^ w
    else if decide (sextN w a < sextN w b) == (red == 1) then a else b

/-- Element e of the reduction of chunk c, from each participant's contribution. -/
def reduced (b : List Word) (xs : Nat → Nat → Nat) (c e : Nat) : Nat :=
  let n := cN b
  (List.range (n - 1)).foldl (fun v m => collCombine (cTy b) (cRed b) v (xs ((c + m + 2) % n) e)) (xs ((c + 1) % n) e)

/-- Element e of the result; none where the buffer keeps its value. -/
def collResult (b : List Word) (xs : Nat → Nat → Nat) (e : Nat) : Option Nat :=
  let c := e / ceilDiv (cCount b) (cN b)
  match cOp b with
  | 0 => some (reduced b xs c e)
  | 1 => if c = cRank b then some (reduced b xs c e) else none
  | 2 => some (xs c e)
  | _ => some (xs (cRoot b) e)

/-- Ranks whose contributions a result needs. -/
def Coll.needs (c : Coll) : List Nat := if cOp c.block = 3 then c.others.filter (fun i => i = cRoot c.block) else c.others

/-- Element e of what rank i contributes, of a collective that has started. -/
def State.given (s : State) (c : Coll) (i e : Nat) : Nat :=
  ((if i = cRank c.block then c.start else ((s.sent c i).map CollPeer.data).getD []).getD e 0).toNat

/-- Every contribution that the result needs has arrived. -/
def State.arrived (s : State) (c : Coll) : Bool :=
  c.needs.all (fun i => decide (cCount c.block ≤ (((s.sent c i).map CollPeer.data).getD []).length))

/-- The results of the elements that `pick` names go to the buffer; the others keep value and mark. -/
def State.writeResult (s : State) (c : Coll) (ps : List (Nat × Nat)) (pick : Nat → Bool) : State :=
  let z := cZ c.block
  let old := s.readElems ps z (cCount c.block)
  let new (e : Nat) : Option Nat := if pick e then collResult c.block (s.given c) e else none
  let out := (List.range (cCount c.block)).flatMap (fun e => leBytes z ((new e).getD (old.getD e (0, false)).1))
  let keep := (List.range (cCount c.block)).flatMap (fun e => List.replicate z ((new e).isNone && (old.getD e (0, false)).2))
  (s.writePieces none ps out).addMarks ps keep

/-- The updated residuals of the elements that `pick` names are written; the others keep value and mark. -/
def State.writeResidual (s : State) (c : Coll) (ps : List (Nat × Nat)) (pick : Nat → Bool) : State :=
  let old := s.readElems ps 4 (cCount c.block)
  let out := (List.range (cCount c.block)).flatMap (fun e =>
    leBytes 4 (if pick e then (c.residual.getD e 0).toNat else (old.getD e (0, false)).1))
  let keep := (List.range (cCount c.block)).flatMap (fun e => List.replicate 4 (!pick e && (old.getD e (0, false)).2))
  (s.writePieces none ps out).addMarks ps keep

/-- What an abort leaves of a collective that has started (R263): each element of the buffer its value at the start or its
result, each residual its old or its updated value; which of the two the spec leaves open (log 8). -/
def State.abortData (s : State) (c : Coll) : State :=
  match c.state with
  | .started =>
    let n := cCount c.block
    let at' := s.freeCtr
    let pick (k e : Nat) : Bool := (Config.freeValue (at' + k * n + e)).getLsbD 0
    let known := s.arrived c
    let s := { s with freeCtr := at' + 2 * n }
    let s := match s.collRange c (cBuf c.block) (n * cZ c.block) with
      | .error _ => s
      | .ok (ps, s) => s.writeResult c ps (fun e => known && pick 0 e)
    if cComp c.block then
      match s.collRange c (cResid c.block) (n * 4) with
      | .error _ => s
      | .ok (rs, s) => s.writeResidual c rs (pick 1)
    else s
  | _ => s

/-- A collective that does not complete: its pot is set to peer-abort where it can be reached. The state answered otherwise
waits for a unit. -/
def State.failColl (s : State) (c : Coll) (status : Nat) : Except State State :=
  if cPot c.block = 0 then .ok ((s.abortData c).endColl c status)
  else match s.potCheck c.who (some .system) (cPot c.block) with
    | .error (.fault s f) => .ok (((s.urnRecord c f 10).abortData c).endColl c status)
    | .error (.wait s) => .error s
    | .ok (pa, s) =>
      (s.potReach c.who pa (s.ownedByOther c (pa / 128) true)).map (fun s => ((s.abortData c).potAbortAt pa).endColl c status)

/-- The other participants on this K4 are aborted too. -/
def State.abortPartners (s : State) (c : Coll) : State :=
  c.partners.foldl (fun s p => s.post .collectiveAbort (.op p.2)) s

/-- An abort (R263): a reset, a peer's abort or a failed access. -/
def execCollectiveAbort (s : State) : Host.Outcome State Fault Refusal :=
  match s.argColl with
  | none => .next s
  | some c =>
    match c.state with
    | .ended _ => .next s
    | .armed | .started =>
      match s.failColl c 1 with
      | .ok s => .next (s.abortPartners c)
      | .error s => .next (s.post .collectiveAbort (.op c.id))

/-- An access of the Urn that fails a check aborts the collective on every participant (R371); what cannot be done yet is
done `again`. -/
def State.urnFail (s : State) (c : Coll) (f : XFault) (code : Nat) (again : State → State) : State :=
  match s.failColl c 1 with
  | .ok s => (s.urnRecord c f code).abortPartners c
  | .error s => again s

/-- An element as it leaves its owner under compression (R262), and its updated residual: FP32 bits. -/
def compressElem (x r : Nat) : Nat × Nat :=
  match (fFp32.decode x).add .rne (fFp32.decode r) with
  | none => (fFp32.nan, fFp32.nan)
  | some sum =>
    let e := fBf16.decode (fBf16.ofVal .rne sum).bits
    ((fFp32.ofVal .rne e).bits, (fFp32.fin .rne (sum.add .rne e.neg)).bits)

/-- The start (R260), once every participant has armed and they agree: the trigger is met, the lines are owned and
the buffer is read. Each element or residual with a marked word is consumed as poison (R317). -/
def State.startColl (s : State) (c : Coll) : State :=
  let again (s : State) : State := s.post .collectiveStart (.op c.id)
  let b := c.block
  let z := cZ b
  let n := cCount b
  if s.collBlocked c then again s
  else match s.collRanges c with
  | .error (.fault s f) => s.urnFail c f 9 again
  | .error (.wait s) => again s
  | .ok (ps, rs, s) =>
    let lines := State.pieceLines (ps ++ rs)
    if lines.any (fun l => s.ownedByOther c l true) then again s
    else match s.detectLines c.who lines with
      | .error s => again s
      | .ok s =>
        let s := lines.foldl (fun s l => s.touch c.who .l2 l true false .no) s
        let t := cTy b
        let es := s.readElems ps z n
        let res := s.readElems rs 4 n
        let bad := (es ++ res).countP Prod.snd
        let s := if (s.collOwner c).isNone then s else s.updCtx c.ctx (fun k => (List.range bad).foldl (fun k _ => k.addCki 2) k)
        let xs := es.map (fun e => if e.2 then ETy.canon t else e.1)
        let old := res.map (fun e => if e.2 then fFp32.nan else e.1)
        let enc := (xs.zip old).map (fun p => compressElem p.1 p.2)
        let mine := (if cComp b then enc.map Prod.fst else xs).map word
        let c := { c with state := .started, start := mine, residual := enc.map (fun p => word p.2), owns := lines }
        let s := s.modColl c.id (fun _ => c)
        (s.tellPartners c mine).post .collectiveEnd (.op c.id)

/-- `COLLECTIVE_START`, with the mismatch of R259 and the signal word of R260. -/
def execCollectiveStart (s : State) : Host.Outcome State Fault Refusal :=
  match s.argColl with
  | none => .next s
  | some c =>
    let again (s : State) : State := s.post .collectiveStart (.op c.id)
    match c.state with
    | .started | .ended _ => .next s
    | .armed =>
      let met := c.others.map (s.sent c)
      let mine := collParams c.block c.peers
      if s.asleep c.die then .next (again (s.callWake c.die))
      else if s.cpFrozen c.die then .next (again s)
      else if met.any (fun p => p.any (fun q => q.params != mine)) then
        .next (match s.failColl c 2 with | .ok s => s | .error s => again s)
      else if met.any Option.isNone then .next (again s)
      else if cSignal c.block = 0 then .next (s.startColl c)
      else match s.checked c.who ((s.collOwner c).getD ctx0) .engine .load .strand 8 (cSignal c.block) 8 with
        | .error (.fault s f) => .next (s.urnFail c f 8 again)
        | .error (.wait s) => .next (again s)
        | .ok (e, s) =>
          let pa := e.phys (cSignal c.block)
          if s.ownedByOther c (pa / 128) false then .next (again s)
          else match s.detectLine c.who (pa / 128) with
            | .error s => .next (again s)
            | .ok s =>
              let s := s.touch c.who .l2 (pa / 128) false false .no
              let v := if s.poisonedAt pa 8 then 0 else word (s.mem.num pa 8)
              -- The read that meets the trigger is an acquire at system scope (R260, R280).
              if v.toNat < (cTrigger c.block).toNat then .next (again s) else .next ((s.fabricDrop c.die).startColl c)

/-- The pot of a completed collective receives N z bytes, as a release at system scope (R263, R283), or nothing where it cannot
be reached. -/
def State.payColl (s : State) (c : Coll) : Except State State :=
  if cPot c.block = 0 then .ok s
  else match s.potCheck c.who (some .system) (cPot c.block) with
    | .error (.fault s f) => .ok (s.urnRecord c f 10)
    | .error (.wait s) => .error s
    | .ok (pa, s) =>
      (s.potReach c.who pa (s.ownedByOther c (pa / 128) true)).map (fun s =>
        (s.fabricClean c.die).potAddAt c.ctx pa (cCount c.block * cZ c.block))

/-- `COLLECTIVE_END`: the results go to the buffer, the residuals to theirs. -/
def execCollectiveEnd (s : State) : Host.Outcome State Fault Refusal :=
  match s.argColl with
  | none => .next s
  | some c =>
    let again (s : State) : State := s.post .collectiveEnd (.op c.id)
    match c.state with
    | .armed | .ended _ => .next s
    | .started =>
      let b := c.block
      let n := cCount b
      if s.cpFrozen c.die || !s.arrived c then .next (again s)
      else match s.collRanges c with
        | .error (.fault s f) => .next (s.urnFail c f 9 again)
        | .error (.wait s) => .next (again s)
        | .ok (ps, rs, s) =>
          match s.detectLines c.who (State.pieceLines (ps ++ rs)) with
          | .error s => .next (again s)
          | .ok s =>
            let t := s.writeResult c ps (fun _ => true)
            let t := if cComp b then t.writeResidual c rs (fun _ => true) else t
            match (t.countDie c.die c.lease c.sub 0x22 (n * cZ b)).payColl c with
            | .error u => .next (again { s with pend := u.pend })
            | .ok s => .next (s.endColl c 0)

end Sys2Proof.Machine
end

