-- ==== Sys2Proof/Machine/Errors.lean ====
section
/-! DEFINITION. Errors and what follows them: uncorrectable errors (R316, R319, R321-R323), containment (R323, R338),
page retirement (R324), quarantine (R325), scrubbing (R322, R323), faults of the command processors and of the Reeve
(R326, R327), and injection (R329). -/

namespace Sys2Proof.Machine

/-! Stage 2 entries and frames (R18, R324). -/

/-- A stage 2 leaf found in a lease's tables of a die: where its entry stands, the lease address it maps. -/
structure Found where
  lease : Byte
  die : BitVec 2
  entry : Nat
  addr : Nat
  leaf : Leaf
deriving DecidableEq, Repr

namespace State

/-- Nonzero 8-byte words of listed memory from a base on: number and value. -/
def wordsOf (base : Nat) : Memory → List (Nat × Nat)
  | [] => []
  | (k, v) :: l =>
    let i := (k - base) / 8
    let x := v.toNat * 2 ^ (8 * ((k - base) % 8))
    match wordsOf base l with
    | [] => [(i, x)]
    | (j, y) :: r => if i = j then (j, x + y) :: r else (i, x) :: (j, y) :: r

/-- The first n entries of a table page that are not all zeros, which are invalid; so is a poisoned one (R317). -/
def tableEntries (s : State) (table n : Nat) : List (Nat × Word) :=
  let page := (s.mem.dropWhile (fun c => decide (c.1 < table))).takeWhile (fun c => decide (c.1 < table + 8 * n))
  (wordsOf table page).map (fun p => (p.1, if s.poisonedAt (table + 8 * p.1) 8 then 0 else word p.2))

/-- Leaves below a table page that map some of [pa, pa+len); `n` levels are left. -/
def leavesIn (s : State) (l : Byte) (die : BitVec 2) (pa len : Nat) : Nat → Nat → Nat → List Found
  | 0, _, _ => []
  | n + 1, table, la =>
    let level := 3 - n
    let size := if level = 1 then 2 ^ 42 else if level = 2 then 2 ^ 29 else 2 ^ 16
    (s.tableEntries table (if level = 1 then 1024 else 8192)).flatMap (fun (i, e) =>
      match parseEntry true level e with
      | .bad => []
      | .ptr t => leavesIn s l die pa len n t (la + i * size)
      | .leaf x =>
        if leaf2Ok die x && decide (x.addr < pa + len) && decide (pa < x.addr + 2 ^ x.size) then
          [{ lease := l, die := die, entry := table + 8 * i, addr := la + i * size, leaf := x }]
        else [])

/-- Device physical ranges that a table page, the tables below it and their leaves take. -/
def rangesBelow (s : State) : Nat → Nat → List (Nat × Nat)
  | 0, _ => []
  | n + 1, table =>
    let level := 3 - n
    (table, 65536) :: (s.tableEntries table (if level = 1 then 1024 else 8192)).flatMap (fun p =>
      match parseEntry true level p.2 with
      | .bad => []
      | .ptr t => rangesBelow s n t
      | .leaf x => [(x.addr, 2 ^ x.size)])

def roots (s : State) : List (Byte × BitVec 2 × Nat) :=
  s.reeve.leases.flatMap (fun l => (List.finRange 4).map (fun d =>
    (l.num, BitVec.ofNat 2 d.val, (l.roots[d.val]'d.isLt).toNat)))

/-- Every stage 2 leaf that maps some of [pa, pa+len). -/
def leavesOver (s : State) (pa len : Nat) : List Found := s.roots.flatMap (fun r => s.leavesIn r.1 r.2.1 pa len 3 r.2.2 0)

/-- Every stage 2 leaf that maps a device physical address. -/
def leavesOf (s : State) (pa : Nat) : List Found := s.leavesOver pa 1

/-- Lease address of a lease at a device physical address, or 0. -/
def leaseAddr (s : State) (l : Byte) (pa : Nat) : Word :=
  match (s.leavesOf pa).find? (fun f => f.lease == l) with
  | none => 0
  | some f => word (f.addr + (pa - f.leaf.addr))

/-- Zone of an offset within a die: general, prime and backed, or unbacked (R18). -/
def zoneOf (pa : Nat) : Nat :=
  let o := dieOffset pa
  if o < primeBase then 0 else if o < primeEnd then 1 else 2

/-- What the tables of the leases take. -/
def takenRanges (s : State) : List (Nat × Nat) := s.roots.flatMap (fun r => s.rangesBelow 3 r.2.2)

/-- A frame of 64 KiB is free: no lease's tables take it, and it is not retired and not handed out. -/
def frameFree (s : State) (taken : List (Nat × Nat)) (f : Nat) : Bool :=
  !s.reeve.retired.contains f && !s.reeve.used.contains f &&
  !taken.any (fun p => decide (f < p.1 + p.2) && decide (p.1 < f + 65536))

/-- A free frame of a die and zone, if there is one. Which one the spec leaves open (R324, log 8). -/
def takeFrame (s : State) (die zone : Nat) : Option Nat × State :=
  let unused := s.frameFree s.takenRanges
  let (v, s) := s.free
  let n := 2 ^ 21
  ((List.range n).findSome? (fun i =>
    let f := die * 2 ^ 37 + (v.toNat + i) % n * 65536
    if zoneOf f = zone && unused f then some f else none), s)

/-! Page retirement (R324). -/

/-- The Reeve as a party of the caches of a die (R34). -/
def reeveWho (die : Nat) : Who := { lease := 0, sub := 0, die := BitVec.ofNat 2 die, via := .reeve }

/-- Whether a line lies in a frame. -/
def inFrame (f line : Nat) : Bool := line * 128 / 65536 == f / 65536

/-- The copy of a frame reads every line once: an error of the L2 there comes first, one in DRAM is met where no cache holds
the line (R322, R323). -/
def readFrame (s : State) (f : Nat) : Except State State := do
  let d := BitVec.ofNat 2 (dieOfPa f)
  let bad := (s.die d).l2.flatMap (fun y => y.bad.map (fun b => y.superblock * 4 + b.1))
  let s ← s.detectLines (reeveWho (dieOfPa f)) (bad.filter (inFrame f))
  let hurt := (s.dramErr ++ s.latent).map Prod.fst
  .ok ((hurt.filter (inFrame f)).foldl (fun s l => s.dramRead l) s)

/-- Stash mappings with a line of the frame are written back and return to unfilled (R43, R174). -/
def unfillFrame (s : State) (f : Nat) : State :=
  let hit (m : StashMap) : Bool := m.lines.any (fun l => inFrame f (m.physLine l))
  s.cores.foldl (fun s p =>
    let w : Who := { reeveWho (p.1 / 64) with via := .core p.1 }
    (s.unfillMaps w p.1 false hit).unfillMaps w p.1 true hit) s

/-- Nothing of a frame is cached any more, and nothing is left to be met in it. -/
def forgetFrame (s : State) (f : Nat) : State :=
  let core (p : Nat × Core) : Nat × Core := (p.1, { p.2 with
    l1 := p.2.l1.filter (fun q => !inFrame f q.line)
    gathered := p.2.gathered.filter (fun g => !g.lines.any (fun a => inFrame f (a / 128))) })
  let die (x : Die) : Die := { x with l2 := x.l2.filter (fun y => !inFrame f (y.superblock * 4)) }
  let kept (l : List (Nat × BitVec 16)) : List (Nat × BitVec 16) := l.filter (fun e => !inFrame f e.1)
  { s with cores := s.cores.map core, dies := s.dies.map die, dramErr := kept s.dramErr, latent := kept s.latent }

/-- What has been translated to a frame and has not yet been performed goes to the new one: engine commands before their issue
points, armed collectives, watched lines, and accesses of the fabric that wait (R337). -/
def renameFrame (s : State) (old new : Nat) : State :=
  let line (l : Nat) : Nat := if inFrame old l then new / 128 + l % 512 else l
  let piece (p : Nat × Nat) : Nat × Nat := if p.1 / 65536 = old / 65536 then (new + p.1 % 65536, p.2) else p
  let addr (a : BitVec 48) : BitVec 48 := BitVec.ofNat 48 (piece (a.toNat, 0)).1
  let msg (p : Instr × EventArg) : Instr × EventArg :=
    match p.2 with
    | .fabric (.rmaWrite a data) => (p.1, .fabric (.rmaWrite (addr a) data))
    | .fabric (.rmaRead a len) => (p.1, .fabric (.rmaRead (addr a) len))
    | .fabric (.atomic op a v) => (p.1, .fabric (.atomic op (addr a) v))
    | _ => p
  let op (o : EngineOp) : EngineOp :=
    { o with dst := o.dst.map piece, src := o.src.map piece, owns := o.owns.map line, holds := o.holds.map line }
  let ctx (k : Ctx) : Ctx := { k with wait := k.wait.map (fun w => { w with line := line w.line }) }
  { s.mapCtxs (fun k => k.wait.isSome) ctx with
    ops := s.ops.map op, colls := s.colls.map (fun c => { c with lines := c.lines.map line }), pend := s.pend.map msg }

/-- The words of a retired line that were not destroyed are unmarked where the page now stands (R323, step 3). -/
def healRetired (s : State) (old new : Nat) : State :=
  let free := (s.reeve.retiring.filter (fun r => inFrame old r.line)).flatMap (fun r =>
    ((List.range 16).filter (fun i => r.unhurt.getLsbD i)).map (fun i => (new / 128 + r.line % 512) * 16 + i))
  { s with
    poison := s.poison.filter (fun a => !free.contains a)
    reeve := { s.reeve with retiring := s.reeve.retiring.filter (fun r => !inFrame old r.line) } }

/-- The Reeve stores bytes as an agent of the L2; it waits for units and errors as any write does. -/
def reeveStore (s : State) (pa : Nat) (bs : List Byte) : Except State State := do
  let w := reeveWho (dieOfPa pa)
  let s ← foldE (fun (s : State) l =>
    if s.ownedLine l true then .error s
    else (s.detectLine w l).map (fun s => s.touch w .l2 l true (decide (pa ≤ l * 128) && decide (l * 128 + 128 ≤ pa + bs.length)) .no))
    s (linesOf pa bs.length)
  .ok (s.putBytes none pa bs)

/-- A leaf now maps a frame to another one: an entry of 64 KiB is rewritten; one of 512 MiB becomes a table. -/
def rewriteLeaf (s : State) (f : Found) (old new : Nat) : Except State State :=
  let e := s.mem.num f.entry 8
  let leafAt (a : Nat) : Nat := e / 2 ^ 52 * 2 ^ 52 + a + e % 2 ^ 16
  if f.leaf.size = 16 then s.reeveStore f.entry (leBytes 8 (leafAt new))
  else
    match s.takeFrame (dieOfPa f.entry) 0 with
    | (none, s) => .error s
    | (some t, s) => do
      let page := (List.range 8192).flatMap (fun i =>
        let a := f.leaf.addr + i * 65536
        leBytes 8 (leafAt (if a = old then new else a)))
      let s ← ({ s with reeve := { s.reeve with used := s.reeve.used ++ [t] } } : State).reeveStore t page
      s.reeveStore f.entry (leBytes 8 (0xC000000000000000 + t))

/-- Whether a unit has a line of a frame; the retirement that the line itself waits for does not count. -/
def frameBusy (s : State) (f : Nat) : Bool :=
  let s := { s with reeve := { s.reeve with retiring := [] } }
  (linesOf f 65536).any (fun l => s.ownedLine l true)

/-- The page at a frame is copied to a new frame, with its marks; its leaves map the new one, and the header names the owner of
a destroyed line's way-group (R338), else the first lease that maps the page. It waits for a unit that has a line of either
frame, for a table's frame, for the containment of another error. -/
def replaceFrame (s : State) (old new : Nat) (found : List Found) : Except State State :=
  if s.frameBusy old || s.frameBusy new then .error s
  else do
    let owner := (s.reeve.retiring.find? (fun r => inFrame old r.line)).map (fun r => (r.lease, r.sub))
    let s ← s.readFrame old
    let s := (((s.unfillFrame old).forgetFrame old).moveBytes [(old, 65536)] [(new, 65536)]).renameFrame old new
    let s ← foldE (fun (s : State) f => s.rewriteLeaf f old new) s found
    let covers (e : Tlb) : Bool := decide (e.pa ≤ old) && decide (old < e.pa + 2 ^ e.size)
    let s := found.foldl (fun s f => s.dropTlb f.lease none covers) s
    let s := (linesOf new 65536).foldl (fun s l => s.l2Touch (BitVec.ofNat 2 (dieOfPa new)) (some 3) l true true) s
    let s := s.healRetired old new
    let (l, b) : Byte × Byte := owner.getD ((found.head?.map Found.lease).getD 0, if found.isEmpty then 0 else 0xFF)
    let hd := header 3 0 l b 0xFFFFF
    let (s, seq) := s.addBox hd (word old)
    .ok (if found.isEmpty && owner.isNone then s else s.addRecord 2 l 0xFF (s.noticeWords hd (word new) (word old) seq l))

/-- Retires the page at a frame: a free frame of its die and zone takes its place; without one it waits. -/
def retirePage (s : State) (old : Nat) : Except State State :=
  if s.reeve.retired.contains old || !isDram old then .ok s
  else
    match ({ s with reeve := { s.reeve with retired := s.reeve.retired ++ [old] } } : State).takeFrame (dieOfPa old) (zoneOf old) with
    | (none, t) => .error t
    | (some new, t) => t.replaceFrame old new (s.leavesOf old)

/-- The same as one attempt: what waits has no effect but the containment it asks for, and is tried again. -/
def tryRetire (s : State) (page : Nat) : State :=
  match s.retirePage page with
  | .ok s => s
  | .error s' => (s.undone s').post .pageRetire (.addr (BitVec.ofNat 48 page))

end State

/-- `PAGE_RETIRE`: the Reeve retires the page; without a free frame it waits. -/
def execPageRetire (s : State) : Host.Outcome State Fault Refusal :=
  match s.arg with
  | .addr a =>
    if !isDram a.toNat then .fault (.noDram a.toNat)
    else
      .next (s.tryRetire (a.toNat / 65536 * 65536))
  | _ => .next s

/-! Containment (R323). -/

namespace State

/-- A saved context is discarded: its collectives abort, and its nest and its Mill lose it (R323, R331, R347). -/
def discardSaved (s : State) (k : Ctx) : State :=
  let s := s.abortColls (fun c => c.ctx == k.id && k.handles.any (fun h => h.2 == c.id))
  let s := (s.freeCtx k).releaseMill k
  (if k.isMiller then s else s.modNest k.nest (fun n => { n with live := n.live - 1 })).finishNest k.nest

/-- Every context of a sublease is terminated; saved ones are discarded. -/
def endSub (s : State) (l b : Byte) (cause : Nat) (value : Word) : State :=
  (s.ctxs.filter (fun k => k.active && k.phase != .draining && k.lease == l && k.sub == b)).foldl (fun s k =>
    if k.present then s.terminate k cause false value else (s.endNotice k cause false value).discardSaved k) s

/-- The Crier stops placing a sublease's nests, which leave the pools (R323, R347). -/
def dropNests (s : State) (l b : Byte) : State :=
  (s.nests.filter (fun n => n.inPool && n.lease == l && n.sub == b)).foldl (fun s n =>
    (s.modNest n.id (fun x => { x with inPool := false, failed := true })).finishNest n.id) s

/-- A line leaves its way. -/
def dropLine (s : State) (d : BitVec 2) (y : L2Way) (i : Nat) : State :=
  let keep : BitVec 4 := ~~~(1 <<< i)
  let fix (z : L2Way) : L2Way := { z with
    valid := z.valid &&& keep, dirty := z.dirty &&& keep, bad := z.bad.filter (fun b => b.1 != i) }
  s.modDie d (fun x => { x with l2 := (updateWhere (fun z => z == y) fix x.l2).filter (fun z => z.valid != 0) })

/-- A destroyed line's page is to be retired for the owner of its way-group: until then all its words read as poisoned, and writes of
it wait (R323, steps 3 and 4). -/
def startRetiring (s : State) (line : Nat) (words : BitVec 16) (l b : Byte) : State :=
  let unhurt : BitVec 16 := BitVec.ofFnLE (fun i : Fin 16 => !words.getLsbD i.val && !s.poison.contains (line * 16 + i.val))
  let r : Retiring := { line := line, lease := l, sub := b, unhurt := unhurt }
  ({ s with reeve := { s.reeve with retiring := s.reeve.retiring ++ [r] } } : State).poisonLine line 0xFFFF

/-- One way of one slice is emptied and never filled again (R325); a destroyed line met at its write-back keeps its
marks, and its page is retired. -/
def quarantine (s : State) (d : BitVec 2) (slice way : Nat) (l b : Byte) : State :=
  let ys := (s.die d).l2.filter (fun y => y.slice == slice && y.way == way)
  let s := ys.foldl (fun s y =>
    let hurt := y.bad.filter (fun x => y.dirty.getLsbD x.1)
    let s := s.l2WriteBack d y
    hurt.foldl (fun s x =>
      let line := y.superblock * 4 + x.1
      (s.startRetiring line x.2 l b).post .pageRetire (.addr (BitVec.ofNat 48 (line * 128 / 65536 * 65536)))) s) s
  s.modDie d (fun x => { x with
    l2 := x.l2.filter (fun y => !(y.slice == slice && y.way == way))
    quarantined := if x.quarantined.contains (slice, way) then x.quarantined else x.quarantined ++ [(slice, way)] })

/-- The steps of R323 for a destroyed dirty line; one of a way-group without an owner is the Reeve's (log 44). -/
def contain (s : State) (d : BitVec 2) (y : L2Way) (i : Nat) : State :=
  let line := y.superblock * 4 + i
  let words := (lookupN i y.bad).getD 0
  match (s.die d).ownerOf (y.way / 4) with
  | none => ((s.poisonLine line words).dropLine d y i).post .reeveFault .none
  | some (l, b) =>
    let la := s.leaseAddr l (line * 128)
    let s := (((s.endSub l b 0x30 la).abortColls (fun c => c.lease == l && c.sub == b)).dropNests l b).dropLine d y i
    let s := (s.startRetiring line words l b).tryRetire (line * 128 / 65536 * 65536)
    let s := s.quarantine d y.slice y.way l b
    let detail : Word := word (d.toNat * 2 ^ 16 + y.slice * 256 + y.way)
    let hd := header 4 0 l b 0xFFFFF
    let (s, seq) := s.addBox hd detail
    s.addRecord 2 l 0xFF (s.noticeWords hd 0 detail seq l)

/-- The way that an argument names. -/
def argWay (s : State) : Option (BitVec 2 × L2Way × Nat) :=
  match s.arg with
  | .way d slice set way line =>
    ((s.die d).l2.find? (fun y => y.slice == slice.toNat && y.set == set.toNat && y.way == way.toNat)).map (fun y => (d, y, line.toNat))
  | _ => none

end State

def execDirtyL2UeContainment (s : State) : Host.Outcome State Fault Refusal :=
  match s.argWay with
  | none => .next s
  | some (d, y, i) => .next (if y.dirty.getLsbD i && y.bad.any (fun b => b.1 == i) then s.contain d y i else s)

/-! Scrubbing. -/

/-- `DRAM_PATROL_SCRUB`: a line, or every line of a die, is read from DRAM. -/
def execDramPatrolScrub (s : State) : Host.Outcome State Fault Refusal :=
  match s.arg with
  | .addr a => if isDram a.toNat then .next (s.dramScan (a.toNat / 128)) else .fault (.noDram a.toNat)
  | .die d => .next ((s.dramErr.filter (fun e => dieOfPa (e.1 * 128) = d.toNat)).foldl (fun s e => s.dramScan e.1) s)
  | _ => .next s

/-- A line of a way is read by the slice scrubber. -/
def State.scrubWay (s : State) (d : BitVec 2) (y : L2Way) (i : Nat) : State :=
  match s.l2Detect d (y.superblock * 4 + i) with
  | (s, none) => s
  | (s, some x) => s.post .dirtyL2UeContainment (.way d (BitVec.ofNat 8 x.slice) (BitVec.ofNat 5 x.set)
      (BitVec.ofNat 4 x.way) (BitVec.ofNat 2 i))

/-- `L2_SLICE_SCRUB`: a line, or every line of a die's L2. -/
def execL2SliceScrub (s : State) : Host.Outcome State Fault Refusal :=
  match s.arg with
  | .die d => .next ((s.die d).l2.foldl (fun s y => y.bad.foldl (fun s b => s.scrubWay d y b.1) s) s)
  | _ =>
    match s.argWay with
    | none => .next s
    | some (d, y, i) => .next (s.scrubWay d y i)

/-! Command processors (R326) and the Reeve (R327). -/

def execCpFault (s : State) : Host.Outcome State Fault Refusal :=
  match s.arg with
  | .die d => .next ((s.modDie d (fun x => { x with cpFrozen := true })).post .cpRestart (.die d))
  | _ => .next s

/-- The firmware restarts; nothing that was completed is done again. -/
def execCpRestart (s : State) : Host.Outcome State Fault Refusal :=
  match s.arg with
  | .die d =>
    if !s.cpFrozen d then .next s
    else
      let s := s.modDie d (fun x => { x with cpFrozen := false })
      .next ((s.addBox (State.header 7 0x31 0 0 0xFFFFF) (word d.toNat)).1)
  | _ => .next s

/-- The code of a request (R345). -/
def ReqBody.code (b : ReqBody) : BitVec 8 :=
  match b with
  | .createSublease _ => 0x01 | .destroySublease => 0x02 | .map _ _ _ _ _ => 0x03 | .setLimits _ _ _ => 0x04
  | .setOccupants _ _ _ => 0x05 | .readCounters _ _ => 0x06 | .resetSublease => 0x07 | .injectError _ _ => 0x08
  | .delegate _ _ _ => 0x09 | .revoke _ _ => 0x0A | .registerEventQueue _ _ => 0x0B | .setLdm _ => 0x0C
  | .resume _ | .terminate _ => 0x0D | .contextAccess _ _ _ => 0x0E | .breakpoint _ _ _ => 0x0F
  | .launchRequest _ _ => 0x10 | .readBlackBox _ => 0x11 | .power _ => 0x12 | .attest _ => 0x13
  | .releaseQuarantine _ _ _ => 0x14
  | .malformed => 0

/-- The answer to a request: its tag and status in word 0, then up to seven words of results (R344). -/
def State.respond (s : State) (r : Req) (status : Nat) (results : List Word) : State :=
  let ws := word (status * 2 ^ 32 + r.tag.toNat) :: (List.range 7).map (fun i => results.getD i 0)
  let a : Response := { level := r.level, lease := r.lease, sub := r.sub, words := ws }
  { s with reeve := { s.reeve with responses := s.reeve.responses ++ [a] } }

/-- The monitor freezes the tenants' queues: requests in progress are answered with the retry status, the others are held. -/
def execReeveFault (s : State) : Host.Outcome State Fault Refusal :=
  let r := s.reeve
  let s := (r.inbox.filter Waiting.begun).foldl (fun s w => s.respond w.req 3 []) s
  .next (({ s with reeve := { s.reeve with frozen := true, inbox := r.inbox.filter (fun w => !w.begun) } } : State).post .reeveRestart .none)

/-- The step of a request (R345); what fits none is refused by the step of any. -/
def ReqBody.step (b : ReqBody) : Instr :=
  match b with
  | .createSublease _ => .createSublease
  | .destroySublease => .destroySublease
  | .map _ _ _ _ _ => .map
  | .setLimits _ _ _ => .setLimits
  | .setOccupants _ _ _ => .setOccupants
  | .readCounters _ _ => .readCounters
  | .resetSublease => .resetSublease
  | .injectError _ _ => .injectError
  | .delegate _ _ _ => .delegate
  | .revoke _ _ => .revoke
  | .registerEventQueue _ _ => .registerEventQueue
  | .setLdm _ => .setLdm
  | .resume _ => .resume
  | .terminate _ => .terminate
  | .contextAccess _ _ _ => .contextAccess
  | .breakpoint _ _ _ => .breakpoint
  | .launchRequest _ _ => .launchRequest
  | .readBlackBox _ => .readBlackBox
  | .power _ => .power
  | .attest _ => .attest
  | .releaseQuarantine _ _ _ => .releaseQuarantine
  | .malformed => .createSublease

/-- The Reeve restarts: held requests are served in arrival order, traps that W had waiting are answered, and every
lease handler is told. -/
def execReeveRestart (s : State) : Host.Outcome State Fault Refusal :=
  if !s.reeve.frozen then .next s
  else
    let s := { s with reeve := { s.reeve with frozen := false } }
    let s := s.reeve.inbox.foldl (fun s h => s.post (ReqBody.step h.body) (.waiting h.num)) s
    let waiting := s.ctxs.filter (fun k => k.phase == .suspended && k.awaits.any (fun a => a.level == 3))
    let s := waiting.foldl (fun s k => s.terminate k 0x30 false ((k.awaits.map Await.tval).getD 0)) s
    let (s, seq) := s.addBox (State.header 8 0 0 0 0xFFFFF) 0
    .next (s.reeve.leases.foldl (fun s l =>
      s.addRecord 2 l.num 0xFF (s.noticeWords (State.header 8 0 l.num 0xFF 0xFFFFF) 0 0 seq l.num)) s)

/-! Injection (R329). -/

/-- `ERRINJ_PERFORM`: what is left of an injection whose line was not present when it was armed. -/
def execErrinjPerform (s : State) : Host.Outcome State Fault Refusal :=
  match s.arg with
  | .die d => .next (s.performInjection d)
  | _ => .next s

/-! Errors as they strike. -/

/-- The party for which a core's dirty copies are written back when an error strikes them: a sublease that stands on the core. -/
def State.coreWho (s : State) (core : Nat) : Who :=
  ((s.ctxs.find? (fun k => k.present && !k.isMiller && k.core == core)).map Ctx.who).getD
    { State.reeveWho (core / 64) with via := .core core }

/-- An error in a core's copy of a line (R322): a clean copy is dropped, a dirty one written back with its marks. -/
def State.strike (s : State) (core line : Nat) (words : BitVec 16) (dirty : Bool) : State :=
  if dirty then (s.writeBack (s.coreWho core) line).poisonLine line words else s

/-- A context's mask, front, plot entry or register is lost: it is terminated (R321). -/
def State.lost (s : State) (c : CtxId) : State :=
  match s.findCtx c with
  | none => s
  | some k => if k.phase == .draining then s else s.terminate k 0x30 false 0x30

/-- `UNCORRECTABLE_ERROR`. -/
def execUncorrectableError (s : State) : Host.Outcome State Fault Refusal :=
  match s.arg with
  | .error t =>
    match t with
    | .dram a words =>
      if isDram a.toNat then .next (s.corruptDram (a.toNat / 128) words) else .fault (.noDram a.toNat)
    | .l1 core a words =>
      let line := a.toNat / 128
      let c := s.core core.toNat
      match c.l1.find? (fun q => q.line == line) with
      | none => .next s
      | some q =>
        .next ((s.setCore core.toNat { c with l1 := c.l1.filter (fun r => r.line != line) }).strike core.toNat line words q.dirty)
    | .l2 d slice set way i words =>
      match (s.die d).l2.find? (fun y => y.slice == slice.toNat && y.set == set.toNat && y.way == way.toNat && y.valid.getLsbD i.toNat) with
      | none => .next s
      | some y => .next (s.corruptLine d y i.toNat words)
    | .stash core a words =>
      let line := a.toNat / 128
      let c := s.core core.toNat
      let dirty := (c.fe0.maps ++ c.fe1.maps).any (fun m => m.lines.any (fun l => m.physLine l == line && l.dirty))
      let drop (m : StashMap) : StashMap := { m with lines := m.lines.filter (fun l => m.physLine l != line) }
      .next ((s.setCore core.toNat (State.modMaps c drop)).strike core.toNat line words dirty)
    | .field core row col =>
      let i := cellIndex row.toNat col.toNat
      .next (s.modCore core.toNat (fun c => { c with fieldErr := if c.fieldErr.contains i then c.fieldErr else i :: c.fieldErr }))
    | .mask c _ => .next (s.lost c)
    | .front c _ => .next (s.lost c)
    | .plot c _ => .next (s.lost c)
    | .xreg c _ => .next (s.lost c)
    | .slice cluster column off =>
      let i := column.toNat * sliceBytes + off.toNat
      let m := s.mill cluster.toNat
      if sliceBytes ≤ off.toNat then .next s
      else .next (s.setMill cluster.toNat { m with bad := if m.bad.contains i then m.bad else i :: m.bad })
    | .lane core lane repeats =>
      .next (s.modCore core.toNat (fun c => { c with laneErr := c.laneErr ++ [(lane.toNat, repeats)] }))
  | _ => .next s

end Sys2Proof.Machine
end

