-- ==== Sys2Proof/Machine/Streams.lean ====
section
/-! DEFINITION. Stream slots: `strset` (R48, R255) and the transfer unit (R49, R50). -/

namespace Sys2Proof.Machine

/-! `strset`. -/

/-- The field rules of a block (R255). -/
def streamOk (ws : List Word) : Bool :=
  let w (i : Nat) : Word := ws.getD i 0
  let n := bits (w 1) 1 0 + 1
  bits (w 1) 62 11 == 0 && decide (bits (w 1) 10 8 ≤ 4) && bits (w 1) 7 2 == 0 && decide (n ≤ 3) &&
  (List.range 3).all (fun k => if k < n then bits (w (2 + k)) 31 0 != 0 else w (2 + k) == 0) &&
  (List.range 3).all (fun k => w (5 + k) == 0)

def streamTy (ws : List Word) : ETy :=
  match bits (ws.getD 1 0) 10 8 with
  | 0 => .bf16 | 1 => .f32 | 2 => .f64 | 3 => .i32 | _ => .i64

/-- The slot that a context's block configures under an `MFMT` value, before the engine command of a number. -/
def streamOf (c : CtxId) (ws : List Word) (mfmt : Word) (stamp : Nat) : Stream :=
  let w (i : Nat) : Word := ws.getD i 0
  let dims := List.range (bits (w 1) 1 0 + 1)
  { ctx := c, base := w 0, output := bitAt (w 1) 63, ty := streamTy ws, counts := dims.map (fun k => bits (w (2 + k)) 31 0)
    strides := dims.map (fun k => sextN 32 (bits (w (2 + k)) 63 32)), mfmt := mfmt, pos := 0, ahead := []
    stamp := stamp }

/-- The fill of a slot has no scoreboard entry any more (R44). -/
def State.unboard (s : State) (slot : Nat) : State :=
  s.modCore s.ctx.core (fun c => { c with board := c.board.filter (fun e => e.op != .stream s.ctx.fe slot) })

/-- `strset` at its dispatch: an output slot's buffer is stored out first; the block's words stand in `xs`. -/
def strsetBody (a : XReg) (k : BitVec 4) (en : VQEntry) (s : State) : Res State := do
  let spec : VSpec := { unit := 6, o := { mask := 0, inv := false, dt := false, vls := .vl }, dest := none, srcs := [], lenOf := []
                        cross := false, scalarRes := false, governed := false }
  let r ← vbegin en spec s
  let s := r.src
  if (s.streamAt k.toNat).any (fun t => t.output && !t.ahead.isEmpty) then waits (s.postStream k.toNat)
  else
    let ws := en.xs.toList
    vcheck en spec (a == 0 || (mform s.ctx.mfmt).admits (streamTy ws) .other) s 0x02
    let set (f : FrontEnd) : FrontEnd :=
      { f with streams := if a = 0 then eraseN k.toNat f.streams
                          else insertN k.toNat (streamOf s.ctx.id ws s.ctx.mfmt s.nextId) f.streams }
    r.done ((s.modMyFe set).unboard k.toNat)

def execStrset (a : XReg) (k : BitVec 4) (s : State) := settle (do
  command [a] s
  let s ← takeUnit s
  let va := s.getX a
  check (a == 0 || decide (va.toNat % 64 = 0)) s 0x04 va
  let (ws, s) ← if a = 0 then .ok (([], s) : List Word × State) else readBlock s va 8
  check (a == 0 || streamOk ws) s 0x02 s.enc
  if s.ctx.commitWaits (.strset a k) then waits s
  let (en, s) := vcommit (.strset a k) s
  vqueue (strsetBody a k) { en with xs := Vector.ofFn (fun i : Fin 32 => ws.getD i.val 0) } s)

/-! The transfer unit. -/

/-- Runs f with another context current. -/
def State.as (s : State) (c : CtxId) (f : State → State) : State := (f (s.switchTo c)).switchTo s.ctx.id

/-- Changes a slot of the current context's front end. -/
def State.setStream (s : State) (slot : Nat) (t : Stream) : State :=
  s.modMyFe (fun f => { f with streams := updateWhere (fun q => q.1 == slot) (fun q => (q.1, t)) f.streams })

/-- An older command of the core stands before a stream's access, which conflicts with it (R45): a copy or a multicast that has
not retired, or a collective without a signal word that has not started. -/
def State.streamHeld (s : State) (stamp : Nat) (k : Acc) (va : Word) : Bool :=
  match s.translate s.ctx.who k va (fun _ => none) with
  | .error _ => false
  | .ok (e, _) =>
    let l := e.phys va / 128
    let write := k == .store
    s.opBefore stamp s.ctx.core (if write then [l] else []) (if write then [] else [l]) ||
    s.colls.any (fun c => decide (c.id < stamp) && (c.ctx.extractLsb' 2 8).toNat == s.ctx.core && c.state == .armed &&
      c.block.getD 4 0 == 0 && c.lines.contains l)

/-- Elements that a slot can fetch now: n at most, up to a unit in the way, which the answer tells. One whose access fails keeps the
fault for the instruction that consumes it (R50). Clamped is set as an element is fetched (log 64). -/
def State.streamRead (s : State) (t : Stream) : Nat → List StreamElem → List StreamElem × Bool × State
  | 0, got => (got, false, s)
  | n + 1, got =>
    let j := t.pos + t.ahead.length + got.length
    let el (v : Word) (bad : Bool) (f : Option (Nat × Word)) : List StreamElem :=
      got ++ [{ val := v, bad := bad, fault := f, skip := false, stamp := t.stamp }]
    if t.total ≤ j then (got, false, s)
    else if s.streamHeld t.stamp .load (t.addr j) then (got, true, s)
    else match s.load .stream (t.addr j) t.size .normal with
      | .error (.fault s f) => s.streamRead t n (el 0 false (some (f.cause, f.tval)))
      | .error (.wait s) => (got, true, s)
      | .ok (none, s) => s.streamRead t n (el 0 true none)
      | .ok (some b, s) =>
        let m := mform t.mfmt
        let (v, c) := loadConv m.enc m.sat t.ty none b
        (s.clampIf c).streamRead t n (el (word v) false none)

/-- The stash ranges of the elements that a slot can now fetch. -/
def State.fillRanges (s : State) (t : Stream) : List (Nat × Nat) :=
  let first := t.pos + t.ahead.length
  let n := min (t.room - t.ahead.length) (t.total - first)
  ((List.range n).flatMap (fun i => s.stashParts s.ctx.core (t.addr (first + i)) t.size)).map (fun (_, m, lo, len) => (m.off + lo, len))

/-- What is left of a fill holds its stash range in the scoreboard (R44). -/
def State.boardFill (s : State) (slot : Nat) (t : Stream) : State :=
  match s.fillRanges t with
  | [] => s
  | rs => s.modCore s.ctx.core (fun c => { c with board := c.board ++ [{ op := .stream s.ctx.fe slot, ranges := rs }] })

/-- An input slot fetches ahead, as one operation over the elements that it can read now (R46, R49); a fill from the stash waits
for room in the scoreboard (R31, R44). -/
def State.streamFetch (s : State) (slot : Nat) (t : Stream) : State :=
  let s := s.unboard slot
  if !(s.fillRanges t).isEmpty && decide (32 ≤ s.myCore.board.length) then s.postStream slot
  else
    let (got, stopped, s) := s.streamRead t (t.room - t.ahead.length) []
    let t := { t with ahead := t.ahead ++ got }
    let s := s.setStream slot t
    if stopped then (s.boardFill slot t).postStream slot else s

/-- The element that waits at position i of an output slot's buffer: its address, and its stored bytes with whether Clamped is
set. -/
def Stream.stored (t : Stream) (i : Nat) (x : StreamElem) : Word × Nat × Bool :=
  let m := mform t.mfmt
  let (b, c) := storeConv m.enc m.sat t.ty none x.val.toNat
  (t.addr (t.pos - t.ahead.length + i), b, c)

/-- An output slot stores the elements that wait, in stream order and as one operation: when a unit is in the way of one of them,
none is stored (R46). A marked one leaves its mark (R317), one whose page has gone is not stored. -/
def State.streamStore (s : State) (slot : Nat) (t : Stream) : State :=
  let left := t.ahead.zipIdx.filter (fun p => !p.1.skip)
  let todo := left.map (fun p => (p.1.bad, t.stored p.2 p.1))
  let waits (p : Bool × Word × Nat × Bool) : Option State :=
    match s.reach .stream .store .strand p.2.1 t.size with
    | .error (.wait s') => some s'
    | _ => none
  if left.any (fun p => s.streamHeld p.1.stamp .store (t.stored p.2 p.1).1) then s.postStream slot
  else match todo.findSome? waits with
  | some s' => s'.postStream slot
  | none =>
    let put (s : State) (p : Bool × Word × Nat × Bool) : State :=
      match s.access .stream .store .strand p.2.1 t.size .normal with
      | .error _ => s
      | .ok (r, s) =>
        let s := (s.putBytes none r.pa (leBytes t.size p.2.2.1)).clampIf p.2.2.2
        if p.1 then s.addMarks [(r.pa, t.size)] (List.replicate t.size true) else s
    (todo.foldl put s).setStream slot { t with ahead := [] }

/-- The slot's transfer unit runs, as the context that configured the slot. -/
def execStreamTransfer (s : State) : Host.Outcome State Fault Refusal :=
  match s.arg with
  | .stream fe slot =>
    let f := ((s.core (fe.toNat / 2)).fe (fe.toNat % 2 == 1)).streams
    match lookupN slot.toNat f with
    | none => .next s
    | some t =>
      .next (if (s.findCtx t.ctx).isNone then s
        else s.as t.ctx (fun s => if t.output then s.streamStore slot.toNat t else s.streamFetch slot.toNat t))
  | _ => .next s

end Sys2Proof.Machine
end

