-- ==== Sys2Proof/Machine/Slots.lean ====
section
/-! DEFINITION. Slot boundaries (R342, R343): pre-emption, save and resumption of contexts (R302-R304, R105),
revocations (R311, R346); and the writing of event records (R372). -/

namespace Sys2Proof.Machine

/-! Event queues (R372). -/

/-- Device physical address of 8-byte aligned bytes of a level's queue, when they may be read and written there: for S
through both stages, for L through stage 2, by a fresh walk where a cached table pointer leads to none (R28), for W as they
stand. The tables are those of die 0 (log 18); a walk that waits answers the state it left. -/
def State.queueAt (s : State) (level : BitVec 2) (l b : Byte) (a : Word) : Except State (Option Nat × State) :=
  let w : Who := { State.reeveWho 0 with lease := l, sub := b }
  match level.toNat with
  | 1 =>
    match s.translate w .atomic a (State.ordinaryTest none) with
    | .ok (e, s) => .ok (some (e.phys a), s)
    | .error (.fault s _) => .ok (none, s)
    | .error (.wait s) => .error s
  | 2 =>
    let fits (x : Option Leaf) : Option Leaf := x.filter (fun x => x.r && x.w && x.cls == 0 && decide (a.toNat < 2 ^ 52))
    let walk (fresh : Bool) (s : State) : Except State (Option Leaf × State) :=
      match s.stage2 w fresh a.toNat with
      | .ok (x, s) => .ok (fits x, s)
      | .error (.fault s _) => .ok (none, s)
      | .error (.wait s) => .error s
    do
      let (x, s) ← walk false s
      let (x, s) ← if x.isSome then .ok (x, s) else walk true s
      .ok (x.map (fun x => leafPa x a.toNat), s)
  | 3 => .ok (if isDram a.toNat then some a.toNat else none, s)
  | _ => .ok (none, s)

/-! Delegation records (R346). -/

/-- A target of a lease and sublease, 0xFF for the lease itself, lies in that of a record. -/
def Deleg.covers (d : Deleg) (l b : Byte) : Bool := d.tLease == l && (d.tSub == 0xFF || d.tSub == b)

/-- A record may give another some of its rights: it was made to the other's delegator, and the other's target lies in its own. -/
def Deleg.backs (o d : Deleg) : Bool :=
  d.byLevel == o.toLevel && d.byLease == o.toLease && (d.byLevel == 2 || d.bySub == o.toSub) && o.covers d.tLease d.tSub

/-- A record is derived from withdrawn ones: it, or some right of it, rests on no record that still stands. -/
def Deleg.orphan (d : Deleg) (l : List Deleg) : Bool :=
  let backed (p : Deleg → Bool) : Bool := l.any (fun o => !o.revoked && o.backs d && p o)
  d.byLevel != 3 && (!backed (fun _ => true) || (List.range 6).any (fun k => d.rights.getLsbD k && !backed (fun o => o.rights.getLsbD k)))

namespace State

/-- A level's queue. -/
def queueOf (s : State) (level : BitVec 2) (l b : Byte) : Option EvQueue :=
  match level.toNat with
  | 1 => (s.sub? l b).bind Sub.queue
  | 2 => (s.lease? l).bind Lease.queue
  | 3 => s.reeve.wQueue
  | _ => none

def setQueue (s : State) (level : BitVec 2) (l b : Byte) (q : Option EvQueue) : State :=
  match level.toNat with
  | 1 => s.modSub l b (fun x => { x with queue := q })
  | 2 => s.modLease l (fun x => { x with queue := q })
  | 3 => { s with reeve := { s.reeve with wQueue := q } }
  | _ => s

/-- What one record meets: it is dropped or written, or it waits for room, for a unit, or for the containment of an error. -/
def tryRecord (s : State) (r : EvRecord) : Except State State :=
  match s.queueOf r.level r.lease r.sub with
  | none => .ok s
  | some q => do
    let (pa, s) ← s.queueAt r.level r.lease r.sub (q.base + word (64 * q.next))
    match pa with
    | none => .ok (s.setQueue r.level r.lease r.sub none)
    | some pa =>
      let w := reeveWho (dieOfPa pa)
      if s.ownedLine (pa / 128) true then .error s
      else
        let s ← s.detectLine w (pa / 128)
        let s := s.touch w .l2 (pa / 128) false false .no
        if s.mem.byte (pa + 7) != 0 then .error s
        else
          let s := s.touch w .l2 (pa / 128) true false .no
          let s := (s.putBytes none (pa + 8) ((r.words.drop 1).flatMap (fun w => leBytes 8 w.toNat))).putBytes none pa
            (leBytes 8 (r.words.getD 0 0).toNat)
          .ok (s.setQueue r.level r.lease r.sub (some { q with next := (q.next + 1) % 2 ^ q.k }))

/-- The first record whose queue has room and that no older record of its queue precedes. -/
def writeRecord (s : State) : List EvRecord → List EvRecord → State
  | _, [] => s
  | before, r :: rest =>
    let same (x : EvRecord) : Bool := x.level == r.level && x.lease == r.lease && (x.level != 1 || x.sub == r.sub)
    match if before.any same then .error s else s.tryRecord r with
    | .ok s' => { s' with reeve := { s'.reeve with records := before ++ rest } }
    | .error s' => writeRecord s' (before ++ [r]) rest

end State

/-- `EVENT_RECORD_WRITE`: one record goes to its queue; those whose queue is full wait. -/
def execEventRecordWrite (s : State) : Host.Outcome State Fault Refusal :=
  if s.reeve.records.isEmpty then .next s
  else
    let s := s.writeRecord [] s.reeve.records
    .next (if s.reeve.records.isEmpty || s.pend.contains (.eventRecordWrite, .none) then s else s.post .eventRecordWrite .none)

/-! Stopping and saving a context (R302, R303, R105). -/

def area0 (p : Phase) : SaveArea := { phase := p, cells := [], badCells := [], maps := [], streams := [] }

/-- A context stops issuing (R302): undispatched vector instructions are discarded with everything younger, as a trap at the
oldest of them discards it (R153), with the counts they popped; a convoy that was begun is fetched again; a `waitev` will
return 2. -/
def Ctx.stop (c : Ctx) : Ctx :=
  let c := match c.wait with
    | none => c
    | some w => { c.setX w.dest 2 with wait := none }
  let p := match c.phase with
    | .suspended => Phase.suspended
    | _ => Phase.running
  let c := match c.vq with
    | [] => c
    | en :: _ => { c with pc := en.pc, vqNext := en.pos, lq := c.vq.filterMap VQEntry.popped ++ c.lq, vq := [], x := en.regs }
  { c with phase := .stopping, area := some (area0 p), passed := false, convoy := [] }

/-- The cells that a save records: elements 0 to min(`VL`, n) - 1 of each defined and dirty plot. -/
def Ctx.savedCells (c : Ctx) : List Nat :=
  (List.range 64).flatMap (fun i =>
    let p := c.plots.toList.getD i 0
    if c.pdirty.getLsbD i then (List.range (min c.vl.toNat (plotCount p))).flatMap (plotCells p) else [])

namespace State

/-- Runs f with a context current, whatever its phase. -/
def withCtx (s : State) (k : Ctx) (f : State → State) : State :=
  if k = s.ctx then f s
  else
    let t := f { s with ctx := k, others := s.ctx :: s.others.erase k, lane := none }
    { t with ctx := s.ctx, others := t.ctx :: t.others.drop 1, lane := s.lane }

/-- Whether a stopped context can be saved: its lane threads and output streams are done. -/
def canSave (s : State) (k : Ctx) : Bool := k.phase == .stopping && !k.threading && (s.pendingOut k).isEmpty

/-- The save (R303): plot cells, and the stash mappings and stream slots that the context has made (R177). -/
def saveCtx (s : State) (k : Ctx) : State :=
  let fe := (s.core k.core).fe k.fe
  let ph := (k.area.map SaveArea.phase).getD .running
  let field := (s.core k.core).field
  let bad := (s.core k.core).fieldErr
  let ids := if k.unit && !k.isMiller then k.savedCells else []
  let a : SaveArea :=
    { phase := ph, cells := ids.foldl (fun l i => sset 0 l i (sget 0 field i)) []
      badCells := if bad.isEmpty then [] else bad.filter (fun i => ids.contains i)
      maps := if k.isMiller then [] else (fe.maps.filter (fun m => m.ctx == k.id)).map StashMap.unfilled
      streams := if k.isMiller then []
                 else (fe.streams.filter (fun t => t.2.ctx == k.id)).map (fun t => (t.1, { t.2 with ahead := [] })) }
  let s := s.dropMaps k
  let s := s.mapCtxs (fun j => j.id == k.id && j.phase == .stopping) (fun j => { j with phase := .saved, area := some a })
  if k.isMiller then s else s.arrange k.core

/-- An element that a save has marked is consumed as it is restored (R331): the floating-point canonical value of its width,
since a plot has no type (log 72). -/
def restoreBad (s : State) (k : Ctx) (inside : Nat → Bool) (bad : List Nat) : State :=
  let hurt (i : Nat) : List (Word × Nat) :=
    let p := k.plots.toList.getD i 0
    if k.pdirty.getLsbD i then
      ((List.range (min k.vl.toNat (plotCount p))).filter (fun e => (plotCells p e).all inside && (plotCells p e).any bad.contains)).map (fun e => (p, e))
    else []
  let canon (p : Word) : Nat := ETy.canon (match plotEwCode p with | 0 => .bf16 | 1 => .f32 | _ => .f64)
  let mine (j : Ctx) : Bool := j.id == k.id && j.present && j.lease == k.lease && j.sub == k.sub
  if bad.isEmpty then s
  else ((List.range 64).flatMap hurt).foldl (fun s h =>
    (s.modCore k.core (fun c => c.setElem h.1 h.2 (canon h.1))).mapCtxs mine (fun j => j.addCki 0)) s

/-- Resumption (R304, R105): the front end's rows are zeroed, but for those that a context with the vector unit already has,
and the saved cells that lie in them written (R88); mappings come back unfilled, and none of another sublease is left (R177). -/
def resumeCtx (s : State) (k : Ctx) : State :=
  let a := k.area.getD (area0 .running)
  let mine (j : Ctx) : Bool := j.id == k.id && j.phase == .saved && j.lease == k.lease && j.sub == k.sub
  let s := (if k.isMiller then s else s.arrange k.core).mapCtxs mine (fun j => { j with phase := a.phase, area := none })
  if k.isMiller then s
  else
    let own := ((s.sub? k.lease k.sub).bind (fun b => (b.pipes.find? (fun p => p.1 == k.self.extractLsb' 1 9)).map Prod.snd)).getD 0
    let s := (s.passMaps k.core k.fe k.lease k.sub).modCore k.core (fun c => c.modFe k.fe (fun f =>
      { f with maps := f.maps ++ a.maps, streams := f.streams ++ a.streams, pipeown := own }))
    let taken := s.ctxs.any (fun j => j.present && !j.isMiller && j.core == k.core && j.fe == k.fe && j.id != k.id && j.unit)
    if taken then s
    else
      let rows := s.rows k.core k.fe
      let out (i : Nat) : Bool := !(decide (rows.1 ≤ i / 512) && decide (i / 512 < rows.2))
      let mark := some (k.lease, k.sub)
      let s := s.modCore k.core (fun c =>
        let c := c.modFe k.fe (fun f => { f with rowsOwner := mark })
        let c := if c.split then c else c.modFe (!k.fe) (fun f => { f with rowsOwner := mark })
        let zeroed := c.field.filter (fun p => out p.1)
        let back := a.cells.filter (fun p => !out p.1)
        { c with field := back.foldl (fun l p => sset 0 l p.1 p.2) zeroed, fieldErr := c.fieldErr.filter out })
      s.restoreBad k (fun i => !out i) a.badCells

/-- Whether a saved context may come back: its sublease has its turn (log 16), and nothing stands in its place. -/
def canResume (s : State) (d : BitVec 2) (k : Ctx) : Bool :=
  k.phase == .saved && k.die == d && s.onTurn d k.lease k.sub &&
  !s.ctxs.any (fun j => j.present && j.id == k.id) && (k.isMiller || !s.banksHeld k.core k.lease k.sub) &&
  (k.isMiller || !k.unit || !s.ctxs.any (fun j => j.present && !j.isMiller && j.core == k.core && j.fe == k.fe && j.unit))

/-- Contexts of a die that p selects stop. -/
def stopCtxs (s : State) (d : BitVec 2) (p : Ctx → Bool) : State :=
  let live (k : Ctx) : Bool := match k.phase with | .running | .asleep | .suspended => true | _ => false
  s.mapCtxs (fun k => live k && k.die == d && p k) Ctx.stop

/-- Stopped contexts of a die are saved, saved ones resume, as far as they can now; a die that sleeps is woken first (R352). -/
def settleCtxs (s : State) (d : BitVec 2) : State :=
  let stopped := s.ctxs.filter (fun k => k.phase == .stopping && k.die == d)
  let s := stopped.foldl (fun s k =>
    if s.canSave k then s.saveCtx k else s.sendOut k) s
  (s.ctxs.filter (fun k => k.phase == .saved && k.die == d)).foldl (fun s k =>
    if s.canResume d k then (if s.asleep d then s.callWake d else s.resumeCtx k) else s) s

/-! The boundary (R342, R343). -/

/-- The next valid slot after the present one, wrapping. -/
def nextSlot (x : Die) : Option Nat :=
  let valid := (List.range 64).filter (fun i => bitAt (x.slots.toList.getD i 0) 63)
  match x.present with
  | none => valid.head?
  | some p => (valid.find? (fun i => decide (p < i))).orElse (fun _ => valid.head?)

def occOf (e : Word) (g : Nat) : Nat := bits e (16 * g + 15) (16 * g)

/-- Destroyed dirty lines of way-groups that change hands are met at their write-back (R323). -/
def hurtWays (x : Die) (groups : List Nat) : List (L2Way × Nat) :=
  (x.l2.filter (fun y => groups.contains (y.way / 4))).flatMap (fun y =>
    (y.bad.filter (fun b => y.dirty.getLsbD b.1)).map (fun b => (y, b.1)))

/-- Way-groups are written back and invalidated (R341). -/
def flushGroups (s : State) (d : BitVec 2) (groups : List Nat) : State :=
  let out (y : L2Way) : Bool := groups.contains (y.way / 4)
  let s := ((s.die d).l2.filter out).foldl (fun s y => s.l2WriteBack d y) s
  s.modDie d (fun x => { x with l2 := x.l2.filter (fun y => !out y) })

/-- Revocations take effect on a die (R311, R346). -/
def revokeNow (s : State) (d : BitVec 2) : State :=
  let gone (b : Sub) : Word := b.ldmClear[d.toNat]'d.isLt &&& ~~~b.ldm
  let s := s.reeve.subs.foldl (fun s b =>
    if gone b = 0 then s
    else s.mapCtxs (fun k => k.lease == b.lease && k.sub == b.num && k.die == d) (fun k => { k with tdeleg := k.tdeleg &&& ~~~gone b })) s
  let r := s.reeve
  { s with reeve := { r with
      subs := r.subs.map (fun b => { b with ldmClear := b.ldmClear.set d.toNat 0 d.isLt })
      delegs := r.delegs.filter (fun x => !x.revoked) } }

/-- The slot that is due begins. -/
def boundary (s : State) (d : BitVec 2) : State :=
  let x := s.die d
  let nxt := nextSlot x
  let e := match nxt with
    | none => slot0
    | some i => x.slots.toList.getD i slot0
  let old := x.inForce
  let groups := [0, 1, 2].filter (fun g => occOf old g != occOf e g)
  match hurtWays x groups with
  | h :: _ => s.post .dirtyL2UeContainment (.way d (BitVec.ofNat 8 h.1.slice) (BitVec.ofNat 5 h.1.set)
      (BitVec.ofNat 4 h.1.way) (BitVec.ofNat 2 h.2))
  | [] =>
    let now := [0, 1, 2].map (occOf e)
    let leaves (k : Ctx) : Bool :=
      let tag := k.lease.toNat * 256 + k.sub.toNat
      tag != 0xFFFF && ([0, 1, 2].map (occOf old)).contains tag && !now.contains tag
    let len := if nxt.isNone then 1 else max 1 (bits e 62 48)
    let s := s.flushGroups d groups
    let s := s.modDie d (fun x => { x with present := nxt, inForce := e, slotEnd := x.slotEnd + word (10000 * len) })
    (s.stopCtxs d leaves).revokeNow d

end State

/-- `SLOT_BOUNDARY` of a die: the slot that is due begins; contexts that have stopped are saved, and those that may
come back resume. While some of that is left, or another boundary is due, the step comes again. -/
def execSlotBoundary (s : State) : Host.Outcome State Fault Refusal :=
  match s.arg with
  | .die d =>
    let due (s : State) : Bool := decide ((s.die d).slotEnd.toNat ≤ s.time.toNat)
    let s := if due s then s.boundary d else s
    let s := s.settleCtxs d
    let left := s.ctxs.any (fun k => k.die == d && (k.phase == .stopping || (s.asleep d && s.canResume d k)))
    .next (if left || due s then s.post .slotBoundary (.die d) else s)
  | _ => .next s

end Sys2Proof.Machine
end

