-- ==== Sys2Proof/Machine/Board.lean ====
section
/-! DEFINITION. What reaches the K4 from the board, the fabric and the control cores: boot (R350), power states (R352),
fabric messages (R349), control-core accesses (R281), pause and migration of a lease (R348). -/

namespace Sys2Proof.Machine

/-! Boot (R350). -/

/-- An image that the boot ROM runs: signed under the key whose hash is fused, and not older than the fused minimum. -/
def Image.good (i : Image) (least : BitVec 32) (keyHash : BitVec 256) : Bool :=
  Config.shake256 i.key == keyHash && Config.xmssVerify i.key i.body i.sig && decide (least.toNat ≤ i.version.toNat)

def FlashSlot.images (f : FlashSlot) : List Image := [f.reeve, f.monitor, f.cp]

/-- `DEVICE_BOOT`: of two slots that pass, which one runs the spec leaves open (log 8). -/
def execDeviceBoot (s : State) : Host.Outcome State Fault Refusal :=
  match s.arg with
  | .flash a b =>
    let (v, s) := s.free
    let r := s.reeve
    match (if bitAt v 0 then [b, a] else [a, b]).find? (fun f => (FlashSlot.images f).all (fun i => Image.good i r.minVersion r.keyHash)) with
    | none => .next { s with reeve := { r with booted := false, measurements := [] } }
    | some f => .next { s with reeve := { r with booted := true, measurements := (FlashSlot.images f).map (fun i => Config.shake256 i.body) } }
  | _ => .next s

/-! Power (R352). -/

namespace State

/-- A cluster has no placed context, no Mill operation, no engine operation. -/
def clusterIdle (s : State) (c : Nat) : Bool :=
  !s.ctxs.any (fun k => k.present && k.cluster == c) && (s.mill c).ops.isEmpty && !s.ops.any (fun o => decide (o.core / 4 = c))

def dieIdle (s : State) (d : Nat) : Bool :=
  (List.range 16).all (fun i => s.clusterIdle (16 * d + i)) && s.poolCount (BitVec.ofNat 2 d) == 0

def allIdle (s : State) : Bool :=
  (List.range 4).all s.dieIdle && !s.colls.any (fun c => match c.state with | .ended _ => false | .armed | .started => true)

/-- The smallest tolerance of all leases, in microseconds; 0 where there is none. -/
def tolerance (s : State) : Nat :=
  match s.reeve.leases.map (fun l => l.tolerance.toNat) with
  | [] => 0
  | t :: ts => ts.foldl min t

/-- The deepest state that a die may enter as a whole: S3, S2 or none. -/
def powerFor (s : State) (d : Nat) : Nat :=
  if decide (40000 ≤ s.tolerance) && s.allIdle then 3
  else if decide (200 ≤ s.tolerance) && s.dieIdle d then 2
  else 0

/-- The clusters of a die that may enter S1. -/
def slowFor (s : State) (d : Nat) : BitVec 16 :=
  if s.tolerance < 2 then 0 else BitVec.ofFnLE (fun i : Fin 16 => s.clusterIdle (16 * d + i.val))

/-- Before S2 the caches and stashes of a die are written back; they, its TLBs and walk cache and the Field lose their contents
(R352, log 49), and the rows belong to no sublease any more (log 73). -/
def loseCaches (s : State) (d : BitVec 2) : State :=
  let mine (n : Nat) : Bool := decide (n / 64 = d.toNat)
  let clean (s : State) (p : Nat × Core) : State :=
    if mine p.1 then
      let s := (p.2.l1.filter L1Line.dirty).foldl (fun s l => s.writeBack (s.coreWho p.1) l.line) s
      (s.unfillMaps (s.coreWho p.1) p.1 false (fun _ => true)).unfillMaps (s.coreWho p.1) p.1 true (fun _ => true)
    else s
  let s := s.cores.foldl clean s
  let gone (e : Tlb) : Bool :=
    match e.place with
    | .main n | .gather n _ => mine n
    | .cluster n => decide (n / 16 = d.toNat)
  let core (p : Nat × Core) : Nat × Core :=
    if mine p.1 then
      (p.1, { p.2 with l1 := [], gathered := [], fwd := [], field := [], fieldErr := []
                       fe0 := { p.2.fe0 with rowsOwner := none }, fe1 := { p.2.fe1 with rowsOwner := none } })
    else p
  let s := { s with cores := s.cores.map core, tlb := s.tlb.filter (fun e => !gone e), walks := s.walks.filter (fun e => e.die != d) }
  s.flushGroups d [0, 1, 2, 3]

/-- A die takes a power state, or its clusters theirs. -/
def enterPower (s : State) (d : BitVec 2) (p : Nat) : State :=
  let s := if 2 ≤ p && decide ((s.die d).power.toNat < 2) then s.loseCaches d else s
  let slow := if 2 ≤ p then 0 else s.slowFor d.toNat
  s.modDie d (fun x => { x with power := BitVec.ofNat 2 p, slow := slow })

end State

/-- `POWER_STATE_ENTRY`: each die or cluster takes the deepest state whose condition holds; a line that its write-back finds
destroyed is contained first (R323). -/
def execPowerStateEntry (s : State) : Host.Outcome State Fault Refusal :=
  .next ((List.range 4).foldl (fun s d =>
    let die := BitVec.ofNat 2 d
    let p := s.powerFor d
    match if 2 ≤ p then State.hurtWays (s.die die) [0, 1, 2, 3] else [] with
    | h :: _ => (s.post .dirtyL2UeContainment (.way die (BitVec.ofNat 8 h.1.slice) (BitVec.ofNat 5 h.1.set)
        (BitVec.ofNat 4 h.1.way) (BitVec.ofNat 2 h.2))).post .powerStateEntry .none
    | [] => s.enterPower die p) s)

/-- `WAKE`: a die with its clusters, or with no die named the device, runs again. -/
def execWake (s : State) : Host.Outcome State Fault Refusal :=
  match s.arg with
  | .die d => .next (s.modDie d (fun x => { x with power := 0, slow := 0 }))
  | _ => .next { s with dies := s.dies.map (fun x => { x with power := 0, slow := 0 }) }

/-! Fabric messages (R349). -/

namespace State

/-- A remote agent's access to device physical bytes of package DRAM, of no lease here and allocating nothing: it waits for owners and
containment. -/
def remoteReach (s : State) (a n : Nat) (write : Bool) : Except State State :=
  let w : Who := { lease := 0xFF, sub := 0xFF, die := BitVec.ofNat 2 (dieOfPa a), via := .handler }
  foldE (fun (s : State) l =>
    if s.ownedLine l write then .error s
    else (s.detectLine w l).map (fun s => s.touch w .l2 l write false .no)) s (linesOf a n)

/-- What a remote read delivers: a marked word as zeros (R317, R337, log 83). -/
def remoteBytes (s : State) (a n : Nat) : List Byte := (State.cleanBytes s [(a, n)]).1

/-- Bytes that lie in package DRAM as a whole. -/
def dramRange (a n : Nat) : Bool := isDram a && isDram (a + n - 1)

/-- What the K4 answers to a peer. -/
def reply (s : State) (m : FabricMsg) (supported : Bool) (data : List Byte) : State :=
  { s with replies := s.replies ++ [{ msg := m, supported := supported, data := data }] }

/-- A receive takes a message of its port and sublease: a tagged one the equal tag, an untagged one none (R349). -/
def ueFits (port : BitVec 4) (l b : Byte) (tag : Option Word) (m : UeMsg) : Bool :=
  m.port == port && m.lease == l && m.sub == b && m.tag == tag

/-- A sublease has a virtual queue on a port. -/
def hasVqueue (s : State) (port : BitVec 4) (l b : Byte) : Bool :=
  (s.sub? l b).any (fun x => x.vqueues[port.toNat]'port.isLt != 0)

end State

/-- `FABRIC_MESSAGE`: RMA and atomics act on package DRAM at device physical addresses (log 20), an atomic only on a page that a
leaf makes Atomic-capable (R26); a send goes to a virtual queue, and a receive takes the oldest one that fits, for which it waits; a
message for a collective is kept for it, an abort aborts it.
What the K4 does not support is answered with that status, and nothing is performed. -/
def execFabricMessage (s : State) : Host.Outcome State Fault Refusal :=
  match s.arg with
  | .fabric m =>
    let again (s' : State) : State := s'.post .fabricMessage (.fabric m)
    match m with
    | .send port l b tag data =>
      .next (if s.hasVqueue port l b then { s with ue := s.ue ++ [{ port := port, lease := l, sub := b, tag := tag, data := data }] } else s)
    | .receive port l b tag =>
      if !s.hasVqueue port l b then .next s
      else match s.ue.find? (State.ueFits port l b tag) with
        | none => .next (again s)
        | some x => .next (({ s with ue := s.ue.erase x } : State).reply m true x.data)
    | .rmaWrite a data =>
      if data.isEmpty || !State.dramRange a.toNat data.length then .next s
      else match s.remoteReach a.toNat data.length true with
        | .error s => .next (again s)
        | .ok s => .next ((s.putBytes none a.toNat data).reply m true [])
    | .rmaRead a len =>
      if len = 0 || !State.dramRange a.toNat len.toNat then .next s
      else match s.remoteReach a.toNat len.toNat false with
        | .error s => .next (again s)
        | .ok s => .next (s.reply m true (s.remoteBytes a.toNat len.toNat))
    | .atomic op a v =>
      if a.toNat % 8 != 0 || !isDram a.toNat then .next s
      else if !(s.leavesOf a.toNat).any (fun f => f.leaf.amo) then .next (s.reply m false [])
      else match s.remoteReach a.toNat 8 true with
        | .error s => .next (again s)
        | .ok s =>
          let old := if s.poisonedAt a.toNat 8 then 0 else s.mem.num a.toNat 8
          .next ((s.putBytes none a.toNat (leBytes 8 (amoFn op 64 old v.toNat))).reply m true (leBytes 8 old))
    | .unsupported _ => .next (s.reply m false [])
    | .coll node die index params data =>
      match s.findColl index with
      | none => .next s
      | some c =>
        let known := c.peers.any (fun e => peerNode e == node && peerDie e == die)
        .next (if known then s.deliver { node := node, die := die, index := index, params := params, data := data } else s)
    | .collAbort node die index =>
      match s.findColl index with
      | none => .next s
      | some c =>
        let known := c.peers.any (fun e => peerNode e == node && peerDie e == die)
        .next (if known then s.post .collectiveAbort (.op index) else s)
  | _ => .next s

/-! Control cores (R2, R281, R340, R344). -/

/-- An instruction writes its destination register; `x0` keeps its zero. -/
def CcCore.put (c : CcCore) (fp : Bool) (r : BitVec 5) (v : Word) : CcCore :=
  if fp then { c with f := c.f.set r.toNat v r.isLt }
  else if r = 0 then c
  else { c with x := c.x.set r.toNat v r.isLt }

namespace State

def cc (s : State) (n : Nat) : CcCore := (lookupN n s.ccs).getD cc0
def setCc (s : State) (n : Nat) (c : CcCore) : State := { s with ccs := insertN n c s.ccs }
def modCc (s : State) (n : Nat) (f : CcCore → CcCore) : State := s.setCc n (f (s.cc n))

/-- The instruction of an access ends: its result, and the next address. -/
def ccDone (s : State) (a : CcAccess) (v : Word) : State :=
  s.modCc a.core.toNat (fun c => { c.put a.fp a.rd v with pc := a.next })
def ccNext (s : State) (a : CcAccess) : State := s.modCc a.core.toNat (fun c => { c with pc := a.next })

/-- A request stays in the inbox, at its place of arrival. -/
def keepWaiting (s : State) (w : Waiting) : State :=
  let r := s.reeve
  if r.inbox.any (fun x => x.num == w.num) then
    { s with reeve := { r with inbox := updateWhere (fun x => x.num == w.num) (fun _ => w) r.inbox } }
  else { s with nextId := max s.nextId (w.num + 1), reeve := { r with inbox := r.inbox ++ [w] } }

/-- A request has arrived (R344), and will be served at a step of its own. -/
def arrives (s : State) (r : Req) (b : ReqBody) : State :=
  (s.keepWaiting { num := s.nextId, req := r, body := b, begun := false }).post (ReqBody.step b) (.waiting s.nextId)

/-- A request of 64 bytes from a control core: the core stamps the level of its code (R344). One that is not well formed, or
whose arguments fit no request of its code, will be answered with status 2. -/
def sendRequest (s : State) (a : CcAccess) (ws : List Word) : State :=
  let w0 := ws.getD 0 0
  let r : Req := { level := a.level, lease := a.lease, sub := a.sub, tLease := w0.extractLsb' 40 8, tSub := w0.extractLsb' 32 8
                   tag := w0.extractLsb' 0 32 }
  let code : BitVec 8 := w0.extractLsb' 56 8
  let body := (Config.requestBody code (ws.drop 1)).filter (fun b => ReqBody.code b == code && bits w0 53 48 == 0)
  s.arrives r (body.getD .malformed)

/-- A store to the request window: the one that fills the last of 64 aligned bytes sends them as a request (log 24). -/
def windowStore (s : State) (a : CcAccess) (pa n : Nat) : State :=
  if (pa + n) % 64 != 0 then s
  else s.sendRequest a ((List.range 8).map (fun i => word (s.mem.num (pa / 64 * 64 + 8 * i) 8)))

end State

/-- What an atomic operation of width w writes. -/
def ccAmo (k : CcKind) (w old x : Nat) : Nat :=
  match k with
  | .amo op => amoFn op w old x
  | .amominu => min old x
  | .load | .store | .lr | .sc | .fence | .other | .fcsr => old

/-- What a load puts into its register: sign-extended, zero-extended, or boxed for a floating-point register. -/
def ccLoaded (a : CcAccess) (n old : Nat) : Word :=
  if a.fp && n == 4 then rvBox old else if a.signed then wordI (sextN (8 * n) old) else word old

namespace State

/-- The access at its device physical address. -/
def ccAccess (s : State) (a : CcAccess) (pa n : Nat) : ARes State := do
  let core := a.core.toNat
  let bad := s.poisonedAt pa n
  let reads := match a.kind with | .load | .amo _ | .amominu | .lr => true | .store | .sc | .fence | .other | .fcsr => false
  let (old, s) := if bad || !reads then (0, s) else s.readAt .scalar pa n
  let ext := wordI (sextN (8 * n) old)
  let put (s : State) (v : Nat) : ARes State := do
    let s ← s.putAt .scalar pa n v
    .ok (if isDeviceRegion pa && !isCounterWindow pa then s.windowStore a pa n else s)
  match a.kind with
  | .load => .ok (s.ccDone a (ccLoaded a n old))
  | .store => do
    let s ← put s a.data.toNat
    .ok (s.ccNext a)
  | .amo _ | .amominu =>
    let s ← put s (ccAmo a.kind (8 * n) old (a.data.toNat % 2 ^ (8 * n)))
    let s := if bad then { s with poison := s.poison.filter (fun w => w != pa / 8) } else s
    .ok (s.ccDone a ext)
  | .lr => .ok ((s.ccDone a ext).modCc core (fun c => { c with resv := some (pa, n) }))
  | .sc =>
    if (s.cc core).resv == some (pa, n) then do
      let s ← put s a.data.toNat
      .ok ((s.ccDone a 0).modCc core (fun c => { c with resv := none }))
    else .ok ((s.ccDone a 1).modCc core (fun c => { c with resv := none }))
  | .fence | .other | .fcsr => .ok s

/-- The code may run on the control core now: the core is in its lease's share, and a virtual processor of a sublease runs in
the sublease's slots, on whichever die they are, or at any time where no table names it (R340, R343, log 18). -/
def ccRuns (s : State) (level : BitVec 2) (lease sub : Byte) : Bool :=
  let dies := s.dies.toList
  decide (2 ≤ level.toNat) ||
  (!(s.lease? lease).any (fun k => k.pausedAt.isSome) &&
    (dies.any (fun x => x.has lease sub) || !dies.any (fun x => x.names lease sub)))

/-- A control core is in a lease's share (R340). -/
def ccShares (s : State) (core : BitVec 5) (lease : Byte) : Bool := (s.lease? lease).any (fun l => l.ccs.contains core)

/-- An access of the Reeve's own at a device physical address (R1, R355): in DRAM it waits for units and errors as any access does,
and a select register takes any value that R353 admits. -/
def reeveAccess (s : State) (a : CcAccess) : Except State State :=
  let n := 2 ^ a.size.toNat
  let pa := a.addr.toNat
  match a.kind, selectAt pa with
  | .store, some (d, k) =>
    let v := s.selectWith d k pa n a.data.toNat
    .ok (if selectOk v then s.setSelect d k v else s)
  | .store, none => if isDram pa && pa % n == 0 then s.reeveStore pa (leBytes n a.data.toNat) else .ok s
  | .load, none =>
    if !isDram pa || s.ownedLine (pa / 128) false then .ok s
    else (s.detectLine (reeveWho (dieOfPa pa)) (pa / 128)).map (fun s => s.touch (reeveWho (dieOfPa pa)) .l2 (pa / 128) false false .no)
  | _, _ => .ok s

end State

/-- Which of the checks of R25 an access takes. -/
def CcKind.acc (k : CcKind) : Acc :=
  match k with
  | .load | .lr => .load
  | .store | .sc => .store
  | .amo _ | .amominu => .atomic
  | .fence | .other | .fcsr => .load

/-- For whom a control core's accesses are made, with the tables of die 0 (log 18): a lease handler's code has no way-group, so that
nothing is allocated in the L2 for it, its walks and write-backs included (R34). -/
def ccWho (level : BitVec 2) (lease sub : Byte) : Who :=
  { lease := lease, sub := sub, die := 0, via := if level = 2 then .handler else .unit }

/-- An instruction of a control core. Its access passes both stages; one that a check refuses is not performed, and what RV64GC does
then is not in the spec (log 51). An atomic to the fabric window is performed at its home (R280). What must wait is done
`again`. -/
def ccPerform (a : CcAccess) (again : State → State) (s : State) : Host.Outcome State Fault Refusal :=
    let n := 2 ^ a.size.toNat
    let w := ccWho a.level a.lease a.sub
    if a.level = 3 then .next (match s.reeveAccess a with | .ok s => s | .error s => again s)
    else if !s.ccShares a.core a.lease then .next s
    else if !s.ccRuns a.level a.lease a.sub then .next (again s)
    else match a.kind with
    | .fence => .next (s.ccNext a)
    | .other => .next (s.ccDone a a.data)
    | .fcsr => .next ((s.modCc a.core.toNat (fun c => { c with fcsr := a.data })).ccNext a)
    | .load | .store | .amo _ | .amominu | .lr | .sc =>
      match s.checked w ctx0 .scalar (CcKind.acc a.kind) .device n a.addr n with
      | .error (.fault s _) => .next s
      | .error (.wait s) => .next (again s)
      | .ok (e, s) =>
        let pa := e.phys a.addr
        let write := match a.kind with
          | .load | .lr | .fence | .other | .fcsr => false
          | .sc => (s.cc a.core.toNat).resv == some (pa, n)
          | .store | .amo _ | .amominu => true
        if s.ownedLine (pa / 128) write then .next (again s)
        else match s.detectLine w (pa / 128) with
          | .error s => .next (again s)
          | .ok s =>
            let atomic := match a.kind with | .amo _ | .amominu | .sc => true | .load | .store | .lr | .fence | .other | .fcsr => false
            let s := s.touch w (if e.cls == 2 || (atomic && isFabric pa) then .uncached else .l2) (pa / 128) write false .no
            match s.ccAccess a pa n with
            | .error (.fault s _) => .next s
            | .error (.wait s) => .next (again s)
            | .ok s => .next s

/-! Fetching for a control core (log 82). -/

/-- A parcel of 16 bits of a control core's code, through both stages and the L2; none where it is marked. -/
def ccParcel (w : Who) (a : Word) (s : State) : ARes (Option Nat × State) := do
  let (e, s) ← s.checked w ctx0 .scalar .fetch .device 2 a 2
  let pa := e.phys a
  if s.ownedLine (pa / 128) false then .error (.wait s)
  else match s.detectLine w (pa / 128) with
    | .error s => .error (.wait s)
    | .ok s => .ok (if s.poisonedAt pa 2 then none else some (s.mem.num pa 2), s.touch w .l2 (pa / 128) false false .no)

/-- The instruction at an address, expanded to 32 bits, and its length in bytes. -/
def ccFetch (w : Who) (a : Word) (s : State) : ARes (Option (Nat × Nat) × State) := do
  let (p, s) ← ccParcel w a s
  match p with
  | none => .ok (none, s)
  | some p =>
    if p % 4 != 3 then .ok ((rvExpand p).map (fun i => (i, 2)), s)
    else do
      let (q, s) ← ccParcel w (a + 2) s
      .ok (q.map (fun q => (p + q * 2 ^ 16, 4)), s)

/-- A control core executes the instruction at its pc for code of a level (R2, R340, R343). What traps, by its code, its fetch or its
access, changes nothing and stands at the same pc, because the spec describes no trap of RV64GC (log 51); level W is the Reeve's
alone (R1). -/
def ccExecute (core : BitVec 5) (level : BitVec 2) (lease sub : Byte) (again : State → State) (s : State) :
    Host.Outcome State Fault Refusal :=
  if level = 3 || !s.ccShares core lease then .next s
  else if !s.ccRuns level lease sub then .next (again s)
  else match ccFetch (ccWho level lease sub) (s.cc core.toNat).pc s with
    | .error (.fault s _) => .next s
    | .error (.wait s) => .next (again s)
    | .ok (none, s) => .next s
    | .ok (some (i, size), s) =>
      match RvIns.run { c := s.cc core.toNat, core := core, lease := lease, sub := sub, level := level, i := i, size := size } with
      | .core c => .next (s.setCc core.toNat c)
      | .mem a => ccPerform a again s
      | .trap => .next s

/-- `CONTROL_CORE_ACCESS`: a control core executes an instruction, or one that stands decoded in the step. -/
def execControlCoreAccess (s : State) : Host.Outcome State Fault Refusal :=
  match s.arg with
  | .cc a => ccPerform a (fun s => s.post .controlCoreAccess (.cc a)) s
  | .ccRun core lease sub level => ccExecute core level lease sub (fun s => s.post .controlCoreAccess (.ccRun core lease sub level)) s
  | _ => .next s

/-! Pause and migration (R348). -/

/-- The frames that W names for a lease's stage 2 roots are free ones of package DRAM, one for each die (R23, R340, log 19). -/
def State.rootsOk (s : State) (v : Vector Word 4) : Bool :=
  let l := v.toList.map BitVec.toNat
  let taken := s.takenRanges
  decide l.Nodup && l.all (fun a => a % 65536 == 0 && isDram a && State.zoneOf a == 0 && s.frameFree taken a)

/-- The Reeve takes them, and makes them tables without an entry. -/
def State.takeRoots (s : State) (v : Vector Word 4) : Except State State :=
  let l := v.toList.map BitVec.toNat
  foldE (fun (s : State) a => s.reeveStore a (List.replicate 65536 0))
    { s with reeve := { s.reeve with used := s.reeve.used ++ l } } l

/-- `LEASE_MIGRATION`: a lease pauses here, and `TIME` at the pause is recorded; or a lease resumes here after a pause. One that comes
back with the reading at its pause has not run elsewhere, and keeps its offset; another gets the offset that makes `TIME` the
reading at the pause plus the pause. A lease that has not paused here, or that paused later than the reading says, does not
arrive; an unknown one arrives with tables that map nothing and no share, as a lease without a power request (R352). -/
def execLeaseMigration (s : State) : Host.Outcome State Fault Refusal :=
  match s.arg with
  | .migration l arrive t pause roots =>
    let dies : List (BitVec 2) := [0, 1, 2, 3]
    let wakeSlots (s : State) : State := dies.foldl (fun s d => s.post .slotBoundary (.die d)) s
    match s.lease? l with
    | none =>
      let new : Lease := { num := l, roots := roots, offset := t + pause - s.time, tolerance := 0, queue := none
                           cores := [], mills := [], ccs := [], vqueues := Vector.replicate 16 0, pausedAt := none }
      if !arrive || !s.rootsOk roots then .next s
      else match s.takeRoots roots with
        | .error s' => .next ((s.undone s').post .leaseMigration s.arg)
        | .ok s =>
          .next ((wakeSlots { s with reeve := { s.reeve with leases := s.reeve.leases ++ [new] } }).post .powerStateEntry .none)
    | some k =>
      match k.pausedAt, arrive with
      | some p, true =>
        .next (if t.toNat < p.toNat then s
          else wakeSlots (s.modLease l (fun x =>
            { x with offset := if t = p then x.offset else t + pause - s.time, pausedAt := none })))
      | none, false =>
        let s := s.modLease l (fun x => { x with pausedAt := some (s.timeOf l) })
        .next (wakeSlots (dies.foldl (fun s d => s.stopCtxs d (fun k => k.lease == l)) s))
      | _, _ => .next s
  | _ => .next s

end Sys2Proof.Machine
end

