-- ==== Sys2Proof/Machine/Ctl.lean ====
section
/-! DEFINITION. CTL registers (R156-R160): which exist on an agent, the levels that may read and write them,
their values, and the field rules of a write (R40, R55, R76, R83, R103, R108, R115, R159, R191, R310, R318, R328,
R353). -/

namespace Sys2Proof.Machine

/-- Lowest level that may read, and lowest that may write where any may (R158). -/
def ctlLevels (n : Nat) : Option (Nat × Option Nat) :=
  if n ≤ 0x008 then some (0, some 0)
  else if n = 0x009 then some (0, some 1)
  else if n = 0x011 || n = 0x016 then some (0, none)
  else if 0x010 ≤ n && n ≤ 0x018 then some (0, some 0)
  else if n = 0x020 then some (0, some 1)
  else if n = 0x021 || n = 0x022 then some (0, some 0)
  else if 0x030 ≤ n && n ≤ 0x032 then some (0, none)
  else if 0x040 ≤ n && n ≤ 0x05F then some (0, some 1)
  else if n = 0x080 then some (0, some 2)
  else if n = 0x081 then some (0, some 1)
  else if 0x082 ≤ n && n ≤ 0x085 then some (0, none)
  else if n = 0x090 || n = 0x0A0 then some (0, some 0)
  else if n = 0x0F0 then some (3, some 3)
  else none

/-- The registers of a Miller (R157). -/
def millerCtl (n : Nat) : Bool :=
  n = 0x000 || n = 0x001 || n = 0x002 || n = 0x003 || n = 0x004 || n = 0x012 || n = 0x020 || n = 0x030 ||
  n = 0x031 || n = 0x032

/-- Order Q of R158. -/
def ctlOrderQ (n : Nat) : Bool :=
  n = 0x000 || n = 0x008 || (0x010 ≤ n && n ≤ 0x022) || n = 0x081 || n = 0x090

/-- `STRIPCNT` (R191). -/
def LoopCtx.stripcnt (l : LoopCtx) : Word := (l.strips ++ l.base).setWidth 64

/-- Value of a register of the current context (R158). -/
def State.ctlValue (s : State) (n : Nat) : Word :=
  let c := s.ctx
  if n = 0x000 then c.status else if n = 0x001 then c.tvec else if n = 0x002 then c.tpc
  else if n = 0x003 then c.tcause else if n = 0x004 then c.tval else if n = 0x005 then c.tqpos
  else if n = 0x006 then c.tplot else if n = 0x007 then c.tcell else if n = 0x008 then c.vstart
  else if n = 0x009 then c.tdeleg else if n = 0x010 then c.vl else if n = 0x011 then c.mvl
  else if n = 0x012 then c.vtype else if n = 0x013 then c.mfmt else if n = 0x014 then c.fill
  else if n = 0x015 then c.fcsr else if n = 0x016 then word c.lq.length else if n = 0x017 then c.kvwin
  else if n = 0x018 then c.fovf else if n = 0x020 then c.cki
  else if n = 0x021 then word (bits c.pdirty 31 0) else if n = 0x022 then word (bits c.pdirty 63 32)
  else if n = 0x030 then s.timeOf c.lease else if n = 0x031 then c.cycle else if n = 0x032 then c.self.setWidth 64
  else if n ≤ 0x04F then s.myCore.evsel.toList.getD (n - 0x040) 0
  else if n ≤ 0x05F then s.myCore.evcnt.toList.getD (n - 0x050) 0
  else if n = 0x080 then s.myFe.pipeown.setWidth 64 else if n = 0x081 then c.loop.stripcnt
  else if n ≤ 0x085 then c.nestidx.toList.getD (n - 0x082) 0
  else if n = 0x090 then c.bypassth else if n = 0x0A0 then c.urnshare
  else (s.die c.die).errinj

/-- Event codes of R353. -/
def eventOk (v : Word) : Bool := v.toNat ≤ 0x0C

/-- The fields of `ERRINJ` for a die (R328). -/
def errinjOk (die : BitVec 2) (v : Word) : Bool :=
  let loc := bits v 47 0
  let sev := bits v 59 58
  bits v 57 48 == 0 &&
  (match bits v 62 60 with
   | 0 | 1 => decide (sev ≤ 1) && loc % 128 == 0 && decide (loc / 2 ^ 37 = die.toNat)
   | 2 => decide (sev ≤ 1) && loc % 4 == 0 && decide (loc < 2 ^ 16) && decide (loc / 256 % 4 = die.toNat)
   | 3 => decide (sev ≤ 1)
   | 4 => decide (sev ≤ 2) && loc == 0
   | _ => false)

/-- Whether `MFMT` admits a value (R76). -/
def mfmtOk (v : Word) : Bool :=
  bits v 63 16 == 0 && bits v 15 12 ≤ 10 && bits v 11 10 ≤ 1 && bits v 9 8 ≤ 2 && !bitAt v 7 && bits v 5 0 == 0

/-- Whether `TDELEG` admits a value under the lease delegation mask (R310). -/
def tdelegOk (ldm v : Word) : Bool := v &&& ~~~0x3150F671E == 0 && (v &&& 0x700) &&& ~~~ldm == 0

/-- The field rules of a write: whether register n admits value v (R159 and the rules of its chapter). The Zero fields of
`BYPASSTH`, `URNSHARE` and `PIPEOWN` have no named fate: what is written there is ignored (R9). -/
def State.ctlOk (s : State) (n : Nat) (v : Word) : Bool :=
  let c := s.ctx
  if n = 0x000 then (v ^^^ c.status) &&& ~~~0x8000 == 0
  else if n = 0x001 then v.toNat % 4 == 0
  else if n = 0x002 || n = 0x004 || n = 0x014 then true
  else if n = 0x003 then decide (v.toNat < 256)
  else if n = 0x005 then (v ^^^ c.tqpos) &&& 0x7FFFFFFFFFFFFFFF == 0 && !(bitAt v 63 && c.held.isNone)
  else if n = 0x006 then decide (v.toNat < 128)
  else if n = 0x007 then decide (v.toNat < 2 ^ 32)
  else if n = 0x008 then decide (v.toNat < 4096)
  else if n = 0x009 then tdelegOk (s.ldmOf c) v
  else if n = 0x010 then decide (v.toNat ≤ c.mvl.toNat)
  else if n = 0x012 then
    bits v 63 8 == 0 && 3 ≤ bits v 7 4 && bits v 7 4 ≤ 8 && bits v 3 2 == 0 && bits v 1 0 ≤ 2
  else if n = 0x013 then mfmtOk v
  else if n = 0x015 then
    bits v 63 16 == 0 && bits v 15 13 ≤ 4 && !bitAt v 12 && bits v 7 5 == 0
  else if n = 0x017 then bits v 15 13 == 0 && 1 ≤ bits v 12 0 && bits v 12 0 ≤ 4096
  else if n = 0x018 then decide (v.toNat < 2 ^ 16)
  else if n = 0x020 then bits v 63 48 == 0 && bits v 31 5 == 0
  else if n = 0x021 || n = 0x022 then decide (v.toNat < 2 ^ 32)
  else if n ≤ 0x04F then eventOk v
  else if n ≤ 0x05F then decide (v.toNat < 2 ^ 48)
  else if n = 0x080 then v.setWidth 8 &&& (s.myCore.fe (!c.fe)).pipeown == 0
  else if n = 0x081 || n = 0x090 then true
  else if n = 0x0A0 then 1 ≤ bits v 6 0 && bits v 6 0 ≤ 64
  else errinjOk c.die v

/-- A vector of words with one entry replaced. -/
def setWord {k : Nat} (v : Vector Word k) (i : Nat) (x : Word) : Vector Word k := v.setIfInBounds i x

/-- A write that changes `STATUS`.Protected sets MVL and clamps `VL` (R159). -/
def Ctx.setStatus (c : Ctx) (v : Word) : Ctx :=
  if bitAt v 15 == c.protected then { c with status := v }
  else
    let m : Word := if bitAt v 15 then 2048 else 4096
    { c with status := v, mvl := m, vl := if m.toNat < c.vl.toNat then m else c.vl }

/-- A write of Valid 0 discards the held instruction (R159), and the count it popped goes back (R188). -/
def Ctx.discardHeld (c : Ctx) (v : Word) : Ctx :=
  { c with tqpos := v, held := none, lq := (c.held.bind VQEntry.popped).toList ++ c.lq }

/-- Register n of the current context takes an admitted value. -/
def State.ctlSet (s : State) (n : Nat) (v : Word) : State :=
  let c := s.ctx
  let put (c : Ctx) : State := { s with ctx := c }
  if n = 0x000 then put (c.setStatus v)
  else if n = 0x001 then put { c with tvec := v } else if n = 0x002 then put { c with tpc := v }
  else if n = 0x003 then put { c with tcause := v } else if n = 0x004 then put { c with tval := v }
  else if n = 0x005 then put (if bitAt v 63 then { c with tqpos := v } else c.discardHeld v)
  else if n = 0x006 then put { c with tplot := v } else if n = 0x007 then put { c with tcell := v }
  else if n = 0x008 then put { c with vstart := v } else if n = 0x009 then put { c with tdeleg := v }
  else if n = 0x010 then put { c with vl := v } else if n = 0x012 then put { c with vtype := v }
  else if n = 0x013 then put { c with mfmt := v } else if n = 0x014 then put { c with fill := v }
  else if n = 0x015 then put { c with fcsr := v } else if n = 0x017 then put { c with kvwin := v }
  else if n = 0x018 then put { c with fovf := v } else if n = 0x020 then put { c with cki := v }
  else if n = 0x021 then put { c with pdirty := word (bits c.pdirty 63 32 * 2 ^ 32 + v.toNat) }
  else if n = 0x022 then put { c with pdirty := word (v.toNat * 2 ^ 32 + bits c.pdirty 31 0) }
  else if n ≤ 0x04F then s.modCore c.core (fun k => { k with evsel := setWord k.evsel (n - 0x040) v })
  else if n ≤ 0x05F then s.modCore c.core (fun k => { k with evcnt := setWord k.evcnt (n - 0x050) v })
  else if n = 0x080 then s.modMyFe (fun f => { f with pipeown := v.setWidth 8 })
  else if n = 0x081 then
    put { c with loop := { c.loop with base := v.setWidth 40, strips := v.extractLsb' 40 24 } }
  else if n = 0x090 then put { c with bypassth := word (bits v 23 0) }
  else if n = 0x0A0 then put { c with urnshare := word (bits v 6 0) }
  else s.setErrinj c.die v

/-- An event counter that belongs to the core's other front end (R158). -/
def State.foreignCounter (s : State) (n : Nat) : Bool :=
  0x040 ≤ n && n ≤ 0x05F && s.feActive s.ctx.core false && s.feActive s.ctx.core true &&
    decide (8 ≤ n % 16) != s.ctx.fe

/-- The register exists and the level may make the access (R157, R158). -/
def ctlAccess (n : Nat) (write : Bool) (s : State) : Res Unit := do
  match ctlLevels n with
  | none => raise s 0x01 s.enc
  | some (r, w) =>
    check (!s.ctx.isMiller || millerCtl n) s 0x01 s.enc
    if write then
      match w with
      | none => raise s 0x01 s.enc
      | some l => check (decide (l ≤ s.ctx.level) && decide (r ≤ s.ctx.level)) s 0x03 s.enc
    else check (decide (r ≤ s.ctx.level)) s 0x03 s.enc
    check (!s.foreignCounter n) s 0x03 s.enc

/-- A checked write of a whole new value (R156, R159): a failed field check leaves the register. -/
def ctlStore (n : Nat) (v : Word) (s : State) : Res State := do
  check (s.ctlOk n v) s 0x02 v
  .ok (s.ctlSet n v)

/-- A read: the old value in xd. One of order Q waits for the vector queue (R158) and not for the lane threads of an older `vdetach`,
of which the spec does not speak (log 12). -/
def ctlRead (d : XReg) (n : Nat) (s : State) : Res State := do
  ctlAccess n false s
  if ctlOrderQ n then drained s
  .ok ((s.setX d (s.ctlValue n)).advance 4)

/-- A write of `f old xa` (R156), the old value in xd. -/
def ctlModify (f : Word → Word → Word) (d a : XReg) (n : Nat) (s : State) : Res State := do
  ctlAccess n true s
  drained s
  let old := s.ctlValue n
  let s' ← ctlStore n (f old (s.getX a)) s
  .ok ((s'.setX d old).advance 4)

def execCtlr (d : XReg) (n : BitVec 12) (s : State) := settle (do
  legal .frontMiller [d] s
  ctlRead d n.toNat s)

def execCtlw (d a : XReg) (n : BitVec 12) (s : State) := settle (do
  legal .frontMiller [d, a] s
  ctlModify (fun _ v => v) d a n.toNat s)

/-- With `x0` it does not write (R156). -/
def execCtlset (d a : XReg) (n : BitVec 12) (s : State) := settle (do
  legal .frontMiller [d, a] s
  if a = 0 then ctlRead d n.toNat s else ctlModify (fun o v => o ||| v) d a n.toNat s)

def execCtlclr (d a : XReg) (n : BitVec 12) (s : State) := settle (do
  legal .frontMiller [d, a] s
  if a = 0 then ctlRead d n.toNat s else ctlModify (fun o v => o &&& ~~~v) d a n.toNat s)

/-! The register writes that the table lists as steps of their own: the argument is the value written. -/

/-- A write by the current context that is no instruction. -/
def ctlEvent (n : Nat) (s : State) : Res State :=
  match s.arg with
  | .word v => do
    ctlAccess n true s
    drained s
    ctlStore n v s
  | _ => .ok s

def execTqposWrite (s : State) := settle (ctlEvent 0x005 s)
def execStatusProtectedWrite (s : State) := settle (ctlEvent 0x000 s)
def execPipeownWrite (s : State) := settle (ctlEvent 0x080 s)

/-- W writes a die's `ERRINJ` (R328): a value that fails its field checks leaves it. -/
def execErrinjWrite (s : State) : Host.Outcome State Fault Refusal :=
  match s.arg with
  | .dieWord d v => .next (if errinjOk d v then s.setErrinj d v else s)
  | .word _ => settle (ctlEvent 0x0F0 s)
  | _ => .next s

end Sys2Proof.Machine
end

