-- ==== Sys2Proof/Machine/Fronts.lean ====
section
/-! DEFINITION. Fronts, major 0x39 (R117, R241-R250). -/

namespace Sys2Proof.Machine

/-! The configuration word (R242). -/

def fDims (c : Word) : Nat := bits c 1 0 + 1
def fDir (c : Word) (k : Nat) : Bool := bitAt c (2 + k)
def fPolicy (c : Word) : Nat := bits c 7 6
def fObj (c : Word) : Nat := bits c 9 8
def fCap (c : Word) : Nat := bits c 16 10

def fcfgOk (c : Word) : Bool :=
  bits c 63 17 == 0 && decide (1 ≤ fCap c) && decide (fCap c ≤ 64) && decide (bits c 5 2 < 2 ^ fDims c) &&
  (if fPolicy c = 1 then decide (fObj c < fDims c) else fObj c == 0)

/-! Comparison (R243). -/

abbrev Tuple := Vector (BitVec 32) 4

def objVal (t : Tuple) (k : Nat) : FVal := fFp32.decode (t.toList.getD k 0).toNat

/-- x is better than y in objective k. -/
def better (c : Word) (k : Nat) (x y : FVal) : Bool := if fDir c k then y.lt x else x.lt y

def dominates (c : Word) (a b : Tuple) : Bool :=
  (List.range (fDims c)).any (fun k => better c k (objVal a k) (objVal b k)) &&
  !(List.range (fDims c)).any (fun k => better c k (objVal b k) (objVal a k))

def sameTuple (c : Word) (a b : Tuple) : Bool := (List.range (fDims c)).all (fun k => (objVal a k).eqv (objVal b k))

def hasNan (c : Word) (t : Tuple) : Bool := (List.range (fDims c)).any (fun k => objVal t k == .nan)

/-! One arrival (R244). -/

/-- What an arrival does: the front after it, the `FOVF` bit it sets, or the trap of policy 2. -/
inductive Arrival
  | ok (f : Front)
  | mark (f : Front) (bit : Nat)
  | full
deriving DecidableEq, Repr

/-- The lowest slot below C that holds nothing. -/
def Front.freeSlot (f : Front) : Option Nat := findBelow (fCap f.cfg) (fun i => !f.slots.any (fun s => s.slot == i))

/-- A tuple placed in a slot becomes the youngest. -/
def Front.place (f : Front) (i : Nat) (t : Tuple) (p : BitVec 32) : Front :=
  { f with slots := f.slots.filter (fun s => s.slot != i) ++ [{ slot := i, objs := t, payload := p }] }

/-- The valid slot worst in the policy's objective; of equal ones the highest. -/
def Front.worst (f : Front) : Option FSlot :=
  let k := fObj f.cfg
  f.slots.foldl (fun (w : Option FSlot) s =>
    match w with
    | none => some s
    | some w =>
      let x := objVal s.objs k
      let y := objVal w.objs k
      if better f.cfg k y x || (!better f.cfg k x y && w.slot < s.slot) then some s else some w) none

def Front.arrive (f : Front) (n : Nat) (t : Tuple) (p : BitVec 32) : Arrival :=
  let c := f.cfg
  if hasNan c t then .mark f (8 + n)
  else if f.slots.any (fun s => dominates c s.objs t || sameTuple c s.objs t) then .ok f
  else
    let f := { f with slots := f.slots.filter (fun s => !dominates c t s.objs) }
    if f.slots.length < fCap c then
      match f.freeSlot with
      | some i => .ok (f.place i t p)
      | none => .ok f
    else match fPolicy c with
      | 0 => .mark f n
      | 1 =>
        match f.worst with
        | none => .ok f
        | some w => if better c (fObj c) (objVal t (fObj c)) (objVal w.objs (fObj c)) then .ok (f.place w.slot t p) else .ok f
      | 2 => .full
      | _ =>
        match f.slots with
        | o :: _ => .ok (f.place o.slot t p)
        | [] => .ok f

/-- An arrival at front fd; none stands for the trap. -/
def State.arrive (s : State) (fd : FReg) (t : Tuple) (p : BitVec 32) : Option State :=
  match (s.ctx.front fd).arrive fd.toNat t p with
  | .ok f => some { s with ctx := s.ctx.setFront fd f }
  | .mark f b => some { s with ctx := { s.ctx.setFront fd f with fovf := s.ctx.fovf ||| word (2 ^ b) } }
  | .full => none

/-! Instructions. -/

/-- A front instruction that `VL` and the predicate do not govern (R241). -/
def frontSpec : VSpec :=
  { unit := 4, o := { mask := 0, inv := false, dt := false, vls := .vl }, dest := none, srcs := [], lenOf := []
    cross := false, scalarRes := false, governed := false }

def fcfgBody (fd : FReg) (xs : XReg) (en : VQEntry) (s : State) : Res State := do
  let r ← vbegin en frontSpec s
  let v := en.xs[xs.toNat]'xs.isLt
  if fcfgOk v then r.done { r.src with ctx := r.src.ctx.setFront fd { cfg := v, slots := [] } }
  else vraise en frontSpec.tplot r.src 0x02 v none 0

def execFcfg (o : VOpts) (fd : FReg) (xs : XReg) (s : State) := vissue (.fcfg o fd xs) (fcfgBody fd xs) s

/-- The objective plots from v on. -/
def objPlots (n : Nat) (v : VReg) : List VReg := (List.range n).map (fun k => v + BitVec.ofNat 6 k)

/-- Arrival of element e of an insertion. -/
def finsElem (r : VRun) (fd : FReg) (plots : List VReg) (vb : VReg) (s : State) (e : Nat) : Res State :=
  let xs := plots.map (fun v => r.get v .f32 e)
  let p := r.get vb .i32 e
  let t : Tuple := Vector.ofFn (fun k : Fin 4 => BitVec.ofNat 32 (xs.getD k.val (0, false)).1)
  match s.arrive fd t (BitVec.ofNat 32 p.1) with
  | some s => .ok (s.vectorPoison (p.2 || xs.any Prod.snd))
  | none => r.trapAt s 0x18 (word e) e

def finsBody (o : VOpts) (fd : FReg) (va vb : VReg) (en : VQEntry) (s : State) : Res State := do
  let c := (s.ctx.front fd).cfg
  let plots := objPlots (fDims c) va
  let all := plots ++ [vb]
  let k : VSpec := { unit := 4, o := o, dest := none, srcs := all.map (fun v => (v, some 2)), lenOf := all, cross := false
                     scalarRes := false, governed := true }
  vcheck en k (c != 0 && decide (va.toNat + fDims c ≤ 64)) s 0x02
  let r ← vbegin en k s
  let s ← foldE (finsElem r fd plots vb) r.src (r.elems.filter (fun e => e < r.stop))
  let s ← r.ended s
  r.done s

def execFins (o : VOpts) (fd : FReg) (va vb : VReg) (s : State) := vissue (.fins o fd va vb) (finsBody o fd va vb) s

/-- Valid slots in ascending slot order. -/
def Front.inOrder (f : Front) : List FSlot := (List.range 64).filterMap (fun i => f.slots.find? (fun s => s.slot == i))

def fmergeBody (fa fb : FReg) (en : VQEntry) (s : State) : Res State := do
  let a := (s.ctx.front fa).cfg
  let b := s.ctx.front fb
  let same := fDims a == fDims b.cfg && bits a 5 2 == bits b.cfg 5 2
  vcheck en frontSpec (a != 0 && b.cfg != 0 && same) s 0x02
  let r ← vbegin en frontSpec s
  let one (s : State) (x : FSlot) : Res State :=
    match s.arrive fa x.objs x.payload with
    | some s => .ok s
    | none => vraise en 0x7F s 0x18 (word x.slot) none x.slot
  let s ← foldE one r.src (b.inOrder.filter (fun x => r.start ≤ x.slot))
  r.done s

def execFmerge (o : VOpts) (fa fb : FReg) (s : State) := vissue (.fmerge o fa fb) (fmergeBody fa fb) s

def freadBody (o : VOpts) (vd vb : VReg) (fa : FReg) (xd : XReg) (en : VQEntry) (s : State) : Res State := do
  let f := s.ctx.front fa
  let plots := objPlots (fDims f.cfg) vd
  let k : VSpec := { unit := 4, o := o, dest := some (vd, some 2), also := (plots.drop 1 ++ [vb]).map (fun v => (v, some 2))
                     srcs := [], lenOf := plots ++ [vb], cross := false, scalarRes := false, governed := true }
  vcheck en k (f.cfg != 0 && decide (vd.toNat + fDims f.cfg ≤ 64)) s 0x02
  let r ← vbegin en k s
  let xs := f.inOrder
  let n := min xs.length r.len
  let put (s : State) (e : Nat) : State :=
    match xs[e]? with
    | none => s
    | some x =>
      let s := (plots.zip x.objs.toList).foldl (fun s p => s.setElem p.1 e p.2.toNat) s
      s.setElem vb e x.payload.toNat
  let s ← r.ended ((r.elems.filter (fun e => e < n && e < r.stop)).foldl put r.src)
  r.done (s.sendX xd (word n))

def execFread (o : VOpts) (vd vb : VReg) (fa : FReg) (xd : XReg) (s : State) :=
  vissue (.fread o vd vb fa xd) (freadBody o vd vb fa xd) s

def fclrBody (fd : FReg) (en : VQEntry) (s : State) : Res State := do
  let r ← vbegin en frontSpec s
  r.done { r.src with ctx := r.src.ctx.setFront fd { (r.src.ctx.front fd) with slots := [] } }

def execFclr (o : VOpts) (fd : FReg) (s : State) := vissue (.fclr o fd) (fclrBody fd) s

/-! Images (R249, R250), as words. -/

/-- The three words of a slot: objectives, payload and age rank. -/
def FSlot.words (x : FSlot) (rank : Nat) : List Word :=
  let o (k : Nat) : Nat := (x.objs.toList.getD k 0).toNat
  [word (o 0 + o 1 * 2 ^ 32), word (o 2 + o 3 * 2 ^ 32), word (x.payload.toNat + rank * 2 ^ 32)]

def Front.image (f : Front) : List Word :=
  let valid := f.slots.foldl (fun (v : Word) x => v ||| word (2 ^ x.slot)) 0
  let slotWords (i : Nat) : List Word :=
    match f.slots.findIdx? (fun x => x.slot == i) with
    | none => [0, 0, 0]
    | some r => match f.slots[r]? with | some x => x.words r | none => [0, 0, 0]
  [f.cfg, valid, 0, 0, 0, 0, 0, 0] ++ (List.range 64).flatMap slotWords

/-- The front that an image holds, when nothing in it is illegal. -/
def Front.ofImage (ws : List Word) : Option Front :=
  let w (i : Nat) : Word := ws.getD i 0
  let cfg := w 0
  let valid := w 1
  let slotOf (i : Nat) : FSlot :=
    let o (k : Nat) : BitVec 32 := BitVec.ofNat 32 (bits (w (8 + 3 * i + k / 2)) (32 * (k % 2) + 31) (32 * (k % 2)))
    { slot := i, objs := Vector.ofFn (fun k : Fin 4 => o k.val), payload := BitVec.ofNat 32 (bits (w (10 + 3 * i)) 31 0) }
  let rank (i : Nat) : Nat := bits (w (10 + 3 * i)) 63 32
  let held := (List.range 64).filter (fun i => bitAt valid i)
  let ok (i : Nat) : Bool :=
    if bitAt valid i then
      decide (i < fCap cfg) && !hasNan cfg (slotOf i).objs &&
        ((slotOf i).objs.toList.drop (fDims cfg)).all (fun x => x == 0)
    else w (8 + 3 * i) == 0 && w (9 + 3 * i) == 0 && w (10 + 3 * i) == 0
  let order := (List.range held.length).filterMap (fun r => held.find? (fun i => rank i == r))
  if fcfgOk cfg && (List.range 6).all (fun i => w (2 + i) == 0) && (List.range 64).all ok && order.length == held.length then
    some { cfg := cfg, slots := order.map slotOf }
  else none

/-- An access of the image's words. -/
def frontAcc {α : Type} (en : VQEntry) : ARes α → Res α
  | .ok a => .ok a
  | .error (.fault s f) => vraise en frontSpec.tplot s f.cause f.tval none 0
  | .error (.wait s) => waits s

/-- The 1,600 bytes at a base are checked whole before anything is done. -/
def imageCheck (en : VQEntry) (k : Acc) (base : Word) (s : State) : Res State :=
  if base.toNat % 64 != 0 then vraise en frontSpec.tplot s 0x04 base none 0
  else do
    let (_, s) ← frontAcc en (s.rangeCheck .vector k base 1600)
    .ok s

def wordAddrs (base : Word) (n : Nat) : List Word := (List.range n).map (fun i => base + word (8 * i))

def fsaveBody (fa : FReg) (xs : XReg) (en : VQEntry) (s : State) : Res State := do
  let f := s.ctx.front fa
  vcheck en frontSpec (f.cfg != 0) s 0x02
  let r ← vbegin en frontSpec s
  let base := en.xs[xs.toNat]'xs.isLt
  let s ← imageCheck en .store base r.src
  let s ← foldE (fun (s : State) (p : Word × Word) => frontAcc en (s.store .vector p.1 8 p.2.toNat)) s
    ((wordAddrs base 200).zip f.image)
  r.done s

def floadBody (fd : FReg) (xs : XReg) (en : VQEntry) (s : State) : Res State := do
  let r ← vbegin en frontSpec s
  let base := en.xs[xs.toNat]'xs.isLt
  let s ← imageCheck en .load base r.src
  let (ws, s) ← foldE (fun (st : List (Option Nat) × State) (a : Word) => do
    let (v, s) ← frontAcc en (st.2.load .vector a 8 .normal)
    .ok (st.1 ++ [v], s)) (([], s) : List (Option Nat) × State) (wordAddrs base 200)
  let s := s.vectorPoison (ws.any Option.isNone)
  match Front.ofImage (ws.map (fun v => word (v.getD 0))) with
  | none => vraise en frontSpec.tplot s 0x02 base none 0
  | some f => r.done { s with ctx := s.ctx.setFront fd f }

def execFsave (o : VOpts) (fa : FReg) (xs : XReg) (s : State) := vissue (.fsave o fa xs) (fsaveBody fa xs) s
def execFload (o : VOpts) (fd : FReg) (xs : XReg) (s : State) := vissue (.fload o fd xs) (floadBody fd xs) s

end Sys2Proof.Machine
end

