-- ==== Sys2Proof/Machine/Requests.lean ====
section
/-! DEFINITION. Requests to the Reeve (R344, R345): rights (R346), and one meaning for each request. -/

namespace Sys2Proof.Machine

/-! Rights (R346). -/

/-- Bits of a mask of rights. -/
def rCreate : Nat := 0
def rMap : Nat := 1
def rPriority : Nat := 2
def rCounters : Nat := 3
def rReset : Nat := 4
def rInject : Nat := 5

/-- A record was made to who asks. -/
def Deleg.heldBy (d : Deleg) (r : Req) : Bool :=
  d.toLevel == r.level && d.toLease == r.lease && (r.level == 2 || d.toSub == r.sub)

/-- Who asks holds a right over its target: W holds every one. -/
def State.holds (s : State) (r : Req) (right : Nat) : Bool :=
  r.level == 3 || s.reeve.delegs.any (fun d => d.heldBy r && d.covers r.tLease r.tSub && d.rights.getLsbD right)

/-- Who asks holds some record over its target (R345, "any holder"). -/
def State.holder (s : State) (r : Req) : Bool :=
  r.level == 3 || s.reeve.delegs.any (fun d => d.heldBy r && d.covers r.tLease r.tSub)

/-- Who asks is the handler of a level of the target, or W. -/
def Req.isLevel (r : Req) (level : BitVec 2) : Bool :=
  r.level == 3 || (r.level == level && r.lease == r.tLease && (level != 1 || r.sub == r.tSub))

/-! Serving. -/

/-- What serving a request comes to: an answer with its status and result words, or a state in which it goes on later. -/
inductive Served
  | answer (status : Nat) (words : List Word) (s : State)
  | wait (s : State)
deriving DecidableEq, Repr

def done (s : State) : Served := .answer 0 [] s
def refuse (s : State) (status : Nat) : Served := .answer status [] s

/-- How a request is served, by what it asks of the rights: whether one is held, or was when the request began (R346). -/
abbrev Serve := (Nat → Bool) → Req → ReqBody → State → Served

namespace State

/-- The two requests are of one holder (R344). -/
def sameHolder (a b : Req) : Bool := a.level == b.level && a.lease == b.lease && a.sub == b.sub

/-- Every die and cluster is awake (R352). -/
def awake (s : State) : Bool := s.dies.toList.all (fun x => x.power == 0 && x.slow == 0)

/-- A request leaves the inbox. -/
def answered (s : State) (w : Waiting) : State :=
  { s with reeve := { s.reeve with inbox := s.reeve.inbox.filter (fun x => x.num != w.num) } }

/-- An older request of the same holder is still to be answered. -/
def overtakes (s : State) (w : Waiting) : Bool :=
  s.reeve.inbox.any (fun x => sameHolder x.req w.req && decide (x.num < w.num))

end State

/-- A request whose turn it is: it waits for the wake of what sleeps (R352), and before a boot is refused (R350). -/
def attempt (i : Instr) (run : Serve) (w : Waiting) (s : State) : State :=
  if !s.awake then
    let s := s.keepWaiting w
    ({ s with pend := (.wake, .none) :: s.pend } : State).post i (.waiting w.num)
  else if !s.reeve.booted then (s.answered w).respond w.req 2 []
  else match run (fun k => w.begun || s.holds w.req k) w.req w.body s with
    | .answer status words s => (s.answered w).respond w.req status words
    | .wait s => (s.keepWaiting { w with begun := true }).post i (.waiting w.num)

/-- A request arrives, or one that waits comes again. Requests of one holder are performed in arrival order (R344); while the
Reeve is frozen they are held (R327). -/
def serve (i : Instr) (run : Serve) (s : State) : Host.Outcome State Fault Refusal :=
  match s.arg with
  | .request r b =>
    let w : Waiting := { num := s.nextId, req := r, body := b, begun := false }
    .next (if s.reeve.frozen then s.keepWaiting w
      else if s.overtakes w then (s.keepWaiting w).post i (.waiting w.num)
      else attempt i run w s)
  | .waiting n =>
    match s.reeve.inbox.find? (fun w => w.num == n) with
    | none => .next s
    | some w =>
      .next (if s.reeve.frozen then s
        else if s.overtakes w then s.post i (.waiting n)
        else attempt i run w s)
  | _ => .next s

/-! Subleases (R340, R341). -/

/-- A list has no entry twice. -/
def distinct (l : List Nat) : Bool := decide l.Nodup

/-- An assignment that R341 admits beside the other subleases: cores and Mills held by no other, disjoint pipes; control cores
go to leases alone (R340). -/
def State.assignOk (s : State) (l b : Byte) (a : Assign) : Bool :=
  let subs := s.reeve.subs.filter (fun x => !(x.lease == l && x.num == b))
  let pipe (c f : Nat) : BitVec 8 := ((a.pipes.find? (fun p => p.1.toNat == 2 * c + f)).map Prod.snd).getD 0
  a.ccs.isEmpty && distinct (a.cores.map BitVec.toNat) && distinct (a.mills.map BitVec.toNat) && distinct (a.pipes.map (fun p => p.1.toNat)) &&
  a.cores.all (fun c => !subs.any (fun b => b.cores.contains c) && pipe c.toNat 0 &&& pipe c.toNat 1 == 0) &&
  a.pipes.all (fun p => a.cores.any (fun c => decide (c.toNat = p.1.toNat / 2))) &&
  a.mills.all (fun m => !subs.any (fun b => b.mills.contains m))

/-- Virtual queues of each port that fit beside those given to others. -/
def queuesFit (others : List (Vector (BitVec 7) 16)) (mine limit : Vector (BitVec 7) 16) : Bool :=
  (List.finRange 16).all (fun p =>
    decide (others.foldl (fun n v => n + (v[p.val]'p.isLt).toNat) (mine[p.val]'p.isLt).toNat ≤ (limit[p.val]'p.isLt).toNat))

/-- An assignment within a lease's share. -/
def Lease.admits (l : Lease) (s : State) (b : Byte) (a : Assign) : Bool :=
  let others := s.reeve.subs.filter (fun x => x.lease == l.num && x.num != b)
  a.cores.all l.cores.contains && a.mills.all l.mills.contains && queuesFit (others.map Sub.vqueues) a.vqueues l.vqueues

/-- A share that W may give to a new lease: what no other lease has (R340). -/
def State.shareOk (s : State) (a : Assign) : Bool :=
  let ls := s.reeve.leases
  distinct (a.cores.map BitVec.toNat) && distinct (a.mills.map BitVec.toNat) && distinct (a.ccs.map BitVec.toNat) &&
  a.cores.all (fun c => !ls.any (fun l => l.cores.contains c)) && a.mills.all (fun m => !ls.any (fun l => l.mills.contains m)) &&
  a.ccs.all (fun c => !ls.any (fun l => l.ccs.contains c)) &&
  queuesFit (ls.map Lease.vqueues) a.vqueues (Vector.replicate 16 64)

/-- An assignment that takes nothing but what a sublease has already: S, where L has given it the right, assigns nothing else
(R341). -/
def Sub.admits (x : Sub) (a : Assign) : Bool :=
  let has (f : BitVec 9) : BitVec 8 := ((x.pipes.find? (fun p => p.1 == f)).map Prod.snd).getD 0
  a.cores.all x.cores.contains && a.mills.all x.mills.contains && a.pipes.all (fun p => p.2 &&& ~~~(has p.1) == 0) &&
  queuesFit [] a.vqueues x.vqueues

/-- An assignment takes from a sublease a core, pipes or a Mill on which it has a strand placed (R341). -/
def State.withdraws (s : State) (x : Sub) (a : Assign) : Bool :=
  let pipes (ps : List (BitVec 9 × BitVec 8)) (f : BitVec 9) : BitVec 8 := ((ps.find? (fun p => p.1 == f)).map Prod.snd).getD 0
  s.ctxs.any (fun k =>
    let fe : BitVec 9 := k.self.extractLsb' 1 9
    let mill : BitVec 6 := k.self.extractLsb' 4 6
    k.active && k.lease == x.lease && k.sub == x.num &&
    ((!k.isMiller && (!a.cores.contains (k.self.extractLsb' 2 8) || pipes x.pipes fe &&& ~~~(pipes a.pipes fe) != 0)) ||
     ((s.mill k.cluster).holder == some k.nest && !a.mills.contains mill)))

/-- Create: a sublease, or for W with 0xFF as its number a lease, with `TIME` at 0 and a root of its own on every die (R23, log 19).
For a sublease that exists it gives it another assignment in place of the one it has (log 19). The root of stage 1 and the window
are L's to give (R1), and W's: S keeps those of its sublease, and its resources come from those that it has (R341). -/
def createSub : Serve := fun may r b s =>
  match b with
  | .createSublease a =>
    let v := s.reeve
    if r.tSub = 0xFF then
      if r.level != 3 then refuse s 1
      else if (s.lease? r.tLease).isSome || !s.shareOk a || !s.rootsOk a.s2roots then refuse s 2
      else match s.takeRoots a.s2roots with
        | .error s' => .wait (s.undone s')
        | .ok s =>
          let l : Lease := { num := r.tLease, roots := a.s2roots, offset := 0 - s.time, tolerance := 0
                             queue := none, cores := a.cores, mills := a.mills, ccs := a.ccs, vqueues := a.vqueues, pausedAt := none }
          done (({ s with reeve := { s.reeve with leases := s.reeve.leases ++ [l] } } : State).post .powerStateEntry .none)
    else if !may rCreate then refuse s 1
    else match s.lease? r.tLease with
      | none => refuse s 2
      | some l =>
        if !s.assignOk r.tLease r.tSub a || !l.admits s r.tSub a then refuse s 2
        else match s.sub? r.tLease r.tSub with
          | some x =>
            let own := decide (2 ≤ r.level.toNat)
            if !own && !x.admits a then refuse s 2
            else if s.withdraws x a then refuse s 4
            else done (s.modSub r.tLease r.tSub (fun x => { x with
              root := if own then a.s1root else x.root, window := if own then a.window else x.window
              cores := a.cores, pipes := a.pipes, mills := a.mills, vqueues := a.vqueues }))
          | none =>
            if r.level.toNat < 2 then refuse s 2 else
            let x : Sub := { lease := r.tLease, num := r.tSub, root := a.s1root, cores := a.cores, pipes := a.pipes, mills := a.mills
                             vqueues := a.vqueues, quota := 256, cap := 3, urn := 64, ldm := 0
                             ldmClear := Vector.replicate 4 0, queue := none, window := a.window }
            done { s with reeve := { v with subs := v.subs ++ [x] } }
  | _ => refuse s 2

namespace State

/-- Steps 2 and 4 of R347, begun or carried on: contexts whose lane threads run stop first. -/
def resetSteps (s : State) (l b : Byte) (own : Bool) (value : Word) : State :=
  let mine (k : Ctx) : Bool := k.lease == l && k.sub == b
  let s := s.mapCtxs (fun k => mine k && k.threading && (match k.phase with | .running | .asleep | .suspended => true | _ => false)) Ctx.stop
  let live (k : Ctx) : Bool := k.active && k.phase != .draining && mine k && !k.threading
  let s := (s.ctxs.filter live).foldl (fun s k =>
    if k.present then s.terminate k 0 own value else (s.endNotice k 0 own value).discardSaved k) s
  let armed (c : Coll) : Bool := c.lease == l && c.sub == b && (match c.state with | .ended _ => false | .armed | .started => true)
  (s.colls.filter armed).foldl (fun s c =>
    if s.pend.contains (.collectiveAbort, .op c.id) then s else s.post .collectiveAbort (.op c.id)) s

/-- A nest of a sublease that has nothing left to place and nothing placed waits to pay its pot (R347, step 1). -/
def owesPot (s : State) (l b : Byte) : Bool :=
  s.nests.any (fun n => n.lease == l && n.sub == b && !s.ctxs.any (fun k => k.active && k.nest == n.id))

/-- Nothing of a sublease moves any more. -/
def subQuiet (s : State) (l b : Byte) : Bool :=
  !s.nests.any (fun n => n.lease == l && n.sub == b) && !s.ctxs.any (fun k => k.active && k.lease == l && k.sub == b) && !s.busy l (some b) &&
  !s.colls.any (fun c => c.lease == l && c.sub == b && (match c.state with | .ended _ => false | .armed | .started => true))

/-- Steps 3 and 5 of R347: the contents of a sublease's virtual queues, its Field rows, Mills and way-groups are cleared; none
while a destroyed line of its way-groups is met first. Its mappings and streams have ended with its contexts. -/
def clearSub (s : State) (l b : Byte) : Option State :=
  let mine := some (l, b)
  let core (p : Nat × Core) : Nat × Core :=
    let half (i : Nat) : Bool := decide (128 ≤ i / 512)
    let gone (i : Nat) : Bool := (p.2.fe (half i)).rowsOwner == mine
    let fe (f : FrontEnd) : FrontEnd := if f.rowsOwner == mine then { f with rowsOwner := none } else f
    (p.1, { p.2 with field := p.2.field.filter (fun q => !gone q.1), fieldErr := p.2.fieldErr.filter (fun i => !gone i)
                     fe0 := fe p.2.fe0, fe1 := fe p.2.fe1 })
  let mill (p : Nat × Mill) : Nat × Mill := if p.2.owner == mine then (p.1, mill0) else p
  let groups (x : Die) : List Nat := [0, 1, 2].filter (fun g => x.ownerOf g == mine)
  if (List.range 4).any (fun d => let x := s.die (BitVec.ofNat 2 d); !(hurtWays x (groups x)).isEmpty) then none
  else
    let s := { s with cores := s.cores.map core, mills := s.mills.map mill, ue := s.ue.filter (fun m => !(m.lease == l && m.sub == b)) }
    some ((List.range 4).foldl (fun s d => let e := BitVec.ofNat 2 d; s.flushGroups e (groups (s.die e))) s)

/-- Destroyed dirty lines in the way-groups of a sublease are to be contained. -/
def postHurt (s : State) (l b : Byte) : State :=
  (List.range 4).foldl (fun s d =>
    let e := BitVec.ofNat 2 d
    let x := s.die e
    (hurtWays x ([0, 1, 2].filter (fun g => x.ownerOf g == some (l, b)))).foldl (fun s h =>
      s.post .dirtyL2UeContainment (.way e (BitVec.ofNat 8 h.1.slice) (BitVec.ofNat 5 h.1.set) (BitVec.ofNat 4 h.1.way)
        (BitVec.ofNat 2 h.2))) s) s

/-- A reset as far as it goes now: the state, and whether it is complete. -/
def resetSub (s : State) (l b : Byte) (own : Bool) (value : Word) : Bool × State :=
  let s := s.dropNests l b
  if s.owesPot l b then (false, s)
  else
  let s := s.resetSteps l b own value
  if !s.subQuiet l b then (false, s)
  else match s.clearSub l b with
    | none => (false, s.postHurt l b)
    | some s => (true, s)

end State

def resetReq : Serve := fun may r b s =>
  match b with
  | .resetSublease =>
    if !may rReset then refuse s 1
    else if (s.sub? r.tLease r.tSub).isNone then refuse s 2
    else match s.resetSub r.tLease r.tSub (r.level == 1) 1 with
      | (true, s) => done s
      | (false, s) => .wait s
  | _ => refuse s 2

/-- The sublease is gone, with the records that concern it and everything that is kept under its number. -/
def State.forgetSub (s : State) (l b : Byte) : State :=
  let v := s.reeve
  let mine (x y : Byte) : Bool := x == l && y == b
  { s with
    reeve := { v with
      subs := v.subs.filter (fun x => !mine x.lease x.num)
      delegs := v.delegs.filter (fun d => !(mine d.tLease d.tSub || (d.toLevel.toNat < 2 && mine d.toLease d.toSub))) }
    tlb := s.tlb.filter (fun e => !mine e.lease e.sub)
    walks := s.walks.filter (fun e => !(e.lease == l && e.sub == some b))
    gleans := s.gleans.filter (fun g => !mine g.lease g.sub)
    cores := s.cores.map (fun p => (p.1, { p.2 with fwd := p.2.fwd.filter (fun h => !mine h.lease h.sub) })) }

/-- Destroy: a reset, then the sublease is gone. -/
def destroyReq : Serve := fun may r b s =>
  match b with
  | .destroySublease =>
    if !may rCreate then refuse s 1
    else if (s.sub? r.tLease r.tSub).isNone then refuse s 2
    else match s.resetSub r.tLease r.tSub (r.level == 1) 2 with
      | (false, s) => .wait s
      | (true, s) => done (s.forgetSub r.tLease r.tSub)
  | _ => refuse s 2

/-! Map (R345). -/

/-- Where the entry of a stage 1 leaf stands: its device physical address. Missing tables give none. -/
def State.slot1 (s : State) (w : Who) (large : Bool) (va : Word) : Nat → Nat → ARes (Option Nat × State)
  | 0, _ => .ok (none, s)
  | n + 1, table => do
    let level := 3 - n
    let ea := table + 8 * entryIndex level va.toNat
    let (l2, s) ← s.stage2 w true ea
    match l2 with
    | none => .ok (none, s)
    | some l2 =>
      let pa := leafPa l2 ea
      if level = 3 || (level = 2 && large) then .ok (some pa, s)
      else
        let (e, s) ← s.readEntry w pa
        match parseEntry false level e with
        | .ptr t => s.slot1 w large va n t
        | _ => .ok (none, s)

/-- What keeps the Reeve from writing a leaf: a status, or a wait. -/
inductive MapStop
  | status (n : Nat)
  | wait (s : State)
deriving DecidableEq, Repr

/-- A write of the Reeve on the way. -/
def State.mapStore (s : State) (pa : Nat) (bs : List Byte) : Except MapStop State :=
  match s.reeveStore pa bs with
  | .ok s => .ok s
  | .error s => .error (.wait s)

/-- Where the entry of a stage 2 leaf stands, with the tables on the way, which the Reeve makes from free frames. -/
def State.slot2 (s : State) (w : Who) (large : Bool) (la : Nat) : Nat → Nat → Except MapStop (Nat × State)
  | 0, _ => .error (.status 2)
  | n + 1, table =>
    let level := 3 - n
    let pa := table + 8 * entryIndex level la
    if level = 3 || (level = 2 && large) then .ok (pa, s)
    else match s.readEntry w pa with
      | .error (.fault _ _) => .error (.status 2)
      | .error (.wait s) => .error (.wait s)
      | .ok (e, s) =>
        match parseEntry true level e with
        | .ptr t => s.slot2 w large la n t
        | .leaf _ => .error (.status 2)
        | .bad =>
          match s.takeFrame (dieOfPa table) 0 with
          | (none, _) => .error (.status 5)
          | (some t, s) => do
            let s ← ({ s with reeve := { s.reeve with used := s.reeve.used ++ [t] } } : State).mapStore t (List.replicate 65536 0)
            let s ← s.mapStore pa (leBytes 8 (0xC000000000000000 + t))
            s.slot2 w large la n t

/-- A leaf or an invalid entry that may be written. -/
def mapEntryOk (stage2 large : Bool) (die : BitVec 2) (e : Word) : Bool :=
  !bitAt e 63 ||
  (match parseEntry stage2 (if large then 2 else 3) e with
   | .leaf l => !stage2 || leaf2Ok die l
   | _ => false)

/-- Frames that a stage 2 leaf of a lease may name. In package DRAM: none that another lease has (R340), that is retired
(R324), or that holds a table of the Reeve's. Of device space: the lease's own request window, since the counters are mapped for W
alone (R355). -/
def State.framesFree (s : State) (l : Byte) (e : Word) (size : Nat) : Bool :=
  let pa := bits e 51 16 * 65536
  if !bitAt e 63 then true
  else if !isDram pa then !isDeviceRegion pa || pa == 0x8000000000 + 65536 * l.toNat
  else
    !(s.leavesOver pa size).any (fun f => f.lease != l) &&
    !(s.reeve.retired ++ s.reeve.used).any (fun f => decide (pa < f + 65536) && decide (f < pa + size))

/-- The leaf stands; the `tlbinv` that it needs (R174) completes before the answer. -/
def mapLeaf2 (r : Req) (large : Bool) (die : BitVec 2) (addr e : Word) (root : Nat) (s : State) : Except MapStop State := do
  let size := if large then 2 ^ 29 else 2 ^ 16
  let w : Who := { State.reeveWho die.toNat with lease := r.tLease, sub := r.tSub }
  let (pa, s) ← s.slot2 w large addr.toNat 3 root
  let s ← s.mapStore pa (leBytes 8 e.toNat)
  .ok (s.dropTlb r.tLease none (fun t => decide (t.ipa < addr.toNat + size) && decide (addr.toNat < t.ipa + 2 ^ t.size)))

/-- The same in stage 1, in place of an entry that may be replaced. -/
def mapLeaf1 (r : Req) (large : Bool) (die : BitVec 2) (addr e : Word) (root : Nat) (owns : TEntry → Bool) (s : State) :
    Except MapStop State :=
  let size := if large then 2 ^ 29 else 2 ^ 16
  let w : Who := { State.reeveWho die.toNat with lease := r.tLease, sub := r.tSub }
  match s.slot1 w large addr 3 root with
  | .error (.fault _ _) => .error (.status 2)
  | .error (.wait s) => .error (.wait s)
  | .ok (none, _) => .error (.status 2)
  | .ok (some pa, s) =>
    match s.readEntry w pa with
    | .error (.fault _ _) => .error (.status 2)
    | .error (.wait s) => .error (.wait s)
    | .ok (old, s) =>
      if !owns (parseEntry false (if large then 2 else 3) old) then .error (.status 2)
      else do
        let s ← s.mapStore pa (leBytes 8 e.toNat)
        let near (v : Nat) (n : Nat) : Bool := decide (v < addr.toNat + size) && decide (addr.toNat < v + n)
        .ok (s.dropTlb r.tLease (some r.tSub) (fun t => near (t.va * 2 ^ t.size) (2 ^ t.size)))

/-- What the writing of a leaf comes to. -/
def mapped (s : State) : Except MapStop State → Served
  | .ok s => done s
  | .error (.status n) => refuse s n
  | .error (.wait s') => .wait (s.undone s')

/-- Map (R345): from W stage 2 leaves of a lease; stage 1 leaves from L for a sublease of its own, and from S for its own
sublease within the window that L has granted, where what S replaces lies in the window too. -/
def mapReq : Serve := fun may r b s =>
  match b with
  | .map stage2 large die addr e =>
    let size := if large then 2 ^ 29 else 2 ^ 16
    if !may rMap then refuse s 1
    else if stage2 then
      if r.level != 3 then refuse s 1
      else match s.lease? r.tLease with
        | none => refuse s 2
        | some l =>
          if addr.toNat % size != 0 || decide (2 ^ 52 ≤ addr.toNat) || !mapEntryOk true large die e ||
              !s.framesFree r.tLease e size then refuse s 2
          else if s.busy r.tLease none then .wait s
          else mapped s (mapLeaf2 r large die addr e ((l.roots[die.toNat]'die.isLt).toNat) s)
    else match s.sub? r.tLease r.tSub with
      | none => refuse s 2
      | some x =>
        let la := bits e 51 16 * 65536
        let inWindow (la : Nat) : Bool :=
          x.window.any (fun p => decide (p.1.toNat ≤ la) && decide (la + size ≤ p.1.toNat + p.2.toNat))
        let owns (t : TEntry) : Bool := r.level == 2 || (match t with | .bad => true | .ptr _ => false | .leaf l => inWindow l.addr)
        let agent := r.lease == r.tLease && (r.level == 2 || (r.level == 1 && r.sub == r.tSub && (!bitAt e 63 || inWindow la)))
        if !agent || addr.toNat % size != 0 || !canonical addr || !mapEntryOk false large die e then refuse s 2
        else if s.busy r.tLease (some r.tSub) then .wait s
        else mapped s (mapLeaf1 r large die addr e x.root.toNat owns s)
  | _ => refuse s 2

/-! Limits, occupants, counters. -/

def limitsReq : Serve := fun may r b s =>
  match b with
  | .setLimits cap quota urn =>
    if !may rPriority then refuse s 1
    else if (s.sub? r.tLease r.tSub).isNone || decide (256 < quota.toNat) || urn = 0 || decide (64 < urn.toNat) then refuse s 2
    else done (s.modSub r.tLease r.tSub (fun x => { x with cap := cap, quota := quota, urn := urn }))
  | _ => refuse s 2

/-- Cores of an occupant of a slot. -/
def State.occCores (s : State) (o : Nat) : List (BitVec 8) :=
  ((s.sub? (BitVec.ofNat 8 (o / 256)) (BitVec.ofNat 8 o)).map Sub.cores).getD []

/-- Set occupants (R342): from W, or from a lease handler, which changes only sublease numbers within slots of its lease, to one that
the target over which it holds the right covers; a way-group outside its lease, and one of none, is answered with status 2
(R341). -/
def occupantsReq : Serve := fun may r b s =>
  match b with
  | .setOccupants d slot e =>
    let old := (s.die d).slots.toList.getD slot.toNat slot0
    let g (e : Word) : List Nat := [0, 1, 2].map (State.occOf e)
    let mine := bits old 63 48 == bits e 63 48 && ((g old).zip (g e)).all (fun p =>
      p.1 == p.2 || (p.1 != 0xFFFF && p.2 != 0xFFFF && decide (p.1 / 256 = r.lease.toNat) && decide (p.2 / 256 = r.lease.toNat) &&
        r.tLease == r.lease && (r.tSub == 0xFF || decide (p.2 % 256 = r.tSub.toNat))))
    let meet (i j : Nat) : Bool :=
      let a := State.occOf e i
      let c := State.occOf e j
      a != 0xFFFF && c != 0xFFFF && (s.occCores a).any (fun k => (s.occCores c).contains k)
    if !may rPriority || r.level.toNat < 2 then refuse s 1
    else if !(r.level == 3 || mine) || meet 0 1 || meet 0 2 || meet 1 2 || (bitAt e 63 && bits e 62 48 == 0) then refuse s 2
    else done (s.modDie d (fun x => { x with slots := x.slots.setIfInBounds slot.toNat e }))
  | _ => refuse s 2

/-- Read counters (R354): seven from the first on; one whose filter lies outside the target reads 0. -/
def countersReq : Serve := fun may r b s =>
  match b with
  | .readCounters d first =>
    if !may rCounters then refuse s 1
    else
      let x := s.die d
      let one (i : Nat) : Word :=
        let sel := x.selects.toList.getD i 0
        let l := bits sel 31 24
        let k := bits sel 23 16
        let within := (r.level == 3 && bits sel 31 16 == 0xFFFF) ||
          (decide (l = r.tLease.toNat) && (r.tSub == 0xFF || decide (k = r.tSub.toNat)))
        if within then x.counts.toList.getD i 0 else 0
      .answer 0 ((List.range 7).map (fun i => one (first.toNat + i))) s
  | _ => refuse s 2

/-! Injection (R328, R345). -/

/-- Lease addresses that a sublease's stage 1 leaves reach, below a table page: first and count. -/
def State.reaches (s : State) (w : Who) : Nat → Nat → List (Nat × Nat)
  | 0, _ => []
  | n + 1, table =>
    let level := 3 - n
    match s.stage2 w true table with
    | .error _ | .ok (none, _) => []
    | .ok (some l2, _) =>
      let page := leafPa l2 table
      (s.tableEntries page 8192).flatMap (fun p =>
        match parseEntry false level p.2 with
        | .bad => []
        | .ptr t => s.reaches w n t
        | .leaf l => [(l.addr, 2 ^ l.size)])

/-- The line or core that a value names lies in the target's frames or cores. -/
def State.injectsWithin (s : State) (r : Req) (v : Word) : Bool :=
  if bits v 62 60 = 2 then
    let c : BitVec 8 := BitVec.ofNat 8 (bits v 9 2)
    if r.tSub = 0xFF then (s.lease? r.tLease).any (fun l => l.cores.contains c)
    else (s.sub? r.tLease r.tSub).any (fun x => x.cores.contains c)
  else
    let pa := bits v 47 0
    (s.leavesOf pa).any (fun f => f.lease == r.tLease &&
      (r.tSub == 0xFF || (s.sub? r.tLease r.tSub).any (fun x =>
        let la := f.addr + (pa - f.leaf.addr)
        (s.reaches { State.reeveWho f.die.toNat with lease := r.tLease, sub := r.tSub } 3 x.root.toNat).any (fun p =>
          decide (p.1 ≤ la) && decide (la < p.1 + p.2)))))

def injectReq : Serve := fun may r b s =>
  match b with
  | .injectError d v =>
    let t := bits v 62 60
    if !may rInject || (t = 3 || t = 4) && r.level != 3 then refuse s 1
    else if !errinjOk d v || (decide (t < 3) && !s.injectsWithin r v) then refuse s 2
    else done (s.setErrinj d v)
  | _ => refuse s 2

/-! Delegation (R346). -/

/-- Delegate: rights held over a target, which is the holder's own or lies inside it, to the next level down: from W to a
lease, from L to a sublease of its lease, from S to its programs. A record that rests on revoked ones goes with them at the next
slot boundary. -/
def delegateReq : Serve := fun may r b s =>
  match b with
  | .delegate tl ts rights =>
    let target := if r.tSub = 0xFF then (s.lease? r.tLease).isSome else (s.sub? r.tLease r.tSub).isSome
    let place :=
      match r.level.toNat with
      | 3 => ts == 0xFF && (s.lease? tl).isSome
      | 2 => tl == r.lease && (s.sub? tl ts).isSome
      | 1 => tl == r.lease && ts == r.sub
      | _ => false
    if r.level = 0 || !s.holder r || !(List.range 6).all (fun k => !rights.getLsbD k || may k) then refuse s 1
    else if !place || !target then refuse s 2
    else
      let d : Deleg := { byLevel := r.level, byLease := r.lease, bySub := r.sub, toLevel := r.level - 1, toLease := tl, toSub := ts
                         tLease := r.tLease, tSub := r.tSub, rights := rights, revoked := false }
      done { s with reeve := { s.reeve with delegs := s.reeve.delegs ++ [{ d with revoked := d.orphan s.reeve.delegs }] } }
  | _ => refuse s 2

/-- Revoke: the delegator's records to a holder over the target, and all derived from them; until the next slot
boundary they still count. -/
def revokeReq : Serve := fun _ r b s =>
  match b with
  | .revoke tl ts =>
    let mine (d : Deleg) : Bool := d.byLevel == r.level && (r.level == 3 || d.byLease == r.lease) &&
      (decide (2 ≤ r.level.toNat) || d.bySub == r.sub) && d.toLease == tl && d.toSub == ts && d.tLease == r.tLease && d.tSub == r.tSub
    if !s.reeve.delegs.any mine then refuse s 2
    else
      let spread (l : List Deleg) : List Deleg :=
        l.map (fun d => if d.orphan l then { d with revoked := true } else d)
      let l := s.reeve.delegs.map (fun d => if mine d then { d with revoked := true } else d)
      done { s with reeve := { s.reeve with delegs := spread (spread l) } }
  | _ => refuse s 2

/-! Event queues and the delegation mask (R372, R311). -/

/-- Register event queue: every entry is mapped with Read and Write, class ordinary, and is zeroed. -/
def queueReq : Serve := fun _ r b s =>
  match b with
  | .registerEventQueue base k =>
    let known := match r.level.toNat with
      | 1 => (s.sub? r.lease r.sub).isSome
      | 2 => (s.lease? r.lease).isSome
      | n => n == 3
    if r.level = 0 || !known then refuse s 1
    else if base.toNat % 64 != 0 || decide (k.toNat < 4) || decide (16 < k.toNat) then refuse s 2
    else
      let one (st : List (Option Nat) × State) (i : Nat) : Except State (List (Option Nat) × State) := do
        let (p, s) ← st.2.queueAt r.level r.lease r.sub (base + word (64 * i))
        .ok (st.1 ++ [p], s)
      match foldE one (([], s) : List (Option Nat) × State) (List.range (2 ^ k.toNat)) with
      | .error s' => .wait (s.undone s')
      | .ok (ps, t) =>
        if ps.any Option.isNone then refuse s 2
        else match foldE (fun (s : State) p => s.reeveStore p (List.replicate 64 0)) t (ps.filterMap id) with
          | .error s' => .wait (s.undone s')
          | .ok s => done (s.setQueue r.level r.lease r.sub (some { base := base, k := k.toNat, next := 0 }))
  | _ => refuse s 2

/-- Set LDM: bits set count at once, bits cleared until the boundary of each die. -/
def ldmReq : Serve := fun _ r b s =>
  match b with
  | .setLdm v =>
    if !Req.isLevel r 2 then refuse s 1
    else if (s.sub? r.tLease r.tSub).isNone || v &&& ~~~0x700 != 0 then refuse s 2
    else done (s.modSub r.tLease r.tSub (fun x => { x with
      ldm := v, ldmClear := x.ldmClear.map (fun c => (c ||| (x.ldm &&& ~~~v)) &&& ~~~v) }))
  | _ => refuse s 2

/-! Answers to a trap (R312, R315, R331), context access, breakpoints. -/

/-- The context of the target that a request names: present, or saved. -/
def State.targetCtx (s : State) (r : Req) (c : CtxId) : Option Ctx :=
  s.ctxs.find? (fun k => k.id == c && k.active && k.lease == r.tLease && k.sub == r.tSub)

/-- What the context does, or did when it stopped. -/
def Ctx.doing (k : Ctx) : Phase := (k.area.map SaveArea.phase).getD k.phase

/-- A suspended context runs on: as by `tret`, or under R315 with the trapping instruction again. A held instruction is
dispatched when the context has its turn. -/
def Ctx.resumed (k : Ctx) (nested : Bool) : Ctx :=
  let k := { (if nested || k.resumes.isSome then k else k.returned) with awaits := none }
  match k.area with
  | none => { k with phase := .running }
  | some a => { k with area := some { a with phase := .running } }

/-- Serves an answer to the trap that a context awaits. -/
def answer (r : Req) (c : CtxId) (s : State) (k : Ctx → Await → Served) : Served :=
  match s.targetCtx r c with
  | none => refuse s 2
  | some x =>
    match x.awaits with
    | none => refuse s 2
    | some a => if !Req.isLevel r a.level then refuse s 1 else if x.doing != .suspended then refuse s 2 else k x a

def resumeReq : Serve := fun _ r b s =>
  match b with
  | .resume c => answer r c s (fun x a =>
      done (s.mapCtxs (fun k => k.id == x.id && k.lease == x.lease && k.sub == x.sub && k.active) (fun k => k.resumed a.nested)))
  | _ => refuse s 2

/-- Terminate: the trap's own cause, or 0x30 where W answers; S is told unless it has asked itself (R314). -/
def terminateReq : Serve := fun _ r b s =>
  match b with
  | .terminate c => answer r c s (fun x a =>
      let own := r.level == 1
      let cause := if r.level = 3 then 0x30 else a.cause.toNat
      done (if x.present then s.terminate x cause own a.tval
        else (s.endNotice x cause own a.tval).discardSaved x))
  | _ => refuse s 2

/-- Reads a register of a context and may write it, under its field rules; one of R158 by a level that has it. -/
def accessReg (level : Nat) (reg : CtxReg) (v : Option Word) (s : State) : Option (Word × State) :=
  let c := s.ctx
  match reg with
  | .x q => some (c.getX q, match v with | none => s | some w => { s with ctx := c.setX q w })
  | .h q => some (c.getH q, match v with | none => s | some w => { s with ctx := c.setH q w })
  | .pc => some (c.pc, match v with | none => s | some w => { s with ctx := { c with pc := w } })
  | .plot q =>
    match v with
    | none => some (c.plot q, s)
    | some w =>
      if c.isMiller || (plotValid w && !plotLegal w (s.rows c.core c.fe)) then none
      else some (c.plot q, { s with ctx := c.setPlot q (if plotValid w then w else 0) })
  | .mask m i =>
    let old := (c.mask m).extractLsb' (64 * i.toNat) 64
    match v with
    | none => some (old, s)
    | some w => some (old, { s with ctx := c.setMask m ((c.mask m) ^^^ ((old ^^^ w).setWidth 4096 <<< (64 * i.toNat))) })
  | .front f i =>
    let ws := (c.front f).image
    match ws[i.toNat]? with
    | none => none
    | some old =>
      match v with
      | none => some (old, s)
      | some w =>
        match Front.ofImage (ws.set i.toNat w) with
        | none => none
        | some x => some (old, { s with ctx := c.setFront f x })
  | .ctl n =>
    match ctlLevels n.toNat with
    | none => none
    | some (rd, wr) =>
      if (c.isMiller && !millerCtl n.toNat) || decide (level < rd) then none
      else match v with
        | none => some (s.ctlValue n.toNat, s)
        | some w => if wr.any (fun l => decide (l ≤ level)) && s.ctlOk n.toNat w then some (s.ctlValue n.toNat, s.ctlSet n.toNat w) else none

/-- Context access: a suspended context, by the level that received its trap. -/
def contextReq : Serve := fun _ r b s =>
  match b with
  | .contextAccess c reg v => answer r c s (fun x _ =>
      let here (s : State) : State := { s with ctx := x, others := s.ctx :: s.others.erase x, lane := none }
      match accessReg r.level.toNat reg v (if x = s.ctx then s else here s) with
      | none => refuse s 2
      | some (old, _) =>
        let write (t : State) : State := match accessReg r.level.toNat reg v t with | none => t | some p => p.2
        .answer 0 [old] (s.withCtx x write))
  | _ => refuse s 2

/-- Breakpoint (R345, R308): S or L of the context's sublease. -/
def breakpointReq : Serve := fun _ r b s =>
  match b with
  | .breakpoint c arm a =>
    if !(Req.isLevel r 1 || Req.isLevel r 2) then refuse s 1
    else match s.targetCtx r c with
      | none => refuse s 2
      | some x =>
        let set (f : List Word → List Word) : Served :=
          done (s.mapCtxs (fun k => k.id == x.id && k.lease == x.lease && k.sub == x.sub && k.active) (fun k => { k with breaks := f k.breaks }))
        if !arm then set (fun l => l.filter (fun k => k != a))
        else if x.breaks.contains a then done s
        else if 4 ≤ x.breaks.length then refuse s 5
        else set (fun l => l ++ [a])
  | _ => refuse s 2

/-! Launch (R345, R265). -/

/-- The record's words read for a sublease; a marked word reads 0 (log 25). -/
def State.recordAt (s : State) (w : Who) (va : Word) : ARes (List Word × State) :=
  if va.toNat % 128 != 0 then .error (.fault s { cause := 0x04, tval := va })
  else do
    let (e, s) ← s.checked w ctx0 .engine .load .strand 8 va 128
    let pa := e.phys va
    if s.ownedLine (pa / 128) false then .error (.wait s)
    else match s.detectLine w (pa / 128) with
      | .error s => .error (.wait s)
      | .ok s =>
        let s := s.touch w .l2 (pa / 128) false false .no
        .ok ((List.range 16).map (fun i => if s.poisonedAt (pa + 8 * i) 8 then 0 else word (s.mem.num (pa + 8 * i) 8)), s)

/-- Launch on a named die, by any level of the sublease or above it. -/
def launchReq : Serve := fun _ r b s =>
  match b with
  | .launchRequest d va =>
    let may := r.level == 3 || (r.lease == r.tLease && (r.level == 2 || r.sub == r.tSub))
    let w : Who := { lease := r.tLease, sub := r.tSub, die := d }
    if !may then refuse s 1
    else if (s.sub? r.tLease r.tSub).isNone then refuse s 2
    else match s.recordAt w va with
      | .error (.fault s f) => .answer 2 [word f.cause, f.tval] s
      | .error (.wait s) => .wait s
      | .ok (ws, s) =>
        if !nestOk ws then .answer 2 [0x1C, va] s
        else match launchAddrs s w ctx0 ws with
          | .error (.fault s f) => .answer 2 [word f.cause, f.tval] s
          | .error (.wait s) => .wait s
          | .ok s =>
            if s.poolFull d r.tLease r.tSub then refuse s 4
            else done (s.acceptNest d r.tLease r.tSub r.level ws)
  | _ => refuse s 2

/-! Black box, power, attestation, quarantine (R330, R352, R351, R325). -/

/-- Read black box: the first entry from a sequence number on, of the lease for L, of all for W. -/
def blackBoxReq : Serve := fun _ r b s =>
  match b with
  | .readBlackBox first =>
    if !Req.isLevel r 2 then refuse s 1
    else
      let mine (e : BlackBox) : Bool := decide (first.toNat ≤ e.seq.toNat) && (r.level == 3 || bits e.header 47 40 == r.lease.toNat)
      match s.reeve.box.find? mine with
      | none => done s
      | some e => .answer 0 [e.seq, e.time, e.header, e.detail] s
  | _ => refuse s 2

/-- Power: the lease's tolerance, and the states it allows. -/
def powerReq : Serve := fun _ r b s =>
  match b with
  | .power us =>
    if !s.holder r then refuse s 1
    else if (s.lease? r.tLease).isNone then refuse s 2
    else done ((s.modLease r.tLease (fun l => { l with tolerance := us.setWidth 64 })).post .powerStateEntry .none)
  | _ => refuse s 2

/-- The way-groups that the slot tables give to a lease, or to a sublease: die, slot and group. -/
def State.groupsGiven (s : State) (l b : Byte) : List Nat :=
  (List.range 4).flatMap (fun d => (List.range 64).flatMap (fun i =>
    let e := (s.die (BitVec.ofNat 2 d)).slots.toList.getD i slot0
    ([0, 1, 2].filter (fun g => bitAt e 63 && decide (State.occOf e g / 256 = l.toNat) &&
      (b == 0xFF || decide (State.occOf e g % 256 = b.toNat)))).flatMap (fun g => [d, i, g])))

/-- What a target has been assigned of each kind of R340, as numbers: of the lease, or of a sublease. Each kind stands behind its
length. -/
def State.assignment (s : State) (l b : Byte) : List Nat :=
  let flat (ls : List (List Nat)) : List Nat := ls.flatMap (fun x => x.length :: x)
  if b = 0xFF then
    let frames := (s.leavesOver 0 (2 ^ 39)).filter (fun f => f.lease == l)
    ((s.lease? l).map (fun k => flat [k.cores.map BitVec.toNat, k.mills.map BitVec.toNat, k.ccs.map BitVec.toNat,
      k.vqueues.toList.map BitVec.toNat, frames.flatMap (fun f => [f.die.toNat, f.leaf.addr, f.leaf.size]), s.groupsGiven l b])).getD []
  else
    let frames (k : Sub) : List (Nat × Nat) := s.reaches { State.reeveWho 0 with lease := l, sub := b } 3 k.root.toNat
    ((s.sub? l b).map (fun k => flat [k.cores.map BitVec.toNat, k.mills.map BitVec.toNat,
      k.pipes.flatMap (fun p => [p.1.toNat, p.2.toNat]), k.vqueues.toList.map BitVec.toNat,
      (frames k).flatMap (fun p => [p.1, p.2]), s.groupsGiven l b, [k.quota.toNat, k.cap.toNat, k.urn.toNat]])).getD []

/-- The quote of R351: the signature is over everything else in it. -/
def State.quote (s : State) (r : Req) (nonce : BitVec 256) : Quote :=
  let v := s.reeve
  let part := Config.shake256 (Config.quoteBytes (s.assignment r.tLease r.tSub))
  let all := [v.serial.toNat, part.toNat, nonce.toNat, v.leaf] ++ v.measurements.map BitVec.toNat
  { serial := v.serial, measurements := v.measurements, partition := part, nonce := nonce, leaf := v.leaf
    signature := Config.xmssSign v.leaf (Config.quoteBytes all) }

/-- Attest: the counter of leaves advances before the quote is given. The quote, which no response of 64 bytes holds, goes out
beside the response, whose first result is the leaf index (log 15). -/
def attestReq : Serve := fun _ r b s =>
  match b with
  | .attest nonce =>
    if !s.holder r then refuse s 1
    else if 2 ^ 20 ≤ s.reeve.leaf then refuse s 5
    else
      let v := s.reeve
      .answer 0 [word v.leaf] { s with reeve := { v with leaf := v.leaf + 1, quotes := v.quotes ++ [s.quote r nonce] } }
  | _ => refuse s 2

/-- Release quarantine: W only. -/
def quarantineReq : Serve := fun _ r b s =>
  match b with
  | .releaseQuarantine d slice way =>
    if r.level != 3 then refuse s 1
    else if !(s.die d).quarantined.contains (slice.toNat, way.toNat) then refuse s 2
    else done (s.modDie d (fun x => { x with quarantined := x.quarantined.erase (slice.toNat, way.toNat) }))
  | _ => refuse s 2

/-! The steps. -/

def execCreateSublease (s : State) := serve .createSublease createSub s
def execDestroySublease (s : State) := serve .destroySublease destroyReq s
def execMap (s : State) := serve .map mapReq s
def execSetLimits (s : State) := serve .setLimits limitsReq s
def execSetOccupants (s : State) := serve .setOccupants occupantsReq s
def execReadCounters (s : State) := serve .readCounters countersReq s
def execResetSublease (s : State) := serve .resetSublease resetReq s
def execInjectError (s : State) := serve .injectError injectReq s
def execDelegate (s : State) := serve .delegate delegateReq s
def execRevoke (s : State) := serve .revoke revokeReq s
def execRegisterEventQueue (s : State) := serve .registerEventQueue queueReq s
def execSetLdm (s : State) := serve .setLdm ldmReq s
def execResume (s : State) := serve .resume resumeReq s
def execTerminate (s : State) := serve .terminate terminateReq s
def execContextAccess (s : State) := serve .contextAccess contextReq s
def execBreakpoint (s : State) := serve .breakpoint breakpointReq s
def execLaunchRequest (s : State) := serve .launchRequest launchReq s
def execReadBlackBox (s : State) := serve .readBlackBox blackBoxReq s
def execPower (s : State) := serve .power powerReq s
def execAttest (s : State) := serve .attest attestReq s
def execReleaseQuarantine (s : State) := serve .releaseQuarantine quarantineReq s

end Sys2Proof.Machine
end

