-- ==== Sys2Proof/Machine/VMove.lean ====
section
/-! DEFINITION. Moving elements across lanes and unpacking, major 0x37 (R220, R222-R224). -/

namespace Sys2Proof.Machine

/-- An instruction of PM0 with a destination plot (R107). -/
def pmSpec (t : ETy) (o : VOpts) (vd : VReg) (srcs : List (VReg × Option Nat)) (cross : Bool) : VSpec :=
  { unit := 3, o := o, dest := some (vd, some (ETy.cells t)), srcs := srcs, lenOf := [vd], cross := cross
    scalarRes := false, governed := true }

/-- Element e of the destination receives what `src` answers, or is not written. -/
def VRun.move (r : VRun) (t : ETy) (vd : VReg) (src : Nat → Option (Nat × Bool)) : Res State :=
  r.loop (ETy.canon t) (fun e => { res := plainRes ((src e).getD (0, false)).1, bad := ((src e).getD (0, false)).2 })
    (fun s e v => if (src e).isSome then s.setElem vd e v else s) r.src

/-- A movement instruction with dispatch checks of its own; `takes` names the source elements that element e takes. -/
def moveBody (k : VSpec) (t : ETy) (vd : VReg) (ok : Bool) (takes : VRun → Nat → List (VReg × Nat))
    (src : VRun → Nat → Option (Nat × Bool)) (en : VQEntry) (s : State) : Res State := do
  let r ← vbegin en k s
  vcheck r.entry k ok r.src 0x02
  let r := r.taking (takes r)
  let s ← r.move t vd (src r)
  r.done s

/-- The same where element e receives element `j e` of one source plot, or is not written. -/
def shiftBody (t : ETy) (o : VOpts) (vd va : VReg) (ok : Bool) (j : VRun → Nat → Option Nat) : VQEntry → State → Res State :=
  moveBody (pmSpec t o vd [(va, some (ETy.cells t))] true) t vd ok (fun r e => ((j r e).map (fun i => (va, i))).toList)
    (fun r e => (j r e).map (r.get va t))

/-- The count or element number k (R222). -/
def VCount.val (k : VCount) (en : VQEntry) : Nat :=
  match k with
  | .imm n => n.toNat
  | .reg x => (en.xs[x.toNat]'x.isLt).toNat

def vpermBody (t : ETy) (o : VOpts) (vd va vb : VReg) : VQEntry → State → Res State :=
  let c := some (ETy.cells t)
  moveBody (pmSpec t o vd [(va, c), (vb, c)] true) t vd true (fun r e => [(vb, e), (va, (r.get vb t e).1)]) (fun r e =>
    let j := r.get vb t e
    let x := r.get va t (if j.2 then 0 else j.1)
    some (x.1, x.2 || j.2))

def vslideupBody (t : ETy) (o : VOpts) (vd va : VReg) (k : VCount) (en : VQEntry) : State → Res State :=
  let n := VCount.val k en
  shiftBody t o vd va true (fun _ e => if n ≤ e then some (e - n) else none) en

def vslidednBody (t : ETy) (o : VOpts) (vd va : VReg) (k : VCount) (en : VQEntry) : State → Res State :=
  shiftBody t o vd va true (fun _ e => some (e + VCount.val k en)) en

def vbcastBody (t : ETy) (o : VOpts) (vd va : VReg) (k : VCount) (en : VQEntry) : State → Res State :=
  shiftBody t o vd va true (fun _ _ => some (VCount.val k en)) en

/-- The set bits of a mask below n, rising. -/
def maskList (s : State) (m : MReg) (n : Nat) : List Nat := (List.range n).filter (fun e => (s.ctx.mask m).getLsbD e)

def vcompressBody (lq : Bool) (t : ETy) (o : VOpts) (vd va : VReg) (mc : MReg) (en : VQEntry) (s : State) : Res State := do
  let k := pmSpec t o vd [(va, some (ETy.cells t))] true
  let r ← vbegin en k s
  vcheck r.entry k (o.mask == 0 && !o.inv && (!lq || decide (r.src.ctx.lq.length < 16))) r.src 0x02
  let l := maskList r.src mc r.len
  let r := r.taking (fun e => ((l[e]?).map (fun j => (va, j))).toList)
  let s ← r.move t vd (fun e => (l[e]?).map (fun j => r.get va t j))
  r.done (if lq then { s with ctx := { s.ctx with lq := s.ctx.lq ++ [l.length] } } else s)

def vexpandBody (t : ETy) (o : VOpts) (vd va : VReg) (mc : MReg) : VQEntry → State → Res State :=
  shiftBody t o vd va (o.mask == 0 && !o.inv) (fun r e =>
    if (r.src.ctx.mask mc).getLsbD e then some (maskList r.src mc e).length else none)

def vinsertBody (t : ETy) (o : VOpts) (vd : VReg) (xs : XReg) (k : VCount) (en : VQEntry) : State → Res State :=
  moveBody (pmSpec t o vd [] false) t vd true (fun _ _ => []) (fun _ e =>
    if e = VCount.val k en then some ((en.xs[xs.toNat]'xs.isLt).toNat % 2 ^ ETy.width t, false) else none) en

/-- A scalar result widened (R210, R224). -/
def widen (t : ETy) (n : Nat) : Word :=
  match t with
  | .i32 => wordI (sextN 32 n)
  | .bf16 | .f32 | .f64 | .i64 => word n

def vextractBody (t : ETy) (o : VOpts) (xd : XReg) (va : VReg) (k : VCount) (en : VQEntry) (s : State) : Res State := do
  let r ← vbegin en { redSpec t o va with unit := 5 } s
  let i := VCount.val k en
  let fault := if i < r.vl && i < plotCount (r.src.plotOf va) then r.src.inputFault va i else none
  let r := { r with sfault := fault.map (fun f => (i, f)) }
  r.whole r.src
  let (s, lost) := if i < r.len then r.lane r.src i else (r.src, false)
  let x := if lost then (ETy.canon t, false) else r.get va t i
  r.done ((s.vectorPoison x.2).sendX xd (widen t x.1))

/-- `vunpk` (R220): groups held as 16-bit units, each with its scale unit first. -/
def vunpkBody (t : ETy) (o : VOpts) (vd va : VReg) (en : VQEntry) (s : State) : Res State := do
  let m := mform s.ctx.mfmt
  let k := pmSpec t o vd [(va, some 1)] true
  let r ← vbegin en k s
  match m.enc with
  | .group q3 =>
    let bs := r.src.blockSize
    vcheck r.entry k (decide (r.len % bs = 0)) r.src 0x02
    let u := groupBytes q3 bs / 2
    let w := codeBits q3
    let unit (e i : Nat) : Nat × Bool := r.get va .bf16 (e / bs * u + i)
    let elem (e : Nat) : (Nat × Bool) × Bool :=
      let j := e % bs
      let lo := w * j / 16
      let us := (List.range (u - 1)).map (fun i => unit e (i + 1))
      let packed := unitsNum (us.map (fun x => some x.1))
      let bad := (unit e 0).2 || (us.getD lo (0, false)).2 || (us.getD ((w * j + w - 1) / 16) (0, false)).2
      (if bad then (ETy.canon t, false) else loadConv m.enc m.sat t (some (unit e 0).1) (codeAt q3 packed j), bad)
    let r := r.taking (fun e => (List.range u).map (fun i => (va, e / bs * u + i)))
    let s ← r.loop (ETy.canon t) (fun e => { res := { bits := e, flags := 0 }, bad := (elem e).2 })
      (fun s e _ => ((s.clampIf (elem e).1.2).setElem vd e (elem e).1.1)) r.src
    r.done s
  | .native | .fp _ | .int _ _ => vcheck r.entry k false r.src 0x02; .ok r.src

def execVperm (t : ETy) (o : VOpts) (vd va vb : VReg) (s : State) := vissue (.vperm t o vd va vb) (vpermBody t o vd va vb) s
def execVslideup (t : ETy) (o : VOpts) (vd va : VReg) (k : VCount) (s : State) :=
  vissue (.vslideup t o vd va k) (vslideupBody t o vd va k) s
def execVslidedn (t : ETy) (o : VOpts) (vd va : VReg) (k : VCount) (s : State) :=
  vissue (.vslidedn t o vd va k) (vslidednBody t o vd va k) s
def execVcompress (lq : Bool) (t : ETy) (o : VOpts) (vd va : VReg) (mc : MReg) (s : State) :=
  vissue (.vcompress lq t o vd va mc) (vcompressBody lq t o vd va mc) s
def execVexpand (t : ETy) (o : VOpts) (vd va : VReg) (mc : MReg) (s : State) :=
  vissue (.vexpand t o vd va mc) (vexpandBody t o vd va mc) s
def execVbcast (t : ETy) (o : VOpts) (vd va : VReg) (k : VCount) (s : State) :=
  vissue (.vbcast t o vd va k) (vbcastBody t o vd va k) s
def execVextract (t : ETy) (o : VOpts) (xd : XReg) (va : VReg) (k : VCount) (s : State) :=
  vissue (.vextract t o xd va k) (vextractBody t o xd va k) s
def execVinsert (t : ETy) (o : VOpts) (vd : VReg) (xs : XReg) (k : VCount) (s : State) :=
  vissue (.vinsert t o vd xs k) (vinsertBody t o vd xs k) s
def execVunpk (t : ETy) (o : VOpts) (vd va : VReg) (s : State) := vissue (.vunpk t o vd va) (vunpkBody t o vd va) s

end Sys2Proof.Machine
end

