-- ==== Sys2Proof/Machine/VDispatch.lean ====
section
/-! DEFINITION. Dispatch of committed vector instructions (R96, R153, R227), the return from a trap with a held one
(R155), convoy headers (R110-R112, R373) and encodings that name no instruction (R127, R137). -/

namespace Sys2Proof.Machine

/-- What a queued instruction does when it is dispatched. -/
def vectorBody (i : Instr) : VQEntry → State → Res State :=
  match i with
  | .plotset _ vd xs => plotsetBody vd xs
  | .plotget _ xd va => plotgetBody xd va
  | .vloop _ xa => vloopBody xa
  | .setvl _ _ xc => setvlBody xc
  | .setvlW _ partly sc xd xa xc => setvlWBody partly sc xd xa xc
  | .wmpub _ sc xa => wmpubBody sc xa
  | .vsync _ sc => vsyncBody sc
  | .vlend _ => vlendBody
  | .vfadd t o vd va b => vfaddBody t o vd va b
  | .vfsub t o vd va b => vfsubBody t o vd va b
  | .vfmul t o vd va b => vfmulBody t o vd va b
  | .vfdiv t o vd va b => vfdivBody t o vd va b
  | .vfmin t o vd va b => vfminBody t o vd va b
  | .vfmax t o vd va b => vfmaxBody t o vd va b
  | .vfsgnj t o vd va b => vfsgnjBody t o vd va b
  | .vfsgnjn t o vd va b => vfsgnjnBody t o vd va b
  | .vfsgnjx t o vd va b => vfsgnjxBody t o vd va b
  | .vfma t o vd va b vc => vfmaBody t o vd va b vc
  | .vfms t o vd va b vc => vfmsBody t o vd va b vc
  | .vfnma t o vd va b vc => vfnmaBody t o vd va b vc
  | .vfnms t o vd va b vc => vfnmsBody t o vd va b vc
  | .vfsqrt t o vd va => vfsqrtBody t o vd va
  | .vfrec t o vd va => vfrecBody t o vd va
  | .vfrsqrt t o vd va => vfrsqrtBody t o vd va
  | .vfexp t o vd va => vfexpBody t o vd va
  | .vflog t o vd va => vflogBody t o vd va
  | .vfsin t o vd va => vfsinBody t o vd va
  | .vfcos t o vd va => vfcosBody t o vd va
  | .vftanh t o vd va => vftanhBody t o vd va
  | .vfabs t o vd va => vfabsBody t o vd va
  | .vfneg t o vd va => vfnegBody t o vd va
  | .vadd t o vd va b => vaddBody t o vd va b
  | .vsub t o vd va b => vsubBody t o vd va b
  | .vmul t o vd va b => vmulBody t o vd va b
  | .vmulh t o vd va b => vmulhBody t o vd va b
  | .vmulhu t o vd va b => vmulhuBody t o vd va b
  | .vdiv t o vd va b => vdivBody t o vd va b
  | .vdivu t o vd va b => vdivuBody t o vd va b
  | .vrem t o vd va b => vremBody t o vd va b
  | .vremu t o vd va b => vremuBody t o vd va b
  | .vand t o vd va b => vandBody t o vd va b
  | .vor t o vd va b => vorBody t o vd va b
  | .vxor t o vd va b => vxorBody t o vd va b
  | .vsll t o vd va b => vsllBody t o vd va b
  | .vsrl t o vd va b => vsrlBody t o vd va b
  | .vsra t o vd va b => vsraBody t o vd va b
  | .vmin t o vd va b => vminBody t o vd va b
  | .vmax t o vd va b => vmaxBody t o vd va b
  | .vminu t o vd va b => vminuBody t o vd va b
  | .vmaxu t o vd va b => vmaxuBody t o vd va b
  | .vadc t o vd va b mci mco => vadcBody t o vd va b mci mco
  | .vsbc t o vd va b mci mco => vsbcBody t o vd va b mci mco
  | .vfcmp c t o md va vb => vfcmpBody c t o md va vb
  | .vcmp c t o md va vb => vcmpBody c t o md va vb
  | .vcvt d t o vd va => vcvtBody d t o vd va
  | .mand o md ma mb => mandBody o md ma mb
  | .mor o md ma mb => morBody o md ma mb
  | .mxor o md ma mb => mxorBody o md ma mb
  | .mandn o md ma mb => mandnBody o md ma mb
  | .mnot o md ma => mnotBody o md ma
  | .mshift down k o md ma => mshiftBody down k o md ma
  | .mpopc lq o xd ma => mpopcBody lq o xd ma
  | .mfirst o xd ma => mfirstBody o xd ma
  | .vred op t o xd va => vredBody op t o xd va
  | .vfred op t o xd va => vfredBody op t o xd va
  | .vrand t o vd xs => vrandBody t o vd xs
  | .vld t o r _ xs vd vc => vldBody t o r xs vd vc
  | .vst t o r _ xs va vc => vstBody t o r xs va vc
  | .vldStrided t o r _ xs xp vd => vldStridedBody t o r xs xp vd
  | .vstStrided t o r _ xs xp va => vstStridedBody t o r xs xp va
  | .vldx t o r _ ix64 xs vd vb => vldxBody t o r ix64 xs vd vb
  | .vstx t o r _ ix64 xs va vb => vstxBody t o r ix64 xs va vb
  | .vldt t o r _ xs xp vd => vldtBody t o r xs xp vd
  | .vamo op t o r _ ix64 discard xs vd va vb => vamoBody op t o r ix64 discard xs vd va vb
  | .vperm t o vd va vb => vpermBody t o vd va vb
  | .vslideup t o vd va k => vslideupBody t o vd va k
  | .vslidedn t o vd va k => vslidednBody t o vd va k
  | .vcompress lq t o vd va mc => vcompressBody lq t o vd va mc
  | .vexpand t o vd va mc => vexpandBody t o vd va mc
  | .vbcast t o vd va k => vbcastBody t o vd va k
  | .vextract t o xd va k => vextractBody t o xd va k
  | .vinsert t o vd xs k => vinsertBody t o vd xs k
  | .vunpk t o vd va => vunpkBody t o vd va
  | .vfeed f t o va => vfeedBody f t o va
  | .vdrain f64 t o vd => vdrainBody f64 t o vd
  | .vdetach o va nt xs => vdetachBody o va nt xs
  | .vfence _ sc => vfenceBody sc
  | .fcfg _ fd xs => fcfgBody fd xs
  | .fins o fd va vb => finsBody o fd va vb
  | .fmerge _ fa fb => fmergeBody fa fb
  | .fread o vd vb fa xd => freadBody o vd vb fa xd
  | .fclr _ fd => fclrBody fd
  | .fsave _ fa xs => fsaveBody fa xs
  | .fload _ fd xs => floadBody fd xs
  | .strset a k => strsetBody a k
  | _ => fun _ s => .ok s

/-- While lane threads run, the vector unit dispatches nothing (R227). Once the oldest instruction is done, what younger scalar
instructions have raised behind it takes effect (R153). -/
def dispatchHead (s : State) : Res State :=
  match s.ctx.vq with
  | [] => .ok s
  | en :: rest =>
    if s.ctx.threading then waits s
    else do
      let s ← vtry (vectorBody en.instr) en { s with ctx := { s.ctx with vq := rest } }
      .ok { s with ctx := s.ctx.retired en }

/-- The oldest committed vector instruction of the current context is dispatched, executes and retires. -/
def execVectorDispatch (s : State) : Host.Outcome State Fault Refusal :=
  if s.ctx.phase == .running && s.lane.isNone then settle (dispatchHead s) else .next s

/-- The return from a trap with its held instruction, if there is one, dispatched within it; it waits while that stalls (log 70). -/
def returnHeld (s : State) : Res State :=
  match s.ctx.resumes with
  | none => .ok s.returnFromTrap
  | some en =>
    if s.ctx.threading then waits s
    else match vectorBody en.instr en s.returnFromTrap with
      | .error (.wait s') => waits { s with pend := s'.pend }
      | r => r

/-- A context that a resume request lets run on has its held instruction still to be dispatched (R312). -/
def Ctx.returning (c : Ctx) : Bool := !c.inTrap && bitAt c.tqpos 63 && c.held.isSome

/-- `tret` (R155). A target that is not a multiple of 4 is refused by R126. -/
def execTret (s : State) := settle (do
  legal .frontMiller [] s
  check s.ctx.inTrap s 0x01 s.enc
  check (decide (s.ctx.tpc.toNat % 4 = 0)) s 0x04 s.ctx.tpc
  drained s
  returnHeld s)

/-- An encoding that names no instruction, or fails another check of decode. -/
def execIllegalInstruction (s : State) : Host.Outcome State Fault Refusal := settle (raise s 0x01 s.enc)

/-! Convoys. -/

/-- The convoy unit of a 64-bit instruction (R140); none where it may not stand in a convoy. -/
def convoyUnit (w : Nat) : Option Nat :=
  let v := vword w
  match v.major with
  | 0x30 => some 6
  | 0x31 | 0x32 | 0x33 | 0x34 => some 0
  | 0x35 => if v.minor < 0x10 then some 5 else if v.minor < 0x12 then some 3 else if v.minor = 0x12 then some 0 else some 6
  | 0x36 => if v.minor < 0x08 then some 1 else some 2
  | 0x37 => if v.minor = 0x06 then some 5 else some 3
  | 0x38 => if v.minor = 0x00 then some 1 else if v.minor = 0x01 then some 2 else none
  | 0x39 => some 4
  | _ => none

/-- Whether a fetched member is a vector instruction of the unit that the header names. -/
def memberOk (enc size u : Nat) : Bool :=
  size == 8 && convoyUnit enc == some u && (match decodeWord enc with | .ok _ => true | .error _ => false)

/-- Fetches and checks members from address a on: their encodings, or none where a poisoned parcel ends the context, which
waits for the older vector instructions. Each member is checked before the next is fetched, so that an earlier member's cause 0x01 goes
before a later one's fetch fault, which R111 and R373 leave open (log 84). -/
def convoyMembers (s : State) (a : Word) : List Nat → Res (Option (List Word) × State)
  | [] => .ok (some [], s)
  | u :: us =>
    match s.fetchAt a with
    | .trap s' c v => raise s' c v
    | .poison s' => if s.ctx.vq.isEmpty then .ok (none, s'.terminate s'.ctx 0x30 false 0x30) else waits s
    | .wait s' => waits s'
    | .word s' enc size => do
      check (memberOk enc size u) s 0x01 s.enc
      let (l, s) ← convoyMembers s' (a + 8) us
      .ok (l.map (fun l => word enc :: l), s)

/-- The convoy header: its checks, and the fetch of its members, which are then committed as they were fetched (R373); chaining
changes no result. -/
def execConvoyHeader (n u1 u2 u3 u4 u5 u6 : BitVec 3) (s : State) := settle (do
  legal .front [] s
  let us := [u1.toNat, u2.toNat, u3.toNat, u4.toNat, u5.toNat, u6.toNat]
  let k := n.toNat
  check (decide (2 ≤ k) && decide (k ≤ 6) && (us.take k).all (fun u => u != 7) && (us.drop k).all (fun u => u == 0))
    s 0x01 s.enc
  let (l, s') ← convoyMembers s (s.ctx.pc + 4) (us.take k)
  .ok (match l with
    | none => s'
    | some l => ({ s' with ctx := { s'.ctx with convoy := l } } : State).advance 4))

end Sys2Proof.Machine
end

