-- ==== Sys2Proof/Machine/Dispatch.lean ====
section
/-! DEFINITION. One arm for each constructor of `Instr`: its meaning. -/

namespace Sys2Proof.Machine

def exec (i : Instr) (s : State) : Host.Outcome State Fault Refusal :=
  match i with
  | .add d a b => Sys2Proof.Machine.execAdd d a b s
  | .sub d a b => Sys2Proof.Machine.execSub d a b s
  | .and d a b => Sys2Proof.Machine.execAnd d a b s
  | .or d a b => Sys2Proof.Machine.execOr d a b s
  | .xor d a b => Sys2Proof.Machine.execXor d a b s
  | .sll d a b => Sys2Proof.Machine.execSll d a b s
  | .srl d a b => Sys2Proof.Machine.execSrl d a b s
  | .sra d a b => Sys2Proof.Machine.execSra d a b s
  | .slt d a b => Sys2Proof.Machine.execSlt d a b s
  | .sltu d a b => Sys2Proof.Machine.execSltu d a b s
  | .min d a b => Sys2Proof.Machine.execMin d a b s
  | .max d a b => Sys2Proof.Machine.execMax d a b s
  | .minu d a b => Sys2Proof.Machine.execMinu d a b s
  | .maxu d a b => Sys2Proof.Machine.execMaxu d a b s
  | .clz d a => Sys2Proof.Machine.execClz d a s
  | .ctz d a => Sys2Proof.Machine.execCtz d a s
  | .popc d a => Sys2Proof.Machine.execPopc d a s
  | .mul d a b => Sys2Proof.Machine.execMul d a b s
  | .mulh d a b => Sys2Proof.Machine.execMulh d a b s
  | .mulhu d a b => Sys2Proof.Machine.execMulhu d a b s
  | .div d a b => Sys2Proof.Machine.execDiv d a b s
  | .divu d a b => Sys2Proof.Machine.execDivu d a b s
  | .rem d a b => Sys2Proof.Machine.execRem d a b s
  | .remu d a b => Sys2Proof.Machine.execRemu d a b s
  | .addi d a im => Sys2Proof.Machine.execAddi d a im s
  | .andi d a im => Sys2Proof.Machine.execAndi d a im s
  | .ori d a im => Sys2Proof.Machine.execOri d a im s
  | .xori d a im => Sys2Proof.Machine.execXori d a im s
  | .slli d a h => Sys2Proof.Machine.execSlli d a h s
  | .srli d a h => Sys2Proof.Machine.execSrli d a h s
  | .srai d a h => Sys2Proof.Machine.execSrai d a h s
  | .lui d im => Sys2Proof.Machine.execLui d im s
  | .fadd t d a b => Sys2Proof.Machine.execFadd t d a b s
  | .fsub t d a b => Sys2Proof.Machine.execFsub t d a b s
  | .fmul t d a b => Sys2Proof.Machine.execFmul t d a b s
  | .fdiv t d a b => Sys2Proof.Machine.execFdiv t d a b s
  | .fsqrt t d a => Sys2Proof.Machine.execFsqrt t d a s
  | .fmin t d a b => Sys2Proof.Machine.execFmin t d a b s
  | .fmax t d a b => Sys2Proof.Machine.execFmax t d a b s
  | .fcmpEq t d a b => Sys2Proof.Machine.execFcmpEq t d a b s
  | .fcmpLt t d a b => Sys2Proof.Machine.execFcmpLt t d a b s
  | .fcmpLe t d a b => Sys2Proof.Machine.execFcmpLe t d a b s
  | .fcvtToI64 t d a => Sys2Proof.Machine.execFcvtToI64 t d a s
  | .fcvtFromI64 t d a => Sys2Proof.Machine.execFcvtFromI64 t d a s
  | .fcvtFpFp t d a => Sys2Proof.Machine.execFcvtFpFp t d a s
  | .fmv t d a => Sys2Proof.Machine.execFmv t d a s
  | .fneg t d a => Sys2Proof.Machine.execFneg t d a s
  | .fabs t d a => Sys2Proof.Machine.execFabs t d a s
  | .ffma t d a b c => Sys2Proof.Machine.execFfma t d a b c s
  | .ffms t d a b c => Sys2Proof.Machine.execFfms t d a b c s
  | .ffnma t d a b c => Sys2Proof.Machine.execFfnma t d a b c s
  | .ffnms t d a b c => Sys2Proof.Machine.execFfnms t d a b c s
  | .waitev d a b => Sys2Proof.Machine.execWaitev d a b s
  | .chkerr d => Sys2Proof.Machine.execChkerr d s
  | .ctlr d c => Sys2Proof.Machine.execCtlr d c s
  | .ctlw d a c => Sys2Proof.Machine.execCtlw d a c s
  | .ctlset d a c => Sys2Proof.Machine.execCtlset d a c s
  | .ctlclr d a c => Sys2Proof.Machine.execCtlclr d a c s
  | .jal d o => Sys2Proof.Machine.execJal d o s
  | .jalr d a im => Sys2Proof.Machine.execJalr d a im s
  | .beq a b o => Sys2Proof.Machine.execBeq a b o s
  | .bne a b o => Sys2Proof.Machine.execBne a b o s
  | .blt a b o => Sys2Proof.Machine.execBlt a b o s
  | .bge a b o => Sys2Proof.Machine.execBge a b o s
  | .bltu a b o => Sys2Proof.Machine.execBltu a b o s
  | .bgeu a b o => Sys2Proof.Machine.execBgeu a b o s
  | .bany m o => Sys2Proof.Machine.execBany m o s
  | .ball m o => Sys2Proof.Machine.execBall m o s
  | .bnone m o => Sys2Proof.Machine.execBnone m o s
  | .ldB d a c o => Sys2Proof.Machine.execLdB d a c o s
  | .ldBAcq d a c sc o => Sys2Proof.Machine.execLdBAcq d a c sc o s
  | .ldH d a c o => Sys2Proof.Machine.execLdH d a c o s
  | .ldHAcq d a c sc o => Sys2Proof.Machine.execLdHAcq d a c sc o s
  | .ldW d a c o => Sys2Proof.Machine.execLdW d a c o s
  | .ldWAcq d a c sc o => Sys2Proof.Machine.execLdWAcq d a c sc o s
  | .ldD d a c o => Sys2Proof.Machine.execLdD d a c o s
  | .ldDAcq d a c sc o => Sys2Proof.Machine.execLdDAcq d a c sc o s
  | .ldBu d a c o => Sys2Proof.Machine.execLdBu d a c o s
  | .ldBuAcq d a c sc o => Sys2Proof.Machine.execLdBuAcq d a c sc o s
  | .ldHu d a c o => Sys2Proof.Machine.execLdHu d a c o s
  | .ldHuAcq d a c sc o => Sys2Proof.Machine.execLdHuAcq d a c sc o s
  | .ldWu d a c o => Sys2Proof.Machine.execLdWu d a c o s
  | .ldWuAcq d a c sc o => Sys2Proof.Machine.execLdWuAcq d a c sc o s
  | .stB d a c o => Sys2Proof.Machine.execStB d a c o s
  | .stBRel d a c sc o => Sys2Proof.Machine.execStBRel d a c sc o s
  | .stH d a c o => Sys2Proof.Machine.execStH d a c o s
  | .stHRel d a c sc o => Sys2Proof.Machine.execStHRel d a c sc o s
  | .stW d a c o => Sys2Proof.Machine.execStW d a c o s
  | .stWRel d a c sc o => Sys2Proof.Machine.execStWRel d a c sc o s
  | .stD d a c o => Sys2Proof.Machine.execStD d a c o s
  | .stDRel d a c sc o => Sys2Proof.Machine.execStDRel d a c sc o s
  | .amoswap d a b c r sc => Sys2Proof.Machine.execAmoswap d a b c r sc s
  | .amoadd d a b c r sc => Sys2Proof.Machine.execAmoadd d a b c r sc s
  | .amoand d a b c r sc => Sys2Proof.Machine.execAmoand d a b c r sc s
  | .amoor d a b c r sc => Sys2Proof.Machine.execAmoor d a b c r sc s
  | .amoxor d a b c r sc => Sys2Proof.Machine.execAmoxor d a b c r sc s
  | .amomin d a b c r sc => Sys2Proof.Machine.execAmomin d a b c r sc s
  | .amomax d a b c r sc => Sys2Proof.Machine.execAmomax d a b c r sc s
  | .amomaxu d a b c r sc => Sys2Proof.Machine.execAmomaxu d a b c r sc s
  | .cas d a b c r sc => Sys2Proof.Machine.execCas d a b c r sc s
  | .fence sc a b => Sys2Proof.Machine.execFence sc a b s
  | .cacheopPf a b => Sys2Proof.Machine.execCacheopPf a b s
  | .cacheopPf2 a b => Sys2Proof.Machine.execCacheopPf2 a b s
  | .cacheopPfw a b => Sys2Proof.Machine.execCacheopPfw a b s
  | .cacheopEvict a b => Sys2Proof.Machine.execCacheopEvict a b s
  | .cacheopClean a b => Sys2Proof.Machine.execCacheopClean a b s
  | .tlbinvS1 a b => Sys2Proof.Machine.execTlbinvS1 a b s
  | .tlbinvS1all b => Sys2Proof.Machine.execTlbinvS1all b s
  | .tlbinvS2 a b => Sys2Proof.Machine.execTlbinvS2 a b s
  | .tlbinvS2all b => Sys2Proof.Machine.execTlbinvS2all b s
  | .stashmap d a b => Sys2Proof.Machine.execStashmap d a b s
  | .stashunmap a => Sys2Proof.Machine.execStashunmap a s
  | .hld d a c o => Sys2Proof.Machine.execHld d a c o s
  | .hldAcq d a c sc o => Sys2Proof.Machine.execHldAcq d a c sc o s
  | .hst d a c o => Sys2Proof.Machine.execHst d a c o s
  | .hstRel d a c sc o => Sys2Proof.Machine.execHstRel d a c sc o s
  | .hldw d a c o => Sys2Proof.Machine.execHldw d a c o s
  | .hldwAcq d a c sc o => Sys2Proof.Machine.execHldwAcq d a c sc o s
  | .hstw d a c o => Sys2Proof.Machine.execHstw d a c o s
  | .hstwRel d a c sc o => Sys2Proof.Machine.execHstwRel d a c sc o s
  | .hcas d a b c r sc => Sys2Proof.Machine.execHcas d a b c r sc s
  | .hcasw d a b c r sc => Sys2Proof.Machine.execHcasw d a b c r sc s
  | .hcmp d a b => Sys2Proof.Machine.execHcmp d a b s
  | .hpin d a => Sys2Proof.Machine.execHpin d a s
  | .hunpin a => Sys2Proof.Machine.execHunpin a s
  | .hmake d a => Sys2Proof.Machine.execHmake d a s
  | .hmakeI d a b => Sys2Proof.Machine.execHmakeI d a b s
  | .tdesc a k => Sys2Proof.Machine.execTdesc a k s
  | .cpy d a b => Sys2Proof.Machine.execCpy d a b s
  | .cpyDsrc d a b k => Sys2Proof.Machine.execCpyDsrc d a b k s
  | .cpyDdst d a b k => Sys2Proof.Machine.execCpyDdst d a b k s
  | .cpydrain sc => Sys2Proof.Machine.execCpydrain sc s
  | .strset a k => Sys2Proof.Machine.execStrset a k s
  | .mcast d a n => Sys2Proof.Machine.execMcast d a n s
  | .potinit a b => Sys2Proof.Machine.execPotinit a b s
  | .potadd sc a b => Sys2Proof.Machine.execPotadd sc a b s
  | .potwait sc d a => Sys2Proof.Machine.execPotwait sc d a s
  | .coll d a => Sys2Proof.Machine.execColl d a s
  | .collwait d a => Sys2Proof.Machine.execCollwait d a s
  | .hglean d a b => Sys2Proof.Machine.execHglean d a b s
  | .hgleanFree d a => Sys2Proof.Machine.execHgleanFree d a s
  | .launch d a => Sys2Proof.Machine.execLaunch d a s
  | .mldb d a b => Sys2Proof.Machine.execMldb d a b s
  | .mmul m t q a b => Sys2Proof.Machine.execMmul m t q a b s
  | .mclr t => Sys2Proof.Machine.execMclr t s
  | .mout f64 clr t q a b => Sys2Proof.Machine.execMout f64 clr t q a b s
  | .vlend o => Sys2Proof.Machine.execVlend o s
  | .convoyHeader n u1 u2 u3 u4 u5 u6 => Sys2Proof.Machine.execConvoyHeader n u1 u2 u3 u4 u5 u6 s
  | .plotset dt vd xs => Sys2Proof.Machine.execPlotset dt vd xs s
  | .plotget dt xd va => Sys2Proof.Machine.execPlotget dt xd va s
  | .setvl dt xd xc => Sys2Proof.Machine.execSetvl dt xd xc s
  | .setvlW dt partly sc xd xa xc => Sys2Proof.Machine.execSetvlW dt partly sc xd xa xc s
  | .vloop dt xa => Sys2Proof.Machine.execVloop dt xa s
  | .wmpub dt sc xa => Sys2Proof.Machine.execWmpub dt sc xa s
  | .vfadd t o vd va b => Sys2Proof.Machine.execVfadd t o vd va b s
  | .vfsub t o vd va b => Sys2Proof.Machine.execVfsub t o vd va b s
  | .vfmul t o vd va b => Sys2Proof.Machine.execVfmul t o vd va b s
  | .vfdiv t o vd va b => Sys2Proof.Machine.execVfdiv t o vd va b s
  | .vfmin t o vd va b => Sys2Proof.Machine.execVfmin t o vd va b s
  | .vfmax t o vd va b => Sys2Proof.Machine.execVfmax t o vd va b s
  | .vfsgnj t o vd va b => Sys2Proof.Machine.execVfsgnj t o vd va b s
  | .vfsgnjn t o vd va b => Sys2Proof.Machine.execVfsgnjn t o vd va b s
  | .vfsgnjx t o vd va b => Sys2Proof.Machine.execVfsgnjx t o vd va b s
  | .vfma t o vd va b vc => Sys2Proof.Machine.execVfma t o vd va b vc s
  | .vfms t o vd va b vc => Sys2Proof.Machine.execVfms t o vd va b vc s
  | .vfnma t o vd va b vc => Sys2Proof.Machine.execVfnma t o vd va b vc s
  | .vfnms t o vd va b vc => Sys2Proof.Machine.execVfnms t o vd va b vc s
  | .vfsqrt t o vd va => Sys2Proof.Machine.execVfsqrt t o vd va s
  | .vfrec t o vd va => Sys2Proof.Machine.execVfrec t o vd va s
  | .vfrsqrt t o vd va => Sys2Proof.Machine.execVfrsqrt t o vd va s
  | .vfexp t o vd va => Sys2Proof.Machine.execVfexp t o vd va s
  | .vflog t o vd va => Sys2Proof.Machine.execVflog t o vd va s
  | .vfsin t o vd va => Sys2Proof.Machine.execVfsin t o vd va s
  | .vfcos t o vd va => Sys2Proof.Machine.execVfcos t o vd va s
  | .vftanh t o vd va => Sys2Proof.Machine.execVftanh t o vd va s
  | .vfabs t o vd va => Sys2Proof.Machine.execVfabs t o vd va s
  | .vfneg t o vd va => Sys2Proof.Machine.execVfneg t o vd va s
  | .vadd t o vd va b => Sys2Proof.Machine.execVadd t o vd va b s
  | .vsub t o vd va b => Sys2Proof.Machine.execVsub t o vd va b s
  | .vmul t o vd va b => Sys2Proof.Machine.execVmul t o vd va b s
  | .vmulh t o vd va b => Sys2Proof.Machine.execVmulh t o vd va b s
  | .vmulhu t o vd va b => Sys2Proof.Machine.execVmulhu t o vd va b s
  | .vdiv t o vd va b => Sys2Proof.Machine.execVdiv t o vd va b s
  | .vdivu t o vd va b => Sys2Proof.Machine.execVdivu t o vd va b s
  | .vrem t o vd va b => Sys2Proof.Machine.execVrem t o vd va b s
  | .vremu t o vd va b => Sys2Proof.Machine.execVremu t o vd va b s
  | .vand t o vd va b => Sys2Proof.Machine.execVand t o vd va b s
  | .vor t o vd va b => Sys2Proof.Machine.execVor t o vd va b s
  | .vxor t o vd va b => Sys2Proof.Machine.execVxor t o vd va b s
  | .vsll t o vd va b => Sys2Proof.Machine.execVsll t o vd va b s
  | .vsrl t o vd va b => Sys2Proof.Machine.execVsrl t o vd va b s
  | .vsra t o vd va b => Sys2Proof.Machine.execVsra t o vd va b s
  | .vmin t o vd va b => Sys2Proof.Machine.execVmin t o vd va b s
  | .vmax t o vd va b => Sys2Proof.Machine.execVmax t o vd va b s
  | .vminu t o vd va b => Sys2Proof.Machine.execVminu t o vd va b s
  | .vmaxu t o vd va b => Sys2Proof.Machine.execVmaxu t o vd va b s
  | .vadc t o vd va b mci mco => Sys2Proof.Machine.execVadc t o vd va b mci mco s
  | .vsbc t o vd va b mci mco => Sys2Proof.Machine.execVsbc t o vd va b mci mco s
  | .vfcmp c t o md va vb => Sys2Proof.Machine.execVfcmp c t o md va vb s
  | .vcmp c t o md va vb => Sys2Proof.Machine.execVcmp c t o md va vb s
  | .vcvt dt st o vd va => Sys2Proof.Machine.execVcvt dt st o vd va s
  | .mand o md ma mb => Sys2Proof.Machine.execMand o md ma mb s
  | .mor o md ma mb => Sys2Proof.Machine.execMor o md ma mb s
  | .mxor o md ma mb => Sys2Proof.Machine.execMxor o md ma mb s
  | .mandn o md ma mb => Sys2Proof.Machine.execMandn o md ma mb s
  | .mnot o md ma => Sys2Proof.Machine.execMnot o md ma s
  | .mshift down k o md ma => Sys2Proof.Machine.execMshift down k o md ma s
  | .mpopc lq o xd ma => Sys2Proof.Machine.execMpopc lq o xd ma s
  | .mfirst o xd ma => Sys2Proof.Machine.execMfirst o xd ma s
  | .vred op t o xd va => Sys2Proof.Machine.execVred op t o xd va s
  | .vfred op t o xd va => Sys2Proof.Machine.execVfred op t o xd va s
  | .vrand t o vd xs => Sys2Proof.Machine.execVrand t o vd xs s
  | .vsync dt sc => Sys2Proof.Machine.execVsync dt sc s
  | .vld t o r c xs vd vc => Sys2Proof.Machine.execVld t o r c xs vd vc s
  | .vldStrided t o r c xs xp vd => Sys2Proof.Machine.execVldStrided t o r c xs xp vd s
  | .vldx t o r c ix64 xs vd vb => Sys2Proof.Machine.execVldx t o r c ix64 xs vd vb s
  | .vldt t o r c xs xp vd => Sys2Proof.Machine.execVldt t o r c xs xp vd s
  | .vst t o r c xs va vc => Sys2Proof.Machine.execVst t o r c xs va vc s
  | .vstStrided t o r c xs xp va => Sys2Proof.Machine.execVstStrided t o r c xs xp va s
  | .vstx t o r c ix64 xs va vb => Sys2Proof.Machine.execVstx t o r c ix64 xs va vb s
  | .vamo op t o r c ix64 discard xs vd va vb => Sys2Proof.Machine.execVamo op t o r c ix64 discard xs vd va vb s
  | .vperm t o vd va vb => Sys2Proof.Machine.execVperm t o vd va vb s
  | .vslideup t o vd va k => Sys2Proof.Machine.execVslideup t o vd va k s
  | .vslidedn t o vd va k => Sys2Proof.Machine.execVslidedn t o vd va k s
  | .vcompress lq t o vd va mc => Sys2Proof.Machine.execVcompress lq t o vd va mc s
  | .vexpand t o vd va mc => Sys2Proof.Machine.execVexpand t o vd va mc s
  | .vbcast t o vd va k => Sys2Proof.Machine.execVbcast t o vd va k s
  | .vextract t o xd va k => Sys2Proof.Machine.execVextract t o xd va k s
  | .vinsert t o vd xs k => Sys2Proof.Machine.execVinsert t o vd xs k s
  | .vunpk t o vd va => Sys2Proof.Machine.execVunpk t o vd va s
  | .vfeed f t o va => Sys2Proof.Machine.execVfeed f t o va s
  | .vdrain f64 t o vd => Sys2Proof.Machine.execVdrain f64 t o vd s
  | .vdetach o va nt xs => Sys2Proof.Machine.execVdetach o va nt xs s
  | .vfence dt sc => Sys2Proof.Machine.execVfence dt sc s
  | .fcfg o fd xs => Sys2Proof.Machine.execFcfg o fd xs s
  | .fins o fd va vb => Sys2Proof.Machine.execFins o fd va vb s
  | .fmerge o fa fb => Sys2Proof.Machine.execFmerge o fa fb s
  | .fread o vd vb fa xd => Sys2Proof.Machine.execFread o vd vb fa xd s
  | .fclr o fd => Sys2Proof.Machine.execFclr o fd s
  | .fsave o fa xs => Sys2Proof.Machine.execFsave o fa xs s
  | .fload o fd xs => Sys2Proof.Machine.execFload o fd xs s
  | .syscall => Sys2Proof.Machine.execSyscall s
  | .tret => Sys2Proof.Machine.execTret s
  | .yield => Sys2Proof.Machine.execYield s
  | .exit => Sys2Proof.Machine.execExit s
  | .vrelease => Sys2Proof.Machine.execVrelease s
  | .lexit => Sys2Proof.Machine.execLexit s
  | .ifence => Sys2Proof.Machine.execIfence s
  | .msync => Sys2Proof.Machine.execMsync s
  | .tqposWrite => Sys2Proof.Machine.execTqposWrite s
  | .statusProtectedWrite => Sys2Proof.Machine.execStatusProtectedWrite s
  | .pipeownWrite => Sys2Proof.Machine.execPipeownWrite s
  | .errinjWrite => Sys2Proof.Machine.execErrinjWrite s
  | .millOperation => Sys2Proof.Machine.execMillOperation s
  | .laneThreadLimit => Sys2Proof.Machine.execLaneThreadLimit s
  | .engineIssuePoint => Sys2Proof.Machine.execEngineIssuePoint s
  | .engineRetire => Sys2Proof.Machine.execEngineRetire s
  | .streamTransfer => Sys2Proof.Machine.execStreamTransfer s
  | .mcastArrival => Sys2Proof.Machine.execMcastArrival s
  | .potAddition => Sys2Proof.Machine.execPotAddition s
  | .collectiveStart => Sys2Proof.Machine.execCollectiveStart s
  | .collectiveEnd => Sys2Proof.Machine.execCollectiveEnd s
  | .collectiveAbort => Sys2Proof.Machine.execCollectiveAbort s
  | .gleanerCycle => Sys2Proof.Machine.execGleanerCycle s
  | .gleanerObjectCopy => Sys2Proof.Machine.execGleanerObjectCopy s
  | .crierPlacement => Sys2Proof.Machine.execCrierPlacement s
  | .priorityAging => Sys2Proof.Machine.execPriorityAging s
  | .drainComplete => Sys2Proof.Machine.execDrainComplete s
  | .slotBoundary => Sys2Proof.Machine.execSlotBoundary s
  | .eventRecordWrite => Sys2Proof.Machine.execEventRecordWrite s
  | .waitevWake => Sys2Proof.Machine.execWaitevWake s
  | .waitevTimeout => Sys2Proof.Machine.execWaitevTimeout s
  | .dirtyL2UeContainment => Sys2Proof.Machine.execDirtyL2UeContainment s
  | .pageRetire => Sys2Proof.Machine.execPageRetire s
  | .dramPatrolScrub => Sys2Proof.Machine.execDramPatrolScrub s
  | .l2SliceScrub => Sys2Proof.Machine.execL2SliceScrub s
  | .cpFault => Sys2Proof.Machine.execCpFault s
  | .cpRestart => Sys2Proof.Machine.execCpRestart s
  | .reeveFault => Sys2Proof.Machine.execReeveFault s
  | .reeveRestart => Sys2Proof.Machine.execReeveRestart s
  | .errinjPerform => Sys2Proof.Machine.execErrinjPerform s
  | .deviceBoot => Sys2Proof.Machine.execDeviceBoot s
  | .powerStateEntry => Sys2Proof.Machine.execPowerStateEntry s
  | .wake => Sys2Proof.Machine.execWake s
  | .fabricMessage => Sys2Proof.Machine.execFabricMessage s
  | .createSublease => Sys2Proof.Machine.execCreateSublease s
  | .destroySublease => Sys2Proof.Machine.execDestroySublease s
  | .map => Sys2Proof.Machine.execMap s
  | .setLimits => Sys2Proof.Machine.execSetLimits s
  | .setOccupants => Sys2Proof.Machine.execSetOccupants s
  | .readCounters => Sys2Proof.Machine.execReadCounters s
  | .resetSublease => Sys2Proof.Machine.execResetSublease s
  | .injectError => Sys2Proof.Machine.execInjectError s
  | .delegate => Sys2Proof.Machine.execDelegate s
  | .revoke => Sys2Proof.Machine.execRevoke s
  | .registerEventQueue => Sys2Proof.Machine.execRegisterEventQueue s
  | .setLdm => Sys2Proof.Machine.execSetLdm s
  | .resume => Sys2Proof.Machine.execResume s
  | .terminate => Sys2Proof.Machine.execTerminate s
  | .contextAccess => Sys2Proof.Machine.execContextAccess s
  | .breakpoint => Sys2Proof.Machine.execBreakpoint s
  | .launchRequest => Sys2Proof.Machine.execLaunchRequest s
  | .readBlackBox => Sys2Proof.Machine.execReadBlackBox s
  | .power => Sys2Proof.Machine.execPower s
  | .attest => Sys2Proof.Machine.execAttest s
  | .releaseQuarantine => Sys2Proof.Machine.execReleaseQuarantine s
  | .vectorDispatch => Sys2Proof.Machine.execVectorDispatch s
  | .illegalInstruction => Sys2Proof.Machine.execIllegalInstruction s
  | .uncorrectableError => Sys2Proof.Machine.execUncorrectableError s
  | .controlCoreAccess => Sys2Proof.Machine.execControlCoreAccess s
  | .leaseMigration => Sys2Proof.Machine.execLeaseMigration s

end Sys2Proof.Machine
end

