-- ==== Sys2Proof/Machine/Step.lean ====
section
/-! DEFINITION. One step of the machine: the turn at the head of the agenda, or the next one in the model's own
order when the agenda is empty (log 2); and how a word comes to be the next instruction. -/

namespace Sys2Proof.Machine

abbrev Out := Host.Outcome State Fault Refusal

/-- Executes an encoding already fetched: the instruction it names, or the decode failure. -/
def runWord (s : State) (enc : Nat) : Out :=
  let s := { s with enc := word enc, arg := .none }
  match decodeWord enc with
  | .ok i => exec i s
  | .error _ => exec .illegalInstruction s

/-- The current context, or the lane thread in `lane`, fetches and executes one instruction. -/
def runFetched (s : State) : Out :=
  match s.fetch with
  | .trap s' c v => .next (s'.takeTrap (.scalar c v))
  | .poison s' =>
    if s.lane.isNone && !s.ctx.vq.isEmpty then .next s.yieldTurn
    else .next (({ s' with lane := none } : State).terminate s'.ctx 0x30 false 0x30)
  | .wait s' => .next s'.yieldTurn
  | .word s' enc _ => runWord { s' with ctx := { s'.ctx with unissued := false } } enc

/-- The current context's turn: what a resume request has left to be dispatched (R312), then its vector queue; while that
stalls, the scalar core runs on (R153, R230). -/
def runCtx (s : State) : Out :=
  if s.ctx.returning then settle (returnHeld s)
  else if s.ctx.vq.isEmpty then runFetched s
  else match dispatchHead s with
    | .error (.wait s') => runFetched s'
    | _ => exec .vectorDispatch { s with arg := .none }

/-- A lane thread's turn, when it is the first of its lane (R228, R229): its 65,536th instruction that is not `lexit` ends it. -/
def runLane (s : State) (e : Nat) : Out :=
  let s := { s with lane := some e, yielded := 0 }
  match s.thread? with
  | none => .next { s with lane := none }
  | some _ =>
    let c := s.ctx.id
    if !s.laneFirst e then .next { s with lane := none }
    else if s.overLimit then exec .laneThreadLimit { s with arg := .lane c e }
    else match runFetched s with
      | .next s' =>
        let s' := s'.vectorPoison (s'.lane.isSome && s'.yielded == 0 && s.laneConsumes)
        if s'.yielded = 0 then .next (({ s' with lane := none } : State).countLane c e) else .next { s' with lane := none }
      | o => o

/-- A step that no word encodes, taken out of the pending work. What a word encodes is executed only where it is fetched, as an
illegal instruction is, and a pot addition or an abort happens only where one is on its way. -/
def perform (s : State) (i : Instr) (a : EventArg) : Out :=
  let due := s.pend.contains (i, a)
  if (encode i).isSome || ((i == .potAddition || i == .illegalInstruction || i == .collectiveAbort) && !due) then .next s
  else exec i { s with pend := s.pend.erase (i, a), arg := a, lane := none }

/-- One turn of the agenda. -/
def takeTurn (s : State) (t : Turn) : Out :=
  match t with
  | .run c =>
    match s.findCtx c with
    | some k => if s.canIssue k then runCtx (({ s with yielded := 0 } : State).switchTo c) else .next s
    | none => .next s
  | .lane c e => if (s.findCtx c).isSome then runLane (s.switchTo c) e else .next s
  | .event i a => perform s i a
  | .tick n => .next (s.tick n)
  | .cycles n => .next (s.cycles n)
  | .tlbDrop k => .next { s with tlb := s.tlb.eraseIdx k }
  | .walkDrop k => .next { s with walks := s.walks.eraseIdx k }

/-- The first pending step, or a lane thread, or nothing. -/
def takePending (s : State) : Out :=
  match s.pend with
  | (i, a) :: _ => perform { s with yielded := 0 } i a
  | [] =>
    match s.someLane with
    | some (c, e) => runLane (s.switchTo c) e
    | none => .next { s with yielded := 0 }

/-- The turn when the agenda is empty: a context goes on until it waits or has had its share of instructions (log 2). -/
def takeDefault (s : State) : Out :=
  match s.yielded, s.someLane with
  | 0, _ =>
    if s.canIssue s.ctx then
      (if s.streak < State.turnLength then runCtx { s with streak := s.streak + 1 } else .next s.rotate)
    else match s.nextRunnable with
      | some c => runCtx (s.switchTo c)
      | none => takePending { s with yielded := 2 }
  | 1, some (c, e) =>
    match runLane (s.switchTo c) e with
    | .next s' => .next { s' with yielded := 2 }
    | o => o
  | _, _ => takePending s

def step (s : State) : Out :=
  match s.agenda with
  | t :: rest => takeTurn { s with agenda := rest } t
  | [] => takeDefault s

/-- The state with a word placed where the next step fetches. A running context keeps its place; else one is made,
with the lease and the mapping under which it can fetch (log 13). -/
def State.withFetchWord (s : State) (nbits w : Nat) : State :=
  let w := w % 2 ^ nbits
  let bytes := leBytes 8 w
  let place : Option Nat :=
    if s.ctx.phase == .running && s.lane.isNone && s.ctx.vq.isEmpty && s.ctx.convoy.isEmpty && !s.ctx.returning then
      (match s.parcelAt s.ctx.pc with | .ok (p, _) => some p | .error _ => none)
    else none
  match place with
  | some p => ({ s with mem := s.mem.setBytes p bytes } : State).loadTurn w
  | none =>
    let s := s.loadPlace w
    ({ s with mem := s.mem.setBytes State.codeBase bytes } : State).loadTurn w

end Sys2Proof.Machine
end

