-- ==== Sys2Proof/Safety.lean ====
section
/-! DEFINITION. What the model asks of a safe run: no step stops, and the state keeps its invariant. -/

namespace Sys2Proof.Safety

open Sys2Proof.Machine

/-- A step answered a next state. -/
def goesOn : Host.Outcome State Fault Refusal → Bool
  | .next _ => true
  | .fault _ => false
  | .refused _ => false

/-- Every state of a run of at most n steps goes on. -/
def runsFor : Nat → State → Prop
  | 0, _ => True
  | n + 1, s => ∃ t, step s = .next t ∧ runsFor n t

end Sys2Proof.Safety
end

