-- ==== Sys2Proof/Certificates/Slice0/Obligations.lean ====
section
/-! DEFINITION. The statements for the provers. Each says what an instruction or the machine does; helper
definitions of the statements stand in the namespace `Sys2Proof.Claims`. -/

open Sys2Proof Sys2Proof.Machine

namespace Sys2Proof.Claims

/-- The instruction goes on at the next address with v in xd, in a context or a lane thread. -/
def into (s : State) (d : XReg) (v : Word) : Host.Outcome State Fault Refusal := .next ((s.setX d v).advance 4)

/-- The registers an instruction names exist for the agent that executes it (R228), and no vector instruction of a context's
queue is still to send a value to one of them (R187). -/
def regsOk (s : State) (rs : List XReg) : Prop := ∀ r ∈ rs, s.regOk r = true ∧ (s.lane = none → r ∉ s.ctx.sendsTo)

/-- A front end's context executes, and no older vector instruction waits in its queue. -/
def onFront (s : State) : Prop := s.lane = none ∧ s.ctx.isMiller = false ∧ s.ctx.vq = []

/-- A context, a front end's or a Miller's, executes, and no older vector instruction waits. -/
def onContext (s : State) : Prop := s.lane = none ∧ s.ctx.vq = []

/-- An address of format M with a signed offset in units of n bytes (R130). -/
def addrM {k : Nat} (s : State) (a : XReg) (n : Nat) (o : BitVec k) : Word := s.getX a + o.signExtend 64 * BitVec.ofNat 64 n

/-- n leading zero bits. -/
def leadingZeros (x : Word) (n : Nat) : Prop :=
  n ≤ 64 ∧ (∀ i, i < n → x.getLsbD (63 - i) = false) ∧ (n < 64 → x.getLsbD (63 - n) = true)

/-- n trailing zero bits. -/
def trailingZeros (x : Word) (n : Nat) : Prop :=
  n ≤ 64 ∧ (∀ i, i < n → x.getLsbD i = false) ∧ (n < 64 → x.getLsbD n = true)

end Sys2Proof.Claims

open Sys2Proof.Claims

/-! ## Decoding and the step -/

namespace Sys2Proof.Claims

/-- In its turn the context of t fetches, and from the state u: t itself where the vector queue is empty, else what the oldest
queued instruction leaves when it cannot be dispatched yet. -/
def fetchesFrom (t u : State) : Prop :=
  t.ctx.returning = false ∧ ((t.ctx.vq = [] ∧ u = t) ∨ (t.ctx.vq ≠ [] ∧ dispatchHead t = .error (.wait u)))

/-- It is the current context's turn, and the turn starts from t: by the model's own order, or as the agenda says. -/
def turnOf (s t : State) : Prop :=
  (s.agenda = [] ∧ s.yielded = 0 ∧ s.canIssue s.ctx = true ∧ s.streak < State.turnLength ∧ t = { s with streak := s.streak + 1 }) ∨
  (∃ (rest : List Turn) (k : Ctx), s.agenda = .run s.ctx.id :: rest ∧ s.ctx.present = true ∧ s.findCtx s.ctx.id = some k ∧
    s.canIssue k = true ∧ t = { s with agenda := rest, yielded := 0 })

end Sys2Proof.Claims

/-- A step of the current context runs exec of the instruction that the bytes at its pc decode to. Around it stand
only the bookkeeping of turns (`streak`, `yielded`), of Millers (`unissued`) and the fetched encoding. Before it come the
vector queue's oldest instruction when that can be dispatched, and one that a resume request has left to be dispatched. -/
def Sys2Proof.Claims.ContextStep : Prop :=
  ∀ (s t u s' : State) (enc size : Nat) (i : Instr), turnOf s t →
    (decodeWord enc = .ok i → fetchesFrom t u → u.fetch = .word s' enc size →
      step s = exec i { s' with ctx := { s'.ctx with unissued := false }, enc := word enc, arg := .none }) ∧
    (t.ctx.returning = false → t.ctx.vq ≠ [] → (∀ w, dispatchHead t ≠ .error (.wait w)) →
      step s = exec .vectorDispatch { t with arg := .none }) ∧
    (t.ctx.returning = true → step s = settle (returnHeld t))

/-- A lane thread's step, when no lower element of its lane is left, runs exec of the instruction at its own pc and counts it
(R228, R229); a register with an uncorrectable error that it reads counts as poison consumed (R321). -/
def Sys2Proof.Claims.LaneStepRunsDecoded : Prop :=
  ∀ (s s' t : State) (enc size e : Nat) (rest : List Turn) (i : Instr),
    let l : State := { s with agenda := rest, lane := some e, yielded := 0 }
    decodeWord enc = .ok i → s.agenda = .lane s.ctx.id e :: rest → s.ctx.present = true → (s.findCtx s.ctx.id).isSome = true →
    l.thread?.isSome = true → l.laneFirst e = true → l.overLimit = false → l.fetch = .word s' enc size →
    exec i { s' with ctx := { s'.ctx with unissued := false }, enc := word enc, arg := .none } = .next t →
    let u := if t.lane.isSome = true ∧ t.yielded = 0 ∧ l.laneConsumes = true then t.vectorPoison true else t
    step s = .next (if u.yielded = 0 then ({ u with lane := none } : State).countLane s.ctx.id e else { u with lane := none })

/-- Words written out from the encodings of R129, R132-R136, R145-R156, R170, R178, R251 and the parcels that the
spec's examples give, and the instructions they are. -/
def Obligations.DecodeWords : Prop :=
  decodeWord 0x1CA01234 = .ok (.lui 5 0x1234) ∧ decodeWord 0x10A55678 = .ok (.ori 5 5 0x5678) ∧
  decodeWord 0x18A50003 = .ok (.slli 5 5 3) ∧ decodeWord 0x04A53020 = .ok (.mul 5 5 6) ∧
  decodeWord 0x254B6348 = .ok (.ffma .f64 10 11 12 13) ∧ decodeWord 0x20A63C60 = .ok (.fdiv .f64 5 6 7) ∧
  decodeWord 0x28000007 = .ok .lexit ∧ decodeWord 0x2CA00015 = .ok (.ctlr 5 0x015) ∧ decodeWord 0x2CA64015 = .ok (.ctlw 5 6 0x015) ∧
  decodeWord 0x88A7306D = .ok (.amoadd 5 7 6 0 .ar .die) ∧ decodeWord 0x90C7406C = .ok (.cas 6 7 8 0 .ar .die) ∧
  decodeWord 0x94053060 = .ok (.fence .die 5 6) ∧ decodeWord 0x95E98C00 = .ok (.stashmap 15 9 17) ∧
  decodeWord 0x98410602 = .ok (.hldAcq 2 1 0 .device 2) ∧ decodeWord 0xACC14070 = .ok (.hcasw 6 1 8 0 .ar .device) ∧
  decodeWord 0xB0A10100 = .ok (.hpin 5 1) ∧ decodeWord 0xB533A040 = .ok (.cpy 9 19 20) ∧
  decodeWord 0xB4A60300 = .ok (.launch 5 6) ∧ decodeWord 0xB8000400 = .ok .msync ∧
  decodeWord 0x00038000C0004000 = .ok (.plotset false 1 7)

/-- For every well-formed instruction that has a word, the decoder reads that instruction back from the word the
encoder writes, whatever its operands. -/
def Obligations.DecodeOfEncode : Prop := ∀ (i : Instr) (w : Nat), i.wf = true → encode i = some w → decodeWord w = .ok i

/-- No bit of a word is dropped and no two words are one instruction: a word of 32 or 64 bits that decodes is the
word that the encoder writes for what it decodes to, which is well-formed. -/
def Obligations.EncodeOfDecode : Prop :=
  ∀ (i : Instr) (w : Nat), decodeWord w = .ok i → w < (if isVectorParcel w then 2 ^ 64 else 2 ^ 32) →
    i.wf = true ∧ encode i = some w

/-! ## Integer arithmetic -/

/-- Major 0x01: each result of R143, with the corners of R144, for front ends, Millers and lane threads. No flag and
no trap: the conclusion is the next state, and nothing but xd and the pc is written. -/
def Sys2Proof.Claims.IntegerRegister : Prop :=
  ∀ (s : State) (d a b : XReg), regsOk s [d, a, b] →
    let x := s.getX a
    let y := s.getX b
    let k := (y.extractLsb' 0 6).toNat
    exec (.add d a b) s = into s d (x + y) ∧ exec (.sub d a b) s = into s d (x - y) ∧
    exec (.and d a b) s = into s d (x &&& y) ∧ exec (.or d a b) s = into s d (x ||| y) ∧ exec (.xor d a b) s = into s d (x ^^^ y) ∧
    exec (.sll d a b) s = into s d (x <<< k) ∧ exec (.srl d a b) s = into s d (x >>> k) ∧
    exec (.sra d a b) s = into s d (x.sshiftRight k) ∧
    exec (.slt d a b) s = into s d (if x.toInt < y.toInt then 1 else 0) ∧
    exec (.sltu d a b) s = into s d (if x.toNat < y.toNat then 1 else 0) ∧
    exec (.min d a b) s = into s d (if x.toInt < y.toInt then x else y) ∧
    exec (.max d a b) s = into s d (if x.toInt < y.toInt then y else x) ∧
    exec (.minu d a b) s = into s d (if x.toNat < y.toNat then x else y) ∧
    exec (.maxu d a b) s = into s d (if x.toNat < y.toNat then y else x) ∧
    exec (.mul d a b) s = into s d (x * y) ∧
    exec (.mulh d a b) s = into s d ((x.signExtend 128 * y.signExtend 128).extractLsb' 64 64) ∧
    exec (.mulhu d a b) s = into s d ((x.zeroExtend 128 * y.zeroExtend 128).extractLsb' 64 64) ∧
    (∀ n, leadingZeros x n → exec (.clz d a) s = into s d (BitVec.ofNat 64 n)) ∧
    (∀ n, trailingZeros x n → exec (.ctz d a) s = into s d (BitVec.ofNat 64 n)) ∧
    exec (.popc d a) s = into s d (BitVec.ofNat 64 ((List.range 64).countP (fun i => x.getLsbD i)))

/-- Division never traps, and its corners give the results of R144's table. -/
def Obligations.DivisionCorners : Prop :=
  ∀ (s : State) (d a b : XReg), regsOk s [d, a, b] →
    let x := s.getX a
    let y := s.getX b
    (y = 0 → exec (.div d a b) s = into s d (BitVec.allOnes 64) ∧ exec (.divu d a b) s = into s d (BitVec.ofNat 64 (2 ^ 64 - 1)) ∧
      exec (.rem d a b) s = into s d x ∧ exec (.remu d a b) s = into s d x) ∧
    (x.toInt = -2 ^ 63 → y.toInt = -1 → exec (.div d a b) s = into s d x ∧ exec (.rem d a b) s = into s d 0) ∧
    (y ≠ 0 → exec (.divu d a b) s = into s d (BitVec.ofNat 64 (x.toNat / y.toNat)) ∧
      exec (.remu d a b) s = into s d (BitVec.ofNat 64 (x.toNat % y.toNat))) ∧
    (y ≠ 0 → ∀ q r : Int, x.toInt = q * y.toInt + r → r.natAbs < y.toInt.natAbs → (r = 0 ∨ r.sign = x.toInt.sign) →
      exec (.div d a b) s = into s d (BitVec.ofInt 64 q) ∧ exec (.rem d a b) s = into s d (BitVec.ofInt 64 r))

/-- The immediate forms of R145 with the extensions of R130. -/
def Sys2Proof.Claims.IntegerImmediate : Prop :=
  ∀ (s : State) (d a : XReg) (i : BitVec 16) (h : BitVec 6), regsOk s [d, a] →
    let x := s.getX a
    exec (.addi d a i) s = into s d (x + i.signExtend 64) ∧
    exec (.andi d a i) s = into s d (x &&& i.zeroExtend 64) ∧ exec (.ori d a i) s = into s d (x ||| i.zeroExtend 64) ∧
    exec (.xori d a i) s = into s d (x ^^^ i.zeroExtend 64) ∧
    exec (.slli d a h) s = into s d (x <<< h.toNat) ∧ exec (.srli d a h) s = into s d (x >>> h.toNat) ∧
    exec (.srai d a h) s = into s d (x.sshiftRight h.toNat) ∧
    exec (.lui d i) s = into s d (i.signExtend 64 <<< 16)

namespace Sys2Proof.Claims

/-- Destination of an integer instruction of majors 0x01-0x07. -/
def intDest : Instr → Option XReg
  | .add d _ _ | .sub d _ _ | .and d _ _ | .or d _ _ | .xor d _ _ | .sll d _ _ | .srl d _ _ | .sra d _ _ | .slt d _ _
  | .sltu d _ _ | .min d _ _ | .max d _ _ | .minu d _ _ | .maxu d _ _ | .clz d _ | .ctz d _ | .popc d _ | .mul d _ _
  | .mulh d _ _ | .mulhu d _ _ | .div d _ _ | .divu d _ _ | .rem d _ _ | .remu d _ _ | .addi d _ _ | .andi d _ _
  | .ori d _ _ | .xori d _ _ | .slli d _ _ | .srli d _ _ | .srai d _ _ | .lui d _ => some d
  | _ => none

/-- Only the registers r of the current context that p admits, and its pc, may differ: every other register and bit
of the machine is as it was. -/
def onlyX (p : XReg → Prop) (s t : State) : Prop :=
  (∀ r, ¬ p r → t.ctx.getX r = s.ctx.getX r) ∧ (∀ a, t.mem.byte a = s.mem.byte a) ∧
  t = { s with ctx := { s.ctx with x := t.ctx.x, pc := t.ctx.pc } }

end Sys2Proof.Claims

/-- Frame of majors 0x01-0x07 in a context: every register but xd, every flag and special register, and every byte of
memory are unchanged. A write of x0 changes no register. -/
def Sys2Proof.Claims.IntegerFrame : Prop :=
  ∀ (i : Instr) (d : XReg) (s t : State), intDest i = some d → s.lane = none → exec i s = .next t →
    onlyX (fun r => r = d ∧ d ≠ 0) s t ∧ t.ctx.pc = s.ctx.pc + 4

/-- Majors 0x01-0x07 (R143-R145): every result of the register and of the immediate forms, and their frame. -/
def Obligations.IntegerResults : Prop := IntegerRegister ∧ IntegerImmediate ∧ IntegerFrame



/-! ## Scalar floating point -/

namespace Sys2Proof.Claims

/-- What a scalar floating-point instruction computes (R147, R148): the registers it names, xd, and its result with
the exceptions it raises, under the rounding mode in FCSR bits 15:13. An operand is the low 32 or 64 bits. -/
def fpOp (s : State) (i : Instr) : Option (List XReg × XReg × FRes) :=
  let rm := rmodeOf (s.ctx.fcsr.extractLsb' 13 3).toNat
  let v (t : STy) (r : XReg) : Nat := (s.getX r).toNat % 2 ^ (sFmt t).width
  let quiet (n : Nat) : FRes := { bits := n, flags := 0 }
  let flag (p : Bool × FFlags) : FRes := { bits := if p.1 then 1 else 0, flags := p.2 }
  match i with
  | .fadd t d a b => some ([d, a, b], d, (sFmt t).add rm (v t a) (v t b))
  | .fsub t d a b => some ([d, a, b], d, (sFmt t).sub rm (v t a) (v t b))
  | .fmul t d a b => some ([d, a, b], d, (sFmt t).mul rm (v t a) (v t b))
  | .fdiv t d a b => some ([d, a, b], d, (sFmt t).div rm (v t a) (v t b))
  | .fsqrt t d a => some ([d, a], d, (sFmt t).sqrt rm (v t a))
  | .fmin t d a b => some ([d, a, b], d, quiet ((sFmt t).minmax false (v t a) (v t b)))
  | .fmax t d a b => some ([d, a, b], d, quiet ((sFmt t).minmax true (v t a) (v t b)))
  | .fcmpEq t d a b => some ([d, a, b], d, flag ((sFmt t).cmp .eq (v t a) (v t b)))
  | .fcmpLt t d a b => some ([d, a, b], d, flag ((sFmt t).cmp .lt (v t a) (v t b)))
  | .fcmpLe t d a b => some ([d, a, b], d, flag ((sFmt t).cmp .le (v t a) (v t b)))
  | .fcvtToI64 t d a => some ([d, a], d, (sFmt t).toInt rm 64 (v t a))
  | .fcvtFromI64 t d a => some ([d, a], d, (sFmt t).ofInt rm (s.getX a).toInt)
  | .fcvtFpFp .f32 d a => some ([d, a], d, fFp32.conv fFp64 rm (v .f32 a))
  | .fcvtFpFp .f64 d a => some ([d, a], d, fFp64.conv fFp32 rm (v .f64 a))
  | .fmv t d a => some ([d, a], d, quiet (v t a))
  | .fneg t d a => some ([d, a], d, quiet (v t a ^^^ 2 ^ ((sFmt t).width - 1)))
  | .fabs t d a => some ([d, a], d, quiet (v t a % 2 ^ ((sFmt t).width - 1)))
  | .ffma t d a b c => some ([d, a, b, c], d, (sFmt t).fma rm false false (v t a) (v t b) (v t c))
  | .ffms t d a b c => some ([d, a, b, c], d, (sFmt t).fma rm false true (v t a) (v t b) (v t c))
  | .ffnma t d a b c => some ([d, a, b, c], d, (sFmt t).fma rm true true (v t a) (v t b) (v t c))
  | .ffnms t d a b c => some ([d, a, b, c], d, (sFmt t).fma rm true false (v t a) (v t b) (v t c))
  | _ => none

/-- The causes of the exceptions that are raised and enabled, lowest first (R115, R149): invalid, divide-by-zero,
overflow, underflow. -/
def enabledCauses (fcsr : Word) (f : FFlags) : List Nat :=
  [(0x10, 8, 4), (0x11, 9, 3), (0x12, 10, 2), (0x13, 11, 1)].filterMap
    (fun p => if fcsr.getLsbD p.2.1 && f.getLsbD p.2.2 then some p.1 else none)

/-- Bit patterns of a format (R73): NaN, infinity, zero; all within the width. -/
def isNaN (f : Fmt) (x : Nat) : Prop := x < 2 ^ f.width ∧ x / 2 ^ f.mbits % 2 ^ f.ebits = 2 ^ f.ebits - 1 ∧ x % 2 ^ f.mbits ≠ 0
def isInf (f : Fmt) (neg : Bool) (x : Nat) : Prop := x = (if neg then 2 ^ (f.width - 1) else 0) + (2 ^ f.ebits - 1) * 2 ^ f.mbits
def isZero (f : Fmt) (neg : Bool) (x : Nat) : Prop := x = if neg then 2 ^ (f.width - 1) else 0
/-- A finite value with its sign. -/
def isFinite (f : Fmt) (neg : Bool) (x : Nat) : Prop :=
  x < 2 ^ f.width ∧ x / 2 ^ f.mbits % 2 ^ f.ebits ≠ 2 ^ f.ebits - 1 ∧ (x / 2 ^ (f.width - 1) = if neg then 1 else 0)

end Sys2Proof.Claims

/-- An exception whose enable is set traps with the lowest code at the instruction, with TVAL 0 and TPC its address,
and writes neither xd nor a flag; otherwise the flags stick and xd receives the result. For all of majors 0x08 and
0x09. The trap registers stand as said where InTrap is 0 (R315). Behind a vector instruction that has not been dispatched the
flags wait until it is done, and a trap waits for the queue (R153). -/
def Sys2Proof.Claims.FpExceptions : Prop :=
  ∀ (i : Instr) (s : State) (rs : List XReg) (d : XReg) (r : FRes), fpOp s i = some (rs, d, r) → s.lane = none →
    s.ctx.isMiller = false → regsOk s rs →
    (s.ctx.vq = [] → enabledCauses s.ctx.fcsr r.flags = [] → exec i s =
      .next ((({ s with ctx := { s.ctx with fcsr := s.ctx.fcsr ||| r.flags.zeroExtend 64 } } : State).setX d
        (BitVec.ofNat 64 r.bits)).advance 4)) ∧
    (∀ es en, s.ctx.vq = es ++ [en] → enabledCauses s.ctx.fcsr r.flags = [] → exec i s =
      .next ((({ s with ctx := { s.ctx with vq := es ++ [{ en with flags := en.flags ||| r.flags }] } } : State).setX d
        (BitVec.ofNat 64 r.bits)).advance 4)) ∧
    (∀ c cs, enabledCauses s.ctx.fcsr r.flags = c :: cs →
      (s.ctx.vq ≠ [] → exec i s = .next s.yieldTurn) ∧
      (s.ctx.vq = [] → ∃ t, exec i s = .next t ∧ t = s.takeTrap (.scalar c 0) ∧
        (∀ q, t.ctx.getX q = s.ctx.getX q) ∧ t.ctx.fcsr = s.ctx.fcsr ∧
        (s.ctx.inTrap = false → t.ctx.tval = 0 ∧ t.ctx.tpc = s.ctx.pc ∧ t.ctx.tcause = BitVec.ofNat 64 c)))

/-- The special values of R116, R147 and R148, in every rounding mode. -/
def Obligations.FpSpecialValues : Prop :=
  ∀ (t : STy) (rm : RMode) (a b c : Nat) (p q : Bool), let f := sFmt t
    let nan : FRes := { bits := f.nan, flags := 0 }
    let invalid : FRes := { bits := f.nan, flags := fNV }
    (isNaN f a → f.add rm a b = nan ∧ f.sub rm a b = nan ∧ f.mul rm a b = nan ∧ f.div rm a b = nan ∧ f.sqrt rm a = nan ∧
      f.fma rm p q a b c = nan ∧ f.toInt rm 64 a = { bits := 0, flags := fNV } ∧ f.cmp .eq a b = (false, 0) ∧
      f.cmp .lt a b = (false, fNV) ∧ f.cmp .le a b = (false, fNV)) ∧
    (isNaN f b → f.add rm a b = nan ∧ f.sub rm a b = nan ∧ f.mul rm a b = nan ∧ f.div rm a b = nan ∧
      f.fma rm p q a b c = nan ∧ f.cmp .eq a b = (false, 0) ∧ f.cmp .lt a b = (false, fNV) ∧ f.cmp .le a b = (false, fNV)) ∧
    (isNaN f a → isNaN f b → ∀ m, f.minmax m a b = f.nan) ∧
    (isNaN f a → isFinite f p b → ∀ m, f.minmax m a b = b ∧ f.minmax m b a = b) ∧
    (isZero f true a → isZero f false b → f.minmax false a b = a ∧ f.minmax false b a = a ∧ f.minmax true a b = b ∧
      f.minmax true b a = b ∧ f.sqrt rm a = { bits := a, flags := 0 }) ∧
    (isInf f p a → isInf f (!p) b → f.add rm a b = invalid ∧ f.sub rm a a = invalid ∧ f.div rm a b = invalid) ∧
    (isInf f p a → isZero f q b → f.mul rm a b = invalid ∧ f.mul rm b a = invalid ∧ ∀ m n, f.fma rm m n a b c = invalid) ∧
    (isZero f p a → isZero f q b → f.div rm a b = invalid) ∧
    (isFinite f p a → ¬ isZero f p a → isZero f q b → ∃ r, isInf f (p != q) r ∧ f.div rm a b = { bits := r, flags := fDZ }) ∧
    (isFinite f true a → ¬ isZero f true a → f.sqrt rm a = invalid) ∧
    (isFinite f p a → ∃ r, isZero f (rm == .rdn) r ∧ (¬ isZero f p a → f.sub rm a a = { bits := r, flags := 0 })) ∧
    (isInf f false a → f.toInt rm 64 a = { bits := 2 ^ 63 - 1, flags := fNV }) ∧
    (isInf f true a → f.toInt rm 64 a = { bits := 2 ^ 63, flags := fNV })

/-- Majors 0x08 and 0x09 are legal on front ends only: on a Miller each raises cause 0x01, and in a lane thread it
ends the thread with a fault. -/
def Sys2Proof.Claims.FpNotOnMiller : Prop :=
  ∀ (i : Instr) (s : State) (rs : List XReg) (d : XReg) (r : FRes), fpOp s i = some (rs, d, r) →
    s.ctx.isMiller = true ∨ s.lane ≠ none → exec i s = .next (s.takeTrap (.scalar 0x01 s.enc))

/-- Majors 0x08 and 0x09 (R138, R147-R149): results, sticky flags, traps of enabled exceptions, and who may run them. -/
def Obligations.FloatingPoint : Prop := FpExceptions ∧ FpNotOnMiller

/-! ## Branches and jumps -/

namespace Sys2Proof.Claims

/-- Control goes to the address, or goes on behind the instruction. -/
def goes (s : State) (b : Bool) (a : Word) : Host.Outcome State Fault Refusal := .next (if b then s.setPc a else s.setPc (s.pc + 4))

/-- Target of formats B and J: own address plus the sign-extended offset times 4. -/
def branchTarget {k : Nat} (s : State) (o : BitVec k) : Word := s.pc + o.signExtend 64 * 4

end Sys2Proof.Claims

/-- The compare branches (R150): nothing but the pc changes. -/
def Sys2Proof.Claims.CompareBranches : Prop :=
  ∀ (s : State) (a b : XReg) (o : BitVec 16), regsOk s [a, b] →
    let x := s.getX a
    let y := s.getX b
    let t := branchTarget s o
    exec (.beq a b o) s = goes s (decide (x = y)) t ∧ exec (.bne a b o) s = goes s (decide (x ≠ y)) t ∧
    exec (.blt a b o) s = goes s (decide (x.toInt < y.toInt)) t ∧ exec (.bge a b o) s = goes s (decide (y.toInt ≤ x.toInt)) t ∧
    exec (.bltu a b o) s = goes s (decide (x.toNat < y.toNat)) t ∧ exec (.bgeu a b o) s = goes s (decide (y.toNat ≤ x.toNat)) t

/-- The mask branches (R151): they read the stored bits 0 to VL - 1 of the mask, of m0 too; at VL = 0, bany falls
through and ball and bnone are taken. -/
def Sys2Proof.Claims.MaskBranches : Prop :=
  ∀ (s : State) (m : MReg) (o : BitVec 16), onFront s → s.ctx.vl.toNat ≤ 4096 →
    let bit (k : Nat) : Bool := (s.ctx.masks[m.toNat]'m.isLt).getLsbD k
    let t := branchTarget s o
    exec (.bany m o) s = goes s ((List.range s.ctx.vl.toNat).any bit) t ∧
    exec (.ball m o) s = goes s ((List.range s.ctx.vl.toNat).all bit) t ∧
    exec (.bnone m o) s = goes s (!(List.range s.ctx.vl.toNat).any bit) t

/-- jal and jalr (R152): the link is the next address, jalr reads xa before it writes xd, and a target that is not a
multiple of 4 raises cause 0x04 with the target in TVAL. -/
def Sys2Proof.Claims.Jumps : Prop :=
  ∀ (s : State) (d a : XReg) (o : BitVec 21) (i : BitVec 16), regsOk s [d, a] →
    let t := s.getX a + i.signExtend 64
    exec (.jal d o) s = .next ((s.setX d (s.pc + 4)).setPc (branchTarget s o)) ∧
    (t.toNat % 4 = 0 → exec (.jalr d a i) s = .next ((s.setX d (s.pc + 4)).setPc t)) ∧
    (t.toNat % 4 ≠ 0 → exec (.jalr d a i) s = .next (s.takeTrap (.scalar 0x04 t)))

/-- Branches and jumps (R150-R152): where control goes, the link, and a misaligned target. -/
def Obligations.Branches : Prop := CompareBranches ∧ MaskBranches ∧ Jumps

/-! ## Loads, stores, atomics -/

namespace Sys2Proof.Claims

/-- A form of load (R166): whether it sign-extends, its size in bytes, xd, xa, the offset in units of the size, the scope
of an acquire. -/
def loadForm : Instr → Option (Bool × Nat × XReg × XReg × Word × Option Scope)
  | .ldB d a _ o => some (true, 1, d, a, o.signExtend 64, none) | .ldBAcq d a _ q o => some (true, 1, d, a, o.signExtend 64, some q)
  | .ldH d a _ o => some (true, 2, d, a, o.signExtend 64, none) | .ldHAcq d a _ q o => some (true, 2, d, a, o.signExtend 64, some q)
  | .ldW d a _ o => some (true, 4, d, a, o.signExtend 64, none) | .ldWAcq d a _ q o => some (true, 4, d, a, o.signExtend 64, some q)
  | .ldD d a _ o => some (true, 8, d, a, o.signExtend 64, none) | .ldDAcq d a _ q o => some (true, 8, d, a, o.signExtend 64, some q)
  | .ldBu d a _ o => some (false, 1, d, a, o.signExtend 64, none) | .ldBuAcq d a _ q o => some (false, 1, d, a, o.signExtend 64, some q)
  | .ldHu d a _ o => some (false, 2, d, a, o.signExtend 64, none) | .ldHuAcq d a _ q o => some (false, 2, d, a, o.signExtend 64, some q)
  | .ldWu d a _ o => some (false, 4, d, a, o.signExtend 64, none) | .ldWuAcq d a _ q o => some (false, 4, d, a, o.signExtend 64, some q)
  | _ => none

/-- A form of store (R166): size, the register stored, xa, the offset, the scope of a release. -/
def storeForm : Instr → Option (Nat × XReg × XReg × Word × Option Scope)
  | .stB d a _ o => some (1, d, a, o.signExtend 64, none) | .stBRel d a _ q o => some (1, d, a, o.signExtend 64, some q)
  | .stH d a _ o => some (2, d, a, o.signExtend 64, none) | .stHRel d a _ q o => some (2, d, a, o.signExtend 64, some q)
  | .stW d a _ o => some (4, d, a, o.signExtend 64, none) | .stWRel d a _ q o => some (4, d, a, o.signExtend 64, some q)
  | .stD d a _ o => some (8, d, a, o.signExtend 64, none) | .stDRel d a _ q o => some (8, d, a, o.signExtend 64, some q)
  | _ => none

/-- An atomic (R168): operation, xd, xa, xb, order and scope. -/
def amoForm : Instr → Option (AmoOp × XReg × XReg × XReg × AOrd × Scope)
  | .amoswap d a b _ r q => some (.swap, d, a, b, r, q) | .amoadd d a b _ r q => some (.add, d, a, b, r, q)
  | .amoand d a b _ r q => some (.and, d, a, b, r, q) | .amoor d a b _ r q => some (.or, d, a, b, r, q)
  | .amoxor d a b _ r q => some (.xor, d, a, b, r, q) | .amomin d a b _ r q => some (.min, d, a, b, r, q)
  | .amomax d a b _ r q => some (.max, d, a, b, r, q) | .amomaxu d a b _ r q => some (.maxu, d, a, b, r, q)
  | _ => none

/-- New value of an atomic from the old value and xb (R168). -/
def amoNew (op : AmoOp) (old x : Word) : Word :=
  match op with
  | .swap => x | .add => old + x | .and => old &&& x | .or => old ||| x | .xor => old ^^^ x
  | .min => if old.toInt ≤ x.toInt then old else x | .max => if x.toInt ≤ old.toInt then old else x
  | .maxu => if x.toNat ≤ old.toNat then old else x

/-- n bytes of memory from a device physical address on, little-endian (R7). -/
def value (m : Memory) (pa n : Nat) : Nat := ((List.range n).map (fun k => (m.byte (pa + k)).toNat * 256 ^ k)).sum

/-- The access passes every check of R25 and nothing makes it wait; it arrives where r says and leaves the records of caches,
translations and stash lines as t holds them. -/
def admitted (s : State) (k : Acc) (sc : Scope) (va : Word) (n : Nat) (r : State.Reached) (t : State) : Prop :=
  s.access s.agent k sc va n .normal = .ok (r, t)

/-- No vector instruction that accesses memory stands before a load of the context; a lane thread has none before it (R272). -/
def inOrderNow (s : State) : Prop := s.lane = none → s.ctx.memoryQueued = false

/-- A context's access reaches device space (R355). -/
def inDevice (s : State) (pa : Nat) : Prop := s.lane = none ∧ isDeviceRegion pa = true

/-- It reaches what device space answers with a free value: neither a counter of a die nor a select (log 24). -/
def inWindow (s : State) (pa : Nat) : Prop := inDevice s pa ∧ State.counterAt pa = none ∧ State.selectAt pa = none

/-- n bytes of a register of 8 bytes at a device physical address. -/
def part (v : Word) (pa n : Nat) : Nat := v.toNat / 256 ^ (pa % 8) % 256 ^ n

/-- Whose write it is for `waitev`: the context's own, or a lane thread's, which is another agent (R161, R268). -/
def writerOf (s : State) : Option CtxId := if s.lane = none then some s.ctx.id else none

/-- A line that an atomic has read is written where the access arrived. -/
def written (s t : State) (r : State.Reached) (v : Word) : State :=
  (t.touch s.ctx.who r.path (r.pa / 128) true true .normal).putBytes (writerOf s) r.pa (leBytes 8 v.toNat)

/-- The context's part of the state but the registers p admits, and the pc. -/
def ctxFrame (p : XReg → Prop) (s t : State) : Prop :=
  (∀ r, ¬ p r → t.ctx.getX r = s.ctx.getX r) ∧ t.ctx = { s.ctx with x := t.ctx.x, pc := t.ctx.pc }

/-- Which scope an atomic's order makes an acquire, and which a release (R132). -/
def acqAt (r : AOrd) (q : Scope) : Option Scope := if r = .acq ∨ r = .ar then some q else none
def relAt (r : AOrd) (q : Scope) : Option Scope := if r = .rel ∨ r = .ar then some q else none

end Sys2Proof.Claims

/-- Loads (R166), by a front end, a Miller or a lane thread: the address is xa plus offset times size, xd receives the
bytes there sign- or zero-extended; a load into x0 makes the access too. An acquire takes its effect after it. In the window
of the die counters a counter or a select is read; what a request window of device space answers the spec does not give: xd
receives a free value of that size (log 24). A context's load waits while a vector instruction that accesses memory stands in its
queue, so that the order of R270 to R272 holds (log 54). -/
def Sys2Proof.Claims.LoadResult : Prop :=
  ∀ (i : Instr) (sg : Bool) (n : Nat) (r : State.Reached) (d a : XReg) (o : Word) (q : Option Scope) (s t : State),
    loadForm i = some (sg, n, d, a, o, q) → regsOk s [d, a] →
    (s.lane = none → s.ctx.memoryQueued = true → exec i s = .next s.yieldTurn) ∧
    (inOrderNow s → s.mem.wf = true → admitted s .load .strand (s.getX a + o * BitVec.ofNat 64 n) n r t → t.poisonedAt r.pa n = false →
    let out (u : State) (v : Nat) : Host.Outcome State Fault Refusal :=
      .next (((u.setX d (if sg then (BitVec.ofNat (8 * n) v).signExtend 64 else BitVec.ofNat 64 v)).advance 4).acquire q)
    (¬ inDevice s r.pa → exec i s = out t (value s.mem r.pa n)) ∧
    (inDevice s r.pa → ∀ e k, State.counterAt r.pa = some (e, k) → exec i s = out t (part ((t.die e).counts.toList.getD k 0) r.pa n)) ∧
    (inDevice s r.pa → ∀ e k, State.counterAt r.pa = none → State.selectAt r.pa = some (e, k) →
      exec i s = out t (part ((t.die e).selects.toList.getD k 0) r.pa n)) ∧
    (inWindow s r.pa → exec i s = out t.free.2 (t.free.1.toNat % 256 ^ n)))

/-- Frame of loads in a context: no byte of memory changes, and of the context only xd and the pc; where the bytes are
poisoned, CKI too (R317), at once where no vector instruction waits in the queue. -/
def Sys2Proof.Claims.LoadFrame : Prop :=
  ∀ (i : Instr) (sg : Bool) (n : Nat) (r : State.Reached) (d a : XReg) (o : Word) (q : Option Scope) (s t u : State),
    loadForm i = some (sg, n, d, a, o, q) → s.lane = none → inOrderNow s → regsOk s [d, a] →
    admitted s .load .strand (s.getX a + o * BitVec.ofNat 64 n) n r t → exec i s = .next u →
    (∀ b, u.mem.byte b = s.mem.byte b) ∧ (t.poisonedAt r.pa n = false → ctxFrame (fun x => x = d ∧ d ≠ 0) s u) ∧
    (t.poisonedAt r.pa n = true → ctxFrame (fun x => x = d ∧ d ≠ 0) { s with ctx := s.ctx.scalarMark } u ∧ u.ctx.getX d = 0) ∧
    (s.ctx.vq = [] → s.ctx.scalarMark = s.ctx.addCki 1)

/-- Loads (R166, R317): the value and the frame. -/
def Obligations.Loads : Prop := LoadResult ∧ LoadFrame

/-- Stores (R166): a release first waits for what R282 names, then the low bytes of xd stand at the address and no
other byte of memory changes; of the context only the pc changes. A store to a select of a die's counters sets it, and one
that R353 does not admit raises cause 0x02. -/
def Sys2Proof.Claims.StoreResult : Prop :=
  ∀ (i : Instr) (n : Nat) (r : State.Reached) (d a : XReg) (o : Word) (q : Option Scope) (s s0 t : State),
    storeForm i = some (n, d, a, o, q) → regsOk s [d, a] → (s.lane = none → s.ctx.vq = []) → release q s = .ok s0 →
    admitted s0 .store .strand (s.getX a + o * BitVec.ofNat 64 n) n r t →
    (s.lane ≠ none ∨ State.selectAt r.pa = none →
      exec i s = .next ((t.putBytes (writerOf s) r.pa (leBytes n (s.getX d).toNat)).advance 4)) ∧
    (s.lane = none → ∀ e k, State.selectAt r.pa = some (e, k) → n = 8 →
      (State.selectOk (s.getX d) = true → exec i s = .next ((t.setSelect e k (s.getX d)).advance 4)) ∧
      (State.selectOk (s.getX d) = false → exec i s = .next (t.takeTrap (.scalar 0x02 t.enc))))

/-- Frame of stores in a context. -/
def Sys2Proof.Claims.StoreFrame : Prop :=
  ∀ (i : Instr) (n : Nat) (r : State.Reached) (d a : XReg) (o : Word) (q : Option Scope) (s s0 t u : State),
    storeForm i = some (n, d, a, o, q) → s.lane = none → s.ctx.vq = [] → s.mem.wf = true → release q s = .ok s0 →
    admitted s0 .store .strand (s.getX a + o * BitVec.ofNat 64 n) n r t → exec i s = .next u →
    (State.selectAt r.pa = none → ∀ k, k < n → u.mem.byte (r.pa + k) = (s.getX d).extractLsb' (8 * k) 8) ∧
    (∀ b, b < r.pa ∨ r.pa + n ≤ b → u.mem.byte b = s.mem.byte b) ∧ (State.selectAt r.pa = none → ctxFrame (fun _ => False) s u)

/-- Stores (R166, R282): the bytes stored and the frame. -/
def Obligations.Stores : Prop := StoreResult ∧ StoreFrame

/-- Atomics (R168): the old value in xd, the new value stored, in one step. In a request window of device space the old
value is a free value (log 24). -/
def Sys2Proof.Claims.AtomicResult : Prop :=
  ∀ (i : Instr) (op : AmoOp) (p : State.Reached) (d a b : XReg) (r : AOrd) (q : Scope) (s s0 t : State),
    amoForm i = some (op, d, a, b, r, q) → regsOk s [d, a, b] → (s.lane = none → s.ctx.vq = []) → s.mem.wf = true →
    release (relAt r q) s = .ok s0 → admitted s0 .atomic q (s.getX a) 8 p t → t.poisonedAt p.pa 8 = false →
    let out (u : State) (old : Word) : Host.Outcome State Fault Refusal :=
      .next ((((written s u p (amoNew op old (s.getX b))).setX d old).advance 4).acquire (acqAt r q))
    (¬ inDevice s p.pa → exec i s = out t (BitVec.ofNat 64 (value s.mem p.pa 8))) ∧
    (inWindow s p.pa → exec i s = out t.free.2 t.free.1)

/-- cas (R169): the comparand in xn, the new value in xn+1, the address xa + xb; a failed compare writes nothing, and no
other copy of the line is recalled for it. The old value as for atomics. -/
def Sys2Proof.Claims.CasResult : Prop :=
  ∀ (p : State.Reached) (n a b : XReg) (c : BitVec 4) (r : AOrd) (q : Scope) (s s0 t : State),
    regsOk s [n, n + 1, a, b] → (s.lane = none → s.ctx.vq = []) → s.mem.wf = true → release (relAt r q) s = .ok s0 →
    admitted s0 .atomic q (s.getX a + s.getX b) 8 p t → t.poisonedAt p.pa 8 = false →
    let run := exec (.cas n a b c r q) s
    let out (u : State) (old : Word) : Prop :=
      (old = s.getX n → run = .next ((((written s u p (s.getX (n + 1))).setX n old).advance 4).acquire (acqAt r q))) ∧
      (old ≠ s.getX n → run = .next (((u.setX n old).advance 4).acquire (acqAt r q)))
    (¬ inDevice s p.pa → out t (BitVec.ofNat 64 (value s.mem p.pa 8))) ∧ (inWindow s p.pa → out t.free.2 t.free.1)

/-- Frame of atomics and cas in a context: no byte outside the 8 bytes at the address changes. -/
def Sys2Proof.Claims.AtomicFrame : Prop :=
  ∀ (i : Instr) (p : State.Reached) (d : XReg) (va : Word) (r : AOrd) (q : Scope) (s s0 t u : State),
    ((∃ op a b, amoForm i = some (op, d, a, b, r, q) ∧ va = s.getX a) ∨
      (∃ a b c, i = .cas d a b c r q ∧ va = s.getX a + s.getX b)) →
    s.lane = none → s.ctx.vq = [] → s.mem.wf = true → release (relAt r q) s = .ok s0 → admitted s0 .atomic q va 8 p t →
    t.poisonedAt p.pa 8 = false → State.selectAt p.pa = none → exec i s = .next u →
    (∀ x, x < p.pa ∨ p.pa + 8 ≤ x → u.mem.byte x = s.mem.byte x) ∧ ctxFrame (fun x => x = d ∧ d ≠ 0) s u

/-- Atomics and cas (R168, R169): old value, new value and frame. -/
def Obligations.Atomics : Prop := AtomicResult ∧ CasResult ∧ AtomicFrame

namespace Sys2Proof.Claims

/-- Where an access starts: no mapping of the core's stash covers its address. -/
def offStash (s : State) (va : Word) : Prop := s.ctx.isMiller = true ∨ s.stashAt s.ctx.core va = none

end Sys2Proof.Claims

/-- Checks 2 to 4 of R25 in their order, as a walk makes them: an address that is not canonical is read from no table; the stage 2
translation of each table read comes before the entry read there (cause 0x0C, `TVAL` the lease address of that entry), the stage 1
entry and its permissions next (0x08, 0x09 or 0x0A, the virtual address), the stage 2 entry and its permissions last (0x0C, the lease
address); what passes is the combined entry of R24. -/
def Sys2Proof.Claims.WalkChecks : Prop :=
  ∀ (s : State) (w : Who) (fresh : Bool) (k : Acc) (va : Word),
    let stage1 (u : State) : ARes (Tlb × State) :=
      .error (.fault u { cause := if k = .load then 0x08 else if k = .fetch then 0x0A else 0x09, tval := va })
    let grants (l : Leaf) : Bool := match k with | .load => l.r | .store => l.w | .atomic => l.r && l.w | .fetch => l.x
    (canonical va = false → s.walkBoth w fresh k va = stage1 s) ∧
    (canonical va = true → ∀ b, s.sub? w.lease w.sub = some b →
      let v := (va &&& 0x7FFFFFFFFFFFFF).toNat
      let start := s.walkFrom w (some w.sub) fresh v b.root.toNat
      let first := s.walk1 w fresh v start.1 start.2
      (∀ u f, first = .error (.fault u f) → s.walkBoth w fresh k va = .error (.fault u f) ∧ f.cause = 0x0C ∧
        ∃ (level table : Nat) (z : State) (l2 : Option Leaf), 1 ≤ level ∧ level ≤ 3 ∧
          f.tval = BitVec.ofNat 64 (table + 8 * entryIndex level v) ∧ z.stage2 w fresh (table + 8 * entryIndex level v) = .ok (l2, u) ∧
          ∀ l, l2 = some l → l.r = false ∨ l.cls ≠ 0) ∧
      (∀ u l1, first = .ok (l1, u) → (∀ l, l1 = some l → grants l = false) → s.walkBoth w fresh k va = stage1 u) ∧
      (∀ u l1, first = .ok (some l1, u) → grants l1 = true → ∀ u2 l2, u.stage2 w fresh (leafPa l1 va.toNat) = .ok (l2, u2) →
        ((∀ l, l2 = some l → grants l = false) →
          s.walkBoth w fresh k va = .error (.fault u2 { cause := 0x0C, tval := BitVec.ofNat 64 (leafPa l1 va.toNat) })) ∧
        (∀ l, l2 = some l → grants l = true → s.walkBoth w fresh k va = .ok (combine w va l1 l, u2))))

/-- The order of all six checks for a scalar access. A fault of checks 2 to 6 is that of a walk which uses nothing cached (R28), made
from the state itself or from what a first walk leaves; checks 5 and 6 are of the combined entry that this walk answers, with the
virtual address in `TVAL`, and what is admitted has passed both. -/
def Sys2Proof.Claims.ScalarChecks : Prop :=
  ∀ (k : Acc) (sc : Scope) (va : Word) (n : Nat) (s : State),
    let r := scalarAcc (s.access s.agent k sc va n .normal)
    let w := s.ctx.whoFor s.agent
    let test := classTest s.ctx s.agent k sc va n
    (va.toNat % n ≠ 0 → r = .error (.trap s (.scalar 0x04 va))) ∧
    (va.toNat % n = 0 → offStash s va → ∀ t f, s.translate w k va test = .error (.fault t f) →
      r = .error (.trap t (.scalar f.cause f.tval)) ∧
      ∃ u, (u = s ∨ (∃ e, s.walkBoth w false k va = .ok (e, u)) ∨ ∃ g, s.walkBoth w false k va = .error (.fault u g)) ∧
        (u.walkBoth w true k va = .error (.fault t f) ∨
          ∃ e, u.walkBoth w true k va = .ok (e, t) ∧ test e = some f.cause ∧ f.tval = va)) ∧
    (va.toNat % n = 0 → offStash s va → ∀ p t, s.access s.agent k sc va n .normal = .ok (p, t) →
      ∃ e u, s.translate w k va test = .ok (e, u) ∧ test e = none ∧ p.pa = e.phys va) ∧
    (∀ e, (classAdmits s.ctx s.agent k e.cls va n = false → test e = some 0x0D) ∧
      (classAdmits s.ctx s.agent k e.cls va n = true → k = .atomic → e.amo = false → (e.home = 2 ∨ sc = .system) → test e = some 0x0E))

/-- Checks 1 to 6 of R25 in their order: the first that fails raises its cause, with the address the table names. -/
def Obligations.AccessChecks : Prop := WalkChecks ∧ ScalarChecks

/-! ## Fences, caches, translations, stash -/

/-- Poison (R317): a scalar load of a marked word gives 0 and sets CKI.Scalar with the count raised, once the vector
instructions before it are done; an atomic reads 0, writes the new value in full and the mark is cleared. -/
def Obligations.ScalarPoison : Prop :=
  ∀ (i : Instr) (sg : Bool) (n : Nat) (p : State.Reached) (d a b : XReg) (o : Word) (q : Option Scope) (op : AmoOp) (r : AOrd) (sc : Scope)
    (s s0 t : State), s.lane = none →
    (loadForm i = some (sg, n, d, a, o, q) → inOrderNow s → regsOk s [d, a] → admitted s .load .strand (s.getX a + o * BitVec.ofNat 64 n) n p t →
      t.poisonedAt p.pa n = true → ∃ u, exec i s = .next u ∧ u.ctx.getX d = 0 ∧
        (s.ctx.vq = [] → u.ctx.cki.getLsbD 1 = true ∧
          (s.ctx.cki.extractLsb' 32 16 ≠ 0xFFFF → u.ctx.cki.extractLsb' 32 16 = s.ctx.cki.extractLsb' 32 16 + 1)) ∧
        (∀ es en, s.ctx.vq = es ++ [en] → u.ctx.vq = es ++ [{ en with marks := en.marks + 1 }])) ∧
    (amoForm i = some (op, d, a, b, r, sc) → s.ctx.vq = [] → release (relAt r sc) s = .ok s0 →
      admitted s0 .atomic sc (s.getX a) 8 p t → p.pa % 8 = 0 → State.selectAt p.pa = none → t.poisonedAt p.pa 8 = true → s.mem.wf = true →
      ∃ u, exec i s = .next u ∧ u.ctx.getX d = 0 ∧ u.ctx.cki.getLsbD 1 = true ∧ u.poisonedAt p.pa 8 = false ∧
        value u.mem p.pa 8 = (amoNew op 0 (s.getX b)).toNat)

/-- fence and ifence. With an empty before-mask or after-mask a fence orders nothing; otherwise it goes on once the
context's own engine commands are past their issue points (R282), and waits before that. No register and no byte of
memory changes. Accesses are performed at their steps (log 9), so that no other effect is left. -/
def Sys2Proof.Claims.Fences : Prop :=
  ∀ (s : State) (sc : Scope) (a b : XReg), onContext s →
    let idle := (s.getX a).extractLsb' 0 16 = 0 ∨ (s.getX b).extractLsb' 0 16 = 0
    exec .ifence s = .next (s.advance 4) ∧ (idle → exec (.fence sc a b) s = .next (s.advance 4)) ∧
    (¬ idle → ∀ s0, release (some sc) s = .ok s0 → exec (.fence sc a b) s = .next ((s0.acquire (some sc)).advance 4) ∧
      s0.mem = s.mem ∧ s0.ctx = s.ctx) ∧
    (¬ idle → (∃ o ∈ s.ops, o.ctx = s.ctx.id ∧ o.issued = false) → exec (.fence sc a b) s = .next s.yieldTurn)

namespace Sys2Proof.Claims

/-- A form of cacheop (R173): how its lines are checked, whether it only fetches, xa, xb, and what it does to a line. -/
def cacheForm : Instr → Option (Acc × Bool × XReg × XReg × (State → Nat → State))
  | .cacheopPf a b => some (.load, true, a, b, fun s l => s.touch s.ctx.who (.l1 s.ctx.core s.ctx.fe) l false false .normal)
  | .cacheopPf2 a b => some (.load, true, a, b, fun s l => s.touch s.ctx.who .l2 l false false .no)
  | .cacheopPfw a b => some (.store, true, a, b, fun s l =>
      (s.recallLine s.ctx.who (.l1 s.ctx.core s.ctx.fe) l true).touch s.ctx.who (.l1 s.ctx.core s.ctx.fe) l false false .normal)
  | .cacheopEvict a b => some (.load, false, a, b, fun s l => s.recallL1 s.ctx.who s.ctx.core l true)
  | .cacheopClean a b => some (.load, false, a, b, fun s l => s.l2Clean s.ctx.who l)
  | _ => none

end Sys2Proof.Claims

/-- cacheop (R173): a count of 0 has no effect, a count over 16 MiB raises cause 0x02 with TVAL = xb; a single line is
skipped where it may not be reached; while an engine owns it, or an error in it is to be contained, it is awaited by the forms that
complete and not fetched by the others, which return at issue (log 79); and else it is acted on. No byte of memory changes;
after `.pf` the L1 holds the line and after `.evict` it does not. -/
def Sys2Proof.Claims.CacheMaintenance : Prop :=
  ∀ (i : Instr) (k : Acc) (fetch : Bool) (a b : XReg) (f : State → Nat → State) (s : State),
    cacheForm i = some (k, fetch, a, b, f) → onFront s →
    (0x1000000 < (s.getX b).toNat → exec i s = .next (s.takeTrap (.scalar 0x02 (s.getX b)))) ∧
    (s.getX b = 0 → exec i s = .next (s.advance 4)) ∧
    (∀ t, exec i s = .next t → (s.getX b).toNat ≤ 0x1000000 → ∀ x, t.mem.byte x = s.mem.byte x) ∧
    (0 < (s.getX b).toNat → (s.getX a).toNat % 128 + (s.getX b).toNat ≤ 128 →
      (∀ t, s.cacheLine k (s.getX a &&& ~~~127) = .ok (none, t) → exec i s = .next (t.advance 4)) ∧
      (∀ t, s.cacheLine k (s.getX a &&& ~~~127) = .error (.wait t) → exec i s = .next t.yieldTurn) ∧
      (∀ l t, s.cacheLine k (s.getX a &&& ~~~127) = .ok (some l, t) → t.ownedLine l (k == .store) = true →
        exec i s = .next (if fetch then t.advance 4 else t.yieldTurn)) ∧
      (∀ l t u, s.cacheLine k (s.getX a &&& ~~~127) = .ok (some l, t) → t.ownedLine l (k == .store) = false →
        t.detectLine t.ctx.who l = .error u → exec i s = .next (if fetch then u.advance 4 else u.yieldTurn)) ∧
      (∀ l t u, s.cacheLine k (s.getX a &&& ~~~127) = .ok (some l, t) → t.ownedLine l (k == .store) = false →
        t.detectLine t.ctx.who l = .ok u → exec i s = .next ((f u l).advance 4) ∧ (f u l).ctx = s.ctx ∧
        (i = .cacheopPf a b → cacheable l = true → ((f u l).core s.ctx.core).l1.any (fun p => p.line == l) = true) ∧
        (i = .cacheopEvict a b → ((f u l).core s.ctx.core).l1.any (fun p => p.line == l) = false)))

/-- Fences, ifence and cacheop (R171-R173, R282). -/
def Obligations.FencesAndCaches : Prop := Fences ∧ CacheMaintenance

namespace Sys2Proof.Claims

/-- A form of tlbinv (R174): lowest level, whether it acts on stage 1, xb, and the cached translations it names. -/
def tlbForm (s : State) : Instr → Option (Nat × Bool × XReg × (Tlb → Prop))
  | .tlbinvS1 a b => some (2, true, b, fun e => e.va = (s.getX a).toNat / 2 ^ e.size)
  | .tlbinvS1all b => some (2, true, b, fun _ => True)
  | .tlbinvS2 a b => some (3, false, b, fun e => e.ipa / 2 ^ e.size2 = (s.getX a).toNat / 2 ^ e.size2)
  | .tlbinvS2all b => some (3, false, b, fun _ => True)
  | _ => none

end Sys2Proof.Claims

/-- tlbinv (R174): below its level cause 0x03; a number that names no sublease of the issuer's lease, or no lease,
cause 0x02 with TVAL = xb; else it waits while an engine operation of the target is under way, and then every named
translation goes with the target's table pointers, and those of other targets stay. -/
def Obligations.TranslationRemoval : Prop :=
  ∀ (i : Instr) (lvl : Nat) (one : Bool) (b : XReg) (p : Tlb → Prop) (s : State), tlbForm s i = some (lvl, one, b, p) → onFront s →
    let n : Byte := (s.getX b).setWidth 8
    let mine (e : Tlb) : Prop := if one then e.lease = s.ctx.lease ∧ e.sub = n else e.lease = n
    let known : Prop := if one then (s.sub? s.ctx.lease n).isSome = true else (s.lease? n).isSome = true
    (s.ctx.level < lvl → exec i s = .next (s.takeTrap (.scalar 0x03 s.enc))) ∧
    (lvl ≤ s.ctx.level → ¬ known → exec i s = .next (s.takeTrap (.scalar 0x02 (s.getX b)))) ∧
    let busy := if one then s.busy s.ctx.lease (some n) else s.busy n none
    (lvl ≤ s.ctx.level → known → (∃ o ∈ s.ops, if one then o.lease = s.ctx.lease ∧ o.sub = n else o.lease = n) →
      exec i s = .next s.yieldTurn) ∧
    (lvl ≤ s.ctx.level → known → busy = false →
      ∃ t, exec i s = .next t ∧ (∀ e ∈ t.tlb, ¬ (mine e ∧ p e)) ∧ (∀ e ∈ s.tlb, ¬ mine e → e ∈ t.tlb) ∧
        (∀ e ∈ t.tlb, e ∈ s.tlb) ∧
        (∀ e ∈ t.walks, e ∈ s.walks ∧ ¬ (if one then e.lease = s.ctx.lease ∧ e.sub = some n else e.lease = n)) ∧ t.mem = s.mem ∧ t.ctx = { s.ctx with pc := s.ctx.pc + 4 })

/-- stashmap and stashunmap (R175, R176): the first check that fails decides, and nothing is installed; otherwise the
mapping covers its range at once, with no line filled. -/
def Obligations.StashMappings : Prop :=
  ∀ (s : State) (d a b : XReg), onFront s →
    let off := (s.getX d).toNat
    let va := s.getX a
    let len := (s.getX b).toNat
    let own := s.stashRange s.ctx.core s.ctx.fe
    let last := va.toNat + len - 1
    let fates : List (Prop × Nat × Word) :=
      [(va.toNat % 128 ≠ 0, 0x04, va), (off % 128 ≠ 0, 0x02, s.getX d), (len % 128 ≠ 0 ∨ len = 0, 0x02, s.getX b),
       (off < own.1 ∨ own.2 < off + len, 0x02, s.getX d), (∃ m ∈ s.myFe.maps, m.off < off + len ∧ off < m.off + m.len, 0x02, s.getX d),
       (¬ (last < 2 ^ 54 ∨ (2 ^ 64 - 2 ^ 54 ≤ va.toNat ∧ last < 2 ^ 64)), 0x02, va),
       (∃ m ∈ s.myCore.fe0.maps ++ s.myCore.fe1.maps, meets m.addr m.len va len = true, 0x02, va), (16 ≤ s.myFe.maps.length, 0x02, 0)]
    (∀ pre c v post, fates = pre ++ (c, v) :: post → (∀ x ∈ pre, ¬ x.1) → c → exec (.stashmap d a b) s = .next (s.takeTrap (.scalar v.1 v.2))) ∧
    ((∀ x ∈ fates, ¬ x.1) → ∃ t, exec (.stashmap d a b) s = .next t ∧ t.ctx = { s.ctx with pc := s.ctx.pc + 4 } ∧ t.mem = s.mem ∧
      t.myFe.maps = s.myFe.maps ++ [{ ctx := s.ctx.id, off := off, addr := va, len := len, lines := [] }] ∧
      ∀ k, k < len → (t.stashAt s.ctx.core (va + BitVec.ofNat 64 k)).isSome = true) ∧
    ((∀ m ∈ s.myFe.maps, m.off ≠ off) → exec (.stashunmap d) s = .next (s.takeTrap (.scalar 0x02 (s.getX d)))) ∧
    (∀ m, s.myFe.maps.find? (fun k => k.off == off) = some m → s.boardHit s.ctx.core m.off m.len = false →
      ∃ t, exec (.stashunmap d) s = .next t ∧ t.ctx = { s.ctx with pc := s.ctx.pc + 4 } ∧ t.mem = s.mem ∧
        ∀ k, k ∈ t.myFe.maps ↔ k ∈ s.myFe.maps ∧ k.off ≠ off)

/-! ## CTL registers -/

namespace Sys2Proof.Claims

/-- The registers of R158: first and last number, lowest level to read, lowest to write (none: not writable). -/
def ctlTable : List (Nat × Nat × Nat × Option Nat) :=
  [(0x000, 0x008, 0, some 0), (0x009, 0x009, 0, some 1), (0x010, 0x010, 0, some 0), (0x011, 0x011, 0, none),
   (0x012, 0x015, 0, some 0), (0x016, 0x016, 0, none), (0x017, 0x018, 0, some 0), (0x020, 0x020, 0, some 1),
   (0x021, 0x022, 0, some 0), (0x030, 0x032, 0, none), (0x040, 0x05F, 0, some 1), (0x080, 0x080, 0, some 2),
   (0x081, 0x081, 0, some 1), (0x082, 0x085, 0, none), (0x090, 0x090, 0, some 0), (0x0A0, 0x0A0, 0, some 0), (0x0F0, 0x0F0, 3, some 3)]

/-- The registers that exist on a Miller (R157). -/
def ctlMiller : List Nat := [0x000, 0x001, 0x002, 0x003, 0x004, 0x012, 0x020, 0x030, 0x031, 0x032]

/-- Levels of a register of R158, or none for a number absent from the table. -/
def ctlRow (n : Nat) : Option (Nat × Option Nat) := (ctlTable.find? (fun r => decide (r.1 ≤ n) && decide (n ≤ r.2.1))).map (fun r => r.2.2)

/-- A CTL form (R156): whether it writes, xd, xa, register, and the new value from the old one and xa. -/
def ctlForm : Instr → Option (Bool × XReg × XReg × BitVec 12 × (Word → Word → Word))
  | .ctlr d n => some (false, d, 0, n, fun o _ => o)
  | .ctlw d a n => some (true, d, a, n, fun _ v => v)
  | .ctlset d a n => some (decide (a ≠ 0), d, a, n, fun o v => o ||| v)
  | .ctlclr d a n => some (decide (a ≠ 0), d, a, n, fun o v => o &&& ~~~v)
  | _ => none

end Sys2Proof.Claims

/-- Who may read and write a register (R157): an absent number, one that a Miller has not, and a write to a register
marked "none" raise cause 0x01; a level below the table's raises cause 0x03. -/
def Obligations.CtlPrivilege : Prop :=
  ∀ (i : Instr) (w : Bool) (d a : XReg) (n : BitVec 12) (f : Word → Word → Word) (s : State), ctlForm i = some (w, d, a, n, f) →
    s.lane = none → regsOk s [d, a] →
    (ctlRow n.toNat = none → exec i s = .next (s.takeTrap (.scalar 0x01 s.enc))) ∧
    (s.ctx.isMiller = true → n.toNat ∉ ctlMiller → exec i s = .next (s.takeTrap (.scalar 0x01 s.enc))) ∧
    (∀ r, ctlRow n.toNat = some (r, none) → w = true → exec i s = .next (s.takeTrap (.scalar 0x01 s.enc))) ∧
    (∀ r l, ctlRow n.toNat = some (r, l) → (s.ctx.isMiller = true → n.toNat ∈ ctlMiller) →
      (w = false ∧ s.ctx.level < r) ∨ (w = true ∧ ∃ k, l = some k ∧ s.ctx.level < k) →
      exec i s = .next (s.takeTrap (.scalar 0x03 s.enc)))

/-- An access that its level admits (R156): xd receives the old value, and a write that passes the register's field rules
sets the new value whole; one that fails them raises cause 0x02 with the rejected value in TVAL. Order: the vector
queue is empty. -/
def Sys2Proof.Claims.CtlReadWrite : Prop :=
  ∀ (i : Instr) (w : Bool) (d a : XReg) (n : BitVec 12) (f : Word → Word → Word) (s : State) (r : Nat) (l : Option Nat),
    ctlForm i = some (w, d, a, n, f) → onContext s → ctlRow n.toNat = some (r, l) →
    (s.ctx.isMiller = true → n.toNat ∈ ctlMiller) → s.foreignCounter n.toNat = false → r ≤ s.ctx.level →
    let old := s.ctlValue n.toNat
    let new := f old (s.getX a)
    (w = false → exec i s = .next ((s.setX d old).advance 4)) ∧
    (∀ k, l = some k → k ≤ s.ctx.level → w = true →
      (s.ctlOk n.toNat new = true → exec i s = .next (((s.ctlSet n.toNat new).setX d old).advance 4)) ∧
      (s.ctlOk n.toNat new = false → exec i s = .next (s.takeTrap (.scalar 0x02 new))))

/-- What is written is what is read back, register by register, but for the Zero fields of PIPEOWN, BYPASSTH and URNSHARE,
which read zero (R9); and no other register of the table but those that R159, R188 and R158 tie to it changes: a write of
STATUS may set MVL and VL, and a discarded instruction gives its count back to the queue that LQCOUNT counts. ERRINJ is left
out: an injection whose place is reached disarms it (R329). -/
def Sys2Proof.Claims.CtlWriteRead : Prop :=
  ∀ (s : State) (n k r : Nat) (v : Word) (l : Nat) (r2 : Nat × Option Nat), ctlRow n = some (r, some l) → n ≠ 0x0F0 →
    s.ctlOk n v = true → ctlRow k = some r2 → (n = 0x000 → k ≠ 0x010 ∧ k ≠ 0x011) → (n = 0x005 → k ≠ 0x016) →
    let kept : Word := if n = 0x080 then v &&& 0xFF else if n = 0x090 then v &&& 0xFFFFFF else if n = 0x0A0 then v &&& 0x7F else v
    (s.ctlSet n v).ctlValue k = if k = n then kept else s.ctlValue k

/-- The field rules of FCSR, VL, STATUS, VTYPE, TVEC, TCAUSE, VSTART, BYPASSTH and URNSHARE (R115, R159, R103, R40, R55):
exactly these values are admitted. A write that changes STATUS.Protected sets MVL and bounds VL. -/
def Sys2Proof.Claims.CtlFieldRules : Prop :=
  ∀ (s : State) (v : Word),
    (s.ctlOk 0x015 v = true ↔ v.toNat < 2 ^ 16 ∧ (v.extractLsb' 13 3).toNat ≤ 4 ∧ v.getLsbD 12 = false ∧ v.extractLsb' 5 3 = 0) ∧
    (s.ctlOk 0x010 v = true ↔ v.toNat ≤ s.ctx.mvl.toNat) ∧
    (s.ctlOk 0x000 v = true ↔ ∀ k, k ≠ 15 → v.getLsbD k = s.ctx.status.getLsbD k) ∧
    (s.ctlOk 0x012 v = true ↔ v.toNat < 2 ^ 8 ∧ 3 ≤ (v.extractLsb' 4 4).toNat ∧ (v.extractLsb' 4 4).toNat ≤ 8 ∧
      v.extractLsb' 2 2 = 0 ∧ (v.extractLsb' 0 2).toNat ≤ 2) ∧
    (s.ctlOk 0x001 v = true ↔ v.toNat % 4 = 0) ∧ (s.ctlOk 0x003 v = true ↔ v.toNat < 2 ^ 8) ∧
    (s.ctlOk 0x008 v = true ↔ v.toNat < 4096) ∧ s.ctlOk 0x090 v = true ∧
    (s.ctlOk 0x0A0 v = true ↔ 1 ≤ (v.extractLsb' 0 7).toNat ∧ (v.extractLsb' 0 7).toNat ≤ 64) ∧
    (v.getLsbD 15 ≠ s.ctx.status.getLsbD 15 → (s.ctlSet 0x000 v).ctx.mvl = (if v.getLsbD 15 then 2048 else 4096) ∧
      (s.ctlSet 0x000 v).ctx.vl.toNat = min s.ctx.vl.toNat (if v.getLsbD 15 then 2048 else 4096))

/-- CTL registers keep what is written, and admit exactly what their field rules admit (R115, R157-R159). -/
def Obligations.CtlFields : Prop := CtlWriteRead ∧ CtlFieldRules

/-- The register writes that the opcode table lists as steps of their own are CTL writes of the value in the step's
argument, at the context's level; the board's write of a die's ERRINJ is checked alike, and a value that fails leaves
the register. -/
def Sys2Proof.Claims.CtlWriteSteps : Prop :=
  ∀ (s : State) (v : Word), s.ctx.vq = [] → s.lane = none → s.arg = .word v →
    (s.ctx.isMiller = false → s.ctlOk 0x005 v = true → exec .tqposWrite s = .next (s.ctlSet 0x005 v)) ∧
    (s.ctlOk 0x000 v = true → exec .statusProtectedWrite s = .next (s.ctlSet 0x000 v)) ∧
    (s.ctx.isMiller = false → 2 ≤ s.ctx.level → s.ctlOk 0x080 v = true → exec .pipeownWrite s = .next (s.ctlSet 0x080 v)) ∧
    (s.ctx.isMiller = false → s.ctx.level < 2 → exec .pipeownWrite s = .next (s.takeTrap (.scalar 0x03 s.enc))) ∧
    (s.ctx.isMiller = false → s.ctx.level = 3 → s.ctlOk 0x0F0 v = true → exec .errinjWrite s = .next (s.ctlSet 0x0F0 v)) ∧
    (∀ d, exec .errinjWrite { s with arg := .dieWord d v } =
      .next (if errinjOk d v then ({ s with arg := .dieWord d v } : State).setErrinj d v else { s with arg := .dieWord d v }))

/-- CTL instructions (R156) and the register writes that the opcode table lists as steps (R108, R159, R328). -/
def Obligations.CtlAccess : Prop := CtlReadWrite ∧ CtlWriteSteps

/-! ## System instructions and traps -/

/-- syscall (R155): cause 0x20 with TVAL 0 and TPC the next address; where the context is not in a handler, no register
but the trap registers, no byte of memory changes. -/
def Sys2Proof.Claims.ServiceCall : Prop :=
  ∀ (s : State), onContext s → ∃ t, exec .syscall s = .next t ∧
    t = s.takeTrap { cause := 0x20, tval := 0, vec := none, after := true } ∧ (∀ r, t.ctx.getX r = s.ctx.getX r) ∧
    (∀ a, t.mem.byte a = s.mem.byte a) ∧
    (s.ctx.inTrap = false → t.ctx.tcause = 0x20 ∧ t.ctx.tval = 0 ∧ t.ctx.tpc = s.ctx.pc + 4)

/-- Entry of the strand's own handler (R153, R154): at level P the trap registers are set, InTrap is set, and control
goes to TVEC; a trap of a queued vector instruction holds it aside with its position, VSTART, TPLOT and TCELL, and TPC is
the address after it. Younger instructions are discarded, with the registers that they have written since, and nothing else
changes; a scalar trap waits for the older vector instructions. -/
def Sys2Proof.Claims.TrapEntryAtP : Prop :=
  ∀ (s : State) (t : Trap), s.lane = none → s.route s.ctx t.cause = 0 →
    (t.vec = none → s.ctx.vq ≠ [] → s.takeTrap t = s.yieldTurn) ∧
    (t.vec = none → s.ctx.vq = [] → s.takeTrap t = { s with ctx := { s.ctx with
      tcause := BitVec.ofNat 64 t.cause, tval := t.tval, tpc := if t.after then s.ctx.pc + 4 else s.ctx.pc, convoy := []
      status := s.ctx.status ||| 0x10, pc := s.ctx.tvec } }) ∧
    (∀ v, t.vec = some v → s.takeTrap t = { s with ctx := { s.ctx with
      tcause := BitVec.ofNat 64 t.cause, tval := t.tval, tpc := v.entry.next, vq := [], held := some v.entry, convoy := []
      x := v.entry.regs
      tqpos := 0x8000000000000000 + v.entry.pos.zeroExtend 64, vqNext := v.entry.pos + 1
      vstart := BitVec.ofNat 64 v.vstart, tplot := BitVec.ofNat 64 v.plot, tcell := BitVec.ofNat 64 v.cell
      status := s.ctx.status ||| 0x10, pc := s.ctx.tvec } }) ∧
    s.ctx.inTrap = false ∧ s.ctx.tvec ≠ 0

/-- The level that receives a trap is the one R309's pseudocode chooses, and a trap that reaches W ends the context. -/
def Obligations.TrapRouting : Prop :=
  ∀ (s : State) (c : Ctx) (n : Nat), n < 64 →
    let owner : Nat := if n = 0x08 ∨ n = 0x09 ∨ n = 0x0A then 2 else if n = 0x0C ∨ n = 0x30 ∨ n = 0x31 then 3
      else if n = 0x10 ∨ n = 0x11 ∨ n = 0x12 ∨ n = 0x13 ∨ n = 0x18 then 0 else 1
    let tdeleg : Word := if c.isMiller then 0x010F0000 else c.tdeleg
    let l1 := if owner = 2 ∧ (s.ldmOf c).getLsbD n = true then 1 else owner
    let l2 := if (l1 = 1 ∨ owner = 0) ∧ tdeleg.getLsbD n = true then 0 else l1
    let l3 := if owner = 0 ∧ tdeleg.getLsbD n = false then 1 else l2
    let handler (l : Nat) : Prop :=
      (l = 0 ∧ c.status.getLsbD 4 = false ∧ c.tvec ≠ 0) ∨ (l = 1 ∧ ∃ b q, s.sub? c.lease c.sub = some b ∧ b.queue = some q) ∨
      (l = 2 ∧ ∃ b q, s.lease? c.lease = some b ∧ b.queue = some q) ∨ l = 3
    l3 ≤ s.route c n ∧ s.route c n ≤ 3 ∧ handler (s.route c n) ∧ (∀ l, l3 ≤ l → l < s.route c n → ¬ handler l) ∧
    (∀ v, c = s.ctx → s.lane = none → s.ctx.phase = .running → s.ctx.vq = [] → s.route c n = 3 → s.reeve.frozen = false →
      let t := s.takeTrap (.scalar n v)
      t.ctx.phase = .draining ∧ ∃ r ∈ t.reeve.records, r.level = 2 ∧ r.lease = c.lease ∧
        (r.words.getD 0 0).extractLsb' 56 8 = 2 ∧ (r.words.getD 0 0).extractLsb' 48 8 = 0x30)

/-- A trap delivered to S or L (R312, R313): the context is suspended with its trap registers set as entry at P sets
them, InTrap stays 0, and one record of kind 0x01 goes to the receiving level with the cause, TVAL and TPC. -/
def Sys2Proof.Claims.TrapAboveP : Prop :=
  ∀ (s : State) (n : Nat) (v : Word), s.lane = none → s.ctx.vq = [] → n < 64 → s.ctx.inTrap = false →
    (s.route s.ctx n = 1 ∨ s.route s.ctx n = 2) →
    let t := s.takeTrap (.scalar n v)
    t.ctx.phase = .suspended ∧ t.ctx.tcause = BitVec.ofNat 64 n ∧ t.ctx.tval = v ∧ t.ctx.tpc = s.ctx.pc ∧
    t.ctx.status = s.ctx.status ∧ t.ctx.pc = s.ctx.pc ∧ (∀ r, t.ctx.getX r = s.ctx.getX r) ∧ t.mem = s.mem ∧
    ∃ r, t.reeve.records = s.reeve.records ++ [r] ∧ r.level.toNat = s.route s.ctx n ∧ r.lease = s.ctx.lease ∧
      (s.route s.ctx n = 1 → r.sub = s.ctx.sub) ∧ r.words.length = 8 ∧
      (r.words.getD 0 0).extractLsb' 56 8 = 1 ∧ (r.words.getD 0 0).extractLsb' 48 8 = BitVec.ofNat 8 n ∧
      (r.words.getD 0 0).extractLsb' 40 8 = s.ctx.lease ∧ (r.words.getD 0 0).extractLsb' 32 8 = s.ctx.sub ∧
      (r.words.getD 0 0).extractLsb' 0 20 = s.ctx.self ∧ r.words.getD 1 0 = v ∧ r.words.getD 2 0 = s.ctx.pc ∧
      r.words.getD 3 0 = s.ctx.tqpos

/-- Taking a trap at level P (R153, R154) and at S or L (R312, R313). -/
def Obligations.TrapEntry : Prop := TrapEntryAtP ∧ TrapAboveP

/-- tret (R155): InTrap clears and fetch goes on at TPC; with TQPOS.Valid the held instruction is dispatched, with
VSTART as it stands, and Valid clears. With InTrap 0 it raises cause 0x01, with a TPC that is not a multiple of 4 cause
0x04. -/
def Obligations.TrapReturn : Prop :=
  ∀ (s : State), s.lane = none →
    (s.ctx.inTrap = false → exec .tret s = .next (s.takeTrap (.scalar 0x01 s.enc))) ∧
    (s.ctx.inTrap = true → s.ctx.tpc.toNat % 4 ≠ 0 → exec .tret s = .next (s.takeTrap (.scalar 0x04 s.ctx.tpc))) ∧
    (s.ctx.inTrap = true → s.ctx.tpc.toNat % 4 = 0 → s.ctx.vq = [] →
      let back : State := { s with ctx := { s.ctx with
        status := s.ctx.status &&& ~~~0x10, held := none, tqpos := s.ctx.tqpos &&& 0x7FFFFFFFFFFFFFFF, pc := s.ctx.tpc } }
      back.ctx.inTrap = false ∧ back.ctx.tqpos.getLsbD 63 = false ∧
      (s.ctx.tqpos.getLsbD 63 = false ∨ s.ctx.held = none → exec .tret s = .next back) ∧
      (∀ en, s.ctx.held = some en → s.ctx.tqpos.getLsbD 63 = true → s.ctx.threading = false →
        let run := vectorBody en.instr { en with regs := s.ctx.x, flags := 0, marks := 0 } back
        (∀ t, run = .ok t → exec .tret s = .next t) ∧
        (∀ t x, run = .error (.trap t x) → exec .tret s = .next (t.takeTrap x)) ∧
        (∀ t, run = .error (.wait t) → exec .tret s = .next ({ s with pend := t.pend } : State).yieldTurn)))

/-- An encoding that names no instruction raises cause 0x01 with the encoding in TVAL, whether fetched or performed. -/
def Sys2Proof.Claims.IllegalInstruction : Prop :=
  ∀ (s : State), exec .illegalInstruction s = .next (s.takeTrap (.scalar 0x01 s.enc)) ∧
    (∀ (s' : State) (enc size : Nat) (e : Reject), decodeWord enc = .error e → s.agenda = [] → s.yielded = 0 →
      s.canIssue s.ctx = true → s.streak < State.turnLength → s.ctx.vq = [] → s.ctx.returning = false →
      ({ s with streak := s.streak + 1 } : State).fetch = .word s' enc size →
      ∃ u, step s = .next u ∧ u = ({ s' with ctx := { s'.ctx with unissued := false }, enc := word enc, arg := .none } : State).takeTrap
        (.scalar 0x01 (word enc)))

/-- A step runs exec of the instruction that the bytes at the pc decode to: in the current context, in a lane thread; and an
encoding that names no instruction raises cause 0x01 with the encoding in TVAL. -/
def Obligations.StepRunsDecoded : Prop := ContextStep ∧ LaneStepRunsDecoded ∧ IllegalInstruction

/-- waitev, yield, exit, vrelease and chkerr (R161-R165), and the wakes of waitev. -/
def Sys2Proof.Claims.SystemForms : Prop :=
  ∀ (s : State) (d a b : XReg), onContext s → s.ctx.threading = false →
    (∀ p t, s.access .scalar .load .strand (s.getX a) 8 .normal = .ok (p, t) → t.poisonedAt p.pa 8 = false →
      ∃ u w, exec (.waitev d a b) s = .next u ∧ u.ctx.phase = .asleep ∧ u.ctx.pc = s.ctx.pc + 4 ∧ u.ctx.wait = some w ∧ w.dest = d ∧
        w.line = p.pa / 128 ∧ w.hit = false ∧ w.left = (if s.getX b = 0 then none else some (s.getX b).toNat) ∧ u.mem = s.mem) ∧
    (s.siblingRuns s.ctx = false → exec .yield s = .next (s.advance 4)) ∧
    (s.siblingRuns s.ctx = true → ∃ u, exec .yield s = .next u ∧ u.ctx = { s.ctx with pc := s.ctx.pc + 4, passed := true } ∧
      u.canIssue u.ctx = false) ∧
    (s.ctx.present = true → ∃ u, exec .exit s = .next u ∧ u.ctx.phase = .draining ∧ u.ctx.held = none ∧ u.ctx.detach = none ∧ u.mem = s.mem ∧
      (s.ctx.cki ≠ 0 → ∃ r ∈ u.reeve.records, r.level = 1 ∧ r.lease = s.ctx.lease ∧ r.sub = s.ctx.sub ∧
        (r.words.getD 0 0).extractLsb' 56 8 = 0x0A ∧ r.words.getD 6 0 = s.ctx.cki) ∧
      (s.ctx.cki = 0 → u.reeve.records = s.reeve.records)) ∧
    (s.ctx.isMiller = false → ∃ u, exec .vrelease s = .next u ∧ u.ctx.pc = s.ctx.pc + 4 ∧ u.ctx.unit = false ∧
      (∀ v, plotValid (u.ctx.plot v) = false) ∧ u.ctx.pdirty = 0 ∧ (∀ m, u.ctx.mask m = 0) ∧ (∀ f, (u.ctx.front f).slots = []) ∧
      u.ctx.lq = [] ∧ u.ctx.vl = 0 ∧ u.ctx.vstart = 0 ∧ u.ctx.loop.stripcnt = 0 ∧ u.ctx.mfmt = s.ctx.mfmt ∧ u.ctx.vtype = s.ctx.vtype ∧
      u.ctx.kvwin = s.ctx.kvwin ∧ u.ctx.fcsr = s.ctx.fcsr ∧ u.ctx.fill = s.ctx.fill ∧ u.ctx.bypassth = s.ctx.bypassth ∧ u.mem = s.mem ∧
      (∀ r, u.ctx.getX r = s.ctx.getX r)) ∧
    ((s.ctx.isMiller = true → (s.mill s.ctx.cluster).ops = []) → ∃ u, exec (.chkerr d) s = .next u ∧
      u = (({ s with ctx := { s.ctx with cki := 0 } } : State).setX d s.ctx.cki).advance 4) ∧
    (s.ctx.isMiller = true → exec .vrelease s = .next (s.takeTrap (.scalar 0x01 s.enc)))

/-- The wakes of waitev: a write to the watched line gives 0, the timeout 1, in the register that waitev named; the
context runs again. -/
def Sys2Proof.Claims.WaitevWakes : Prop :=
  ∀ (s : State) (w : Wait), s.ctx.phase = .asleep → s.ctx.wait = some w →
    (s.arg = .ctx s.ctx.id → w.hit = true → ∃ u, exec .waitevWake s = .next u ∧ u.ctx.phase = .running ∧ u.ctx.wait = none ∧
      (w.dest ≠ 0 → u.ctx.getX w.dest = 0) ∧ (∀ r, r ≠ w.dest → u.ctx.getX r = s.ctx.getX r) ∧ u.mem = s.mem) ∧
    (s.arg = .ctx s.ctx.id → w.left = some 0 → ∃ u, exec .waitevTimeout s = .next u ∧ u.ctx.phase = .running ∧ u.ctx.wait = none ∧
      (w.dest ≠ 0 → u.ctx.getX w.dest = 1) ∧ (∀ r, r ≠ w.dest → u.ctx.getX r = s.ctx.getX r) ∧ u.mem = s.mem)

/-- syscall, waitev and its wakes, yield, exit, vrelease, chkerr (R155, R161-R165). -/
def Obligations.SystemInstructions : Prop := ServiceCall ∧ SystemForms ∧ WaitevWakes

/-! ## References -/

/-- The barrier (R65): null references and those of the region's phase are as they are; one of the phase before is given
the present phase, or, inside a from-parcel of an active cycle, what the forwarding lookup of its header answers; any
other phase is an operand fault. `headerBelow` is the search of the liveness bitmap, `lookup` that of the table. The repair counts
event 0x09 for a core. That a value of kind 3 or with nonzero bits 59:55 in a register is an operand fault, and that `TVAL` is the
reference's address field, are the model's reading of R57 and R65 (log 58); that the descriptor is read for every reference is
log 36's. -/
def Obligations.Barrier : Prop :=
  ∀ (s : State) (w : Who) (core : Option (Nat × Bool)) (r : Word), let b := regionBase (refAddr r)
    (refKind r = 0 → s.healRef w core r = .ok (r, s)) ∧
    (refKind r = 3 ∨ (refKind r ≠ 0 ∧ r.extractLsb' 55 5 ≠ 0) → s.healRef w core r = .error (.operand s (refField r))) ∧
    ((refKind r = 1 ∨ refKind r = 2) → r.extractLsb' 55 5 = 0 → ∀ d0 t, s.descWord w core b b = .ok (d0, t) →
      let p := (d0.extractLsb' 62 2).toNat
      (refPhase r = p → ∃ u, s.healRef w core r = .ok (r, u)) ∧
      let t1 := match core with | some c => t.count c.1 c.2 0x09 1 | none => t
      (refPhase r ≠ p → refPhase r ≠ (p + 3) % 4 → s.healRef w core r = .error (.operand t1 (refField r))) ∧
      (refPhase r = (p + 3) % 4 → d0.getLsbD 61 = false → s.healRef w core r = .ok (mkRef p (refKind r) (refAddr r), t1)) ∧
      (refPhase r = (p + 3) % 4 → d0.getLsbD 61 = true →
        (∀ u, t1.parcelBit w core 4 (refAddr r) = .ok (false, u) →
          s.healRef w core r = .ok (mkRef p (refKind r) (refAddr r), u)) ∧
        (∀ u v, refKind r = 1 → t1.parcelBit w core 4 (refAddr r) = .ok (true, u) → u.lookup w core p (refAddr r) = .ok (none, v) →
          s.healRef w core r = .ok (r, v)) ∧
        (∀ u v h, refKind r = 1 → t1.parcelBit w core 4 (refAddr r) = .ok (true, u) → u.lookup w core p (refAddr r) = .ok (some h, v) →
          s.healRef w core r = .ok (h, v)) ∧
        (∀ u v, refKind r = 2 → t1.parcelBit w core 4 (refAddr r) = .ok (true, u) → u.headerBelow w core (refAddr r) = .ok (none, v) →
          s.healRef w core r = .error (.operand v (refField r))) ∧
        (∀ u v x hdr h, refKind r = 2 → t1.parcelBit w core 4 (refAddr r) = .ok (true, u) →
          u.headerBelow w core (refAddr r) = .ok (some hdr, v) → v.lookup w core p hdr = .ok (some h, x) →
          s.healRef w core r = .ok (mkRef (refPhase h) 2 (refAddr h + (refAddr r - hdr)), x))))

namespace Sys2Proof.Claims

/-- Reference loads and stores (R178): kind of register (a reference or a data word), its number, base, byte offset, scope. -/
def hldForm : Instr → Option (HReg × HReg × Word × Option Scope)
  | .hld d a _ o => some (d, a, o.signExtend 64 * 8, none) | .hldAcq d a _ q o => some (d, a, o.signExtend 64 * 8, some q)
  | _ => none
def hstForm : Instr → Option (HReg × HReg × Word × Option Scope)
  | .hst d a _ o => some (d, a, o.signExtend 64 * 8, none) | .hstRel d a _ q o => some (d, a, o.signExtend 64 * 8, some q)
  | _ => none
def hldwForm : Instr → Option (XReg × HReg × Word × Option Scope)
  | .hldw d a _ o => some (d, a, o.signExtend 64 * 8, none) | .hldwAcq d a _ q o => some (d, a, o.signExtend 64 * 8, some q)
  | _ => none
def hstwForm : Instr → Option (XReg × HReg × Word × Option Scope)
  | .hstw d a _ o => some (d, a, o.signExtend 64 * 8, none) | .hstwRel d a _ q o => some (d, a, o.signExtend 64 * 8, some q)
  | _ => none

/-- The base register of a reference instruction that reaches an object. -/
def refBaseOf : Instr → Option HReg
  | .hld _ a _ _ | .hldAcq _ a _ _ _ | .hst _ a _ _ | .hstRel _ a _ _ _ | .hldw _ a _ _ | .hldwAcq _ a _ _ _
  | .hstw _ a _ _ | .hstwRel _ a _ _ _ | .hcas _ a _ _ _ _ | .hcasw _ a _ _ _ _ | .hpin _ a | .hunpin a | .hmakeI _ a _ => some a
  | _ => none

/-- An access of a reference instruction passes its checks and arrives where p says. -/
def refAdmitted (s : State) (k : Acc) (sc : Scope) (va : Word) (p : State.Reached) (t : State) : Prop :=
  s.access .gleaner k sc va 8 .normal = .ok (p, t)

/-- Two references are equal (R181, R182): kind and address, or two nulls. -/
def equalRefs (x y : Word) : Prop := refKind x = refKind y ∧ (refKind x = 0 ∨ refField x = refField y)

end Sys2Proof.Claims

/-- Checks 1 to 3 of R179 for every instruction that reaches an object through its base: a null base raises cause 0x02
with TVAL 0, and a base of a reserved kind or with nonzero bits 59:55, which R57 does not speak of for a register, with its address
field (the model's reading, log 58). -/
def Sys2Proof.Claims.ReferenceBaseChecks : Prop :=
  ∀ (i : Instr) (a : HReg) (s : State), refBaseOf i = some a → onFront s → s.ownIssued .system = true →
    let r := s.ctx.getH a
    (refKind r = 0 → ∃ u t, exec i s = .next (State.takeTrap u t) ∧ t = .scalar 0x02 0 ∧ u.ctx = s.ctx ∧ u.mem = s.mem) ∧
    (refKind r = 3 ∨ (refKind r ≠ 0 ∧ r.extractLsb' 55 5 ≠ 0) → ∃ u, exec i s = .next (State.takeTrap u (.scalar 0x02 (refField r))) ∧
      u.ctx = s.ctx ∧ u.mem = s.mem)

/-- Loads and stores of references and data words (R180), once the checks of R179 pass (`refReach` makes checks 1 to 6,
`refStorable` check 8): hldw and hstw move the word at header + offset; hld delivers the healed reference and replaces
the word by a compare-and-swap where healing changed it and the page admits writes, and a word that R57 does not admit raises
cause 0x02 with its address; hst stores the healed value. -/
def Sys2Proof.Claims.ReferenceAccess : Prop :=
  ∀ (i : Instr) (s s0 t u v x y : State) (a b : HReg) (d : XReg) (o w : Word) (q : Option Scope) (wr : Bool) (p : State.Reached), onFront s →
    (hldwForm i = some (d, a, o, q) → refReach a o .load .strand false s = .ok (w, wr, t) → refAdmitted t .load .strand w p u →
      u.poisonedAt p.pa 8 = false → exec i s = .next (((u.setX d (BitVec.ofNat 64 (u.mem.num p.pa 8))).advance 4).acquire q)) ∧
    (hstwForm i = some (d, a, o, q) → release q s = .ok s0 → refReach a o .store .strand false s0 = .ok (w, wr, t) →
      refAdmitted t .store .strand w p u →
      exec i s = .next ((u.putBytes (some u.ctx.id) p.pa (leBytes 8 (s.getX d).toNat)).advance 4)) ∧
    (hldForm i = some (b, a, o, q) → refReach a o .load .strand true s = .ok (w, wr, t) → refAdmitted t .load .strand w p u →
      u.poisonedAt p.pa 8 = false → let r := BitVec.ofNat 64 (u.mem.num p.pa 8)
      (refWordOk r = false → exec i s = .next (u.takeTrap (.scalar 0x02 w))) ∧ (
      refWordOk r = true → ∀ h, u.healRef u.ctx.who u.here r = .ok (h, v) →
        (h = r ∨ wr = false → exec i s = .next (((v.setH b h).advance 4).acquire q)) ∧
        (h ≠ r → wr = true → refAdmitted v .atomic .device w p x → x.poisonedAt p.pa 8 = false → x.mem.num p.pa 8 = r.toNat →
          exec i s = .next ((((written v x p h).setH b h).advance 4).acquire q)))) ∧
    (hstForm i = some (b, a, o, q) → release q s = .ok s0 → refReach a o .store .strand true s0 = .ok (w, wr, t) →
      ∀ h, t.healRef t.ctx.who t.here (t.ctx.getH b) = .ok (h, u) → refStorable w h u = .ok v → refAdmitted v .store .strand w p y →
      exec i s = .next (((y.putBytes (some y.ctx.id) p.pa (leBytes 8 h.toNat)).setH b h).advance 4))

/-- Reference instructions: the checks of the base (R179), and loads and stores through it (R180). -/
def Obligations.References : Prop := ReferenceBaseChecks ∧ ReferenceAccess

/-- Compare-and-swap on reference fields and data words (R181): hcas compares kind and address after healing, two nulls being
equal, and the old value comes back healed; hcasw compares the words. A failed compare of hcasw, or of hcas on a word that
healing leaves as it is, writes nothing. -/
def Obligations.ReferenceSwap : Prop :=
  ∀ (s s0 t u v w1 x y z : State) (a n : HReg) (d b : XReg) (c : BitVec 4) (r : AOrd) (q : Scope) (w : Word) (wr : Bool) (p : State.Reached), onFront s →
    release (relAt r q) s = .ok s0 →
    (refReach a (s.getX b) .atomic q false s0 = .ok (w, wr, t) → refAdmitted t .atomic q w p u → u.poisonedAt p.pa 8 = false →
      let old := BitVec.ofNat 64 (u.mem.num p.pa 8)
      (old = s.getX d → exec (.hcasw d a b c r q) s =
        .next ((((written t u p (s.getX (d + 1))).setX d old).advance 4).acquire (acqAt r q))) ∧
      (old ≠ s.getX d → exec (.hcasw d a b c r q) s = .next (((u.setX d old).advance 4).acquire (acqAt r q)))) ∧
    (refReach a (s.getX b) .atomic q true s0 = .ok (w, wr, t) → ∀ cmp new old : Word,
      t.healRef t.ctx.who t.here (t.ctx.getH n) = .ok (cmp, u) → u.healRef u.ctx.who u.here (u.ctx.getH (n + 1)) = .ok (new, v) →
      refAdmitted v .load .strand w p x → x.poisonedAt p.pa 8 = false → let was : Word := BitVec.ofNat 64 (x.mem.num p.pa 8)
      refWordOk was = true → refStorable w new x = .ok w1 → w1.healRef w1.ctx.who w1.here was = .ok (old, y) →
      refAdmitted y .atomic q w p z → z.poisonedAt p.pa 8 = false →
      (equalRefs old cmp → exec (.hcas n a b c r q) s =
        .next (((((written y z p new).setH (n + 1) new).setH n old).advance 4).acquire (acqAt r q))) ∧
      (¬ equalRefs old cmp → old = was → exec (.hcas n a b c r q) s =
        .next ((((z.setH (n + 1) new).setH n old).advance 4).acquire (acqAt r q))) ∧
      (¬ equalRefs old cmp → old ≠ was → exec (.hcas n a b c r q) s =
        .next (((((written y z p old).setH (n + 1) new).setH n old).advance 4).acquire (acqAt r q))))

/-- hcmp, hmake, hmake.i (R182, R184) and the pins (R71, R183): hpin raises the count in header bits 61:54 by one,
answers the header's address and opens a window over the object; with 8 windows in use or a count of 255 it raises cause
0x02; hunpin closes the window and lowers the count, and without one it raises cause 0x02. -/
def Obligations.IdentityAndPins : Prop :=
  ∀ (s t u v : State) (a b : HReg) (d e : XReg), onFront s →
    (∀ x y, s.healRef s.ctx.who s.here (s.ctx.getH a) = .ok (x, t) →
      (t.setH a x).healRef t.ctx.who t.here ((t.ctx.setH a x).getH b) = .ok (y, u) → t.ctx = s.ctx →
      (equalRefs x y → exec (.hcmp d a b) s = .next (((u.setH b y).setX d 1).advance 4)) ∧
      (¬ equalRefs x y → exec (.hcmp d a b) s = .next (((u.setH b y).setX d 0).advance 4))) ∧
    (∀ hdr w0 hd, refPinned a true s = .ok (hdr, w0, hd, t) →
      (t.ctx.pins.length < 8 → headPins w0 ≠ 255 → ∀ p, refAdmitted t .atomic .device hdr p u → u.poisonedAt p.pa 8 = false →
        ∃ z, exec (.hpin d a) s = .next z ∧ z.ctx.getX d = (if d = 0 then 0 else hdr) ∧
          z.ctx.pins = u.ctx.pins ++ [{ header := hdr, size := 16 * hd.size }] ∧
          (u.mem.wf = true → z.mem.num p.pa 8 = (u.mem.num p.pa 8 + 2 ^ 54) % 2 ^ 64)) ∧
      (8 ≤ t.ctx.pins.length ∨ headPins w0 = 255 → exec (.hpin d a) s = .next (t.takeTrap (.scalar 0x02 hdr)))) ∧
    (∀ hdr w0 hd, release (some .device) s = .ok t → refPinned a false t = .ok (hdr, w0, hd, u) →
      (∀ p, u.ctx.pins.find? (fun k => k.header == hdr) = some p → headPins w0 ≠ 0 → ∀ q, refAdmitted u .atomic .device hdr q v →
        v.poisonedAt q.pa 8 = false → ∃ z, exec (.hunpin a) s = .next z ∧ z.ctx.pins = v.ctx.pins.erase p ∧
          (v.mem.wf = true → z.mem.num q.pa 8 = (v.mem.num q.pa 8 + 2 ^ 64 - 2 ^ 54) % 2 ^ 64)) ∧
      ((∀ p ∈ u.ctx.pins, p.header ≠ hdr) → exec (.hunpin a) s = .next (u.takeTrap (.scalar 0x02 hdr)))) ∧
    ((s.getX d).toNat % 16 ≠ 0 → exec (.hmake a d) s = .next (s.takeTrap (.scalar 0x02 (s.getX d)))) ∧
    (∀ tl w0 hd d0, (s.getX d).toNat % 16 = 0 → refAdmits .load .strand (s.getX d) s = .ok (tl, t) → refHead (s.getX d) t = .ok (w0, some hd, u) →
      u.descWord u.ctx.who u.here (regionBase (s.getX d)) (regionBase (s.getX d)) = .ok (d0, v) → d0.getLsbD 61 = false →
      exec (.hmake a d) s = .next ((v.setH a (mkRef (d0.extractLsb' 62 2).toNat 1 (s.getX d))).advance 4)) ∧
    (∀ base tl w0 hd, refBase b s = .ok (base, t) → refAdmits .load .strand (refAddr base) t = .ok (tl, u) → refHead (refAddr base) u = .ok (w0, some hd, v) →
      let off := s.getX e
      (off.toNat % 16 = 0 → 16 ≤ off.toNat → off.toNat < 16 * hd.size →
        exec (.hmakeI a b e) s = .next ((v.setH a (mkRef (refPhase base) 2 (refAddr base + off))).advance 4)) ∧
      (off.toNat % 16 ≠ 0 ∨ off.toNat < 16 ∨ 16 * hd.size ≤ off.toNat → exec (.hmakeI a b e) s = .next (v.takeTrap (.scalar 0x02 off))))

/-! ## Engine commands and pots -/

/-- tdesc, the copies, cpydrain and mcast (R252-R254, R256): their own operand checks, and what they hand to the engines. A
count of 0 does nothing. `giveEngine` checks every range, records the stash ranges and starts the operation. -/
def Obligations.EngineCommands : Prop :=
  ∀ (s t : State) (d a b : XReg) (k : BitVec 4) (q : Scope), onFront s →
    let n := (s.getX b).toNat
    (0x1000000 < n → exec (.cpy d a b) s = .next (s.takeTrap (.scalar 0x02 (s.getX b)))) ∧
    (n = 0 → exec (.cpy d a b) s = .next (s.advance 4) ∧ exec (.cpyDsrc d a b k) s = .next (s.advance 4) ∧
      exec (.cpyDdst d a b k) s = .next (s.advance 4)) ∧
    (0 < n → n ≤ 0x1000000 → s.giveEngine (.cpy (s.getX d) (s.getX a) n) = .ok t → exec (.cpy d a b) s = .next (t.advance 4)) ∧
    (0 < n → lookupN k.toNat s.ctx.descs = none → exec (.cpyDsrc d a b k) s = .next (s.takeTrap (.scalar 0x02 (s.getX a))) ∧
      exec (.cpyDdst d a b k) s = .next (s.takeTrap (.scalar 0x02 (s.getX d)))) ∧
    (∀ desc, 0 < n → lookupN k.toNat s.ctx.descs = some desc →
      (walkOk desc (s.getX a).toNat n = true → s.giveEngine (.dsrc desc (s.getX d) (s.getX a).toNat n) = .ok t →
        exec (.cpyDsrc d a b k) s = .next (t.advance 4)) ∧
      (walkOk desc (s.getX d).toNat n = true → s.giveEngine (.ddst desc (s.getX d).toNat (s.getX a) n) = .ok t →
        exec (.cpyDdst d a b k) s = .next (t.advance 4)) ∧
      (walkOk desc (s.getX a).toNat n = false → exec (.cpyDsrc d a b k) s = .next (s.takeTrap (.scalar 0x02 (s.getX a)))) ∧
      (walkOk desc (s.getX d).toNat n = false → exec (.cpyDdst d a b k) s = .next (s.takeTrap (.scalar 0x02 (s.getX d))))) ∧
    ((s.getX a).toNat % 64 ≠ 0 → exec (.tdesc a k) s = .next (s.takeTrap (.scalar 0x04 (s.getX a)))) ∧
    (∀ ws, (s.getX a).toNat % 64 = 0 → readBlock s (s.getX a) 8 = .ok (ws, t) →
      (descOk ws = true → ∃ u, exec (.tdesc a k) s = .next u ∧ u.ctx.descs = insertN k.toNat ws t.ctx.descs ∧ u.mem = t.mem) ∧
      (descOk ws = false → exec (.tdesc a k) s = .next (t.takeTrap (.scalar 0x1C (s.getX a))))) ∧
    ((∀ o ∈ s.ops, o.ctx ≠ s.ctx.id) → ∃ u, exec (.cpydrain q) s = .next u ∧ u.ctx = { s.ctx with pc := s.ctx.pc + 4 } ∧ u.mem = s.mem) ∧
    ((∃ o ∈ s.ops, o.ctx = s.ctx.id) → exec (.cpydrain q) s = .next s.yieldTurn) ∧
    (let v := s.getX b
     let len := (v.extractLsb' 0 24).toNat
     let bad := v.extractLsb' 32 4 = 0 ∨ len = 0 ∨ 0x800000 < len ∨ v.extractLsb' 36 28 ≠ 0 ∨ v.extractLsb' 24 8 ≠ 0
     (bad → exec (.mcast d a b) s = .next (s.takeTrap (.scalar 0x02 v))) ∧
     (¬ bad → s.getX (b + 1) = 0 → s.giveEngine (.mcast (s.getX d) (s.getX a) len (v.extractLsb' 32 4) 0) = .ok t →
       exec (.mcast d a b) s = .next (t.advance 4)) ∧
     (¬ bad → s.getX (b + 1) ≠ 0 → ∀ pa u, s.potCheck s.ctx.who (some .cluster) (s.getX (b + 1)) = .ok (pa, u) →
       u.giveEngine (.mcast (s.getX d) (s.getX a) len (v.extractLsb' 32 4) (s.getX (b + 1))) = .ok t →
       exec (.mcast d a b) s = .next (t.advance 4)))

/-- The issue point of a copy (R46, R253): the destination receives the source as it stood then, even where the two
overlap, in one step; no other byte changes and no register. It comes only when nothing older conflicts and no other unit
has a line of it. Here source and destination are one piece each. -/
def Sys2Proof.Claims.CopyAtIssue : Prop :=
  ∀ (s t : State) (o : EngineOp) (ps pd n : Nat), s.arg = .op o.id → s.ops.find? (fun p => p.id == o.id) = some o → o.issued = false →
    o.src = [(ps, n)] → o.dst = [(pd, n)] → s.mem.wf = true →
    (s.opBlocked o = true → ∃ u, exec .engineIssuePoint s = .next u ∧ u = s.post .engineIssuePoint (.op o.id)) ∧
    (s.opBlocked o = false → s.detectLines o.who (o.holds ++ o.owns) = .ok t → ∃ u, exec .engineIssuePoint s = .next u ∧
      (∀ k, k < n → u.mem.byte (pd + k) = s.mem.byte (ps + k)) ∧ (∀ a, a < pd ∨ pd + n ≤ a → u.mem.byte a = s.mem.byte a) ∧
      (∀ p ∈ u.ops, p.id = o.id → p.issued = true))

/-- Retirement (R44), arrivals of a multicast (R51, R256) and a stream's transfer unit (R49, R50): an issued operation with no
arrival outstanding goes with its scoreboard entries; each arrival of at most 2,048 bytes sends its count to the pot, and
the last leaves the operation to retire. A slot that nothing has configured, or whose context is not there, is left; one that is
full, or has fetched its last element, stays as it is; one with room for one element fetches the next, with the fault that its
access meets, unless an older command of the core stands before it (R45); a fill from the stash waits for room in the scoreboard
(R31). -/
def Sys2Proof.Claims.EngineMoves : Prop :=
  ∀ (s : State) (o : EngineOp), s.arg = .op o.id → s.ops.find? (fun p => p.id == o.id) = some o → o.issued = true →
    (o.arrivals = [] → ∃ u, exec .engineRetire s = .next u ∧ (∀ p ∈ u.ops, p.id ≠ o.id) ∧ (∀ p ∈ s.ops, p.id ≠ o.id → p ∈ u.ops) ∧
      (∀ e ∈ (u.core o.core).board, e.op ≠ .engine o.id) ∧ u.mem = s.mem ∧ u.ctx = s.ctx) ∧
    (∀ dst src len tg pot t i rest, o.kind = .mcast dst src len tg pot → o.arrivals = (t, i) :: rest → pot ≠ 0 →
      (∀ d : BitVec 2, ∀ y ∈ (s.die d).l2, y.bad = []) →
      ∃ u, exec .mcastArrival s = .next u ∧ (∀ p ∈ u.ops, p.id = o.id → p.arrivals = rest) ∧ u.mem = s.mem ∧
        (.potAddition, .pot { ctx := o.ctx, die := o.who.die, lease := o.lease, sub := o.sub, pot := pot
                              count := BitVec.ofNat 64 (min 2048 (len - 2048 * i)), scope := .cluster }) ∈ u.pend ∧
        (if rest = [] then (.engineRetire, .op o.id) ∈ u.pend else (.mcastArrival, .op o.id) ∈ u.pend)) ∧
    (∀ (fe : BitVec 9) (slot : BitVec 4),
      let x : State := { s with arg := .stream fe slot }
      let q := lookupN slot.toNat ((s.core (fe.toNat / 2)).fe (fe.toNat % 2 == 1)).streams
      (q = none → exec .streamTransfer x = .next x) ∧
      (∀ t, q = some t → (s.findCtx t.ctx = none → exec .streamTransfer x = .next x) ∧
        (t.ctx = s.ctx.id → s.ctx.present = true → s.ctx.core = fe.toNat / 2 → s.ctx.fe = (fe.toNat % 2 == 1) → t.output = false →
          (t.room ≤ t.ahead.length ∨ t.total ≤ t.pos + t.ahead.length →
            ∃ u, exec .streamTransfer x = .next u ∧ u.streamAt slot.toNat = some t ∧ u.mem = s.mem ∧ u.ctx = s.ctx) ∧
          (let y := x.unboard slot.toNat
           let va := t.addr (t.pos + t.ahead.length)
           let free : Prop := y.fillRanges t = [] ∨ y.myCore.board.length < 32
           let gets (e : StreamElem) : Prop := ∃ u t', exec .streamTransfer x = .next u ∧ u.streamAt slot.toNat = some t' ∧
             u.mem = s.mem ∧ t'.ahead = t.ahead ++ [e]
           t.ahead.length + 1 = t.room → t.pos + t.ahead.length < t.total →
           (free → y.streamHeld t.stamp .load va = false →
             (∀ v b, y.load .stream va t.size .normal = .ok (some b, v) →
               gets { val := BitVec.ofNat 64 (loadConv (mform t.mfmt).enc (mform t.mfmt).sat t.ty none b).1
                      bad := false, fault := none, skip := false, stamp := t.stamp }) ∧
             (∀ v f, y.load .stream va t.size .normal = .error (.fault v f) →
               gets { val := 0, bad := false, fault := some (f.cause, f.tval), skip := false, stamp := t.stamp })) ∧
           ((¬ free ∨ y.streamHeld t.stamp .load va = true) → ∃ u, exec .streamTransfer x = .next u ∧
             u.streamAt slot.toNat = some t ∧ u.mem = s.mem ∧ (.streamTransfer, .stream fe slot) ∈ u.pend)))))

/-- Steps of the copying engines and of stream slots (R44, R46, R49-R51, R253, R256). -/
def Obligations.EngineSteps : Prop := CopyAtIssue ∧ EngineMoves

/-- An addition to a pot (R53): the table of states and counts, for a pot with no marked word. -/
def Sys2Proof.Claims.PotAdditions : Prop :=
  ∀ (w0 w1 : Word) (count : Nat), count < 2 ^ 36 →
    let state (w : Word) : Nat := (w.extractLsb' 62 2).toNat
    let expected := (w0.extractLsb' 0 36).toNat
    let arrived (w : Word) : Nat := (w.extractLsb' 0 36).toNat
    let sum := arrived w1 + count
    let r := potSum w0 w1 count
    (state w0 = 0 → sum < expected → state r.1 = 0 ∧ arrived r.2 = sum) ∧
    (state w0 = 0 → sum = expected → state r.1 = 1 ∧ arrived r.2 = sum) ∧
    (state w0 = 1 → sum ≤ expected → state r.1 = 1 ∧ arrived r.2 = sum) ∧
    ((state w0 = 0 ∨ state w0 = 1) → expected < sum → state r.1 = 2 ∧ arrived r.2 = min sum (2 ^ 36 - 1)) ∧
    ((state w0 = 2 ∨ state w0 = 3) → state r.1 = state w0 ∧ arrived r.2 = min sum (2 ^ 36 - 1)) ∧
    r.1.extractLsb' 0 62 = w0.extractLsb' 0 62

/-- The pot commands (R257) and an addition on its way (R369): potinit writes the eight words in one step, open at once
where Expected is 0; potadd and the addition act on what the words hold; potwait waits while the pot is pending and then
answers State and Arrived. -/
def Sys2Proof.Claims.PotCommands : Prop :=
  ∀ (s t u v v0 : State) (a b d : XReg) (q : Scope) (pa pb : Nat) (r : State.Reached), onFront s → s.mem.wf = true → r.pa = pa →
    let pot := s.getX a
    let n := (s.getX b).toNat
    (pot.toNat % 64 ≠ 0 → exec (.potinit a b) s = .next (s.takeTrap (.scalar 0x04 pot)) ∧
      exec (.potadd q a b) s = .next (s.takeTrap (.scalar 0x04 pot)) ∧ exec (.potwait q d a) s = .next (s.takeTrap (.scalar 0x04 pot))) ∧
    (s.potCheck s.ctx.who none pot = .ok (pb, t) →
      (2 ^ 36 ≤ n → exec (.potinit a b) s = .next (t.takeTrap (.scalar 0x02 (s.getX b)))) ∧
      (n < 2 ^ 36 → t.access .engine .store .strand pot 64 .normal = .ok (r, u) → ∃ z, exec (.potinit a b) s = .next z ∧
        z.mem.num pa 8 = (if n = 0 then 2 ^ 62 else n) ∧ (∀ k, 8 ≤ k → k < 64 → z.mem.byte (pa + k) = 0) ∧
        (∀ x, x < pa ∨ pa + 64 ≤ x → z.mem.byte x = s.mem.byte x)) ∧
      (t.access .engine .load .strand pot 64 .normal = .ok (r, u) → u.poisonedAt pa 16 = false → u.poisonedAt pa 8 = false → u.poisonedAt (pa + 8) 8 = false →
        let w0 := BitVec.ofNat 64 (s.mem.num pa 8)
        let w1 := BitVec.ofNat 64 (s.mem.num (pa + 8) 8)
        (w0.extractLsb' 62 2 = 0 → exec (.potwait q d a) s = .next t.yieldTurn) ∧
        (w0.extractLsb' 62 2 ≠ 0 → exec (.potwait q d a) s =
          .next (((u.setX d (w0.extractLsb' 62 2 ++ 0#26 ++ w1.extractLsb' 0 36)).advance 4).acquire (some q))))) ∧
    (s.potCheck s.ctx.who (some q) pot = .ok (pb, t) →
      (2 ^ 36 ≤ n → exec (.potadd q a b) s = .next (t.takeTrap (.scalar 0x02 t.enc))) ∧
      (n < 2 ^ 36 → release (some q) t = .ok u → u.reach .engine .atomic q pot 64 = .ok (r, v0) →
        v0.potReach v0.ctx.who pa (v0.ownedLine (pa / 128) true) = .ok v → v.poisonedAt pa 16 = false →
        v.poisonedAt pa 8 = false → v.poisonedAt (pa + 8) 8 = false → ∃ z, exec (.potadd q a b) s = .next z ∧
        (BitVec.ofNat 64 (z.mem.num pa 8), BitVec.ofNat 64 (z.mem.num (pa + 8) 8)) =
          potSum (BitVec.ofNat 64 (s.mem.num pa 8)) (BitVec.ofNat 64 (s.mem.num (pa + 8) 8)) n ∧
        (∀ x, x < pa ∨ pa + 16 ≤ x → z.mem.byte x = s.mem.byte x))) ∧
    (∀ p : PotAdd, s.arg = .pot p → let w : Who := { lease := p.lease, sub := p.sub, die := p.die }
      s.potCheck w (some p.scope) p.pot = .ok (pa, t) →
      (t.ownedLine (pa / 128) true = true → exec .potAddition s = .next (t.post .potAddition (.pot p))) ∧
      (t.potReach w pa (t.ownedLine (pa / 128) true) = .ok u → u.poisonedAt pa 16 = false → u.poisonedAt pa 8 = false →
        u.poisonedAt (pa + 8) 8 = false →
        ∃ z, exec .potAddition s = .next z ∧ (BitVec.ofNat 64 (z.mem.num pa 8), BitVec.ofNat 64 (z.mem.num (pa + 8) 8)) =
          potSum (BitVec.ofNat 64 (s.mem.num pa 8)) (BitVec.ofNat 64 (s.mem.num (pa + 8) 8)) p.count.toNat ∧
        (∀ x, x < pa ∨ pa + 16 ≤ x → z.mem.byte x = s.mem.byte x)))

/-- Pots (R52, R53, R257, R369): the table of additions, and the commands. -/
def Obligations.Pots : Prop := PotAdditions ∧ PotCommands

/-! ## Collectives -/

/-- coll and collwait (R258, R259, R263): coll arms a collective on the die's Urn and answers the lowest handle not in use;
with 16 in use it waits (R333). collwait answers the status of an ended collective, frees its handle and forgets it, unless its
participants differed and one of this K4 has still to meet it, which is the model's choice (log 22); it waits before that, and raises
cause 0x02 for a handle not in use. -/
def Obligations.CollectiveCommands : Prop :=
  ∀ (s t u v : State) (d a : XReg) (b peers : List Word) (h : Nat) (lines : List Nat), onFront s →
    ((∀ k, k < 16 → ∃ p ∈ s.ctx.handles, p.1 = k) → exec (.coll d a) s = .next s.yieldTurn) ∧
    (h < 16 → (∀ p ∈ s.ctx.handles, p.1 ≠ h) → (∀ k, k < h → ∃ p ∈ s.ctx.handles, p.1 = k) →
      ((s.getX a).toNat % 64 ≠ 0 → exec (.coll d a) s = .next (s.takeTrap (.scalar 0x04 (s.getX a)))) ∧
      ((s.getX a).toNat % 64 = 0 → readBlock s (s.getX a) 8 = .ok (b, t) →
        (collOk b = false → exec (.coll d a) s = .next (t.takeTrap (.scalar 0x1C (s.getX a)))) ∧
        (collOk b = true → readBlock t (b.getD 3 0) (cN b) = .ok (peers, u) →
          (∀ p ∈ peers, peerOk p = true ∧ peerNode p = u.node) → peerNode (peers.getD (cRank b) 0) = u.node →
          peerDie (peers.getD (cRank b) 0) = u.ctx.die → collAddrs u b = .ok (lines, v) →
          ∃ z c, exec (.coll d a) s = .next z ∧ z.ctx.getX d = (if d = 0 then 0 else BitVec.ofNat 64 h) ∧
            z.ctx.handles = v.ctx.handles ++ [(h, v.nextId)] ∧ c ∈ z.colls ∧ c.id = v.nextId ∧ c.block = b ∧ c.peers = peers ∧
            c.lines = lines ∧ c.state = .armed ∧ c.share = v.ctx.urnshare ∧ (.collectiveStart, .op v.nextId) ∈ z.pend))) ∧
    ((∀ p ∈ s.ctx.handles, p.1 ≠ (s.getX a).toNat) → exec (.collwait d a) s = .next (s.takeTrap (.scalar 0x02 (s.getX a)))) ∧
    (∀ id c, lookupN (s.getX a).toNat s.ctx.handles = some id → s.colls.find? (fun k => k.id == id) = some c →
      (∀ st, c.state = .ended st → ∃ z, exec (.collwait d a) s = .next z ∧ z.ctx.getX d = (if d = 0 then 0 else BitVec.ofNat 64 st) ∧
        (∀ p ∈ z.ctx.handles, p.1 ≠ (s.getX a).toNat) ∧ z.mem = s.mem ∧
        z.colls = if (c.differed && s.unmet c) = true then s.colls else s.colls.filter (fun k => k.id != id)) ∧
      (c.state = .armed ∨ c.state = .started → exec (.collwait d a) s = .next s.yieldTurn))

/-- The pot of a collective is none, can be reached now, or fails its check. -/
def Sys2Proof.Claims.potInReach (s : State) (c : Coll) : Prop :=
  let r := s.potCheck c.who (some .system) (cPot c.block)
  cPot c.block = 0 ∨ (∃ t f, r = .error (.fault t f)) ∨
  ∃ pa t u, r = .ok (pa, t) ∧ t.potReach c.who pa (t.ownedByOther c (pa / 128) true) = .ok u

/-- The Urn's steps (R259-R263): a collective starts when all have armed alike and, with no signal word, at once, owning its
lines and reading its buffer; one whose participants differ ends with status 2; an abort ends it with status 1 and leaves in
each element its value or its result, and a range that fails its checks as it is; at its end every element that the result
covers holds it, and the collective has status 0 or is gone with its context. -/
def Sys2Proof.Claims.CollectiveSteps : Prop :=
  ∀ (s t u : State) (c : Coll) (ps : List (Nat × Nat)) (pa : Nat), s.arg = .op c.id → s.colls.find? (fun k => k.id == c.id) = some c →
    s.asleep c.die = false → s.cpFrozen c.die = false → collOk c.block = true → cComp c.block = false →
    let drawn : State := { s with freeCtr := s.freeCtr + 2 * cCount c.block }
    (c.state = .armed → (∀ i ∈ c.others, ∃ q, s.sent c i = some q ∧ q.params = collParams c.block c.peers) → cSignal c.block = 0 →
      s.collBlocked c = false → s.collRange c (cBuf c.block) (cCount c.block * cZ c.block) = .ok (ps, t) →
      (∀ l ∈ State.pieceLines ps, t.ownedByOther c l true = false) → t.detectLines c.who (State.pieceLines ps) = .ok u →
      ∃ z c', exec .collectiveStart s = .next z ∧ z.colls.find? (fun k => k.id == c.id) = some c' ∧ c'.state = .started ∧
        c'.owns = State.pieceLines ps ∧ c'.start.length = cCount c.block ∧ (.collectiveEnd, .op c.id) ∈ z.pend ∧ z.mem = s.mem) ∧
    (c.state = .armed → (∃ i ∈ c.others, s.sent c i = none) → (∀ i ∈ c.others, ∀ q, s.sent c i = some q → q.params = collParams c.block c.peers) →
      exec .collectiveStart s = .next (s.post .collectiveStart (.op c.id))) ∧
    (c.state = .armed → (∃ i ∈ c.others, ∃ q, s.sent c i = some q ∧ q.params ≠ collParams c.block c.peers) → potInReach s c →
      ∃ z, exec .collectiveStart s = .next z ∧ ∀ k ∈ z.colls, k.id = c.id → k.state = .ended 2) ∧
    ((c.state = .armed ∨ c.state = .started) → potInReach s c →
      ∃ z, exec .collectiveAbort s = .next z ∧ (∀ k ∈ z.colls, k.id = c.id → k.state = .ended 1 ∧ k.owns = []) ∧
      (cPot c.block = 0 → (c.state = .armed ∨ ∃ f, drawn.collRange c (cBuf c.block) (cCount c.block * cZ c.block) = .error f) → z.mem = s.mem) ∧
      (∀ p ∈ c.partners, (.collectiveAbort, .op p.2) ∈ z.pend)) ∧
    (c.state = .started → cPot c.block = 0 → s.mem.wf = true →
      drawn.collRange c (cBuf c.block) (cCount c.block * cZ c.block) = .ok ([(pa, cCount c.block * cZ c.block)], t) →
      ∃ z, exec .collectiveAbort s = .next z ∧
        (∀ e, e < cCount c.block → z.mem.num (pa + e * cZ c.block) (cZ c.block) = s.mem.num (pa + e * cZ c.block) (cZ c.block) ∨
          (s.arrived c = true ∧ ∃ v, collResult c.block (s.given c) e = some v ∧
            z.mem.num (pa + e * cZ c.block) (cZ c.block) = v % 256 ^ cZ c.block)) ∧
        (∀ x, x < pa ∨ pa + cCount c.block * cZ c.block ≤ x → z.mem.byte x = s.mem.byte x)) ∧
    (c.state = .started → cPot c.block = 0 → s.mem.wf = true → (∀ i ∈ c.others, ∃ q, s.sent c i = some q ∧ cCount c.block ≤ q.data.length) →
      s.collRange c (cBuf c.block) (cCount c.block * cZ c.block) = .ok ([(pa, cCount c.block * cZ c.block)], t) →
      t.detectLines c.who (State.pieceLines [(pa, cCount c.block * cZ c.block)]) = .ok u →
      ∃ z, exec .collectiveEnd s = .next z ∧ (∀ k ∈ z.colls, k.id = c.id → k.state = .ended 0 ∧ k.owns = []) ∧
        (∀ e v, e < cCount c.block → collResult c.block (s.given c) e = some v → z.mem.num (pa + e * cZ c.block) (cZ c.block) = v % 256 ^ cZ c.block) ∧
        (∀ x, x < pa ∨ pa + cCount c.block * cZ c.block ≤ x → z.mem.byte x = s.mem.byte x))

/-- The reduction of R261 with integer add: whatever chunk, every participant's contribution enters once, modulo 2^w. -/
def Sys2Proof.Claims.ReductionSum : Prop :=
  ∀ (b : List Word) (xs : Nat → Nat → Nat) (c e : Nat), (cTy b = .i32 ∨ cTy b = .i64) → cRed b = 0 → 2 ≤ cN b → c < cN b →
    reduced b xs c e = ((List.range (cN b)).map (fun i => xs i e)).sum % 2 ^ (ETy.width (cTy b))

/-- Steps of collectives (R259-R263), and the sum that an add reduces to (R261). -/
def Obligations.Collectives : Prop := CollectiveSteps ∧ ReductionSum

/-! ## Relocation -/

namespace Sys2Proof.Claims

/-- The live objects of a region's from-parcels by the bytes of the bitmap (R62, R68): bit k of the i-th 16 KiB marks a header k
times 16 bytes into the i-th parcel; a marked byte counts as clear (log 57). -/
def liveHeaders (s : State) (base : Word) (frm : List Nat) (ps : List (Nat × Nat)) : List Word :=
  let bytes := s.readPieces ps
  let marks := s.markBytes ps
  (List.range frm.length).flatMap (fun i =>
    ((List.range (2 ^ 17)).filter (fun k => !marks.getD ((2 ^ 17 * i + k) / 8) false &&
      (bytes.getD ((2 ^ 17 * i + k) / 8) 0).getLsbD ((2 ^ 17 * i + k) % 8))).map (fun k =>
        base + BitVec.ofNat 64 (frm.getD i 0 * 2 ^ 21 + 16 * k)))

/-- The cycle that a context starts on a region: its objects and to-parcels, the lines that it owns, descriptor and table, and
those of the bitmap, which it holds (R62, R67). -/
def cycleOf (s : State) (ws : List Word) (base map : Word) (live : List Word) : Glean :=
  let d1 := ws.getD 1 0
  { id := s.nextId, die := s.ctx.die, ctx := s.ctx.id, lease := s.ctx.lease, sub := s.ctx.sub, base := base, bitmap := map
    step := .copy, todo := live, toParcels := parcelsOf (ws.drop 8), toOff := 0, inPlace := [], stopped := false
    owns := runsOf s s.ctx.who base 256 ++ runsOf s s.ctx.who (fwdBase d1) (16 * fwdCount d1)
    holds := runsOf s s.ctx.who map (16384 * (parcelsOf (ws.drop 4)).length) }

end Sys2Proof.Claims

/-- hglean (R264, R62, R67): the checks in their order; Active = 1 answers 2 and changes nothing else; a bitmap that cannot be read
traps, and one of whose lines another unit owns, or a cycle of the region that is not over, is awaited; more live objects than half
the table's entries answer 1; otherwise the cycle starts and answers 0, and the descriptor's word 0 in memory has Active set and the
next phase, with no other byte of memory changed. `commandWords` reads the descriptor. -/
def Sys2Proof.Claims.CycleStart : Prop :=
  ∀ (s t t1 t2 t3 t4 u w : State) (d a b : XReg) (ws : List Word) (f1 f2 : Bool) (ps : List (Nat × Nat)) (pa : Nat), onFront s →
    let base := s.getX a
    let map := s.getX b
    let d0 := ws.getD 0 0
    let d1 := ws.getD 1 0
    let frm := parcelsOf (ws.drop 4)
    (base.toNat % 2 ^ 29 ≠ 0 → exec (.hglean d a b) s = .next (s.takeTrap (.scalar 0x02 base))) ∧
    (base.toNat % 2 ^ 29 = 0 → map.toNat % 128 ≠ 0 → exec (.hglean d a b) s = .next (s.takeTrap (.scalar 0x04 map))) ∧
    (base.toNat % 2 ^ 29 = 0 → map.toNat % 128 = 0 → commandWords s base 12 = .ok (ws, t) →
      (d0.getLsbD 61 = true → exec (.hglean d a b) s = .next ((t.setX d 2).advance 4)) ∧
      (d0.getLsbD 61 = false → readable t (fwdBase d1) (16 * fwdCount d1) = .ok (f1, t1) →
        readable t1 (fwdBase (ws.getD 2 0)) (8 * ((ws.getD 2 0).extractLsb' 0 16).toNat) = .ok (f2, t2) →
        (5 < (d1.extractLsb' 0 3).toNat ∨ f1 = false ∨ f2 = false → exec (.hglean d a b) s = .next (t2.takeTrap (.scalar 0x1C base))) ∧
        ((d1.extractLsb' 0 3).toNat ≤ 5 → f1 = true → f2 = true →
          (∀ x f, t2.rangeCheck .gleaner .load map (16384 * frm.length) = .error (.fault x f) →
            exec (.hglean d a b) s = .next (x.takeTrap (.scalar f.cause f.tval))) ∧
          (t2.rangeCheck .gleaner .load map (16384 * frm.length) = .ok (ps, t3) →
            let lines := State.pieceLines ps
            let stuck := t3.cpFrozen t3.ctx.die = true ∨ (∃ g ∈ t3.gleans, g.base = base ∧ g.lease = t3.ctx.lease ∧ g.sub = t3.ctx.sub) ∨
              ∃ l ∈ lines, t3.ownedLine l false = true
            (stuck → exec (.hglean d a b) s = .next t3.yieldTurn) ∧
            (¬ stuck → t3.detectLines t3.ctx.who lines = .ok t4 →
              let t5 := lines.foldl (fun (s : State) l => s.touch s.ctx.who .l2 l false false .no) t4
              let t6 := t5.consume ((t5.markBytes ps).any id)
              let live := liveHeaders t5 base frm ps
              (fwdCount d1 / 2 < live.length → exec (.hglean d a b) s = .next ((t6.setX d 1).advance 4)) ∧
              (let g := cycleOf t6 ws base map live
               let t7 : State := { t6 with nextId := t6.nextId + 1 }
               let own := g.owns.flatMap (fun r => (List.range r.2).map (fun i => r.1 + i))
               let flip : Word := (d0 &&& 0x1FFFFFFFFFFFFFFF) |||
                 BitVec.ofNat 64 (((d0.extractLsb' 62 2).toNat + 1) % 4 * 2 ^ 62 + 2 ^ 61)
               live.length ≤ fwdCount d1 / 2 → (∀ l ∈ own, t7.ownedLine l true = false) → t7.opBefore g.id t7.ctx.core own lines = false →
               t7.collBefore g.id t7.ctx.core (own ++ lines) = false → t7.unitCheck g.who .store .device 8 base 8 = .ok (pa, w) →
               t7.gleanStore g .store base flip 2 = .ok u →
               exec (.hglean d a b) s =
                 .next (((({ u with gleans := u.gleans ++ [g] } : State).post .gleanerCycle (.op g.id)).setX d 0).advance 4) ∧
               flip.getLsbD 61 = true ∧ (flip.extractLsb' 62 2).toNat = ((d0.extractLsb' 62 2).toNat + 1) % 4 ∧
               flip.extractLsb' 0 61 = d0.extractLsb' 0 61 ∧
               (s.mem.wf = true → u.mem.num pa 8 = flip.toNat) ∧ (∀ x, x < pa ∨ pa + 8 ≤ x → u.mem.byte x = s.mem.byte x)))))))

/-- hglean.free (R264): with Active = 0 it raises cause 0x02, it waits for the cycle, and then answers the number of parcels returned,
which are from-parcels that nothing in place keeps; the cycle is over. -/
def Sys2Proof.Claims.CycleFree : Prop :=
  ∀ (s t u : State) (d a : XReg) (ws : List Word), onFront s →
    let base := s.getX a
    commandWords s base 8 = .ok (ws, t) →
      ((ws.getD 0 0).getLsbD 61 = false → exec (.hgleanFree d a) s = .next (t.takeTrap (.scalar 0x02 base))) ∧
      (∀ g, (ws.getD 0 0).getLsbD 61 = true → t.gleans.find? (fun k => k.base == base && k.lease == t.ctx.lease && k.sub == t.ctx.sub) = some g →
        (g.step ≠ .done ∨ t.cpFrozen t.ctx.die = true → exec (.hgleanFree d a) s = .next t.yieldTurn) ∧
        (∀ n, g.step = .done → t.cpFrozen t.ctx.die = false → freeCycle t g ws = .ok (n, u) →
          exec (.hgleanFree d a) s = .next ((u.setX d (BitVec.ofNat 64 n)).advance 4) ∧ (∀ x ∈ u.gleans, x.id ≠ g.id) ∧
          n ≤ ((parcelsOf (ws.drop 4)).filter (fun p => !g.inPlace.contains p)).length))

/-- hglean and hglean.free (R264): what starts a cycle, and what ends it. -/
def Obligations.RelocationCommands : Prop := CycleStart ∧ CycleFree

/-- An object moves (R68): of a cycle in its copy step, the next live object, well-formed, unpinned and in the stable state, with
room in a to-parcel. Its bytes go to the to-space with header word 0 cleared of state and pins, an entry is installed, and last the
old header is set to moved; one copy is counted (event 0x23), and the next step of the cycle is asked for. -/
def Sys2Proof.Claims.ObjectMoves : Prop :=
  ∀ (s s1 s3 s4 s5 s6 s7 s8 : State) (g : Glean) (hdr w0 : Word) (rest : List Word) (hd : Head) (pa off : Nat) (ps : List Nat)
    (src room : List (Nat × Nat)), s.arg = .op g.id → s.gleans.find? (fun k => k.id == g.id) = some g → s.cpFrozen g.die = false →
    g.step = .copy → g.todo = hdr :: rest →
    let g0 : Glean := { g with todo := rest }
    let n := 16 * hd.size
    let dst := g.base + BitVec.ofNat 64 (ps.headD 0 * 2 ^ 21 + off)
    let g1 : Glean := { g0 with toParcels := ps, toOff := off + n }
    s.gleanLoad g0 hdr 0 = .ok (w0, s1) → s1.headOf g.who none hdr w0 = .ok (some hd, s3) →
    headPins w0 = 0 → headState w0 = 0 → s3.unitCheck g.who .atomic .device 8 hdr 8 = .ok (pa, s4) →
    roomFor n g.toParcels g.toOff = some (ps, off) → s4.gleanRange g0 .load hdr n 0 = .ok (src, s5) → (∀ m ∈ s5.markBytes src, m = false) →
    s5.gleanRange g0 .store dst n 1 = .ok (room, s6) →
    installFwd (s6.writePieces none room (leBytes 8 (w0 &&& 0x003FFFFFFFFFFFFF).toNat ++ (s6.readPieces src).drop 8)) g1 hdr dst = .ok (some s7) →
    s7.gleanStore g1 .store hdr (w0 ||| 0x8000000000000000) 0 = .ok s8 →
    let z := (s8.countDie g.die g.lease g.sub 0x23 1).modGlean g.id (fun _ => g1)
    exec .gleanerObjectCopy s = .next (if rest = [] then z.post .gleanerCycle (.op g.id) else z.post .gleanerObjectCopy (.op g.id))

/-- The steps of a relocation always have a next state, whatever the cycle meets: nothing of them stops the machine (R370). -/
def Sys2Proof.Claims.GleanerGoesOn : Prop :=
  ∀ s : State, (∃ t, exec .gleanerCycle s = .next t) ∧ (∃ t, exec .gleanerObjectCopy s = .next t)

/-- The Gleaner's steps (R67-R69): an object with a pin count stays where it is with an entry to itself, and so does one that is not in
the stable state, which is the model's choice (log 47); a cycle goes through its steps in order, and after the last it keeps what it owns for hglean.free. -/
def Sys2Proof.Claims.CycleSteps : Prop :=
  ∀ (s : State) (g : Glean), s.arg = .op g.id → s.gleans.find? (fun k => k.id == g.id) = some g → s.cpFrozen g.die = false →
    (∀ hdr rest u g', g.step = .copy → g.todo = hdr :: rest → copyObject s { g with todo := rest } hdr = .ok (u, g') →
      exec .gleanerObjectCopy s = .next (if g'.todo = [] then (u.modGlean g.id (fun _ => g')).post .gleanerCycle (.op g.id)
        else (u.modGlean g.id (fun _ => g')).post .gleanerObjectCopy (.op g.id))) ∧
    (∀ hdr w0 u v h, s.gleanLoad g hdr 0 = .ok (w0, u) → u.headOf g.who none hdr w0 = .ok (some h, v) → (headPins w0 ≠ 0 ∨ headState w0 ≠ 0) →
      copyObject s g hdr = keepObject v g hdr) ∧
    (g.step = .copy → g.todo ≠ [] → exec .gleanerCycle s = .next (s.post .gleanerObjectCopy (.op g.id))) ∧
    (∀ ps u, g.step = .copy → g.todo = [] → scanParcels s g = .ok (ps, u) →
      exec .gleanerCycle s = .next ((u.modGlean g.id (fun x => { x with step := .fixup, todo := ps })).post .gleanerCycle (.op g.id))) ∧
    (∀ p rest u, g.step = .fixup → g.todo = p :: rest → fixParcel s g p (2 ^ 17) 0 = .ok u →
      exec .gleanerCycle s = .next ((u.modGlean g.id (fun x => { x with todo := rest })).post .gleanerCycle (.op g.id))) ∧
    (g.step = .fixup → g.todo = [] → exec .gleanerCycle s =
      .next ((s.modGlean g.id (fun x => { x with step := .heal })).post .gleanerCycle (.op g.id))) ∧
    (g.step = .heal → (∀ k ∈ s.ctxs, g.healsCtx k = false) → g.owns ≠ [] →
      exec .gleanerCycle s = .next (s.modGlean g.id (fun x => { x with step := .done }))) ∧
    (g.step = .done → exec .gleanerCycle s = .next s)

/-- The Gleaner's steps (R67-R69, R370): what moves an object, the order of a cycle's steps, and that they always go on. -/
def Obligations.RelocationSteps : Prop := CycleSteps ∧ ObjectMoves ∧ GleanerGoesOn

/-! ## Scheduling -/

/-- launch (R265, R297): a record that passes every check enters the pool and answers 0; with the pool or the quota full it
answers 1 and nothing is copied; a misaligned address raises cause 0x04 and a record that breaks R266 or R267 cause 0x1C. -/
def Sys2Proof.Claims.Launch : Prop :=
  ∀ (s t u v : State) (d a : XReg) (ws : List Word), onFront s →
    ((s.getX a).toNat % 128 ≠ 0 → exec (.launch d a) s = .next (s.takeTrap (.scalar 0x04 (s.getX a)))) ∧
    ((s.getX a).toNat % 128 = 0 → readBlock s (s.getX a) 16 = .ok (ws, t) →
      (nestOk ws = false → exec (.launch d a) s = .next (t.takeTrap (.scalar 0x1C (s.getX a)))) ∧
      (nestOk ws = true → launchAddrs t t.ctx.who t.ctx ws = .ok u → release (some .device) u = .ok v →
        (v.poolFull v.ctx.die v.ctx.lease v.ctx.sub = true → exec (.launch d a) s = .next ((v.setX d 1).advance 4)) ∧
        (v.poolFull v.ctx.die v.ctx.lease v.ctx.sub = false → nestTotal ws ≠ 0 → ∃ z n, exec (.launch d a) s = .next z ∧
          z.ctx.getX d = 0 ∧ z.nests = v.nests ++ [n] ∧ n.words = ws ∧ n.lease = v.ctx.lease ∧ n.sub = v.ctx.sub ∧ n.die = v.ctx.die ∧
          n.inPool = true ∧ n.next = 0 ∧ n.live = 0 ∧ (.crierPlacement, .die v.ctx.die) ∈ z.pend)))

/-- What a new strand holds (R293, R159): the entry PC, the parameters in x9, the preloads in x10-x13, every other register
and all trap and vector state as placement leaves it, SELF and NESTIDX. The level is the launcher's, which the spec leaves
to the model. -/
def Sys2Proof.Claims.PlacementValues : Prop :=
  ∀ (n : Nest) (coord : BitVec 10),
    let k := n.strand coord
    let w (i : Nat) : Word := n.words.getD i 0
    k.pc = w 0 ∧ k.getX 9 = w 2 ∧ (∀ r : XReg, r.toNat < 9 ∨ 13 < r.toNat → k.getX r = 0) ∧
    (∀ r : Nat, r < 4 → k.getX (BitVec.ofNat 5 (10 + r)) =
      (let f := ((w 12).extractLsb' (40 + 3 * r) 3).toNat; if f < 4 then nestIndex n.words n.next f else 0)) ∧
    (∀ h, k.getH h = 0) ∧ k.tvec = 0 ∧ k.tpc = 0 ∧ k.tcause = 0 ∧ k.tval = 0 ∧ k.tqpos = 0 ∧ k.tdeleg = 0x010F0000 ∧ k.vl = 0 ∧ k.mvl = 4096 ∧
    k.vtype = 0x71 ∧ k.mfmt = 0 ∧ k.fill = 0 ∧ k.fcsr = 0 ∧ k.kvwin = 1 ∧ k.fovf = 0 ∧ k.cki = 0 ∧ k.lq = [] ∧ k.pdirty = 0 ∧ k.cycle = 0 ∧
    k.bypassth = 0x8000 ∧ k.urnshare = 16 ∧ k.loop.stripcnt = 0 ∧ (∀ v, plotValid (k.plot v) = false) ∧ (∀ m, k.mask m = 0) ∧
    (∀ f, (k.front f).slots = []) ∧ k.vq = [] ∧ k.detach = none ∧ k.pins = [] ∧ k.descs = [] ∧ k.handles = [] ∧
    k.self.extractLsb' 0 10 = coord ∧ k.self.extractLsb' 10 6 = 0 ∧ k.self.extractLsb' 16 4 = (w 12).extractLsb' 56 4 ∧
    (∀ i : Fin 4, k.nestidx[i] = nestIndex n.words n.next i.val) ∧ k.lease = n.lease ∧ k.sub = n.sub ∧ k.inTrap = false ∧
    k.level = n.level.toNat ∧ k.phase = .running

/-- launch (R265, R297) and what a strand holds at its placement (R293). -/
def Obligations.LaunchAndPlacement : Prop := Launch ∧ PlacementValues

/-- A placement (R296): the Crier gives the next iteration of the first candidate that is open and fits to a context; with
the die's command processors stopped, or the pool empty, nothing is placed. A nest that has waited more than 2^16 cycles is
raised by one priority (R298). -/
def Sys2Proof.Claims.Placement : Prop :=
  ∀ (s : State) (d : BitVec 2), s.arg = .die d → s.asleep d = false →
    (s.cpFrozen d = true ∨ s.candidates d = [] → exec .crierPlacement s = .next (if 0 < s.poolCount d then s.wakeCrier d else s)) ∧
    (∀ n ns coord, s.cpFrozen d = false → s.candidates d = n :: ns → n.gated = false → s.chooseCtx n = some coord → nestMill n.words = false →
      s.ctx.phase = .running →
      ∃ z, exec .crierPlacement s = .next z ∧ n.strand coord ∈ z.others ∧ z.ctx = { s.ctx with passed := z.ctx.passed } ∧ z.mem = s.mem ∧
        (∀ x ∈ z.nests, x.id = n.id → x.next = n.next + 1 ∧ x.live = n.live + 1 ∧ x.inPool = decide (n.next + 1 < n.total))) ∧
    (∀ n, n ∈ s.nests → (∀ x ∈ s.nests, x.id = n.id → x = n) →
      ∃ z, exec .priorityAging { s with arg := .nest n.die n.id } = .next z ∧ z.nests.length = s.nests.length ∧
        ∀ x ∈ z.nests, x.id = n.id → x.raised = (n.raised || (n.inPool && decide (2 ^ 16 < n.waited))))

/-- Draining (R301): a draining context whose engine commands have retired, a Miller's `mldb` among them (R268), and whose output
streams are stored becomes free, and until then the step is repeated; a nest of which nothing is left, its crew's Millers included
(log 48), is gone, its pot paid by `nestPay` and its downstream word written by `nestTell`, which each answer the state itself
where the record names none; while one of them must wait, the step is repeated. -/
def Sys2Proof.Claims.DrainComplete : Prop :=
  ∀ (s : State) (k : Ctx), s.arg = .ctx k.id → s.findCtx k.id = some k →
    (k.phase ≠ .draining → exec .drainComplete s = .next s) ∧
    (k.phase = .draining → s.commandsLeft k = true → exec .drainComplete s = .next (s.post .drainComplete (.ctx k.id))) ∧
    ((∃ o ∈ s.ops, o.ctx = k.id) → s.commandsLeft k = true) ∧
    (k.phase = .draining → s.commandsLeft k = false → s.pendingOut k ≠ [] →
      exec .drainComplete s = .next ((s.sendOut k).post .drainComplete (.ctx k.id))) ∧
    (k.phase = .draining → s.commandsLeft k = false → s.pendingOut k = [] → (∀ n ∈ s.nests, n.id ≠ k.nest) → s.others.Nodup → (∀ j ∈ s.others, j.id = k.id → j = k) →
      (s.ctx.id = k.id → ∀ j ∈ s.others, j.id ≠ k.id) →
      ∃ z, exec .drainComplete s = .next z ∧ z.findCtx k.id = none ∧ z.mem = s.mem) ∧
    (∀ n, s.nests.find? (fun x => x.id == n.id) = some n → n.inPool = false → n.live = 0 →
      (∀ j ∈ s.ctxs, j.active = true → j.isMiller = true → j.nest ≠ n.id) →
      let x : State := { s with arg := .nest n.die n.id }
      (∀ u v, x.nestPay n = .ok u → u.nestTell n = .ok v →
        exec .drainComplete x = .next { v with nests := v.nests.filter (fun y => y.id != n.id) }) ∧
      (∀ u, (x.nestPay n = .error u ∨ ∃ w, x.nestPay n = .ok w ∧ w.nestTell n = .error u) →
        exec .drainComplete x = .next ((x.undone u).post .drainComplete (.nest n.die n.id))) ∧
      (nestPot n.words = 0 → nestDown n.words = none →
        ∃ z, exec .drainComplete x = .next z ∧ (∀ y ∈ z.nests, y.id ≠ n.id) ∧ z.mem = s.mem) ∧
      (∀ pa t u, nestPot n.words ≠ 0 → x.potCheck n.who (some .device) (nestPot n.words) = .ok (pa, t) → t.crierLine n pa true = .ok u →
        x.nestPay n = .ok (u.potPut pa 1)) ∧
      (∀ va pa t u, nestDown n.words = some va → x.unitCheck n.who .store .strand 8 va 8 = .ok (pa, t) → t.crierLine n pa true = .ok u →
        x.nestTell n = .ok (u.putBytes none pa (List.replicate 8 0xFF))))

/-- Placement, priority aging (R296, R298) and draining (R301). -/
def Obligations.CrierSteps : Prop := Placement ∧ DrainComplete

/-! ## The Miller and its Mill -/

/-- The Miller's instructions (R234-R240) are checked at issue and handed over in order; their operands are rejected with
cause 0x02 and the operand in TVAL. msync waits for the operations handed over. On a front end all of them raise cause
0x01. -/
def Obligations.MillerInstructions : Prop :=
  ∀ (s : State) (m : MmulMode) (f64 clr : Bool) (t q : BitVec 2) (d a b : XReg), s.lane = none →
    let x := (s.getX a).toNat
    let y := (s.getX b).toNat
    let given (op : MillOp) : Host.Outcome State Fault Refusal := .next ((s.giveMill op).advance 4)
    (s.ctx.isMiller = true → s.ctx.vq = [] →
      (1 ≤ x → x ≤ 128 → y % 16 = 0 → y + (MmulMode.info m).record ≤ 49152 → (m = .f64 → t.toNat % 2 = 0) →
        exec (.mmul m t q a b) s = given (.mmul m t.toNat q.toNat 0 x y (s.ctx.vtype.extractLsb' 4 4).toNat)) ∧
      (x < 1 ∨ 128 < x → exec (.mmul m t q a b) s = .next (s.takeTrap (.scalar 0x02 (s.getX a)))) ∧
      (1 ≤ x → x ≤ 128 → (y % 16 ≠ 0 ∨ 49152 < y + (MmulMode.info m).record) → exec (.mmul m t q a b) s = .next (s.takeTrap (.scalar 0x02 (s.getX b)))) ∧
      exec (.mclr t) s = given (.mclr t.toNat) ∧
      (x ≤ 127 → 1 ≤ y → y ≤ 128 → x + y ≤ 128 → (f64 = true → t.toNat % 2 = 0) → exec (.mout f64 clr t q a b) s = given (.mout f64 clr t.toNat q.toNat x y)) ∧
      (127 < x → exec (.mout f64 clr t q a b) s = .next (s.takeTrap (.scalar 0x02 (s.getX a)))) ∧
      ((s.mill s.ctx.cluster).ops = [] → exec .msync s = .next (s.advance 4)) ∧
      ((s.mill s.ctx.cluster).ops ≠ [] → exec .msync s = .next s.yieldTurn) ∧
      (let p := (s.getX d).toNat
       (p % 16 ≠ 0 ∨ p < 16 ∨ 49152 < p → exec (.mldb d a b) s = .next (s.takeTrap (.scalar 0x02 (s.getX d)))) ∧
       (∀ ps u v, p % 16 = 0 → 16 ≤ p → y % 16 = 0 → y + p ≤ 49152 → s.rangeCheck .engine .load (s.getX a) (256 * p) = .ok (ps, u) →
         (∀ l ∈ State.pieceLines ps, u.ownedLine l false = false) → u.detectLines s.ctx.who (State.pieceLines ps) = .ok v →
         ∃ z id bs, exec (.mldb d a b) s = .next z ∧ z.mem = s.mem ∧
           (z.mill s.ctx.cluster).ops = (s.mill s.ctx.cluster).ops ++ [(id, .mldb p (State.pieceLines ps) y bs)] ∧
           ((∀ m ∈ z.markBytes ps, m = false) → bs = s.readPieces ps)))) ∧
    (s.ctx.isMiller = false → ∀ i, (i = .mldb d a b ∨ i = .mmul m t q a b ∨ i = .mclr t ∨ i = .mout f64 clr t q a b ∨ i = .msync) →
      exec i s = .next (s.takeTrap (.scalar 0x01 s.enc)))

namespace Sys2Proof.Claims

/-- The pairs of A and B that group g of column j holds: position and value of B. -/
def pairsOf (m : Mill) (md : MmulMode) (j off g : Nat) : List (Nat × FVal) := (m.group (MmulMode.info md) j off g).vals

/-- Column records (R123, R236): plain values lie one after the other; q4 and q3 hold groups of 32 behind a BF16 scale; a sparse record
holds two values for each four positions, which its metadata nibbles name. No byte with an error is among them. -/
def ColumnRecords : Prop :=
  ∀ (m : Mill) (md : MmulMode) (j off g i : Nat), m.bad = [] → i < 32 →
    let at16 (k : Nat) : Nat := (m.sliceByte j k).toNat + 256 * (m.sliceByte j (k + 1)).toNat
    let q := m.group (MmulMode.info md) j off g
    (md = .bf16 ∨ md = .e4m3 ∨ md = .e5m2 → q.vals[i]? = some (32 * g + i, fBf16.decode (at16 (off + 2 * (32 * g + i)))) ∧ q.scale = 0x3F800000) ∧
    (md = .f64 → q.vals[i]? = some (32 * g + i, fFp64.decode (leNat ((List.range 8).map (fun n => m.sliceByte j (off + 8 * (32 * g + i) + n)))))) ∧
    (md = .bf16q4 ∨ md = .e4m3q4 ∨ md = .e5m2q4 →
      let b := (m.sliceByte j (off + 18 * g + 2 + i / 2)).toNat / 16 ^ (i % 2) % 16
      q.vals[i]? = some (32 * g + i, FVal.ofInt (BitVec.ofNat 4 b).toInt) ∧ q.scale = (fBf16.conv fFp32 .rne (at16 (off + 18 * g))).bits) ∧
    (md = .bf16s → i < 16 →
      let nib := (m.sliceByte j (off + 256 + (8 * g + i / 2) / 2)).toNat / 16 ^ ((8 * g + i / 2) % 2) % 16
      q.vals[i]? = some (4 * (8 * g + i / 2) + (if i % 2 = 0 then nib % 4 else nib / 4), fBf16.decode (at16 (off + 2 * (16 * g + i)))) ∧ q.scale = 0x3F800000)

/-- The aligned sum of a group's finite products (R121, R124), each a signed multiple of a power of two: all are cut toward zero at the
unit that lies `low` places below the leading bit of the greatest, and the sum of what is left is exact. -/
def AlignedSums : Prop :=
  ∀ (low : Nat) (l : List (Int × Int)) (p : Int × Int), p ∈ l →
    let lead (q : Int × Int) : Int := q.2 + bitLen q.1.natAbs - 1
    (∀ q ∈ l, lead q ≤ lead p) →
    let u : Int := lead p - low
    let cut (q : Int × Int) : Int := if u ≤ q.2 then q.1 * 2 ^ (q.2 - u).toNat else q.1.tdiv (2 ^ (u - q.2).toNat)
    let sum := (l.map cut).sum
    alignedSum low l = .num (decide (sum < 0)) sum.natAbs u

end Sys2Proof.Claims

/-- The Mill's operations (R118-R124, R235-R239): the first handed over that waits for no earlier one goes on. mldb puts its
bytes into the 256 slices, record by record; mmul takes one row of A from its feed queue and adds to each entry of its tile's row
the terms of the groups in rising order, FP32 or for code 9 FP64 over two tiles, and waits while the queue is short; mclr zeroes its
tile and leaves the others; mout appends a row of the tile to its drain queue while 32 KiB allow it, and with clear zeroes the row,
in both tiles of FP64. A later mclr waits behind an mmul of its tile and passes one of another tile (R120). A group's term is
`groupTerm` or `slicedTerm` of its pairs (`ColumnRecords`), over the sum that `AlignedSums` gives. -/
def Sys2Proof.Claims.MillOperations : Prop :=
  ∀ (s : State) (c : BitVec 6) (id : Nat) (rest : List (Nat × MillOp)) (i j k r : Nat), s.arg = .cluster c →
    let m := s.mill c.toNat
    m.bad = [] → swf 0 0 m.slices = true → swf 0 0 m.tiles = true → i < 4 → j < 256 → k < 128 →
    (∀ p ls off bs, m.ops = (id, .mldb p ls off bs) :: rest → 0 < p → off + p ≤ 49152 →
      ∃ z, exec .millOperation s = .next z ∧ (z.mill c.toNat).ops = rest ∧
        (r < p → (z.mill c.toNat).sliceByte j (off + r) = bs.getD (j * p + r) 0) ∧
        (r < 49152 → (r < off ∨ off + p ≤ r) → (z.mill c.toNat).sliceByte j r = m.sliceByte j r)) ∧
    (∀ t, m.ops = (id, .mclr t) :: rest → ∃ z, exec .millOperation s = .next z ∧ (z.mill c.toNat).ops = rest ∧
      (z.mill c.toNat).tile32 i k j = if i = t then 0 else m.tile32 i k j) ∧
    (∀ f64 clr t q row n, m.ops = (id, .mout f64 clr t q row n) :: rest → q < 4 → row < 128 → let w := if f64 then 8 else 4
      let dq := m.drain.toList.getD q []
      (dq.length + 256 * w ≤ 32768 → ∃ z, exec .millOperation s = .next z ∧
        (z.mill c.toNat).drain.toList.getD q [] = dq ++ (List.range 256).flatMap (fun j => leBytes w (if f64 then m.tile64 t row j else m.tile32 t row j)) ∧
        (z.mill c.toNat).ops = (if 1 < n then [(id, .mout f64 clr t q (row + 1) (n - 1))] else []) ++ rest ∧
        (z.mill c.toNat).tile32 i k j = if clr = true ∧ k = row ∧ (i = t ∨ (f64 = true ∧ i = t + 1)) then 0 else m.tile32 i k j) ∧
      (32768 < dq.length + 256 * w → rest = [] → ∃ z, exec .millOperation s = .next z ∧ z.mill c.toNat = m ∧ (.millOperation, .cluster c) ∈ z.pend)) ∧
    (∀ md t q row n off sl, m.ops = (id, .mmul md t q row n off sl) :: rest → q < 4 → row < 128 → let x := MmulMode.info md
      let fq := m.feed.toList.getD q []
      (x.rowBytes ≤ fq.length → let b := x.rowBytes / x.k
        let a := (List.range x.k).map (fun k => x.a.decode (leNat ((fq.drop (b * k)).take b)))
        ∃ z, exec .millOperation s = .next z ∧ (z.mill c.toNat).feed.toList.getD q [] = fq.drop x.rowBytes ∧
          (z.mill c.toNat).ops = (if row + 1 < n then [(id, .mmul md t q (row + 1) n off sl)] else []) ++ rest ∧
          (md ≠ .f64 → (z.mill c.toNat).tile32 t row j =
            ((List.range (x.k / 32)).foldl (fun v g => (fFp32.add .rne v (groupTerm a (m.group x j off g))).bits) (m.tile32 t row j)) % 2 ^ 32) ∧
          (md = .f64 → (z.mill c.toNat).tile64 t row j =
            ((List.range (x.k / 32)).foldl (fun v g => (fFp64.add .rne v (slicedTerm sl a (m.group x j off g))).bits) (m.tile64 t row j)) % 2 ^ 64) ∧
          (k ≠ row ∨ (i ≠ t ∧ (md = .f64 → i ≠ t + 1)) → (z.mill c.toNat).tile32 i k j = m.tile32 i k j)) ∧
      (fq.length < x.rowBytes → rest = [] → ∃ z, exec .millOperation s = .next z ∧ z.mill c.toNat = m ∧ (.millOperation, .cluster c) ∈ z.pend) ∧
      (∀ id2 t2, fq.length < x.rowBytes → rest = [(id2, .mclr t2)] → ∃ z, exec .millOperation s = .next z ∧
        ((t2 = t ∨ (md = .f64 ∧ t2 = t + 1)) → z.mill c.toNat = m) ∧
        (¬ (t2 = t ∨ (md = .f64 ∧ t2 = t + 1)) → (z.mill c.toNat).ops = [(id, .mmul md t q row n off sl)] ∧
          (z.mill c.toNat).tile32 i k j = if i = t2 then 0 else m.tile32 i k j))) ∧
    (m.ops = [] → exec .millOperation s = .next (s.setMill c.toNat m))

/-- What the Mill does (R118-R124, R235-R239). -/
def Obligations.MillWork : Prop := MillOperations ∧ ColumnRecords ∧ AlignedSums

/-! ## The vector unit -/

namespace Sys2Proof.Claims

/-- A vector instruction of a front end's context with nothing older in the vector queue is dispatched at once, and the
checks of dispatch pass and settle r: length, first element, the state whose registers it reads. -/
def dispatches (s : State) (i : Instr) (k : VSpec) (r : VRun) : Prop :=
  s.lane = none ∧ s.ctx.isMiller = false ∧ ∃ s0, takeUnit s = .ok s0 ∧ s0.ctx.vq = [] ∧ s0.ctx.threading = false ∧
    vbegin (vcommit i s0).1 k (vcommit i s0).2 = .ok r

/-- No lane error is on its way, and none is armed for a lane of the core (R319, R329). -/
def lanesCalm (r : VRun) : Prop := r.src.myCore.laneErr = [] ∧ ∀ l, r.src.laneInjection r.src.ctx.core l = none

/-- No element of a stream faults, no lane error is on its way, no floating-point exception is enabled. -/
def calm (r : VRun) : Prop := r.sfault = none ∧ lanesCalm r ∧ r.src.ctx.fcsr.extractLsb' 8 4 = 0

/-- No element that an input stream of the sources has fetched is one that faults. -/
def flows (r : VRun) : Prop := ∀ p ∈ r.spec.srcs, ∀ t, r.src.inputOf p.1 = some t → ∀ x ∈ t.ahead, x.fault = none

/-- Plot d is one that plotset admits (R89-R91), and the Field is stored in its canonical form. -/
def placed (r : VRun) (d : VReg) : Prop :=
  swf 0 0 r.src.myCore.field = true ∧ plotLegal (r.src.plotOf d) (r.src.rows r.src.ctx.core r.src.ctx.fe) = true

/-- The elements of plot d that the instruction processes (`VRun.elems`: active, from VSTART to L - 1) hold the values
given, or where none is given what they held; no other cell of the Field changes. -/
def elements (r : VRun) (u : State) (d : VReg) (val : Nat → Option Nat) : Prop :=
  let p := r.src.plotOf d
  (∀ e ∈ r.elems, u.elem d e = (match val e with | some v => v % 2 ^ (16 * plotEw p) | none => r.src.elem d e)) ∧
  (∀ c, (∀ e ∈ r.elems, c ∉ plotCells p e) → sget 0 u.myCore.field c = sget 0 r.src.myCore.field c)

/-- Bits of mask m that the instruction processes hold the values given; its other bits and the other masks stay. -/
def maskBits (r : VRun) (u : State) (m : MReg) (val : Nat → Bool) : Prop :=
  (∀ e, e < 4096 → (u.ctx.mask m).getLsbD e = if e ∈ r.elems then val e else (r.src.ctx.mask m).getLsbD e) ∧
  ∀ n, n ≠ m → u.ctx.mask n = r.src.ctx.mask n

def masksStay (r : VRun) (u : State) : Prop := ∀ m, u.ctx.mask m = r.src.ctx.mask m
def fieldStays (r : VRun) (u : State) : Prop := ∀ c, sget 0 u.myCore.field c = sget 0 r.src.myCore.field c

/-- Memory and the registers x are as they were, the pc is past the instruction, and VSTART is 0 outside a handler. -/
def onward (s u : State) : Prop :=
  u.mem = s.mem ∧ (∀ q, u.ctx.getX q = s.ctx.getX q) ∧ u.ctx.pc = s.ctx.pc + 8 ∧ (s.ctx.inTrap = false → u.ctx.vstart = 0)

/-- As `onward`, with xd written. -/
def onwardX (s u : State) (d : XReg) (v : Word) : Prop :=
  u.mem = s.mem ∧ u.ctx.getX d = (if d = 0 then 0 else v) ∧ (∀ q, q ≠ d → u.ctx.getX q = s.ctx.getX q) ∧
  u.ctx.pc = s.ctx.pc + 8 ∧ (s.ctx.inTrap = false → u.ctx.vstart = 0)

/-- The flags of the elements stick in FCSR. -/
def flagsStick (r : VRun) (u : State) (fl : Nat → FFlags) : Prop :=
  u.ctx.fcsr = r.elems.foldl (fun f e => f ||| (fl e).zeroExtend 64) r.src.ctx.fcsr

/-- A vector instruction that stalls at its dispatch stays, at the head of the vector queue with its registers as read, and comes again
from there; the pc is past it, and no Mill changes. -/
def staysQueued (i : Instr) (s : State) : Prop :=
  ∃ t en, exec i s = .next (State.yieldTurn t) ∧ t.ctx.id = s.ctx.id ∧ t.ctx.vq = [en] ∧ en.instr = i ∧ en.pc = s.ctx.pc ∧ en.enc = s.enc ∧
    (∀ q : XReg, en.xs[q.toNat]'q.isLt = s.ctx.getX q) ∧ t.ctx.pc = s.ctx.pc + 8 ∧ (∀ q, t.ctx.getX q = s.ctx.getX q) ∧ t.mem = s.mem ∧
    t.mills = s.mills

/-- Any vector instruction of 64 bits (majors 0x30-0x39). -/
def isVectorInstr : Instr → Bool
  | .plotset _ _ _ | .plotget _ _ _ | .setvl _ _ _ | .setvlW _ _ _ _ _ _ | .vloop _ _ | .wmpub _ _ _ | .vsync _ _
  | .vfadd _ _ _ _ _ | .vfsub _ _ _ _ _ | .vfmul _ _ _ _ _ | .vfdiv _ _ _ _ _ | .vfmin _ _ _ _ _ | .vfmax _ _ _ _ _
  | .vfsgnj _ _ _ _ _ | .vfsgnjn _ _ _ _ _ | .vfsgnjx _ _ _ _ _ | .vfma _ _ _ _ _ _ | .vfms _ _ _ _ _ _
  | .vfnma _ _ _ _ _ _ | .vfnms _ _ _ _ _ _ | .vfsqrt _ _ _ _ | .vfrec _ _ _ _ | .vfrsqrt _ _ _ _ | .vfexp _ _ _ _
  | .vflog _ _ _ _ | .vfsin _ _ _ _ | .vfcos _ _ _ _ | .vftanh _ _ _ _ | .vfabs _ _ _ _ | .vfneg _ _ _ _
  | .vadd _ _ _ _ _ | .vsub _ _ _ _ _ | .vmul _ _ _ _ _ | .vmulh _ _ _ _ _ | .vmulhu _ _ _ _ _ | .vdiv _ _ _ _ _
  | .vdivu _ _ _ _ _ | .vrem _ _ _ _ _ | .vremu _ _ _ _ _ | .vand _ _ _ _ _ | .vor _ _ _ _ _ | .vxor _ _ _ _ _
  | .vsll _ _ _ _ _ | .vsrl _ _ _ _ _ | .vsra _ _ _ _ _ | .vmin _ _ _ _ _ | .vmax _ _ _ _ _ | .vminu _ _ _ _ _
  | .vmaxu _ _ _ _ _ | .vadc _ _ _ _ _ _ _ | .vsbc _ _ _ _ _ _ _ | .vfcmp _ _ _ _ _ _ | .vcmp _ _ _ _ _ _
  | .vcvt _ _ _ _ _ | .mand _ _ _ _ | .mor _ _ _ _ | .mxor _ _ _ _ | .mandn _ _ _ _ | .mnot _ _ _ | .mshift _ _ _ _ _
  | .mpopc _ _ _ _ | .mfirst _ _ _ | .vred _ _ _ _ _ | .vfred _ _ _ _ _ | .vrand _ _ _ _ | .vld _ _ _ _ _ _ _
  | .vldStrided _ _ _ _ _ _ _ | .vldx _ _ _ _ _ _ _ _ | .vldt _ _ _ _ _ _ _ | .vst _ _ _ _ _ _ _
  | .vstStrided _ _ _ _ _ _ _ | .vstx _ _ _ _ _ _ _ _ | .vamo _ _ _ _ _ _ _ _ _ _ _ | .vperm _ _ _ _ _
  | .vslideup _ _ _ _ _ | .vslidedn _ _ _ _ _ | .vcompress _ _ _ _ _ _ | .vexpand _ _ _ _ _ | .vbcast _ _ _ _ _
  | .vextract _ _ _ _ _ | .vinsert _ _ _ _ _ | .vunpk _ _ _ _ | .vfeed _ _ _ _ | .vdrain _ _ _ _ | .vdetach _ _ _ _
  | .vfence _ _ | .fcfg _ _ _ | .fins _ _ _ _ | .fmerge _ _ _ | .fread _ _ _ _ _ | .fclr _ _ | .fsave _ _ _ | .fload _ _ _ => true
  | _ => false

/-- A plot that an instruction may name (R88, R91), bound to no stream. -/
def plotNamed (s : State) (p : VReg × Option Nat) : Prop :=
  let w := s.plotOf p.1
  plotValid w = true ∧ (plotBox w).inRows (s.rows s.ctx.core s.ctx.fe) = true ∧ (∀ n, p.2 = some n → plotEw w = n) ∧ plotSlot w = 0

/-- At address a stands a vector word of a convoy's unit u. -/
def memberOf (s : State) (a : Word) (u : BitVec 3) (enc : Nat) (s' : State) : Prop :=
  s.fetchAt a = .word s' enc 8 ∧ (∃ i, decodeWord enc = .ok i) ∧ convoyUnit enc = some u.toNat

/-- Instructions at which the scalar core waits for the older vector instructions (R212, R230). -/
def staysAtScalar : Instr → Bool
  | .vsync _ _ | .vfence _ _ => true
  | _ => false

/-- What an instruction writes at its commit: only setvl does (R193). -/
def writesAtCommit : Instr → Option XReg
  | .setvl _ d _ => some d
  | _ => none

end Sys2Proof.Claims

/-- Commit and dispatch (R93, R96, R107, R136, R153, R164, R187, R188, R230): behind older vector instructions, or beside lane
threads, an instruction waits in the queue with its operand registers as read; with 32 there, or where it reads a register that one
of them is still to write, it waits itself, as vsync and vfence do behind any; the oldest is dispatched once no lane thread runs,
and flags that younger scalar instructions have raised behind it are set when it is done. A free vector unit is taken with fresh vector state. The checks of dispatch: a pipe of the unit's
class is owned (else cause 0x01), each plot is defined, in owned rows and of the type's cells (else cause 0x02), and the
length comes from VL, a register or the length queue. -/
def Sys2Proof.Claims.VectorCommit : Prop :=
  ∀ (i : Instr) (s s0 : State) (en : VQEntry) (k : VSpec) (rest : List VQEntry),
    (isVectorInstr i = true → s.lane = none → s.ctx.isMiller = false → takeUnit s = .ok s0 →
      (staysAtScalar i = true → (s0.ctx.vq ≠ [] ∨ s0.ctx.threading = true) → exec i s = .next s0.yieldTurn) ∧
      (staysAtScalar i = false → s0.ctx.commitWaits i = false → (s0.ctx.vq ≠ [] ∨ s0.ctx.threading = true) → ∃ u en', exec i s = .next u ∧
        u.ctx.vq = s0.ctx.vq ++ [en'] ∧ en'.instr = i ∧ en'.pc = s.ctx.pc ∧ en'.enc = s.enc ∧ en'.pos = s0.ctx.vqNext ∧
        (∀ q : XReg, en'.xs[q.toNat]'q.isLt = s.ctx.getX q) ∧ u.ctx.pc = s.ctx.pc + 8 ∧ u.mem = s.mem ∧
        ∀ q, writesAtCommit i ≠ some q → u.ctx.getX q = s.ctx.getX q) ∧
      ((∃ q ∈ vectorReads i, q ∈ s0.ctx.sendsTo) → exec i s = .next s0.yieldTurn) ∧
      (32 ≤ s0.ctx.vq.length → exec i s = .next s0.yieldTurn)) ∧
    (s.ctx.phase = .running → s.lane = none → s.ctx.vq = en :: rest → s.ctx.threading = false →
      ∀ t, vectorBody en.instr en { s with ctx := { s.ctx with vq := rest } } = .ok t →
        exec .vectorDispatch s = .next { t with ctx := t.ctx.retired en }) ∧
    (s.ctx.phase = .running → s.lane = none → s.ctx.vq ≠ [] → s.ctx.threading = true → exec .vectorDispatch s = .next s.yieldTurn) ∧
    (s.myCore.board = [] → (s.ctx.unit = true → takeUnit s = .ok s.passUnit) ∧
      (s.ctx.unit = false → (∀ j ∈ s.others, j.core = s.ctx.core → j.fe = s.ctx.fe → j.unit = false) → ∃ t, takeUnit s = .ok t ∧ t.ctx.unit = true ∧
        (∀ v, plotValid (t.ctx.plot v) = false) ∧ (∀ m, t.ctx.mask m = 0) ∧ t.ctx.lq = [] ∧ t.ctx.vl = 0 ∧ t.ctx.vstart = 0 ∧ t.mem = s.mem)) ∧
    (let piped := 4 ≤ k.unit ∨ s.myFe.pipeown &&& pipeMask k.unit ≠ 0
     let named := ∀ p ∈ k.dest.toList ++ k.also ++ k.srcs, plotNamed s p
     (¬ piped → ∃ w t, vbegin en k s = .error (.trap w t) ∧ t.cause = 0x01 ∧ t.tval = en.enc ∧ w.mem = s.mem) ∧
     (piped → k.governed = true → k.o.vls = .lq → en.popped = none → s.ctx.lq = [] →
       ∃ w t, vbegin en k s = .error (.trap w t) ∧ t.cause = 0x02 ∧ t.tval = en.enc ∧ w.mem = s.mem) ∧
     (piped → (k.governed = true → k.o.vls ≠ .lq) → (∃ p ∈ k.dest.toList ++ k.also ++ k.srcs, plotValid (s.plotOf p.1) = false) →
       ∃ w t, vbegin en k s = .error (.trap w t) ∧ t.cause = 0x02 ∧ t.tval = en.enc ∧ w.mem = s.mem) ∧
     (piped → named → (s.ctx.inTrap = true ∨ s.ctx.vstart = 0) →
       (∀ n : Nat, (k.governed = false ∨ k.o.vls = .vl → n = s.ctx.vl.toNat) →
           (∀ x, k.governed = true → k.o.vls = .reg x → n = min (en.xs[x.toNat]'x.isLt).toNat s.ctx.mvl.toNat) →
           ¬ (k.governed = true ∧ k.o.vls = .lq) →
         ∃ r, vbegin en k s = .ok r ∧ r.src = s ∧ r.start = 0 ∧ r.sfault = none ∧ r.vl = n ∧
           r.len = (k.lenOf.map (fun v => plotCount (s.plotOf v))).foldl min n) ∧
       (∀ n l, k.governed = true → k.o.vls = .lq → en.popped = none → s.ctx.lq = n :: l →
         ∃ r, vbegin en k s = .ok r ∧ r.src.ctx.lq = l ∧ r.vl = min n s.ctx.mvl.toNat)))

/-- The convoy header (R110-R112, R373): 2 to 6 members, each a vector instruction of the unit that the header names; the pc moves
on and the members are kept as they were fetched, so that the next fetch gives the first of them whatever stands in memory then; a field that breaks the rules, or a member that does not fit, raises cause 0x01 with the
header's encoding in TVAL. -/
def Sys2Proof.Claims.Convoys : Prop :=
  ∀ (s s1 s2 : State) (e1 e2 : Nat) (n u1 u2 u3 u4 u5 u6 : BitVec 3), s.lane = none → s.ctx.isMiller = false →
    let us := [u1, u2, u3, u4, u5, u6]
    let i : Instr := .convoyHeader n u1 u2 u3 u4 u5 u6
    (n.toNat < 2 ∨ 6 < n.toNat ∨ (∃ u ∈ us.take n.toNat, u = 7) ∨ (∃ u ∈ us.drop n.toNat, u ≠ 0) →
      exec i s = .next (s.takeTrap (.scalar 0x01 s.enc))) ∧
    (n = 2 → u1 ≠ 7 → u2 ≠ 7 → u3 = 0 → u4 = 0 → u5 = 0 → u6 = 0 →
      (memberOf s (s.ctx.pc + 4) u1 e1 s1 → memberOf s1 (s.ctx.pc + 12) u2 e2 s2 →
        exec i s = .next (({ s2 with ctx := { s2.ctx with convoy := [BitVec.ofNat 64 e1, BitVec.ofNat 64 e2] } } : State).advance 4)) ∧
      (∀ enc, s.fetchAt (s.ctx.pc + 4) = .word s1 enc 8 → convoyUnit enc ≠ some u1.toNat → exec i s = .next (s.takeTrap (.scalar 0x01 s.enc)))) ∧
    (∀ w ws, s.ctx.convoy = w :: ws → s.ctx.breaks = [] → s.fetch = .word s w.toNat 8)

/-- Commit and dispatch of vector instructions (R93, R96, R107, R136, R153, R164, R188), and convoys (R110-R112). -/
def Obligations.VectorIssue : Prop := VectorCommit ∧ Convoys

namespace Sys2Proof.Claims

/-- The cap of setvl: none with x0 (R193). -/
def capped (s : State) (c : XReg) (n : Nat) : Nat := if c = 0 then n else min n (s.getX c).toNat

/-- The strip loop's grant stands in VL, in the loop context and in xd. -/
def grants (s u : State) (d : XReg) (n : Nat) : Prop :=
  onwardX s u d (BitVec.ofNat 64 n) ∧ u.ctx.vl = BitVec.ofNat 64 n ∧ u.ctx.loop = { s.ctx.loop with grant := BitVec.ofNat 13 n }

end Sys2Proof.Claims

/-- Configuration and strip loops (R189-R196, R212): plotset sets an entry that R89-R91 admit within the nest's plots, or
clears one, and rejects others with cause 0x02 and the entry in TVAL; plotget reads it, 0 for an undefined one; vloop,
setvl, setvl.w, wmpub and vlend move the loop context as the rules say; vsync goes on once the output streams are stored. -/
def Obligations.VectorConfiguration : Prop :=
  ∀ (s : State) (r : VRun) (dt p : Bool) (v : VReg) (d a c : XReg) (sc : Scope) (o : BitVec 16),
    let n := min s.ctx.loop.remaining.toNat s.ctx.mvl.toNat
    let w := s.getX a
    (dispatches s (.plotset dt v a) (cfgSpec false) r →
      (plotValid w = false → ∃ u, exec (.plotset dt v a) s = .next u ∧ onward s u ∧ u.ctx.plot v = 0 ∧ u.ctx.pdirty.getLsbD v.toNat = false ∧
        ∀ q, q ≠ v → u.ctx.plot q = r.src.ctx.plot q) ∧
      (plotValid w = true → plotLegal w (r.src.rows s.ctx.core s.ctx.fe) = true →
        (plotValid (r.src.plotOf v) = true ∨ r.src.ctx.plots.toList.countP plotValid < r.src.plotLimit) →
        ∃ u, exec (.plotset dt v a) s = .next u ∧ onward s u ∧ u.ctx.plot v = w ∧ ∀ q, q ≠ v → u.ctx.plot q = r.src.ctx.plot q) ∧
      (plotValid w = true → plotLegal w (r.src.rows s.ctx.core s.ctx.fe) = false →
        ∃ x t, exec (.plotset dt v a) s = .next (State.takeTrap x t) ∧ t.cause = 0x02 ∧ t.tval = w ∧ x.ctx.plots = r.src.ctx.plots)) ∧
    (dispatches s (.plotget dt d v) (cfgSpec true) r → ∃ u, exec (.plotget dt d v) s = .next u ∧ masksStay r u ∧ fieldStays r u ∧
      onwardX s u d (if plotValid (r.src.plotOf v) then r.src.plotOf v else 0)) ∧
    (dispatches s (.vloop dt a) (cfgSpec false) r →
      (w.toNat < 2 ^ 40 → ∃ u, exec (.vloop dt a) s = .next u ∧ onward s u ∧ u.ctx.loop.remaining.toNat = w.toNat ∧ u.ctx.loop.grant = 0 ∧
        u.ctx.loop.base = 0 ∧ u.ctx.loop.strips = 0) ∧
      (2 ^ 40 ≤ w.toNat → ∃ x t, exec (.vloop dt a) s = .next (State.takeTrap x t) ∧ t.cause = 0x02 ∧ t.tval = w)) ∧
    (dispatches s (.setvl dt d c) (cfgSpec false) r → s.ctx.unit = true →
      (c = 0 ∨ s.getX c ≠ 0 → ∃ u, exec (.setvl dt d c) s = .next u ∧ grants s u d (capped s c n)) ∧
      (c ≠ 0 → s.getX c = 0 → ∃ x t, exec (.setvl dt d c) s = .next (State.takeTrap x t) ∧ t.cause = 0x02)) ∧
    (dispatches s (.setvlW dt p sc d a c) (cfgSpec true) r → s.ctx.unit = true → (c = 0 ∨ s.getX c ≠ 0) →
      (n = 0 → ∃ u, exec (.setvlW dt p sc d a c) s = .next u ∧ grants s u d 0) ∧
      (∀ m y, 0 < capped s c n → r.src.load .word w 8 .normal = .ok (some m, y) →
        (p = true → s.ctx.loop.base.toNat < m → ∃ u, exec (.setvlW dt p sc d a c) s = .next u ∧ grants s u d (min (capped s c n) (m - s.ctx.loop.base.toNat))) ∧
        (p = false → s.ctx.loop.base.toNat + capped s c n ≤ m → ∃ u, exec (.setvlW dt p sc d a c) s = .next u ∧ grants s u d (capped s c n)))) ∧
    (dispatches s (.wmpub dt sc a) (cfgSpec false) r → s.ctx.unit = true → s.mem.wf = true → ∀ x q y, release (some sc) r.src = .ok x →
      x.access .word .store .strand w 8 .normal = .ok (q, y) → State.selectAt q.pa = none → ∃ u, exec (.wmpub dt sc a) s = .next u ∧
        u.mem.num q.pa 8 = s.ctx.loop.base.toNat + s.ctx.loop.grant.toNat ∧
        (∀ b, b < q.pa ∨ q.pa + 8 ≤ b → u.mem.byte b = s.mem.byte b) ∧
        u.ctx.loop = s.ctx.loop ∧ (∀ q, u.ctx.getX q = s.ctx.getX q)) ∧
    (onFront s →
      (s.ctx.loop.grant = 0 → s.ctx.loop.remaining ≠ 0 → exec (.vlend o) s = .next (s.takeTrap (.scalar 0x02 0))) ∧
      ((s.ctx.loop.grant ≠ 0 ∨ s.ctx.loop.remaining = 0) → s.ctx.threading = false → ∃ u, exec (.vlend o) s = .next u ∧
        u.ctx.loop.remaining = s.ctx.loop.remaining - s.ctx.loop.grant.setWidth 40 ∧ u.ctx.loop.base = s.ctx.loop.base + s.ctx.loop.grant.setWidth 40 ∧
        u.ctx.loop.grant = 0 ∧ u.ctx.loop.strips = s.ctx.loop.strips + 1 ∧ u.mem = s.mem ∧ (∀ q, u.ctx.getX q = s.ctx.getX q) ∧
        u.ctx.pc = if u.ctx.loop.remaining ≠ 0 then branchTarget s o else s.ctx.pc + 4)) ∧
    (dispatches s (.vsync dt sc) (cfgSpec false) r → r.src.streamsOut r.src.ctx = true → ∃ u, exec (.vsync dt sc) s = .next u ∧ onward s u ∧ masksStay r u ∧ fieldStays r u)

/-- strset (R48, R255): xa = 0 frees the slot; otherwise the block at xa configures it under MFMT, from its first element on.
A misaligned block raises cause 0x04, one that breaks its field rules cause 0x02. The slots of the front end but this one
stay. -/
def Obligations.StreamSetup : Prop :=
  ∀ (s s0 : State) (a : XReg) (k : BitVec 4), onFront s → takeUnit s = .ok s0 → s0.ctx.vq = [] → s0.ctx.threading = false →
    (∀ t, s0.streamAt k.toNat = some t → t.output = true → t.ahead = []) →
    (a = 0 → ∃ u, exec (.strset a k) s = .next u ∧ u.streamAt k.toNat = none ∧ (∀ j, j ≠ k.toNat → u.streamAt j = s0.streamAt j) ∧
      u.mem = s.mem ∧ u.ctx.pc = s.ctx.pc + 4) ∧
    (a ≠ 0 → (s.getX a).toNat % 64 ≠ 0 → exec (.strset a k) s = .next (s0.takeTrap (.scalar 0x04 (s.getX a)))) ∧
    (∀ ws t, a ≠ 0 → (s.getX a).toNat % 64 = 0 → readBlock s0 (s.getX a) 8 = .ok (ws, t) → t.ctx = s0.ctx →
      (∀ j, t.streamAt j = s0.streamAt j) →
      (streamOk ws = false → exec (.strset a k) s = .next (t.takeTrap (.scalar 0x02 s.enc))) ∧
      (streamOk ws = true → (mform s.ctx.mfmt).admits (streamTy ws) .other = true → ∃ u x, exec (.strset a k) s = .next u ∧
        u.streamAt k.toNat = some x ∧ x.ctx = s.ctx.id ∧ x.base = ws.getD 0 0 ∧ x.output = (ws.getD 1 0).getLsbD 63 ∧ x.ty = streamTy ws ∧ x.mfmt = s.ctx.mfmt ∧
        x.pos = 0 ∧ x.ahead = [] ∧ (∀ j, j ≠ k.toNat → u.streamAt j = s0.streamAt j) ∧ u.mem = t.mem ∧ u.ctx.pc = s.ctx.pc + 4))

/-! ## Vector arithmetic -/

namespace Sys2Proof.Claims

/-- Result without a flag. -/
def noFlag (n : Nat) : FRes := { bits := n, flags := 0 }

/-- Two-source floating-point instructions (R198): type, options, destination, sources, function. -/
def vfp2 : Instr → Option (FTy × VOpts × VReg × VReg × VSrc × (Fmt → RMode → Nat → Nat → FRes))
  | .vfadd t o d a b => some (t, o, d, a, b, Fmt.add) | .vfsub t o d a b => some (t, o, d, a, b, Fmt.sub)
  | .vfmul t o d a b => some (t, o, d, a, b, Fmt.mul) | .vfdiv t o d a b => some (t, o, d, a, b, Fmt.div)
  | .vfmin t o d a b => some (t, o, d, a, b, fun f _ x y => noFlag (f.minmax false x y))
  | .vfmax t o d a b => some (t, o, d, a, b, fun f _ x y => noFlag (f.minmax true x y))
  | .vfsgnj t o d a b => some (t, o, d, a, b, fun f _ x y => let h := 2 ^ (f.width - 1); noFlag (x % h + y / h * h))
  | .vfsgnjn t o d a b => some (t, o, d, a, b, fun f _ x y => let h := 2 ^ (f.width - 1); noFlag (x % h + (1 - y / h) * h))
  | .vfsgnjx t o d a b => some (t, o, d, a, b, fun f _ x y => let h := 2 ^ (f.width - 1); noFlag (x % h + (x / h + y / h) % 2 * h))
  | _ => none

/-- Fused products (R199): whether the product and the addend are negated. -/
def vfp3 : Instr → Option (FTy × VOpts × VReg × VReg × VSrc × VReg × Bool × Bool)
  | .vfma t o d a b c => some (t, o, d, a, b, c, false, false) | .vfms t o d a b c => some (t, o, d, a, b, c, false, true)
  | .vfnma t o d a b c => some (t, o, d, a, b, c, true, true) | .vfnms t o d a b c => some (t, o, d, a, b, c, true, false)
  | _ => none

/-- One-source floating-point instructions (R200). -/
def vfp1 : Instr → Option (FTy × VOpts × VReg × VReg × (Fmt → RMode → Nat → FRes))
  | .vfsqrt t o d a => some (t, o, d, a, Fmt.sqrt) | .vfrec t o d a => some (t, o, d, a, fun f rm x => f.div rm (f.one false) x)
  | .vfrsqrt t o d a => some (t, o, d, a, Fmt.rsqrt) | .vfexp t o d a => some (t, o, d, a, Fmt.exp)
  | .vflog t o d a => some (t, o, d, a, Fmt.log) | .vfsin t o d a => some (t, o, d, a, fun f rm x => f.trig rm false x)
  | .vfcos t o d a => some (t, o, d, a, fun f rm x => f.trig rm true x) | .vftanh t o d a => some (t, o, d, a, Fmt.tanh)
  | .vfabs t o d a => some (t, o, d, a, fun f _ x => noFlag (x % 2 ^ (f.width - 1)))
  | .vfneg t o d a => some (t, o, d, a, fun f _ x => noFlag (x ^^^ 2 ^ (f.width - 1)))
  | _ => none

/-- Conversion of one element (R205). -/
def converted (d t : ETy) (rm : RMode) (x : Nat) : FRes :=
  if d = t then noFlag x
  else match ETy.fmt? t, ETy.fmt? d with
    | some f, some g => f.conv g rm x
    | some f, none => f.toInt rm (ETy.width d) x
    | none, some g => g.ofInt rm (BitVec.ofNat (ETy.width t) x).toInt
    | none, none => noFlag ((BitVec.ofNat (ETy.width t) x).signExtend (ETy.width d)).toNat

/-- Two-source integer instructions (R201), on values of w bits. -/
def vint2 : Instr → Option (ITy × VOpts × VReg × VReg × VSrc × ((w : Nat) → BitVec w → BitVec w → BitVec w))
  | .vadd t o d a b => some (t, o, d, a, b, fun _ x y => x + y) | .vsub t o d a b => some (t, o, d, a, b, fun _ x y => x - y)
  | .vmul t o d a b => some (t, o, d, a, b, fun _ x y => x * y)
  | .vmulh t o d a b => some (t, o, d, a, b, fun w x y => BitVec.ofInt w (x.toInt * y.toInt / 2 ^ w))
  | .vmulhu t o d a b => some (t, o, d, a, b, fun w x y => BitVec.ofNat w (x.toNat * y.toNat / 2 ^ w))
  | .vdiv t o d a b => some (t, o, d, a, b, fun w x y => if y = 0 then BitVec.allOnes w else x.sdiv y)
  | .vdivu t o d a b => some (t, o, d, a, b, fun w x y => if y = 0 then BitVec.allOnes w else x / y)
  | .vrem t o d a b => some (t, o, d, a, b, fun _ x y => if y = 0 then x else x.srem y)
  | .vremu t o d a b => some (t, o, d, a, b, fun _ x y => if y = 0 then x else x % y)
  | .vand t o d a b => some (t, o, d, a, b, fun _ x y => x &&& y) | .vor t o d a b => some (t, o, d, a, b, fun _ x y => x ||| y)
  | .vxor t o d a b => some (t, o, d, a, b, fun _ x y => x ^^^ y)
  | .vsll t o d a b => some (t, o, d, a, b, fun w x y => x <<< (y.toNat % w))
  | .vsrl t o d a b => some (t, o, d, a, b, fun w x y => x >>> (y.toNat % w))
  | .vsra t o d a b => some (t, o, d, a, b, fun w x y => x.sshiftRight (y.toNat % w))
  | .vmin t o d a b => some (t, o, d, a, b, fun _ x y => if y.toInt < x.toInt then y else x)
  | .vmax t o d a b => some (t, o, d, a, b, fun _ x y => if x.toInt < y.toInt then y else x)
  | .vminu t o d a b => some (t, o, d, a, b, fun _ x y => if y.toNat < x.toNat then y else x)
  | .vmaxu t o d a b => some (t, o, d, a, b, fun _ x y => if x.toNat < y.toNat then y else x)
  | _ => none

end Sys2Proof.Claims

namespace Sys2Proof.Claims

/-- The floating-point instructions of `VectorResults` as one: element type, what dispatch checks, destination, and the result of
element e. -/
def fpWork (i : Instr) (r : VRun) (y : ETy) (k : VSpec) (d : VReg) (w : Nat → FRes) : Prop :=
  let rm := r.src.ctx.rmode
  (∃ t o a b f, vfp2 i = some (t, o, d, a, b, f) ∧ y = ftyE t ∧ k = maSpec y o d ((a, some (ETy.cells y)) :: VSrc.plots b y) ∧
    w = fun e => f (ftFmt t) rm (r.get a y e).1 (r.getB b y e).1) ∨
  (∃ t o a b c m n, vfp3 i = some (t, o, d, a, b, c, m, n) ∧ y = ftyE t ∧
    k = maSpec y o d ((a, some (ETy.cells y)) :: VSrc.plots b y ++ [(c, some (ETy.cells y))]) ∧
    w = fun e => (ftFmt t).fma rm m n (r.get a y e).1 (r.getB b y e).1 (r.get c y e).1) ∨
  (∃ t o a f, vfp1 i = some (t, o, d, a, f) ∧ y = ftyE t ∧ k = maSpec y o d [(a, some (ETy.cells y))] ∧ w = fun e => f (ftFmt t) rm (r.get a y e).1) ∨
  (∃ dt t o a, i = .vcvt dt t o d a ∧ y = dt ∧ w = (fun e => converted dt t rm (r.get a t e).1) ∧
    k = { unit := 0, o := o, dest := some (d, some (ETy.cells dt)), srcs := [(a, some (ETy.cells t))], lenOf := [d], cross := false, scalarRes := false, governed := true })

/-- The trap that a vector instruction takes at element k of its plot d, in the state y that stands then (R100-R102). -/
def trapsAt (i : Instr) (s y : State) (r : VRun) (cause : Nat) (tval : Word) (d : VReg) (k : Nat) : Prop :=
  ∃ t v, exec i s = .next (State.takeTrap y t) ∧ t.cause = cause ∧ t.tval = tval ∧ t.vec = some v ∧ v.entry.instr = i ∧ v.entry.pc = s.ctx.pc ∧
    v.plot = d.toNat ∧ v.cell = State.cellWord (r.src.plotOf d) k ∧ v.vstart = if r.selfov then 0 else k

/-- An enabled floating-point exception (R100, R101, R116): the first element that meets one traps with the lowest cause and its index in
TVAL; VSTART, TPLOT and TCELL name it. The elements below it are written and have set their flags, or with overlapping plots none
is, no flag is set, and VSTART is 0. -/
def FloatTraps : Prop :=
  ∀ (i : Instr) (s : State) (r : VRun) (y : ETy) (k : VSpec) (d : VReg) (w : Nat → FRes) (n c : Nat), r.sfault = none → lanesCalm r →
    fpWork i r y k d w → dispatches s i k r → placed r d → n ∈ r.elems → fpCause r.src.ctx.fcsr (w n).flags = some c →
    (∀ e ∈ r.elems, e < n → fpCause r.src.ctx.fcsr (w e).flags = none) →
    ∃ z, trapsAt i s z r c (BitVec.ofNat 64 n) d n ∧ z.mem = s.mem ∧ masksStay r z ∧
      (r.selfov = true → fieldStays r z ∧ z.ctx.fcsr = r.src.ctx.fcsr) ∧
      (r.selfov = false → (∀ e ∈ r.elems, e < n → z.elem d e = (w e).bits % 2 ^ (16 * plotEw (r.src.plotOf d))) ∧
        (∀ c, (∀ e ∈ r.elems, e < n → c ∉ plotCells (r.src.plotOf d) e) → sget 0 z.myCore.field c = sget 0 r.src.myCore.field c) ∧
        z.ctx.fcsr = (r.elems.filter (fun e => decide (e < n))).foldl (fun f e => f ||| (w e).flags.zeroExtend 64) r.src.ctx.fcsr)

/-- An error in a lane (R319, R320): the element that the lane processes next is replayed, and nothing shows of it; where the replay
meets the error again, that element alone receives the canonical value and sets no flag, and CKI tells, in protected mode with
Mismatch and an entry of kind 6 in the black box, else with Replay. -/
def LaneErrors : Prop :=
  ∀ (i : Instr) (s : State) (r : VRun) (y : ETy) (k : VSpec) (d : VReg) (w : Nat → FRes) (l n : Nat) (rep : Bool), r.sfault = none →
    r.src.ctx.fcsr.extractLsb' 8 4 = 0 → r.src.myCore.laneErr = [(l, rep)] → (∀ m, r.src.laneInjection r.src.ctx.core m = none) →
    fpWork i r y k d w → k.o.dt = false → dispatches s i k r → placed r d →
    let here (e : Nat) : Prop := if Ctx.protected r.src.ctx = true then l = e % 32 ∨ l = 32 + e % 32 else l = e % 64
    r.start ≤ n → n < r.len → here n → (∀ e, r.start ≤ e → e < n → ¬ here e) →
    ∃ u, exec i s = .next u ∧ onward s u ∧ masksStay r u ∧ u.myCore.laneErr = [] ∧
      elements r u d (fun e => some (if rep = true ∧ e = n then ETy.canon y else (w e).bits)) ∧
      u.ctx.fcsr = (r.elems.filter (fun e => !(rep && e == n))).foldl (fun f e => f ||| (w e).flags.zeroExtend 64) r.src.ctx.fcsr ∧
      (rep = true → u.ctx.cki.getLsbD (if Ctx.protected r.src.ctx = true then 4 else 3) = true ∧
        ((r.src.ctx.cki.extractLsb' 32 16).toNat < 0xFFFF → (r.src.ctx.cki.extractLsb' 32 16).toNat < (u.ctx.cki.extractLsb' 32 16).toNat) ∧
        (Ctx.protected r.src.ctx = true → ∃ b, u.reeve.box.getLast? = some b ∧ b.header.extractLsb' 56 8 = 6))

end Sys2Proof.Claims

/-- Floating-point arithmetic and conversions on plots (R185, R186, R198-R200, R205): each processed element is the function
of its source elements, read before anything is written; flags stick; nothing else changes. -/
def Sys2Proof.Claims.VectorResults : Prop :=
  ∀ (i : Instr) (s : State) (r : VRun), calm r →
    let out (d : VReg) (w : Nat → FRes) : Prop := ∃ u, exec i s = .next u ∧ onward s u ∧ masksStay r u ∧
      elements r u d (fun e => some (w e).bits) ∧ flagsStick r u (fun e => (w e).flags)
    let rm := r.src.ctx.rmode
    (∀ t o d a b f, vfp2 i = some (t, o, d, a, b, f) → let y := ftyE t
      dispatches s i (maSpec y o d ((a, some (ETy.cells y)) :: VSrc.plots b y)) r → placed r d →
      out d (fun e => f (ftFmt t) rm (r.get a y e).1 (r.getB b y e).1)) ∧
    (∀ t o d a b c m n, vfp3 i = some (t, o, d, a, b, c, m, n) → let y := ftyE t
      dispatches s i (maSpec y o d ((a, some (ETy.cells y)) :: VSrc.plots b y ++ [(c, some (ETy.cells y))])) r → placed r d →
      out d (fun e => (ftFmt t).fma rm m n (r.get a y e).1 (r.getB b y e).1 (r.get c y e).1)) ∧
    (∀ t o d a f, vfp1 i = some (t, o, d, a, f) → let y := ftyE t
      dispatches s i (maSpec y o d [(a, some (ETy.cells y))]) r → placed r d → out d (fun e => f (ftFmt t) rm (r.get a y e).1)) ∧
    (∀ dt t o d a, i = .vcvt dt t o d a →
      dispatches s i { unit := 0, o := o, dest := some (d, some (ETy.cells dt)), srcs := [(a, some (ETy.cells t))], lenOf := [d], cross := false, scalarRes := false, governed := true } r → placed r d →
      out d (fun e => converted dt t rm (r.get a t e).1))

/-- Floating-point arithmetic and conversions on plots (R185, R186, R198-R200, R205), their traps (R100-R102, R116) and lane errors
(R319, R320). -/
def Obligations.VectorFloat : Prop := VectorResults ∧ FloatTraps ∧ LaneErrors

/-- Integer arithmetic on plots (R201, R202) and vrand (R211), modulo 2^w; division's corners as R144's; vadc and vsbc take
the carry from one mask and write it to another. -/
def Obligations.VectorInteger : Prop :=
  ∀ (i : Instr) (s : State) (r : VRun), calm r →
    (∀ t o d a b f, vint2 i = some (t, o, d, a, b, f) → let y := ityE t
      dispatches s i (maSpec y o d ((a, some (ETy.cells y)) :: VSrc.plots b y)) r → placed r d →
      ∃ u, exec i s = .next u ∧ onward s u ∧ masksStay r u ∧ elements r u d (fun e =>
        some (f (ETy.width y) (BitVec.ofNat _ (r.get a y e).1) (BitVec.ofNat _ (r.getB b y e).1)).toNat)) ∧
    (∀ t o d a b mi mo, (i = .vadc t o d a b mi mo ∨ i = .vsbc t o d a b mi mo) → let y := ityE t
      dispatches s i (maSpec y o d ((a, some (ETy.cells y)) :: VSrc.plots b y)) r → placed r d → r.len ≤ 4096 →
      let c (e : Nat) : Int := if (r.src.ctx.mask mi).getLsbD e then 1 else 0
      let p (e : Nat) : Int := (r.get a y e).1
      let q (e : Nat) : Int := (r.getB b y e).1
      let sum (e : Nat) : Int := if i = .vadc t o d a b mi mo then p e + q e + c e else p e - q e - c e
      ∃ u, exec i s = .next u ∧ onward s u ∧ elements r u d (fun e => some (BitVec.ofInt (ETy.width y) (sum e)).toNat) ∧
        maskBits r u mo (fun e => decide (sum e < 0 ∨ 2 ^ ETy.width y ≤ sum e))) ∧
    (∀ t o d x, i = .vrand t o d x → dispatches s i (maSpec t o d []) r → placed r d →
      let z (e : Nat) : Word :=
        let a := s.getX x + BitVec.ofNat 64 (r.src.ctx.loop.base.toNat + e + 1) * 0x9E3779B97F4A7C15
        let b := (a ^^^ (a >>> 30)) * 0xBF58476D1CE4E5B9
        let c := (b ^^^ (b >>> 27)) * 0x94D049BB133111EB
        c ^^^ (c >>> 31)
      ∃ u, exec i s = .next u ∧ onward s u ∧ masksStay r u ∧
        (t = .i64 → elements r u d (fun e => some (z e).toNat)) ∧ (t = .i32 → elements r u d (fun e => some ((z e) >>> 32).toNat)) ∧
        (t = .bf16 → elements r u d (fun e => some (fBf16.round .rne false ((z e) >>> 56).toNat (-8)).bits)) ∧
        (t = .f32 → elements r u d (fun e => some (fFp32.round .rne false ((z e) >>> 40).toNat (-24)).bits)) ∧
        (t = .f64 → elements r u d (fun e => some (fFp64.round .rne false ((z e) >>> 11).toNat (-53)).bits)))

/-! ## Masks and reductions -/

namespace Sys2Proof.Claims

/-- Conditions of vcmp (R204). -/
def condInt (c : ICond) {w : Nat} (x y : BitVec w) : Bool :=
  match c with
  | .eq => decide (x = y) | .ne => decide (x ≠ y) | .lt => decide (x.toInt < y.toInt) | .le => decide (x.toInt ≤ y.toInt)
  | .ltu => decide (x.toNat < y.toNat) | .leu => decide (x.toNat ≤ y.toNat)

/-- Mask operations (R206, R207): options, destination, and bit e from the stored bits. -/
def maskForm (s : State) (r : VRun) : Instr → Option (VOpts × MReg × (Nat → Bool))
  | .mand o d a b => some (o, d, fun e => (r.src.ctx.mask a).getLsbD e && (r.src.ctx.mask b).getLsbD e)
  | .mor o d a b => some (o, d, fun e => (r.src.ctx.mask a).getLsbD e || (r.src.ctx.mask b).getLsbD e)
  | .mxor o d a b => some (o, d, fun e => (r.src.ctx.mask a).getLsbD e != (r.src.ctx.mask b).getLsbD e)
  | .mandn o d a b => some (o, d, fun e => (r.src.ctx.mask a).getLsbD e && !(r.src.ctx.mask b).getLsbD e)
  | .mnot o d a => some (o, d, fun e => !(r.src.ctx.mask a).getLsbD e)
  | .mshift down k o d a =>
    let n := match k with | .imm n => n.toNat | .reg x => (s.getX x).toNat
    some (o, d, fun e => if down then decide (e + n < r.len) && (r.src.ctx.mask a).getLsbD (e + n)
      else decide (n ≤ e) && (r.src.ctx.mask a).getLsbD (e - n))
  | _ => none

/-- Integer reductions (R210). -/
def redFn (op : RedOp) {w : Nat} (x y : BitVec w) : BitVec w :=
  match op with
  | .add => x + y | .and => x &&& y | .or => x ||| y | .xor => x ^^^ y
  | .min => if y.toInt < x.toInt then y else x | .max => if x.toInt < y.toInt then y else x
  | .minu => if y.toNat < x.toNat then y else x | .maxu => if x.toNat < y.toNat then y else x

/-- Floating-point reductions (R210). -/
def fredFn (op : FRedOp) (f : Fmt) (rm : RMode) (x y : Nat) : FRes :=
  match op with
  | .add => f.add rm x y | .min => noFlag (f.minmax false x y) | .max => noFlag (f.minmax true x y)

/-- Two partial results of a reduction, either of which may be absent, with the flags so far. -/
def joined (f : Nat → Nat → FRes) (a b : Option Nat × FFlags) : Option Nat × FFlags :=
  match a.1, b.1 with
  | none, y => (y, a.2 ||| b.2)
  | x, none => (x, a.2 ||| b.2)
  | some x, some y => (some (f x y).bits, a.2 ||| b.2 ||| (f x y).flags)

/-- The balanced tree over 2^n elements from e on. -/
def tree (f : Nat → Nat → FRes) (el : Nat → Option Nat) : Nat → Nat → Option Nat × FFlags
  | 0, e => (el e, 0)
  | n + 1, e => joined f (tree f el n e) (tree f el n (e + 2 ^ n))

end Sys2Proof.Claims

/-- Compares and masks (R204, R206-R209): the bits of the destination mask that are processed receive the results; mpopc
counts the set bits of active elements and may push the count on the length queue; mfirst answers the first, or -1. -/
def Sys2Proof.Claims.MaskResults : Prop :=
  ∀ (i : Instr) (s : State) (r : VRun), calm r → r.len ≤ 4096 →
    (∀ c t o m a b, i = .vfcmp c t o m a b → dispatches s i (cmpSpec (ftyE t) o a b) r →
      let w (e : Nat) : Bool × FFlags := (ftFmt t).cmp c (r.get a (ftyE t) e).1 (r.get b (ftyE t) e).1
      ∃ u, exec i s = .next u ∧ onward s u ∧ fieldStays r u ∧ maskBits r u m (fun e => (w e).1) ∧ flagsStick r u (fun e => (w e).2)) ∧
    (∀ c t o m a b, i = .vcmp c t o m a b → dispatches s i (cmpSpec (ityE t) o a b) r →
      ∃ u, exec i s = .next u ∧ onward s u ∧ fieldStays r u ∧ maskBits r u m (fun e =>
        condInt c (BitVec.ofNat (ETy.width (ityE t)) (r.get a (ityE t) e).1) (BitVec.ofNat (ETy.width (ityE t)) (r.get b (ityE t) e).1))) ∧
    (∀ o m f, maskForm s r i = some (o, m, f) → dispatches s i (maskSpec o false) r →
      ∃ u, exec i s = .next u ∧ onward s u ∧ fieldStays r u ∧ maskBits r u m f) ∧
    (∀ lq o d m, i = .mpopc lq o d m → dispatches s i (maskSpec o true) r → (lq = true → r.src.ctx.lq.length < 16) →
      let n := (List.range r.len).countP (fun e => r.active e && (r.src.ctx.mask m).getLsbD e)
      ∃ u, exec i s = .next u ∧ onwardX s u d (BitVec.ofNat 64 n) ∧ masksStay r u ∧ u.ctx.lq = r.src.ctx.lq ++ (if lq then [n] else [])) ∧
    (∀ o d m, i = .mfirst o d m → dispatches s i (maskSpec o true) r →
      let hit (e : Nat) : Prop := e < r.len ∧ r.active e = true ∧ (r.src.ctx.mask m).getLsbD e = true
      (∀ e, hit e → (∀ j, j < e → ¬ hit j) → ∃ u, exec i s = .next u ∧ onwardX s u d (BitVec.ofNat 64 e) ∧ masksStay r u) ∧
      ((∀ e, ¬ hit e) → ∃ u, exec i s = .next u ∧ onwardX s u d (BitVec.allOnes 64) ∧ masksStay r u))

/-- Reductions (R210): the integer ones combine xd's low bits with every active element, sign-extended; the floating-point
ones combine each group of 64 as a balanced tree, the groups in rising order, and xd last; with no active element xd stays. -/
def Sys2Proof.Claims.VectorReductions : Prop :=
  ∀ (i : Instr) (s : State) (r : VRun), r.sfault = none → lanesCalm r → flows r →
    (∀ op t o d a, i = .vred op t o d a → dispatches s i (redSpec (ityE t) o a) r →
      let w := ETy.width (ityE t)
      let vs := ((List.range r.len).filter r.active).map (fun e => BitVec.ofNat w (r.get a (ityE t) e).1)
      (vs = [] → ∃ u, exec i s = .next u ∧ onward s u) ∧
      (vs ≠ [] → ∃ u, exec i s = .next u ∧ masksStay r u ∧ fieldStays r u ∧
        onwardX s u d ((vs.foldl (redFn op) ((s.getX d).setWidth w)).signExtend 64))) ∧
    (∀ op t o d a, i = .vfred op t o d a → dispatches s i (redSpec (ftyE t) o a) r →
      let f := fredFn op (ftFmt t) r.src.ctx.rmode
      let el (e : Nat) : Option Nat := if e < r.len ∧ r.active e = true then some (r.get a (ftyE t) e).1 else none
      let all := (List.range ((r.len + 63) / 64)).foldl (fun acc g => joined f acc (tree f el 6 (64 * g))) (none, 0)
      (all.1 = none → ∃ u, exec i s = .next u ∧ onward s u) ∧
      (∀ v, all.1 = some v → let z := f ((s.getX d).toNat % 2 ^ ETy.width (ftyE t)) v
        ∃ u, exec i s = .next u ∧ onwardX s u d (BitVec.ofNat 64 z.bits) ∧ u.ctx.fcsr = r.src.ctx.fcsr ||| (all.2 ||| z.flags).zeroExtend 64))

/-- Compares, masks and reductions (R204, R206-R210). -/
def Obligations.VectorMasks : Prop := MaskResults ∧ VectorReductions

/-! ## Vector memory -/

namespace Sys2Proof.Claims

/-- Stored size of an element under MFMT. -/
def stored (r : VRun) (t : ETy) : Nat := (mform r.src.ctx.mfmt).enc.size t

/-- A signed index element (R215). -/
def indexOf (r : VRun) (b : VReg) (long : Bool) (e : Nat) : Word :=
  if long then BitVec.ofNat 64 (r.get b .i64 e).1 else (BitVec.ofNat 32 (r.get b .i32 e).1).signExtend 64

/-- Loads of scale mode none (R215, R219): type, options, order, destination, index plot, kind, address of element e. -/
def vloadForm (s : State) (r : VRun) : Instr → Option (ETy × VOpts × LdOrd × VReg × List (VReg × Option Nat) × AKind × (Nat → Word))
  | .vld t o q _ x d c => if c = 0 then some (t, o, q, d, [], .unit, fun e => s.getX x + BitVec.ofNat 64 (e * stored r t)) else none
  | .vldStrided t o q _ x p d => some (t, o, q, d, [], .other, fun e => s.getX x + BitVec.ofNat 64 e * s.getX p)
  | .vldx t o q _ long x d b => some (t, o, q, d, [(b, some (if long then 4 else 2))], .other, fun e => s.getX x + indexOf r b long e)
  | .vldt t o q _ x p d => some (t, o, q, d, [], .vldt, fun e =>
      s.getX x + BitVec.ofNat 64 (16 * (e / 64) + e % 64 % 16) * s.getX p + BitVec.ofNat 64 (e % 64 / 16 * stored r t))
  | _ => none

/-- Stores of scale mode none (R215). -/
def vstoreForm (s : State) (r : VRun) : Instr → Option (ETy × VOpts × StOrd × VReg × List (VReg × Option Nat) × AKind × (Nat → Word))
  | .vst t o q _ x a c => if c = 0 then some (t, o, q, a, [], .unit, fun e => s.getX x + BitVec.ofNat 64 (e * stored r t)) else none
  | .vstStrided t o q _ x p a => some (t, o, q, a, [], .other, fun e => s.getX x + BitVec.ofNat 64 e * s.getX p)
  | .vstx t o q _ long x a b => some (t, o, q, a, [(b, some (if long then 4 else 2))], .other, fun e => s.getX x + indexOf r b long e)
  | _ => none

/-- The scope of a store's release (R134). -/
def stScope : StOrd → Option Scope
  | .plain => none | .rel q => some q

/-- The scope at which a vamo acts, and of its release (R221). -/
def vamoAt : VamoOrd → Scope
  | .plain => .strand | .acq q | .rel q | .ar q => q
def vamoBefore : VamoOrd → Option Scope
  | .rel q | .ar q => some q | .plain | .acq _ => none

/-- New value of an atomic on w bits. -/
def amoBits (op : AmoOp) {w : Nat} (old x : BitVec w) : BitVec w :=
  match op with
  | .swap => x | .add => old + x | .and => old &&& x | .or => old ||| x | .xor => old ^^^ x
  | .min => if old.toInt ≤ x.toInt then old else x | .max => if x.toInt ≤ old.toInt then old else x
  | .maxu => if x.toNat ≤ old.toNat then old else x

/-- No error, in memory or in an L2, and no engine's stash range stands in the way of an access. -/
def memCalm (s : State) : Prop :=
  s.dramErr = [] ∧ s.latent = [] ∧ s.poison = [] ∧ s.myCore.board = [] ∧ ∀ d, ∀ y ∈ (s.die d).l2, y.bad = []

/-- The agent of a vector memory instruction: the gather pipe for an indexed one, else the load-store unit (R27). -/
def vagent : Instr → Agent
  | .vldx _ _ _ _ _ _ _ _ | .vstx _ _ _ _ _ _ _ _ | .vamo _ _ _ _ _ _ _ _ _ _ _ => .gather
  | _ => .vector

/-- The encoding in which an element is read: vldt reads the units of groups as they are (R219). -/
def readAs (k : AKind) (e : Enc) : Enc :=
  match k, e with
  | .vldt, .group _ => .native
  | _, e => e

end Sys2Proof.Claims

/-- Vector loads, stores and atomics of single elements (R78-R80, R214-R221): those whose scale mode is none, and vldt of a group's
units (log 63). For one element whose access passes the checks and reaches pa: a load converts the stored value into the element, a store the element into the stored bytes; vamo
updates memory in one step and delivers the old value unless it is discarded, or unless the element lies past the destination's
count (log 38). Nothing else changes. -/
def Sys2Proof.Claims.VectorAccesses : Prop :=
  ∀ (i : Instr) (s v x : State) (r : VRun) (e pa : Nat) (l : State.Reached), calm r → memCalm r.src → r.elems = [e] → s.mem.wf = true → l.pa = pa →
    let m := mform r.src.ctx.mfmt
    (∀ t o q d b k at', vloadForm s r i = some (t, o, q, d, b, k, at') → (m.scale = 0 ∨ k = .vldt) → m.admits t k = true →
      dispatches s i (memSpec 1 o (some (d, some (ETy.cells t))) b d false) r → placed r d →
      (k = .vldt → (r.src.stashAt r.src.ctx.core (at' e)).isSome = true) →
      r.src.reach (vagent i) .load .strand (at' e) (stored r t) = .ok (l, v) →
      ∃ u, exec i s = .next u ∧ onward s u ∧ masksStay r u ∧
        elements r u d (fun _ => some (loadConv (readAs k m.enc) m.sat t none (value s.mem pa (stored r t))).1)) ∧
    (∀ t o q a b k at', vstoreForm s r i = some (t, o, q, a, b, k, at') → m.scale = 0 → m.admits t k = true →
      dispatches s i (memSpec 2 o none ((a, some (ETy.cells t)) :: b) a false) r → release (stScope q) r.src = .ok v →
      v.reach (vagent i) .store .strand (at' e) (stored r t) = .ok (l, x) →
      ∃ u, exec i s = .next u ∧ masksStay r u ∧ fieldStays r u ∧ (∀ y, u.ctx.getX y = s.ctx.getX y) ∧ u.ctx.pc = s.ctx.pc + 8 ∧
        value u.mem pa (stored r t) = (storeConv m.enc m.sat t none (r.get a t e).1).1 % 256 ^ stored r t ∧
        ∀ c, c < pa ∨ pa + stored r t ≤ c → u.mem.byte c = s.mem.byte c) ∧
    (∀ op t o q c long drop y d a b, i = .vamo op t o q c long drop y d a b → let w := ETy.width (ityE t)
      dispatches s i (memSpec 2 o (if drop then none else some (d, some (ETy.cells (ityE t))))
        [(a, some (ETy.cells (ityE t))), (b, some (if long then 4 else 2))] a false) r →
      (drop = false → placed r d ∧ (plotBox (r.src.plotOf d)).meets (plotBox (r.src.plotOf a)) = false ∧
        (plotBox (r.src.plotOf d)).meets (plotBox (r.src.plotOf b)) = false) →
      release (vamoBefore q) r.src = .ok v → v.reach .gather .atomic (vamoAt q) (s.getX y + indexOf r b long e) (w / 8) = .ok (l, x) →
      let old := value s.mem pa (w / 8)
      ∃ u, exec i s = .next u ∧ masksStay r u ∧ (∀ z, u.ctx.getX z = s.ctx.getX z) ∧ u.ctx.pc = s.ctx.pc + 8 ∧
        value u.mem pa (w / 8) = (amoBits op (BitVec.ofNat w old) (BitVec.ofNat w (r.get a (ityE t) e).1)).toNat ∧
        (∀ z, z < pa ∨ pa + w / 8 ≤ z → u.mem.byte z = s.mem.byte z) ∧
        (drop = true ∨ plotCount (r.src.plotOf d) ≤ e → fieldStays r u) ∧
        (drop = false → e < plotCount (r.src.plotOf d) → elements r u d (fun _ => some old)))

/-- A fault of an element's access (R30, R100-R102, R217): the instruction stops there with the cause and the address of R25 in TVAL, and
VSTART, TPLOT and TCELL name the element; a masked-off one is not accessed. Elements below it are performed, or none where the
destination overlaps the index plot; nothing else changes. -/
def Sys2Proof.Claims.VectorMemoryTraps : Prop :=
  ∀ (i : Instr) (s v y : State) (r : VRun) (e k : Nat) (l : State.Reached) (f : XFault), calm r → memCalm r.src → s.mem.wf = true →
    let m := mform r.src.ctx.mfmt
    (∀ t o q d b kk at', vloadForm s r i = some (t, o, q, d, b, kk, at') → (m.scale = 0 ∨ kk = .vldt) → m.admits t kk = true →
      dispatches s i (memSpec 1 o (some (d, some (ETy.cells t))) b d false) r → placed r d →
      (kk = .vldt → ∀ j ∈ r.elems, (r.src.stashAt r.src.ctx.core (at' j)).isSome = true) →
      (r.elems = [k] → r.src.reach (vagent i) .load .strand (at' k) (stored r t) = .error (.fault y f) →
        ∃ z, trapsAt i s z r f.cause f.tval d k ∧ z.mem = s.mem ∧ masksStay r z ∧ fieldStays r z) ∧
      (r.elems = [e, k] → r.src.reach (vagent i) .load .strand (at' e) (stored r t) = .ok (l, v) → (at' k).toNat % stored r t ≠ 0 →
        ∃ z, trapsAt i s z r 0x04 (at' k) d k ∧ z.mem = s.mem ∧ masksStay r z ∧ (r.selfov = true → fieldStays r z) ∧
          (r.selfov = false → z.elem d e = (loadConv (readAs kk m.enc) m.sat t none (value s.mem l.pa (stored r t))).1 % 2 ^ (16 * plotEw (r.src.plotOf d)) ∧
            ∀ c, c ∉ plotCells (r.src.plotOf d) e → sget 0 z.myCore.field c = sget 0 r.src.myCore.field c))) ∧
    (∀ t o q a b kk at', vstoreForm s r i = some (t, o, q, a, b, kk, at') → m.scale = 0 → m.admits t kk = true →
      dispatches s i (memSpec 2 o none ((a, some (ETy.cells t)) :: b) a false) r → release (stScope q) r.src = .ok v →
      (r.elems = [k] → v.reach (vagent i) .store .strand (at' k) (stored r t) = .error (.fault y f) →
        ∃ z, trapsAt i s z r f.cause f.tval a k ∧ z.mem = s.mem ∧ masksStay r z ∧ fieldStays r z) ∧
      (r.elems = [e, k] → v.reach (vagent i) .store .strand (at' e) (stored r t) = .ok (l, y) → (at' k).toNat % stored r t ≠ 0 →
        ∃ z, trapsAt i s z r 0x04 (at' k) a k ∧ masksStay r z ∧ fieldStays r z ∧
          value z.mem l.pa (stored r t) = (storeConv m.enc m.sat t none (r.get a t e).1).1 % 256 ^ stored r t ∧
          ∀ c, c < l.pa ∨ l.pa + stored r t ≤ c → z.mem.byte c = s.mem.byte c)) ∧
    (∀ op t o q c long drop x d a b, i = .vamo op t o q c long drop x d a b → let w := ETy.width (ityE t)
      dispatches s i (memSpec 2 o (if drop then none else some (d, some (ETy.cells (ityE t))))
        [(a, some (ETy.cells (ityE t))), (b, some (if long then 4 else 2))] a false) r →
      (drop = false → (plotBox (r.src.plotOf d)).meets (plotBox (r.src.plotOf a)) = false ∧ (plotBox (r.src.plotOf d)).meets (plotBox (r.src.plotOf b)) = false) →
      release (vamoBefore q) r.src = .ok v → r.elems = [k] →
      v.reach .gather .atomic (vamoAt q) (s.getX x + indexOf r b long k) (w / 8) = .error (.fault y f) →
      ∃ z, trapsAt i s z r f.cause f.tval (if drop then a else d) k ∧ z.mem = s.mem ∧ masksStay r z ∧ fieldStays r z)

/-- Vector loads, stores and atomics (R78-R80, R214-R221), and the faults of their elements (R30, R100-R102, R217); logs 38 and 63 are
the model's readings on the way. -/
def Obligations.VectorMemory : Prop := VectorAccesses ∧ VectorMemoryTraps

namespace Sys2Proof.Claims

/-- Code j of a packed group (R75): w bits from bit w * j on, lowest first, in units of 16 bits. -/
def codeOf (units : Nat → Nat) (w j : Nat) : Nat :=
  ((List.range w).map (fun i => if (units ((w * j + i) / 16)).testBit ((w * j + i) % 16) then 2 ^ i else 0)).sum

end Sys2Proof.Claims

/-- Group and channel scales (R75, R81-R84, R220): a group's codes are packed lowest first and unpack to what was packed; a
load of a whole group of elements takes the scale from its first unit and leaves it in the scale plot; in channel mode
element e of row e / C takes scale e % C, and rows inside the window are kept in BF16. `groupUnits` reads a group's units. -/
def Obligations.VectorFormats : Prop :=
  ∀ (t : ETy) (o : VOpts) (q : LdOrd) (cc : BitVec 4) (xs : XReg) (d c : VReg) (s v : State) (r : VRun) (e : Nat) (l : State.Reached),
    let i : Instr := .vld t o q cc xs d c
    let m := mform r.src.ctx.mfmt
    (∀ (q3 : Bool) (cs : List Nat) (j : Nat), (∀ x ∈ cs, x < 2 ^ codeBits q3) → j < cs.length → codeAt q3 (packCodes q3 cs) j = cs.getD j 0) ∧
    (∀ (q3 : Bool) (g : Nat) (us : List Nat), calm r → memCalm r.src → m.enc = .group q3 → m.scale = 1 → m.admits t .unit = true → let bs := r.src.blockSize
      dispatches s i { memSpec 1 o (some (d, some (ETy.cells t))) [] d false with also := [(c, some 1)] } r → placed r d → plotNamed r.src (c, some 1) →
      plotLegal (r.src.plotOf c) (r.src.rows r.src.ctx.core r.src.ctx.fe) = true →
      (plotBox (r.src.plotOf c)).meets (plotBox (r.src.plotOf d)) = false → r.elems = (List.range bs).map (fun j => g * bs + j) →
      let n := groupBytes q3 bs
      r.groupUnits (plainLoad .vector (r.src.keeps ((r.vl + bs - 1) / bs * n))) (s.getX xs + BitVec.ofNat 64 (g * n)) (n / 2) (g * bs) r.src =
        .ok (us.map some, v) →
      ∃ u, exec i s = .next u ∧ onward s u ∧ (∀ j, j < bs → u.elem d (g * bs + j) =
          (loadConv m.enc m.sat t (some (us.getD 0 0)) (codeOf (fun k => us.getD (k + 1) 0) (if q3 then 3 else 4) j)).1 % 2 ^ (16 * plotEw (r.src.plotOf d))) ∧
        (g < plotCount (r.src.plotOf c) → u.elem c g = us.getD 0 0 % 2 ^ 16)) ∧
    (let kv := r.src.ctx.kvwin
     let ch := (kv.extractLsb' 0 13).toNat
     let raw := (kv.extractLsb' 16 24).toNat ≤ (kv.extractLsb' 40 24).toNat + e / ch
     let z := if raw then 2 else 1
     calm r → memCalm r.src → r.elems = [e] → s.mem.wf = true → m.scale = 2 → m.admits t .unit = true → 0 < ch → ch ≤ plotCount (r.src.plotOf c) → r.vl % ch = 0 →
      (kv.extractLsb' 40 24).toNat + r.vl / ch < 2 ^ 24 →
      dispatches s i (memSpec 1 o (some (d, some (ETy.cells t))) [(c, some 1)] d true) r → placed r d → flows r →
      r.src.reach .vector .load .strand (s.getX xs + BitVec.ofNat 64 (e / ch * (2 * ch) + e % ch * z)) z = .ok (l, v) →
      ∃ u, exec i s = .next u ∧ onward s u ∧ masksStay r u ∧ elements r u d (fun _ => some (if raw then value s.mem l.pa 2
        else (loadConv m.enc m.sat t (some (r.get c .bf16 (e % ch)).1) (value s.mem l.pa 1)).1)))

/-! ## Movement -/

namespace Sys2Proof.Claims

/-- A count of R222. -/
def countOf (s : State) : VCount → Nat
  | .imm k => k.toNat | .reg x => (s.getX x).toNat

/-- The set bits of a mask below n, rising. -/
def setBits (r : VRun) (m : MReg) (n : Nat) : List Nat := (List.range n).filter (fun e => (r.src.ctx.mask m).getLsbD e)

/-- Movement instructions (R222-R224): type, options, destination, sources, whether across lanes, whether a predicate is
admitted, and what element e receives, none where it stays. -/
def moveForm (s : State) (r : VRun) : Instr → Option (ETy × VOpts × VReg × List VReg × Bool × Bool × (Nat → Option Nat))
  | .vperm t o d a b => some (t, o, d, [a, b], true, true, fun e =>
      some (r.get a t (if (r.get b t e).2 then 0 else (r.get b t e).1)).1)
  | .vslideup t o d a k => some (t, o, d, [a], true, true, fun e => if countOf s k ≤ e then some (r.get a t (e - countOf s k)).1 else none)
  | .vslidedn t o d a k => some (t, o, d, [a], true, true, fun e => some (r.get a t (e + countOf s k)).1)
  | .vbcast t o d a k => some (t, o, d, [a], true, true, fun _ => some (r.get a t (countOf s k)).1)
  | .vinsert t o d x k => some (t, o, d, [], false, true, fun e => if e = countOf s k then some (s.getX x).toNat else none)
  | .vcompress _ t o d a m => some (t, o, d, [a], true, false, fun e => ((setBits r m r.len)[e]?).map (fun j => (r.get a t j).1))
  | .vexpand t o d a m => some (t, o, d, [a], true, false, fun e =>
      if (r.src.ctx.mask m).getLsbD e then some (r.get a t (setBits r m e).length).1 else none)
  | _ => none

end Sys2Proof.Claims

/-- Movement across lanes (R95, R222-R224) and unpacking (R220): an element past the source's end or past VL reads FILL
(`VRun.get`); elements that receive nothing stay; vcompress may push its count; vextract delivers one element. -/
def Obligations.VectorMoves : Prop :=
  ∀ (i : Instr) (s : State) (r : VRun), calm r → flows r →
    (∀ t o d vs x p f, moveForm s r i = some (t, o, d, vs, x, p, f) → (p = false → o.mask = 0 ∧ o.inv = false) →
      (∀ tt oo dd aa mm, i = .vcompress true tt oo dd aa mm → r.src.ctx.lq.length < 16) →
      dispatches s i (pmSpec t o d (vs.map (fun v => (v, some (ETy.cells t)))) x) r → placed r d →
      ∃ u, exec i s = .next u ∧ onward s u ∧ masksStay r u ∧ elements r u d f ∧
        (∀ lq m aa, i = .vcompress lq t o d aa m → u.ctx.lq = r.src.ctx.lq ++ if lq then [(setBits r m r.len).length] else [])) ∧
    (∀ t o d a k, i = .vextract t o d a k → dispatches s i { redSpec t o a with unit := 5 } r →
      let v := (r.get a t (countOf s k)).1
      ∃ u, exec i s = .next u ∧ masksStay r u ∧ fieldStays r u ∧
        onwardX s u d (if t = .i32 then (BitVec.ofNat 32 v).signExtend 64 else BitVec.ofNat 64 v)) ∧
    (∀ t o d a q3, i = .vunpk t o d a → (mform r.src.ctx.mfmt).enc = .group q3 → dispatches s i (pmSpec t o d [(a, some 1)] true) r → placed r d →
      let bs := r.src.blockSize
      let n := groupBytes q3 bs / 2
      let unit (e k : Nat) : Nat := (r.get a .bf16 (e / bs * n + k)).1
      r.len % bs = 0 → (∀ j, (r.get a .bf16 j).2 = false) →
      ∃ u, exec i s = .next u ∧ onward s u ∧ masksStay r u ∧ elements r u d (fun e =>
        some (loadConv (.group q3) (mform r.src.ctx.mfmt).sat t (some (unit e 0)) (codeOf (fun k => unit e (k + 1)) (if q3 then 3 else 4) (e % bs))).1)) ∧
    (∀ t o d a, i = .vunpk t o d a → (∀ q3, (mform r.src.ctx.mfmt).enc ≠ .group q3) → dispatches s i (pmSpec t o d [(a, some 1)] true) r →
      ∃ x y, exec i s = .next (State.takeTrap x y) ∧ y.cause = 0x02 ∧ y.tval = s.enc)

/-! ## Lane threads, Mill queues, fronts -/

/-- Lane threads (R227-R231): vdetach starts one for each active element at xs, over its plots; a thread's registers t0, t1, ... are element e of its plots; lexit ends it, its
65,536th other instruction ends it with fault 0x1A; vfence goes on without faults and else reports the lowest element's. -/
def Obligations.LaneThreads : Prop :=
  ∀ (s : State) (r : VRun) (o : VOpts) (va : VReg) (nt : BitVec 4) (x : XReg) (dt : Bool) (sc : Scope) (e : Nat),
    let plots := (List.range (nt.toNat + 1)).map (fun i => va + BitVec.ofNat 6 i)
    (dispatches s (.vdetach o va nt x) { unit := 7, o := o, dest := none, srcs := plots.map (fun v => (v, none)), lenOf := plots, cross := false, scalarRes := true, governed := true } r →
      (r.src.ctx.detach = none → r.sfault = none → r.src.ownIssued .core = true → ∃ u, exec (.vdetach o va nt x) s = .next u ∧ onward s u ∧ masksStay r u ∧ fieldStays r u ∧
        u.ctx.detach = some { va := va, nt := nt.toNat + 1, threads := r.elems.map (fun e => { elem := e, pc := s.getX x, count := 0 }), faults := [] }) ∧
      (r.src.ctx.detach ≠ none → ∃ w t, exec (.vdetach o va nt x) s = .next (State.takeTrap w t) ∧ t.cause = 0x02)) ∧
    (dispatches s (.vfence dt sc) { unit := 7, o := noOpts, dest := none, srcs := [], lenOf := [], cross := false, scalarRes := false, governed := false } r → r.src.streamsOut r.src.ctx = true →
      ((∀ d, r.src.ctx.detach = some d → d.faults = []) → ∃ u, exec (.vfence dt sc) s = .next u ∧ onward s u ∧ u.ctx.detach = none ∧ masksStay r u ∧ fieldStays r u) ∧
      (∀ d f, r.src.ctx.detach = some d → f ∈ d.faults → (∀ g ∈ d.faults, g ≠ f → f.elem < g.elem) →
        ∃ w t v, exec (.vfence dt sc) s = .next (State.takeTrap w t) ∧ t.cause = 0x1A ∧ t.tval = f.cause ++ f.addr.extractLsb' 0 56 ∧
          t.vec = some v ∧ v.plot = d.va.toNat ∧ w.ctx.detach = none)) ∧
    (∀ d, s.lane = some e → s.ctx.detach = some d → ∃ u, exec .lexit s = .next u ∧ u.lane = none ∧ u.mem = s.mem ∧
      u.ctx = { s.ctx with detach := some { d with threads := d.threads.filter (fun t => t.elem ≠ e) } }) ∧
    (s.lane = none → exec .lexit s = .next (s.takeTrap (.scalar 0x01 s.enc))) ∧
    (∀ d w enc n, s.arg = .lane s.ctx.id e → s.lane = some e → s.ctx.present = true → s.ctx.detach = some d → (∃ t ∈ d.threads, t.elem = e) →
      (∀ t ∈ d.threads, t.elem = e → 65535 ≤ t.count) → s.fetch = .word w enc n → enc ≠ 0x28000007 →
      ∃ u k, exec .laneThreadLimit s = .next u ∧ u.ctx.detach = some k ∧ (∀ t ∈ k.threads, t.elem ≠ e) ∧
        (∃ f ∈ k.faults, f.elem = e ∧ f.cause = 0x1A ∧ f.addr = s.pc)) ∧
    (∀ q v (z : Word), s.lane = some e → s.laneReg q = some v →
      (swf 0 0 s.myCore.field = true → (s.setX q z).getX q = BitVec.ofInt 64 (sextN (16 * plotEw (s.plotOf v)) z.toNat)) ∧
      (s.setX q z).ctx.x = s.ctx.x ∧ (s.setX q z).mem = s.mem ∧ s.setX 0 z = s ∧ s.getX 0 = 0)

/-- The ends of the Mill queues (R225, R226): vfeed appends the converted elements, inactive ones as 0, when they fit the
queue; vdrain takes entries and writes the active elements; both stall otherwise, or while no crew of their nest holds the Mill
(R31, R294), and then stay in the vector queue to be tried again. -/
def Obligations.MillQueues : Prop :=
  ∀ (s : State) (r : VRun) (o : VOpts) (v : VReg) (t : FTy) (f : Feed) (f64 : Bool), r.sfault = none → lanesCalm r → r.start < r.len →
    let m := r.src.mill r.src.ctx.cluster
    let q := r.src.ctx.queue
    (m.holder ≠ some r.src.ctx.nest →
      (dispatches s (.vfeed f t o v) (memSpec 1 o none [(v, some (ETy.cells (ftyE t)))] v false) r → staysQueued (.vfeed f t o v) s) ∧
      (dispatches s (.vdrain f64 t o v) (memSpec 2 o (some (v, some (ETy.cells (ftyE t)))) [] v false) r → staysQueued (.vdrain f64 t o v) s)) ∧
    (m.holder = some r.src.ctx.nest → dispatches s (.vfeed f t o v) (memSpec 1 o none [(v, some (ETy.cells (ftyE t)))] v false) r →
      let new := ((List.range r.len).drop r.start).flatMap (fun e => feedBytes f t (if r.active e then (r.get v (ftyE t) e).1 else 0))
      (m.feed[q].length + new.length ≤ 32768 → ∃ u, exec (.vfeed f t o v) s = .next u ∧ onward s u ∧ fieldStays r u ∧
        (u.mill s.ctx.cluster).feed[q] = m.feed[q] ++ new) ∧
      (32768 < m.feed[q].length + new.length → staysQueued (.vfeed f t o v) s)) ∧
    (m.holder = some r.src.ctx.nest → dispatches s (.vdrain f64 t o v) (memSpec 2 o (some (v, some (ETy.cells (ftyE t)))) [] v false) r → placed r v →
      let z := if f64 then 8 else 4
      let n := r.len - r.start
      (n * z ≤ m.drain[q].length → ∃ u, exec (.vdrain f64 t o v) s = .next u ∧ onward s u ∧ masksStay r u ∧
        (u.mill s.ctx.cluster).drain[q] = m.drain[q].drop (n * z) ∧
        elements r u v (fun e => some (drainElem f64 t (leNat ((m.drain[q].drop ((e - r.start) * z)).take z))))) ∧
      (m.drain[q].length < n * z → staysQueued (.vdrain f64 t o v) s))

namespace Sys2Proof.Claims

/-- A front whose image may be saved and loaded (R117, R249). -/
def frontSound (f : Front) : Prop :=
  fcfgOk f.cfg = true ∧ (f.slots.map FSlot.slot).Nodup ∧
  ∀ x ∈ f.slots, x.slot < fCap f.cfg ∧ hasNan f.cfg x.objs = false ∧ ∀ o ∈ x.objs.toList.drop (fDims f.cfg), o = 0

/-- The tuple of element e (R244). -/
def tupleAt (r : VRun) (plots : List VReg) (e : Nat) : Tuple :=
  Vector.ofFn (fun k : Fin 4 => match plots[k.val]? with | some v => BitVec.ofNat 32 (r.get v .f32 e).1 | none => 0)

end Sys2Proof.Claims

/-- An arrival (R243, R244): a tuple with a NaN is counted and dropped; one that a held tuple dominates or equals is dropped;
else those it dominates go, and it takes the lowest free slot; a full front follows its policy. -/
def Obligations.FrontArrivals : Prop :=
  ∀ (f : Front) (n : Nat) (t : Tuple) (p : BitVec 32), frontSound f →
    let c := f.cfg
    let beaten := ∃ x ∈ f.slots, dominates c x.objs t = true ∨ sameTuple c x.objs t = true
    let kept := f.slots.filter (fun x => !dominates c t x.objs)
    let full : Prop := hasNan c t = false ∧ ¬ beaten ∧ kept.length = fCap c
    (hasNan c t = true → f.arrive n t p = .mark f (8 + n)) ∧
    (hasNan c t = false → beaten → f.arrive n t p = .ok f) ∧
    (hasNan c t = false → ¬ beaten → kept.length < fCap c → ∃ i, i < fCap c ∧ (∀ x ∈ kept, x.slot ≠ i) ∧ (∀ j, j < i → ∃ x ∈ kept, x.slot = j) ∧
      f.arrive n t p = .ok { f with slots := kept ++ [{ slot := i, objs := t, payload := p }] }) ∧
    (full → (c.extractLsb' 6 2 = 0 → f.arrive n t p = .mark { f with slots := kept } n) ∧ (c.extractLsb' 6 2 = 2 → f.arrive n t p = .full) ∧
      (c.extractLsb' 6 2 = 3 → ∀ x xs, kept = x :: xs → f.arrive n t p = .ok { f with slots := xs ++ [{ slot := x.slot, objs := t, payload := p }] }) ∧
      (c.extractLsb' 6 2 = 1 → ∀ w ∈ kept, let k := fObj c
        (∀ x ∈ kept, x ≠ w → better c k (objVal w.objs k) (objVal x.objs k) = false ∧
          (better c k (objVal x.objs k) (objVal w.objs k) = false → x.slot < w.slot)) →
        f.arrive n t p = (if better c k (objVal t k) (objVal w.objs k) then
          .ok { f with slots := kept.filter (fun x => x.slot != w.slot) ++ [{ slot := w.slot, objs := t, payload := p }] }
          else .ok { f with slots := kept }))) ∧
    Front.ofImage f.image = some f

/-- The front instructions (R241-R250): fcfg empties a front under a new configuration word or rejects it with cause 0x02;
fins makes an arrival of each element, and a full front under policy 2 raises cause 0x18; fmerge makes arrivals of another
front's tuples; fread delivers tuples in slot order and their number; fclr empties; fsave and fload move the image. -/
def Obligations.FrontInstructions : Prop :=
  ∀ (s v w : State) (r : VRun) (o : VOpts) (fa fb : FReg) (va vb : VReg) (x : XReg) (e : Nat),
    let f := r.src.ctx.front fa
    let g := r.src.ctx.front fb
    let plots := (List.range (fDims f.cfg)).map (fun k => va + BitVec.ofNat 6 k)
    (dispatches s (.fcfg o fa x) frontSpec r → let w := s.getX x
      (fcfgOk w = true → ∃ u, exec (.fcfg o fa x) s = .next u ∧ onward s u ∧ u.ctx.front fa = { cfg := w, slots := [] } ∧ ∀ q, q ≠ fa → u.ctx.front q = r.src.ctx.front q) ∧
      (fcfgOk w = false → ∃ y t, exec (.fcfg o fa x) s = .next (State.takeTrap y t) ∧ t.cause = 0x02 ∧ t.tval = w)) ∧
    (dispatches s (.fclr o fa) frontSpec r → ∃ u, exec (.fclr o fa) s = .next u ∧ onward s u ∧ u.ctx.front fa = { f with slots := [] } ∧
      ∀ q, q ≠ fa → u.ctx.front q = r.src.ctx.front q) ∧
    (f.cfg ≠ 0 → va.toNat + fDims f.cfg ≤ 64 → r.sfault = none → r.elems = [e] →
      dispatches s (.fins o fa va vb) { unit := 4, o := o, dest := none, srcs := (plots ++ [vb]).map (fun v => (v, some 2)), lenOf := plots ++ [vb], cross := false, scalarRes := false, governed := true } r →
      let a := f.arrive fa.toNat (tupleAt r plots e) (BitVec.ofNat 32 (r.get vb .i32 e).1)
      (∀ h, a = .ok h → ∃ u, exec (.fins o fa va vb) s = .next u ∧ onward s u ∧ u.ctx.front fa = h ∧ u.ctx.fovf = r.src.ctx.fovf ∧ fieldStays r u) ∧
      (∀ h b, a = .mark h b → ∃ u, exec (.fins o fa va vb) s = .next u ∧ onward s u ∧ u.ctx.front fa = h ∧ u.ctx.fovf = r.src.ctx.fovf ||| BitVec.ofNat 64 (2 ^ b)) ∧
      (a = .full → ∃ y t, exec (.fins o fa va vb) s = .next (State.takeTrap y t) ∧ t.cause = 0x18 ∧ t.tval = BitVec.ofNat 64 e)) ∧
    (dispatches s (.fmerge o fa fb) frontSpec r → f.cfg ≠ 0 → g.cfg ≠ 0 → fDims f.cfg = fDims g.cfg → f.cfg.extractLsb' 2 4 = g.cfg.extractLsb' 2 4 →
      r.start = 0 → ∀ t p j, g.slots = [{ slot := j, objs := t, payload := p }] → j < 64 →
      (∀ h, f.arrive fa.toNat t p = .ok h → ∃ u, exec (.fmerge o fa fb) s = .next u ∧ onward s u ∧ u.ctx.front fa = h) ∧
      (∀ h b, f.arrive fa.toNat t p = .mark h b → ∃ u, exec (.fmerge o fa fb) s = .next u ∧ onward s u ∧ u.ctx.front fa = h ∧
        u.ctx.fovf = r.src.ctx.fovf ||| BitVec.ofNat 64 (2 ^ b)) ∧
      (f.arrive fa.toNat t p = .full → ∃ y z, exec (.fmerge o fa fb) s = .next (State.takeTrap y z) ∧ z.cause = 0x18 ∧ z.tval = BitVec.ofNat 64 j)) ∧
    (dispatches s (.fread o va vb fa x) { unit := 4, o := o, dest := some (va, some 2), also := (plots.drop 1 ++ [vb]).map (fun v => (v, some 2)), srcs := [], lenOf := plots ++ [vb], cross := false, scalarRes := false, governed := true } r → f.cfg ≠ 0 → va.toNat + fDims f.cfg ≤ 64 → r.sfault = none →
      swf 0 0 r.src.myCore.field = true → (∀ w ∈ plots ++ [vb], plotNamed r.src (w, some 2) ∧
        plotLegal (r.src.plotOf w) (r.src.rows r.src.ctx.core r.src.ctx.fe) = true) →
      (plots ++ [vb]).Pairwise (fun a b => (plotBox (r.src.plotOf a)).meets (plotBox (r.src.plotOf b)) = false) → (f.slots.map FSlot.slot).Nodup →
      (∀ y ∈ f.slots, y.slot < 64) →
      ∃ u, exec (.fread o va vb fa x) s = .next u ∧ onwardX s u x (BitVec.ofNat 64 (min f.slots.length r.len)) ∧
        ∀ y ∈ f.slots, let k := f.slots.countP (fun z => decide (z.slot < y.slot))
          k ∈ r.elems → u.elem vb k = y.payload.toNat ∧ ∀ j, j < fDims f.cfg → u.elem (va + BitVec.ofNat 6 j) k = (y.objs.toList.getD j 0).toNat) ∧
    (dispatches s (.fsave o fa x) frontSpec r → f.cfg ≠ 0 → imageCheck r.entry .store (s.getX x) r.src = .ok w →
      foldE (fun (w : State) (p : Word × Word) => frontAcc r.entry (w.store .vector p.1 8 p.2.toNat)) w
        ((wordAddrs (s.getX x) 200).zip f.image) = .ok v →
      ∃ u, exec (.fsave o fa x) s = .next u ∧ u.mem = v.mem ∧ u.ctx.pc = s.ctx.pc + 8 ∧ (∀ q, u.ctx.getX q = s.ctx.getX q) ∧ ∀ q, u.ctx.front q = r.src.ctx.front q) ∧
    (∀ (ws : List Nat), dispatches s (.fload o fa x) frontSpec r → imageCheck r.entry .load (s.getX x) r.src = .ok w →
      foldE (fun (st : List (Option Nat) × State) (a : Word) => (frontAcc r.entry (st.2.load .vector a 8 .normal)).map (fun p => (st.1 ++ [p.1], p.2)))
        (([], w) : List (Option Nat) × State) (wordAddrs (s.getX x) 200) = .ok (ws.map some, v) →
      (∀ h, Front.ofImage (ws.map (BitVec.ofNat 64)) = some h → ∃ u, exec (.fload o fa x) s = .next u ∧ onward s u ∧ u.ctx.front fa = h) ∧
      (Front.ofImage (ws.map (BitVec.ofNat 64)) = none → ∃ y t, exec (.fload o fa x) s = .next (State.takeTrap y t) ∧ t.cause = 0x02 ∧ t.tval = s.getX x))

/-! ## Slots, records, the board -/

namespace Sys2Proof.Claims

/-- The tag of a context's sublease, as a slot names it. -/
def slotTag (k : Ctx) : Nat := k.lease.toNat * 256 + k.sub.toNat

/-- A slot names a sublease as one of its occupants. -/
def occupies (e : Word) (tag : Nat) : Prop := ∃ g, g < 3 ∧ State.occOf e g = tag

/-- The contexts of a die that are being saved or stand saved are just one. -/
def onlyMoving (s : State) (d : BitVec 2) (k : Ctx) : Prop :=
  s.ctxs.filter (fun j => j.die == d && (j.phase == .stopping || j.phase == .saved)) = [k]

/-- A slot boundary (R302, R341-R343, R346): when it is due, the next valid slot begins with its entry as it then stands, the
way-groups whose occupant changes are emptied, revocations count, and the contexts whose sublease leaves stop: with their
undispatched vector instructions undone, and 2 as the result of a wait. A destroyed line met on the way is contained first. Then
contexts are saved and resumed, as `ContextSwitch` says. -/
def SlotBegins : Prop :=
  ∀ (s : State) (d : BitVec 2), s.arg = .die d →
    let x := s.die d
    let t := s.boundary d
    let y := t.die d
    (s.time.toNat < x.slotEnd.toNat → (∀ k ∈ s.ctxs, k.die = d → k.phase ≠ .stopping ∧ k.phase ≠ .saved) → exec .slotBoundary s = .next s) ∧
    (x.slotEnd.toNat ≤ s.time.toNat → ∃ u, exec .slotBoundary s = .next u ∧ u.mem = s.mem ∧
      (u = t.settleCtxs d ∨ u = (t.settleCtxs d).post .slotBoundary (.die d))) ∧
    ((∃ z ∈ x.l2, ∃ b ∈ z.bad, z.dirty.getLsbD b.1 = true ∧ z.way / 4 < 3 ∧ State.occOf x.inForce (z.way / 4) ≠ State.occOf ((State.nextSlot x).elim slot0 (fun i => x.slots.toList.getD i slot0)) (z.way / 4)) →
      y = x ∧ ∃ a, (.dirtyL2UeContainment, a) ∈ t.pend) ∧
    ((∀ z ∈ x.l2, z.bad = []) → t.mem = s.mem ∧
      (∀ i, y.present = some i → (x.slots.toList.getD i 0).getLsbD 63 = true ∧ y.inForce = x.slots.toList.getD i 0 ∧
        ∀ j, j < 64 → (x.slots.toList.getD j 0).getLsbD 63 = true → ∀ p, x.present = some p → (p < j → p < i ∧ i ≤ j) ∧ (j ≤ p → i ≤ p → i ≤ j)) ∧
      (y.present = none ↔ ∀ j, j < 64 → (x.slots.toList.getD j 0).getLsbD 63 = false) ∧
      (∀ g, g < 3 → State.occOf x.inForce g ≠ State.occOf y.inForce g → ∀ z ∈ y.l2, z.way / 4 ≠ g) ∧
      (∀ z ∈ x.l2, (3 ≤ z.way / 4 ∨ State.occOf x.inForce (z.way / 4) = State.occOf y.inForce (z.way / 4)) → z ∈ y.l2) ∧
      (∀ r ∈ t.reeve.delegs, r.revoked = false ∧ r ∈ s.reeve.delegs) ∧ (∀ r ∈ s.reeve.delegs, r.revoked = false → r ∈ t.reeve.delegs) ∧
      (∀ k ∈ s.ctxs, k.die = d → (k.phase = .running ∨ k.phase = .asleep ∨ k.phase = .suspended) →
        occupies x.inForce (slotTag k) → ¬ occupies y.inForce (slotTag k) → slotTag k ≠ 0xFFFF →
        ∃ j ∈ t.ctxs, j.id = k.id ∧ j.lease = k.lease ∧ j.sub = k.sub ∧ j.phase = .stopping ∧ j.vq = [] ∧ j.pc = (k.vq.head?.map VQEntry.pc).getD k.pc ∧
          (∃ a, j.area = some a ∧ a.phase = if k.phase = .suspended then .suspended else .running) ∧
          ∀ w, k.wait = some w → k.vq = [] → w.dest ≠ 0 → j.getX w.dest = 2) ∧
      (∀ k ∈ s.ctxs, (k.die = d → occupies y.inForce (slotTag k) ∨ ¬ occupies x.inForce (slotTag k)) →
        ∃ j ∈ t.ctxs, j.id = k.id ∧ j.lease = k.lease ∧ j.sub = k.sub ∧ j.phase = k.phase ∧ j.pc = k.pc))

/-- Saving and resuming a context (R105, R177, R302-R304, R343; logs 16, 72, 80), of a die where just this one moves. A stopped one
without lane threads and without elements to store is saved with its plots' cells, its mappings unfilled and its streams without what
they had fetched, none of which stays in its core. A saved one whose sublease has its turn, and whose place is free, resumes with them:
where it has the vector unit, its front end's rows hold the cells saved and else 0, other rows what they held. -/
def ContextSwitch : Prop :=
  ∀ (s : State) (d : BitVec 2) (k : Ctx), s.arg = .die d → s.time.toNat < (s.die d).slotEnd.toNat → onlyMoving s d k →
    let fe := (s.core k.core).fe k.fe
    (k.phase = .stopping → k.threading = false → s.pendingOut k = [] → s.onTurn d k.lease k.sub = false →
      ∃ u j a, exec .slotBoundary s = .next u ∧ u.mem = s.mem ∧ j ∈ u.ctxs ∧ j.id = k.id ∧ j.phase = .saved ∧ j.area = some a ∧
        a.phase = (k.area.map SaveArea.phase).getD .running ∧ j.pc = k.pc ∧ (∀ q, j.getX q = k.getX q) ∧
        (k.isMiller = false → let ge := (u.core k.core).fe k.fe
          (∀ m ∈ ge.maps, m.ctx ≠ k.id) ∧ (∀ z ∈ ge.streams, z.2.ctx ≠ k.id) ∧
          a.maps = (fe.maps.filter (fun m => m.ctx == k.id)).map (fun m => { m with lines := [] }) ∧
          a.streams = (fe.streams.filter (fun z => z.2.ctx == k.id)).map (fun z => (z.1, { z.2 with ahead := [] })) ∧
          (k.unit = true → ∀ v e i, v < 64 → k.pdirty.getLsbD v = true → let p := k.plots.toList.getD v 0
            e < min k.vl.toNat (plotCount p) → i ∈ plotCells p e → sget 0 a.cells i = sget 0 (s.core k.core).field i))) ∧
    (k.phase = .stopping → (k.threading = true ∨ s.pendingOut k ≠ []) → ∃ u, exec .slotBoundary s = .next u ∧ k ∈ u.ctxs ∧
      (.slotBoundary, .die d) ∈ u.pend ∧ ∀ i ∈ s.pendingOut k, (.streamTransfer, .stream (k.self.extractLsb' 1 9) (BitVec.ofNat 4 i)) ∈ u.pend) ∧
    (k.phase = .saved → s.canResume d k = false → exec .slotBoundary s = .next s) ∧
    (∀ a, k.phase = .saved → k.area = some a → s.canResume d k = true → s.asleep d = false →
      ∃ u j, exec .slotBoundary s = .next u ∧ u.mem = s.mem ∧ j ∈ u.ctxs ∧ j.id = k.id ∧ j.lease = k.lease ∧ j.sub = k.sub ∧
        j.phase = a.phase ∧ j.area = none ∧ j.pc = k.pc ∧ (∀ q, j.getX q = k.getX q) ∧
        (k.isMiller = false → let ge := (u.core k.core).fe k.fe
          (∀ m ∈ a.maps, m ∈ ge.maps) ∧ (∀ z ∈ a.streams, z ∈ ge.streams) ∧
          (k.unit = true → a.badCells = [] → swf 0 0 a.cells = true → swf 0 0 (s.core k.core).field = true →
            let rows := u.rows k.core k.fe
            (ge.rowsOwner = some (k.lease, k.sub)) ∧
            ∀ i, sget 0 (u.core k.core).field i = if rows.1 ≤ i / 512 ∧ i / 512 < rows.2 then sget 0 a.cells i else sget 0 (s.core k.core).field i)))

/-- What changes hands is cleared first (R106, R341): a Mill that another sublease had is zeroed as a crew of this one takes it, and a
front end's rows read 0 as a context of another sublease takes the vector unit. -/
def HandsChange : Prop :=
  ∀ (s : State) (n : Nest) (c : Nat) (l b : Byte), (l ≠ n.lease ∨ b ≠ n.sub) →
    ((s.mill c).owner = some (l, b) → (s.holdMill c n).mill c = { mill0 with holder := some n.id, owner := some (n.lease, n.sub) }) ∧
    ((s.mill c).owner = some (n.lease, n.sub) → (s.holdMill c n).mill c = { s.mill c with holder := some n.id }) ∧
    (s.ctx.lease = n.lease → s.ctx.sub = n.sub → s.ctx.unit = false → s.foreignBoard s.ctx.core n.lease n.sub = false →
      (∀ k ∈ s.others, k.present = true → k.isMiller = false → k.core = s.ctx.core → k.fe = s.ctx.fe → k.unit = false) →
      s.myFe.rowsOwner = some (l, b) → ∃ u, takeUnit s = .ok u ∧ u.ctx.unit = true ∧ u.myFe.rowsOwner = some (n.lease, n.sub) ∧
        ∀ i, decide (128 ≤ i / 512) = s.ctx.fe → ∀ v, (i, v) ∉ u.myCore.field)

/-- Event records (R372): a record goes to its queue's next entry, word 0 last, waits while that entry is in use, and is dropped where
its level has no queue. -/
def RecordsWritten : Prop :=
  ∀ (s : State),
    (s.reeve.records = [] → exec .eventRecordWrite s = .next s) ∧
    (∀ r, s.reeve.records = [r] → s.queueOf r.level r.lease r.sub = none → ∃ u, exec .eventRecordWrite s = .next u ∧ u.reeve.records = [] ∧ u.mem = s.mem) ∧
    (∀ r q pa t v, s.reeve.records = [r] → s.queueOf r.level r.lease r.sub = some q → r.words.length = 8 → s.mem.wf = true →
      s.queueAt r.level r.lease r.sub (q.base + BitVec.ofNat 64 (64 * q.next)) = .ok (some pa, t) → t.ownedLine (pa / 128) true = false →
      t.detectLine (State.reeveWho (dieOfPa pa)) (pa / 128) = .ok v →
      (s.mem.byte (pa + 7) = 0 → ∃ u, exec .eventRecordWrite s = .next u ∧ u.reeve.records = [] ∧
        (∀ k, k < 8 → u.mem.num (pa + 8 * k) 8 = (r.words.getD k 0).toNat) ∧ (∀ a, a < pa ∨ pa + 64 ≤ a → u.mem.byte a = s.mem.byte a) ∧
        u.queueOf r.level r.lease r.sub = some { q with next := (q.next + 1) % 2 ^ q.k }) ∧
      (s.mem.byte (pa + 7) ≠ 0 → ∃ u, exec .eventRecordWrite s = .next u ∧ u.reeve.records = [r] ∧ u.mem = s.mem ∧ (.eventRecordWrite, .none) ∈ u.pend))

end Sys2Proof.Claims

/-- Slot boundaries with pre-emption, save and resumption, the cleaning of what changes hands, and event records (R106, R302-R304,
R341-R343, R346, R372); logs 16, 18, 72 and 80 are the model's choices on the way. -/
def Obligations.SlotsAndRecords : Prop := SlotBegins ∧ ContextSwitch ∧ HandsChange ∧ RecordsWritten

/-- Boot, power, fabric and migration (R348-R350, R352): a slot of the flash runs only when its three images verify under the key
whose hash is fused and are not older than the fused minimum; each die or cluster takes the deepest state that R352 allows; a
wake ends it; RMA and atomics of the fabric act on package DRAM at device physical addresses (log 20) and are answered, and what
is not supported is answered with that status; a send waits in its virtual queue for a receive with its tag. A lease that arrives
reads TIME on from where it paused, and the frames of its tables are named by W (log 19). Which of two good slots
boots, the spec leaves open (log 8). -/
def Sys2Proof.Claims.DeviceEvents : Prop :=
  ∀ (s t : State),
    (∀ a b, s.arg = .flash a b →
      let good (f : FlashSlot) : Prop := ∀ i ∈ [f.reeve, f.monitor, f.cp], Config.shake256 i.key = s.reeve.keyHash ∧
        Config.xmssVerify i.key i.body i.sig = true ∧ s.reeve.minVersion.toNat ≤ i.version.toNat
      ∃ u, exec .deviceBoot s = .next u ∧ u.mem = s.mem ∧ (u.reeve.booted = true ↔ good a ∨ good b) ∧
        (u.reeve.booted = false → u.reeve.measurements = []) ∧
        (u.reeve.booted = true → ∃ f, (f = a ∨ f = b) ∧ good f ∧
          u.reeve.measurements = [Config.shake256 f.reeve.body, Config.shake256 f.monitor.body, Config.shake256 f.cp.body])) ∧
    ((∀ d, ∀ y ∈ (s.die d).l2, y.bad = []) → ∀ T : Nat, ((s.reeve.leases = [] ∧ T = 0) ∨ ((∀ l ∈ s.reeve.leases, T ≤ l.tolerance.toNat) ∧ ∃ l ∈ s.reeve.leases, l.tolerance.toNat = T)) →
      ∃ u, exec .powerStateEntry s = .next u ∧ u.mem = s.mem ∧ ∀ d : BitVec 2,
        ((u.die d).power = 3 ↔ 40000 ≤ T ∧ s.allIdle = true) ∧
        ((u.die d).power = 2 ↔ 200 ≤ T ∧ s.dieIdle d.toNat = true ∧ ¬ (40000 ≤ T ∧ s.allIdle = true)) ∧
        ((u.die d).power = 0 ∨ (u.die d).power = 2 ∨ (u.die d).power = 3) ∧
        ∀ i, i < 16 → ((u.die d).slow.getLsbD i = true ↔ 2 ≤ T ∧ s.clusterIdle (16 * d.toNat + i) = true ∧ (u.die d).power = 0)) ∧
    (∀ d, s.arg = .die d → ∃ u, exec .wake s = .next u ∧ (u.die d).power = 0 ∧ (u.die d).slow = 0 ∧ (∀ e, e ≠ d → u.die e = s.die e) ∧ u.mem = s.mem) ∧
    (s.arg = .none → ∃ u, exec .wake s = .next u ∧ (∀ d, (u.die d).power = 0 ∧ (u.die d).slow = 0) ∧ u.mem = s.mem) ∧
    (∀ a bs, s.arg = .fabric (.rmaWrite a bs) → bs ≠ [] → State.dramRange a.toNat bs.length = true → s.remoteReach a.toNat bs.length true = .ok t → s.mem.wf = true →
      ∃ u, exec .fabricMessage s = .next u ∧ (∀ k, k < bs.length → u.mem.byte (a.toNat + k) = bs.getD k 0) ∧
        ∀ x, x < a.toNat ∨ a.toNat + bs.length ≤ x → u.mem.byte x = s.mem.byte x) ∧
    (∀ a n, s.arg = .fabric (.rmaRead a n) → n ≠ 0 → State.dramRange a.toNat n.toNat = true → s.remoteReach a.toNat n.toNat false = .ok t →
      ∃ u r, exec .fabricMessage s = .next u ∧ u.mem = s.mem ∧ u.replies = s.replies ++ [r] ∧ r.msg = .rmaRead a n ∧ r.supported = true ∧
        r.data = s.mem.bytes a.toNat n.toNat) ∧
    (∀ op a v, s.arg = .fabric (.atomic op a v) → a.toNat % 8 = 0 → isDram a.toNat = true →
      ((∀ f ∈ s.leavesOf a.toNat, f.leaf.amo = false) →
        ∃ u r, exec .fabricMessage s = .next u ∧ u.mem = s.mem ∧ u.replies = s.replies ++ [r] ∧ r.msg = .atomic op a v ∧ r.supported = false) ∧
      ((∃ f ∈ s.leavesOf a.toNat, f.leaf.amo = true) → s.remoteReach a.toNat 8 true = .ok t → t.poisonedAt a.toNat 8 = false → s.mem.wf = true →
        ∃ u r, exec .fabricMessage s = .next u ∧ value u.mem a.toNat 8 = (amoNew op (BitVec.ofNat 64 (value s.mem a.toNat 8)) v).toNat ∧
          (∀ x, x < a.toNat ∨ a.toNat + 8 ≤ x → u.mem.byte x = s.mem.byte x) ∧ u.replies = s.replies ++ [r] ∧ r.supported = true ∧
          r.data = s.mem.bytes a.toNat 8)) ∧
    (∀ o, s.arg = .fabric (.unsupported o) → ∃ u r, exec .fabricMessage s = .next u ∧ u.mem = s.mem ∧ u.replies = s.replies ++ [r] ∧
      r.msg = .unsupported o ∧ r.supported = false) ∧
    (∀ port l b tag data, s.arg = .fabric (.send port l b tag data) →
      (∀ x, s.sub? l b = some x → x.vqueues[port.toNat]'port.isLt ≠ 0 →
        exec .fabricMessage s = .next { s with ue := s.ue ++ [{ port := port, lease := l, sub := b, tag := tag, data := data }] }) ∧
      (s.sub? l b = none → exec .fabricMessage s = .next s)) ∧
    (∀ port l b tag x, s.arg = .fabric (.receive port l b tag) → s.sub? l b = some x → x.vqueues[port.toNat]'port.isLt ≠ 0 →
      let fits (m : UeMsg) : Prop := m.port = port ∧ m.lease = l ∧ m.sub = b ∧ m.tag = tag
      (∀ pre m post, s.ue = pre ++ m :: post → fits m → (∀ y ∈ pre, ¬ fits y) →
        ∃ u r, exec .fabricMessage s = .next u ∧ u.ue = pre ++ post ∧ u.mem = s.mem ∧ u.replies = s.replies ++ [r] ∧ r.supported = true ∧ r.data = m.data) ∧
      ((∀ m ∈ s.ue, ¬ fits m) → exec .fabricMessage s = .next (s.post .fabricMessage (.fabric (.receive port l b tag))))) ∧
    (∀ l tm p roots, s.arg = .migration l true tm p roots →
      (∀ k q, s.lease? l = some k → (k.pausedAt = none ∨ (k.pausedAt = some q ∧ tm.toNat < q.toNat)) → exec .leaseMigration s = .next s) ∧
      (∀ k q, s.lease? l = some k → k.pausedAt = some q → q.toNat ≤ tm.toNat → ∃ u j, exec .leaseMigration s = .next u ∧ u.lease? l = some j ∧
        j.pausedAt = none ∧ u.mem = s.mem ∧ u.timeOf l = if tm = q then s.timeOf l else tm + p) ∧
      (s.lease? l = none → s.rootsOk roots = false → exec .leaseMigration s = .next s) ∧
      (s.lease? l = none → s.rootsOk roots = true → s.takeRoots roots = .ok t → ∃ u j, exec .leaseMigration s = .next u ∧ u.lease? l = some j ∧
        j.pausedAt = none ∧ j.roots = roots ∧ u.timeOf l = tm + p ∧ u.mem = t.mem)) ∧
    (∀ l tm p roots, s.arg = .migration l false tm p roots →
      (s.lease? l = none → exec .leaseMigration s = .next s) ∧
      (∀ k, s.lease? l = some k → k.pausedAt = none → ∃ u j, exec .leaseMigration s = .next u ∧ u.lease? l = some j ∧ j.pausedAt = some (s.timeOf l) ∧
        u.mem = s.mem ∧ ∀ k ∈ u.ctxs, k.lease = l → k.phase ≠ .running ∧ k.phase ≠ .asleep ∧ k.phase ≠ .suspended))

/-- A control core's registers after an instruction that writes v to its destination: x0 keeps its zero, and the next address
is the one that the step names. -/
def Sys2Proof.Claims.ccGets (a : CcAccess) (v : Word) (c c' : CcCore) : Prop :=
  c'.pc = a.next ∧ c'.fcsr = c.fcsr ∧ (a.fp = true → c'.x = c.x ∧ c'.f = c.f.set a.rd.toNat v a.rd.isLt) ∧
  (a.fp = false → c'.f = c.f ∧ c'.x = if a.rd = 0 then c.x else c.x.set a.rd.toNat v a.rd.isLt)

/-- An instruction of a control core (R2, R281, R340, R343), decoded in the step or fetched at the core's pc and decoded as RV64GC
(log 82). A core outside its lease's share performs nothing, and one whose sublease has no slot on any die now waits (log 18).
Code at level W is the Reeve's, which acts at device physical addresses. Once the checks of R25 pass and nothing stands in the
way: a load writes the bytes to its register, an atomic the old value sign-extended, a store-conditional stores where its
reservation stands and answers 0, else 1; an access that a check refuses is not performed, and what RV64GC traps on changes
nothing (log 51). Of the windows of R355 a die counter or a select reads as it stands, a store that completes 64 bytes of a
request window sends the request with the level of the code (R344, log 24). -/
def Sys2Proof.Claims.ControlCores : Prop :=
  ∀ (s s1 s2 : State) (a : CcAccess) (e : Tlb), s.arg = .cc a →
    let n := 2 ^ a.size.toNat
    let w := ccWho a.level a.lease a.sub
    let pa := e.phys a.addr
    let old := value s.mem pa n
    let core := a.core.toNat
    let mine : Prop := ∃ l, s.lease? a.lease = some l ∧ a.core ∈ l.ccs
    let plain : Prop := a.kind ≠ .fence ∧ a.kind ≠ .other ∧ a.kind ≠ .fcsr
    let names (x : Die) : Prop := ∃ y ∈ x.slots.toList, y.getLsbD 63 = true ∧ slotNames a.lease a.sub y = true
    let has (x : Die) : Prop := x.present.isSome = true ∧ slotNames a.lease a.sub x.inForce = true
    let runs : Prop := a.level = 2 ∨ ((∃ l, s.lease? a.lease = some l ∧ l.pausedAt = none) ∧ ((∃ d, has (s.die d)) ∨ ∀ d, ¬ names (s.die d)))
    (a.level = 3 → a.kind = .store → isDram a.addr.toNat = true → a.addr.toNat % n = 0 → s.ownedLine (a.addr.toNat / 128) true = false →
      s.detectLine (State.reeveWho (dieOfPa a.addr.toNat)) (a.addr.toNat / 128) = .ok s1 → s.mem.wf = true →
      ∃ u, exec .controlCoreAccess s = .next u ∧ value u.mem a.addr.toNat n = a.data.toNat % 256 ^ n ∧
        ∀ x, x < a.addr.toNat ∨ a.addr.toNat + n ≤ x → u.mem.byte x = s.mem.byte x) ∧
    (a.level ≠ 3 → ¬ mine → exec .controlCoreAccess s = .next s) ∧
    (a.level ≠ 3 → mine → ¬ runs → exec .controlCoreAccess s = .next (s.post .controlCoreAccess (.cc a))) ∧
    (a.level ≠ 3 → mine → runs →
      (a.kind = .fence → ∃ u, exec .controlCoreAccess s = .next u ∧ u.cc core = { s.cc core with pc := a.next } ∧ u.mem = s.mem) ∧
      (a.kind = .fcsr → ∃ u, exec .controlCoreAccess s = .next u ∧ u.cc core = { s.cc core with fcsr := a.data, pc := a.next } ∧ u.mem = s.mem) ∧
      (a.kind = .other → ∃ u, exec .controlCoreAccess s = .next u ∧ ccGets a a.data (s.cc core) (u.cc core) ∧ u.mem = s.mem) ∧
      (∀ f, plain → s.checked w ctx0 .scalar (CcKind.acc a.kind) .device n a.addr n = .error (.fault s1 f) → exec .controlCoreAccess s = .next s1) ∧
      (plain → s.checked w ctx0 .scalar (CcKind.acc a.kind) .device n a.addr n = .ok (e, s1) → s1.ownedLine (pa / 128) true = false →
        s1.detectLine w (pa / 128) = .ok s2 → s2.poison = [] → s2.dramErr = [] → s2.latent = [] → s.mem.wf = true →
        (isDeviceRegion pa = false → ∃ u, exec .controlCoreAccess s = .next u ∧ (∀ x, x < pa ∨ pa + n ≤ x → u.mem.byte x = s.mem.byte x) ∧
          (a.kind = .load → u.mem = s.mem ∧ ccGets a (if a.fp = true ∧ n = 4 then rvBox old
            else if a.signed = true then (BitVec.ofNat (8 * n) old).signExtend 64 else BitVec.ofNat 64 old) (s.cc core) (u.cc core)) ∧
          (a.kind = .store → value u.mem pa n = a.data.toNat % 256 ^ n ∧ (u.cc core).x = (s.cc core).x ∧ (u.cc core).pc = a.next) ∧
          (∀ op, a.kind = .amo op → ccGets a ((BitVec.ofNat (8 * n) old).signExtend 64) (s.cc core) (u.cc core) ∧
            value u.mem pa n = (amoBits op (BitVec.ofNat (8 * n) old) (a.data.setWidth (8 * n))).toNat) ∧
          (a.kind = .lr → u.mem = s.mem ∧ ccGets a ((BitVec.ofNat (8 * n) old).signExtend 64) (s.cc core) (u.cc core) ∧ (u.cc core).resv = some (pa, n)) ∧
          (a.kind = .sc → (s.cc core).resv = some (pa, n) → value u.mem pa n = a.data.toNat % 256 ^ n ∧ ccGets a 0 (s.cc core) (u.cc core) ∧ (u.cc core).resv = none) ∧
          (a.kind = .sc → (s.cc core).resv ≠ some (pa, n) → u.mem = s.mem ∧ ccGets a 1 (s.cc core) (u.cc core) ∧ (u.cc core).resv = none)) ∧
        (∀ d k, a.kind = .load → n = 8 → pa % 8 = 0 → State.counterAt pa = some (d, k) → ∃ u, exec .controlCoreAccess s = .next u ∧ u.mem = s.mem ∧
          ccGets a ((s2.die d).counts.toList.getD k 0) (s.cc core) (u.cc core)) ∧
        (∀ d k, a.kind = .load → n = 8 → pa % 8 = 0 → State.selectAt pa = some (d, k) → ∃ u, exec .controlCoreAccess s = .next u ∧ u.mem = s.mem ∧
          ccGets a ((s2.die d).selects.toList.getD k 0) (s.cc core) (u.cc core)) ∧
        (∀ d k, a.kind = .store → n = 8 → pa % 8 = 0 → State.selectAt pa = some (d, k) →
          (State.selectOk a.data = true → a.data.extractLsb' 16 16 ≠ 0xFFFF → ∃ u, exec .controlCoreAccess s = .next u ∧ u.mem = s.mem ∧ (u.die d).selects.toList.getD k 0 = a.data ∧
            ∀ j, j ≠ k → (u.die d).selects.toList.getD j 0 = (s2.die d).selects.toList.getD j 0) ∧
          (State.selectOk a.data = false ∨ a.data.extractLsb' 16 16 = 0xFFFF → ∃ u, exec .controlCoreAccess s = .next u ∧ u.mem = s.mem ∧ (u.die d).selects = (s2.die d).selects)) ∧
        (a.kind = .store → isDeviceRegion pa = true → isCounterWindow pa = false → (pa + n) % 64 = 0 →
          ∃ u, exec .controlCoreAccess s = .next u ∧
            let ws := (List.range 8).map (fun i => BitVec.ofNat 64 (u.mem.num (pa / 64 * 64 + 8 * i) 8))
            let w0 := ws.getD 0 0
            let good (b : ReqBody) : Prop := Config.requestBody (w0.extractLsb' 56 8) (ws.drop 1) = some b ∧ ReqBody.code b = w0.extractLsb' 56 8 ∧
              w0.extractLsb' 48 6 = 0
            ∀ b, (good b ∨ (b = .malformed ∧ ∀ c, ¬ good c)) → ∃ x ∈ u.reeve.inbox, x.body = b ∧ x.begun = false ∧
              x.req = { level := a.level, lease := a.lease, sub := a.sub, tLease := w0.extractLsb' 40 8, tSub := w0.extractLsb' 32 8
                        tag := w0.extractLsb' 0 32 } ∧ (ReqBody.step b, .waiting x.num) ∈ u.pend)))

/-- A control core executes what stands at its pc: the fetch goes through both stages and the L2, and what the instruction does is
its meaning in RV64GC (log 82); a trap stands (log 51), and level W is the Reeve's alone (R1). -/
def Sys2Proof.Claims.ControlCoreFetches : Prop :=
  ∀ (s t : State) (core : BitVec 5) (level : BitVec 2) (l b : Byte) (i z : Nat), s.arg = .ccRun core l b level →
    let again (x : State) : State := x.post .controlCoreAccess s.arg
    let r : RvRes := RvIns.run { c := s.cc core.toNat, core := core, lease := l, sub := b, level := level, i := i, size := z }
    (level = 3 ∨ s.ccShares core l = false → exec .controlCoreAccess s = .next s) ∧
    (level ≠ 3 → s.ccShares core l = true → s.ccRuns level l b = false → exec .controlCoreAccess s = .next (again s)) ∧
    (level ≠ 3 → s.ccShares core l = true → s.ccRuns level l b = true →
      ccFetch (ccWho level l b) (s.cc core.toNat).pc s = .ok (some (i, z), t) →
      (∀ c, r = .core c → ∃ u, exec .controlCoreAccess s = .next u ∧ u.cc core.toNat = c ∧ u.mem = s.mem ∧ ∀ n, n ≠ core.toNat → u.cc n = s.cc n) ∧
      (∀ a, r = .mem a → exec .controlCoreAccess s = ccPerform a again t) ∧
      (r = .trap → ∃ u, exec .controlCoreAccess s = .next u ∧ u.mem = s.mem ∧ ∀ n, u.cc n = s.cc n))

/-- Boot, power, fabric, migration (R348-R352) and control cores (R281), with the choices of logs 8, 18, 19, 20, 24, 49, 51, 82. -/
def Obligations.BoardEvents : Prop := DeviceEvents ∧ ControlCores ∧ ControlCoreFetches

/-! ## Errors -/

/-- Where an uncorrectable error strikes (R316, R319, R321-R323): a line of DRAM keeps its error until it is read; a dirty
L1 or stash line leaves marks on the words destroyed, a clean one is dropped; a cell of the Field stays bad until written; a
context that loses a register, mask, front or plot entry is terminated. An address where R17 puts no DRAM is no place for one.
Scrubbing finds what is stored, and marks under a copy that a cache holds stay with the copy in DRAM (log 56); injection acts like the
error, and destroys all words of a line (log 46). -/
def Obligations.ErrorsStrike : Prop :=
  ∀ (s : State) (a : BitVec 48) (w : BitVec 16) (c : BitVec 8) (k : CtxId) (d : BitVec 2),
    let line := a.toNat / 128
    (s.arg = .error (.dram a w) → isDram a.toNat = true → ∃ u, exec .uncorrectableError s = .next u ∧ u.mem = s.mem ∧ u.poison = s.poison ∧
      ∃ x, lookupN line u.dramErr = some x ∧ ∀ i, w.getLsbD i = true → x.getLsbD i = true) ∧
    (s.arg = .error (.dram a w) → isDram a.toNat = false → exec .uncorrectableError s = .fault (.noDram a.toNat)) ∧
    (∀ q, s.arg = .error (.l1 c a w) → (s.core c.toNat).l1.find? (fun q => q.line == line) = some q → ∃ u, exec .uncorrectableError s = .next u ∧
      (∀ q ∈ (u.core c.toNat).l1, q.line ≠ line) ∧ u.mem = s.mem ∧
      (q.dirty = true → ∀ i, i < 16 → w.getLsbD i = true → line * 16 + i ∈ u.poison) ∧ (q.dirty = false → u.poison = s.poison)) ∧
    (s.arg = .error (.stash c a w) → ∃ u, exec .uncorrectableError s = .next u ∧ u.mem = s.mem ∧
      (∀ f, ∀ m ∈ ((u.core c.toNat).fe f).maps, ∀ l ∈ m.lines, m.physLine l ≠ line) ∧
      ((∃ f, ∃ m ∈ ((s.core c.toNat).fe f).maps, ∃ l ∈ m.lines, m.physLine l = line ∧ l.dirty = true) →
        ∀ i, i < 16 → w.getLsbD i = true → line * 16 + i ∈ u.poison)) ∧
    (∀ row col, s.arg = .error (.field c row col) → ∃ u, exec .uncorrectableError s = .next u ∧ row.toNat * 512 + col.toNat ∈ (u.core c.toNat).fieldErr ∧
      u.mem = s.mem ∧ (u.core c.toNat).field = (s.core c.toNat).field) ∧
    (∀ x q m f v, (x = .xreg k q ∨ x = .mask k m ∨ x = .front k f ∨ x = .plot k v) → s.arg = .error x → (s.findCtx k).isSome = true →
      ∃ u j, exec .uncorrectableError s = .next u ∧ u.findCtx k = some j ∧ j.phase = .draining ∧ u.mem = s.mem) ∧
    (s.arg = .addr a → isDram a.toNat = false → exec .dramPatrolScrub s = .fault (.noDram a.toNat) ∧ exec .pageRetire s = .fault (.noDram a.toNat)) ∧
    (s.arg = .addr a → isDram a.toNat = true → (lookupN line s.dramErr = none → exec .dramPatrolScrub s = .next s) ∧
      (∀ x, lookupN line s.dramErr = some x → ∃ u y, exec .dramPatrolScrub s = .next u ∧ lookupN line u.dramErr = none ∧ u.mem = s.mem ∧ u.poison = s.poison ∧
        lookupN line u.latent = some y ∧ (∀ i, x.getLsbD i = true → y.getLsbD i = true) ∧
        (.pageRetire, .addr (BitVec.ofNat 48 (line * 128 / 65536 * 65536))) ∈ u.pend)) ∧
    (s.argWay = none → (∀ d, s.arg ≠ .die d) → exec .l2SliceScrub s = .next s) ∧
    (∀ y i, s.argWay = some (d, y, i) → s.l2Find d (y.superblock * 4 + i) = some y → i < 4 → y.bad.any (fun b => b.1 == (y.superblock * 4 + i) % 4) = true →
      (y.dirty.getLsbD ((y.superblock * 4 + i) % 4) = true → ∃ u, exec .l2SliceScrub s = .next u ∧ u.mem = s.mem ∧ ∃ x, (.dirtyL2UeContainment, x) ∈ u.pend) ∧
      (y.dirty.getLsbD ((y.superblock * 4 + i) % 4) = false → ∃ u b, exec .l2SliceScrub s = .next u ∧ u.mem = s.mem ∧ u.poison = s.poison ∧
        u.reeve.box.getLast? = some b ∧ b.header.extractLsb' 56 8 = 5 ∧ b.detail = BitVec.ofNat 64 ((y.superblock * 4 + i) * 128))) ∧
    (s.arg = .die d → let e := (s.die d).errinj
      (e.getLsbD 63 = false → exec .errinjPerform s = .next s) ∧
      (e.getLsbD 63 = true → e.extractLsb' 60 3 = 0 → s.l2Find d (e.extractLsb' 7 41).toNat = none → exec .errinjPerform s = .next s) ∧
      (∀ y, e.getLsbD 63 = true → e.extractLsb' 60 3 = 0 → e.extractLsb' 58 2 = 1 → s.l2Find d (e.extractLsb' 7 41).toNat = some y →
        ∃ u z, exec .errinjPerform s = .next u ∧ (u.die d).errinj.getLsbD 63 = false ∧ u.mem = s.mem ∧ z ∈ (u.die d).l2 ∧ z.way = y.way ∧ z.dirty = y.dirty ∧
          lookupN ((e.extractLsb' 7 41).toNat % 4) z.bad = some (BitVec.allOnes 16)) ∧
      (e.getLsbD 63 = true → e.extractLsb' 60 3 = 1 → e.extractLsb' 58 2 = 1 →
        ∃ u, exec .errinjPerform s = .next u ∧ (u.die d).errinj.getLsbD 63 = false ∧ u.mem = s.mem ∧
          lookupN (e.extractLsb' 7 41).toNat u.dramErr = some (BitVec.allOnes 16)))

/-- What follows an error (R323-R327): containment ends every context of the sublease that owns the way-group by the slot in force,
discards its nests, tells the lease's handler, and marks all words of the line until its page is retired (log 45); where the
way-group has no owner, the Reeve is at fault (log 44). A page is copied whole, with its marks, to another frame and never
used again, and what must wait for it changes nothing (log 45); a command processor that fails stops placement until it restarts; a Reeve that
fails answers the requests it had begun with the retry status, holds the others, and on its restart serves them in order and
tells every lease. -/
def Obligations.ErrorsHandled : Prop :=
  ∀ (s : State) (d : BitVec 2),
    (s.argWay = none → exec .dirtyL2UeContainment s = .next s) ∧
    (∀ y i l b, s.argWay = some (d, y, i) → y.dirty.getLsbD i = true → y.bad.any (fun x => x.1 == i) = true → (s.die d).ownerOf (y.way / 4) = some (l, b) →
      ∃ u, exec .dirtyL2UeContainment s = .next u ∧ (∀ k ∈ u.ctxs, k.lease = l → k.sub = b → k.phase = .draining ∨ k.phase = .free) ∧
        (∀ n ∈ u.nests, n.lease = l → n.sub = b → n.inPool = false) ∧
        (∃ r ∈ u.reeve.records, r.level = 2 ∧ r.lease = l ∧ (r.words.getD 0 0).extractLsb' 56 8 = 4) ∧
        let line := y.superblock * 4 + i
        ((∀ j, j < 16 → line * 16 + j ∈ u.poison) ∨ line * 128 / 65536 * 65536 ∈ u.reeve.retired)) ∧
    (∀ y i, s.argWay = some (d, y, i) → y.dirty.getLsbD i = true → y.bad.any (fun x => x.1 == i) = true → (s.die d).ownerOf (y.way / 4) = none →
      ∃ u, exec .dirtyL2UeContainment s = .next u ∧ (.reeveFault, .none) ∈ u.pend) ∧
    (∀ a, s.arg = .addr a → isDram a.toNat = true → let old := a.toNat / 65536 * 65536
      (old ∈ s.reeve.retired → exec .pageRetire s = .next s) ∧
      (∀ t, s.retirePage old = .error t → exec .pageRetire s = .next ((s.undone t).post .pageRetire (.addr (BitVec.ofNat 48 old)))) ∧
      (∀ u, s.retirePage old = .ok u → exec .pageRetire s = .next u ∧ old ∈ u.reeve.retired ∧
        (old ∉ s.reeve.retired → s.leavesOf old = [] → s.mem.wf = true →
          ∃ new, new ≠ old ∧ (∀ k, k < 65536 → u.mem.byte (new + k) = s.mem.byte (old + k)) ∧
            (s.reeve.retiring = [] → ∀ w, w < 8192 → old / 8 + w ∈ s.poison → new / 8 + w ∈ u.poison)))) ∧
    (s.arg = .die d → ∃ u, exec .cpFault s = .next u ∧ (u.die d).cpFrozen = true ∧ (.cpRestart, .die d) ∈ u.pend ∧ u.mem = s.mem ∧ u.ctx = s.ctx) ∧
    (s.arg = .die d → (s.die d).cpFrozen = true → ∃ u b, exec .cpRestart s = .next u ∧ (u.die d).cpFrozen = false ∧ u.reeve.box.getLast? = some b ∧
      b.header.extractLsb' 56 8 = 7 ∧ b.detail = BitVec.ofNat 64 d.toNat ∧ u.mem = s.mem) ∧
    (∃ u, exec .reeveFault s = .next u ∧ u.reeve.frozen = true ∧ (.reeveRestart, .none) ∈ u.pend ∧ u.mem = s.mem ∧ u.ctx = s.ctx ∧
      u.reeve.inbox = s.reeve.inbox.filter (fun w => !w.begun) ∧
      ∀ w ∈ s.reeve.inbox, w.begun = true → ∃ x ∈ u.reeve.responses, x.level = w.req.level ∧ x.lease = w.req.lease ∧ x.sub = w.req.sub ∧
        x.words.getD 0 0 = BitVec.ofNat 64 (3 * 2 ^ 32 + w.req.tag.toNat)) ∧
    (s.reeve.frozen = true → ∃ u, exec .reeveRestart s = .next u ∧ u.reeve.frozen = false ∧ u.reeve.inbox = s.reeve.inbox ∧ u.mem = s.mem ∧
      (∀ h ∈ s.reeve.inbox, (ReqBody.step h.body, .waiting h.num) ∈ u.pend) ∧
      ∀ l ∈ s.reeve.leases, ∃ r ∈ u.reeve.records, r.level = 2 ∧ r.lease = l.num ∧ (r.words.getD 0 0).extractLsb' 56 8 = 8)

/-! ## Requests -/

namespace Sys2Proof.Claims

/-- Two requests of one holder (R344). -/
def oneHolder (a b : Req) : Prop := a.level = b.level ∧ a.lease = b.lease ∧ a.sub = b.sub

/-- A request that arrives has its turn at once: the Reeve runs, the device is awake, and no older request of the same holder
waits (R327, R344, R350, R352). -/
def served (s : State) (r : Req) (b : ReqBody) : Prop :=
  s.arg = .request r b ∧ s.reeve.frozen = false ∧ s.reeve.booted = true ∧ (∀ d, (s.die d).power = 0 ∧ (s.die d).slow = 0) ∧
  ∀ w ∈ s.reeve.inbox, ¬ oneHolder w.req r

/-- The response to a request: tag and status in word 0, then seven words of results (R344). -/
def response (r : Req) (status : Nat) (ws : List Word) : Response :=
  { level := r.level, lease := r.lease, sub := r.sub
    words := BitVec.ofNat 64 (status * 2 ^ 32 + r.tag.toNat) :: (List.range 7).map (fun i => ws.getD i 0) }

/-- The request is answered with a status and words. -/
def answers (i : Instr) (s u : State) (r : Req) (status : Nat) (ws : List Word) : Prop :=
  exec i s = .next u ∧ u.reeve.responses = s.reeve.responses ++ [response r status ws]

/-- The request is turned down with a status, and nothing else changes. -/
def refusedWith (i : Instr) (s : State) (r : Req) (status : Nat) : Prop :=
  exec i s = .next { s with reeve := { s.reeve with
    inbox := s.reeve.inbox.filter (fun x => x.num != s.nextId), responses := s.reeve.responses ++ [response r status []] } }

/-- The request stays with the Reeve, the youngest of those that wait. -/
def kept (s : State) (r : Req) (b : ReqBody) (u : State) : Prop :=
  u.reeve.inbox = s.reeve.inbox ++ [{ num := s.nextId, req := r, body := b, begun := false }] ∧ u.nextId = s.nextId + 1 ∧
  u.reeve.responses = s.reeve.responses ∧ u.mem = s.mem

/-- Nothing of a sublease moves, and no destroyed line stands in an L2. -/
def subIdle (s : State) (l b : Byte) : Prop :=
  (∀ k ∈ s.ctxs, k.active = true → ¬ (k.lease = l ∧ k.sub = b)) ∧ (∀ n ∈ s.nests, ¬ (n.lease = l ∧ n.sub = b)) ∧
  s.busy l (some b) = false ∧ (∀ c ∈ s.colls, ¬ (c.lease = l ∧ c.sub = b)) ∧ ∀ d, ∀ y ∈ (s.die d).l2, y.bad = []

/-- The current context is the suspended one that a request names, and its trap awaits an answer of the level that asks. -/
def awaited (s : State) (r : Req) (c : CtxId) (a : Await) : Prop :=
  s.ctx.id = c ∧ s.ctx.lease = r.tLease ∧ s.ctx.sub = r.tSub ∧ s.ctx.phase = .suspended ∧ s.ctx.area = none ∧ s.ctx.awaits = some a ∧
  Req.isLevel r a.level = true

/-- What a sublease is assigned (R340). -/
def assigned (x : Sub) (a : Assign) : Prop :=
  x.cores = a.cores ∧ x.pipes = a.pipes ∧ x.mills = a.mills ∧ x.vqueues = a.vqueues

/-- Who may write stage 1 leaves of the target (R1, R345): its lease, and the sublease itself within the window. -/
def stage1Agent (r : Req) (x : Sub) (large : Bool) (e : Word) : Prop :=
  let la := (e.extractLsb' 16 36).toNat * 65536
  r.lease = r.tLease ∧ (r.level = 2 ∨ (r.level = 1 ∧ r.sub = r.tSub ∧ (e.getLsbD 63 = false ∨
    ∃ p, x.window = some p ∧ p.1.toNat ≤ la ∧ la + (if large then 2 ^ 29 else 2 ^ 16) ≤ p.1.toNat + p.2.toNat)))

end Sys2Proof.Claims

/-- A request is kept while the Reeve is frozen, while the device wakes or while an older one of its holder waits, and is
refused before a boot (R327, R344, R350, R352). -/
def Sys2Proof.Claims.RequestsArrive : Prop :=
  ∀ (s : State) (r : Req),
    (∀ b, s.arg = .request r b → (∀ w ∈ s.reeve.inbox, w.num < s.nextId) →
      (s.reeve.frozen = true → ∃ u, exec (ReqBody.step b) s = .next u ∧ kept s r b u ∧ u.pend = s.pend) ∧
      (s.reeve.frozen = false → (∃ w ∈ s.reeve.inbox, oneHolder w.req r) →
        ∃ u, exec (ReqBody.step b) s = .next u ∧ kept s r b u ∧ u.pend = s.pend ++ [(ReqBody.step b, .waiting s.nextId)]) ∧
      (s.reeve.frozen = false → (∀ w ∈ s.reeve.inbox, ¬ oneHolder w.req r) → (∃ d, (s.die d).power ≠ 0 ∨ (s.die d).slow ≠ 0) →
        ∃ u, exec (ReqBody.step b) s = .next u ∧ kept s r b u ∧ u.pend = (.wake, .none) :: s.pend ++ [(ReqBody.step b, .waiting s.nextId)])) ∧
    (∀ b, s.arg = .request r b → s.reeve.frozen = false → s.reeve.booted = false → (∀ d, (s.die d).power = 0 ∧ (s.die d).slow = 0) →
      (∀ w ∈ s.reeve.inbox, ¬ oneHolder w.req r) → refusedWith (ReqBody.step b) s r 2)

/-- Create, destroy and reset (R340, R341, R345, R347). -/
def Sys2Proof.Claims.SubleaseTable : Prop :=
  ∀ (s : State) (r : Req),
    (∀ a, served s r (.createSublease a) →
      (r.tSub ≠ 0xFF → s.holds r rCreate = false → refusedWith .createSublease s r 1) ∧
      (r.tSub ≠ 0xFF → s.holds r rCreate = true → s.lease? r.tLease = none → refusedWith .createSublease s r 2) ∧
      (∀ l, r.tSub ≠ 0xFF → s.holds r rCreate = true → s.lease? r.tLease = some l →
        (¬ (s.assignOk r.tLease r.tSub a = true ∧ l.admits s r.tSub a = true) → refusedWith .createSublease s r 2) ∧
        (s.assignOk r.tLease r.tSub a = true → l.admits s r.tSub a = true →
          (s.sub? r.tLease r.tSub = none → r.level.toNat < 2 → refusedWith .createSublease s r 2) ∧
          (s.sub? r.tLease r.tSub = none → 2 ≤ r.level.toNat → ∃ u x, answers .createSublease s u r 0 [] ∧ u.sub? r.tLease r.tSub = some x ∧ assigned x a ∧
            x.root = a.s1root ∧ x.window = a.window ∧ x.ldm = 0 ∧ x.queue = none ∧ u.mem = s.mem) ∧
          (∀ y, s.sub? r.tLease r.tSub = some y → (r.level.toNat < 2 → y.admits a = false → refusedWith .createSublease s r 2) ∧
            ((2 ≤ r.level.toNat ∨ y.admits a = true) →
              (s.withdraws y a = true → refusedWith .createSublease s r 4) ∧
              (s.withdraws y a = false → ∃ u x, answers .createSublease s u r 0 [] ∧ u.sub? r.tLease r.tSub = some x ∧ assigned x a ∧
                (2 ≤ r.level.toNat → x.root = a.s1root ∧ x.window = a.window) ∧ (r.level.toNat < 2 → x.root = y.root ∧ x.window = y.window) ∧
                x.ldm = y.ldm ∧ x.queue = y.queue ∧ x.quota = y.quota ∧ u.mem = s.mem))))) ∧
      (r.tSub = 0xFF → (r.level ≠ 3 → refusedWith .createSublease s r 1) ∧
        (r.level = 3 → ((s.lease? r.tLease).isSome = true ∨ s.shareOk a = false ∨ s.rootsOk a.s2roots = false) → refusedWith .createSublease s r 2) ∧
        (∀ t, r.level = 3 → s.lease? r.tLease = none → s.shareOk a = true → s.rootsOk a.s2roots = true → s.takeRoots a.s2roots = .ok t → s.mem.wf = true →
          ∃ u k, answers .createSublease s u r 0 [] ∧ u.lease? r.tLease = some k ∧
          k.roots = a.s2roots ∧ k.cores = a.cores ∧ k.mills = a.mills ∧ k.ccs = a.ccs ∧ k.vqueues = a.vqueues ∧ u.timeOf r.tLease = 0 ∧
          ∀ p ∈ a.s2roots.toList, ∀ j, j < 65536 → u.mem.byte (p.toNat + j) = 0))) ∧
    (served s r .destroySublease →
      (s.holds r rCreate = false → refusedWith .destroySublease s r 1) ∧ (s.holds r rCreate = true → s.sub? r.tLease r.tSub = none → refusedWith .destroySublease s r 2) ∧
      (s.holds r rCreate = true → (s.sub? r.tLease r.tSub).isSome = true → subIdle s r.tLease r.tSub → ∃ u, answers .destroySublease s u r 0 [] ∧
        u.sub? r.tLease r.tSub = none ∧ (∀ e ∈ u.tlb, ¬ (e.lease = r.tLease ∧ e.sub = r.tSub)) ∧ u.mem = s.mem ∧
        ∀ p ∈ u.cores, ∀ h ∈ p.2.fwd, ¬ (h.lease = r.tLease ∧ h.sub = r.tSub))) ∧
    (served s r .resetSublease →
      (s.holds r rReset = false → refusedWith .resetSublease s r 1) ∧ (s.holds r rReset = true → s.sub? r.tLease r.tSub = none → refusedWith .resetSublease s r 2) ∧
      (s.holds r rReset = true → (s.sub? r.tLease r.tSub).isSome = true → subIdle s r.tLease r.tSub → ∃ u, answers .resetSublease s u r 0 [] ∧ u.mem = s.mem ∧
        (∀ n f, ((s.core n).fe f).rowsOwner = some (r.tLease, r.tSub) → ((u.core n).fe f).rowsOwner = none ∧
          ∀ i, decide (128 ≤ i / 512) = f → sget 0 (u.core n).field i = 0) ∧
        (∀ n, (s.mill n).owner = some (r.tLease, r.tSub) → u.mill n = mill0) ∧ ∀ m ∈ u.ue, ¬ (m.lease = r.tLease ∧ m.sub = r.tSub)))

/-- Map: stage 1 and stage 2 leaves (R340, R345). -/
def Sys2Proof.Claims.MapRequests : Prop :=
  ∀ (s t t' v : State) (r : Req),
    (∀ large die addr e x pa old, served s r (.map false large die addr e) → s.mem.wf = true → let n := if large then 2 ^ 29 else 2 ^ 16
      let w : Who := { State.reeveWho die.toNat with lease := r.tLease, sub := r.tSub }
      let free : Prop := r.level = 2 ∨ parseEntry false (if large then 2 else 3) old = .bad ∨
        ∃ l p, parseEntry false (if large then 2 else 3) old = .leaf l ∧ x.window = some p ∧ p.1.toNat ≤ l.addr ∧ l.addr + n ≤ p.1.toNat + p.2.toNat
      (s.holds r rMap = false → refusedWith .map s r 1) ∧
      (s.holds r rMap = true → s.sub? r.tLease r.tSub = some x → (¬ stage1Agent r x large e ∨ addr.toNat % n ≠ 0) → refusedWith .map s r 2) ∧
      (s.holds r rMap = true → s.sub? r.tLease r.tSub = some x → stage1Agent r x large e → addr.toNat % n = 0 → canonical addr = true →
        mapEntryOk false large die e = true → s.busy r.tLease (some r.tSub) = false →
        s.slot1 w large addr 3 x.root.toNat = .ok (some pa, t) → t.readEntry w pa = .ok (old, t') →
        (¬ free → refusedWith .map s r 2) ∧
        (free → t'.reeveStore pa (leBytes 8 e.toNat) = .ok v → ∃ u, answers .map s u r 0 [] ∧
          u.mem.num pa 8 = e.toNat ∧ (∀ a, a < pa ∨ pa + 8 ≤ a → u.mem.byte a = s.mem.byte a) ∧
          ∀ t ∈ u.tlb, t.lease = r.tLease → t.sub = r.tSub → (t.va + 1) * 2 ^ t.size ≤ addr.toNat ∨ addr.toNat + n ≤ t.va * 2 ^ t.size))) ∧
    (∀ large die addr e k pa, served s r (.map true large die addr e) → s.mem.wf = true → let n := if large then 2 ^ 29 else 2 ^ 16
      (s.holds r rMap = true → r.level ≠ 3 → refusedWith .map s r 1) ∧
      (r.level = 3 → s.lease? r.tLease = some k → (addr.toNat % n ≠ 0 ∨ s.framesFree r.tLease e n = false) → refusedWith .map s r 2) ∧
      (r.level = 3 → s.lease? r.tLease = some k → addr.toNat % n = 0 → addr.toNat < 2 ^ 52 → mapEntryOk true large die e = true →
        s.framesFree r.tLease e n = true → s.busy r.tLease none = false →
        s.slot2 { State.reeveWho die.toNat with lease := r.tLease, sub := r.tSub } large addr.toNat 3 (k.roots[die.toNat]'die.isLt).toNat = .ok (pa, t) →
        t.reeveStore pa (leBytes 8 e.toNat) = .ok v → t.mem.wf = true → ∃ u, answers .map s u r 0 [] ∧
          u.mem.num pa 8 = e.toNat ∧ ∀ a, a < pa ∨ pa + 8 ≤ a → u.mem.byte a = t.mem.byte a))

/-- Set limits, set occupants and set LDM (R311, R342, R345). -/
def Sys2Proof.Claims.LimitRequests : Prop :=
  ∀ (s t v : State) (r : Req),
    (∀ cap quota urn, served s r (.setLimits cap quota urn) →
      (s.holds r rPriority = false → refusedWith .setLimits s r 1) ∧
      (s.holds r rPriority = true → ((s.sub? r.tLease r.tSub).isNone = true ∨ 256 < quota.toNat ∨ urn = 0 ∨ 64 < urn.toNat) → refusedWith .setLimits s r 2) ∧
      (∀ x, s.holds r rPriority = true → s.sub? r.tLease r.tSub = some x → quota.toNat ≤ 256 → urn ≠ 0 → urn.toNat ≤ 64 →
        ∃ u, answers .setLimits s u r 0 [] ∧ u.sub? r.tLease r.tSub = some { x with cap := cap, quota := quota, urn := urn } ∧ u.mem = s.mem)) ∧
    (∀ d i e, served s r (.setOccupants d i e) → let old := (s.die d).slots.toList.getD i.toNat 0
      let apart : Prop := ∀ p q, p < q → q < 3 → State.occOf e p ≠ 0xFFFF → State.occOf e q ≠ 0xFFFF → ∀ k ∈ s.occCores (State.occOf e p), k ∉ s.occCores (State.occOf e q)
      let mine : Prop := old.extractLsb' 48 16 = e.extractLsb' 48 16 ∧
        ∀ p, p < 3 → State.occOf old p = State.occOf e p ∨ (State.occOf old p ≠ 0xFFFF ∧ State.occOf e p ≠ 0xFFFF ∧
          State.occOf old p / 256 = r.lease.toNat ∧ State.occOf e p / 256 = r.lease.toNat ∧ r.tLease = r.lease ∧
          (r.tSub = 0xFF ∨ State.occOf e p % 256 = r.tSub.toNat))
      (s.holds r rPriority = false ∨ r.level.toNat < 2 → refusedWith .setOccupants s r 1) ∧
      (s.holds r rPriority = true → r.level = 2 → ¬ mine → refusedWith .setOccupants s r 2) ∧
      ((r.level = 3 ∨ (s.holds r rPriority = true ∧ r.level = 2 ∧ mine)) → (e.getLsbD 63 = true → e.extractLsb' 48 15 ≠ 0) → apart →
        ∃ u, answers .setOccupants s u r 0 [] ∧ (u.die d).slots.toList.getD i.toNat 0 = e ∧ u.mem = s.mem ∧ (u.die d).inForce = (s.die d).inForce)) ∧
    (∀ v, served s r (.setLdm v) →
      (Req.isLevel r 2 = false → refusedWith .setLdm s r 1) ∧
      (∀ x, Req.isLevel r 2 = true → s.sub? r.tLease r.tSub = some x → v &&& ~~~0x700 = 0 → ∃ u y, answers .setLdm s u r 0 [] ∧
        u.sub? r.tLease r.tSub = some y ∧ y.ldm = v ∧ u.mem = s.mem ∧
        ∀ d : Fin 4, v ||| y.ldmClear[d] = v ||| x.ldm ||| x.ldmClear[d]))

/-- Delegate and revoke (R346). -/
def Sys2Proof.Claims.RightRequests : Prop :=
  ∀ (s : State) (r : Req),
    (∀ tl ts rights, served s r (.delegate tl ts rights) →
      let placed : Prop := (r.level = 3 ∧ ts = 0xFF ∧ (s.lease? tl).isSome = true) ∨ (r.level = 2 ∧ tl = r.lease ∧ (s.sub? tl ts).isSome = true) ∨
        (r.level = 1 ∧ tl = r.lease ∧ ts = r.sub)
      let target : Prop := (r.tSub = 0xFF ∧ (s.lease? r.tLease).isSome = true) ∨ (r.tSub ≠ 0xFF ∧ (s.sub? r.tLease r.tSub).isSome = true)
      (r.level = 0 ∨ s.holder r = false ∨ (∃ k, k < 6 ∧ rights.getLsbD k = true ∧ s.holds r k = false) → refusedWith .delegate s r 1) ∧
      (r.level ≠ 0 → s.holder r = true → (∀ k, k < 6 → rights.getLsbD k = true → s.holds r k = true) → ¬ (placed ∧ target) → refusedWith .delegate s r 2) ∧
      (s.holder r = true → (∀ k, k < 6 → rights.getLsbD k = true → s.holds r k = true) → placed → target →
        ∃ u d, answers .delegate s u r 0 [] ∧ u.reeve.delegs = s.reeve.delegs ++ [d] ∧ d.toLevel = r.level - 1 ∧ d.toLease = tl ∧ d.toSub = ts ∧ d.tLease = r.tLease ∧
          d.tSub = r.tSub ∧ d.rights = rights ∧ d.byLevel = r.level ∧ d.byLease = r.lease ∧ d.bySub = r.sub ∧
          let fallen (p : Deleg → Prop) : Prop := ∀ o ∈ s.reeve.delegs, o.backs d = true → p o → o.revoked = true
          (d.revoked = true ↔ r.level ≠ 3 ∧ (fallen (fun _ => True) ∨ ∃ k, k < 6 ∧ rights.getLsbD k = true ∧ fallen (fun o => o.rights.getLsbD k = true))))) ∧
    (∀ tl ts, served s r (.revoke tl ts) → r.level = 3 →
      let mine (d : Deleg) : Prop := d.byLevel = 3 ∧ d.toLease = tl ∧ d.toSub = ts ∧ d.tLease = r.tLease ∧ d.tSub = r.tSub
      ((∀ d ∈ s.reeve.delegs, ¬ mine d) → refusedWith .revoke s r 2) ∧
      ((∃ d ∈ s.reeve.delegs, mine d) → ∃ u, answers .revoke s u r 0 [] ∧ u.reeve.delegs.length = s.reeve.delegs.length ∧
        (∀ d ∈ s.reeve.delegs, mine d → { d with revoked := true } ∈ u.reeve.delegs) ∧
        let fallen (d : Deleg) (p : Deleg → Prop) : Prop := ∀ o ∈ s.reeve.delegs, o.backs d = true → p o → mine o ∨ o.revoked = true
        ∀ d ∈ s.reeve.delegs, d.byLevel ≠ 3 → (fallen d (fun _ => True) ∨ ∃ k, k < 6 ∧ d.rights.getLsbD k = true ∧ fallen d (fun o => o.rights.getLsbD k = true)) →
          { d with revoked := true } ∈ u.reeve.delegs))

/-- Requests about subleases (R340-R347): without the right asked for the answer is status 1, for what does not exist or does
not fit status 2; create, destroy, map, set limits, set occupants, reset, delegate, revoke and set LDM act on the Reeve's
tables as the rules say. A request is kept while the Reeve is frozen, while the device wakes or while an older one of its
holder waits, and refused with status 2 before a boot; which check comes first, and this status, are the model's (log 50). A create
request for a sublease that exists assigns anew, and one of W with sublease 0xFF creates a lease (log 19). -/
def Obligations.SubleaseRequests : Prop :=
  RequestsArrive ∧ SubleaseTable ∧ MapRequests ∧ LimitRequests ∧ RightRequests

/-- Read counters, inject error and register event queue (R329, R354, R372). -/
def Sys2Proof.Claims.CounterRequests : Prop :=
  ∀ (s : State) (r : Req) (d : BitVec 2),
    (∀ first, served s r (.readCounters d first) → (s.holds r rCounters = false → refusedWith .readCounters s r 1) ∧
      (s.holds r rCounters = true → ∃ u ws, answers .readCounters s u r 0 ws ∧ ws.length = 7 ∧ u.mem = s.mem ∧ ∀ i, i < 7 →
        let sel := (s.die d).selects.toList.getD (first.toNat + i) 0
        let own := (r.level = 3 ∧ sel.extractLsb' 16 16 = 0xFFFF) ∨ (sel.extractLsb' 24 8 = r.tLease ∧ (r.tSub = 0xFF ∨ sel.extractLsb' 16 8 = r.tSub))
        (own → ws.getD i 0 = (s.die d).counts.toList.getD (first.toNat + i) 0) ∧ (¬ own → ws.getD i 0 = 0))) ∧
    (∀ v, served s r (.injectError d v) →
      (s.holds r rInject = false ∨ ((v.extractLsb' 60 3 = 3 ∨ v.extractLsb' 60 3 = 4) ∧ r.level ≠ 3) → refusedWith .injectError s r 1) ∧
      (r.level = 3 → errinjOk d v = false → refusedWith .injectError s r 2) ∧
      (s.holds r rInject = true → (v.extractLsb' 60 3).toNat < 3 → s.injectsWithin r v = false → refusedWith .injectError s r 2) ∧
      (v.extractLsb' 60 3 = 2 → r.tSub = 0xFF → (s.injectsWithin r v = true ↔ ∃ l, s.lease? r.tLease = some l ∧ v.extractLsb' 2 8 ∈ l.cores)) ∧
      (r.level = 3 → errinjOk d v = true → (3 ≤ (v.extractLsb' 60 3).toNat ∨ s.injectsWithin r v = true) → ∃ u, answers .injectError s u r 0 [] ∧ u.mem = s.mem ∧
        (v.getLsbD 63 = true → v.extractLsb' 60 3 = 2 → (u.die d).errinj = v) ∧
        (v.getLsbD 63 = true → v.extractLsb' 60 3 = 0 → s.l2Find d (v.extractLsb' 7 41).toNat = none → (u.die d).errinj = v) ∧
        (v.getLsbD 63 = true → v.extractLsb' 60 3 = 1 → v.extractLsb' 58 2 = 1 → lookupN (v.extractLsb' 7 41).toNat u.dramErr = some (BitVec.allOnes 16)) ∧
        (v.getLsbD 63 = true → 3 ≤ (v.extractLsb' 60 3).toNat → (u.die d).errinj = v ∧ (.errinjPerform, .die d) ∈ u.pend))) ∧
    (∀ base k, served s r (.registerEventQueue base k) → (r.level = 0 → refusedWith .registerEventQueue s r 1) ∧
      (r.level = 3 → (base.toNat % 64 ≠ 0 ∨ k.toNat < 4 ∨ 16 < k.toNat) → refusedWith .registerEventQueue s r 2) ∧
      (r.level = 3 → base.toNat % 64 = 0 → 4 ≤ k.toNat → k.toNat ≤ 16 → s.mem.wf = true → (∀ d, ∀ y ∈ (s.die d).l2, y.bad = []) →
        (∀ i, i < 2 ^ k.toNat → isDram (base + BitVec.ofNat 64 (64 * i)).toNat = true ∧ s.ownedLine ((base + BitVec.ofNat 64 (64 * i)).toNat / 128) true = false) →
        ∃ u, answers .registerEventQueue s u r 0 [] ∧ u.reeve.wQueue = some { base := base, k := k.toNat, next := 0 } ∧
          (∀ i, i < 2 ^ k.toNat → ∀ j, j < 64 → u.mem.byte ((base + BitVec.ofNat 64 (64 * i)).toNat + j) = 0) ∧
          ∀ a, (∀ i, i < 2 ^ k.toNat → a < (base + BitVec.ofNat 64 (64 * i)).toNat ∨ (base + BitVec.ofNat 64 (64 * i)).toNat + 64 ≤ a) → u.mem.byte a = s.mem.byte a))

/-- Resume and terminate (R312, R314, R315). -/
def Sys2Proof.Claims.TrapAnswers : Prop :=
  ∀ (s : State) (r : Req) (c : CtxId),
    (served s r (.resume c) → (s.targetCtx r c = none → refusedWith .resume s r 2) ∧
      (∀ a, awaited s r c a → ∃ u, answers .resume s u r 0 [] ∧ u.ctx.phase = .running ∧ u.ctx.awaits = none ∧ u.mem = s.mem ∧ (∀ q, u.ctx.getX q = s.ctx.getX q) ∧
        (a.nested = false → s.ctx.resumes = none → u.ctx.pc = s.ctx.tpc ∧ u.ctx.inTrap = false) ∧
        (a.nested = false → s.ctx.inTrap = false → s.ctx.resumes.isSome = true → u.ctx.returning = true ∧ u.ctx.held = s.ctx.held) ∧
        (a.nested = true → u.ctx.pc = s.ctx.pc ∧ u.ctx.status = s.ctx.status))) ∧
    (served s r (.terminate c) → (s.targetCtx r c = none → refusedWith .terminate s r 2) ∧
      (∀ a, awaited s r c a → ∃ u, answers .terminate s u r 0 [] ∧ u.ctx.phase = .draining ∧ u.mem = s.mem ∧
        let told (x : EvRecord) : Prop := x.lease = s.ctx.lease ∧ (x.words.getD 0 0).extractLsb' 56 8 = 2 ∧
          (x.words.getD 0 0).extractLsb' 48 8 = (if r.level = 3 then 0x30 else a.cause) ∧ x.words.getD 1 0 = a.tval
        (∃ x ∈ u.reeve.records, x.level = 2 ∧ told x) ∧ (r.level ≠ 1 → ∃ x ∈ u.reeve.records, x.level = 1 ∧ x.sub = s.ctx.sub ∧ told x)))

/-- Context access and breakpoints (R308, R345). -/
def Sys2Proof.Claims.ContextAccesses : Prop :=
  ∀ (s : State) (r : Req) (c : CtxId),
    (∀ q v a, served s r (.contextAccess c (.x q) v) → awaited s r c a → ∃ u, answers .contextAccess s u r 0 [s.ctx.getX q] ∧ u.mem = s.mem ∧
      u.ctx.getX q = (if q = 0 then 0 else v.getD (s.ctx.getX q)) ∧ ∀ p, p ≠ q → u.ctx.getX p = s.ctx.getX p) ∧
    (∀ q v a, served s r (.contextAccess c (.h q) v) → awaited s r c a → ∃ u, answers .contextAccess s u r 0 [s.ctx.getH q] ∧ u.mem = s.mem ∧
      u.ctx.getH q = if q = 0 then 0 else v.getD (s.ctx.getH q)) ∧
    (∀ q v a, served s r (.contextAccess c (.plot q) v) → awaited s r c a →
      (v = none → ∃ u, answers .contextAccess s u r 0 [s.ctx.plot q] ∧ u.mem = s.mem ∧ u.ctx = s.ctx) ∧
      (∀ w, v = some w → s.ctx.isMiller = false →
        (plotValid w = true → plotLegal w (s.rows s.ctx.core s.ctx.fe) = false → refusedWith .contextAccess s r 2) ∧
        ((plotValid w = true → plotLegal w (s.rows s.ctx.core s.ctx.fe) = true) → ∃ u, answers .contextAccess s u r 0 [s.ctx.plot q] ∧ u.mem = s.mem ∧
          u.ctx.plot q = (if plotValid w = true then w else 0) ∧ ∀ p, p ≠ q → u.ctx.plot p = s.ctx.plot p))) ∧
    (∀ m i w a, served s r (.contextAccess c (.mask m i) (some w)) → awaited s r c a → ∃ u,
      answers .contextAccess s u r 0 [(s.ctx.mask m).extractLsb' (64 * i.toNat) 64] ∧ u.mem = s.mem ∧
      (∀ j, j < 64 → (u.ctx.mask m).getLsbD (64 * i.toNat + j) = w.getLsbD j) ∧
      ∀ j, (j < 64 * i.toNat ∨ 64 * i.toNat + 64 ≤ j) → (u.ctx.mask m).getLsbD j = (s.ctx.mask m).getLsbD j) ∧
    (∀ f i a, served s r (.contextAccess c (.front f i) none) → awaited s r c a → ∀ w, (Front.image (s.ctx.front f))[i.toNat]? = some w →
      ∃ u, answers .contextAccess s u r 0 [w] ∧ u.mem = s.mem ∧ u.ctx = s.ctx) ∧
    (∀ arm a, served s r (.breakpoint c arm a) → (Req.isLevel r 1 = false → Req.isLevel r 2 = false → refusedWith .breakpoint s r 1) ∧
      (s.ctx.id = c → s.ctx.lease = r.tLease → s.ctx.sub = r.tSub → s.ctx.active = true → (Req.isLevel r 1 = true ∨ Req.isLevel r 2 = true) →
        (arm = false → ∃ u, answers .breakpoint s u r 0 [] ∧ u.ctx.breaks = s.ctx.breaks.filter (fun k => k != a) ∧ u.mem = s.mem) ∧
        (arm = true → a ∉ s.ctx.breaks → s.ctx.breaks.length < 4 → ∃ u, answers .breakpoint s u r 0 [] ∧ u.ctx.breaks = s.ctx.breaks ++ [a] ∧ u.mem = s.mem) ∧
        (arm = true → a ∉ s.ctx.breaks → 4 ≤ s.ctx.breaks.length → refusedWith .breakpoint s r 5)))

/-- Launch, by a request (R265, R345). -/
def Sys2Proof.Claims.LaunchRequests : Prop :=
  ∀ (s t : State) (r : Req) (d : BitVec 2),
    (∀ va, served s r (.launchRequest d va) → (r.level < 2 → r.sub ≠ r.tSub → refusedWith .launchRequest s r 1) ∧
      (∀ f, r.level = 3 → (s.sub? r.tLease r.tSub).isSome = true → s.recordAt { lease := r.tLease, sub := r.tSub, die := d } va = .error (.fault t f) →
        ∃ u, answers .launchRequest s u r 2 [BitVec.ofNat 64 f.cause, f.tval]) ∧
      (∀ ws v, r.level = 3 → (s.sub? r.tLease r.tSub).isSome = true → s.recordAt { lease := r.tLease, sub := r.tSub, die := d } va = .ok (ws, t) →
        nestOk ws = true → launchAddrs t { lease := r.tLease, sub := r.tSub, die := d } ctx0 ws = .ok v →
        (v.poolFull d r.tLease r.tSub = true → ∃ u, answers .launchRequest s u r 4 []) ∧
        (v.poolFull d r.tLease r.tSub = false → nestTotal ws ≠ 0 → ∃ u n, answers .launchRequest s u r 0 [] ∧ u.nests = s.nests ++ [n] ∧ n.words = ws ∧
          n.lease = r.tLease ∧ n.sub = r.tSub ∧ n.die = d ∧ n.level = 3 ∧ n.inPool = true)))

/-- Black box, power, attestation, quarantine (R325, R330, R351, R352). -/
def Sys2Proof.Claims.BoardRequests : Prop :=
  ∀ (s : State) (r : Req) (d : BitVec 2),
    (∀ first, served s r (.readBlackBox first) → (Req.isLevel r 2 = false → refusedWith .readBlackBox s r 1) ∧
      (∀ pre e post, r.level = 3 → s.reeve.box = pre ++ e :: post → (∀ x ∈ pre, x.seq.toNat < first.toNat) → first.toNat ≤ e.seq.toNat →
        ∃ u, answers .readBlackBox s u r 0 [e.seq, e.time, e.header, e.detail] ∧ u.reeve.box = s.reeve.box ∧ u.mem = s.mem)) ∧
    (∀ us, served s r (.power us) → (s.holder r = false → refusedWith .power s r 1) ∧
      (∀ l, s.holder r = true → s.lease? r.tLease = some l → ∃ u, answers .power s u r 0 [] ∧ u.lease? r.tLease = some { l with tolerance := us.setWidth 64 } ∧
        (.powerStateEntry, .none) ∈ u.pend ∧ u.mem = s.mem)) ∧
    (∀ nonce, served s r (.attest nonce) → (s.holder r = false → refusedWith .attest s r 1) ∧
      (s.holder r = true → 2 ^ 20 ≤ s.reeve.leaf → refusedWith .attest s r 5) ∧
      (s.holder r = true → s.reeve.leaf < 2 ^ 20 → ∃ u q, answers .attest s u r 0 [BitVec.ofNat 64 s.reeve.leaf] ∧
        u.reeve.leaf = s.reeve.leaf + 1 ∧ u.mem = s.mem ∧ u.reeve.quotes = s.reeve.quotes ++ [q] ∧ q.nonce = nonce ∧ q.leaf = s.reeve.leaf ∧
        q.serial = s.reeve.serial ∧ q.partition = Config.shake256 (Config.quoteBytes (s.assignment r.tLease r.tSub)) ∧ q.measurements = s.reeve.measurements ∧
        q.signature = Config.xmssSign s.reeve.leaf (Config.quoteBytes ([q.serial.toNat, q.partition.toNat, nonce.toNat, q.leaf] ++ q.measurements.map BitVec.toNat)))) ∧
    (∀ slice way, served s r (.releaseQuarantine d slice way) → (r.level ≠ 3 → refusedWith .releaseQuarantine s r 1) ∧
      (r.level = 3 → (slice.toNat, way.toNat) ∉ (s.die d).quarantined → refusedWith .releaseQuarantine s r 2) ∧
      (r.level = 3 → (slice.toNat, way.toNat) ∈ (s.die d).quarantined → ∃ u, answers .releaseQuarantine s u r 0 [] ∧
        (u.die d).quarantined = (s.die d).quarantined.erase (slice.toNat, way.toNat) ∧ u.mem = s.mem))

/-- Requests about contexts and the device (R345): counters, injection, event queues, the answers to a trap, breakpoints,
launch, the black box, power, attestation and quarantine. A resumed context whose trap left a vector instruction held dispatches
it at its next turn. The quote of R351 goes out beside the response, whose first result is the leaf (log 15). Status 5 for
a fifth breakpoint is the model's (log 50), and so is that injection destroys all words of a line (log 46). -/
def Obligations.DeviceRequests : Prop :=
  CounterRequests ∧ TrapAnswers ∧ ContextAccesses ∧ LaunchRequests ∧ BoardRequests

/-! ## The machine as a whole -/

/-- Reset (R159, R341, R350): no context runs, no lease exists, the Reeve has not booted, and the special registers stand at the
values of R159. That memory reads 0, and that caches, TLBs and core registers are empty or 0, is the model's (logs 1, 3, 5, 7). -/
def Obligations.ResetState : Prop :=
  let s := State.reset
  s.mem.wf = true ∧ (∀ a, s.mem.byte a = 0) ∧ (∀ k ∈ s.ctxs, k.active = false) ∧ s.reeve.leases = [] ∧ s.reeve.booted = false ∧ s.tlb = [] ∧ s.ops = [] ∧
    (∀ n, s.core n = core0) ∧ s.ctx.tdeleg = 0x010F0000 ∧ s.ctx.vtype = 0x71 ∧ s.ctx.mvl = 4096 ∧ s.ctx.kvwin = 1

/-- Every step keeps memory in its canonical form, so that equal memories are equal data. -/
def Obligations.StepKeepsMemoryForm : Prop := ∀ s t : State, s.mem.wf = true → step s = .next t → t.mem.wf = true
end

