-- ==== Sys2Proof/Laws/Memory.lean ====
section
/-! SUPPORT. Memory and the other sparse stores: a read after a write gives what was written, a write leaves every
other place alone, and every operation keeps the canonical form (log 1). -/

namespace Sys2Proof.Machine

section sparse
variable {α : Type} [DecidableEq α] {d : α}

/-- The canonical form: keys from b on, rising, no entry equal to the default. -/
theorem swf_iff (b : Nat) (l : List (Nat × α)) :
    swf d b l = true ↔ (∀ c ∈ l, b ≤ c.1 ∧ c.2 ≠ d) ∧ l.Pairwise (fun x y => x.1 < y.1) := by
  induction l generalizing b with
  | nil => simp [swf]
  | cons p l ih =>
    obtain ⟨k, v⟩ := p
    simp only [swf, Bool.and_eq_true, decide_eq_true_eq, ih, List.mem_cons, forall_eq_or_imp, List.pairwise_cons]
    constructor
    · rintro ⟨⟨h1, h2⟩, h3, h4⟩
      exact ⟨⟨⟨h1, h2⟩, fun c hc => ⟨by have := (h3 c hc).1; omega, (h3 c hc).2⟩⟩, fun c hc => by have := (h3 c hc).1; omega, h4⟩
    · rintro ⟨⟨⟨h1, h2⟩, h3⟩, h4, h5⟩
      exact ⟨⟨h1, h2⟩, fun c hc => ⟨by have := h4 c hc; omega, (h3 c hc).2⟩, h5⟩

omit [DecidableEq α] in
theorem sget_of_mem {l : List (Nat × α)} (h : l.Pairwise (fun x y => x.1 < y.1)) {k : Nat} {v : α} (hm : (k, v) ∈ l) :
    sget d l k = v := by
  induction l with
  | nil => simp at hm
  | cons p l ih =>
    obtain ⟨k', v'⟩ := p
    rw [List.pairwise_cons] at h
    rcases List.mem_cons.1 hm with e | e
    · cases e; simp [sget]
    · have := h.1 _ e
      simp only at this
      simp only [sget]
      rw [if_neg (by omega), if_neg (by omega)]
      exact ih h.2 e

omit [DecidableEq α] in
theorem sget_of_not_mem {l : List (Nat × α)} {k : Nat} (hm : ∀ v, (k, v) ∉ l) : sget d l k = d := by
  induction l with
  | nil => rfl
  | cons p l ih =>
    obtain ⟨k', v'⟩ := p
    have : k' ≠ k := fun e => hm v' (by simp [e])
    simp only [sget, if_neg this]
    split
    · rfl
    · exact ih (fun v hv => hm v (List.mem_cons_of_mem _ hv))

omit [DecidableEq α] in
theorem sget_mem {l : List (Nat × α)} {k : Nat} (h : sget d l k ≠ d) : (k, sget d l k) ∈ l := by
  induction l with
  | nil => exact absurd rfl h
  | cons p l ih =>
    obtain ⟨k', v'⟩ := p
    simp only [sget] at h ⊢
    split
    · rename_i e; subst e; simp
    · rename_i e
      rw [if_neg e] at h
      split
      · rename_i e2; rw [if_pos e2] at h; exact absurd rfl h
      · rename_i e2; rw [if_neg e2] at h; exact List.mem_cons_of_mem _ (ih h)

theorem sget_sset (l : List (Nat × α)) (h : l.Pairwise (fun x y => x.1 < y.1)) (k : Nat) (v : α) (j : Nat) :
    sget d (sset d l k v) j = if j = k then v else sget d l j := by
  induction l with
  | nil => by_cases hv : v = d <;> by_cases hj : j = k <;> simp_all [sset, sget, eq_comm]
  | cons p l ih =>
    obtain ⟨k', v'⟩ := p
    rw [List.pairwise_cons] at h
    have hk : ∀ i, i ≤ k' → sget d l i = d := by
      intro i hi
      refine sget_of_not_mem (fun w hw => ?_)
      have := h.1 _ hw
      simp only at this
      omega
    simp only [sset]
    by_cases h1 : k < k'
    · rw [if_pos h1]
      by_cases hv : v = d
      · rw [if_pos hv]
        by_cases hj : j = k
        · subst hj; rw [if_pos rfl, hv]; simp only [sget]; rw [if_neg (by omega), if_pos h1]
        · rw [if_neg hj]
      · rw [if_neg hv]
        by_cases hj : j = k
        · subst hj; simp [sget]
        · rw [if_neg hj]
          rw [show sget d ((k, v) :: (k', v') :: l) j = if k = j then v else if j < k then d else sget d ((k', v') :: l) j from rfl]
          rw [if_neg (fun e => hj e.symm)]
          split
          · simp only [sget]; rw [if_neg (by omega), if_pos (by omega)]
          · rfl
    · rw [if_neg h1]
      by_cases h2 : k = k'
      · subst h2
        rw [if_pos rfl]
        by_cases hv : v = d
        · rw [if_pos hv]
          by_cases hj : j = k
          · subst hj; rw [if_pos rfl, hv]; exact hk j (Nat.le_refl _)
          · rw [if_neg hj]; simp only [sget]; rw [if_neg (fun e => hj e.symm)]
            split
            · exact hk j (by omega)
            · rfl
        · rw [if_neg hv]
          simp only [sget]
          by_cases hj : j = k
          · simp [hj]
          · rw [if_neg hj]
            have hne : ¬ k = j := fun e => hj e.symm
            simp only [if_neg hne]
      · rw [if_neg h2]
        simp only [sget, ih h.2]
        by_cases hj : j = k
        · subst hj; simp only [if_true]; rw [if_neg (by omega), if_neg (by omega)]
        · simp only [if_neg hj]

theorem mem_sset {l : List (Nat × α)} {k : Nat} {v : α} {c : Nat × α} (h : c ∈ sset d l k v) :
    c ∈ l ∨ (c = (k, v) ∧ v ≠ d) := by
  induction l with
  | nil => simp only [sset] at h; split at h <;> simp_all
  | cons p l ih =>
    obtain ⟨k', v'⟩ := p
    simp only [sset] at h
    split at h
    · split at h <;> simp_all
      tauto
    · split at h
      · split at h <;> simp_all
        tauto
      · simp only [List.mem_cons] at h ⊢
        rcases h with h | h
        · exact .inl (.inl h)
        · rcases ih h with h | h
          · exact .inl (.inr h)
          · exact .inr h

theorem pairwise_sset {l : List (Nat × α)} (h : l.Pairwise (fun x y => x.1 < y.1)) (k : Nat) (v : α) :
    (sset d l k v).Pairwise (fun x y => x.1 < y.1) := by
  induction l with
  | nil => simp only [sset]; split <;> simp
  | cons p l ih =>
    obtain ⟨k', v'⟩ := p
    rw [List.pairwise_cons] at h
    simp only [sset]
    split
    · split
      · exact List.pairwise_cons.2 h
      · refine List.pairwise_cons.2 ⟨fun c hc => ?_, List.pairwise_cons.2 h⟩
        rcases List.mem_cons.1 hc with e | e
        · subst e; assumption
        · have := h.1 _ e; simp only at this ⊢; omega
    · split
      · split
        · exact h.2
        · refine List.pairwise_cons.2 ⟨fun c hc => ?_, h.2⟩
          have := h.1 _ hc; simp only at this ⊢; omega
      · refine List.pairwise_cons.2 ⟨fun c hc => ?_, ih h.2⟩
        rcases mem_sset hc with e | ⟨e, -⟩
        · exact h.1 _ e
        · subst e; simp only; omega

theorem swf_sset {l : List (Nat × α)} (h : swf d 0 l = true) (k : Nat) (v : α) : swf d 0 (sset d l k v) = true := by
  rw [swf_iff] at h ⊢
  refine ⟨fun c hc => ⟨Nat.zero_le _, ?_⟩, pairwise_sset h.2 k v⟩
  rcases mem_sset hc with e | ⟨e, hv⟩
  · exact (h.1 c e).2
  · subst e; exact hv

end sparse

/-! One byte. -/

theorem Memory.wf_setByte {m : Memory} (h : m.wf = true) (a : Nat) (b : Byte) : (m.setByte a b).wf = true := swf_sset h a b

theorem Memory.byte_setByte {m : Memory} (h : m.wf = true) (a : Nat) (b : Byte) (x : Nat) :
    (m.setByte a b).byte x = if x = a then b else m.byte x := sget_sset m ((swf_iff 0 m).1 h).2 a b x

/-! Byte strings. -/

theorem mem_cellsOf {a : Nat} {bs : List Byte} {c : Nat × Byte} :
    c ∈ cellsOf a bs ↔ a ≤ c.1 ∧ bs[c.1 - a]? = some c.2 ∧ c.2 ≠ 0 := by
  induction bs generalizing a with
  | nil => simp [cellsOf]
  | cons b bs ih =>
    obtain ⟨x, v⟩ := c
    have key : (a + 1 ≤ x ∧ bs[x - (a + 1)]? = some v ∧ v ≠ 0) ↔ (a ≠ x ∧ a ≤ x ∧ (b :: bs)[x - a]? = some v ∧ v ≠ 0) := by
      constructor
      · rintro ⟨h1, h2, h3⟩
        refine ⟨by omega, by omega, ?_, h3⟩
        rw [show x - a = (x - (a + 1)) + 1 by omega]; simpa using h2
      · rintro ⟨h0, h1, h2, h3⟩
        refine ⟨by omega, ?_, h3⟩
        rw [show x - a = (x - (a + 1)) + 1 by omega] at h2; simpa using h2
    simp only [cellsOf]
    split
    · rename_i hb
      rw [ih, key]
      constructor
      · exact fun h => h.2
      · rintro ⟨h1, h2, h3⟩
        refine ⟨fun e => ?_, h1, h2, h3⟩
        subst e; simp at h2; exact h3 (h2 ▸ hb)
    · rename_i hb
      rw [List.mem_cons, ih, key]
      constructor
      · rintro (e | h)
        · cases e; exact ⟨Nat.le_refl _, by simp, hb⟩
        · exact h.2
      · rintro ⟨h1, h2, h3⟩
        by_cases e : a = x
        · subst e; simp at h2; left; rw [h2]
        · exact .inr ⟨e, h1, h2, h3⟩

theorem pairwise_cellsOf (a : Nat) (bs : List Byte) : (cellsOf a bs).Pairwise (fun x y => x.1 < y.1) := by
  induction bs generalizing a with
  | nil => simp [cellsOf]
  | cons b bs ih =>
    simp only [cellsOf]
    split
    · exact ih _
    · exact List.pairwise_cons.2 ⟨fun c hc => by have := (mem_cellsOf.1 hc).1; simp only; omega, ih _⟩

theorem mem_below {m : Memory} (h : m.Pairwise (fun x y => x.1 < y.1)) (a : Nat) (c : Nat × Byte) :
    c ∈ m.takeWhile (fun c => decide (c.1 < a)) ↔ c ∈ m ∧ c.1 < a := by
  induction m with
  | nil => simp
  | cons p m ih =>
    rw [List.pairwise_cons] at h
    simp only [List.takeWhile_cons]
    split
    · rename_i hp
      simp only [decide_eq_true_eq] at hp
      simp only [List.mem_cons, ih h.2]
      constructor
      · rintro (e | e)
        · subst e; exact ⟨.inl rfl, hp⟩
        · exact ⟨.inr e.1, e.2⟩
      · rintro ⟨e | e, hl⟩
        · exact .inl e
        · exact .inr ⟨e, hl⟩
    · rename_i hp
      simp only [decide_eq_true_eq] at hp
      simp only [List.not_mem_nil, false_iff]
      rintro ⟨e, hl⟩
      rcases List.mem_cons.1 e with e | e
      · subst e; omega
      · have := h.1 _ e; omega

theorem mem_from {m : Memory} (h : m.Pairwise (fun x y => x.1 < y.1)) (a : Nat) (c : Nat × Byte) :
    c ∈ m.dropWhile (fun c => decide (c.1 < a)) ↔ c ∈ m ∧ a ≤ c.1 := by
  induction m with
  | nil => simp
  | cons p m ih =>
    rw [List.pairwise_cons] at h
    simp only [List.dropWhile_cons]
    split
    · rename_i hp
      simp only [decide_eq_true_eq] at hp
      rw [ih h.2, List.mem_cons]
      constructor
      · exact fun e => ⟨.inr e.1, e.2⟩
      · rintro ⟨e | e, hl⟩
        · subst e; omega
        · exact ⟨e, hl⟩
    · rename_i hp
      simp only [decide_eq_true_eq] at hp
      constructor
      · intro e
        refine ⟨e, ?_⟩
        rcases List.mem_cons.1 e with e | e
        · subst e; omega
        · have := h.1 _ e; omega
      · exact fun e => e.1

theorem Memory.mem_setBytes {m : Memory} (h : m.wf = true) (a : Nat) (bs : List Byte) (c : Nat × Byte) :
    c ∈ m.setBytes a bs ↔ (c ∈ m ∧ c.1 < a) ∨ (a ≤ c.1 ∧ bs[c.1 - a]? = some c.2 ∧ c.2 ≠ 0) ∨ (c ∈ m ∧ a + bs.length ≤ c.1) := by
  have hp := ((swf_iff 0 m).1 h).2
  simp only [Memory.setBytes, List.mem_append, mem_below hp, mem_from hp, mem_cellsOf]

theorem Memory.pairwise_setBytes {m : Memory} (h : m.wf = true) (a : Nat) (bs : List Byte) :
    (m.setBytes a bs).Pairwise (fun x y => x.1 < y.1) := by
  have hp := ((swf_iff 0 m).1 h).2
  have hc : ∀ c ∈ cellsOf a bs, a ≤ c.1 ∧ c.1 < a + bs.length := by
    intro c hc
    obtain ⟨h1, h2, -⟩ := mem_cellsOf.1 hc
    have := (List.getElem?_eq_some_iff.1 h2).1
    omega
  refine List.pairwise_append.2 ⟨hp.sublist (List.takeWhile_sublist _), ?_, ?_⟩
  · refine List.pairwise_append.2 ⟨pairwise_cellsOf a bs, hp.sublist (List.dropWhile_sublist _), ?_⟩
    intro x hx y hy
    have := hc x hx
    have := ((mem_from hp _ y).1 hy).2
    omega
  · intro x hx y hy
    have := ((mem_below hp _ x).1 hx).2
    rcases List.mem_append.1 hy with hy | hy
    · have := hc y hy; omega
    · have := ((mem_from hp _ y).1 hy).2; omega

/-- Writing a byte string keeps the canonical form. -/
theorem Memory.wf_setBytes {m : Memory} (h : m.wf = true) (a : Nat) (bs : List Byte) : (m.setBytes a bs).wf = true := by
  refine (swf_iff 0 _).2 ⟨fun c hc => ⟨Nat.zero_le _, ?_⟩, pairwise_setBytes h a bs⟩
  have hm := ((swf_iff 0 m).1 h).1
  rcases (mem_setBytes h a bs c).1 hc with e | e | e
  · exact (hm c e.1).2
  · exact e.2.2
  · exact (hm c e.1).2

theorem Memory.byte_of_mem {m : Memory} (h : m.wf = true) {a : Nat} {b : Byte} (hm : (a, b) ∈ m) : m.byte a = b :=
  sget_of_mem ((swf_iff 0 m).1 h).2 hm

theorem Memory.byte_of_not_mem {m : Memory} {a : Nat} (hm : ∀ b, (a, b) ∉ m) : m.byte a = 0 := sget_of_not_mem hm

theorem Memory.mem_of_byte {m : Memory} {a : Nat} (hb : m.byte a ≠ 0) : (a, m.byte a) ∈ m := sget_mem hb

/-- A byte read after a byte string was written. -/
theorem Memory.byte_setBytes {m : Memory} (h : m.wf = true) (a : Nat) (bs : List Byte) (x : Nat) :
    (m.setBytes a bs).byte x = if a ≤ x ∧ x < a + bs.length then bs.getD (x - a) 0 else m.byte x := by
  have hw := wf_setBytes h a bs
  split
  · rename_i hx
    have hb : bs[x - a]? = some (bs.getD (x - a) 0) := by
      rw [List.getD_eq_getElem?_getD, List.getElem?_eq_getElem (by omega)]; rfl
    by_cases h0 : bs.getD (x - a) 0 = 0
    · rw [h0]
      refine byte_of_not_mem (fun v hv => ?_)
      rcases (mem_setBytes h a bs _).1 hv with e | e | e
      · have := e.2; simp only at this; omega
      · rw [hb] at e; exact e.2.2 (by rw [← h0]; exact (Option.some.inj e.2.1).symm)
      · have := e.2; simp only at this; omega
    · exact byte_of_mem hw ((mem_setBytes h a bs _).2 (.inr (.inl ⟨hx.1, hb, h0⟩)))
  · rename_i hx
    by_cases h0 : m.byte x = 0
    · rw [h0]
      refine byte_of_not_mem (fun v hv => ?_)
      have hm : ∀ v, (x, v) ∈ m → False := fun v hv => (((swf_iff 0 m).1 h).1 _ hv).2 ((byte_of_mem h hv).symm.trans h0)
      rcases (mem_setBytes h a bs _).1 hv with e | e | e
      · exact hm v e.1
      · have := (List.getElem?_eq_some_iff.1 e.2.1).1
        exact hx ⟨e.1, by simp only at this; have := e.1; simp only at this; omega⟩
      · exact hm v e.1
    · refine byte_of_mem hw ((mem_setBytes h a bs _).2 ?_)
      have := mem_of_byte h0
      by_cases hl : x < a
      · exact .inl ⟨this, hl⟩
      · exact .inr (.inr ⟨this, by simp only; omega⟩)

/-- A write leaves every byte outside it. -/
theorem Memory.byte_setBytes_of_outside {m : Memory} (h : m.wf = true) {a : Nat} {bs : List Byte} {x : Nat}
    (hx : x < a ∨ a + bs.length ≤ x) : (m.setBytes a bs).byte x = m.byte x := by
  rw [byte_setBytes h, if_neg (by omega)]

theorem Memory.run_eq (n : Nat) (a : Nat) (l : Memory) (h : swf 0 a l = true) :
    Memory.run a n l = (List.range n).map (fun i => sget 0 l (a + i)) := by
  induction n generalizing a l with
  | zero => rfl
  | succ n ih =>
    rw [List.range_succ_eq_map, List.map_cons, List.map_map]
    cases l with
    | nil =>
      simp only [Memory.run, ih (a + 1) [] rfl]
      refine congrArg₂ _ rfl (List.map_congr_left (fun i _ => ?_))
      simp [sget]
    | cons p l =>
      obtain ⟨k, v⟩ := p
      have hh := h
      simp only [swf, Bool.and_eq_true, decide_eq_true_eq] at hh
      simp only [Memory.run]
      split
      · rename_i hk
        subst hk
        rw [ih _ l hh.2]
        refine congrArg₂ _ (by simp [sget]) (List.map_congr_left (fun i _ => ?_))
        simp only [Function.comp, sget]
        rw [if_neg (by omega), if_neg (by omega)]
        congr 1; omega
      · rename_i hk
        have h' : swf 0 (a + 1) ((k, v) :: l) = true := by
          simp only [swf, Bool.and_eq_true, decide_eq_true_eq]; exact ⟨⟨by omega, hh.1.2⟩, hh.2⟩
        rw [ih _ _ h']
        refine congrArg₂ _ ?_ (List.map_congr_left (fun i _ => ?_))
        · simp only [sget]; rw [if_neg (by omega), if_pos (by omega)]
        · simp only [Function.comp]; congr 1; omega

/-- The bytes from an address on are those that stand there. -/
theorem Memory.bytes_eq {m : Memory} (h : m.wf = true) (a n : Nat) :
    m.bytes a n = (List.range n).map (fun i => m.byte (a + i)) := by
  have hw := (swf_iff 0 m).1 h
  have hd : swf (0 : Byte) a (m.dropWhile (fun c => decide (c.1 < a))) = true := by
    refine (swf_iff a _).2 ⟨fun c hc => ?_, hw.2.sublist (List.dropWhile_sublist _)⟩
    have := (mem_from hw.2 a c).1 hc
    exact ⟨this.2, (hw.1 c this.1).2⟩
  rw [Memory.bytes, run_eq n a _ hd]
  refine List.map_congr_left (fun i _ => ?_)
  show sget 0 (m.dropWhile fun c => decide (c.1 < a)) (a + i) = sget 0 m (a + i)
  by_cases h0 : m.byte (a + i) = 0
  · rw [show sget 0 m (a + i) = 0 from h0]
    refine sget_of_not_mem (fun v hv => ?_)
    have hv := ((mem_from hw.2 a _).1 hv).1
    exact (hw.1 _ hv).2 ((byte_of_mem h hv).symm.trans h0)
  · have hm := mem_of_byte h0
    rw [show sget 0 m (a + i) = m.byte (a + i) from rfl]
    exact sget_of_mem ((swf_iff a _).1 hd).2 ((mem_from hw.2 a _).2 ⟨hm, by simp only; omega⟩)

/-- A byte string read back where it was written. -/
theorem Memory.bytes_setBytes {m : Memory} (h : m.wf = true) (a : Nat) (bs : List Byte) :
    (m.setBytes a bs).bytes a bs.length = bs := by
  rw [bytes_eq (wf_setBytes h a bs)]
  apply List.ext_getElem
  · simp
  · intro i h1 h2
    simp only [List.getElem_map, List.getElem_range]
    rw [byte_setBytes h, if_pos (by simp at h1; omega)]
    simp [List.getD_eq_getElem?_getD, List.getElem?_eq_getElem h2]

@[simp] theorem leBytes_length (n v : Nat) : (leBytes n v).length = n := by
  induction n generalizing v with
  | zero => rfl
  | succ n ih => simp [leBytes, ih]

theorem leNat_leBytes (n v : Nat) : leNat (leBytes n v) = v % 2 ^ (8 * n) := by
  induction n generalizing v with
  | zero => simp [leBytes, leNat, Nat.mod_one]
  | succ n ih =>
    simp only [leBytes, leNat, ih]
    have : (2 : Nat) ^ (8 * (n + 1)) = 256 * 2 ^ (8 * n) := by rw [Nat.mul_add, Nat.pow_add]; omega
    rw [this, Nat.mod_mul]
    simp

/-- A number read back where it was written. -/
theorem Memory.num_setNum {m : Memory} (h : m.wf = true) (a n v : Nat) : (m.setNum a n v).num a n = v % 2 ^ (8 * n) := by
  have := bytes_setBytes h a (leBytes n v)
  rw [leBytes_length] at this
  rw [Memory.num, Memory.setNum, this, leNat_leBytes]

theorem Memory.wf_setNum {m : Memory} (h : m.wf = true) (a n v : Nat) : (m.setNum a n v).wf = true := wf_setBytes h a _

theorem reset_memory_wf : State.reset.mem.wf = true := by decide

end Sys2Proof.Machine
end

