-- ==== Sys2Proof/Laws/State.lean ====
section
/-! SUPPORT. One lemma for each field of the state and of a context under each named update: what the update gives
the fields it writes and that it leaves the others. -/

namespace Sys2Proof.Machine

/-! Contexts. -/

@[simp] theorem Ctx.setX_phase (c : Ctx) (r : XReg) (v : Word) : (c.setX r v).phase = c.phase := by unfold Ctx.setX; split <;> rfl
@[simp] theorem Ctx.setX_self (c : Ctx) (r : XReg) (v : Word) : (c.setX r v).self = c.self := by unfold Ctx.setX; split <;> rfl
@[simp] theorem Ctx.setX_lease (c : Ctx) (r : XReg) (v : Word) : (c.setX r v).lease = c.lease := by unfold Ctx.setX; split <;> rfl
@[simp] theorem Ctx.setX_sub (c : Ctx) (r : XReg) (v : Word) : (c.setX r v).sub = c.sub := by unfold Ctx.setX; split <;> rfl
@[simp] theorem Ctx.setX_nest (c : Ctx) (r : XReg) (v : Word) : (c.setX r v).nest = c.nest := by unfold Ctx.setX; split <;> rfl
@[simp] theorem Ctx.setX_h (c : Ctx) (r : XReg) (v : Word) : (c.setX r v).h = c.h := by unfold Ctx.setX; split <;> rfl
@[simp] theorem Ctx.setX_pc (c : Ctx) (r : XReg) (v : Word) : (c.setX r v).pc = c.pc := by unfold Ctx.setX; split <;> rfl
@[simp] theorem Ctx.setX_status (c : Ctx) (r : XReg) (v : Word) : (c.setX r v).status = c.status := by unfold Ctx.setX; split <;> rfl
@[simp] theorem Ctx.setX_tvec (c : Ctx) (r : XReg) (v : Word) : (c.setX r v).tvec = c.tvec := by unfold Ctx.setX; split <;> rfl
@[simp] theorem Ctx.setX_tpc (c : Ctx) (r : XReg) (v : Word) : (c.setX r v).tpc = c.tpc := by unfold Ctx.setX; split <;> rfl
@[simp] theorem Ctx.setX_tcause (c : Ctx) (r : XReg) (v : Word) : (c.setX r v).tcause = c.tcause := by unfold Ctx.setX; split <;> rfl
@[simp] theorem Ctx.setX_tval (c : Ctx) (r : XReg) (v : Word) : (c.setX r v).tval = c.tval := by unfold Ctx.setX; split <;> rfl
@[simp] theorem Ctx.setX_tqpos (c : Ctx) (r : XReg) (v : Word) : (c.setX r v).tqpos = c.tqpos := by unfold Ctx.setX; split <;> rfl
@[simp] theorem Ctx.setX_tplot (c : Ctx) (r : XReg) (v : Word) : (c.setX r v).tplot = c.tplot := by unfold Ctx.setX; split <;> rfl
@[simp] theorem Ctx.setX_tcell (c : Ctx) (r : XReg) (v : Word) : (c.setX r v).tcell = c.tcell := by unfold Ctx.setX; split <;> rfl
@[simp] theorem Ctx.setX_vstart (c : Ctx) (r : XReg) (v : Word) : (c.setX r v).vstart = c.vstart := by unfold Ctx.setX; split <;> rfl
@[simp] theorem Ctx.setX_tdeleg (c : Ctx) (r : XReg) (v : Word) : (c.setX r v).tdeleg = c.tdeleg := by unfold Ctx.setX; split <;> rfl
@[simp] theorem Ctx.setX_vl (c : Ctx) (r : XReg) (v : Word) : (c.setX r v).vl = c.vl := by unfold Ctx.setX; split <;> rfl
@[simp] theorem Ctx.setX_mvl (c : Ctx) (r : XReg) (v : Word) : (c.setX r v).mvl = c.mvl := by unfold Ctx.setX; split <;> rfl
@[simp] theorem Ctx.setX_vtype (c : Ctx) (r : XReg) (v : Word) : (c.setX r v).vtype = c.vtype := by unfold Ctx.setX; split <;> rfl
@[simp] theorem Ctx.setX_mfmt (c : Ctx) (r : XReg) (v : Word) : (c.setX r v).mfmt = c.mfmt := by unfold Ctx.setX; split <;> rfl
@[simp] theorem Ctx.setX_fill (c : Ctx) (r : XReg) (v : Word) : (c.setX r v).fill = c.fill := by unfold Ctx.setX; split <;> rfl
@[simp] theorem Ctx.setX_fcsr (c : Ctx) (r : XReg) (v : Word) : (c.setX r v).fcsr = c.fcsr := by unfold Ctx.setX; split <;> rfl
@[simp] theorem Ctx.setX_kvwin (c : Ctx) (r : XReg) (v : Word) : (c.setX r v).kvwin = c.kvwin := by unfold Ctx.setX; split <;> rfl
@[simp] theorem Ctx.setX_fovf (c : Ctx) (r : XReg) (v : Word) : (c.setX r v).fovf = c.fovf := by unfold Ctx.setX; split <;> rfl
@[simp] theorem Ctx.setX_cki (c : Ctx) (r : XReg) (v : Word) : (c.setX r v).cki = c.cki := by unfold Ctx.setX; split <;> rfl
@[simp] theorem Ctx.setX_lq (c : Ctx) (r : XReg) (v : Word) : (c.setX r v).lq = c.lq := by unfold Ctx.setX; split <;> rfl
@[simp] theorem Ctx.setX_pdirty (c : Ctx) (r : XReg) (v : Word) : (c.setX r v).pdirty = c.pdirty := by unfold Ctx.setX; split <;> rfl
@[simp] theorem Ctx.setX_cycle (c : Ctx) (r : XReg) (v : Word) : (c.setX r v).cycle = c.cycle := by unfold Ctx.setX; split <;> rfl
@[simp] theorem Ctx.setX_nestidx (c : Ctx) (r : XReg) (v : Word) : (c.setX r v).nestidx = c.nestidx := by unfold Ctx.setX; split <;> rfl
@[simp] theorem Ctx.setX_bypassth (c : Ctx) (r : XReg) (v : Word) : (c.setX r v).bypassth = c.bypassth := by unfold Ctx.setX; split <;> rfl
@[simp] theorem Ctx.setX_urnshare (c : Ctx) (r : XReg) (v : Word) : (c.setX r v).urnshare = c.urnshare := by unfold Ctx.setX; split <;> rfl
@[simp] theorem Ctx.setX_loop (c : Ctx) (r : XReg) (v : Word) : (c.setX r v).loop = c.loop := by unfold Ctx.setX; split <;> rfl
@[simp] theorem Ctx.setX_plots (c : Ctx) (r : XReg) (v : Word) : (c.setX r v).plots = c.plots := by unfold Ctx.setX; split <;> rfl
@[simp] theorem Ctx.setX_masks (c : Ctx) (r : XReg) (v : Word) : (c.setX r v).masks = c.masks := by unfold Ctx.setX; split <;> rfl
@[simp] theorem Ctx.setX_fronts (c : Ctx) (r : XReg) (v : Word) : (c.setX r v).fronts = c.fronts := by unfold Ctx.setX; split <;> rfl
@[simp] theorem Ctx.setX_vq (c : Ctx) (r : XReg) (v : Word) : (c.setX r v).vq = c.vq := by unfold Ctx.setX; split <;> rfl
@[simp] theorem Ctx.setX_vqNext (c : Ctx) (r : XReg) (v : Word) : (c.setX r v).vqNext = c.vqNext := by unfold Ctx.setX; split <;> rfl
@[simp] theorem Ctx.setX_held (c : Ctx) (r : XReg) (v : Word) : (c.setX r v).held = c.held := by unfold Ctx.setX; split <;> rfl
@[simp] theorem Ctx.setX_convoy (c : Ctx) (r : XReg) (v : Word) : (c.setX r v).convoy = c.convoy := by unfold Ctx.setX; split <;> rfl
@[simp] theorem Ctx.setX_detach (c : Ctx) (r : XReg) (v : Word) : (c.setX r v).detach = c.detach := by unfold Ctx.setX; split <;> rfl
@[simp] theorem Ctx.setX_descs (c : Ctx) (r : XReg) (v : Word) : (c.setX r v).descs = c.descs := by unfold Ctx.setX; split <;> rfl
@[simp] theorem Ctx.setX_pins (c : Ctx) (r : XReg) (v : Word) : (c.setX r v).pins = c.pins := by unfold Ctx.setX; split <;> rfl
@[simp] theorem Ctx.setX_handles (c : Ctx) (r : XReg) (v : Word) : (c.setX r v).handles = c.handles := by unfold Ctx.setX; split <;> rfl
@[simp] theorem Ctx.setX_wait (c : Ctx) (r : XReg) (v : Word) : (c.setX r v).wait = c.wait := by unfold Ctx.setX; split <;> rfl
@[simp] theorem Ctx.setX_breaks (c : Ctx) (r : XReg) (v : Word) : (c.setX r v).breaks = c.breaks := by unfold Ctx.setX; split <;> rfl
@[simp] theorem Ctx.setX_unit (c : Ctx) (r : XReg) (v : Word) : (c.setX r v).unit = c.unit := by unfold Ctx.setX; split <;> rfl
@[simp] theorem Ctx.setX_passed (c : Ctx) (r : XReg) (v : Word) : (c.setX r v).passed = c.passed := by unfold Ctx.setX; split <;> rfl
@[simp] theorem Ctx.setX_unissued (c : Ctx) (r : XReg) (v : Word) : (c.setX r v).unissued = c.unissued := by unfold Ctx.setX; split <;> rfl
@[simp] theorem Ctx.setX_area (c : Ctx) (r : XReg) (v : Word) : (c.setX r v).area = c.area := by unfold Ctx.setX; split <;> rfl
@[simp] theorem Ctx.setX_awaits (c : Ctx) (r : XReg) (v : Word) : (c.setX r v).awaits = c.awaits := by unfold Ctx.setX; split <;> rfl

@[simp] theorem Ctx.setH_phase (c : Ctx) (r : HReg) (v : Word) : (c.setH r v).phase = c.phase := by unfold Ctx.setH; split <;> rfl
@[simp] theorem Ctx.setH_self (c : Ctx) (r : HReg) (v : Word) : (c.setH r v).self = c.self := by unfold Ctx.setH; split <;> rfl
@[simp] theorem Ctx.setH_lease (c : Ctx) (r : HReg) (v : Word) : (c.setH r v).lease = c.lease := by unfold Ctx.setH; split <;> rfl
@[simp] theorem Ctx.setH_sub (c : Ctx) (r : HReg) (v : Word) : (c.setH r v).sub = c.sub := by unfold Ctx.setH; split <;> rfl
@[simp] theorem Ctx.setH_nest (c : Ctx) (r : HReg) (v : Word) : (c.setH r v).nest = c.nest := by unfold Ctx.setH; split <;> rfl
@[simp] theorem Ctx.setH_x (c : Ctx) (r : HReg) (v : Word) : (c.setH r v).x = c.x := by unfold Ctx.setH; split <;> rfl
@[simp] theorem Ctx.setH_pc (c : Ctx) (r : HReg) (v : Word) : (c.setH r v).pc = c.pc := by unfold Ctx.setH; split <;> rfl
@[simp] theorem Ctx.setH_status (c : Ctx) (r : HReg) (v : Word) : (c.setH r v).status = c.status := by unfold Ctx.setH; split <;> rfl
@[simp] theorem Ctx.setH_tvec (c : Ctx) (r : HReg) (v : Word) : (c.setH r v).tvec = c.tvec := by unfold Ctx.setH; split <;> rfl
@[simp] theorem Ctx.setH_tpc (c : Ctx) (r : HReg) (v : Word) : (c.setH r v).tpc = c.tpc := by unfold Ctx.setH; split <;> rfl
@[simp] theorem Ctx.setH_tcause (c : Ctx) (r : HReg) (v : Word) : (c.setH r v).tcause = c.tcause := by unfold Ctx.setH; split <;> rfl
@[simp] theorem Ctx.setH_tval (c : Ctx) (r : HReg) (v : Word) : (c.setH r v).tval = c.tval := by unfold Ctx.setH; split <;> rfl
@[simp] theorem Ctx.setH_tqpos (c : Ctx) (r : HReg) (v : Word) : (c.setH r v).tqpos = c.tqpos := by unfold Ctx.setH; split <;> rfl
@[simp] theorem Ctx.setH_tplot (c : Ctx) (r : HReg) (v : Word) : (c.setH r v).tplot = c.tplot := by unfold Ctx.setH; split <;> rfl
@[simp] theorem Ctx.setH_tcell (c : Ctx) (r : HReg) (v : Word) : (c.setH r v).tcell = c.tcell := by unfold Ctx.setH; split <;> rfl
@[simp] theorem Ctx.setH_vstart (c : Ctx) (r : HReg) (v : Word) : (c.setH r v).vstart = c.vstart := by unfold Ctx.setH; split <;> rfl
@[simp] theorem Ctx.setH_tdeleg (c : Ctx) (r : HReg) (v : Word) : (c.setH r v).tdeleg = c.tdeleg := by unfold Ctx.setH; split <;> rfl
@[simp] theorem Ctx.setH_vl (c : Ctx) (r : HReg) (v : Word) : (c.setH r v).vl = c.vl := by unfold Ctx.setH; split <;> rfl
@[simp] theorem Ctx.setH_mvl (c : Ctx) (r : HReg) (v : Word) : (c.setH r v).mvl = c.mvl := by unfold Ctx.setH; split <;> rfl
@[simp] theorem Ctx.setH_vtype (c : Ctx) (r : HReg) (v : Word) : (c.setH r v).vtype = c.vtype := by unfold Ctx.setH; split <;> rfl
@[simp] theorem Ctx.setH_mfmt (c : Ctx) (r : HReg) (v : Word) : (c.setH r v).mfmt = c.mfmt := by unfold Ctx.setH; split <;> rfl
@[simp] theorem Ctx.setH_fill (c : Ctx) (r : HReg) (v : Word) : (c.setH r v).fill = c.fill := by unfold Ctx.setH; split <;> rfl
@[simp] theorem Ctx.setH_fcsr (c : Ctx) (r : HReg) (v : Word) : (c.setH r v).fcsr = c.fcsr := by unfold Ctx.setH; split <;> rfl
@[simp] theorem Ctx.setH_kvwin (c : Ctx) (r : HReg) (v : Word) : (c.setH r v).kvwin = c.kvwin := by unfold Ctx.setH; split <;> rfl
@[simp] theorem Ctx.setH_fovf (c : Ctx) (r : HReg) (v : Word) : (c.setH r v).fovf = c.fovf := by unfold Ctx.setH; split <;> rfl
@[simp] theorem Ctx.setH_cki (c : Ctx) (r : HReg) (v : Word) : (c.setH r v).cki = c.cki := by unfold Ctx.setH; split <;> rfl
@[simp] theorem Ctx.setH_lq (c : Ctx) (r : HReg) (v : Word) : (c.setH r v).lq = c.lq := by unfold Ctx.setH; split <;> rfl
@[simp] theorem Ctx.setH_pdirty (c : Ctx) (r : HReg) (v : Word) : (c.setH r v).pdirty = c.pdirty := by unfold Ctx.setH; split <;> rfl
@[simp] theorem Ctx.setH_cycle (c : Ctx) (r : HReg) (v : Word) : (c.setH r v).cycle = c.cycle := by unfold Ctx.setH; split <;> rfl
@[simp] theorem Ctx.setH_nestidx (c : Ctx) (r : HReg) (v : Word) : (c.setH r v).nestidx = c.nestidx := by unfold Ctx.setH; split <;> rfl
@[simp] theorem Ctx.setH_bypassth (c : Ctx) (r : HReg) (v : Word) : (c.setH r v).bypassth = c.bypassth := by unfold Ctx.setH; split <;> rfl
@[simp] theorem Ctx.setH_urnshare (c : Ctx) (r : HReg) (v : Word) : (c.setH r v).urnshare = c.urnshare := by unfold Ctx.setH; split <;> rfl
@[simp] theorem Ctx.setH_loop (c : Ctx) (r : HReg) (v : Word) : (c.setH r v).loop = c.loop := by unfold Ctx.setH; split <;> rfl
@[simp] theorem Ctx.setH_plots (c : Ctx) (r : HReg) (v : Word) : (c.setH r v).plots = c.plots := by unfold Ctx.setH; split <;> rfl
@[simp] theorem Ctx.setH_masks (c : Ctx) (r : HReg) (v : Word) : (c.setH r v).masks = c.masks := by unfold Ctx.setH; split <;> rfl
@[simp] theorem Ctx.setH_fronts (c : Ctx) (r : HReg) (v : Word) : (c.setH r v).fronts = c.fronts := by unfold Ctx.setH; split <;> rfl
@[simp] theorem Ctx.setH_vq (c : Ctx) (r : HReg) (v : Word) : (c.setH r v).vq = c.vq := by unfold Ctx.setH; split <;> rfl
@[simp] theorem Ctx.setH_vqNext (c : Ctx) (r : HReg) (v : Word) : (c.setH r v).vqNext = c.vqNext := by unfold Ctx.setH; split <;> rfl
@[simp] theorem Ctx.setH_held (c : Ctx) (r : HReg) (v : Word) : (c.setH r v).held = c.held := by unfold Ctx.setH; split <;> rfl
@[simp] theorem Ctx.setH_convoy (c : Ctx) (r : HReg) (v : Word) : (c.setH r v).convoy = c.convoy := by unfold Ctx.setH; split <;> rfl
@[simp] theorem Ctx.setH_detach (c : Ctx) (r : HReg) (v : Word) : (c.setH r v).detach = c.detach := by unfold Ctx.setH; split <;> rfl
@[simp] theorem Ctx.setH_descs (c : Ctx) (r : HReg) (v : Word) : (c.setH r v).descs = c.descs := by unfold Ctx.setH; split <;> rfl
@[simp] theorem Ctx.setH_pins (c : Ctx) (r : HReg) (v : Word) : (c.setH r v).pins = c.pins := by unfold Ctx.setH; split <;> rfl
@[simp] theorem Ctx.setH_handles (c : Ctx) (r : HReg) (v : Word) : (c.setH r v).handles = c.handles := by unfold Ctx.setH; split <;> rfl
@[simp] theorem Ctx.setH_wait (c : Ctx) (r : HReg) (v : Word) : (c.setH r v).wait = c.wait := by unfold Ctx.setH; split <;> rfl
@[simp] theorem Ctx.setH_breaks (c : Ctx) (r : HReg) (v : Word) : (c.setH r v).breaks = c.breaks := by unfold Ctx.setH; split <;> rfl
@[simp] theorem Ctx.setH_unit (c : Ctx) (r : HReg) (v : Word) : (c.setH r v).unit = c.unit := by unfold Ctx.setH; split <;> rfl
@[simp] theorem Ctx.setH_passed (c : Ctx) (r : HReg) (v : Word) : (c.setH r v).passed = c.passed := by unfold Ctx.setH; split <;> rfl
@[simp] theorem Ctx.setH_unissued (c : Ctx) (r : HReg) (v : Word) : (c.setH r v).unissued = c.unissued := by unfold Ctx.setH; split <;> rfl
@[simp] theorem Ctx.setH_area (c : Ctx) (r : HReg) (v : Word) : (c.setH r v).area = c.area := by unfold Ctx.setH; split <;> rfl
@[simp] theorem Ctx.setH_awaits (c : Ctx) (r : HReg) (v : Word) : (c.setH r v).awaits = c.awaits := by unfold Ctx.setH; split <;> rfl

@[simp] theorem Ctx.setMask_phase (c : Ctx) (m : MReg) (b : BitVec 4096) : (c.setMask m b).phase = c.phase := rfl
@[simp] theorem Ctx.setMask_self (c : Ctx) (m : MReg) (b : BitVec 4096) : (c.setMask m b).self = c.self := rfl
@[simp] theorem Ctx.setMask_lease (c : Ctx) (m : MReg) (b : BitVec 4096) : (c.setMask m b).lease = c.lease := rfl
@[simp] theorem Ctx.setMask_sub (c : Ctx) (m : MReg) (b : BitVec 4096) : (c.setMask m b).sub = c.sub := rfl
@[simp] theorem Ctx.setMask_nest (c : Ctx) (m : MReg) (b : BitVec 4096) : (c.setMask m b).nest = c.nest := rfl
@[simp] theorem Ctx.setMask_x (c : Ctx) (m : MReg) (b : BitVec 4096) : (c.setMask m b).x = c.x := rfl
@[simp] theorem Ctx.setMask_h (c : Ctx) (m : MReg) (b : BitVec 4096) : (c.setMask m b).h = c.h := rfl
@[simp] theorem Ctx.setMask_pc (c : Ctx) (m : MReg) (b : BitVec 4096) : (c.setMask m b).pc = c.pc := rfl
@[simp] theorem Ctx.setMask_status (c : Ctx) (m : MReg) (b : BitVec 4096) : (c.setMask m b).status = c.status := rfl
@[simp] theorem Ctx.setMask_tvec (c : Ctx) (m : MReg) (b : BitVec 4096) : (c.setMask m b).tvec = c.tvec := rfl
@[simp] theorem Ctx.setMask_tpc (c : Ctx) (m : MReg) (b : BitVec 4096) : (c.setMask m b).tpc = c.tpc := rfl
@[simp] theorem Ctx.setMask_tcause (c : Ctx) (m : MReg) (b : BitVec 4096) : (c.setMask m b).tcause = c.tcause := rfl
@[simp] theorem Ctx.setMask_tval (c : Ctx) (m : MReg) (b : BitVec 4096) : (c.setMask m b).tval = c.tval := rfl
@[simp] theorem Ctx.setMask_tqpos (c : Ctx) (m : MReg) (b : BitVec 4096) : (c.setMask m b).tqpos = c.tqpos := rfl
@[simp] theorem Ctx.setMask_tplot (c : Ctx) (m : MReg) (b : BitVec 4096) : (c.setMask m b).tplot = c.tplot := rfl
@[simp] theorem Ctx.setMask_tcell (c : Ctx) (m : MReg) (b : BitVec 4096) : (c.setMask m b).tcell = c.tcell := rfl
@[simp] theorem Ctx.setMask_vstart (c : Ctx) (m : MReg) (b : BitVec 4096) : (c.setMask m b).vstart = c.vstart := rfl
@[simp] theorem Ctx.setMask_tdeleg (c : Ctx) (m : MReg) (b : BitVec 4096) : (c.setMask m b).tdeleg = c.tdeleg := rfl
@[simp] theorem Ctx.setMask_vl (c : Ctx) (m : MReg) (b : BitVec 4096) : (c.setMask m b).vl = c.vl := rfl
@[simp] theorem Ctx.setMask_mvl (c : Ctx) (m : MReg) (b : BitVec 4096) : (c.setMask m b).mvl = c.mvl := rfl
@[simp] theorem Ctx.setMask_vtype (c : Ctx) (m : MReg) (b : BitVec 4096) : (c.setMask m b).vtype = c.vtype := rfl
@[simp] theorem Ctx.setMask_mfmt (c : Ctx) (m : MReg) (b : BitVec 4096) : (c.setMask m b).mfmt = c.mfmt := rfl
@[simp] theorem Ctx.setMask_fill (c : Ctx) (m : MReg) (b : BitVec 4096) : (c.setMask m b).fill = c.fill := rfl
@[simp] theorem Ctx.setMask_fcsr (c : Ctx) (m : MReg) (b : BitVec 4096) : (c.setMask m b).fcsr = c.fcsr := rfl
@[simp] theorem Ctx.setMask_kvwin (c : Ctx) (m : MReg) (b : BitVec 4096) : (c.setMask m b).kvwin = c.kvwin := rfl
@[simp] theorem Ctx.setMask_fovf (c : Ctx) (m : MReg) (b : BitVec 4096) : (c.setMask m b).fovf = c.fovf := rfl
@[simp] theorem Ctx.setMask_cki (c : Ctx) (m : MReg) (b : BitVec 4096) : (c.setMask m b).cki = c.cki := rfl
@[simp] theorem Ctx.setMask_lq (c : Ctx) (m : MReg) (b : BitVec 4096) : (c.setMask m b).lq = c.lq := rfl
@[simp] theorem Ctx.setMask_pdirty (c : Ctx) (m : MReg) (b : BitVec 4096) : (c.setMask m b).pdirty = c.pdirty := rfl
@[simp] theorem Ctx.setMask_cycle (c : Ctx) (m : MReg) (b : BitVec 4096) : (c.setMask m b).cycle = c.cycle := rfl
@[simp] theorem Ctx.setMask_nestidx (c : Ctx) (m : MReg) (b : BitVec 4096) : (c.setMask m b).nestidx = c.nestidx := rfl
@[simp] theorem Ctx.setMask_bypassth (c : Ctx) (m : MReg) (b : BitVec 4096) : (c.setMask m b).bypassth = c.bypassth := rfl
@[simp] theorem Ctx.setMask_urnshare (c : Ctx) (m : MReg) (b : BitVec 4096) : (c.setMask m b).urnshare = c.urnshare := rfl
@[simp] theorem Ctx.setMask_loop (c : Ctx) (m : MReg) (b : BitVec 4096) : (c.setMask m b).loop = c.loop := rfl
@[simp] theorem Ctx.setMask_plots (c : Ctx) (m : MReg) (b : BitVec 4096) : (c.setMask m b).plots = c.plots := rfl
@[simp] theorem Ctx.setMask_fronts (c : Ctx) (m : MReg) (b : BitVec 4096) : (c.setMask m b).fronts = c.fronts := rfl
@[simp] theorem Ctx.setMask_vq (c : Ctx) (m : MReg) (b : BitVec 4096) : (c.setMask m b).vq = c.vq := rfl
@[simp] theorem Ctx.setMask_vqNext (c : Ctx) (m : MReg) (b : BitVec 4096) : (c.setMask m b).vqNext = c.vqNext := rfl
@[simp] theorem Ctx.setMask_held (c : Ctx) (m : MReg) (b : BitVec 4096) : (c.setMask m b).held = c.held := rfl
@[simp] theorem Ctx.setMask_convoy (c : Ctx) (m : MReg) (b : BitVec 4096) : (c.setMask m b).convoy = c.convoy := rfl
@[simp] theorem Ctx.setMask_detach (c : Ctx) (m : MReg) (b : BitVec 4096) : (c.setMask m b).detach = c.detach := rfl
@[simp] theorem Ctx.setMask_descs (c : Ctx) (m : MReg) (b : BitVec 4096) : (c.setMask m b).descs = c.descs := rfl
@[simp] theorem Ctx.setMask_pins (c : Ctx) (m : MReg) (b : BitVec 4096) : (c.setMask m b).pins = c.pins := rfl
@[simp] theorem Ctx.setMask_handles (c : Ctx) (m : MReg) (b : BitVec 4096) : (c.setMask m b).handles = c.handles := rfl
@[simp] theorem Ctx.setMask_wait (c : Ctx) (m : MReg) (b : BitVec 4096) : (c.setMask m b).wait = c.wait := rfl
@[simp] theorem Ctx.setMask_breaks (c : Ctx) (m : MReg) (b : BitVec 4096) : (c.setMask m b).breaks = c.breaks := rfl
@[simp] theorem Ctx.setMask_unit (c : Ctx) (m : MReg) (b : BitVec 4096) : (c.setMask m b).unit = c.unit := rfl
@[simp] theorem Ctx.setMask_passed (c : Ctx) (m : MReg) (b : BitVec 4096) : (c.setMask m b).passed = c.passed := rfl
@[simp] theorem Ctx.setMask_unissued (c : Ctx) (m : MReg) (b : BitVec 4096) : (c.setMask m b).unissued = c.unissued := rfl
@[simp] theorem Ctx.setMask_area (c : Ctx) (m : MReg) (b : BitVec 4096) : (c.setMask m b).area = c.area := rfl
@[simp] theorem Ctx.setMask_awaits (c : Ctx) (m : MReg) (b : BitVec 4096) : (c.setMask m b).awaits = c.awaits := rfl

@[simp] theorem Ctx.setPlot_phase (c : Ctx) (v : VReg) (e : Word) : (c.setPlot v e).phase = c.phase := rfl
@[simp] theorem Ctx.setPlot_self (c : Ctx) (v : VReg) (e : Word) : (c.setPlot v e).self = c.self := rfl
@[simp] theorem Ctx.setPlot_lease (c : Ctx) (v : VReg) (e : Word) : (c.setPlot v e).lease = c.lease := rfl
@[simp] theorem Ctx.setPlot_sub (c : Ctx) (v : VReg) (e : Word) : (c.setPlot v e).sub = c.sub := rfl
@[simp] theorem Ctx.setPlot_nest (c : Ctx) (v : VReg) (e : Word) : (c.setPlot v e).nest = c.nest := rfl
@[simp] theorem Ctx.setPlot_x (c : Ctx) (v : VReg) (e : Word) : (c.setPlot v e).x = c.x := rfl
@[simp] theorem Ctx.setPlot_h (c : Ctx) (v : VReg) (e : Word) : (c.setPlot v e).h = c.h := rfl
@[simp] theorem Ctx.setPlot_pc (c : Ctx) (v : VReg) (e : Word) : (c.setPlot v e).pc = c.pc := rfl
@[simp] theorem Ctx.setPlot_status (c : Ctx) (v : VReg) (e : Word) : (c.setPlot v e).status = c.status := rfl
@[simp] theorem Ctx.setPlot_tvec (c : Ctx) (v : VReg) (e : Word) : (c.setPlot v e).tvec = c.tvec := rfl
@[simp] theorem Ctx.setPlot_tpc (c : Ctx) (v : VReg) (e : Word) : (c.setPlot v e).tpc = c.tpc := rfl
@[simp] theorem Ctx.setPlot_tcause (c : Ctx) (v : VReg) (e : Word) : (c.setPlot v e).tcause = c.tcause := rfl
@[simp] theorem Ctx.setPlot_tval (c : Ctx) (v : VReg) (e : Word) : (c.setPlot v e).tval = c.tval := rfl
@[simp] theorem Ctx.setPlot_tqpos (c : Ctx) (v : VReg) (e : Word) : (c.setPlot v e).tqpos = c.tqpos := rfl
@[simp] theorem Ctx.setPlot_tplot (c : Ctx) (v : VReg) (e : Word) : (c.setPlot v e).tplot = c.tplot := rfl
@[simp] theorem Ctx.setPlot_tcell (c : Ctx) (v : VReg) (e : Word) : (c.setPlot v e).tcell = c.tcell := rfl
@[simp] theorem Ctx.setPlot_vstart (c : Ctx) (v : VReg) (e : Word) : (c.setPlot v e).vstart = c.vstart := rfl
@[simp] theorem Ctx.setPlot_tdeleg (c : Ctx) (v : VReg) (e : Word) : (c.setPlot v e).tdeleg = c.tdeleg := rfl
@[simp] theorem Ctx.setPlot_vl (c : Ctx) (v : VReg) (e : Word) : (c.setPlot v e).vl = c.vl := rfl
@[simp] theorem Ctx.setPlot_mvl (c : Ctx) (v : VReg) (e : Word) : (c.setPlot v e).mvl = c.mvl := rfl
@[simp] theorem Ctx.setPlot_vtype (c : Ctx) (v : VReg) (e : Word) : (c.setPlot v e).vtype = c.vtype := rfl
@[simp] theorem Ctx.setPlot_mfmt (c : Ctx) (v : VReg) (e : Word) : (c.setPlot v e).mfmt = c.mfmt := rfl
@[simp] theorem Ctx.setPlot_fill (c : Ctx) (v : VReg) (e : Word) : (c.setPlot v e).fill = c.fill := rfl
@[simp] theorem Ctx.setPlot_fcsr (c : Ctx) (v : VReg) (e : Word) : (c.setPlot v e).fcsr = c.fcsr := rfl
@[simp] theorem Ctx.setPlot_kvwin (c : Ctx) (v : VReg) (e : Word) : (c.setPlot v e).kvwin = c.kvwin := rfl
@[simp] theorem Ctx.setPlot_fovf (c : Ctx) (v : VReg) (e : Word) : (c.setPlot v e).fovf = c.fovf := rfl
@[simp] theorem Ctx.setPlot_cki (c : Ctx) (v : VReg) (e : Word) : (c.setPlot v e).cki = c.cki := rfl
@[simp] theorem Ctx.setPlot_lq (c : Ctx) (v : VReg) (e : Word) : (c.setPlot v e).lq = c.lq := rfl
@[simp] theorem Ctx.setPlot_pdirty (c : Ctx) (v : VReg) (e : Word) : (c.setPlot v e).pdirty = c.pdirty := rfl
@[simp] theorem Ctx.setPlot_cycle (c : Ctx) (v : VReg) (e : Word) : (c.setPlot v e).cycle = c.cycle := rfl
@[simp] theorem Ctx.setPlot_nestidx (c : Ctx) (v : VReg) (e : Word) : (c.setPlot v e).nestidx = c.nestidx := rfl
@[simp] theorem Ctx.setPlot_bypassth (c : Ctx) (v : VReg) (e : Word) : (c.setPlot v e).bypassth = c.bypassth := rfl
@[simp] theorem Ctx.setPlot_urnshare (c : Ctx) (v : VReg) (e : Word) : (c.setPlot v e).urnshare = c.urnshare := rfl
@[simp] theorem Ctx.setPlot_loop (c : Ctx) (v : VReg) (e : Word) : (c.setPlot v e).loop = c.loop := rfl
@[simp] theorem Ctx.setPlot_masks (c : Ctx) (v : VReg) (e : Word) : (c.setPlot v e).masks = c.masks := rfl
@[simp] theorem Ctx.setPlot_fronts (c : Ctx) (v : VReg) (e : Word) : (c.setPlot v e).fronts = c.fronts := rfl
@[simp] theorem Ctx.setPlot_vq (c : Ctx) (v : VReg) (e : Word) : (c.setPlot v e).vq = c.vq := rfl
@[simp] theorem Ctx.setPlot_vqNext (c : Ctx) (v : VReg) (e : Word) : (c.setPlot v e).vqNext = c.vqNext := rfl
@[simp] theorem Ctx.setPlot_held (c : Ctx) (v : VReg) (e : Word) : (c.setPlot v e).held = c.held := rfl
@[simp] theorem Ctx.setPlot_convoy (c : Ctx) (v : VReg) (e : Word) : (c.setPlot v e).convoy = c.convoy := rfl
@[simp] theorem Ctx.setPlot_detach (c : Ctx) (v : VReg) (e : Word) : (c.setPlot v e).detach = c.detach := rfl
@[simp] theorem Ctx.setPlot_descs (c : Ctx) (v : VReg) (e : Word) : (c.setPlot v e).descs = c.descs := rfl
@[simp] theorem Ctx.setPlot_pins (c : Ctx) (v : VReg) (e : Word) : (c.setPlot v e).pins = c.pins := rfl
@[simp] theorem Ctx.setPlot_handles (c : Ctx) (v : VReg) (e : Word) : (c.setPlot v e).handles = c.handles := rfl
@[simp] theorem Ctx.setPlot_wait (c : Ctx) (v : VReg) (e : Word) : (c.setPlot v e).wait = c.wait := rfl
@[simp] theorem Ctx.setPlot_breaks (c : Ctx) (v : VReg) (e : Word) : (c.setPlot v e).breaks = c.breaks := rfl
@[simp] theorem Ctx.setPlot_unit (c : Ctx) (v : VReg) (e : Word) : (c.setPlot v e).unit = c.unit := rfl
@[simp] theorem Ctx.setPlot_passed (c : Ctx) (v : VReg) (e : Word) : (c.setPlot v e).passed = c.passed := rfl
@[simp] theorem Ctx.setPlot_unissued (c : Ctx) (v : VReg) (e : Word) : (c.setPlot v e).unissued = c.unissued := rfl
@[simp] theorem Ctx.setPlot_area (c : Ctx) (v : VReg) (e : Word) : (c.setPlot v e).area = c.area := rfl
@[simp] theorem Ctx.setPlot_awaits (c : Ctx) (v : VReg) (e : Word) : (c.setPlot v e).awaits = c.awaits := rfl

@[simp] theorem Ctx.setFront_phase (c : Ctx) (f : FReg) (x : Front) : (c.setFront f x).phase = c.phase := rfl
@[simp] theorem Ctx.setFront_self (c : Ctx) (f : FReg) (x : Front) : (c.setFront f x).self = c.self := rfl
@[simp] theorem Ctx.setFront_lease (c : Ctx) (f : FReg) (x : Front) : (c.setFront f x).lease = c.lease := rfl
@[simp] theorem Ctx.setFront_sub (c : Ctx) (f : FReg) (x : Front) : (c.setFront f x).sub = c.sub := rfl
@[simp] theorem Ctx.setFront_nest (c : Ctx) (f : FReg) (x : Front) : (c.setFront f x).nest = c.nest := rfl
@[simp] theorem Ctx.setFront_x (c : Ctx) (f : FReg) (x : Front) : (c.setFront f x).x = c.x := rfl
@[simp] theorem Ctx.setFront_h (c : Ctx) (f : FReg) (x : Front) : (c.setFront f x).h = c.h := rfl
@[simp] theorem Ctx.setFront_pc (c : Ctx) (f : FReg) (x : Front) : (c.setFront f x).pc = c.pc := rfl
@[simp] theorem Ctx.setFront_status (c : Ctx) (f : FReg) (x : Front) : (c.setFront f x).status = c.status := rfl
@[simp] theorem Ctx.setFront_tvec (c : Ctx) (f : FReg) (x : Front) : (c.setFront f x).tvec = c.tvec := rfl
@[simp] theorem Ctx.setFront_tpc (c : Ctx) (f : FReg) (x : Front) : (c.setFront f x).tpc = c.tpc := rfl
@[simp] theorem Ctx.setFront_tcause (c : Ctx) (f : FReg) (x : Front) : (c.setFront f x).tcause = c.tcause := rfl
@[simp] theorem Ctx.setFront_tval (c : Ctx) (f : FReg) (x : Front) : (c.setFront f x).tval = c.tval := rfl
@[simp] theorem Ctx.setFront_tqpos (c : Ctx) (f : FReg) (x : Front) : (c.setFront f x).tqpos = c.tqpos := rfl
@[simp] theorem Ctx.setFront_tplot (c : Ctx) (f : FReg) (x : Front) : (c.setFront f x).tplot = c.tplot := rfl
@[simp] theorem Ctx.setFront_tcell (c : Ctx) (f : FReg) (x : Front) : (c.setFront f x).tcell = c.tcell := rfl
@[simp] theorem Ctx.setFront_vstart (c : Ctx) (f : FReg) (x : Front) : (c.setFront f x).vstart = c.vstart := rfl
@[simp] theorem Ctx.setFront_tdeleg (c : Ctx) (f : FReg) (x : Front) : (c.setFront f x).tdeleg = c.tdeleg := rfl
@[simp] theorem Ctx.setFront_vl (c : Ctx) (f : FReg) (x : Front) : (c.setFront f x).vl = c.vl := rfl
@[simp] theorem Ctx.setFront_mvl (c : Ctx) (f : FReg) (x : Front) : (c.setFront f x).mvl = c.mvl := rfl
@[simp] theorem Ctx.setFront_vtype (c : Ctx) (f : FReg) (x : Front) : (c.setFront f x).vtype = c.vtype := rfl
@[simp] theorem Ctx.setFront_mfmt (c : Ctx) (f : FReg) (x : Front) : (c.setFront f x).mfmt = c.mfmt := rfl
@[simp] theorem Ctx.setFront_fill (c : Ctx) (f : FReg) (x : Front) : (c.setFront f x).fill = c.fill := rfl
@[simp] theorem Ctx.setFront_fcsr (c : Ctx) (f : FReg) (x : Front) : (c.setFront f x).fcsr = c.fcsr := rfl
@[simp] theorem Ctx.setFront_kvwin (c : Ctx) (f : FReg) (x : Front) : (c.setFront f x).kvwin = c.kvwin := rfl
@[simp] theorem Ctx.setFront_fovf (c : Ctx) (f : FReg) (x : Front) : (c.setFront f x).fovf = c.fovf := rfl
@[simp] theorem Ctx.setFront_cki (c : Ctx) (f : FReg) (x : Front) : (c.setFront f x).cki = c.cki := rfl
@[simp] theorem Ctx.setFront_lq (c : Ctx) (f : FReg) (x : Front) : (c.setFront f x).lq = c.lq := rfl
@[simp] theorem Ctx.setFront_pdirty (c : Ctx) (f : FReg) (x : Front) : (c.setFront f x).pdirty = c.pdirty := rfl
@[simp] theorem Ctx.setFront_cycle (c : Ctx) (f : FReg) (x : Front) : (c.setFront f x).cycle = c.cycle := rfl
@[simp] theorem Ctx.setFront_nestidx (c : Ctx) (f : FReg) (x : Front) : (c.setFront f x).nestidx = c.nestidx := rfl
@[simp] theorem Ctx.setFront_bypassth (c : Ctx) (f : FReg) (x : Front) : (c.setFront f x).bypassth = c.bypassth := rfl
@[simp] theorem Ctx.setFront_urnshare (c : Ctx) (f : FReg) (x : Front) : (c.setFront f x).urnshare = c.urnshare := rfl
@[simp] theorem Ctx.setFront_loop (c : Ctx) (f : FReg) (x : Front) : (c.setFront f x).loop = c.loop := rfl
@[simp] theorem Ctx.setFront_plots (c : Ctx) (f : FReg) (x : Front) : (c.setFront f x).plots = c.plots := rfl
@[simp] theorem Ctx.setFront_masks (c : Ctx) (f : FReg) (x : Front) : (c.setFront f x).masks = c.masks := rfl
@[simp] theorem Ctx.setFront_vq (c : Ctx) (f : FReg) (x : Front) : (c.setFront f x).vq = c.vq := rfl
@[simp] theorem Ctx.setFront_vqNext (c : Ctx) (f : FReg) (x : Front) : (c.setFront f x).vqNext = c.vqNext := rfl
@[simp] theorem Ctx.setFront_held (c : Ctx) (f : FReg) (x : Front) : (c.setFront f x).held = c.held := rfl
@[simp] theorem Ctx.setFront_convoy (c : Ctx) (f : FReg) (x : Front) : (c.setFront f x).convoy = c.convoy := rfl
@[simp] theorem Ctx.setFront_detach (c : Ctx) (f : FReg) (x : Front) : (c.setFront f x).detach = c.detach := rfl
@[simp] theorem Ctx.setFront_descs (c : Ctx) (f : FReg) (x : Front) : (c.setFront f x).descs = c.descs := rfl
@[simp] theorem Ctx.setFront_pins (c : Ctx) (f : FReg) (x : Front) : (c.setFront f x).pins = c.pins := rfl
@[simp] theorem Ctx.setFront_handles (c : Ctx) (f : FReg) (x : Front) : (c.setFront f x).handles = c.handles := rfl
@[simp] theorem Ctx.setFront_wait (c : Ctx) (f : FReg) (x : Front) : (c.setFront f x).wait = c.wait := rfl
@[simp] theorem Ctx.setFront_breaks (c : Ctx) (f : FReg) (x : Front) : (c.setFront f x).breaks = c.breaks := rfl
@[simp] theorem Ctx.setFront_unit (c : Ctx) (f : FReg) (x : Front) : (c.setFront f x).unit = c.unit := rfl
@[simp] theorem Ctx.setFront_passed (c : Ctx) (f : FReg) (x : Front) : (c.setFront f x).passed = c.passed := rfl
@[simp] theorem Ctx.setFront_unissued (c : Ctx) (f : FReg) (x : Front) : (c.setFront f x).unissued = c.unissued := rfl
@[simp] theorem Ctx.setFront_area (c : Ctx) (f : FReg) (x : Front) : (c.setFront f x).area = c.area := rfl
@[simp] theorem Ctx.setFront_awaits (c : Ctx) (f : FReg) (x : Front) : (c.setFront f x).awaits = c.awaits := rfl

@[simp] theorem Ctx.addCki_phase (c : Ctx) (b : Nat) : (c.addCki b).phase = c.phase := rfl
@[simp] theorem Ctx.addCki_self (c : Ctx) (b : Nat) : (c.addCki b).self = c.self := rfl
@[simp] theorem Ctx.addCki_lease (c : Ctx) (b : Nat) : (c.addCki b).lease = c.lease := rfl
@[simp] theorem Ctx.addCki_sub (c : Ctx) (b : Nat) : (c.addCki b).sub = c.sub := rfl
@[simp] theorem Ctx.addCki_nest (c : Ctx) (b : Nat) : (c.addCki b).nest = c.nest := rfl
@[simp] theorem Ctx.addCki_x (c : Ctx) (b : Nat) : (c.addCki b).x = c.x := rfl
@[simp] theorem Ctx.addCki_h (c : Ctx) (b : Nat) : (c.addCki b).h = c.h := rfl
@[simp] theorem Ctx.addCki_pc (c : Ctx) (b : Nat) : (c.addCki b).pc = c.pc := rfl
@[simp] theorem Ctx.addCki_status (c : Ctx) (b : Nat) : (c.addCki b).status = c.status := rfl
@[simp] theorem Ctx.addCki_tvec (c : Ctx) (b : Nat) : (c.addCki b).tvec = c.tvec := rfl
@[simp] theorem Ctx.addCki_tpc (c : Ctx) (b : Nat) : (c.addCki b).tpc = c.tpc := rfl
@[simp] theorem Ctx.addCki_tcause (c : Ctx) (b : Nat) : (c.addCki b).tcause = c.tcause := rfl
@[simp] theorem Ctx.addCki_tval (c : Ctx) (b : Nat) : (c.addCki b).tval = c.tval := rfl
@[simp] theorem Ctx.addCki_tqpos (c : Ctx) (b : Nat) : (c.addCki b).tqpos = c.tqpos := rfl
@[simp] theorem Ctx.addCki_tplot (c : Ctx) (b : Nat) : (c.addCki b).tplot = c.tplot := rfl
@[simp] theorem Ctx.addCki_tcell (c : Ctx) (b : Nat) : (c.addCki b).tcell = c.tcell := rfl
@[simp] theorem Ctx.addCki_vstart (c : Ctx) (b : Nat) : (c.addCki b).vstart = c.vstart := rfl
@[simp] theorem Ctx.addCki_tdeleg (c : Ctx) (b : Nat) : (c.addCki b).tdeleg = c.tdeleg := rfl
@[simp] theorem Ctx.addCki_vl (c : Ctx) (b : Nat) : (c.addCki b).vl = c.vl := rfl
@[simp] theorem Ctx.addCki_mvl (c : Ctx) (b : Nat) : (c.addCki b).mvl = c.mvl := rfl
@[simp] theorem Ctx.addCki_vtype (c : Ctx) (b : Nat) : (c.addCki b).vtype = c.vtype := rfl
@[simp] theorem Ctx.addCki_mfmt (c : Ctx) (b : Nat) : (c.addCki b).mfmt = c.mfmt := rfl
@[simp] theorem Ctx.addCki_fill (c : Ctx) (b : Nat) : (c.addCki b).fill = c.fill := rfl
@[simp] theorem Ctx.addCki_fcsr (c : Ctx) (b : Nat) : (c.addCki b).fcsr = c.fcsr := rfl
@[simp] theorem Ctx.addCki_kvwin (c : Ctx) (b : Nat) : (c.addCki b).kvwin = c.kvwin := rfl
@[simp] theorem Ctx.addCki_fovf (c : Ctx) (b : Nat) : (c.addCki b).fovf = c.fovf := rfl
@[simp] theorem Ctx.addCki_lq (c : Ctx) (b : Nat) : (c.addCki b).lq = c.lq := rfl
@[simp] theorem Ctx.addCki_pdirty (c : Ctx) (b : Nat) : (c.addCki b).pdirty = c.pdirty := rfl
@[simp] theorem Ctx.addCki_cycle (c : Ctx) (b : Nat) : (c.addCki b).cycle = c.cycle := rfl
@[simp] theorem Ctx.addCki_nestidx (c : Ctx) (b : Nat) : (c.addCki b).nestidx = c.nestidx := rfl
@[simp] theorem Ctx.addCki_bypassth (c : Ctx) (b : Nat) : (c.addCki b).bypassth = c.bypassth := rfl
@[simp] theorem Ctx.addCki_urnshare (c : Ctx) (b : Nat) : (c.addCki b).urnshare = c.urnshare := rfl
@[simp] theorem Ctx.addCki_loop (c : Ctx) (b : Nat) : (c.addCki b).loop = c.loop := rfl
@[simp] theorem Ctx.addCki_plots (c : Ctx) (b : Nat) : (c.addCki b).plots = c.plots := rfl
@[simp] theorem Ctx.addCki_masks (c : Ctx) (b : Nat) : (c.addCki b).masks = c.masks := rfl
@[simp] theorem Ctx.addCki_fronts (c : Ctx) (b : Nat) : (c.addCki b).fronts = c.fronts := rfl
@[simp] theorem Ctx.addCki_vq (c : Ctx) (b : Nat) : (c.addCki b).vq = c.vq := rfl
@[simp] theorem Ctx.addCki_vqNext (c : Ctx) (b : Nat) : (c.addCki b).vqNext = c.vqNext := rfl
@[simp] theorem Ctx.addCki_held (c : Ctx) (b : Nat) : (c.addCki b).held = c.held := rfl
@[simp] theorem Ctx.addCki_convoy (c : Ctx) (b : Nat) : (c.addCki b).convoy = c.convoy := rfl
@[simp] theorem Ctx.addCki_detach (c : Ctx) (b : Nat) : (c.addCki b).detach = c.detach := rfl
@[simp] theorem Ctx.addCki_descs (c : Ctx) (b : Nat) : (c.addCki b).descs = c.descs := rfl
@[simp] theorem Ctx.addCki_pins (c : Ctx) (b : Nat) : (c.addCki b).pins = c.pins := rfl
@[simp] theorem Ctx.addCki_handles (c : Ctx) (b : Nat) : (c.addCki b).handles = c.handles := rfl
@[simp] theorem Ctx.addCki_wait (c : Ctx) (b : Nat) : (c.addCki b).wait = c.wait := rfl
@[simp] theorem Ctx.addCki_breaks (c : Ctx) (b : Nat) : (c.addCki b).breaks = c.breaks := rfl
@[simp] theorem Ctx.addCki_unit (c : Ctx) (b : Nat) : (c.addCki b).unit = c.unit := rfl
@[simp] theorem Ctx.addCki_passed (c : Ctx) (b : Nat) : (c.addCki b).passed = c.passed := rfl
@[simp] theorem Ctx.addCki_unissued (c : Ctx) (b : Nat) : (c.addCki b).unissued = c.unissued := rfl
@[simp] theorem Ctx.addCki_area (c : Ctx) (b : Nat) : (c.addCki b).area = c.area := rfl
@[simp] theorem Ctx.addCki_awaits (c : Ctx) (b : Nat) : (c.addCki b).awaits = c.awaits := rfl

@[simp] theorem Ctx.addFlags_phase (c : Ctx) (f : BitVec 5) : (c.addFlags f).phase = c.phase := rfl
@[simp] theorem Ctx.addFlags_self (c : Ctx) (f : BitVec 5) : (c.addFlags f).self = c.self := rfl
@[simp] theorem Ctx.addFlags_lease (c : Ctx) (f : BitVec 5) : (c.addFlags f).lease = c.lease := rfl
@[simp] theorem Ctx.addFlags_sub (c : Ctx) (f : BitVec 5) : (c.addFlags f).sub = c.sub := rfl
@[simp] theorem Ctx.addFlags_nest (c : Ctx) (f : BitVec 5) : (c.addFlags f).nest = c.nest := rfl
@[simp] theorem Ctx.addFlags_x (c : Ctx) (f : BitVec 5) : (c.addFlags f).x = c.x := rfl
@[simp] theorem Ctx.addFlags_h (c : Ctx) (f : BitVec 5) : (c.addFlags f).h = c.h := rfl
@[simp] theorem Ctx.addFlags_pc (c : Ctx) (f : BitVec 5) : (c.addFlags f).pc = c.pc := rfl
@[simp] theorem Ctx.addFlags_status (c : Ctx) (f : BitVec 5) : (c.addFlags f).status = c.status := rfl
@[simp] theorem Ctx.addFlags_tvec (c : Ctx) (f : BitVec 5) : (c.addFlags f).tvec = c.tvec := rfl
@[simp] theorem Ctx.addFlags_tpc (c : Ctx) (f : BitVec 5) : (c.addFlags f).tpc = c.tpc := rfl
@[simp] theorem Ctx.addFlags_tcause (c : Ctx) (f : BitVec 5) : (c.addFlags f).tcause = c.tcause := rfl
@[simp] theorem Ctx.addFlags_tval (c : Ctx) (f : BitVec 5) : (c.addFlags f).tval = c.tval := rfl
@[simp] theorem Ctx.addFlags_tqpos (c : Ctx) (f : BitVec 5) : (c.addFlags f).tqpos = c.tqpos := rfl
@[simp] theorem Ctx.addFlags_tplot (c : Ctx) (f : BitVec 5) : (c.addFlags f).tplot = c.tplot := rfl
@[simp] theorem Ctx.addFlags_tcell (c : Ctx) (f : BitVec 5) : (c.addFlags f).tcell = c.tcell := rfl
@[simp] theorem Ctx.addFlags_vstart (c : Ctx) (f : BitVec 5) : (c.addFlags f).vstart = c.vstart := rfl
@[simp] theorem Ctx.addFlags_tdeleg (c : Ctx) (f : BitVec 5) : (c.addFlags f).tdeleg = c.tdeleg := rfl
@[simp] theorem Ctx.addFlags_vl (c : Ctx) (f : BitVec 5) : (c.addFlags f).vl = c.vl := rfl
@[simp] theorem Ctx.addFlags_mvl (c : Ctx) (f : BitVec 5) : (c.addFlags f).mvl = c.mvl := rfl
@[simp] theorem Ctx.addFlags_vtype (c : Ctx) (f : BitVec 5) : (c.addFlags f).vtype = c.vtype := rfl
@[simp] theorem Ctx.addFlags_mfmt (c : Ctx) (f : BitVec 5) : (c.addFlags f).mfmt = c.mfmt := rfl
@[simp] theorem Ctx.addFlags_fill (c : Ctx) (f : BitVec 5) : (c.addFlags f).fill = c.fill := rfl
@[simp] theorem Ctx.addFlags_kvwin (c : Ctx) (f : BitVec 5) : (c.addFlags f).kvwin = c.kvwin := rfl
@[simp] theorem Ctx.addFlags_fovf (c : Ctx) (f : BitVec 5) : (c.addFlags f).fovf = c.fovf := rfl
@[simp] theorem Ctx.addFlags_cki (c : Ctx) (f : BitVec 5) : (c.addFlags f).cki = c.cki := rfl
@[simp] theorem Ctx.addFlags_lq (c : Ctx) (f : BitVec 5) : (c.addFlags f).lq = c.lq := rfl
@[simp] theorem Ctx.addFlags_pdirty (c : Ctx) (f : BitVec 5) : (c.addFlags f).pdirty = c.pdirty := rfl
@[simp] theorem Ctx.addFlags_cycle (c : Ctx) (f : BitVec 5) : (c.addFlags f).cycle = c.cycle := rfl
@[simp] theorem Ctx.addFlags_nestidx (c : Ctx) (f : BitVec 5) : (c.addFlags f).nestidx = c.nestidx := rfl
@[simp] theorem Ctx.addFlags_bypassth (c : Ctx) (f : BitVec 5) : (c.addFlags f).bypassth = c.bypassth := rfl
@[simp] theorem Ctx.addFlags_urnshare (c : Ctx) (f : BitVec 5) : (c.addFlags f).urnshare = c.urnshare := rfl
@[simp] theorem Ctx.addFlags_loop (c : Ctx) (f : BitVec 5) : (c.addFlags f).loop = c.loop := rfl
@[simp] theorem Ctx.addFlags_plots (c : Ctx) (f : BitVec 5) : (c.addFlags f).plots = c.plots := rfl
@[simp] theorem Ctx.addFlags_masks (c : Ctx) (f : BitVec 5) : (c.addFlags f).masks = c.masks := rfl
@[simp] theorem Ctx.addFlags_fronts (c : Ctx) (f : BitVec 5) : (c.addFlags f).fronts = c.fronts := rfl
@[simp] theorem Ctx.addFlags_vq (c : Ctx) (f : BitVec 5) : (c.addFlags f).vq = c.vq := rfl
@[simp] theorem Ctx.addFlags_vqNext (c : Ctx) (f : BitVec 5) : (c.addFlags f).vqNext = c.vqNext := rfl
@[simp] theorem Ctx.addFlags_held (c : Ctx) (f : BitVec 5) : (c.addFlags f).held = c.held := rfl
@[simp] theorem Ctx.addFlags_convoy (c : Ctx) (f : BitVec 5) : (c.addFlags f).convoy = c.convoy := rfl
@[simp] theorem Ctx.addFlags_detach (c : Ctx) (f : BitVec 5) : (c.addFlags f).detach = c.detach := rfl
@[simp] theorem Ctx.addFlags_descs (c : Ctx) (f : BitVec 5) : (c.addFlags f).descs = c.descs := rfl
@[simp] theorem Ctx.addFlags_pins (c : Ctx) (f : BitVec 5) : (c.addFlags f).pins = c.pins := rfl
@[simp] theorem Ctx.addFlags_handles (c : Ctx) (f : BitVec 5) : (c.addFlags f).handles = c.handles := rfl
@[simp] theorem Ctx.addFlags_wait (c : Ctx) (f : BitVec 5) : (c.addFlags f).wait = c.wait := rfl
@[simp] theorem Ctx.addFlags_breaks (c : Ctx) (f : BitVec 5) : (c.addFlags f).breaks = c.breaks := rfl
@[simp] theorem Ctx.addFlags_unit (c : Ctx) (f : BitVec 5) : (c.addFlags f).unit = c.unit := rfl
@[simp] theorem Ctx.addFlags_passed (c : Ctx) (f : BitVec 5) : (c.addFlags f).passed = c.passed := rfl
@[simp] theorem Ctx.addFlags_unissued (c : Ctx) (f : BitVec 5) : (c.addFlags f).unissued = c.unissued := rfl
@[simp] theorem Ctx.addFlags_area (c : Ctx) (f : BitVec 5) : (c.addFlags f).area = c.area := rfl
@[simp] theorem Ctx.addFlags_awaits (c : Ctx) (f : BitVec 5) : (c.addFlags f).awaits = c.awaits := rfl

@[simp] theorem Ctx.addFlags_fcsr (c : Ctx) (f : BitVec 5) : (c.addFlags f).fcsr = c.fcsr ||| f.zeroExtend 64 := rfl

/-! The machine. -/

@[simp] theorem State.modCtx_node (s : State) (f : Ctx → Ctx) : (s.modCtx f).node = s.node := rfl
@[simp] theorem State.modCtx_others (s : State) (f : Ctx → Ctx) : (s.modCtx f).others = s.others := rfl
@[simp] theorem State.modCtx_lane (s : State) (f : Ctx → Ctx) : (s.modCtx f).lane = s.lane := rfl
@[simp] theorem State.modCtx_enc (s : State) (f : Ctx → Ctx) : (s.modCtx f).enc = s.enc := rfl
@[simp] theorem State.modCtx_arg (s : State) (f : Ctx → Ctx) : (s.modCtx f).arg = s.arg := rfl
@[simp] theorem State.modCtx_cores (s : State) (f : Ctx → Ctx) : (s.modCtx f).cores = s.cores := rfl
@[simp] theorem State.modCtx_mills (s : State) (f : Ctx → Ctx) : (s.modCtx f).mills = s.mills := rfl
@[simp] theorem State.modCtx_dies (s : State) (f : Ctx → Ctx) : (s.modCtx f).dies = s.dies := rfl
@[simp] theorem State.modCtx_mem (s : State) (f : Ctx → Ctx) : (s.modCtx f).mem = s.mem := rfl
@[simp] theorem State.modCtx_poison (s : State) (f : Ctx → Ctx) : (s.modCtx f).poison = s.poison := rfl
@[simp] theorem State.modCtx_dramErr (s : State) (f : Ctx → Ctx) : (s.modCtx f).dramErr = s.dramErr := rfl
@[simp] theorem State.modCtx_latent (s : State) (f : Ctx → Ctx) : (s.modCtx f).latent = s.latent := rfl
@[simp] theorem State.modCtx_tlb (s : State) (f : Ctx → Ctx) : (s.modCtx f).tlb = s.tlb := rfl
@[simp] theorem State.modCtx_walks (s : State) (f : Ctx → Ctx) : (s.modCtx f).walks = s.walks := rfl
@[simp] theorem State.modCtx_ops (s : State) (f : Ctx → Ctx) : (s.modCtx f).ops = s.ops := rfl
@[simp] theorem State.modCtx_colls (s : State) (f : Ctx → Ctx) : (s.modCtx f).colls = s.colls := rfl
@[simp] theorem State.modCtx_peers (s : State) (f : Ctx → Ctx) : (s.modCtx f).peers = s.peers := rfl
@[simp] theorem State.modCtx_gleans (s : State) (f : Ctx → Ctx) : (s.modCtx f).gleans = s.gleans := rfl
@[simp] theorem State.modCtx_nests (s : State) (f : Ctx → Ctx) : (s.modCtx f).nests = s.nests := rfl
@[simp] theorem State.modCtx_reeve (s : State) (f : Ctx → Ctx) : (s.modCtx f).reeve = s.reeve := rfl
@[simp] theorem State.modCtx_ccs (s : State) (f : Ctx → Ctx) : (s.modCtx f).ccs = s.ccs := rfl
@[simp] theorem State.modCtx_ue (s : State) (f : Ctx → Ctx) : (s.modCtx f).ue = s.ue := rfl
@[simp] theorem State.modCtx_replies (s : State) (f : Ctx → Ctx) : (s.modCtx f).replies = s.replies := rfl
@[simp] theorem State.modCtx_time (s : State) (f : Ctx → Ctx) : (s.modCtx f).time = s.time := rfl
@[simp] theorem State.modCtx_agenda (s : State) (f : Ctx → Ctx) : (s.modCtx f).agenda = s.agenda := rfl
@[simp] theorem State.modCtx_pend (s : State) (f : Ctx → Ctx) : (s.modCtx f).pend = s.pend := rfl
@[simp] theorem State.modCtx_yielded (s : State) (f : Ctx → Ctx) : (s.modCtx f).yielded = s.yielded := rfl
@[simp] theorem State.modCtx_streak (s : State) (f : Ctx → Ctx) : (s.modCtx f).streak = s.streak := rfl
@[simp] theorem State.modCtx_freeCtr (s : State) (f : Ctx → Ctx) : (s.modCtx f).freeCtr = s.freeCtr := rfl
@[simp] theorem State.modCtx_nextId (s : State) (f : Ctx → Ctx) : (s.modCtx f).nextId = s.nextId := rfl

@[simp] theorem State.modCtx_ctx (s : State) (f : Ctx → Ctx) : (s.modCtx f).ctx = f s.ctx := rfl

@[simp] theorem State.setCore_node (s : State) (n : Nat) (c : Core) : (s.setCore n c).node = s.node := rfl
@[simp] theorem State.setCore_ctx (s : State) (n : Nat) (c : Core) : (s.setCore n c).ctx = s.ctx := rfl
@[simp] theorem State.setCore_others (s : State) (n : Nat) (c : Core) : (s.setCore n c).others = s.others := rfl
@[simp] theorem State.setCore_lane (s : State) (n : Nat) (c : Core) : (s.setCore n c).lane = s.lane := rfl
@[simp] theorem State.setCore_enc (s : State) (n : Nat) (c : Core) : (s.setCore n c).enc = s.enc := rfl
@[simp] theorem State.setCore_arg (s : State) (n : Nat) (c : Core) : (s.setCore n c).arg = s.arg := rfl
@[simp] theorem State.setCore_mills (s : State) (n : Nat) (c : Core) : (s.setCore n c).mills = s.mills := rfl
@[simp] theorem State.setCore_dies (s : State) (n : Nat) (c : Core) : (s.setCore n c).dies = s.dies := rfl
@[simp] theorem State.setCore_mem (s : State) (n : Nat) (c : Core) : (s.setCore n c).mem = s.mem := rfl
@[simp] theorem State.setCore_poison (s : State) (n : Nat) (c : Core) : (s.setCore n c).poison = s.poison := rfl
@[simp] theorem State.setCore_dramErr (s : State) (n : Nat) (c : Core) : (s.setCore n c).dramErr = s.dramErr := rfl
@[simp] theorem State.setCore_latent (s : State) (n : Nat) (c : Core) : (s.setCore n c).latent = s.latent := rfl
@[simp] theorem State.setCore_tlb (s : State) (n : Nat) (c : Core) : (s.setCore n c).tlb = s.tlb := rfl
@[simp] theorem State.setCore_walks (s : State) (n : Nat) (c : Core) : (s.setCore n c).walks = s.walks := rfl
@[simp] theorem State.setCore_ops (s : State) (n : Nat) (c : Core) : (s.setCore n c).ops = s.ops := rfl
@[simp] theorem State.setCore_colls (s : State) (n : Nat) (c : Core) : (s.setCore n c).colls = s.colls := rfl
@[simp] theorem State.setCore_peers (s : State) (n : Nat) (c : Core) : (s.setCore n c).peers = s.peers := rfl
@[simp] theorem State.setCore_gleans (s : State) (n : Nat) (c : Core) : (s.setCore n c).gleans = s.gleans := rfl
@[simp] theorem State.setCore_nests (s : State) (n : Nat) (c : Core) : (s.setCore n c).nests = s.nests := rfl
@[simp] theorem State.setCore_reeve (s : State) (n : Nat) (c : Core) : (s.setCore n c).reeve = s.reeve := rfl
@[simp] theorem State.setCore_ccs (s : State) (n : Nat) (c : Core) : (s.setCore n c).ccs = s.ccs := rfl
@[simp] theorem State.setCore_ue (s : State) (n : Nat) (c : Core) : (s.setCore n c).ue = s.ue := rfl
@[simp] theorem State.setCore_replies (s : State) (n : Nat) (c : Core) : (s.setCore n c).replies = s.replies := rfl
@[simp] theorem State.setCore_time (s : State) (n : Nat) (c : Core) : (s.setCore n c).time = s.time := rfl
@[simp] theorem State.setCore_agenda (s : State) (n : Nat) (c : Core) : (s.setCore n c).agenda = s.agenda := rfl
@[simp] theorem State.setCore_pend (s : State) (n : Nat) (c : Core) : (s.setCore n c).pend = s.pend := rfl
@[simp] theorem State.setCore_yielded (s : State) (n : Nat) (c : Core) : (s.setCore n c).yielded = s.yielded := rfl
@[simp] theorem State.setCore_streak (s : State) (n : Nat) (c : Core) : (s.setCore n c).streak = s.streak := rfl
@[simp] theorem State.setCore_freeCtr (s : State) (n : Nat) (c : Core) : (s.setCore n c).freeCtr = s.freeCtr := rfl
@[simp] theorem State.setCore_nextId (s : State) (n : Nat) (c : Core) : (s.setCore n c).nextId = s.nextId := rfl

@[simp] theorem State.modCore_node (s : State) (n : Nat) (f : Core → Core) : (s.modCore n f).node = s.node := rfl
@[simp] theorem State.modCore_ctx (s : State) (n : Nat) (f : Core → Core) : (s.modCore n f).ctx = s.ctx := rfl
@[simp] theorem State.modCore_others (s : State) (n : Nat) (f : Core → Core) : (s.modCore n f).others = s.others := rfl
@[simp] theorem State.modCore_lane (s : State) (n : Nat) (f : Core → Core) : (s.modCore n f).lane = s.lane := rfl
@[simp] theorem State.modCore_enc (s : State) (n : Nat) (f : Core → Core) : (s.modCore n f).enc = s.enc := rfl
@[simp] theorem State.modCore_arg (s : State) (n : Nat) (f : Core → Core) : (s.modCore n f).arg = s.arg := rfl
@[simp] theorem State.modCore_mills (s : State) (n : Nat) (f : Core → Core) : (s.modCore n f).mills = s.mills := rfl
@[simp] theorem State.modCore_dies (s : State) (n : Nat) (f : Core → Core) : (s.modCore n f).dies = s.dies := rfl
@[simp] theorem State.modCore_mem (s : State) (n : Nat) (f : Core → Core) : (s.modCore n f).mem = s.mem := rfl
@[simp] theorem State.modCore_poison (s : State) (n : Nat) (f : Core → Core) : (s.modCore n f).poison = s.poison := rfl
@[simp] theorem State.modCore_dramErr (s : State) (n : Nat) (f : Core → Core) : (s.modCore n f).dramErr = s.dramErr := rfl
@[simp] theorem State.modCore_latent (s : State) (n : Nat) (f : Core → Core) : (s.modCore n f).latent = s.latent := rfl
@[simp] theorem State.modCore_tlb (s : State) (n : Nat) (f : Core → Core) : (s.modCore n f).tlb = s.tlb := rfl
@[simp] theorem State.modCore_walks (s : State) (n : Nat) (f : Core → Core) : (s.modCore n f).walks = s.walks := rfl
@[simp] theorem State.modCore_ops (s : State) (n : Nat) (f : Core → Core) : (s.modCore n f).ops = s.ops := rfl
@[simp] theorem State.modCore_colls (s : State) (n : Nat) (f : Core → Core) : (s.modCore n f).colls = s.colls := rfl
@[simp] theorem State.modCore_peers (s : State) (n : Nat) (f : Core → Core) : (s.modCore n f).peers = s.peers := rfl
@[simp] theorem State.modCore_gleans (s : State) (n : Nat) (f : Core → Core) : (s.modCore n f).gleans = s.gleans := rfl
@[simp] theorem State.modCore_nests (s : State) (n : Nat) (f : Core → Core) : (s.modCore n f).nests = s.nests := rfl
@[simp] theorem State.modCore_reeve (s : State) (n : Nat) (f : Core → Core) : (s.modCore n f).reeve = s.reeve := rfl
@[simp] theorem State.modCore_ccs (s : State) (n : Nat) (f : Core → Core) : (s.modCore n f).ccs = s.ccs := rfl
@[simp] theorem State.modCore_ue (s : State) (n : Nat) (f : Core → Core) : (s.modCore n f).ue = s.ue := rfl
@[simp] theorem State.modCore_replies (s : State) (n : Nat) (f : Core → Core) : (s.modCore n f).replies = s.replies := rfl
@[simp] theorem State.modCore_time (s : State) (n : Nat) (f : Core → Core) : (s.modCore n f).time = s.time := rfl
@[simp] theorem State.modCore_agenda (s : State) (n : Nat) (f : Core → Core) : (s.modCore n f).agenda = s.agenda := rfl
@[simp] theorem State.modCore_pend (s : State) (n : Nat) (f : Core → Core) : (s.modCore n f).pend = s.pend := rfl
@[simp] theorem State.modCore_yielded (s : State) (n : Nat) (f : Core → Core) : (s.modCore n f).yielded = s.yielded := rfl
@[simp] theorem State.modCore_streak (s : State) (n : Nat) (f : Core → Core) : (s.modCore n f).streak = s.streak := rfl
@[simp] theorem State.modCore_freeCtr (s : State) (n : Nat) (f : Core → Core) : (s.modCore n f).freeCtr = s.freeCtr := rfl
@[simp] theorem State.modCore_nextId (s : State) (n : Nat) (f : Core → Core) : (s.modCore n f).nextId = s.nextId := rfl

@[simp] theorem State.modMyFe_node (s : State) (g : FrontEnd → FrontEnd) : (s.modMyFe g).node = s.node := rfl
@[simp] theorem State.modMyFe_ctx (s : State) (g : FrontEnd → FrontEnd) : (s.modMyFe g).ctx = s.ctx := rfl
@[simp] theorem State.modMyFe_others (s : State) (g : FrontEnd → FrontEnd) : (s.modMyFe g).others = s.others := rfl
@[simp] theorem State.modMyFe_lane (s : State) (g : FrontEnd → FrontEnd) : (s.modMyFe g).lane = s.lane := rfl
@[simp] theorem State.modMyFe_enc (s : State) (g : FrontEnd → FrontEnd) : (s.modMyFe g).enc = s.enc := rfl
@[simp] theorem State.modMyFe_arg (s : State) (g : FrontEnd → FrontEnd) : (s.modMyFe g).arg = s.arg := rfl
@[simp] theorem State.modMyFe_mills (s : State) (g : FrontEnd → FrontEnd) : (s.modMyFe g).mills = s.mills := rfl
@[simp] theorem State.modMyFe_dies (s : State) (g : FrontEnd → FrontEnd) : (s.modMyFe g).dies = s.dies := rfl
@[simp] theorem State.modMyFe_mem (s : State) (g : FrontEnd → FrontEnd) : (s.modMyFe g).mem = s.mem := rfl
@[simp] theorem State.modMyFe_poison (s : State) (g : FrontEnd → FrontEnd) : (s.modMyFe g).poison = s.poison := rfl
@[simp] theorem State.modMyFe_dramErr (s : State) (g : FrontEnd → FrontEnd) : (s.modMyFe g).dramErr = s.dramErr := rfl
@[simp] theorem State.modMyFe_latent (s : State) (g : FrontEnd → FrontEnd) : (s.modMyFe g).latent = s.latent := rfl
@[simp] theorem State.modMyFe_tlb (s : State) (g : FrontEnd → FrontEnd) : (s.modMyFe g).tlb = s.tlb := rfl
@[simp] theorem State.modMyFe_walks (s : State) (g : FrontEnd → FrontEnd) : (s.modMyFe g).walks = s.walks := rfl
@[simp] theorem State.modMyFe_ops (s : State) (g : FrontEnd → FrontEnd) : (s.modMyFe g).ops = s.ops := rfl
@[simp] theorem State.modMyFe_colls (s : State) (g : FrontEnd → FrontEnd) : (s.modMyFe g).colls = s.colls := rfl
@[simp] theorem State.modMyFe_peers (s : State) (g : FrontEnd → FrontEnd) : (s.modMyFe g).peers = s.peers := rfl
@[simp] theorem State.modMyFe_gleans (s : State) (g : FrontEnd → FrontEnd) : (s.modMyFe g).gleans = s.gleans := rfl
@[simp] theorem State.modMyFe_nests (s : State) (g : FrontEnd → FrontEnd) : (s.modMyFe g).nests = s.nests := rfl
@[simp] theorem State.modMyFe_reeve (s : State) (g : FrontEnd → FrontEnd) : (s.modMyFe g).reeve = s.reeve := rfl
@[simp] theorem State.modMyFe_ccs (s : State) (g : FrontEnd → FrontEnd) : (s.modMyFe g).ccs = s.ccs := rfl
@[simp] theorem State.modMyFe_ue (s : State) (g : FrontEnd → FrontEnd) : (s.modMyFe g).ue = s.ue := rfl
@[simp] theorem State.modMyFe_replies (s : State) (g : FrontEnd → FrontEnd) : (s.modMyFe g).replies = s.replies := rfl
@[simp] theorem State.modMyFe_time (s : State) (g : FrontEnd → FrontEnd) : (s.modMyFe g).time = s.time := rfl
@[simp] theorem State.modMyFe_agenda (s : State) (g : FrontEnd → FrontEnd) : (s.modMyFe g).agenda = s.agenda := rfl
@[simp] theorem State.modMyFe_pend (s : State) (g : FrontEnd → FrontEnd) : (s.modMyFe g).pend = s.pend := rfl
@[simp] theorem State.modMyFe_yielded (s : State) (g : FrontEnd → FrontEnd) : (s.modMyFe g).yielded = s.yielded := rfl
@[simp] theorem State.modMyFe_streak (s : State) (g : FrontEnd → FrontEnd) : (s.modMyFe g).streak = s.streak := rfl
@[simp] theorem State.modMyFe_freeCtr (s : State) (g : FrontEnd → FrontEnd) : (s.modMyFe g).freeCtr = s.freeCtr := rfl
@[simp] theorem State.modMyFe_nextId (s : State) (g : FrontEnd → FrontEnd) : (s.modMyFe g).nextId = s.nextId := rfl

@[simp] theorem State.setMill_node (s : State) (n : Nat) (m : Mill) : (s.setMill n m).node = s.node := rfl
@[simp] theorem State.setMill_ctx (s : State) (n : Nat) (m : Mill) : (s.setMill n m).ctx = s.ctx := rfl
@[simp] theorem State.setMill_others (s : State) (n : Nat) (m : Mill) : (s.setMill n m).others = s.others := rfl
@[simp] theorem State.setMill_lane (s : State) (n : Nat) (m : Mill) : (s.setMill n m).lane = s.lane := rfl
@[simp] theorem State.setMill_enc (s : State) (n : Nat) (m : Mill) : (s.setMill n m).enc = s.enc := rfl
@[simp] theorem State.setMill_arg (s : State) (n : Nat) (m : Mill) : (s.setMill n m).arg = s.arg := rfl
@[simp] theorem State.setMill_cores (s : State) (n : Nat) (m : Mill) : (s.setMill n m).cores = s.cores := rfl
@[simp] theorem State.setMill_dies (s : State) (n : Nat) (m : Mill) : (s.setMill n m).dies = s.dies := rfl
@[simp] theorem State.setMill_mem (s : State) (n : Nat) (m : Mill) : (s.setMill n m).mem = s.mem := rfl
@[simp] theorem State.setMill_poison (s : State) (n : Nat) (m : Mill) : (s.setMill n m).poison = s.poison := rfl
@[simp] theorem State.setMill_dramErr (s : State) (n : Nat) (m : Mill) : (s.setMill n m).dramErr = s.dramErr := rfl
@[simp] theorem State.setMill_latent (s : State) (n : Nat) (m : Mill) : (s.setMill n m).latent = s.latent := rfl
@[simp] theorem State.setMill_tlb (s : State) (n : Nat) (m : Mill) : (s.setMill n m).tlb = s.tlb := rfl
@[simp] theorem State.setMill_walks (s : State) (n : Nat) (m : Mill) : (s.setMill n m).walks = s.walks := rfl
@[simp] theorem State.setMill_ops (s : State) (n : Nat) (m : Mill) : (s.setMill n m).ops = s.ops := rfl
@[simp] theorem State.setMill_colls (s : State) (n : Nat) (m : Mill) : (s.setMill n m).colls = s.colls := rfl
@[simp] theorem State.setMill_peers (s : State) (n : Nat) (m : Mill) : (s.setMill n m).peers = s.peers := rfl
@[simp] theorem State.setMill_gleans (s : State) (n : Nat) (m : Mill) : (s.setMill n m).gleans = s.gleans := rfl
@[simp] theorem State.setMill_nests (s : State) (n : Nat) (m : Mill) : (s.setMill n m).nests = s.nests := rfl
@[simp] theorem State.setMill_reeve (s : State) (n : Nat) (m : Mill) : (s.setMill n m).reeve = s.reeve := rfl
@[simp] theorem State.setMill_ccs (s : State) (n : Nat) (m : Mill) : (s.setMill n m).ccs = s.ccs := rfl
@[simp] theorem State.setMill_ue (s : State) (n : Nat) (m : Mill) : (s.setMill n m).ue = s.ue := rfl
@[simp] theorem State.setMill_replies (s : State) (n : Nat) (m : Mill) : (s.setMill n m).replies = s.replies := rfl
@[simp] theorem State.setMill_time (s : State) (n : Nat) (m : Mill) : (s.setMill n m).time = s.time := rfl
@[simp] theorem State.setMill_agenda (s : State) (n : Nat) (m : Mill) : (s.setMill n m).agenda = s.agenda := rfl
@[simp] theorem State.setMill_pend (s : State) (n : Nat) (m : Mill) : (s.setMill n m).pend = s.pend := rfl
@[simp] theorem State.setMill_yielded (s : State) (n : Nat) (m : Mill) : (s.setMill n m).yielded = s.yielded := rfl
@[simp] theorem State.setMill_streak (s : State) (n : Nat) (m : Mill) : (s.setMill n m).streak = s.streak := rfl
@[simp] theorem State.setMill_freeCtr (s : State) (n : Nat) (m : Mill) : (s.setMill n m).freeCtr = s.freeCtr := rfl
@[simp] theorem State.setMill_nextId (s : State) (n : Nat) (m : Mill) : (s.setMill n m).nextId = s.nextId := rfl

@[simp] theorem State.setDie_node (s : State) (d : BitVec 2) (x : Die) : (s.setDie d x).node = s.node := rfl
@[simp] theorem State.setDie_ctx (s : State) (d : BitVec 2) (x : Die) : (s.setDie d x).ctx = s.ctx := rfl
@[simp] theorem State.setDie_others (s : State) (d : BitVec 2) (x : Die) : (s.setDie d x).others = s.others := rfl
@[simp] theorem State.setDie_lane (s : State) (d : BitVec 2) (x : Die) : (s.setDie d x).lane = s.lane := rfl
@[simp] theorem State.setDie_enc (s : State) (d : BitVec 2) (x : Die) : (s.setDie d x).enc = s.enc := rfl
@[simp] theorem State.setDie_arg (s : State) (d : BitVec 2) (x : Die) : (s.setDie d x).arg = s.arg := rfl
@[simp] theorem State.setDie_cores (s : State) (d : BitVec 2) (x : Die) : (s.setDie d x).cores = s.cores := rfl
@[simp] theorem State.setDie_mills (s : State) (d : BitVec 2) (x : Die) : (s.setDie d x).mills = s.mills := rfl
@[simp] theorem State.setDie_mem (s : State) (d : BitVec 2) (x : Die) : (s.setDie d x).mem = s.mem := rfl
@[simp] theorem State.setDie_poison (s : State) (d : BitVec 2) (x : Die) : (s.setDie d x).poison = s.poison := rfl
@[simp] theorem State.setDie_dramErr (s : State) (d : BitVec 2) (x : Die) : (s.setDie d x).dramErr = s.dramErr := rfl
@[simp] theorem State.setDie_latent (s : State) (d : BitVec 2) (x : Die) : (s.setDie d x).latent = s.latent := rfl
@[simp] theorem State.setDie_tlb (s : State) (d : BitVec 2) (x : Die) : (s.setDie d x).tlb = s.tlb := rfl
@[simp] theorem State.setDie_walks (s : State) (d : BitVec 2) (x : Die) : (s.setDie d x).walks = s.walks := rfl
@[simp] theorem State.setDie_ops (s : State) (d : BitVec 2) (x : Die) : (s.setDie d x).ops = s.ops := rfl
@[simp] theorem State.setDie_colls (s : State) (d : BitVec 2) (x : Die) : (s.setDie d x).colls = s.colls := rfl
@[simp] theorem State.setDie_peers (s : State) (d : BitVec 2) (x : Die) : (s.setDie d x).peers = s.peers := rfl
@[simp] theorem State.setDie_gleans (s : State) (d : BitVec 2) (x : Die) : (s.setDie d x).gleans = s.gleans := rfl
@[simp] theorem State.setDie_nests (s : State) (d : BitVec 2) (x : Die) : (s.setDie d x).nests = s.nests := rfl
@[simp] theorem State.setDie_reeve (s : State) (d : BitVec 2) (x : Die) : (s.setDie d x).reeve = s.reeve := rfl
@[simp] theorem State.setDie_ccs (s : State) (d : BitVec 2) (x : Die) : (s.setDie d x).ccs = s.ccs := rfl
@[simp] theorem State.setDie_ue (s : State) (d : BitVec 2) (x : Die) : (s.setDie d x).ue = s.ue := rfl
@[simp] theorem State.setDie_replies (s : State) (d : BitVec 2) (x : Die) : (s.setDie d x).replies = s.replies := rfl
@[simp] theorem State.setDie_time (s : State) (d : BitVec 2) (x : Die) : (s.setDie d x).time = s.time := rfl
@[simp] theorem State.setDie_agenda (s : State) (d : BitVec 2) (x : Die) : (s.setDie d x).agenda = s.agenda := rfl
@[simp] theorem State.setDie_pend (s : State) (d : BitVec 2) (x : Die) : (s.setDie d x).pend = s.pend := rfl
@[simp] theorem State.setDie_yielded (s : State) (d : BitVec 2) (x : Die) : (s.setDie d x).yielded = s.yielded := rfl
@[simp] theorem State.setDie_streak (s : State) (d : BitVec 2) (x : Die) : (s.setDie d x).streak = s.streak := rfl
@[simp] theorem State.setDie_freeCtr (s : State) (d : BitVec 2) (x : Die) : (s.setDie d x).freeCtr = s.freeCtr := rfl
@[simp] theorem State.setDie_nextId (s : State) (d : BitVec 2) (x : Die) : (s.setDie d x).nextId = s.nextId := rfl

@[simp] theorem State.modDie_node (s : State) (d : BitVec 2) (f : Die → Die) : (s.modDie d f).node = s.node := rfl
@[simp] theorem State.modDie_ctx (s : State) (d : BitVec 2) (f : Die → Die) : (s.modDie d f).ctx = s.ctx := rfl
@[simp] theorem State.modDie_others (s : State) (d : BitVec 2) (f : Die → Die) : (s.modDie d f).others = s.others := rfl
@[simp] theorem State.modDie_lane (s : State) (d : BitVec 2) (f : Die → Die) : (s.modDie d f).lane = s.lane := rfl
@[simp] theorem State.modDie_enc (s : State) (d : BitVec 2) (f : Die → Die) : (s.modDie d f).enc = s.enc := rfl
@[simp] theorem State.modDie_arg (s : State) (d : BitVec 2) (f : Die → Die) : (s.modDie d f).arg = s.arg := rfl
@[simp] theorem State.modDie_cores (s : State) (d : BitVec 2) (f : Die → Die) : (s.modDie d f).cores = s.cores := rfl
@[simp] theorem State.modDie_mills (s : State) (d : BitVec 2) (f : Die → Die) : (s.modDie d f).mills = s.mills := rfl
@[simp] theorem State.modDie_mem (s : State) (d : BitVec 2) (f : Die → Die) : (s.modDie d f).mem = s.mem := rfl
@[simp] theorem State.modDie_poison (s : State) (d : BitVec 2) (f : Die → Die) : (s.modDie d f).poison = s.poison := rfl
@[simp] theorem State.modDie_dramErr (s : State) (d : BitVec 2) (f : Die → Die) : (s.modDie d f).dramErr = s.dramErr := rfl
@[simp] theorem State.modDie_latent (s : State) (d : BitVec 2) (f : Die → Die) : (s.modDie d f).latent = s.latent := rfl
@[simp] theorem State.modDie_tlb (s : State) (d : BitVec 2) (f : Die → Die) : (s.modDie d f).tlb = s.tlb := rfl
@[simp] theorem State.modDie_walks (s : State) (d : BitVec 2) (f : Die → Die) : (s.modDie d f).walks = s.walks := rfl
@[simp] theorem State.modDie_ops (s : State) (d : BitVec 2) (f : Die → Die) : (s.modDie d f).ops = s.ops := rfl
@[simp] theorem State.modDie_colls (s : State) (d : BitVec 2) (f : Die → Die) : (s.modDie d f).colls = s.colls := rfl
@[simp] theorem State.modDie_peers (s : State) (d : BitVec 2) (f : Die → Die) : (s.modDie d f).peers = s.peers := rfl
@[simp] theorem State.modDie_gleans (s : State) (d : BitVec 2) (f : Die → Die) : (s.modDie d f).gleans = s.gleans := rfl
@[simp] theorem State.modDie_nests (s : State) (d : BitVec 2) (f : Die → Die) : (s.modDie d f).nests = s.nests := rfl
@[simp] theorem State.modDie_reeve (s : State) (d : BitVec 2) (f : Die → Die) : (s.modDie d f).reeve = s.reeve := rfl
@[simp] theorem State.modDie_ccs (s : State) (d : BitVec 2) (f : Die → Die) : (s.modDie d f).ccs = s.ccs := rfl
@[simp] theorem State.modDie_ue (s : State) (d : BitVec 2) (f : Die → Die) : (s.modDie d f).ue = s.ue := rfl
@[simp] theorem State.modDie_replies (s : State) (d : BitVec 2) (f : Die → Die) : (s.modDie d f).replies = s.replies := rfl
@[simp] theorem State.modDie_time (s : State) (d : BitVec 2) (f : Die → Die) : (s.modDie d f).time = s.time := rfl
@[simp] theorem State.modDie_agenda (s : State) (d : BitVec 2) (f : Die → Die) : (s.modDie d f).agenda = s.agenda := rfl
@[simp] theorem State.modDie_pend (s : State) (d : BitVec 2) (f : Die → Die) : (s.modDie d f).pend = s.pend := rfl
@[simp] theorem State.modDie_yielded (s : State) (d : BitVec 2) (f : Die → Die) : (s.modDie d f).yielded = s.yielded := rfl
@[simp] theorem State.modDie_streak (s : State) (d : BitVec 2) (f : Die → Die) : (s.modDie d f).streak = s.streak := rfl
@[simp] theorem State.modDie_freeCtr (s : State) (d : BitVec 2) (f : Die → Die) : (s.modDie d f).freeCtr = s.freeCtr := rfl
@[simp] theorem State.modDie_nextId (s : State) (d : BitVec 2) (f : Die → Die) : (s.modDie d f).nextId = s.nextId := rfl

@[simp] theorem State.post_node (s : State) (i : Instr) (a : EventArg) : (s.post i a).node = s.node := rfl
@[simp] theorem State.post_ctx (s : State) (i : Instr) (a : EventArg) : (s.post i a).ctx = s.ctx := rfl
@[simp] theorem State.post_others (s : State) (i : Instr) (a : EventArg) : (s.post i a).others = s.others := rfl
@[simp] theorem State.post_lane (s : State) (i : Instr) (a : EventArg) : (s.post i a).lane = s.lane := rfl
@[simp] theorem State.post_enc (s : State) (i : Instr) (a : EventArg) : (s.post i a).enc = s.enc := rfl
@[simp] theorem State.post_arg (s : State) (i : Instr) (a : EventArg) : (s.post i a).arg = s.arg := rfl
@[simp] theorem State.post_cores (s : State) (i : Instr) (a : EventArg) : (s.post i a).cores = s.cores := rfl
@[simp] theorem State.post_mills (s : State) (i : Instr) (a : EventArg) : (s.post i a).mills = s.mills := rfl
@[simp] theorem State.post_dies (s : State) (i : Instr) (a : EventArg) : (s.post i a).dies = s.dies := rfl
@[simp] theorem State.post_mem (s : State) (i : Instr) (a : EventArg) : (s.post i a).mem = s.mem := rfl
@[simp] theorem State.post_poison (s : State) (i : Instr) (a : EventArg) : (s.post i a).poison = s.poison := rfl
@[simp] theorem State.post_dramErr (s : State) (i : Instr) (a : EventArg) : (s.post i a).dramErr = s.dramErr := rfl
@[simp] theorem State.post_latent (s : State) (i : Instr) (a : EventArg) : (s.post i a).latent = s.latent := rfl
@[simp] theorem State.post_tlb (s : State) (i : Instr) (a : EventArg) : (s.post i a).tlb = s.tlb := rfl
@[simp] theorem State.post_walks (s : State) (i : Instr) (a : EventArg) : (s.post i a).walks = s.walks := rfl
@[simp] theorem State.post_ops (s : State) (i : Instr) (a : EventArg) : (s.post i a).ops = s.ops := rfl
@[simp] theorem State.post_colls (s : State) (i : Instr) (a : EventArg) : (s.post i a).colls = s.colls := rfl
@[simp] theorem State.post_peers (s : State) (i : Instr) (a : EventArg) : (s.post i a).peers = s.peers := rfl
@[simp] theorem State.post_gleans (s : State) (i : Instr) (a : EventArg) : (s.post i a).gleans = s.gleans := rfl
@[simp] theorem State.post_nests (s : State) (i : Instr) (a : EventArg) : (s.post i a).nests = s.nests := rfl
@[simp] theorem State.post_reeve (s : State) (i : Instr) (a : EventArg) : (s.post i a).reeve = s.reeve := rfl
@[simp] theorem State.post_ccs (s : State) (i : Instr) (a : EventArg) : (s.post i a).ccs = s.ccs := rfl
@[simp] theorem State.post_ue (s : State) (i : Instr) (a : EventArg) : (s.post i a).ue = s.ue := rfl
@[simp] theorem State.post_replies (s : State) (i : Instr) (a : EventArg) : (s.post i a).replies = s.replies := rfl
@[simp] theorem State.post_time (s : State) (i : Instr) (a : EventArg) : (s.post i a).time = s.time := rfl
@[simp] theorem State.post_agenda (s : State) (i : Instr) (a : EventArg) : (s.post i a).agenda = s.agenda := rfl
@[simp] theorem State.post_yielded (s : State) (i : Instr) (a : EventArg) : (s.post i a).yielded = s.yielded := rfl
@[simp] theorem State.post_streak (s : State) (i : Instr) (a : EventArg) : (s.post i a).streak = s.streak := rfl
@[simp] theorem State.post_freeCtr (s : State) (i : Instr) (a : EventArg) : (s.post i a).freeCtr = s.freeCtr := rfl
@[simp] theorem State.post_nextId (s : State) (i : Instr) (a : EventArg) : (s.post i a).nextId = s.nextId := rfl

@[simp] theorem State.post_pend (s : State) (i : Instr) (a : EventArg) : (s.post i a).pend = s.pend ++ [(i, a)] := rfl

@[simp] theorem State.modLease_node (s : State) (l : Byte) (f : Lease → Lease) : (s.modLease l f).node = s.node := rfl
@[simp] theorem State.modLease_ctx (s : State) (l : Byte) (f : Lease → Lease) : (s.modLease l f).ctx = s.ctx := rfl
@[simp] theorem State.modLease_others (s : State) (l : Byte) (f : Lease → Lease) : (s.modLease l f).others = s.others := rfl
@[simp] theorem State.modLease_lane (s : State) (l : Byte) (f : Lease → Lease) : (s.modLease l f).lane = s.lane := rfl
@[simp] theorem State.modLease_enc (s : State) (l : Byte) (f : Lease → Lease) : (s.modLease l f).enc = s.enc := rfl
@[simp] theorem State.modLease_arg (s : State) (l : Byte) (f : Lease → Lease) : (s.modLease l f).arg = s.arg := rfl
@[simp] theorem State.modLease_cores (s : State) (l : Byte) (f : Lease → Lease) : (s.modLease l f).cores = s.cores := rfl
@[simp] theorem State.modLease_mills (s : State) (l : Byte) (f : Lease → Lease) : (s.modLease l f).mills = s.mills := rfl
@[simp] theorem State.modLease_dies (s : State) (l : Byte) (f : Lease → Lease) : (s.modLease l f).dies = s.dies := rfl
@[simp] theorem State.modLease_mem (s : State) (l : Byte) (f : Lease → Lease) : (s.modLease l f).mem = s.mem := rfl
@[simp] theorem State.modLease_poison (s : State) (l : Byte) (f : Lease → Lease) : (s.modLease l f).poison = s.poison := rfl
@[simp] theorem State.modLease_dramErr (s : State) (l : Byte) (f : Lease → Lease) : (s.modLease l f).dramErr = s.dramErr := rfl
@[simp] theorem State.modLease_latent (s : State) (l : Byte) (f : Lease → Lease) : (s.modLease l f).latent = s.latent := rfl
@[simp] theorem State.modLease_tlb (s : State) (l : Byte) (f : Lease → Lease) : (s.modLease l f).tlb = s.tlb := rfl
@[simp] theorem State.modLease_walks (s : State) (l : Byte) (f : Lease → Lease) : (s.modLease l f).walks = s.walks := rfl
@[simp] theorem State.modLease_ops (s : State) (l : Byte) (f : Lease → Lease) : (s.modLease l f).ops = s.ops := rfl
@[simp] theorem State.modLease_colls (s : State) (l : Byte) (f : Lease → Lease) : (s.modLease l f).colls = s.colls := rfl
@[simp] theorem State.modLease_peers (s : State) (l : Byte) (f : Lease → Lease) : (s.modLease l f).peers = s.peers := rfl
@[simp] theorem State.modLease_gleans (s : State) (l : Byte) (f : Lease → Lease) : (s.modLease l f).gleans = s.gleans := rfl
@[simp] theorem State.modLease_nests (s : State) (l : Byte) (f : Lease → Lease) : (s.modLease l f).nests = s.nests := rfl
@[simp] theorem State.modLease_ccs (s : State) (l : Byte) (f : Lease → Lease) : (s.modLease l f).ccs = s.ccs := rfl
@[simp] theorem State.modLease_ue (s : State) (l : Byte) (f : Lease → Lease) : (s.modLease l f).ue = s.ue := rfl
@[simp] theorem State.modLease_replies (s : State) (l : Byte) (f : Lease → Lease) : (s.modLease l f).replies = s.replies := rfl
@[simp] theorem State.modLease_time (s : State) (l : Byte) (f : Lease → Lease) : (s.modLease l f).time = s.time := rfl
@[simp] theorem State.modLease_agenda (s : State) (l : Byte) (f : Lease → Lease) : (s.modLease l f).agenda = s.agenda := rfl
@[simp] theorem State.modLease_pend (s : State) (l : Byte) (f : Lease → Lease) : (s.modLease l f).pend = s.pend := rfl
@[simp] theorem State.modLease_yielded (s : State) (l : Byte) (f : Lease → Lease) : (s.modLease l f).yielded = s.yielded := rfl
@[simp] theorem State.modLease_streak (s : State) (l : Byte) (f : Lease → Lease) : (s.modLease l f).streak = s.streak := rfl
@[simp] theorem State.modLease_freeCtr (s : State) (l : Byte) (f : Lease → Lease) : (s.modLease l f).freeCtr = s.freeCtr := rfl
@[simp] theorem State.modLease_nextId (s : State) (l : Byte) (f : Lease → Lease) : (s.modLease l f).nextId = s.nextId := rfl

@[simp] theorem State.modSub_node (s : State) (l b : Byte) (f : Sub → Sub) : (s.modSub l b f).node = s.node := rfl
@[simp] theorem State.modSub_ctx (s : State) (l b : Byte) (f : Sub → Sub) : (s.modSub l b f).ctx = s.ctx := rfl
@[simp] theorem State.modSub_others (s : State) (l b : Byte) (f : Sub → Sub) : (s.modSub l b f).others = s.others := rfl
@[simp] theorem State.modSub_lane (s : State) (l b : Byte) (f : Sub → Sub) : (s.modSub l b f).lane = s.lane := rfl
@[simp] theorem State.modSub_enc (s : State) (l b : Byte) (f : Sub → Sub) : (s.modSub l b f).enc = s.enc := rfl
@[simp] theorem State.modSub_arg (s : State) (l b : Byte) (f : Sub → Sub) : (s.modSub l b f).arg = s.arg := rfl
@[simp] theorem State.modSub_cores (s : State) (l b : Byte) (f : Sub → Sub) : (s.modSub l b f).cores = s.cores := rfl
@[simp] theorem State.modSub_mills (s : State) (l b : Byte) (f : Sub → Sub) : (s.modSub l b f).mills = s.mills := rfl
@[simp] theorem State.modSub_dies (s : State) (l b : Byte) (f : Sub → Sub) : (s.modSub l b f).dies = s.dies := rfl
@[simp] theorem State.modSub_mem (s : State) (l b : Byte) (f : Sub → Sub) : (s.modSub l b f).mem = s.mem := rfl
@[simp] theorem State.modSub_poison (s : State) (l b : Byte) (f : Sub → Sub) : (s.modSub l b f).poison = s.poison := rfl
@[simp] theorem State.modSub_dramErr (s : State) (l b : Byte) (f : Sub → Sub) : (s.modSub l b f).dramErr = s.dramErr := rfl
@[simp] theorem State.modSub_latent (s : State) (l b : Byte) (f : Sub → Sub) : (s.modSub l b f).latent = s.latent := rfl
@[simp] theorem State.modSub_tlb (s : State) (l b : Byte) (f : Sub → Sub) : (s.modSub l b f).tlb = s.tlb := rfl
@[simp] theorem State.modSub_walks (s : State) (l b : Byte) (f : Sub → Sub) : (s.modSub l b f).walks = s.walks := rfl
@[simp] theorem State.modSub_ops (s : State) (l b : Byte) (f : Sub → Sub) : (s.modSub l b f).ops = s.ops := rfl
@[simp] theorem State.modSub_colls (s : State) (l b : Byte) (f : Sub → Sub) : (s.modSub l b f).colls = s.colls := rfl
@[simp] theorem State.modSub_peers (s : State) (l b : Byte) (f : Sub → Sub) : (s.modSub l b f).peers = s.peers := rfl
@[simp] theorem State.modSub_gleans (s : State) (l b : Byte) (f : Sub → Sub) : (s.modSub l b f).gleans = s.gleans := rfl
@[simp] theorem State.modSub_nests (s : State) (l b : Byte) (f : Sub → Sub) : (s.modSub l b f).nests = s.nests := rfl
@[simp] theorem State.modSub_ccs (s : State) (l b : Byte) (f : Sub → Sub) : (s.modSub l b f).ccs = s.ccs := rfl
@[simp] theorem State.modSub_ue (s : State) (l b : Byte) (f : Sub → Sub) : (s.modSub l b f).ue = s.ue := rfl
@[simp] theorem State.modSub_replies (s : State) (l b : Byte) (f : Sub → Sub) : (s.modSub l b f).replies = s.replies := rfl
@[simp] theorem State.modSub_time (s : State) (l b : Byte) (f : Sub → Sub) : (s.modSub l b f).time = s.time := rfl
@[simp] theorem State.modSub_agenda (s : State) (l b : Byte) (f : Sub → Sub) : (s.modSub l b f).agenda = s.agenda := rfl
@[simp] theorem State.modSub_pend (s : State) (l b : Byte) (f : Sub → Sub) : (s.modSub l b f).pend = s.pend := rfl
@[simp] theorem State.modSub_yielded (s : State) (l b : Byte) (f : Sub → Sub) : (s.modSub l b f).yielded = s.yielded := rfl
@[simp] theorem State.modSub_streak (s : State) (l b : Byte) (f : Sub → Sub) : (s.modSub l b f).streak = s.streak := rfl
@[simp] theorem State.modSub_freeCtr (s : State) (l b : Byte) (f : Sub → Sub) : (s.modSub l b f).freeCtr = s.freeCtr := rfl
@[simp] theorem State.modSub_nextId (s : State) (l b : Byte) (f : Sub → Sub) : (s.modSub l b f).nextId = s.nextId := rfl

@[simp] theorem State.free_node (s : State) : (s.free.2).node = s.node := rfl
@[simp] theorem State.free_ctx (s : State) : (s.free.2).ctx = s.ctx := rfl
@[simp] theorem State.free_others (s : State) : (s.free.2).others = s.others := rfl
@[simp] theorem State.free_lane (s : State) : (s.free.2).lane = s.lane := rfl
@[simp] theorem State.free_enc (s : State) : (s.free.2).enc = s.enc := rfl
@[simp] theorem State.free_arg (s : State) : (s.free.2).arg = s.arg := rfl
@[simp] theorem State.free_cores (s : State) : (s.free.2).cores = s.cores := rfl
@[simp] theorem State.free_mills (s : State) : (s.free.2).mills = s.mills := rfl
@[simp] theorem State.free_dies (s : State) : (s.free.2).dies = s.dies := rfl
@[simp] theorem State.free_mem (s : State) : (s.free.2).mem = s.mem := rfl
@[simp] theorem State.free_poison (s : State) : (s.free.2).poison = s.poison := rfl
@[simp] theorem State.free_dramErr (s : State) : (s.free.2).dramErr = s.dramErr := rfl
@[simp] theorem State.free_latent (s : State) : (s.free.2).latent = s.latent := rfl
@[simp] theorem State.free_tlb (s : State) : (s.free.2).tlb = s.tlb := rfl
@[simp] theorem State.free_walks (s : State) : (s.free.2).walks = s.walks := rfl
@[simp] theorem State.free_ops (s : State) : (s.free.2).ops = s.ops := rfl
@[simp] theorem State.free_colls (s : State) : (s.free.2).colls = s.colls := rfl
@[simp] theorem State.free_peers (s : State) : (s.free.2).peers = s.peers := rfl
@[simp] theorem State.free_gleans (s : State) : (s.free.2).gleans = s.gleans := rfl
@[simp] theorem State.free_nests (s : State) : (s.free.2).nests = s.nests := rfl
@[simp] theorem State.free_reeve (s : State) : (s.free.2).reeve = s.reeve := rfl
@[simp] theorem State.free_ccs (s : State) : (s.free.2).ccs = s.ccs := rfl
@[simp] theorem State.free_ue (s : State) : (s.free.2).ue = s.ue := rfl
@[simp] theorem State.free_replies (s : State) : (s.free.2).replies = s.replies := rfl
@[simp] theorem State.free_time (s : State) : (s.free.2).time = s.time := rfl
@[simp] theorem State.free_agenda (s : State) : (s.free.2).agenda = s.agenda := rfl
@[simp] theorem State.free_pend (s : State) : (s.free.2).pend = s.pend := rfl
@[simp] theorem State.free_yielded (s : State) : (s.free.2).yielded = s.yielded := rfl
@[simp] theorem State.free_streak (s : State) : (s.free.2).streak = s.streak := rfl
@[simp] theorem State.free_nextId (s : State) : (s.free.2).nextId = s.nextId := rfl

@[simp] theorem State.fresh_node (s : State) : (s.fresh.2).node = s.node := rfl
@[simp] theorem State.fresh_ctx (s : State) : (s.fresh.2).ctx = s.ctx := rfl
@[simp] theorem State.fresh_others (s : State) : (s.fresh.2).others = s.others := rfl
@[simp] theorem State.fresh_lane (s : State) : (s.fresh.2).lane = s.lane := rfl
@[simp] theorem State.fresh_enc (s : State) : (s.fresh.2).enc = s.enc := rfl
@[simp] theorem State.fresh_arg (s : State) : (s.fresh.2).arg = s.arg := rfl
@[simp] theorem State.fresh_cores (s : State) : (s.fresh.2).cores = s.cores := rfl
@[simp] theorem State.fresh_mills (s : State) : (s.fresh.2).mills = s.mills := rfl
@[simp] theorem State.fresh_dies (s : State) : (s.fresh.2).dies = s.dies := rfl
@[simp] theorem State.fresh_mem (s : State) : (s.fresh.2).mem = s.mem := rfl
@[simp] theorem State.fresh_poison (s : State) : (s.fresh.2).poison = s.poison := rfl
@[simp] theorem State.fresh_dramErr (s : State) : (s.fresh.2).dramErr = s.dramErr := rfl
@[simp] theorem State.fresh_latent (s : State) : (s.fresh.2).latent = s.latent := rfl
@[simp] theorem State.fresh_tlb (s : State) : (s.fresh.2).tlb = s.tlb := rfl
@[simp] theorem State.fresh_walks (s : State) : (s.fresh.2).walks = s.walks := rfl
@[simp] theorem State.fresh_ops (s : State) : (s.fresh.2).ops = s.ops := rfl
@[simp] theorem State.fresh_colls (s : State) : (s.fresh.2).colls = s.colls := rfl
@[simp] theorem State.fresh_peers (s : State) : (s.fresh.2).peers = s.peers := rfl
@[simp] theorem State.fresh_gleans (s : State) : (s.fresh.2).gleans = s.gleans := rfl
@[simp] theorem State.fresh_nests (s : State) : (s.fresh.2).nests = s.nests := rfl
@[simp] theorem State.fresh_reeve (s : State) : (s.fresh.2).reeve = s.reeve := rfl
@[simp] theorem State.fresh_ccs (s : State) : (s.fresh.2).ccs = s.ccs := rfl
@[simp] theorem State.fresh_ue (s : State) : (s.fresh.2).ue = s.ue := rfl
@[simp] theorem State.fresh_replies (s : State) : (s.fresh.2).replies = s.replies := rfl
@[simp] theorem State.fresh_time (s : State) : (s.fresh.2).time = s.time := rfl
@[simp] theorem State.fresh_agenda (s : State) : (s.fresh.2).agenda = s.agenda := rfl
@[simp] theorem State.fresh_pend (s : State) : (s.fresh.2).pend = s.pend := rfl
@[simp] theorem State.fresh_yielded (s : State) : (s.fresh.2).yielded = s.yielded := rfl
@[simp] theorem State.fresh_streak (s : State) : (s.fresh.2).streak = s.streak := rfl
@[simp] theorem State.fresh_freeCtr (s : State) : (s.fresh.2).freeCtr = s.freeCtr := rfl

@[simp] theorem State.addRecord_node (s : State) (l : BitVec 2) (a b : Byte) (w : List Word) : (s.addRecord l a b w).node = s.node := rfl
@[simp] theorem State.addRecord_ctx (s : State) (l : BitVec 2) (a b : Byte) (w : List Word) : (s.addRecord l a b w).ctx = s.ctx := rfl
@[simp] theorem State.addRecord_others (s : State) (l : BitVec 2) (a b : Byte) (w : List Word) : (s.addRecord l a b w).others = s.others := rfl
@[simp] theorem State.addRecord_lane (s : State) (l : BitVec 2) (a b : Byte) (w : List Word) : (s.addRecord l a b w).lane = s.lane := rfl
@[simp] theorem State.addRecord_enc (s : State) (l : BitVec 2) (a b : Byte) (w : List Word) : (s.addRecord l a b w).enc = s.enc := rfl
@[simp] theorem State.addRecord_arg (s : State) (l : BitVec 2) (a b : Byte) (w : List Word) : (s.addRecord l a b w).arg = s.arg := rfl
@[simp] theorem State.addRecord_cores (s : State) (l : BitVec 2) (a b : Byte) (w : List Word) : (s.addRecord l a b w).cores = s.cores := rfl
@[simp] theorem State.addRecord_mills (s : State) (l : BitVec 2) (a b : Byte) (w : List Word) : (s.addRecord l a b w).mills = s.mills := rfl
@[simp] theorem State.addRecord_dies (s : State) (l : BitVec 2) (a b : Byte) (w : List Word) : (s.addRecord l a b w).dies = s.dies := rfl
@[simp] theorem State.addRecord_mem (s : State) (l : BitVec 2) (a b : Byte) (w : List Word) : (s.addRecord l a b w).mem = s.mem := rfl
@[simp] theorem State.addRecord_poison (s : State) (l : BitVec 2) (a b : Byte) (w : List Word) : (s.addRecord l a b w).poison = s.poison := rfl
@[simp] theorem State.addRecord_dramErr (s : State) (l : BitVec 2) (a b : Byte) (w : List Word) : (s.addRecord l a b w).dramErr = s.dramErr := rfl
@[simp] theorem State.addRecord_latent (s : State) (l : BitVec 2) (a b : Byte) (w : List Word) : (s.addRecord l a b w).latent = s.latent := rfl
@[simp] theorem State.addRecord_tlb (s : State) (l : BitVec 2) (a b : Byte) (w : List Word) : (s.addRecord l a b w).tlb = s.tlb := rfl
@[simp] theorem State.addRecord_walks (s : State) (l : BitVec 2) (a b : Byte) (w : List Word) : (s.addRecord l a b w).walks = s.walks := rfl
@[simp] theorem State.addRecord_ops (s : State) (l : BitVec 2) (a b : Byte) (w : List Word) : (s.addRecord l a b w).ops = s.ops := rfl
@[simp] theorem State.addRecord_colls (s : State) (l : BitVec 2) (a b : Byte) (w : List Word) : (s.addRecord l a b w).colls = s.colls := rfl
@[simp] theorem State.addRecord_peers (s : State) (l : BitVec 2) (a b : Byte) (w : List Word) : (s.addRecord l a b w).peers = s.peers := rfl
@[simp] theorem State.addRecord_gleans (s : State) (l : BitVec 2) (a b : Byte) (w : List Word) : (s.addRecord l a b w).gleans = s.gleans := rfl
@[simp] theorem State.addRecord_nests (s : State) (l : BitVec 2) (a b : Byte) (w : List Word) : (s.addRecord l a b w).nests = s.nests := rfl
@[simp] theorem State.addRecord_ccs (s : State) (l : BitVec 2) (a b : Byte) (w : List Word) : (s.addRecord l a b w).ccs = s.ccs := rfl
@[simp] theorem State.addRecord_ue (s : State) (l : BitVec 2) (a b : Byte) (w : List Word) : (s.addRecord l a b w).ue = s.ue := rfl
@[simp] theorem State.addRecord_replies (s : State) (l : BitVec 2) (a b : Byte) (w : List Word) : (s.addRecord l a b w).replies = s.replies := rfl
@[simp] theorem State.addRecord_time (s : State) (l : BitVec 2) (a b : Byte) (w : List Word) : (s.addRecord l a b w).time = s.time := rfl
@[simp] theorem State.addRecord_agenda (s : State) (l : BitVec 2) (a b : Byte) (w : List Word) : (s.addRecord l a b w).agenda = s.agenda := rfl
@[simp] theorem State.addRecord_yielded (s : State) (l : BitVec 2) (a b : Byte) (w : List Word) : (s.addRecord l a b w).yielded = s.yielded := rfl
@[simp] theorem State.addRecord_streak (s : State) (l : BitVec 2) (a b : Byte) (w : List Word) : (s.addRecord l a b w).streak = s.streak := rfl
@[simp] theorem State.addRecord_freeCtr (s : State) (l : BitVec 2) (a b : Byte) (w : List Word) : (s.addRecord l a b w).freeCtr = s.freeCtr := rfl
@[simp] theorem State.addRecord_nextId (s : State) (l : BitVec 2) (a b : Byte) (w : List Word) : (s.addRecord l a b w).nextId = s.nextId := rfl

@[simp] theorem State.addBox_node (s : State) (h d : Word) : ((s.addBox h d).1).node = s.node := rfl
@[simp] theorem State.addBox_ctx (s : State) (h d : Word) : ((s.addBox h d).1).ctx = s.ctx := rfl
@[simp] theorem State.addBox_others (s : State) (h d : Word) : ((s.addBox h d).1).others = s.others := rfl
@[simp] theorem State.addBox_lane (s : State) (h d : Word) : ((s.addBox h d).1).lane = s.lane := rfl
@[simp] theorem State.addBox_enc (s : State) (h d : Word) : ((s.addBox h d).1).enc = s.enc := rfl
@[simp] theorem State.addBox_arg (s : State) (h d : Word) : ((s.addBox h d).1).arg = s.arg := rfl
@[simp] theorem State.addBox_cores (s : State) (h d : Word) : ((s.addBox h d).1).cores = s.cores := rfl
@[simp] theorem State.addBox_mills (s : State) (h d : Word) : ((s.addBox h d).1).mills = s.mills := rfl
@[simp] theorem State.addBox_dies (s : State) (h d : Word) : ((s.addBox h d).1).dies = s.dies := rfl
@[simp] theorem State.addBox_mem (s : State) (h d : Word) : ((s.addBox h d).1).mem = s.mem := rfl
@[simp] theorem State.addBox_poison (s : State) (h d : Word) : ((s.addBox h d).1).poison = s.poison := rfl
@[simp] theorem State.addBox_dramErr (s : State) (h d : Word) : ((s.addBox h d).1).dramErr = s.dramErr := rfl
@[simp] theorem State.addBox_latent (s : State) (h d : Word) : ((s.addBox h d).1).latent = s.latent := rfl
@[simp] theorem State.addBox_tlb (s : State) (h d : Word) : ((s.addBox h d).1).tlb = s.tlb := rfl
@[simp] theorem State.addBox_walks (s : State) (h d : Word) : ((s.addBox h d).1).walks = s.walks := rfl
@[simp] theorem State.addBox_ops (s : State) (h d : Word) : ((s.addBox h d).1).ops = s.ops := rfl
@[simp] theorem State.addBox_colls (s : State) (h d : Word) : ((s.addBox h d).1).colls = s.colls := rfl
@[simp] theorem State.addBox_peers (s : State) (h d : Word) : ((s.addBox h d).1).peers = s.peers := rfl
@[simp] theorem State.addBox_gleans (s : State) (h d : Word) : ((s.addBox h d).1).gleans = s.gleans := rfl
@[simp] theorem State.addBox_nests (s : State) (h d : Word) : ((s.addBox h d).1).nests = s.nests := rfl
@[simp] theorem State.addBox_ccs (s : State) (h d : Word) : ((s.addBox h d).1).ccs = s.ccs := rfl
@[simp] theorem State.addBox_ue (s : State) (h d : Word) : ((s.addBox h d).1).ue = s.ue := rfl
@[simp] theorem State.addBox_replies (s : State) (h d : Word) : ((s.addBox h d).1).replies = s.replies := rfl
@[simp] theorem State.addBox_time (s : State) (h d : Word) : ((s.addBox h d).1).time = s.time := rfl
@[simp] theorem State.addBox_agenda (s : State) (h d : Word) : ((s.addBox h d).1).agenda = s.agenda := rfl
@[simp] theorem State.addBox_pend (s : State) (h d : Word) : ((s.addBox h d).1).pend = s.pend := rfl
@[simp] theorem State.addBox_yielded (s : State) (h d : Word) : ((s.addBox h d).1).yielded = s.yielded := rfl
@[simp] theorem State.addBox_streak (s : State) (h d : Word) : ((s.addBox h d).1).streak = s.streak := rfl
@[simp] theorem State.addBox_freeCtr (s : State) (h d : Word) : ((s.addBox h d).1).freeCtr = s.freeCtr := rfl
@[simp] theorem State.addBox_nextId (s : State) (h d : Word) : ((s.addBox h d).1).nextId = s.nextId := rfl

@[simp] theorem State.mapCtxs_node (s : State) (p : Ctx → Bool) (f : Ctx → Ctx) : (s.mapCtxs p f).node = s.node := rfl
@[simp] theorem State.mapCtxs_lane (s : State) (p : Ctx → Bool) (f : Ctx → Ctx) : (s.mapCtxs p f).lane = s.lane := rfl
@[simp] theorem State.mapCtxs_enc (s : State) (p : Ctx → Bool) (f : Ctx → Ctx) : (s.mapCtxs p f).enc = s.enc := rfl
@[simp] theorem State.mapCtxs_arg (s : State) (p : Ctx → Bool) (f : Ctx → Ctx) : (s.mapCtxs p f).arg = s.arg := rfl
@[simp] theorem State.mapCtxs_cores (s : State) (p : Ctx → Bool) (f : Ctx → Ctx) : (s.mapCtxs p f).cores = s.cores := rfl
@[simp] theorem State.mapCtxs_mills (s : State) (p : Ctx → Bool) (f : Ctx → Ctx) : (s.mapCtxs p f).mills = s.mills := rfl
@[simp] theorem State.mapCtxs_dies (s : State) (p : Ctx → Bool) (f : Ctx → Ctx) : (s.mapCtxs p f).dies = s.dies := rfl
@[simp] theorem State.mapCtxs_mem (s : State) (p : Ctx → Bool) (f : Ctx → Ctx) : (s.mapCtxs p f).mem = s.mem := rfl
@[simp] theorem State.mapCtxs_poison (s : State) (p : Ctx → Bool) (f : Ctx → Ctx) : (s.mapCtxs p f).poison = s.poison := rfl
@[simp] theorem State.mapCtxs_dramErr (s : State) (p : Ctx → Bool) (f : Ctx → Ctx) : (s.mapCtxs p f).dramErr = s.dramErr := rfl
@[simp] theorem State.mapCtxs_latent (s : State) (p : Ctx → Bool) (f : Ctx → Ctx) : (s.mapCtxs p f).latent = s.latent := rfl
@[simp] theorem State.mapCtxs_tlb (s : State) (p : Ctx → Bool) (f : Ctx → Ctx) : (s.mapCtxs p f).tlb = s.tlb := rfl
@[simp] theorem State.mapCtxs_walks (s : State) (p : Ctx → Bool) (f : Ctx → Ctx) : (s.mapCtxs p f).walks = s.walks := rfl
@[simp] theorem State.mapCtxs_ops (s : State) (p : Ctx → Bool) (f : Ctx → Ctx) : (s.mapCtxs p f).ops = s.ops := rfl
@[simp] theorem State.mapCtxs_colls (s : State) (p : Ctx → Bool) (f : Ctx → Ctx) : (s.mapCtxs p f).colls = s.colls := rfl
@[simp] theorem State.mapCtxs_peers (s : State) (p : Ctx → Bool) (f : Ctx → Ctx) : (s.mapCtxs p f).peers = s.peers := rfl
@[simp] theorem State.mapCtxs_gleans (s : State) (p : Ctx → Bool) (f : Ctx → Ctx) : (s.mapCtxs p f).gleans = s.gleans := rfl
@[simp] theorem State.mapCtxs_nests (s : State) (p : Ctx → Bool) (f : Ctx → Ctx) : (s.mapCtxs p f).nests = s.nests := rfl
@[simp] theorem State.mapCtxs_reeve (s : State) (p : Ctx → Bool) (f : Ctx → Ctx) : (s.mapCtxs p f).reeve = s.reeve := rfl
@[simp] theorem State.mapCtxs_ccs (s : State) (p : Ctx → Bool) (f : Ctx → Ctx) : (s.mapCtxs p f).ccs = s.ccs := rfl
@[simp] theorem State.mapCtxs_ue (s : State) (p : Ctx → Bool) (f : Ctx → Ctx) : (s.mapCtxs p f).ue = s.ue := rfl
@[simp] theorem State.mapCtxs_replies (s : State) (p : Ctx → Bool) (f : Ctx → Ctx) : (s.mapCtxs p f).replies = s.replies := rfl
@[simp] theorem State.mapCtxs_time (s : State) (p : Ctx → Bool) (f : Ctx → Ctx) : (s.mapCtxs p f).time = s.time := rfl
@[simp] theorem State.mapCtxs_agenda (s : State) (p : Ctx → Bool) (f : Ctx → Ctx) : (s.mapCtxs p f).agenda = s.agenda := rfl
@[simp] theorem State.mapCtxs_pend (s : State) (p : Ctx → Bool) (f : Ctx → Ctx) : (s.mapCtxs p f).pend = s.pend := rfl
@[simp] theorem State.mapCtxs_yielded (s : State) (p : Ctx → Bool) (f : Ctx → Ctx) : (s.mapCtxs p f).yielded = s.yielded := rfl
@[simp] theorem State.mapCtxs_streak (s : State) (p : Ctx → Bool) (f : Ctx → Ctx) : (s.mapCtxs p f).streak = s.streak := rfl
@[simp] theorem State.mapCtxs_freeCtr (s : State) (p : Ctx → Bool) (f : Ctx → Ctx) : (s.mapCtxs p f).freeCtr = s.freeCtr := rfl
@[simp] theorem State.mapCtxs_nextId (s : State) (p : Ctx → Bool) (f : Ctx → Ctx) : (s.mapCtxs p f).nextId = s.nextId := rfl

@[simp] theorem State.setElem_node (s : State) (v : VReg) (e x : Nat) : (s.setElem v e x).node = s.node := rfl
@[simp] theorem State.setElem_others (s : State) (v : VReg) (e x : Nat) : (s.setElem v e x).others = s.others := rfl
@[simp] theorem State.setElem_lane (s : State) (v : VReg) (e x : Nat) : (s.setElem v e x).lane = s.lane := rfl
@[simp] theorem State.setElem_enc (s : State) (v : VReg) (e x : Nat) : (s.setElem v e x).enc = s.enc := rfl
@[simp] theorem State.setElem_arg (s : State) (v : VReg) (e x : Nat) : (s.setElem v e x).arg = s.arg := rfl
@[simp] theorem State.setElem_mills (s : State) (v : VReg) (e x : Nat) : (s.setElem v e x).mills = s.mills := rfl
@[simp] theorem State.setElem_dies (s : State) (v : VReg) (e x : Nat) : (s.setElem v e x).dies = s.dies := rfl
@[simp] theorem State.setElem_mem (s : State) (v : VReg) (e x : Nat) : (s.setElem v e x).mem = s.mem := rfl
@[simp] theorem State.setElem_poison (s : State) (v : VReg) (e x : Nat) : (s.setElem v e x).poison = s.poison := rfl
@[simp] theorem State.setElem_dramErr (s : State) (v : VReg) (e x : Nat) : (s.setElem v e x).dramErr = s.dramErr := rfl
@[simp] theorem State.setElem_latent (s : State) (v : VReg) (e x : Nat) : (s.setElem v e x).latent = s.latent := rfl
@[simp] theorem State.setElem_tlb (s : State) (v : VReg) (e x : Nat) : (s.setElem v e x).tlb = s.tlb := rfl
@[simp] theorem State.setElem_walks (s : State) (v : VReg) (e x : Nat) : (s.setElem v e x).walks = s.walks := rfl
@[simp] theorem State.setElem_ops (s : State) (v : VReg) (e x : Nat) : (s.setElem v e x).ops = s.ops := rfl
@[simp] theorem State.setElem_colls (s : State) (v : VReg) (e x : Nat) : (s.setElem v e x).colls = s.colls := rfl
@[simp] theorem State.setElem_peers (s : State) (v : VReg) (e x : Nat) : (s.setElem v e x).peers = s.peers := rfl
@[simp] theorem State.setElem_gleans (s : State) (v : VReg) (e x : Nat) : (s.setElem v e x).gleans = s.gleans := rfl
@[simp] theorem State.setElem_nests (s : State) (v : VReg) (e x : Nat) : (s.setElem v e x).nests = s.nests := rfl
@[simp] theorem State.setElem_reeve (s : State) (v : VReg) (e x : Nat) : (s.setElem v e x).reeve = s.reeve := rfl
@[simp] theorem State.setElem_ccs (s : State) (v : VReg) (e x : Nat) : (s.setElem v e x).ccs = s.ccs := rfl
@[simp] theorem State.setElem_ue (s : State) (v : VReg) (e x : Nat) : (s.setElem v e x).ue = s.ue := rfl
@[simp] theorem State.setElem_replies (s : State) (v : VReg) (e x : Nat) : (s.setElem v e x).replies = s.replies := rfl
@[simp] theorem State.setElem_time (s : State) (v : VReg) (e x : Nat) : (s.setElem v e x).time = s.time := rfl
@[simp] theorem State.setElem_agenda (s : State) (v : VReg) (e x : Nat) : (s.setElem v e x).agenda = s.agenda := rfl
@[simp] theorem State.setElem_pend (s : State) (v : VReg) (e x : Nat) : (s.setElem v e x).pend = s.pend := rfl
@[simp] theorem State.setElem_yielded (s : State) (v : VReg) (e x : Nat) : (s.setElem v e x).yielded = s.yielded := rfl
@[simp] theorem State.setElem_streak (s : State) (v : VReg) (e x : Nat) : (s.setElem v e x).streak = s.streak := rfl
@[simp] theorem State.setElem_freeCtr (s : State) (v : VReg) (e x : Nat) : (s.setElem v e x).freeCtr = s.freeCtr := rfl
@[simp] theorem State.setElem_nextId (s : State) (v : VReg) (e x : Nat) : (s.setElem v e x).nextId = s.nextId := rfl

@[simp] theorem State.setX_node (s : State) (r : XReg) (x : Word) : (s.setX r x).node = s.node := by unfold State.setX; split <;> (try split) <;> rfl
@[simp] theorem State.setX_others (s : State) (r : XReg) (x : Word) : (s.setX r x).others = s.others := by unfold State.setX; split <;> (try split) <;> rfl
@[simp] theorem State.setX_lane (s : State) (r : XReg) (x : Word) : (s.setX r x).lane = s.lane := by unfold State.setX; split <;> (try split) <;> rfl
@[simp] theorem State.setX_enc (s : State) (r : XReg) (x : Word) : (s.setX r x).enc = s.enc := by unfold State.setX; split <;> (try split) <;> rfl
@[simp] theorem State.setX_arg (s : State) (r : XReg) (x : Word) : (s.setX r x).arg = s.arg := by unfold State.setX; split <;> (try split) <;> rfl
@[simp] theorem State.setX_mills (s : State) (r : XReg) (x : Word) : (s.setX r x).mills = s.mills := by unfold State.setX; split <;> (try split) <;> rfl
@[simp] theorem State.setX_dies (s : State) (r : XReg) (x : Word) : (s.setX r x).dies = s.dies := by unfold State.setX; split <;> (try split) <;> rfl
@[simp] theorem State.setX_mem (s : State) (r : XReg) (x : Word) : (s.setX r x).mem = s.mem := by unfold State.setX; split <;> (try split) <;> rfl
@[simp] theorem State.setX_poison (s : State) (r : XReg) (x : Word) : (s.setX r x).poison = s.poison := by unfold State.setX; split <;> (try split) <;> rfl
@[simp] theorem State.setX_dramErr (s : State) (r : XReg) (x : Word) : (s.setX r x).dramErr = s.dramErr := by unfold State.setX; split <;> (try split) <;> rfl
@[simp] theorem State.setX_latent (s : State) (r : XReg) (x : Word) : (s.setX r x).latent = s.latent := by unfold State.setX; split <;> (try split) <;> rfl
@[simp] theorem State.setX_tlb (s : State) (r : XReg) (x : Word) : (s.setX r x).tlb = s.tlb := by unfold State.setX; split <;> (try split) <;> rfl
@[simp] theorem State.setX_walks (s : State) (r : XReg) (x : Word) : (s.setX r x).walks = s.walks := by unfold State.setX; split <;> (try split) <;> rfl
@[simp] theorem State.setX_ops (s : State) (r : XReg) (x : Word) : (s.setX r x).ops = s.ops := by unfold State.setX; split <;> (try split) <;> rfl
@[simp] theorem State.setX_colls (s : State) (r : XReg) (x : Word) : (s.setX r x).colls = s.colls := by unfold State.setX; split <;> (try split) <;> rfl
@[simp] theorem State.setX_peers (s : State) (r : XReg) (x : Word) : (s.setX r x).peers = s.peers := by unfold State.setX; split <;> (try split) <;> rfl
@[simp] theorem State.setX_gleans (s : State) (r : XReg) (x : Word) : (s.setX r x).gleans = s.gleans := by unfold State.setX; split <;> (try split) <;> rfl
@[simp] theorem State.setX_nests (s : State) (r : XReg) (x : Word) : (s.setX r x).nests = s.nests := by unfold State.setX; split <;> (try split) <;> rfl
@[simp] theorem State.setX_reeve (s : State) (r : XReg) (x : Word) : (s.setX r x).reeve = s.reeve := by unfold State.setX; split <;> (try split) <;> rfl
@[simp] theorem State.setX_ccs (s : State) (r : XReg) (x : Word) : (s.setX r x).ccs = s.ccs := by unfold State.setX; split <;> (try split) <;> rfl
@[simp] theorem State.setX_ue (s : State) (r : XReg) (x : Word) : (s.setX r x).ue = s.ue := by unfold State.setX; split <;> (try split) <;> rfl
@[simp] theorem State.setX_replies (s : State) (r : XReg) (x : Word) : (s.setX r x).replies = s.replies := by unfold State.setX; split <;> (try split) <;> rfl
@[simp] theorem State.setX_time (s : State) (r : XReg) (x : Word) : (s.setX r x).time = s.time := by unfold State.setX; split <;> (try split) <;> rfl
@[simp] theorem State.setX_agenda (s : State) (r : XReg) (x : Word) : (s.setX r x).agenda = s.agenda := by unfold State.setX; split <;> (try split) <;> rfl
@[simp] theorem State.setX_pend (s : State) (r : XReg) (x : Word) : (s.setX r x).pend = s.pend := by unfold State.setX; split <;> (try split) <;> rfl
@[simp] theorem State.setX_yielded (s : State) (r : XReg) (x : Word) : (s.setX r x).yielded = s.yielded := by unfold State.setX; split <;> (try split) <;> rfl
@[simp] theorem State.setX_streak (s : State) (r : XReg) (x : Word) : (s.setX r x).streak = s.streak := by unfold State.setX; split <;> (try split) <;> rfl
@[simp] theorem State.setX_freeCtr (s : State) (r : XReg) (x : Word) : (s.setX r x).freeCtr = s.freeCtr := by unfold State.setX; split <;> (try split) <;> rfl
@[simp] theorem State.setX_nextId (s : State) (r : XReg) (x : Word) : (s.setX r x).nextId = s.nextId := by unfold State.setX; split <;> (try split) <;> rfl

@[simp] theorem State.setPc_node (s : State) (a : Word) : (s.setPc a).node = s.node := by unfold State.setPc; split <;> rfl
@[simp] theorem State.setPc_others (s : State) (a : Word) : (s.setPc a).others = s.others := by unfold State.setPc; split <;> rfl
@[simp] theorem State.setPc_lane (s : State) (a : Word) : (s.setPc a).lane = s.lane := by unfold State.setPc; split <;> rfl
@[simp] theorem State.setPc_enc (s : State) (a : Word) : (s.setPc a).enc = s.enc := by unfold State.setPc; split <;> rfl
@[simp] theorem State.setPc_arg (s : State) (a : Word) : (s.setPc a).arg = s.arg := by unfold State.setPc; split <;> rfl
@[simp] theorem State.setPc_cores (s : State) (a : Word) : (s.setPc a).cores = s.cores := by unfold State.setPc; split <;> rfl
@[simp] theorem State.setPc_mills (s : State) (a : Word) : (s.setPc a).mills = s.mills := by unfold State.setPc; split <;> rfl
@[simp] theorem State.setPc_dies (s : State) (a : Word) : (s.setPc a).dies = s.dies := by unfold State.setPc; split <;> rfl
@[simp] theorem State.setPc_mem (s : State) (a : Word) : (s.setPc a).mem = s.mem := by unfold State.setPc; split <;> rfl
@[simp] theorem State.setPc_poison (s : State) (a : Word) : (s.setPc a).poison = s.poison := by unfold State.setPc; split <;> rfl
@[simp] theorem State.setPc_dramErr (s : State) (a : Word) : (s.setPc a).dramErr = s.dramErr := by unfold State.setPc; split <;> rfl
@[simp] theorem State.setPc_latent (s : State) (a : Word) : (s.setPc a).latent = s.latent := by unfold State.setPc; split <;> rfl
@[simp] theorem State.setPc_tlb (s : State) (a : Word) : (s.setPc a).tlb = s.tlb := by unfold State.setPc; split <;> rfl
@[simp] theorem State.setPc_walks (s : State) (a : Word) : (s.setPc a).walks = s.walks := by unfold State.setPc; split <;> rfl
@[simp] theorem State.setPc_ops (s : State) (a : Word) : (s.setPc a).ops = s.ops := by unfold State.setPc; split <;> rfl
@[simp] theorem State.setPc_colls (s : State) (a : Word) : (s.setPc a).colls = s.colls := by unfold State.setPc; split <;> rfl
@[simp] theorem State.setPc_peers (s : State) (a : Word) : (s.setPc a).peers = s.peers := by unfold State.setPc; split <;> rfl
@[simp] theorem State.setPc_gleans (s : State) (a : Word) : (s.setPc a).gleans = s.gleans := by unfold State.setPc; split <;> rfl
@[simp] theorem State.setPc_nests (s : State) (a : Word) : (s.setPc a).nests = s.nests := by unfold State.setPc; split <;> rfl
@[simp] theorem State.setPc_reeve (s : State) (a : Word) : (s.setPc a).reeve = s.reeve := by unfold State.setPc; split <;> rfl
@[simp] theorem State.setPc_ccs (s : State) (a : Word) : (s.setPc a).ccs = s.ccs := by unfold State.setPc; split <;> rfl
@[simp] theorem State.setPc_ue (s : State) (a : Word) : (s.setPc a).ue = s.ue := by unfold State.setPc; split <;> rfl
@[simp] theorem State.setPc_replies (s : State) (a : Word) : (s.setPc a).replies = s.replies := by unfold State.setPc; split <;> rfl
@[simp] theorem State.setPc_time (s : State) (a : Word) : (s.setPc a).time = s.time := by unfold State.setPc; split <;> rfl
@[simp] theorem State.setPc_agenda (s : State) (a : Word) : (s.setPc a).agenda = s.agenda := by unfold State.setPc; split <;> rfl
@[simp] theorem State.setPc_pend (s : State) (a : Word) : (s.setPc a).pend = s.pend := by unfold State.setPc; split <;> rfl
@[simp] theorem State.setPc_yielded (s : State) (a : Word) : (s.setPc a).yielded = s.yielded := by unfold State.setPc; split <;> rfl
@[simp] theorem State.setPc_streak (s : State) (a : Word) : (s.setPc a).streak = s.streak := by unfold State.setPc; split <;> rfl
@[simp] theorem State.setPc_freeCtr (s : State) (a : Word) : (s.setPc a).freeCtr = s.freeCtr := by unfold State.setPc; split <;> rfl
@[simp] theorem State.setPc_nextId (s : State) (a : Word) : (s.setPc a).nextId = s.nextId := by unfold State.setPc; split <;> rfl

@[simp] theorem State.advance_node (s : State) (n : Word) : (s.advance n).node = s.node := State.setPc_node s _
@[simp] theorem State.advance_others (s : State) (n : Word) : (s.advance n).others = s.others := State.setPc_others s _
@[simp] theorem State.advance_lane (s : State) (n : Word) : (s.advance n).lane = s.lane := State.setPc_lane s _
@[simp] theorem State.advance_enc (s : State) (n : Word) : (s.advance n).enc = s.enc := State.setPc_enc s _
@[simp] theorem State.advance_arg (s : State) (n : Word) : (s.advance n).arg = s.arg := State.setPc_arg s _
@[simp] theorem State.advance_cores (s : State) (n : Word) : (s.advance n).cores = s.cores := State.setPc_cores s _
@[simp] theorem State.advance_mills (s : State) (n : Word) : (s.advance n).mills = s.mills := State.setPc_mills s _
@[simp] theorem State.advance_dies (s : State) (n : Word) : (s.advance n).dies = s.dies := State.setPc_dies s _
@[simp] theorem State.advance_mem (s : State) (n : Word) : (s.advance n).mem = s.mem := State.setPc_mem s _
@[simp] theorem State.advance_poison (s : State) (n : Word) : (s.advance n).poison = s.poison := State.setPc_poison s _
@[simp] theorem State.advance_dramErr (s : State) (n : Word) : (s.advance n).dramErr = s.dramErr := State.setPc_dramErr s _
@[simp] theorem State.advance_latent (s : State) (n : Word) : (s.advance n).latent = s.latent := State.setPc_latent s _
@[simp] theorem State.advance_tlb (s : State) (n : Word) : (s.advance n).tlb = s.tlb := State.setPc_tlb s _
@[simp] theorem State.advance_walks (s : State) (n : Word) : (s.advance n).walks = s.walks := State.setPc_walks s _
@[simp] theorem State.advance_ops (s : State) (n : Word) : (s.advance n).ops = s.ops := State.setPc_ops s _
@[simp] theorem State.advance_colls (s : State) (n : Word) : (s.advance n).colls = s.colls := State.setPc_colls s _
@[simp] theorem State.advance_peers (s : State) (n : Word) : (s.advance n).peers = s.peers := State.setPc_peers s _
@[simp] theorem State.advance_gleans (s : State) (n : Word) : (s.advance n).gleans = s.gleans := State.setPc_gleans s _
@[simp] theorem State.advance_nests (s : State) (n : Word) : (s.advance n).nests = s.nests := State.setPc_nests s _
@[simp] theorem State.advance_reeve (s : State) (n : Word) : (s.advance n).reeve = s.reeve := State.setPc_reeve s _
@[simp] theorem State.advance_ccs (s : State) (n : Word) : (s.advance n).ccs = s.ccs := State.setPc_ccs s _
@[simp] theorem State.advance_ue (s : State) (n : Word) : (s.advance n).ue = s.ue := State.setPc_ue s _
@[simp] theorem State.advance_replies (s : State) (n : Word) : (s.advance n).replies = s.replies := State.setPc_replies s _
@[simp] theorem State.advance_time (s : State) (n : Word) : (s.advance n).time = s.time := State.setPc_time s _
@[simp] theorem State.advance_agenda (s : State) (n : Word) : (s.advance n).agenda = s.agenda := State.setPc_agenda s _
@[simp] theorem State.advance_pend (s : State) (n : Word) : (s.advance n).pend = s.pend := State.setPc_pend s _
@[simp] theorem State.advance_yielded (s : State) (n : Word) : (s.advance n).yielded = s.yielded := State.setPc_yielded s _
@[simp] theorem State.advance_streak (s : State) (n : Word) : (s.advance n).streak = s.streak := State.setPc_streak s _
@[simp] theorem State.advance_freeCtr (s : State) (n : Word) : (s.advance n).freeCtr = s.freeCtr := State.setPc_freeCtr s _
@[simp] theorem State.advance_nextId (s : State) (n : Word) : (s.advance n).nextId = s.nextId := State.setPc_nextId s _

theorem State.core_setCore (s : State) (n : Nat) (c : Core) : (s.setCore n c).core n = c := by
  simp only [State.core, State.setCore]
  have h : ∀ l : List (Nat × Core), lookupN n (insertN n c l) = some c := by
    intro l
    induction l with
    | nil => simp [insertN, lookupN]
    | cons p l ih =>
      obtain ⟨k, v⟩ := p
      simp only [insertN]
      split
      · simp [lookupN]
      · split
        · simp [lookupN]
        · simp only [lookupN]; rw [if_neg (by omega)]; exact ih
  simp [h]

/-- What a context register reads after a write of it: nothing is written to x0 (R128). -/
theorem Ctx.getX_setX (c : Ctx) (r q : XReg) (v : Word) :
    (c.setX r v).getX q = if q = 0 then 0 else if q = r then v else c.getX q := by
  unfold Ctx.setX Ctx.getX
  by_cases h0 : q = 0
  · simp [h0]
  · by_cases hr : r = 0
    · simp only [h0, hr, if_false, if_true]
    · by_cases hq : q = r
      · subst hq; simp only [hr, if_false, if_true, Vector.getElem_set_self]
      · have : r.toNat ≠ q.toNat := fun h => hq (BitVec.eq_of_toNat_eq h.symm)
        simp only [h0, hr, hq, if_false, Vector.getElem_set, this]

theorem Ctx.getH_setH (c : Ctx) (r q : HReg) (v : Word) :
    (c.setH r v).getH q = if q = 0 then 0 else if q = r then v else c.getH q := by
  unfold Ctx.setH Ctx.getH
  by_cases h0 : q = 0
  · simp [h0]
  · by_cases hr : r = 0
    · simp only [h0, hr, if_false, if_true]
    · by_cases hq : q = r
      · subst hq; simp only [hr, if_false, if_true, Vector.getElem_set_self]
      · have : r.toNat ≠ q.toNat := fun h => hq (BitVec.eq_of_toNat_eq h.symm)
        simp only [h0, hr, hq, if_false, Vector.getElem_set, this]

end Sys2Proof.Machine
end

