-- ==== Sys2Proof/Laws/Access.lean ====
section
/-! SUPPORT. What the shared operations on caches, translations and memory can change: one lemma for each, so that no
later proof unfolds them. -/

namespace Sys2Proof.Machine

/-! Association lists and folds. -/

theorem lookupN_insertN {α : Type} (k : Nat) (v : α) (l : List (Nat × α)) (m : Nat) :
    lookupN m (insertN k v l) = if m = k then some v else lookupN m l := by
  induction l with
  | nil =>
    by_cases h : m = k
    · simp [insertN, lookupN, h]
    · simp [insertN, lookupN, h, Ne.symm h]
  | cons p l ih =>
    obtain ⟨k', v'⟩ := p
    simp only [insertN]
    by_cases h : m = k
    · subst h
      split
      · simp [lookupN]
      · split
        · simp [lookupN]
        · next h2 => simp [lookupN, ih, Ne.symm h2]
    · split
      · simp [lookupN, Ne.symm h]
      · split
        · next h2 => subst h2; simp [lookupN, Ne.symm h]
        · simp only [lookupN, ih, if_neg h]

theorem State.core_setCore_any (s : State) (n : Nat) (c : Core) (m : Nat) : (s.setCore n c).core m = if m = n then c else s.core m := by
  unfold State.core State.setCore
  rw [lookupN_insertN]
  split <;> rfl

theorem State.core_modCore (s : State) (n : Nat) (f : Core → Core) (m : Nat) : (s.modCore n f).core m = if m = n then f (s.core n) else s.core m :=
  s.core_setCore_any n _ m

theorem State.mill_setMill (s : State) (n : Nat) (x : Mill) (m : Nat) : (s.setMill n x).mill m = if m = n then x else s.mill m := by
  unfold State.mill State.setMill
  rw [lookupN_insertN]
  split <;> rfl

theorem State.die_setDie (s : State) (d : BitVec 2) (x : Die) (e : BitVec 2) : (s.setDie d x).die e = if e = d then x else s.die e := by
  unfold State.die State.setDie
  by_cases h : e = d
  · subst h; simp
  · simp only [h, if_false]
    exact Vector.getElem_set_ne _ _ (fun hn => h (BitVec.eq_of_toNat_eq hn.symm))

theorem State.die_modDie (s : State) (d : BitVec 2) (f : Die → Die) (e : BitVec 2) : (s.modDie d f).die e = if e = d then f (s.die d) else s.die e :=
  s.die_setDie d _ e

theorem lookupN_map {α : Type} (f : Nat → α → α) (l : List (Nat × α)) (n : Nat) :
    lookupN n (l.map (fun q => (q.1, f q.1 q.2))) = (lookupN n l).map (f n) := by
  induction l with
  | nil => rfl
  | cons p l ih =>
    obtain ⟨k, v⟩ := p
    simp only [List.map_cons, lookupN]
    split
    · next h => subst h; rfl
    · exact ih

/-- What holds of the start and is carried by each element holds of the end of a fold that does not fail. -/
theorem foldE_ind {ε σ α : Type} {f : σ → α → Except ε σ} {P : σ → Prop} (step : ∀ s a t, P s → f s a = .ok t → P t) (l : List α) :
    ∀ {s t : σ}, P s → foldE f s l = .ok t → P t := by
  induction l with
  | nil => intro s t hs h; cases h; exact hs
  | cons a l ih =>
    intro s t hs h
    rw [foldE] at h
    cases hf : f s a with
    | error e => rw [hf] at h; cases h
    | ok u => rw [hf] at h; exact ih (step s a u hs hf) h

theorem foldl_ind {σ α : Type} {f : σ → α → σ} {P : σ → Prop} (step : ∀ s a, P s → P (f s a)) (l : List α) : ∀ {s : σ}, P s → P (l.foldl f s) := by
  induction l with
  | nil => exact fun h => h
  | cons a l ih => exact fun h => ih (step _ _ h)

/-! What an access may touch beside its own bytes. -/

/-- From s to t nothing changed but which lines and translations are cached, which words are marked, counters, and the work
that this gives to other units: contexts, memory, the Field, the engines' operations and the tables of leases stand. -/
structure Kept (s t : State) : Prop where
  node : t.node = s.node
  ctx : t.ctx = s.ctx
  others : t.others = s.others
  lane : t.lane = s.lane
  enc : t.enc = s.enc
  arg : t.arg = s.arg
  mem : t.mem = s.mem
  mills : t.mills = s.mills
  ops : t.ops = s.ops
  colls : t.colls = s.colls
  peers : t.peers = s.peers
  gleans : t.gleans = s.gleans
  nests : t.nests = s.nests
  leases : t.reeve.leases = s.reeve.leases
  subs : t.reeve.subs = s.reeve.subs
  ccs : t.ccs = s.ccs
  time : t.time = s.time
  agenda : t.agenda = s.agenda
  yielded : t.yielded = s.yielded
  streak : t.streak = s.streak
  nextId : t.nextId = s.nextId
  field : ∀ n, (t.core n).field = (s.core n).field
  fieldErr : ∀ n, (t.core n).fieldErr = (s.core n).fieldErr
  split : ∀ n, (t.core n).split = (s.core n).split
  board : ∀ n, (t.core n).board = (s.core n).board
  laneErr : ∀ n, (t.core n).laneErr = (s.core n).laneErr
  pipeown : ∀ n f, ((t.core n).fe f).pipeown = ((s.core n).fe f).pipeown
  streams : ∀ n f, ((t.core n).fe f).streams = ((s.core n).fe f).streams
  pend : ∀ p ∈ s.pend, p ∈ t.pend

namespace Kept

theorem refl (s : State) : Kept s s := by constructor <;> first | rfl | (intros; rfl) | exact fun _ h => h

theorem trans {s t u : State} (a : Kept s t) (b : Kept t u) : Kept s u where
  node := b.node.trans a.node
  ctx := b.ctx.trans a.ctx
  others := b.others.trans a.others
  lane := b.lane.trans a.lane
  enc := b.enc.trans a.enc
  arg := b.arg.trans a.arg
  mem := b.mem.trans a.mem
  mills := b.mills.trans a.mills
  ops := b.ops.trans a.ops
  colls := b.colls.trans a.colls
  peers := b.peers.trans a.peers
  gleans := b.gleans.trans a.gleans
  nests := b.nests.trans a.nests
  leases := b.leases.trans a.leases
  subs := b.subs.trans a.subs
  ccs := b.ccs.trans a.ccs
  time := b.time.trans a.time
  agenda := b.agenda.trans a.agenda
  yielded := b.yielded.trans a.yielded
  streak := b.streak.trans a.streak
  nextId := b.nextId.trans a.nextId
  field n := (b.field n).trans (a.field n)
  fieldErr n := (b.fieldErr n).trans (a.fieldErr n)
  split n := (b.split n).trans (a.split n)
  board n := (b.board n).trans (a.board n)
  laneErr n := (b.laneErr n).trans (a.laneErr n)
  pipeown n f := (b.pipeown n f).trans (a.pipeown n f)
  streams n f := (b.streams n f).trans (a.streams n f)
  pend p h := b.pend p (a.pend p h)

/-- Updates of the fields that an access may change. -/
theorem of_tlb (s : State) (l : List Tlb) : Kept s { s with tlb := l } := by constructor <;> first | rfl | (intros; rfl) | exact fun _ h => h
theorem of_poison (s : State) (l : List Nat) : Kept s { s with poison := l } := by constructor <;> first | rfl | (intros; rfl) | exact fun _ h => h
theorem of_dramErr (s : State) (l : List (Nat × BitVec 16)) : Kept s { s with dramErr := l } := by constructor <;> first | rfl | (intros; rfl) | exact fun _ h => h
theorem of_latent (s : State) (l : List (Nat × BitVec 16)) : Kept s { s with latent := l } := by constructor <;> first | rfl | (intros; rfl) | exact fun _ h => h
theorem of_dram (s : State) (d l : List (Nat × BitVec 16)) : Kept s { s with dramErr := d, latent := l } := (of_dramErr s d).trans (of_latent _ l)
theorem of_walks (s : State) (l : List WalkEntry) : Kept s { s with walks := l } := by constructor <;> first | rfl | (intros; rfl) | exact fun _ h => h
theorem of_dies (s : State) (l : Vector Die 4) : Kept s { s with dies := l } := by constructor <;> first | rfl | (intros; rfl) | exact fun _ h => h
theorem of_freeCtr (s : State) (n : Nat) : Kept s { s with freeCtr := n } := by constructor <;> first | rfl | (intros; rfl) | exact fun _ h => h
theorem of_setDie (s : State) (d : BitVec 2) (x : Die) : Kept s (s.setDie d x) := of_dies s _
theorem of_free (s : State) : Kept s s.free.2 := of_freeCtr s _
theorem of_post (s : State) (i : Instr) (a : EventArg) : Kept s (s.post i a) := by
  constructor <;> first | rfl | (intros; rfl) | exact fun _ h => List.mem_append_left _ h
theorem of_addBox (s : State) (h d : Word) : Kept s (s.addBox h d).1 := by constructor <;> first | rfl | (intros; rfl) | exact fun _ h => h

/-- A core's caches and counters may change. -/
theorem of_setCore (s : State) (n : Nat) (c : Core) (h1 : c.field = (s.core n).field) (h2 : c.fieldErr = (s.core n).fieldErr) (h3 : c.split = (s.core n).split)
    (h4 : c.board = (s.core n).board) (h5 : c.laneErr = (s.core n).laneErr) (h6 : ∀ f, (c.fe f).pipeown = ((s.core n).fe f).pipeown)
    (h7 : ∀ f, (c.fe f).streams = ((s.core n).fe f).streams) : Kept s (s.setCore n c) := by
  constructor <;> first
    | rfl
    | exact fun _ h => h
    | (intro m; rw [State.core_setCore_any]; split <;> first | (next h => subst h; assumption) | rfl)
    | (intro m f; rw [State.core_setCore_any]; split <;> first | (next h => subst h; first | exact h6 f | exact h7 f) | rfl)

theorem of_caches (s : State) (n : Nat) (l : List L1Line) (g : List Gathered) (v : Vector Word 16) :
    Kept s (s.setCore n { s.core n with l1 := l, gathered := g, evcnt := v }) :=
  of_setCore s n _ rfl rfl rfl rfl rfl (fun _ => rfl) (fun _ => rfl)

/-- Stash mappings of a front end may be filled and emptied. -/
theorem of_maps (s : State) (n : Nat) (f : Bool) (g : List StashMap → List StashMap) :
    Kept s (s.modCore n (fun c => c.modFe f (fun x => { x with maps := g x.maps }))) := by
  unfold State.modCore
  refine of_setCore s n _ ?_ ?_ ?_ ?_ ?_ ?_ ?_ <;> (try intro h) <;> cases f <;> (try cases h) <;> rfl

/-- What every core keeps, whichever it becomes. -/
theorem of_cores (s : State) (l : List (Nat × Core)) (h : ∀ n, ({ s with cores := l } : State).core n = s.core n ∨
    ∃ c : Core, ({ s with cores := l } : State).core n = c ∧ c.field = (s.core n).field ∧ c.fieldErr = (s.core n).fieldErr ∧ c.split = (s.core n).split ∧
      c.board = (s.core n).board ∧ c.laneErr = (s.core n).laneErr ∧ (∀ f, (c.fe f).pipeown = ((s.core n).fe f).pipeown) ∧
      ∀ f, (c.fe f).streams = ((s.core n).fe f).streams) : Kept s { s with cores := l } where
  node := rfl
  ctx := rfl
  others := rfl
  lane := rfl
  enc := rfl
  arg := rfl
  mem := rfl
  mills := rfl
  ops := rfl
  colls := rfl
  peers := rfl
  gleans := rfl
  nests := rfl
  leases := rfl
  subs := rfl
  ccs := rfl
  time := rfl
  agenda := rfl
  yielded := rfl
  streak := rfl
  nextId := rfl
  field n := by rcases h n with h | ⟨_, h, hc, _⟩ <;> rw [h]; exact hc
  fieldErr n := by rcases h n with h | ⟨_, h, _, hc, _⟩ <;> rw [h]; exact hc
  split n := by rcases h n with h | ⟨_, h, _, _, hc, _⟩ <;> rw [h]; exact hc
  board n := by rcases h n with h | ⟨_, h, _, _, _, hc, _⟩ <;> rw [h]; exact hc
  laneErr n := by rcases h n with h | ⟨_, h, _, _, _, _, hc, _⟩ <;> rw [h]; exact hc
  pipeown n f := by rcases h n with h | ⟨_, h, _, _, _, _, _, hc, _⟩ <;> rw [h]; exact hc f
  streams n f := by rcases h n with h | ⟨_, h, _, _, _, _, _, _, hc⟩ <;> rw [h]; exact hc f
  pend _ h := h

theorem foldl {α : Type} {f : State → α → State} (step : ∀ s a, Kept s (f s a)) (l : List α) (s : State) : Kept s (l.foldl f s) :=
  foldl_ind (P := Kept s) (fun t a h => h.trans (step t a)) l (refl s)

end Kept

namespace State

theorem kept_poisonLine (s : State) (line : Nat) (w : BitVec 16) : Kept s (s.poisonLine line w) := Kept.of_poison s _

theorem kept_dramScan (s : State) (line : Nat) : Kept s (s.dramScan line) := by
  unfold dramScan
  split
  · exact Kept.refl s
  · exact (Kept.of_dram s _ _).trans (Kept.of_post _ _ _)

theorem kept_dramRead (s : State) (line : Nat) : Kept s (s.dramRead line) := by
  unfold dramRead
  split
  · exact Kept.refl s
  · have h0 := kept_dramScan s line
    dsimp only
    generalize s.dramScan line = t at h0
    split
    · exact h0
    · exact (h0.trans (Kept.of_latent t _)).trans (kept_poisonLine _ _ _)

theorem kept_dramWrite (s : State) (line : Nat) : Kept s (s.dramWrite line) := Kept.of_dram s _ _

theorem kept_countDie (s : State) (d : BitVec 2) (l b : Byte) (e n : Nat) : Kept s (s.countDie d l b e n) := by
  unfold countDie
  dsimp only
  split
  · exact Kept.refl s
  · exact Kept.of_setDie s _ _

theorem kept_dramBytes (s : State) (line : Nat) (l b : Byte) (n : Nat) : Kept s (s.dramBytes line l b n) := by
  unfold dramBytes
  split
  · exact kept_countDie s _ _ _ _ _
  · exact Kept.refl s

theorem kept_l2WriteBack (s : State) (d : BitVec 2) (x : L2Way) : Kept s (s.l2WriteBack d x) := by
  refine Kept.foldl (fun s i => ?_) _ s
  split
  · exact (kept_dramWrite s _).trans (kept_dramBytes _ _ _ _ _)
  · exact Kept.refl s

theorem kept_l2Mod (s : State) (d : BitVec 2) (y : L2Way) (f : L2Way → L2Way) : Kept s (s.l2Mod d y f) := Kept.of_setDie s _ _

theorem kept_l2Victim {s : State} {d : BitVec 2} {slice set group : Nat} :
    (∀ w t, s.l2Victim d slice set group = .ok (w, t) → Kept s t) ∧ ∀ t, s.l2Victim d slice set group = .error t → Kept s t := by
  unfold l2Victim
  dsimp only [free]
  constructor
  · intro w t h
    split at h
    · cases h; exact Kept.refl s
    · split at h
      · cases h
      · split at h
        · cases h; exact Kept.of_free s
        · split at h
          · cases h
          · cases h; exact ((Kept.of_free s).trans (kept_l2WriteBack _ _ _)).trans (Kept.of_setDie _ _ _)
  · intro t h
    split at h
    · cases h
    · split at h
      · cases h; exact Kept.refl s
      · split at h
        · cases h
        · split at h
          · cases h; exact (Kept.of_free s).trans (Kept.of_post _ _ _)
          · cases h

theorem kept_l2Touch (s : State) (d : BitVec 2) (g : Option Nat) (line : Nat) (write whole : Bool) : Kept s (s.l2Touch d g line write whole) := by
  unfold l2Touch
  dsimp only
  split
  · split
    · exact kept_l2Mod s _ _ _
    · exact Kept.refl s
  · have h0 : Kept s (if write && whole then s.dramWrite line else s.dramRead line) := by
      split
      · exact kept_dramWrite s line
      · exact kept_dramRead s line
    generalize (if write && whole then s.dramWrite line else s.dramRead line) = t at h0
    split
    · exact h0
    · refine h0.trans ?_
      generalize hu : (if (bitAt (t.die d).errinj 63 && bits (t.die d).errinj 62 60 == 0 && bits (t.die d).errinj 47 7 == line) = true
        then t.post .errinjPerform (.die d) else t) = u
      have h1 : Kept t u := by
        rw [← hu]; split
        · exact Kept.of_post t _ _
        · exact Kept.refl t
      refine h1.trans ?_
      split
      · exact kept_l2Mod u _ _ _
      · split
        · next h => exact kept_l2Victim.2 _ h
        · next h => exact (kept_l2Victim.1 _ _ h).trans (Kept.of_setDie _ _ _)

theorem kept_l2Detect (s : State) (d : BitVec 2) (line : Nat) : Kept s (s.l2Detect d line).1 := by
  unfold l2Detect
  split
  · exact Kept.refl s
  · split
    · exact Kept.refl s
    · split
      · exact Kept.refl s
      · exact (kept_l2Mod s _ _ _).trans (Kept.of_addBox _ _ _)

theorem kept_writeBack (s : State) (w : Who) (line : Nat) : Kept s (s.writeBack w line) := by
  unfold writeBack
  have h := kept_l2Detect s (l2Die w line) line
  dsimp only
  generalize s.l2Detect (l2Die w line) line = r at h ⊢
  obtain ⟨t, o⟩ := r
  cases o <;> dsimp only at h ⊢
  · refine h.trans (Kept.trans ?_ (kept_l2Touch _ _ _ _ _ _))
    split
    · exact kept_dramBytes t _ _ _ _
    · exact Kept.refl t
  · refine h.trans (Kept.trans ?_ (Kept.of_post _ _ _))
    split
    · exact Kept.refl t
    · exact kept_l2Mod t _ _ _

theorem kept_count (s : State) (core : Nat) (f : Bool) (e n : Nat) : Kept s (s.count core f e n) := by
  unfold count
  dsimp only
  split
  · exact Kept.refl s
  · exact Kept.of_caches s core _ _ _

theorem kept_countCtx (s : State) (e n : Nat) : Kept s (s.countCtx e n) := by
  unfold countCtx
  split
  · exact Kept.refl s
  · exact kept_count s _ _ _ _

theorem kept_l2Count (s : State) (w : Who) (line : Nat) (write whole : Bool) : Kept s (s.l2Count w line write whole) := by
  unfold l2Count
  dsimp only
  split
  · exact Kept.refl s
  · exact (kept_countDie s _ _ _ _ _).trans (kept_dramBytes _ _ _ _ _)

theorem kept_l1Evict (s : State) (w : Who) (core set : Nat) : Kept s (s.l1Evict w core set) := by
  unfold l1Evict
  dsimp only
  have hc : s.free.2.core core = s.core core := rfl
  have h0 := Kept.of_free s
  generalize s.free.2 = t at h0 hc
  rw [← hc]
  split
  · exact Kept.refl s
  · split
    · split
      · exact h0
      · exact h0.trans (Kept.of_caches t core _ _ _)
    · split
      · exact (h0.trans (Kept.of_caches t core _ _ _)).trans (kept_writeBack _ _ _)
      · exact h0.trans (Kept.of_caches t core _ _ _)

theorem kept_recallL1 (s : State) (w : Who) (n line : Nat) (write : Bool) : Kept s (s.recallL1 w n line write) := by
  unfold recallL1
  dsimp only
  split
  · exact (Kept.of_caches s n _ _ _).trans (kept_writeBack _ _ _)
  · exact Kept.of_caches s n _ _ _

theorem kept_recallStash (s : State) (w : Who) (n : Nat) (f : Bool) (p : Path) (line : Nat) (write : Bool) : Kept s (s.recallStash w n f p line write) := by
  unfold recallStash
  dsimp only
  split
  · exact Kept.refl s
  · split
    · exact (Kept.of_maps s n f _).trans (kept_writeBack _ _ _)
    · exact Kept.of_maps s n f _

theorem kept_recallLine (s : State) (w : Who) (p : Path) (line : Nat) (write : Bool) : Kept s (s.recallLine w p line write) := by
  refine Kept.foldl (fun t q => ?_) _ s
  split
  · exact Kept.refl t
  · dsimp only
    refine Kept.trans ?_ ((kept_recallStash _ w q.1 false p line write).trans (kept_recallStash _ w q.1 true p line write))
    split
    · exact Kept.refl t
    · exact kept_recallL1 t w q.1 line write

theorem kept_l1Touch (s : State) (w : Who) (core : Nat) (f : Bool) (line : Nat) (write whole : Bool) (keep : Keep) :
    Kept s (s.l1Touch w core f line write whole keep) := by
  unfold l1Touch
  dsimp only
  split
  · split
    · exact Kept.of_caches s core _ _ _
    · exact Kept.refl s
  · have h0 := (kept_count s core f 0x05 1).trans (kept_l2Count _ w line (write && keep == .no) whole)
    split
    · exact h0.trans (kept_l2Touch _ _ _ _ _ _)
    · exact ((h0.trans (kept_l2Touch _ _ _ _ _ _)).trans (kept_l1Evict _ w core _)).trans
        (Kept.of_caches _ core _ _ _)

theorem kept_stashTouch (s : State) (w : Who) (core : Nat) (f : Bool) (off idx : Nat) (e : Tlb) (line : Nat) (write : Bool) :
    Kept s (s.stashTouch w core f off idx e line write) := by
  unfold stashTouch
  dsimp only
  refine Kept.trans ?_ (Kept.of_maps _ core f _)
  split
  · exact Kept.refl s
  · exact (kept_l2Count s w line false false).trans (kept_l2Touch _ _ _ _ _ _)

theorem kept_uncached (s : State) (w : Who) (line : Nat) (write whole : Bool) : Kept s (s.uncached w line write whole) := by
  unfold uncached
  split
  · exact Kept.refl s
  · dsimp only
    refine Kept.trans (kept_dramBytes s line w.lease w.sub ((if write && whole then 0 else 128) + if write then 128 else 0)) ?_
    generalize s.dramBytes line w.lease w.sub ((if write && whole then 0 else 128) + if write then 128 else 0) = t
    split
    · exact kept_dramWrite _ line
    · exact kept_dramRead _ line

/-- The caches on the way of an access (R32-R43). -/
theorem kept_touch (s : State) (w : Who) (p : Path) (line : Nat) (write whole : Bool) (keep : Keep) :
    Kept s (s.touch w p line write whole keep) := by
  unfold touch
  split
  · exact Kept.refl s
  · dsimp only
    have h0 := kept_recallLine s w p line write
    split
    · exact h0.trans (kept_l1Touch _ _ _ _ _ _ _ _)
    · exact h0.trans (kept_stashTouch _ _ _ _ _ _ _ _ _)
    · exact (h0.trans (kept_l2Count _ _ _ _ _)).trans (kept_l2Touch _ _ _ _ _ _)
    · exact h0.trans (kept_uncached _ _ _ _ _)

theorem kept_detectLine {s t : State} {w : Who} {line : Nat} (h : s.detectLine w line = .ok t ∨ s.detectLine w line = .error t) : Kept s t := by
  have h0 := kept_l2Detect s (l2Die w line) line
  unfold detectLine at h
  generalize s.l2Detect (l2Die w line) line = r at h0 h
  obtain ⟨u, o⟩ := r
  cases o with
  | none => rcases h with h | h <;> cases h; exact h0
  | some x => rcases h with h | h <;> cases h; exact h0.trans (Kept.of_post _ _ _)

end State

/-! Accesses that may fault or wait. -/

/-- Whatever an access comes to, nothing but caches and translations has changed. -/
def KeptBy {α : Type} (s : State) : ARes (α × State) → Prop
  | .ok (_, t) => Kept s t
  | .error (.fault t _) => Kept s t
  | .error (.wait t) => Kept s t

namespace KeptBy

theorem ok {α : Type} {s t : State} {a : α} {r : ARes (α × State)} (k : KeptBy s r) (h : r = .ok (a, t)) : Kept s t := by subst h; exact k

theorem after {α : Type} {s t : State} {r : ARes (α × State)} (h : Kept s t) (k : KeptBy t r) : KeptBy s r := by
  match r, k with
  | .ok (_, _), k => exact h.trans k
  | .error (.fault _ _), k => exact h.trans k
  | .error (.wait _), k => exact h.trans k

theorem bind {α β : Type} {s : State} {r : ARes (α × State)} {f : α × State → ARes (β × State)} (h : KeptBy s r)
    (k : ∀ a t, r = .ok (a, t) → KeptBy t (f (a, t))) : KeptBy s (r >>= f) := by
  match r, h, k with
  | .ok (a, t), h, k => exact after h (k a t rfl)
  | .error (.fault _ _), h, _ => exact h
  | .error (.wait _), h, _ => exact h

end KeptBy

namespace State

theorem kept_readEntry (s : State) (w : Who) (pa : Nat) : KeptBy s (s.readEntry w pa) := by
  unfold readEntry
  split
  · exact Kept.refl s
  · split
    · next h => exact kept_detectLine (.inr h)
    · next h => exact (kept_detectLine (.inl h)).trans (kept_touch _ _ _ _ _ _ _)

theorem kept_walkPut (s : State) (e : WalkEntry) : Kept s (s.walkPut e) := by
  unfold walkPut
  dsimp only
  split
  · exact Kept.of_walks s _
  · exact (Kept.of_free s).trans (Kept.of_walks _ _)

theorem kept_walk2 (w : Who) (ipa n : Nat) : ∀ (s : State) (table : Nat), KeptBy s (s.walk2 w ipa n table) := by
  induction n with
  | zero => exact fun s _ => Kept.refl s
  | succ n ih =>
    intro s table
    rw [walk2]
    refine KeptBy.bind (kept_readEntry s w _) (fun e t _ => ?_)
    dsimp only
    split
    · exact Kept.refl t
    · exact KeptBy.after (kept_walkPut t _) (ih _ _)
    · exact Kept.refl t

theorem kept_stage2 (s : State) (w : Who) (fresh : Bool) (ipa : Nat) : KeptBy s (s.stage2 w fresh ipa) := by
  unfold stage2
  split
  · exact Kept.refl s
  · exact kept_walk2 w ipa _ s _

theorem kept_walk1 (w : Who) (fresh : Bool) (va n : Nat) : ∀ (s : State) (table : Nat), KeptBy s (s.walk1 w fresh va n table) := by
  induction n with
  | zero => exact fun s _ => Kept.refl s
  | succ n ih =>
    intro s table
    rw [walk1]
    refine KeptBy.bind (kept_stage2 s w fresh _) (fun l2 t _ => ?_)
    dsimp only
    split
    · exact Kept.refl t
    · refine KeptBy.bind (kept_readEntry t w _) (fun e u _ => ?_)
      dsimp only
      split
      · exact Kept.refl u
      · exact KeptBy.after (kept_walkPut u _) (ih _ _)
      · exact Kept.refl u

theorem kept_walkBoth (s : State) (w : Who) (fresh : Bool) (k : Acc) (va : Word) : KeptBy s (s.walkBoth w fresh k va) := by
  unfold walkBoth
  dsimp only
  split
  · exact Kept.refl s
  · split
    · exact Kept.refl s
    · refine KeptBy.bind (kept_walk1 w fresh _ _ s _) (fun l1 t _ => ?_)
      dsimp only
      split
      · exact Kept.refl t
      · refine KeptBy.bind (kept_stage2 t w fresh _) (fun l2 u _ => ?_)
        dsimp only
        split <;> exact Kept.refl u

theorem kept_tlbPut (s : State) (w : Who) (va : Word) (e : Tlb) (p : TlbAt) : Kept s (s.tlbPut w va e p) := by
  unfold tlbPut
  dsimp only
  split
  · exact Kept.of_tlb s _
  · exact (Kept.of_free s).trans (Kept.of_tlb _ _)

theorem kept_cacheTlb (s : State) (w : Who) (va : Word) (e : Tlb) : Kept s (s.cacheTlb w va e) :=
  Kept.foldl (fun s p => kept_tlbPut s w va e p) _ s

theorem kept_refill (s : State) (w : Who) (va : Word) (e : Tlb) : Kept s (s.refill w va e) := by
  unfold refill
  split
  · split
    · exact Kept.refl s
    · exact kept_tlbPut s w va e _
  · exact Kept.refl s

theorem kept_walkFresh (s : State) (w : Who) (k : Acc) (va : Word) (test : Tlb → Option Nat) : KeptBy s (s.walkFresh w k va test) := by
  unfold walkFresh
  refine KeptBy.bind (kept_walkBoth s w true k va) (fun e t _ => ?_)
  dsimp only
  split
  · exact Kept.refl t
  · exact kept_cacheTlb t w va e

/-- A translation changes only what is cached (R24, R27). -/
theorem kept_translate (s : State) (w : Who) (k : Acc) (va : Word) (test : Tlb → Option Nat) : KeptBy s (s.translate w k va test) := by
  unfold translate
  split
  · split
    · exact kept_refill s w va _
    · exact kept_walkFresh s w k va test
  · have h0 := kept_walkBoth s w false k va
    split
    · next e t h =>
      split
      · exact (h0.ok h).trans (kept_cacheTlb _ _ _ _)
      · exact KeptBy.after (h0.ok h) (kept_walkFresh _ w k va test)
    · next t f h => rw [h] at h0; exact KeptBy.after h0 (kept_walkFresh _ w k va test)
    · next t h => rw [h] at h0; exact h0

/-- What a fresh walk answers has passed the test of the later checks. -/
theorem walkFresh_test {s t : State} {w : Who} {k : Acc} {va : Word} {test : Tlb → Option Nat} {e : Tlb}
    (h : s.walkFresh w k va test = .ok (e, t)) : test e = none := by
  unfold walkFresh at h
  cases hb : s.walkBoth w true k va with
  | error x => rw [hb] at h; cases h
  | ok r =>
    obtain ⟨e', u⟩ := r
    rw [hb] at h
    dsimp only [bind, Except.bind] at h
    split at h
    · cases h
    · next ht => cases h; exact ht

/-- A translation that is admitted has passed the test of the later checks. -/
theorem translate_test {s t : State} {w : Who} {k : Acc} {va : Word} {test : Tlb → Option Nat} {e : Tlb}
    (h : s.translate w k va test = .ok (e, t)) : test e = none := by
  unfold translate at h
  split at h
  · split at h
    · next hc => cases h; simpa using (Bool.and_eq_true_iff.1 hc).2
    · exact walkFresh_test h
  · split at h
    · split at h
      · next hc => cases h; simpa using hc
      · exact walkFresh_test h
    · exact walkFresh_test h
    · cases h

/-- The checks of R25: what passes them is aligned, translated, of a class that admits it, and atomic only where atomics go. -/
theorem checked_ok {s t : State} {w : Who} {c : Ctx} {a : Agent} {k : Acc} {sc : Scope} {al n : Nat} {va : Word} {e : Tlb}
    (h : s.checked w c a k sc al va n = .ok (e, t)) :
    va.toNat % al = 0 ∧ s.translate w k va (classTest c a k sc va n) = .ok (e, t) ∧ classTest c a k sc va n e = none := by
  unfold checked at h
  split at h
  · cases h
  · next ha => exact ⟨by simpa using ha, h, translate_test h⟩

theorem kept_checked (s : State) (w : Who) (c : Ctx) (a : Agent) (k : Acc) (sc : Scope) (al : Nat) (va : Word) (n : Nat) :
    KeptBy s (s.checked w c a k sc al va n) := by
  unfold checked
  split
  · exact Kept.refl s
  · exact kept_translate s _ _ _ _

theorem kept_stashEntry (s : State) (m : StashMap) (idx : Nat) (a : Agent) (k : Acc) (sc : Scope) (va : Word) (n : Nat) :
    KeptBy s (s.stashEntry m idx a k sc va n) := by
  unfold stashEntry
  dsimp only
  split
  · exact kept_translate s _ _ _ _
  · split
    · exact Kept.refl s
    · exact kept_walkFresh s _ _ _ _

/-- An access on its way to the caches changes only what is cached, and the work that an error gives (R25, R42, R44, R46). -/
theorem kept_reach (s : State) (a : Agent) (k : Acc) (sc : Scope) (va : Word) (n : Nat) : KeptBy s (s.reach a k sc va n) := by
  unfold reach
  dsimp only
  split
  · split
    · exact Kept.refl s
    · refine KeptBy.bind (kept_stashEntry s _ _ a k sc va n) (fun e t _ => ?_)
      dsimp only
      split
      · exact Kept.refl t
      · split
        · next h =>
          split at h
          · cases h
          · exact kept_detectLine (.inr h)
        · next h =>
          split at h
          · cases h; exact Kept.refl _
          · exact kept_detectLine (.inl h)
  · refine KeptBy.bind (kept_checked s _ _ a k sc n va n) (fun e t _ => ?_)
    dsimp only
    split
    · exact Kept.refl t
    · split
      · next h => exact kept_detectLine (.inr h)
      · next h => exact kept_detectLine (.inl h)

theorem access_ok {s t : State} {a : Agent} {k : Acc} {sc : Scope} {va : Word} {n : Nat} {r : Reached} {keep : Keep}
    (h : s.access a k sc va n keep = .ok (r, t)) : ∃ u, s.reach a k sc va n = .ok (r, u) ∧ Kept s t := by
  unfold access at h
  cases hr : s.reach a k sc va n with
  | error e => rw [hr] at h; cases h
  | ok x =>
    obtain ⟨p, u⟩ := x
    rw [hr] at h
    dsimp only [bind, Except.bind] at h
    cases h
    exact ⟨u, rfl, ((kept_reach s a k sc va n).ok hr).trans (kept_touch _ _ _ _ _ _ _)⟩

theorem kept_access {s t : State} {a : Agent} {k : Acc} {sc : Scope} {va : Word} {n : Nat} {r : Reached} {keep : Keep}
    (h : s.access a k sc va n keep = .ok (r, t)) : Kept s t := by obtain ⟨_, _, h⟩ := access_ok h; exact h

/-- Reading a value changes at most the count of free values drawn. -/
theorem kept_readAt (s : State) (a : Agent) (pa n : Nat) : Kept s (s.readAt a pa n).2 := by
  unfold readAt
  dsimp only
  split
  · split
    · exact Kept.refl s
    · exact Kept.refl s
    · exact Kept.of_free s
  · exact Kept.refl s

/-- Outside device space a value read is memory's. -/
theorem readAt_mem {s : State} {a : Agent} {pa n : Nat} (h : (a.isScalar && isDeviceRegion pa) = false) :
    s.readAt a pa n = (s.mem.num pa n, s) := by
  unfold readAt
  rw [if_neg (by rw [h]; exact Bool.false_ne_true)]

/-- A load answers what the address that the access reaches reads as (R166), none where a word there is marked (R317). -/
theorem load_ok {s t : State} {a : Agent} {va : Word} {n : Nat} {keep : Keep} {v : Option Nat} (h : s.load a va n keep = .ok (v, t)) :
    ∃ r u, s.access a .load .strand va n keep = .ok (r, u) ∧ Kept s t ∧
      (u.poisonedAt r.pa n = true → v = none ∧ t = u) ∧
      (u.poisonedAt r.pa n = false → v = some (u.readAt a r.pa n).1 ∧ t = (u.readAt a r.pa n).2) := by
  unfold load at h
  cases ha : s.access a .load .strand va n keep with
  | error e => rw [ha] at h; cases h
  | ok x =>
    obtain ⟨r, u⟩ := x
    rw [ha] at h
    dsimp only [bind, Except.bind] at h
    split at h
    · next hp =>
      cases h
      exact ⟨r, t, rfl, kept_access ha, fun _ => ⟨rfl, rfl⟩, fun hn => absurd (hp.symm.trans hn) (by decide)⟩
    · next hp =>
      cases h
      exact ⟨r, u, rfl, (kept_access ha).trans (kept_readAt u a r.pa n), fun hn => absurd hn hp, fun _ => ⟨rfl, rfl⟩⟩

end State

end Sys2Proof.Machine
end

