-- ==== Sys2Proof/Laws/Encoding.lean ====
section
/-! SUPPORT. The fields of encoded words: each field that the encoder puts into a word is the one the decoder cuts
out of it (R129-R136). -/

namespace Sys2Proof

/-- A field of a word whose bits above are h and below are l. -/
theorem fld_of (w lo n h v l : Nat) (hw : w = (h * 2 ^ n + v) * 2 ^ lo + l) (hv : v < 2 ^ n) (hl : l < 2 ^ lo) :
    fld w lo n = v := by
  subst hw
  have : ((h * 2 ^ n + v) * 2 ^ lo + l) / 2 ^ lo = h * 2 ^ n + v := by
    rw [Nat.add_comm, Nat.add_mul_div_right _ _ (Nat.two_pow_pos lo), Nat.div_eq_of_lt hl, Nat.zero_add]
  rw [fld, this, Nat.add_comm, Nat.add_mul_mod_self_right, Nat.mod_eq_of_lt hv]

/-! Format R (R129). -/

theorem fld_encR_major {maj d a b f : Nat} (h : maj < 64) (hd : d < 32) (ha : a < 32) (hb : b < 32) (hf : f < 2048) :
    fld (encR maj d a b f) 26 6 = maj :=
  fld_of _ 26 6 0 maj (((d * 32 + a) * 32 + b) * 2048 + f) (by simp only [encR]; omega) h (by omega)

theorem fld_encR_d {maj d a b f : Nat} (hd : d < 32) (ha : a < 32) (hb : b < 32) (hf : f < 2048) :
    fld (encR maj d a b f) 21 5 = d :=
  fld_of _ 21 5 maj d ((a * 32 + b) * 2048 + f) (by simp only [encR]; omega) hd (by omega)

theorem fld_encR_a {maj d a b f : Nat} (ha : a < 32) (hb : b < 32) (hf : f < 2048) : fld (encR maj d a b f) 16 5 = a :=
  fld_of _ 16 5 (maj * 32 + d) a (b * 2048 + f) (by simp only [encR]; omega) ha (by omega)

theorem fld_encR_b {maj d a b f : Nat} (hb : b < 32) (hf : f < 2048) : fld (encR maj d a b f) 11 5 = b :=
  fld_of _ 11 5 ((maj * 32 + d) * 32 + a) b f (by simp only [encR]; omega) hb (by omega)

theorem fld_encR_func {maj d a b f : Nat} (hf : f < 2048) : fld (encR maj d a b f) 0 11 = f :=
  fld_of _ 0 11 (((maj * 32 + d) * 32 + a) * 32 + b) f 0 (by simp only [encR]; omega) hf (by omega)

/-! Formats I, B and M (R129). -/

theorem fld_encI_major {maj d a i : Nat} (h : maj < 64) (hd : d < 32) (ha : a < 32) (hi : i < 65536) :
    fld (encI maj d a i) 26 6 = maj :=
  fld_of _ 26 6 0 maj ((d * 32 + a) * 65536 + i) (by simp only [encI]; omega) h (by omega)

theorem fld_encI_d {maj d a i : Nat} (hd : d < 32) (ha : a < 32) (hi : i < 65536) : fld (encI maj d a i) 21 5 = d :=
  fld_of _ 21 5 maj d (a * 65536 + i) (by simp only [encI]; omega) hd (by omega)

theorem fld_encI_a {maj d a i : Nat} (ha : a < 32) (hi : i < 65536) : fld (encI maj d a i) 16 5 = a :=
  fld_of _ 16 5 (maj * 32 + d) a i (by simp only [encI]; omega) ha (by omega)

theorem fld_encI_imm {maj d a i : Nat} (hi : i < 65536) : fld (encI maj d a i) 0 16 = i :=
  fld_of _ 0 16 ((maj * 32 + d) * 32 + a) i 0 (by simp only [encI]; omega) hi (by omega)

/-! The vector format (R133). -/

/-- Every field of a vector word lies within its width. -/
structure VWord.Fits (v : VWord) : Prop where
  vc : v.vc < 64
  mask : v.mask < 16
  inv : v.inv < 2
  dt : v.dt < 2
  sx : v.sx < 32
  vls : v.vls < 4
  cls : v.cls < 16
  fn : v.fn < 512
  major : v.major < 64
  minor : v.minor < 64
  vd : v.vd < 64
  va : v.va < 64
  vb : v.vb < 64
  zero : v.zero < 4

/-- The fields cut out of a word are those it was made of. -/
theorem vword_unvword (v : VWord) (h : v.Fits) : vword (unvword v) = v := by
  cases v
  cases h
  simp only [vword, unvword, VWord.mk.injEq, fld] at *
  and_intros <;> omega

end Sys2Proof
end

