-- ==== Sys2Proof/Laws/Outcome.lean ====
section
/-! SUPPORT. What the shared operations that end an instruction, order it or write memory can do: one lemma for each. -/

namespace Sys2Proof.Machine

/-! Results of a meaning. -/

/-- A meaning that answers a next state had its effect, took a trap, or waits. -/
theorem settle_next {r : Res State} {t : State} (h : settle r = .next t) :
    r = .ok t ∨ (∃ s x, r = .error (.trap s x) ∧ t = s.takeTrap x) ∨ ∃ s, r = .error (.wait s) ∧ t = s.yieldTurn := by
  cases r with
  | ok s => cases h; exact .inl rfl
  | error e =>
    cases e with
    | trap s x => cases h; exact .inr (.inl ⟨s, x, rfl, rfl⟩)
    | wait s => cases h; exact .inr (.inr ⟨s, rfl, rfl⟩)

@[simp] theorem settle_ok (s : State) : settle (.ok s) = .next s := rfl
@[simp] theorem settle_trap (s : State) (x : Trap) : settle (.error (.trap s x)) = .next (s.takeTrap x) := rfl
@[simp] theorem settle_wait (s : State) : settle (.error (.wait s)) = .next s.yieldTurn := rfl

theorem check_ok {b : Bool} {s : State} {c : Nat} {v : Word} {u : Unit} (h : check b s c v = .ok u) : b = true := by
  unfold check at h
  split at h
  · assumption
  · cases h

theorem check_true (s : State) (c : Nat) (v : Word) : check true s c v = .ok () := rfl

theorem scalarAcc_ok {α : Type} {x : ARes α} {a : α} (h : scalarAcc x = .ok a) : x = .ok a := by
  cases x with
  | ok b => cases h; rfl
  | error f => cases f <;> cases h

/-! Memory under what changes none of it. -/

namespace State

theorem mem_foldl {α : Type} {f : State → α → State} (step : ∀ s a, (f s a).mem = s.mem) (l : List α) (s : State) : (l.foldl f s).mem = s.mem :=
  foldl_ind (P := fun t => t.mem = s.mem) (fun t a h => (step t a).trans h) l rfl

@[simp] theorem arrange_mem (s : State) (n : Nat) : (s.arrange n).mem = s.mem := by unfold arrange; split <;> rfl

@[simp] theorem endCtx_mem (s : State) (c : CtxId) : (s.endCtx c).mem = s.mem := by
  unfold endCtx
  dsimp only
  split
  · rfl
  · exact arrange_mem _ _

@[simp] theorem endNotice_mem (s : State) (c : Ctx) (n : Nat) (own : Bool) (v : Word) : (s.endNotice c n own v).mem = s.mem := by
  unfold endNotice
  dsimp only
  split <;> rfl

@[simp] theorem abortColls_mem (s : State) (p : Coll → Bool) : (s.abortColls p).mem = s.mem := by
  unfold abortColls
  exact mem_foldl (f := fun s (c : Coll) => s.post .collectiveAbort (.op c.id)) (fun _ _ => rfl) _ s

@[simp] theorem terminate_mem (s : State) (c : Ctx) (n : Nat) (own : Bool) (v : Word) : (s.terminate c n own v).mem = s.mem := by
  unfold terminate
  rw [abortColls_mem, endCtx_mem, endNotice_mem]

@[simp] theorem yieldTurn_mem (s : State) : s.yieldTurn.mem = s.mem := by
  unfold yieldTurn rotate
  dsimp only
  cases s.lane <;> dsimp only [Option.isSome] <;> split <;> rfl

/-- Taking a trap writes no memory. -/
@[simp] theorem takeTrap_mem (s : State) (t : Trap) : (s.takeTrap t).mem = s.mem := by
  unfold takeTrap
  split
  · rfl
  · dsimp only
    split
    · exact yieldTurn_mem s
    · split
      · rfl
      · split
        · rw [terminate_mem]; split <;> rfl
        · split <;> rfl

@[simp] theorem acquire_mem (s : State) (sc : Option Scope) : (s.acquire sc).mem = s.mem := by unfold acquire; split <;> rfl

end State

/-- A release that goes on changes only which lines of the fabric window are dirty. -/
theorem release_ok {sc : Option Scope} {s t : State} (h : release sc s = .ok t) : t = s ∨ t = s.fabricClean s.ctx.die := by
  unfold release at h
  split at h
  · cases h; exact .inl rfl
  · split at h
    · cases h
    · split at h
      · cases h; exact .inr rfl
      · cases h; exact .inl rfl

theorem State.kept_modDie (s : State) (d : BitVec 2) (f : Die → Die) : Kept s (s.modDie d f) := Kept.of_setDie s _ _

/-- The cores of a die may change which lines they cache. -/
theorem kept_modCores (s : State) (d : BitVec 2) {f : Core → Core}
    (hf : ∀ c, (f c).field = c.field ∧ (f c).fieldErr = c.fieldErr ∧ (f c).split = c.split ∧ (f c).board = c.board ∧
      (f c).laneErr = c.laneErr ∧ (∀ g, ((f c).fe g).pipeown = (c.fe g).pipeown) ∧ ∀ g, ((f c).fe g).streams = (c.fe g).streams) :
    Kept s (s.modCores d f) := by
  refine Kept.of_cores s _ (fun n => ?_)
  have hm : s.cores.map (fun q => if q.1 / 64 = d.toNat then (q.1, f q.2) else q) =
      s.cores.map (fun q => (q.1, (fun k c => if k / 64 = d.toNat then f c else c) q.1 q.2)) := by
    refine List.map_congr_left (fun q _ => ?_)
    dsimp only
    split <;> rfl
  have hl := lookupN_map (fun k c => if k / 64 = d.toNat then f c else c) s.cores n
  rw [← hm] at hl
  unfold State.core
  dsimp only
  rw [hl]
  cases lookupN n s.cores with
  | none => exact .inl rfl
  | some c =>
    by_cases h : n / 64 = d.toNat
    · exact .inr ⟨f c, by simp [h], hf c⟩
    · exact .inl (by simp [h])

theorem kept_fabricClean (s : State) (d : BitVec 2) : Kept s (s.fabricClean d) := by
  unfold State.fabricClean
  refine Kept.trans ?_ (State.kept_modDie _ _ _)
  exact kept_modCores s d (fun _ => ⟨rfl, rfl, rfl, rfl, rfl, fun g => by cases g <;> rfl, fun g => by cases g <;> rfl⟩)

theorem kept_fabricDrop (s : State) (d : BitVec 2) : Kept s (s.fabricDrop d) := by
  unfold State.fabricDrop
  refine Kept.trans ?_ (State.kept_modDie _ _ _)
  exact kept_modCores s d (fun _ => ⟨rfl, rfl, rfl, rfl, rfl, fun g => by cases g <;> rfl, fun g => by cases g <;> rfl⟩)

theorem kept_release {sc : Option Scope} {s t : State} (h : release sc s = .ok t) : Kept s t := by
  rcases release_ok h with rfl | rfl
  · exact Kept.refl _
  · exact kept_fabricClean s _

theorem kept_acquire (s : State) (sc : Option Scope) : Kept s (s.acquire sc) := by
  unfold State.acquire
  split
  · exact kept_fabricDrop s _
  · exact Kept.refl s

/-! Writes. -/

namespace State

@[simp] theorem dropResv_mem (s : State) (pa n : Nat) : (s.dropResv pa n).mem = s.mem := by unfold dropResv; split <;> rfl
@[simp] theorem clearPoison_mem (s : State) (pa n : Nat) : (s.clearPoison pa n).mem = s.mem := by unfold clearPoison; split <;> rfl
@[simp] theorem dropGathered_mem (s : State) (pa n : Nat) : (s.dropGathered pa n).mem = s.mem := by unfold dropGathered; split <;> rfl
@[simp] theorem notifyLine_mem (s : State) (w : Option CtxId) (l : Nat) : (s.notifyLine w l).mem = s.mem := by
  unfold notifyLine
  dsimp only
  split
  · rfl
  · exact (mem_foldl (f := fun s (k : Ctx) => s.post .waitevWake (.ctx k.id)) (fun _ _ => rfl) _ _).trans rfl

/-- Bytes are written where they are written, and nowhere else. -/
@[simp] theorem putBytes_mem (s : State) (w : Option CtxId) (pa : Nat) (bs : List Byte) : (s.putBytes w pa bs).mem = s.mem.setBytes pa bs := by
  unfold putBytes
  dsimp only
  rw [mem_foldl (fun _ _ => notifyLine_mem _ _ _), dropGathered_mem, clearPoison_mem, dropResv_mem]

theorem putBytes_wf {s : State} (h : s.mem.wf = true) (w : Option CtxId) (pa : Nat) (bs : List Byte) : (s.putBytes w pa bs).mem.wf = true := by
  rw [putBytes_mem]; exact Memory.wf_setBytes h pa bs

theorem writePieces_wf (w : Option CtxId) (ps : List (Nat × Nat)) : ∀ {s : State} (bs : List Byte), s.mem.wf = true → (s.writePieces w ps bs).mem.wf = true := by
  induction ps with
  | nil => exact fun _ h => h
  | cons p ps ih => exact fun bs h => ih _ (putBytes_wf h w p.1 _)

/-- Where it is not the window of the selects that is written, bytes go to memory. -/
theorem putAt_mem {s : State} {a : Agent} {pa n v : Nat} (h : a.isScalar = false ∨ selectAt pa = none) :
    s.putAt a pa n v = .ok (s.putBytes (s.writer a) pa (leBytes n v)) := by
  unfold putAt
  rcases h with h | h
  · rw [h]; rfl
  · rw [show (if a.isScalar then selectAt pa else none) = none from by rw [h]; exact ite_self _]

/-- A write keeps the canonical form of memory. -/
theorem putAt_wf {s t : State} {a : Agent} {pa n v : Nat} (hw : s.mem.wf = true) (h : s.putAt a pa n v = .ok t) : t.mem.wf = true := by
  unfold putAt at h
  split at h
  · dsimp only at h
    split at h
    · cases h; exact hw
    · cases h
  · cases h; exact putBytes_wf hw _ _ _

/-- A store that passes its checks writes the low bytes of v at the address that it reaches. -/
theorem store_ok {s t : State} {a : Agent} {va : Word} {n v : Nat} (h : s.store a va n v = .ok t) :
    ∃ r u, s.access a .store .strand va n .normal = .ok (r, u) ∧ Kept s u ∧ u.putAt a r.pa n v = .ok t := by
  unfold store at h
  cases ha : s.access a .store .strand va n .normal with
  | error e => rw [ha] at h; cases h
  | ok x =>
    obtain ⟨r, u⟩ := x
    rw [ha] at h
    exact ⟨r, u, rfl, kept_access ha, h⟩

theorem store_wf {s t : State} {a : Agent} {va : Word} {n v : Nat} (hw : s.mem.wf = true) (h : s.store a va n v = .ok t) : t.mem.wf = true := by
  obtain ⟨r, u, _, hk, hp⟩ := store_ok h
  exact putAt_wf (by rw [hk.mem]; exact hw) hp

/-- An atomic that passes its checks answers what stood there, a marked word as 0, and writes what its function gives, if
anything. -/
theorem atomic_ok {s t : State} {a : Agent} {sc : Scope} {va : Word} {n old : Nat} {bad : Bool} {f : Nat → Option Nat}
    (h : s.atomic a sc va n f = .ok (old, bad, t)) :
    ∃ r u, s.access a .atomic sc va n .normal = .ok (r, u) ∧ Kept s u ∧ bad = u.poisonedAt r.pa n ∧ old = (if bad then 0 else (u.readAt a r.pa n).1) ∧
      (f old = none → t.mem = s.mem) ∧
      ∀ v, f old = some v → ∃ x y, Kept s x ∧ x.putAt a r.pa n v = .ok y ∧ t.mem = y.mem := by
  unfold atomic at h
  cases ha : s.access a .atomic sc va n .normal with
  | error e => rw [ha] at h; cases h
  | ok x =>
    obtain ⟨r, u⟩ := x
    rw [ha] at h
    have hk := kept_access ha
    dsimp only [bind, Except.bind] at h
    have hr : Kept s (if u.poisonedAt r.pa n = true then (0, u) else u.readAt a r.pa n).2 := by
      split
      · exact hk
      · exact hk.trans (kept_readAt u a r.pa n)
    have hv : (if u.poisonedAt r.pa n = true then (0, u) else u.readAt a r.pa n).1 = (if u.poisonedAt r.pa n then 0 else (u.readAt a r.pa n).1) := by
      split <;> rfl
    generalize (if u.poisonedAt r.pa n = true then (0, u) else u.readAt a r.pa n) = q at h hr hv
    obtain ⟨o, z⟩ := q
    dsimp only at h hr hv
    split at h
    · next hf =>
      cases h
      exact ⟨r, u, rfl, hk, rfl, hv, fun _ => hr.mem, fun v h => absurd (hf.symm.trans h) (by simp)⟩
    · next v hf =>
      split at h
      · cases h
      · next y hy =>
        cases h
        refine ⟨r, u, rfl, hk, rfl, hv, fun h => absurd (hf.symm.trans h) (by simp), fun v' h' => ?_⟩
        cases hf.symm.trans h'
        exact ⟨_, y, hr.trans (kept_touch _ _ _ _ _ _ _), hy, by split <;> rfl⟩

theorem atomic_wf {s t : State} {a : Agent} {sc : Scope} {va : Word} {n old : Nat} {bad : Bool} {f : Nat → Option Nat}
    (hw : s.mem.wf = true) (h : s.atomic a sc va n f = .ok (old, bad, t)) : t.mem.wf = true := by
  obtain ⟨r, u, _, _, _, _, h0, h1⟩ := atomic_ok h
  cases hf : f old with
  | none => rw [h0 hf]; exact hw
  | some v =>
    obtain ⟨x, y, hx, hy, hm⟩ := h1 v hf
    rw [hm]
    exact putAt_wf (by rw [hx.mem]; exact hw) hy

/-- A range that passes the checks of R25 only translates. -/
theorem kept_rangeCheck {s t : State} {a : Agent} {k : Acc} {va : Word} {n : Nat} {ps : List (Nat × Nat)}
    (h : s.rangeCheck a k va n = .ok (ps, t)) : Kept s t := by
  unfold rangeCheck rangeCheckBy at h
  refine foldE_ind (P := fun st : List (Nat × Nat) × State => Kept s st.2) ?_ _ (Kept.refl s) h
  intro st p st' hs hp
  dsimp only at hp
  cases ht : st.2.translate s.ctx.who k p.1 (fun e => if (if e.cls == 1 then a == .gleaner || s.ctx.pinned va n else classAdmits s.ctx a k e.cls p.1 p.2) then none else some 0x0D) with
  | error x => rw [ht] at hp; cases hp
  | ok r =>
    obtain ⟨e, u⟩ := r
    rw [ht] at hp
    cases hp
    exact hs.trans ((kept_translate _ _ _ _ _).ok ht)

theorem kept_unitCheck {s t : State} {w : Who} {k : Acc} {sc : Scope} {al : Nat} {va : Word} {n pa : Nat}
    (h : s.unitCheck w k sc al va n = .ok (pa, t)) : Kept s t := by
  refine KeptBy.ok (?_ : KeptBy s (s.unitCheck w k sc al va n)) h
  unfold unitCheck
  exact KeptBy.bind (kept_checked s _ _ _ _ _ _ _ _) (fun _ u _ => Kept.refl u)

theorem kept_ordinaryCheck {s t : State} {w : Who} {k : Acc} {sc : Option Scope} {al : Nat} {va : Word} {pa : Nat}
    (h : s.ordinaryCheck w k sc al va = .ok (pa, t)) : Kept s t := by
  refine KeptBy.ok (?_ : KeptBy s (s.ordinaryCheck w k sc al va)) h
  unfold ordinaryCheck
  split
  · exact Kept.refl s
  · exact KeptBy.bind (kept_translate s _ _ _ _) (fun _ u _ => Kept.refl u)

end State

end Sys2Proof.Machine
end

