-- ==== Sys2Proof/Tests/Slice0.lean ====
section
/-! SUPPORT. Tests of the author's own: well-formedness refuses what each check is for, words laid out from the spec
decode to what they stand for, witnesses that the hypotheses of the statements can be met together, and single steps
with results worked out from the rules. -/

open Sys2Proof Sys2Proof.Machine Sys2Proof.Claims

namespace Sys2Proof.Tests

set_option Elab.async false

/-! ## Well-formedness: an ill-formed term for each check -/

def opt : VOpts := ⟨0, false, false, .vl⟩
def optR : VOpts := ⟨0, false, false, .reg 5⟩
def optBad : VOpts := ⟨0, true, false, .vl⟩
def optM : VOpts := ⟨3, false, false, .vl⟩

theorem test_wf_pairs : (Instr.cas 5 1 2 0 .plain .die).wf = false ∧ (Instr.hcas 5 1 2 0 .plain .die).wf = false ∧
    (Instr.hcasw 5 1 2 0 .plain .die).wf = false ∧ (Instr.mcast 1 2 5).wf = false ∧ (Instr.cas 30 1 2 0 .plain .die).wf = true := by
  decide

theorem test_wf_stream_slot : (Instr.strset 1 0).wf = false ∧ (Instr.strset 1 9).wf = false ∧ (Instr.strset 1 8).wf = true := by
  decide

theorem test_wf_predicate : (Instr.vfadd .f32 optBad 1 2 (.plot 3)).wf = false ∧ (Instr.mand optBad 1 2 3).wf = false ∧
    (Instr.vextract .f32 optM 1 2 (.imm 0)).wf = false ∧ (Instr.vfeed .bf16 .f32 optBad 1).wf = false ∧
    (Instr.vld .f32 optBad .plain 0 1 2 0).wf = false := by decide

theorem test_wf_scalar_taken : (Instr.vfadd .f32 optR 1 2 (.scalar 3)).wf = false ∧ (Instr.vfadd .f32 optR 1 2 (.plot 3)).wf = true ∧
    (Instr.mshift true (.imm 1) optR 1 2).wf = false ∧ (Instr.vld .f32 optR .plain 0 1 2 0).wf = false ∧
    (Instr.vextract .f32 optR 1 2 (.imm 0)).wf = false ∧ (Instr.vdetach optR 1 0 2).wf = false := by decide

theorem test_wf_shift_count : (Instr.mshift true (.reg 0) opt 1 2).wf = false ∧ (Instr.mshift true (.reg 1) opt 1 2).wf = true := by
  decide

theorem test_wf_queues : (Instr.vfeed .f64 .f32 opt 1).wf = false ∧ (Instr.vfeed .bf16 .f64 opt 1).wf = false ∧
    (Instr.vdrain true .f32 opt 1).wf = false ∧ (Instr.vdrain false .f64 opt 1).wf = true := by decide

theorem test_wf_detach_range : (Instr.vdetach opt 49 15 1).wf = false ∧ (Instr.vdetach opt 48 15 1).wf = true := by decide

theorem test_wf_discard : (Instr.vamo .add .i32 opt .plain 0 false true 1 1 2 3).wf = false ∧
    (Instr.vamo .add .i32 opt .plain 0 false true 1 0 2 3).wf = true := by decide

/-! ## Decoding: words laid out from the spec's tables -/

/-- A word and the instruction that its fields, laid out by hand, say it is. -/
def reads (l : List (Nat × Instr)) : Bool := l.all (fun p => decide (decodeWord p.1 = .ok p.2))

/-- Major 0x01 (R139, R143): fields laid out from the tables. -/
theorem test_decode_integer : reads
  [(0x04A63800, .add 5 6 7), (0x04A63801, .sub 5 6 7), (0x04A63802, .and 5 6 7), (0x04A63803, .or 5 6 7),
   (0x04A63804, .xor 5 6 7), (0x04A63805, .sll 5 6 7), (0x04A63806, .srl 5 6 7), (0x04A63807, .sra 5 6 7),
   (0x04A63808, .slt 5 6 7), (0x04A63809, .sltu 5 6 7), (0x04A6380A, .min 5 6 7), (0x04A6380B, .max 5 6 7),
   (0x04A6380C, .minu 5 6 7), (0x04A6380D, .maxu 5 6 7), (0x04A63820, .mul 5 6 7), (0x04A63821, .mulh 5 6 7),
   (0x04A63822, .mulhu 5 6 7), (0x04A63823, .div 5 6 7), (0x04A63824, .divu 5 6 7), (0x04A63825, .rem 5 6 7),
   (0x04A63826, .remu 5 6 7), (0x04A60010, .clz 5 6), (0x04A60011, .ctz 5 6), (0x04A60012, .popc 5 6)] = true := by decide

/-- Majors 0x02-0x07 (R139, R145): fields laid out from the tables. -/
theorem test_decode_immediate : reads
  [(0x08A68421, .addi 5 6 33825), (0x0CA68421, .andi 5 6 33825), (0x10A68421, .ori 5 6 33825),
   (0x14A68421, .xori 5 6 33825), (0x18A60021, .slli 5 6 33), (0x18A60061, .srli 5 6 33), (0x18A600A1, .srai 5 6 33),
   (0x1CA08421, .lui 5 33825)] = true := by decide

/-- Majors 0x08, 0x09 (R139): fields laid out from the tables. -/
theorem test_decode_fp : reads
  [(0x20A63800, .fadd .f32 5 6 7), (0x20A63C20, .fsub .f64 5 6 7), (0x20A63840, .fmul .f32 5 6 7),
   (0x20A63C60, .fdiv .f64 5 6 7), (0x20A638A0, .fmin .f32 5 6 7), (0x20A63CC0, .fmax .f64 5 6 7),
   (0x20A638E0, .fcmpEq .f32 5 6 7), (0x20A63D00, .fcmpLt .f64 5 6 7), (0x20A63920, .fcmpLe .f32 5 6 7),
   (0x20A60480, .fsqrt .f64 5 6), (0x20A60140, .fcvtToI64 .f32 5 6), (0x20A60560, .fcvtFromI64 .f64 5 6),
   (0x20A60180, .fcvtFpFp .f32 5 6), (0x20A605A0, .fmv .f64 5 6), (0x20A601C0, .fneg .f32 5 6),
   (0x20A605E0, .fabs .f64 5 6), (0x24A63A40, .ffma .f32 5 6 7 9), (0x24A63A58, .ffms .f64 5 6 7 9),
   (0x24A63A60, .ffnma .f32 5 6 7 9), (0x24A63A78, .ffnms .f64 5 6 7 9)] = true := by decide

/-- Majors 0x0A, 0x0B (R139, R156): fields laid out from the tables. -/
theorem test_decode_system : reads
  [(0x28000000, .syscall), (0x28000001, .tret), (0x28000003, .yield), (0x28000004, .exit), (0x28000005, .vrelease),
   (0x28000007, .lexit), (0x28A63802, .waitev 5 6 7), (0x28A00006, .chkerr 5), (0x2CA00015, .ctlr 5 21),
   (0x2CA64015, .ctlw 5 6 21), (0x2CA68015, .ctlset 5 6 21), (0x2CA6C015, .ctlclr 5 6 21)] = true := by decide

/-- Majors 0x0C-0x16 (R129, R139): fields laid out from the tables. -/
theorem test_decode_branch : reads
  [(0x30B55555, .jal 5 1398101), (0x34A68421, .jalr 5 6 33825), (0x38A68421, .beq 5 6 33825),
   (0x3CA68421, .bne 5 6 33825), (0x40A68421, .blt 5 6 33825), (0x44A68421, .bge 5 6 33825),
   (0x48A68421, .bltu 5 6 33825), (0x4CA68421, .bgeu 5 6 33825), (0x50098421, .bany 9 33825),
   (0x54098421, .ball 9 33825), (0x58098421, .bnone 9 33825)] = true := by decide

/-- Majors 0x17-0x21 (R131, R139): fields laid out from the tables. -/
theorem test_decode_memory : reads
  [(0x5CA6B2A5, .ldB 5 6 11 677), (0x5CA6B455, .ldBAcq 5 6 11 .strand 85), (0x60A6B2A5, .ldH 5 6 11 677),
   (0x60A6B4D5, .ldHAcq 5 6 11 .core 85), (0x64A6B2A5, .ldW 5 6 11 677), (0x64A6B555, .ldWAcq 5 6 11 .cluster 85),
   (0x68A6B2A5, .ldD 5 6 11 677), (0x68A6B5D5, .ldDAcq 5 6 11 .die 85), (0x6CA6B2A5, .ldBu 5 6 11 677),
   (0x6CA6B655, .ldBuAcq 5 6 11 .device 85), (0x70A6B2A5, .ldHu 5 6 11 677), (0x70A6B6D5, .ldHuAcq 5 6 11 .system 85),
   (0x74A6B2A5, .ldWu 5 6 11 677), (0x74A6B455, .ldWuAcq 5 6 11 .strand 85), (0x78A6B2A5, .stB 5 6 11 677),
   (0x78A6B8D5, .stBRel 5 6 11 .core 85), (0x7CA6B2A5, .stH 5 6 11 677), (0x7CA6B955, .stHRel 5 6 11 .cluster 85),
   (0x80A6B2A5, .stW 5 6 11 677), (0x80A6B9D5, .stWRel 5 6 11 .die 85), (0x84A6B2A5, .stD 5 6 11 677),
   (0x84A6BA55, .stDRel 5 6 11 .device 85)] = true := by decide

/-- Majors 0x22-0x24 (R132, R139): fields laid out from the tables. -/
theorem test_decode_atomic : reads
  [(0x88A63D80, .amoswap 5 6 7 11 .plain .strand), (0x88A63DA5, .amoadd 5 6 7 11 .acq .core),
   (0x88A63DCA, .amoand 5 6 7 11 .rel .cluster), (0x88A63DEF, .amoor 5 6 7 11 .ar .die),
   (0x8CA63D90, .amoxor 5 6 7 11 .plain .device), (0x8CA63DB5, .amomin 5 6 7 11 .acq .system),
   (0x8CA63DC2, .amomax 5 6 7 11 .rel .strand), (0x8CA63DE7, .amomaxu 5 6 7 11 .ar .core),
   (0x90C53DE8, .cas 6 5 7 11 .ar .cluster)] = true := by decide

/-- Major 0x25 (R139, R173, R174): fields laid out from the tables. -/
theorem test_decode_maintenance : reads
  [(0x940638A0, .fence .system 6 7), (0x94000100, .ifence), (0x94063A00, .cacheopPf 6 7),
   (0x94063A20, .cacheopPf2 6 7), (0x94063A40, .cacheopPfw 6 7), (0x94063A60, .cacheopEvict 6 7),
   (0x94063A80, .cacheopClean 6 7), (0x94063B00, .tlbinvS1 6 7), (0x94063B40, .tlbinvS2 6 7),
   (0x94003B20, .tlbinvS1all 7), (0x94003B60, .tlbinvS2all 7), (0x94A63C00, .stashmap 5 6 7),
   (0x94060500, .stashunmap 6)] = true := by decide

/-- Majors 0x26-0x2C (R131, R132, R139): fields laid out from the tables. -/
theorem test_decode_reference : reads
  [(0x98A6B2A5, .hld 5 6 11 677), (0x98A6B4D5, .hldAcq 5 6 11 .core 85), (0x9CA6B2A5, .hst 5 6 11 677),
   (0x9CA6B955, .hstRel 5 6 11 .cluster 85), (0xA0A6B2A5, .hldw 5 6 11 677), (0xA0A6B5D5, .hldwAcq 5 6 11 .die 85),
   (0xA4A6B2A5, .hstw 5 6 11 677), (0xA4A6BA55, .hstwRel 5 6 11 .device 85), (0xA8C53DB0, .hcas 6 5 7 11 .acq .device),
   (0xACC53DB0, .hcasw 6 5 7 11 .acq .device), (0xB0A63800, .hcmp 5 6 7), (0xB0A60100, .hpin 5 6),
   (0xB0060200, .hunpin 6), (0xB0A60300, .hmake 5 6), (0xB0A63B80, .hmakeI 5 6 7)] = true := by decide

/-- Major 0x2D (R139, R251-R257): fields laid out from the tables. -/
theorem test_decode_engine : reads
  [(0xB406000B, .tdesc 6 11), (0xB4A63840, .cpy 5 6 7), (0xB4A6385B, .cpyDsrc 5 6 7 11),
   (0xB4A6386B, .cpyDdst 5 6 7 11), (0xB4000084, .cpydrain .device), (0xB40600C8, .strset 6 8),
   (0xB4A64100, .mcast 5 6 8), (0xB4063940, .potinit 6 7), (0xB4063983, .potadd .die 6 7),
   (0xB4A601C2, .potwait .cluster 5 6), (0xB4A60200, .coll 5 6), (0xB4A60240, .collwait 5 6),
   (0xB4A63A80, .hglean 5 6 7), (0xB4A602C0, .hgleanFree 5 6), (0xB4A60300, .launch 5 6)] = true := by decide

/-- Major 0x2E (R234, R236): fields laid out from the tables. -/
theorem test_decode_miller : reads
  [(0xB8A63800, .mldb 5 6 7), (0xB8063990, .mmul .bf16 2 1 6 7), (0xB8063994, .mmul .e5m2 2 1 6 7),
   (0xB8063999, .mmul .f64 2 1 6 7), (0xB806399C, .mmul .bf16q3s 2 1 6 7), (0xB8000280, .mclr 2),
   (0xB8063BB8, .mout true false 2 3 6 7), (0xB8000400, .msync)] = true := by decide

/-- Majors 0x2F, 0x30, 0x3F (R110, R133, R189-R196): fields laid out from the tables. -/
theorem test_decode_configuration : reads
  [(0xBC008421, .vlend 33825), (0xFD828000, .convoyHeader 3 0 1 2 0 0 0), (0x00188000C0084000, .plotset true 33 17),
   (0x00088000C0102100, .plotget false 17 33), (0x00088000C0200014, .setvl false 17 5),
   (0x00088009C0300614, .setvlW false true .device 17 6 5), (0x00088000C0400000, .vloop false 17),
   (0x00088006C0500000, .wmpub false .die 17)] = true := by decide

/-- Majors 0x31, 0x32 (R133-R136, R186): fields laid out from the tables. -/
theorem test_decode_vfloat : reads
  [(0x0148C000C40852FC, .vfadd .bf16 ⟨5, false, false, (.reg 17)⟩ 33 18 (.plot 63)),
   (0x00F88060C4185200, .vfsub .f32 ⟨3, true, true, .vl⟩ 33 18 (.scalar 17)),
   (0x0148C080C42852FC, .vfmul .f64 ⟨5, false, false, (.reg 17)⟩ 33 18 (.plot 63)),
   (0x00F88020C4385200, .vfdiv .bf16 ⟨3, true, true, .vl⟩ 33 18 (.scalar 17)),
   (0x0148C040C44852FC, .vfmin .f32 ⟨5, false, false, (.reg 17)⟩ 33 18 (.plot 63)),
   (0x00F880A0C4585200, .vfmax .f64 ⟨3, true, true, .vl⟩ 33 18 (.scalar 17)),
   (0x0148C000C46852FC, .vfsgnj .bf16 ⟨5, false, false, (.reg 17)⟩ 33 18 (.plot 63)),
   (0x00F88060C4785200, .vfsgnjn .f32 ⟨3, true, true, .vl⟩ 33 18 (.scalar 17)),
   (0x0148C080C48852FC, .vfsgnjx .f64 ⟨5, false, false, (.reg 17)⟩ 33 18 (.plot 63)),
   (0xB0F02000C80852FC, .vfma .bf16 ⟨3, true, true, .lq⟩ 33 18 (.plot 63) 44),
   (0xB0F02040C81852FC, .vfms .f32 ⟨3, true, true, .lq⟩ 33 18 (.plot 63) 44),
   (0xB0F02080C82852FC, .vfnma .f64 ⟨3, true, true, .lq⟩ 33 18 (.plot 63) 44),
   (0xB0F02000C83852FC, .vfnms .bf16 ⟨3, true, true, .lq⟩ 33 18 (.plot 63) 44),
   (0x00F02000C9085200, .vfsqrt .bf16 ⟨3, true, true, .lq⟩ 33 18),
   (0x00F02040C9185200, .vfrec .f32 ⟨3, true, true, .lq⟩ 33 18),
   (0x00F02080C9285200, .vfrsqrt .f64 ⟨3, true, true, .lq⟩ 33 18),
   (0x00F02000C9385200, .vfexp .bf16 ⟨3, true, true, .lq⟩ 33 18),
   (0x00F02040C9485200, .vflog .f32 ⟨3, true, true, .lq⟩ 33 18),
   (0x00F02080C9585200, .vfsin .f64 ⟨3, true, true, .lq⟩ 33 18),
   (0x00F02000C9685200, .vfcos .bf16 ⟨3, true, true, .lq⟩ 33 18),
   (0x00F02040C9785200, .vftanh .f32 ⟨3, true, true, .lq⟩ 33 18),
   (0x00F02080C9885200, .vfabs .f64 ⟨3, true, true, .lq⟩ 33 18),
   (0x00F02000C9985200, .vfneg .bf16 ⟨3, true, true, .lq⟩ 33 18)] = true := by decide

/-- Major 0x33 (R186, R202): fields laid out from the tables. -/
theorem test_decode_vinteger : reads
  [(0x0148C0C0CC0852FC, .vadd .i32 ⟨5, false, false, (.reg 17)⟩ 33 18 (.plot 63)),
   (0x00F88120CC185200, .vsub .i64 ⟨3, true, true, .vl⟩ 33 18 (.scalar 17)),
   (0x0148C0C0CC2852FC, .vmul .i32 ⟨5, false, false, (.reg 17)⟩ 33 18 (.plot 63)),
   (0x00F88120CC385200, .vmulh .i64 ⟨3, true, true, .vl⟩ 33 18 (.scalar 17)),
   (0x0148C0C0CC4852FC, .vmulhu .i32 ⟨5, false, false, (.reg 17)⟩ 33 18 (.plot 63)),
   (0x00F88120CC585200, .vdiv .i64 ⟨3, true, true, .vl⟩ 33 18 (.scalar 17)),
   (0x0148C0C0CC6852FC, .vdivu .i32 ⟨5, false, false, (.reg 17)⟩ 33 18 (.plot 63)),
   (0x00F88120CC785200, .vrem .i64 ⟨3, true, true, .vl⟩ 33 18 (.scalar 17)),
   (0x0148C0C0CC8852FC, .vremu .i32 ⟨5, false, false, (.reg 17)⟩ 33 18 (.plot 63)),
   (0x00F88120CC985200, .vand .i64 ⟨3, true, true, .vl⟩ 33 18 (.scalar 17)),
   (0x0148C0C0CCA852FC, .vor .i32 ⟨5, false, false, (.reg 17)⟩ 33 18 (.plot 63)),
   (0x00F88120CCB85200, .vxor .i64 ⟨3, true, true, .vl⟩ 33 18 (.scalar 17)),
   (0x0148C0C0CCC852FC, .vsll .i32 ⟨5, false, false, (.reg 17)⟩ 33 18 (.plot 63)),
   (0x00F88120CCD85200, .vsrl .i64 ⟨3, true, true, .vl⟩ 33 18 (.scalar 17)),
   (0x0148C0C0CCE852FC, .vsra .i32 ⟨5, false, false, (.reg 17)⟩ 33 18 (.plot 63)),
   (0x00F88120CCF85200, .vmin .i64 ⟨3, true, true, .vl⟩ 33 18 (.scalar 17)),
   (0x0148C0C0CD0852FC, .vmax .i32 ⟨5, false, false, (.reg 17)⟩ 33 18 (.plot 63)),
   (0x00F88120CD185200, .vminu .i64 ⟨3, true, true, .vl⟩ 33 18 (.scalar 17)),
   (0x0148C0C0CD2852FC, .vmaxu .i32 ⟨5, false, false, (.reg 17)⟩ 33 18 (.plot 63)),
   (0x24F02106CD3852FC, .vadc .i64 ⟨3, true, true, .lq⟩ 33 18 (.plot 63) 9 6),
   (0x24F880E6CD485200, .vsbc .i32 ⟨3, true, true, .vl⟩ 33 18 (.scalar 17) 9 6)] = true := by decide

/-- Major 0x34 (R141): fields laid out from the tables. -/
theorem test_decode_vcompare : reads
  [(0x0148C082D00252FC, .vfcmp .lt .f64 ⟨5, false, false, (.reg 17)⟩ 9 18 63),
   (0x0148C085D00252FC, .vfcmp .ge .f64 ⟨5, false, false, (.reg 17)⟩ 9 18 63),
   (0x00F02101D01252FC, .vcmp .ne .i64 ⟨3, true, true, .lq⟩ 9 18 63),
   (0x00F020C4D01252FC, .vcmp .ltu .i32 ⟨3, true, true, .lq⟩ 9 18 63),
   (0x00F02098D0285200, .vcvt .f64 .i32 ⟨3, true, true, .lq⟩ 33 18)] = true := by decide

/-- Major 0x35 (R206-R212): fields laid out from the tables. -/
theorem test_decode_vmask : reads
  [(0x00F02000D4024A2C, .mand ⟨3, true, true, .lq⟩ 9 10 11), (0x00F02000D4124A2C, .mor ⟨3, true, true, .lq⟩ 9 10 11),
   (0x00F02000D4224A2C, .mxor ⟨3, true, true, .lq⟩ 9 10 11), (0x00F02000D4324A2C, .mandn ⟨3, true, true, .lq⟩ 9 10 11),
   (0x0148C000D4424A00, .mnot ⟨5, false, false, (.reg 17)⟩ 9 10),
   (0x00F00181D4524A00, .mshift true (.imm 0x81) ⟨3, true, true, .vl⟩ 9 10),
   (0x00F88000D4524A00, .mshift false (.reg 17) ⟨3, true, true, .vl⟩ 9 10),
   (0x00F8A001D4600A00, .mpopc true ⟨3, true, true, .lq⟩ 17 10),
   (0x00F8A000D4700A00, .mfirst ⟨3, true, true, .lq⟩ 17 10),
   (0x00F8A107D5001200, .vred .maxu .i64 ⟨3, true, true, .lq⟩ 17 18),
   (0x00F8A042D5101200, .vfred .max .f32 ⟨3, true, true, .lq⟩ 17 18),
   (0x00F8A080D5284000, .vrand .f64 ⟨3, true, true, .lq⟩ 33 17), (0x00100004D5300000, .vsync true .device)] = true := by decide

/-- Major 0x36 (R134, R214): fields laid out from the tables. -/
theorem test_decode_vmemory : reads
  [(0xB0F8B658D8084000, .vld .f32 ⟨3, true, true, .lq⟩ (.acq .device) 11 17 33 44),
   (0x00F8B6C0D8184018, .vldStrided .i32 ⟨3, true, true, .lq⟩ .plain 11 17 6 33),
   (0x00F8B701D82840FC, .vldx .i64 ⟨3, true, true, .lq⟩ .plain 11 true 17 33 63),
   (0x00F8B600D8384018, .vldt .bf16 ⟨3, true, true, .lq⟩ .plain 11 17 6 33),
   (0xB0F8B6A6D8801200, .vst .f64 ⟨3, true, true, .lq⟩ (.rel .die) 11 17 18 44),
   (0x00F8B6C0D8901218, .vstStrided .i32 ⟨3, true, true, .lq⟩ .plain 11 17 6 18),
   (0x00F8B640D8A012FC, .vstx .f32 ⟨3, true, true, .lq⟩ .plain 11 false 17 18 63),
   (0x1CF8B739D8B852FC, .vamo .maxu .i64 ⟨3, true, true, .lq⟩ (.ar .device) 11 true false 17 33 18 63),
   (0x28F8B6C0D8B012FC, .vamo .and .i32 ⟨3, true, true, .lq⟩ .plain 11 false true 17 0 18 63)] = true := by decide

/-- Major 0x37 (R222-R224): fields laid out from the tables. -/
theorem test_decode_vmove : reads
  [(0x00F02040DC0852FC, .vperm .f32 ⟨3, true, true, .lq⟩ 33 18 63),
   (0x00F02055DC185200, .vslideup .f32 ⟨3, true, true, .lq⟩ 33 18 (.imm 21)),
   (0x00F02120DC285218, .vslidedn .i64 ⟨3, true, true, .lq⟩ 33 18 (.reg 6)),
   (0x24F020C1DC385200, .vcompress true .i32 ⟨3, true, true, .lq⟩ 33 18 9),
   (0x24F02080DC485200, .vexpand .f64 ⟨3, true, true, .lq⟩ 33 18 9),
   (0x00F02015DC585200, .vbcast .bf16 ⟨3, true, true, .lq⟩ 33 18 (.imm 21)),
   (0x0018A0E0DC601218, .vextract .i32 ⟨0, false, true, .lq⟩ 17 18 (.reg 6)),
   (0x00F8A055DC784000, .vinsert .f32 ⟨3, true, true, .lq⟩ 33 17 (.imm 21)),
   (0x0148C040DC885200, .vunpk .f32 ⟨5, false, false, (.reg 17)⟩ 33 18)] = true := by decide

/-- Major 0x38 (R225-R230): fields laid out from the tables. -/
theorem test_decode_vqueue : reads
  [(0x00F02060E0001200, .vfeed .e5m2 .f32 ⟨3, true, true, .lq⟩ 18),
   (0x00F02090E0184000, .vdrain true .f64 ⟨3, true, true, .lq⟩ 33),
   (0x00F8A00FE0201200, .vdetach ⟨3, true, true, .lq⟩ 18 15 17), (0x00000005E0300000, .vfence false .system)] = true := by decide

/-- Major 0x39 (R241): fields laid out from the tables. -/
theorem test_decode_fronts : reads
  [(0x00028000E4000000, .fcfg ⟨0, false, false, .vl⟩ 0 5), (0x00F8A000E4018000, .fcfg ⟨3, true, true, .lq⟩ 6 17),
   (0x0148C000E41192FC, .fins ⟨5, false, false, (.reg 17)⟩ 6 18 63),
   (0x00F02000E4218500, .fmerge ⟨3, true, true, .lq⟩ 6 5),
   (0x00F8A000E43845FC, .fread ⟨3, true, true, .lq⟩ 33 63 5 17), (0x00F02000E4418000, .fclr ⟨3, true, true, .lq⟩ 6),
   (0x00F8A000E4500500, .fsave ⟨3, true, true, .lq⟩ 5 17), (0x00F8A000E4618000, .fload ⟨3, true, true, .lq⟩ 6 17)] = true := by decide

/-- The encodings that the spec writes out itself (R131, R132, R136, R196, R202, R241). -/
theorem test_decode_examples : reads
  [(0x84C90981, .stDRel 6 9 0 .die 1), (0x68E90581, .ldDAcq 7 9 0 .die 1), (0x08A00000, .addi 5 0 0), (0x08C0000A, .addi 6 0 10),
   (0x04A53000, .add 5 5 6), (0x08C6FFFF, .addi 6 6 0xFFFF), (0x3CC0FFFE, .bne 6 0 0xFFFE), (0x28000004, .exit), (0xBC00FFF3, .vlend 0xFFF3),
   (0x00000040C400C108, .vfadd .f32 opt 3 1 (.plot 2)), (0x00F00040C400C108, .vfadd .f32 ⟨3, true, true, .vl⟩ 3 1 (.plot 2)),
   (0x00000042D0004308, .vfcmp .lt .f32 opt 1 3 2), (0x00038000C0004000, .plotset false 1 7), (0x00030000C0400000, .vloop false 6),
   (0x00040000C0200014, .setvl false 8 5), (0x00068008C0500000, .wmpub false .device 13), (0x00000000D4210410, .mxor opt 4 4 4),
   (0x10000105CD30C108, .vadc .i64 opt 3 1 (.plot 2) 4 5), (0x00000001D4518500, .mshift false (.imm 1) opt 6 5),
   (0x18000125CD30C300, .vadc .i64 opt 3 3 (.scalar 0) 6 5), (0x00028000E4000000, .fcfg opt 0 5), (0x00000000E4100110, .fins opt 0 1 4),
   (0x00038000E4318020, .fread opt 6 8 0 7)] = true := by decide

/-- A word that names no instruction. -/
def refuses (l : List Nat) : Bool := l.all (fun w => match decodeWord w with | .ok _ => false | .error _ => true)

/-- R131, R132, R133-R137, R141, R186, R210, R214, R225: unassigned codes, nonzero reserved bits, an odd pair, a scope of 6,
an acquire on a store. -/
theorem test_decode_refuses : refuses
  [0x00000000, 0xF8000000, 0x04A63813, 0x04A63827, 0x20A63C61, 0x20A63E00, 0x28000008, 0x28200000, 0x1CA18421, 0x18A60100, 0x2CA06015, 0x5CA6BC55,
   0x5CA6B755, 0x84C90581, 0x68E90981, 0x90A53800, 0x90C5380B, 0x940639FF, 0x94000600, 0xB4063B40, 0xB8063F00, 0xB8063D0D, 0xBC210000,
   0x00000040C400C109, 0x000000C0C400C108, 0x00006040C400C108, 0x00200040C400C108, 0x00000240C400C108, 0x00000060C400C108, 0x00000041C400C108,
   0x00000000E8000000, 0x00000042C4A0C108, 0x00000046D0004308, 0x00000043D5110000, 0x00000020D8000000, 0x00000030E0000000] = true := by decide

/-! ## A small machine, and how a witness says that a hypothesis about a result holds -/

/-- A running context under identity tables that holds its vector unit and all pipes (log 13). -/
def base : State := State.reset.loadPlace 0

/-- The same with some registers x. -/
def withX (l : List (XReg × Word)) (s : State) : State :=
  l.foldl (fun s p => { s with ctx := s.ctx.setX p.1 p.2 }) s

/-- Bytes of memory. -/
def withMem (l : List (Nat × Nat × Nat)) (s : State) : State :=
  { s with mem := l.foldl (fun m p => m.setNum p.1 p.2.1 p.2.2) s.mem }

def atLevel (n : Nat) (s : State) : State := { s with ctx := { s.ctx with status := BitVec.ofNat 64 n } }

def onMiller (s : State) : State := { s with ctx := { s.ctx with self := 0x400 } }

/-- A lane thread of element 0 executes. -/
def inLane (s : State) : State :=
  { s with lane := some 0, ctx := { s.ctx with detach := some { va := 0, nt := 1, threads := [{ elem := 0, pc := 0x100000, count := 0 }], faults := [] } } }

/-- The result is an answer, and p holds of it. -/
def okWith {α ε : Type} (x : Except ε α) (p : α → Bool) : Bool :=
  match x with | .ok a => p a | .error _ => false

theorem okWith_spec {α ε : Type} {x : Except ε α} {p : α → Bool} (h : okWith x p = true) : ∃ a, x = .ok a ∧ p a = true := by
  cases x with
  | error e => cases h
  | ok a => exact ⟨a, rfl, h⟩

/-- The outcome is a next state, and p holds of it. -/
def nextWith (o : Host.Outcome State Fault Refusal) (p : State → Bool) : Bool :=
  match o with | .next s => p s | .fault _ => false | .refused _ => false

/-- The access passes its checks, and p holds of where it arrives and of what it leaves. -/
def Gets (s : State) (k : Acc) (sc : Scope) (va : Word) (n : Nat) (p : State.Reached → State → Bool) : Prop :=
  ∃ r t, admitted s k sc va n r t ∧ p r t = true

theorem gets_of {s : State} {k : Acc} {sc : Scope} {va : Word} {n : Nat} {p : State.Reached → State → Bool}
    (h : okWith (s.access s.agent k sc va n .normal) (fun x => p x.1 x.2) = true) : Gets s k sc va n p := by
  obtain ⟨⟨r, t⟩, hx, hp⟩ := okWith_spec h
  exact ⟨r, t, hx, hp⟩

/-- It arrives at pa, and no word there is marked. -/
def sound (pa n : Nat) (r : State.Reached) (t : State) : Bool := r.pa == pa && !t.poisonedAt pa n

/-- An instruction in the vector queue. -/
def waiting (i : Instr) : VQEntry :=
  { instr := i, xs := Vector.replicate 32 0, pc := 0x100000, enc := 0x99, pos := 31, popped := none, regs := Vector.replicate 32 0, flags := 0, marks := 0 }

/-! ## Witnesses: decoding and scalar instructions -/

theorem witness_DecodeOfEncode : (Instr.add 5 6 7).wf = true ∧ encode (.add 5 6 7) = some 0x04A63800 ∧
    (Instr.vadc .i64 opt 63 63 (.plot 63) 15 15).wf = true ∧ (encode (.vadc .i64 opt 63 63 (.plot 63) 15 15)).isSome = true := by decide

theorem witness_EncodeOfDecode : decodeWord 0x04A63800 = .ok (.add 5 6 7) ∧ isVectorParcel 0x04A63800 = false ∧
    isVectorParcel 0x00000040C400C108 = true ∧ decodeWord 0x00000040C400C108 = .ok (.vfadd .f32 opt 3 1 (.plot 2)) := by decide

/-- The last register, a division by 0, the overflow, and quotients of each sign. -/
theorem witness_DivisionCorners :
    let s := withX [(30, 0x8000000000000000), (31, 0xFFFFFFFFFFFFFFFF), (5, 7), (6, 0xFFFFFFFFFFFFFFFE)] base
    regsOk s [31, 31, 0] ∧ s.getX 0 = 0 ∧ (s.getX 30).toInt = -2 ^ 63 ∧ (s.getX 31).toInt = -1 ∧ s.getX 5 ≠ 0 ∧
    ((s.getX 5).toInt = (-3 : Int) * (s.getX 6).toInt + 1 ∧ (1 : Int).natAbs < (s.getX 6).toInt.natAbs ∧ (1 : Int).sign = (s.getX 5).toInt.sign) := by
  unfold regsOk; decide

/-- All 64 leading zeros and none, and a frame in a context. -/
theorem witness_IntegerResults :
    let s := withX [(5, 0), (6, 0x8000000000000001)] base
    regsOk s [31, 5, 6] ∧ leadingZeros (s.getX 5) 64 ∧ leadingZeros (s.getX 6) 0 ∧ trailingZeros (s.getX 5) 64 ∧ trailingZeros (s.getX 6) 0 ∧
    intDest (.addi 0 5 0xFFFF) = some 0 ∧ s.lane = none ∧ nextWith (exec (.addi 0 5 0xFFFF) s) (fun t => t.getX 0 == 0) = true := by
  unfold regsOk leadingZeros trailingZeros; decide

theorem witness_IntegerResults_lane : regsOk (inLane base) [0] ∧ (inLane base).lane = some 0 := by unfold regsOk; decide

theorem witness_FpSpecialValues : isNaN fFp32 0x7FC00000 ∧ isNaN fFp64 0x7FF0000000000001 ∧ isFinite fFp32 true 0x80000001 ∧
    ¬ isZero fFp32 true 0x80000001 ∧ isZero fFp32 true 0x80000000 ∧ isZero fFp32 false 0 ∧ isInf fFp32 false 0x7F800000 ∧ isInf fFp32 true 0xFF800000 := by
  unfold isNaN isFinite isZero isInf; decide

/-- No exception enabled; a division by 0 with its exception enabled; a Miller and a lane thread. -/
theorem witness_FloatingPoint :
    let s := withX [(5, 0x3F800000)] base
    let e : State := { s with ctx := { s.ctx with fcsr := 0x200 } }
    (match fpOp s (.fdiv .f32 7 5 6) with | some (_, _, r) => enabledCauses s.ctx.fcsr r.flags == [] | none => false) = true ∧
    (match fpOp e (.fdiv .f32 7 5 6) with | some (_, _, r) => enabledCauses e.ctx.fcsr r.flags == [0x11] | none => false) = true ∧
    s.lane = none ∧ s.ctx.isMiller = false ∧ (onMiller s).ctx.isMiller = true ∧ (inLane s).lane ≠ none ∧
    nextWith (exec (.fdiv .f32 7 5 6) s) (fun t => t.getX 7 == 0x7F800000 && t.ctx.fcsr == 8) = true := by decide

theorem witness_Branches :
    let s := withX [(5, 0x100002), (6, 0x100004)] { base with ctx := { base.ctx with vl := 4096 } }
    regsOk s [5, 6] ∧ onFront s ∧ s.ctx.vl.toNat ≤ 4096 ∧ (s.getX 5 + (0xFFFE : BitVec 16).signExtend 64).toNat % 4 = 0 ∧
    (s.getX 5 + (0 : BitVec 16).signExtend 64).toNat % 4 ≠ 0 := by
  unfold regsOk onFront; decide

/-! ## Witnesses: memory -/

/-- The last double-word of a page. -/
theorem witness_Loads :
    let s := withX [(6, 0x210000)] (withMem [(0x20FFF8, 8, 0x8877665544332211)] base)
    loadForm (.ldD 5 6 0 0x3FF) = some (true, 8, 5, 6, (0x3FF : BitVec 10).signExtend 64, none) ∧ regsOk s [5, 6] ∧ s.lane = none ∧ s.mem.wf = true ∧
    Gets s .load .strand (s.getX 6 + (0x3FF : BitVec 10).signExtend 64 * BitVec.ofNat 64 8) 8 (sound 0x20FFF8 8) ∧ isDeviceRegion 0x20FFF8 = false ∧
    nextWith (exec (.ldD 5 6 0 0x3FF) s) (fun t => t.getX 5 == 0x8877665544332211) = true := by
  refine ⟨rfl, ?_⟩; unfold regsOk; and_intros <;> first | decide +kernel | exact gets_of (by decide +kernel)

theorem witness_Loads_poison :
    let s := withX [(6, 0x200000)] { base with poison := [0x40000] }
    Gets s .load .strand (s.getX 6 + (0 : BitVec 7).signExtend 64 * BitVec.ofNat 64 1) 1 (fun r t => r.pa == 0x200000 && t.poisonedAt 0x200000 1) :=
  gets_of (by decide +kernel)

/-- A page of device space, mapped at 0x1000_0000, in a context that runs and for a control core at level S. -/
def device (pa : Nat) : State :=
  let e (p : TlbAt) : Tlb := { place := p, lease := 1, sub := 1, die := 0, va := 0x1000, ipa := pa, pa := pa, size := 16, size2 := 16, cls := 2, home := 0, skew := 0
                               ce := false, amo := true, x := false, w := true, r := true }
  { base with tlb := [e (.main 0), e (.cluster 0)] }
def windowed : State := device 0x8000000000
def counted : State := device 0x8100000000

/-- A load, an atomic and a compare in a request window; a counter, and a select that is read and written. -/
theorem witness_Loads_window :
    let s := withX [(6, 0x10000000)] windowed
    let c := withX [(5, 0x01010021), (6, 0x10000000), (7, 0x10002000)] (counted.modDie 0 (fun x => { x with counts := x.counts.set 1 77, selects := x.selects.set 1 0x20 }))
    isDeviceRegion 0x8000000008 = true ∧ State.counterAt 0x8000000008 = none ∧ State.selectAt 0x8000000008 = none ∧ regsOk s [5, 6] ∧ s.mem.wf = true ∧
    Gets s .load .strand (s.getX 6 + (1 : BitVec 10).signExtend 64 * BitVec.ofNat 64 8) 8 (sound 0x8000000008 8) ∧
    Gets s .atomic .device (s.getX 6 + s.getX 0) 8 (sound 0x8000000000 8) ∧
    nextWith (exec (.ldD 5 6 0 1) s) (fun t => t.freeCtr == 1 && t.ctx.pc == s.ctx.pc + 4) = true ∧
    State.counterAt 0x8100000008 = some (0, 1) ∧ State.selectAt 0x8100002008 = some (0, 1) ∧ State.selectOk 0x01010021 = true ∧ State.selectOk 0x26 = false ∧
    Gets c .load .strand (c.getX 6 + (1 : BitVec 10).signExtend 64 * BitVec.ofNat 64 8) 8 (sound 0x8100000008 8) ∧
    Gets c .store .strand (c.getX 7 + (1 : BitVec 10).signExtend 64 * BitVec.ofNat 64 8) 8 (sound 0x8100002008 8) ∧
    nextWith (exec (.ldD 8 6 0 1) c) (fun t => t.getX 8 == 77) = true ∧ nextWith (exec (.ldD 8 7 0 1) c) (fun t => t.getX 8 == 0x20) = true ∧
    nextWith (exec (.stD 5 7 0 1) c) (fun t => (t.die 0).selects.toList.getD 1 0 == 0x01010021) = true := by
  unfold regsOk; and_intros <;> first | decide +kernel | exact gets_of (by decide +kernel)

theorem witness_Stores :
    let s := withX [(5, 0x1122334455667788), (6, 0x210000)] base
    storeForm (.stHRel 5 6 0 .die 0x7F) = some (2, 5, 6, (0x7F : BitVec 7).signExtend 64, some .die) ∧ regsOk s [5, 6] ∧ s.ctx.vq = [] ∧ s.mem.wf = true ∧
    release (some .die) s = .ok s ∧
    Gets s .store .strand (s.getX 6 + (0x7F : BitVec 7).signExtend 64 * BitVec.ofNat 64 2) 2 (sound 0x20FFFE 2) ∧ State.selectAt 0x20FFFE = none ∧
    nextWith (exec (.stHRel 5 6 0 .die 0x7F) s) (fun t => t.mem.num 0x20FFFC 8 == 0x77880000) = true := by
  unfold regsOk; and_intros <;> first | decide +kernel | rfl | exact gets_of (by decide +kernel)

/-- An atomic, a compare that holds and one that fails, and an atomic of a poisoned word. -/
theorem witness_Atomics :
    let s := withX [(6, 0x200000), (7, 5), (8, 9)] (withMem [(0x200000, 8, 5)] base)
    amoForm (.amoadd 5 6 7 0 .ar .device) = some (.add, 5, 6, 7, .ar, .device) ∧ regsOk s [30, 31, 6, 7] ∧ s.ctx.vq = [] ∧ s.mem.wf = true ∧
    okWith (release (relAt .ar .device) s) (· == s) = true ∧
    Gets s .atomic .device (s.getX 6) 8 (sound 0x200000 8) ∧ Gets s .atomic .device (s.getX 6 + s.getX 0) 8 (sound 0x200000 8) ∧
    BitVec.ofNat 64 (value s.mem 0x200000 8) = s.getX 7 ∧ BitVec.ofNat 64 (value s.mem 0x200000 8) ≠ s.getX 8 := by
  unfold regsOk; and_intros <;> first | decide +kernel | rfl | exact gets_of (by decide +kernel)

theorem test_atomics :
    let s := withX [(6, 0x200000), (7, 5), (8, 5), (9, 0xFFFFFFFFFFFFFFFF)] (withMem [(0x200000, 8, 5)] base)
    nextWith (exec (.amoadd 5 6 7 0 .ar .device) s) (fun t => t.getX 5 == 5 && t.mem.num 0x200000 8 == 10) = true ∧
    nextWith (exec (.amomax 5 6 9 0 .plain .strand) s) (fun t => t.mem.num 0x200000 8 == 5) = true ∧
    nextWith (exec (.amomaxu 5 6 9 0 .plain .strand) s) (fun t => t.mem.num 0x200000 8 == 2 ^ 64 - 1) = true ∧
    nextWith (exec (.cas 8 6 0 0 .plain .strand) s) (fun t => t.getX 8 == 5 && t.mem.num 0x200000 8 == 2 ^ 64 - 1) = true := by decide +kernel

theorem witness_ScalarPoison :
    let s := withX [(6, 0x200000), (7, 5)] { base with poison := [0x40000] }
    let e : VQEntry := { waiting (.mclr 0) with marks := 2 }
    Gets s .atomic .device (s.getX 6) 8 (fun r t => r.pa == 0x200000 && t.poisonedAt 0x200000 8) ∧ s.ctx.cki.extractLsb' 32 16 ≠ 0xFFFF ∧
    nextWith (exec (.amoadd 5 6 7 0 .ar .device) s) (fun t => t.getX 5 == 0 && t.ctx.cki == 0x100000002 && t.mem.num 0x200000 8 == 5 && t.poison == []) = true ∧
    nextWith (exec (.ldD 5 6 0 0) { s with ctx := { s.ctx with vq := [e] } }) (fun t => t.getX 5 == 0 && t.ctx.cki == 0 && t.ctx.vq.map VQEntry.marks == [3]) = true := by
  and_intros <;> first | decide +kernel | exact gets_of (by decide +kernel)

/-- An access of 8 bytes at scope `.system` through the checks, and whether it fails with a cause and `TVAL`. -/
def tested (s : State) (k : Acc) (va : Word) : ARes (Tlb × State) := s.translate s.ctx.who k va (classTest s.ctx s.agent k .system va 8)
def faultsOf {α : Type} (x : ARes α) (f : Nat × Word) : Bool := match x with | .error (.fault _ g) => g.cause == f.1 && g.tval == f.2 | _ => false

/-- A misaligned address, one outside the tables, one the tables map, on an ordinary page and on a device page. -/
theorem witness_AccessChecks :
    (0x200001 : Word).toNat % 8 ≠ 0 ∧ (0x20000000 : Word).toNat % 8 = 0 ∧
    faultsOf (tested base .load 0x20000000) (0x08, 0x20000000) = true ∧ base.stashAt 0 0x200000 = none ∧ okWith (tested base .load 0x200000) (fun _ => true) = true ∧
    faultsOf (tested (withMem [(0x40000, 8, 0x80000000000041E0)] base) .load 0x200000) (0x0D, 0x200000) = true ∧
    faultsOf (tested (withMem [(0x20000, 8, 0x80000000000000E0), (0x40000, 8, 0x80000000000000E0)] base) .atomic 0x200000) (0x0E, 0x200000) = true := by decide +kernel

/-- The first stage of a walk of sublease 1 of lease 1 that uses nothing cached. -/
def firstStage (s : State) (va : Word) : ARes (Option Leaf × State) :=
  s.walk1 s.ctx.who true (va &&& 0x7FFFFFFFFFFFFF).toNat 3 0x30000

/-- An address that is not canonical; a table that stage 2 does not map, an address that no leaf maps at stage 1, one whose leaf is at
stage 2 missing, and one that both stages admit. -/
theorem witness_AccessChecks_walk :
    let gone := withMem [(0x30000, 8, 0xC000000020000000)] base
    let far := withMem [(0x40008, 8, 0x80000000200001E0)] base
    canonical 0x0040000000000000 = false ∧ canonical 0x200000 = true ∧ (base.sub? 1 1).map Sub.root = some 0x30000 ∧
    base.walkFrom base.ctx.who (some 1) true 0x200000 0x30000 = (3, 0x30000) ∧
    faultsOf (firstStage gone 0x200000) (0x0C, 0x20000000) = true ∧ okWith (firstStage base 0x20000000) (fun p => p.1.isNone) = true ∧
    okWith (firstStage far 0x20000000) (fun p => p.1.any (fun l => l.r && okWith (p.2.stage2 base.ctx.who true (leafPa l 0x20000000)) (fun q => q.1.isNone))) = true ∧
    okWith (firstStage base 0x200000) (fun p => p.1.any (fun l => l.r && okWith (p.2.stage2 base.ctx.who true (leafPa l 0x200000)) (fun q => q.1.any Leaf.r))) = true ∧
    okWith (base.access base.agent .load .strand 0x200000 8 .normal) (fun p => p.1.pa == 0x200000) = true := by decide +kernel

theorem witness_FencesAndCaches :
    let s := withX [(5, 0x200000), (6, 128), (7, 0x1000001), (8, 0x30000000)] base
    onContext s ∧ onFront s ∧ (s.getX 0).extractLsb' 0 16 = 0 ∧ release (some .device) s = .ok s ∧ 0x1000000 < (s.getX 7).toNat ∧
    (s.getX 5).toNat % 128 + (s.getX 6).toNat ≤ 128 ∧ okWith (s.cacheLine .load (s.getX 8 &&& ~~~127)) (fun p => p.1.isNone) = true ∧
    okWith (s.cacheLine .load (s.getX 5 &&& ~~~127)) (fun p => p.1 == some 0x4000 && !p.2.ownedLine 0x4000 false &&
      okWith (p.2.detectLine p.2.ctx.who 0x4000) (fun _ => true)) = true := by
  unfold onContext onFront; and_intros <;> decide +kernel

def waitsIn {α : Type} (r : Res α) : Bool := match r with | .error (.wait _) => true | _ => false

/-- An engine command of the context that has not reached its issue point, and one that owns a line. -/
def cpyOp (issued : Bool) : EngineOp :=
  { id := 7, ctx := 0, lease := 1, sub := 1, core := 0, kind := .cpy 0x200000 0x300000 256, issued := issued, dst := [(0x200000, 256)], src := [(0x300000, 256)]
    owns := [0x4000, 0x4001], holds := [0x6000, 0x6001], arrivals := [] }

theorem witness_FencesAndCaches_engine :
    (∃ o ∈ ({ base with ops := [cpyOp false] } : State).ops, o.ctx = base.ctx.id ∧ o.issued = false) ∧
    okWith (({ base with ops := [cpyOp true] } : State).cacheLine .load 0x200000) (fun p => p.1 == some 0x4000 && p.2.ownedLine 0x4000 false) = true ∧
    waitsIn (({ base with ops := [{ cpyOp true with owns := [0x40000 / 128] }] } : State).cacheLine .load 0x200000) = true := by decide +kernel

/-- The superblock of 0x200000 in way w of the L2 of die 0, with the first line destroyed. -/
def lostLine (way : Nat) (dirty : BitVec 4) (s : State) : State :=
  s.modDie 0 (fun x => { x with l2 := [{ slice := 16, set := 16, way := way, tag := 0, valid := 0xF, dirty := dirty, bad := [(0, 0xFFFF)] }] })

/-- A line that an uncorrectable error has destroyed in the L2. -/
theorem witness_FencesAndCaches_error :
    okWith ((lostLine 3 1 base).cacheLine .load 0x200000) (fun p => p.1 == some 0x4000 && !p.2.ownedLine 0x4000 false &&
      !(p.2.detectLine p.2.ctx.who 0x4000).isOk) = true := by decide +kernel

/-- Below the level, an absent target, and a target with a cached translation, idle. -/
theorem witness_TranslationRemoval :
    let s := withX [(5, 0x200000), (6, 1), (7, 0xFF)] base
    tlbForm s (.tlbinvS2 5 6) ≠ none ∧ onFront s ∧ s.ctx.level < 2 ∧ (atLevel 3 s).ctx.level = 3 ∧ (s.lease? ((s.getX 7).setWidth 8)).isSome = false ∧
    (s.sub? s.ctx.lease ((s.getX 7).setWidth 8)).isSome = false ∧ (s.lease? ((s.getX 6).setWidth 8)).isSome = true ∧
    (s.sub? s.ctx.lease ((s.getX 6).setWidth 8)).isSome = true ∧ s.busy s.ctx.lease (some 1) = false ∧ s.busy 1 none = false ∧
    okWith (tested s .load 0x200000) (fun p => decide (p.2.tlb.length = 2) && !p.2.walks.isEmpty &&
      nextWith (exec (.tlbinvS1 5 6) (atLevel 2 p.2)) (fun u => u.tlb == []) && nextWith (exec (.tlbinvS2all 6) (atLevel 3 p.2)) (fun u => u.tlb == [] && u.walks == [])) = true := by
  unfold onFront; refine ⟨by simp [tlbForm], ?_⟩; and_intros <;> decide +kernel

/-- A mapping that passes every check ends at the last byte of the stash, and one that fails the first check. -/
theorem witness_StashMappings :
    let s := withX [(5, 0x5FF80), (6, 0x200000), (7, 0x80), (8, 0x200001), (9, 0)] base
    onFront s ∧ s.stashRange s.ctx.core s.ctx.fe = (0, 0x60000) ∧ (s.getX 8).toNat % 128 ≠ 0 ∧ (∀ m ∈ s.myFe.maps, m.off ≠ (s.getX 5).toNat) ∧
    nextWith (exec (.stashmap 5 6 7) s) (fun t => okWith (α := State) (ε := Unit) (.ok t) (fun t => decide (t.myFe.maps.length = 1) &&
      (t.stashAt 0 0x20007F).isSome && decide (t.myFe.maps.find? (fun k => k.off == 0x5FF80) ≠ none) && !t.boardHit 0 0x5FF80 0x80 &&
      nextWith (exec (.stashunmap 5) t) (fun u => u.myFe.maps == []))) = true ∧
    nextWith (exec (.stashmap 5 8 7) (atLevel 0 { s with ctx := { s.ctx with tvec := 0x400, tdeleg := 0x010F0010 } })) (fun t => t.ctx.tcause == 4 && t.ctx.tval == 0x200001) = true := by
  unfold onFront; and_intros <;> decide +kernel

/-! ## Witnesses: registers, traps, the step -/

theorem witness_CtlPrivilege :
    ctlForm (.ctlw 5 6 0x080) ≠ none ∧ base.lane = none ∧ ctlRow 0x00A = none ∧ ctlRow 0xFFF = none ∧ (onMiller base).ctx.isMiller = true ∧ 0x005 ∉ ctlMiller ∧
    ctlRow 0x011 = some (0, none) ∧ ctlRow 0x05F = some (0, some 1) ∧ ctlRow 0x080 = some (0, some 2) ∧ ctlRow 0x0F0 = some (3, some 3) ∧
    base.ctx.level < 1 ∧ (atLevel 1 base).ctx.level < 2 ∧ (atLevel 2 base).ctx.level < 3 := by
  refine ⟨by simp [ctlForm], ?_⟩; decide

theorem witness_CtlFields : ctlRow 0x010 = some (0, some 0) ∧ base.ctlOk 0x010 4096 = true ∧ base.ctlOk 0x010 4097 = false ∧
    base.ctlOk 0x000 0x8000 = true ∧ (0x8000 : Word).getLsbD 15 ≠ base.ctx.status.getLsbD 15 ∧ base.ctlOk 0x015 0x8F1F = true := by decide

theorem witness_CtlAccess :
    let s := withX [(6, 4096), (7, 4097)] (atLevel 0 base)
    onContext s ∧ ctlRow 0x010 = some (0, some 0) ∧ s.foreignCounter 0x010 = false ∧ s.ctlOk 0x010 (s.getX 6) = true ∧ s.ctlOk 0x010 (s.getX 7) = false ∧
    nextWith (exec (.ctlw 5 6 0x010) s) (fun t => t.ctx.vl == 4096 && t.getX 5 == 0) = true := by unfold onContext; decide

/-- The register writes that are steps: a queue position, the protected bit, the pipes of level L, injection at level W and from the board. -/
theorem witness_CtlAccess_steps :
    base.ctx.isMiller = false ∧ base.ctlOk 0x005 0 = true ∧ base.ctlOk 0x000 0x8000 = true ∧ (atLevel 2 base).ctlOk 0x080 0xFF = true ∧
    2 ≤ (atLevel 2 base).ctx.level ∧ (atLevel 1 base).ctx.level < 2 ∧ (atLevel 3 base).ctx.level = 3 ∧ (atLevel 3 base).ctlOk 0x0F0 0 = true ∧
    errinjOk 0 0x9400000000000000 = true := by decide

/-- A sublease with an event queue. -/
def queued (s : State) : State :=
  s.modSub 1 1 (fun b => { b with queue := some { base := 0x300000, k := 4, next := 0 } })

theorem witness_TrapRouting : base.lane = none ∧ base.ctx.phase = .running ∧ base.route base.ctx 0x0C = 3 ∧ base.reeve.frozen = false ∧
    (63 : Nat) < 64 ∧ (queued base).route base.ctx 0x04 = 1 := by decide

/-- A handler at P for an enabled exception, and one above P. -/
theorem witness_TrapEntry :
    let s : State := { base with ctx := { base.ctx with tvec := 0x400 } }
    s.lane = none ∧ s.route s.ctx 0x10 = 0 ∧ s.route s.ctx 0x18 = 0 ∧ s.ctx.inTrap = false ∧ (queued base).route (queued base).ctx 0x04 = 1 := by decide

theorem witness_TrapReturn :
    let en := waiting (.vsync false .strand)
    let s : State := { base with ctx := { base.ctx with status := 0x10, tpc := 0x104, held := some en, tqpos := 0x8000000000000000 } }
    s.lane = none ∧ base.ctx.inTrap = false ∧ s.ctx.inTrap = true ∧ s.ctx.tpc.toNat % 4 = 0 ∧ (0x106 : Word).toNat % 4 ≠ 0 ∧ s.ctx.tqpos.getLsbD 63 = true ∧
    s.ctx.threading = false ∧ nextWith (exec .tret s) (fun t => t.ctx.vq == [] && t.ctx.pc == 0x104 && t.ctx.status == 0 && t.ctx.held.isNone && !t.ctx.tqpos.getLsbD 63) = true := by
  decide +kernel

/-- What a fetch answers is an encoding of some length. -/
def fetches (f : Fetched) (enc size : Nat) : Bool := match f with | .word _ e n => e == enc && n == size | _ => false

/-- What a fetch answers is an encoding whose instruction goes on to a state of which p holds. -/
def fetchRuns (f : Fetched) (i : Instr) (enc : Nat) (p : State → Bool) : Bool :=
  match f with
  | .word s e _ => e == enc && decide (decodeWord e = .ok i) &&
      nextWith (exec i { s with ctx := { s.ctx with unissued := false }, enc := word e, arg := .none }) p
  | _ => false

/-- `addi x5, x0, 0x7FFF` and a vector instruction in a context, the latter across a line; an encoding that names nothing. -/
theorem witness_StepRunsDecoded :
    let s : State := { base.withFetchWord 32 0x08A07FFF with agenda := [] }
    let v := (base.withFetchWord 64 0x00030000C0400000)
    s.yielded = 0 ∧ s.canIssue s.ctx = true ∧ s.streak < State.turnLength ∧ s.ctx.vq = [] ∧ decodeWord 0x08A07FFF = .ok (.addi 5 0 0x7FFF) ∧
    fetches ({ s with streak := s.streak + 1 } : State).fetch 0x08A07FFF 4 = true ∧ v.agenda = [.run v.ctx.id] ∧ v.ctx.present = true ∧
    (v.findCtx v.ctx.id).any v.canIssue = true ∧ fetches ({ v with agenda := [], yielded := 0 } : State).fetch 0x00030000C0400000 8 = true ∧
    fetches ({ base.withFetchWord 32 0 with agenda := [], streak := 1 } : State).fetch 0 4 = true ∧ (match decodeWord 0 with | .ok _ => false | .error _ => true) = true ∧
    nextWith (step s) (fun t => t.getX 5 == 0x7FFF) = true := by decide +kernel

theorem witness_StepRunsDecoded_lane :
    let s := State.reset.withFetchWord 32 0x28000007
    let l : State := { s with agenda := [], lane := some 0, yielded := 0 }
    s.agenda = [.lane s.ctx.id 0] ∧ s.ctx.present = true ∧ (s.findCtx s.ctx.id).isSome = true ∧ l.thread?.isSome = true ∧ l.overLimit = false ∧
    fetchRuns l.fetch .lexit 0x28000007 (fun t => t.yielded == 0) = true := by decide +kernel

/-- A second context of the same front end. -/
def withSibling (s : State) : State := { s with others := [{ s.ctx with self := 1, unit := false }] }

/-- waitev of a line that can be loaded; a sibling and none; nonzero CKI; a Miller with an idle Mill. -/
theorem witness_SystemInstructions :
    let s := withX [(6, 0x200000), (7, 0xFFFFFFFFFFFFFFFF)] base
    onContext s ∧ s.ctx.threading = false ∧
    okWith (s.access .scalar .load .strand (s.getX 6) 8 .normal) (fun p => !p.2.poisonedAt p.1.pa 8) = true ∧ s.siblingRuns s.ctx = false ∧
    (withSibling s).siblingRuns (withSibling s).ctx = true ∧ s.ctx.present = true ∧ s.ctx.cki = 0 ∧ ({ s.ctx with cki := 2 } : Ctx).cki ≠ 0 ∧ s.ctx.isMiller = false ∧
    (onMiller s).ctx.isMiller = true ∧ ((onMiller s).mill 0).ops = [] ∧
    nextWith (exec (.waitev 5 6 7) s) (fun t => t.ctx.phase == .asleep && t.ctx.wait == some { dest := 5, line := 0x4000, left := some (2 ^ 64 - 1), hit := false }) = true := by
  unfold onContext; decide +kernel

theorem witness_SystemInstructions_wakes :
    let w : Wait := { dest := 5, line := 0x4000, left := some 0, hit := true }
    let s : State := { base with ctx := { base.ctx with phase := .asleep, wait := some w }, arg := .ctx 0 }
    s.ctx.phase = .asleep ∧ s.ctx.wait = some w ∧ s.arg = .ctx s.ctx.id ∧ w.hit = true ∧ w.left = some 0 := by decide

/-! ## Witnesses: references -/

/-- Memory from numbers of n bytes at rising addresses. -/
def cells (l : List (Nat × Nat × Nat)) : Memory := l.flatMap (fun p => cellsOf p.1 (leBytes p.2.1 p.2.2))

/-- The tables of `base`, with 64 KiB pages at stage 1: pages 0, 6, 7 and 8 ordinary, parcel 1 managed. Region 0 with descriptor words
d, two layouts (all words references; none), a forwarding table at 0x70000 that forwards one object, a liveness bitmap at
0x80000, and in parcel 1 two objects of 64 bytes with the words given; core 0 has the translations cached, the die's walk cache the pointers. -/
def region (d0 d4 head ref data : Nat) : State :=
  let m := cells [(0x0, 8, d0), (0x8, 8, 0x70000), (0x10, 8, 0x60002), (0x20, 8, d4), (0x10000, 8, 0xC000000000020000), (0x20000, 8, 0x80000000000001E0),
     (0x30000, 8, 0xC000000000040000), (0x40000, 8, 0xC000000000050000), (0x50000, 8, 0x80000000000001E0), (0x50030, 8, 0x80000000000601E0),
     (0x50038, 8, 0x80000000000701E0), (0x50040, 8, 0x80000000000801E0), (0x50100, 8, 0x80000000002041E0), (0x60000, 8, 0x8000000000000000),
     (0x70010, 8, 0x8000000000200000), (0x70018, 8, 0x5000000000200100), (0x80000, 8, 1), (0x200000, 8, head), (0x200038, 8, ref),
     (0x200100, 8, 0x100000004), (0x200138, 8, data)]
  let e (page : Nat) (cls : BitVec 2) : Tlb := { place := .main 0, lease := 1, sub := 1, die := 0, va := page, ipa := page * 65536, pa := page * 65536, size := 16, size2 := 16, cls := cls
                                                 home := 0, skew := 0, ce := false, amo := true, x := true, w := true, r := true }
  let t (sub : Option Byte) (level table : Nat) : WalkEntry := { die := 0, lease := 1, sub := sub, level := level, key := 0, table := table }
  { base with mem := m, tlb := [e 0 0, e 6 0, e 7 0, e 8 0, e 0x20 1], walks := [t (some 1) 2 0x50000, t none 1 0x20000] }

def heap : State := region 0x4000000000000000 0 4 0x1000000000200100 77

/-- The same while a cycle is active and parcel 1 is a from-parcel. -/
def healing : State :=
  let g : Glean := { id := 3, die := 0, ctx := 0, lease := 1, sub := 1, base := 0, bitmap := 0x80000, step := .copy, todo := [], toParcels := [], toOff := 0
                     inPlace := [], stopped := false, owns := [], holds := [] }
  { region 0x6000000000000000 2 4 0 0 with gleans := [g] }

def withH (l : List (HReg × Word)) (s : State) : State :=
  l.foldl (fun s p => { s with ctx := s.ctx.setH p.1 p.2 }) s

def healsTo (s : State) (r : Word) (p : Word → Bool) : Bool := okWith (s.healRef s.ctx.who none r) (fun x => p x.1)

/-- A null reference, an illegal kind, a set bit 59, the present phase, the phase before, one of no phase, and in a cycle an object
that the table forwards, an interior reference into it, and one that the table does not list. -/
theorem witness_Barrier :
    refKind 0 = 0 ∧ refKind 0x3000000000000000 = 3 ∧ (0x1800000000200000 : Word).extractLsb' 55 5 ≠ 0 ∧
    okWith (heap.descWord heap.ctx.who none (regionBase (refAddr 0x5000000000200000)) (regionBase (refAddr 0x5000000000200000))) (fun p => decide (p.1 = 0x4000000000000000)) = true ∧
    refPhase 0x5000000000200000 = 1 ∧ refPhase 0x1000000000200000 = 0 ∧ refPhase 0x9000000000200000 = 2 ∧
    healsTo heap 0x1000000000200000 (· == 0x5000000000200000) = true ∧ healsTo healing 0x1000000000200000 (· == 0x5000000000200100) = true ∧
    healsTo healing 0x2000000000200010 (· == 0x6000000000200110) = true ∧ healsTo healing 0x1000000000200100 (· == 0x1000000000200100) = true ∧
    okWith (healing.parcelBit healing.ctx.who none 4 0x200000) (·.1) = true ∧ okWith (healing.parcelBit healing.ctx.who none 4 0x400000) (!·.1) = true ∧
    okWith (healing.headerBelow healing.ctx.who none 0x200010) (fun p => p.1 == some 0x200000) = true ∧
    okWith (withMem [(0x80000, 8, 0)] healing |>.headerBelow healing.ctx.who none 0x200010) (fun p => p.1 == none) = true := by decide +kernel

/-- The last reference field of an object, and the last data word of another; a reference that is healed, one that is not. -/
theorem witness_References :
    let s := withH [(1, 0x5000000000200000), (2, 0x5000000000200100)] heap
    onFront s ∧ s.ownIssued .system = true ∧ refKind (s.ctx.getH 0) = 0 ∧ refKind 0x3000000000000000 = 3 ∧
    okWith (refReach 2 56 .load .strand false s) (fun p => okWith (p.2.2.access .gleaner .load .strand p.1 8 .normal) (fun q => decide (q.1.pa = 0x200138) && !q.2.poisonedAt q.1.pa 8)) = true ∧
    okWith (refReach 2 56 .store .strand false s) (fun p => okWith (p.2.2.access .gleaner .store .strand p.1 8 .normal) (fun q => decide (q.1.pa = 0x200138))) = true ∧
    okWith (refReach 1 56 .load .strand true s) (fun p => p.2.1 && okWith (p.2.2.access .gleaner .load .strand p.1 8 .normal) (fun q =>
      refWordOk (BitVec.ofNat 64 (q.2.mem.num q.1.pa 8)) && okWith (q.2.healRef q.2.ctx.who q.2.here (BitVec.ofNat 64 (q.2.mem.num q.1.pa 8))) (fun h =>
        okWith (h.2.access .gleaner .atomic .device p.1 8 .normal) (fun x => h.1 != 0x1000000000200100 && x.2.mem.num x.1.pa 8 == 0x1000000000200100)))) = true ∧
    okWith (refReach 1 56 .store .strand true s) (fun p => okWith (p.2.2.healRef p.2.2.ctx.who p.2.2.here (p.2.2.ctx.getH 2)) (fun h =>
      okWith (refStorable p.1 h.1 h.2) (fun v => okWith (v.access .gleaner .store .strand p.1 8 .normal) (fun _ => true)))) = true ∧
    refWordOk 0x5000000000200104 = false ∧ (0 : Word) ≠ 8 ∧
    nextWith (exec (.hld 3 1 0 7) s) (fun t => t.ctx.getH 3 == 0x5000000000200100 && t.mem.num 0x200038 8 == 0x5000000000200100) = true ∧
    nextWith (exec (.hldw 5 2 0 7) s) (fun t => t.getX 5 == 77) = true := by
  unfold onFront; decide +kernel

/-- Both objects in h1 and h2, the second also in h4, and a last field that holds a word; offsets and words in x5 to x8. -/
def swaps (field : Nat) : State :=
  withX [(5, 56), (6, 77), (7, 78), (8, 1)] (withH [(1, 0x5000000000200000), (2, 0x5000000000200100), (4, 0x5000000000200100), (5, 0)]
    (region 0x4000000000000000 0 4 field 77))

def swap1 : State := swaps 0x5000000000200100

/-- A swap of a data word that compares equal and one that does not; swaps of references alike, the last on a word that healing changes. -/
theorem witness_ReferenceSwap :
    onFront swap1 ∧ okWith (release (relAt .ar .device) swap1) (· == swap1) = true ∧
    okWith (refReach 2 (swap1.getX 5) .atomic .device false swap1) (fun p => okWith (p.2.2.access .gleaner .atomic .device p.1 8 .normal) (fun q =>
      !q.2.poisonedAt q.1.pa 8 && BitVec.ofNat 64 (q.2.mem.num q.1.pa 8) == swap1.getX 6 && BitVec.ofNat 64 (q.2.mem.num q.1.pa 8) != swap1.getX 8)) = true ∧
    okWith (refReach 1 (swap1.getX 5) .atomic .device true swap1) (fun p => okWith (p.2.2.healRef p.2.2.ctx.who p.2.2.here (p.2.2.ctx.getH 4)) (fun c =>
      okWith (c.2.healRef c.2.ctx.who c.2.here (c.2.ctx.getH 5)) (fun n => okWith (refStorable p.1 n.1 n.2) (fun w =>
        okWith (w.access .gleaner .load .strand p.1 8 .normal) (fun x => okWith (x.2.healRef x.2.ctx.who x.2.here (BitVec.ofNat 64 (x.2.mem.num x.1.pa 8))) (fun o =>
          okWith (o.2.access .gleaner .atomic .device p.1 8 .normal) (fun z => !z.2.poisonedAt z.1.pa 8 && refField o.1 == refField c.1 && o.1 == 0x5000000000200100))))))) = true ∧
    nextWith (exec (.hcas 4 1 5 0 .ar .device) swap1) (fun t => t.mem.num 0x200038 8 == 0 && t.ctx.getH 4 == 0x5000000000200100) = true ∧
    nextWith (exec (.hcas 2 1 5 0 .ar .device) (withH [(2, 0)] (swaps 0x1000000000200100))) (fun t => t.mem.num 0x200038 8 == 0x5000000000200100) = true := by
  unfold onFront; decide +kernel

/-- The objects in h1 and h2, the first with a header and the strand with pin windows; addresses and offsets in x5 to x9. -/
def pinner (head : Nat) (pins : List PinWin) : State :=
  let s := withX [(5, 0x200000), (6, 0x200008), (7, 16), (8, 64), (9, 48)] (withH [(1, 0x5000000000200000), (2, 0x5000000000200100)]
    (region 0x4000000000000000 0 head 0x1000000000200100 77))
  { s with ctx := { s.ctx with pins := pins } }

def pin0 : State := pinner 4 []
def pinEight : State := pinner 4 (List.replicate 8 { header := 0x200100, size := 64 })
def pinFull : State := pinner (255 * 2 ^ 54 + 4) []
def pinOne : State := pinner (2 ^ 54 + 4) [{ header := 0x200000, size := 64 }]

/-- Equal and different references, a pin and its end, eight pins, a count of 255, an address that is not a multiple of 16, interior offsets at
both ends of the object. -/
theorem witness_IdentityAndPins :
    onFront pin0 ∧ okWith (pin0.healRef pin0.ctx.who pin0.here (pin0.ctx.getH 1)) (fun p => okWith ((p.2.setH 1 p.1).healRef p.2.ctx.who p.2.here ((p.2.ctx.setH 1 p.1).getH 2)) (fun _ => p.2.ctx == pin0.ctx)) = true ∧
    okWith (refPinned 1 true pin0) (fun p => p.2.2.2.ctx.pins.length < 8 && headPins p.2.1 != 255 &&
      okWith (p.2.2.2.access .gleaner .atomic .device p.1 8 .normal) (fun q => q.2.mem.wf && !q.2.poisonedAt q.1.pa 8)) = true ∧
    okWith (refPinned 1 true pinEight) (fun p => decide (8 ≤ p.2.2.2.ctx.pins.length)) = true ∧ okWith (refPinned 1 true pinFull) (fun p => headPins p.2.1 == 255) = true ∧
    okWith (release (some .device) pinOne) (· == pinOne) = true ∧ okWith (refPinned 1 false pinOne) (fun p => (p.2.2.2.ctx.pins.find? (fun k => k.header == p.1)).isSome && headPins p.2.1 != 0 &&
      okWith (p.2.2.2.access .gleaner .atomic .device p.1 8 .normal) (fun q => !q.2.poisonedAt q.1.pa 8)) = true ∧
    okWith (refPinned 1 false pin0) (fun p => p.2.2.2.ctx.pins == []) = true ∧ (pin0.getX 6).toNat % 16 ≠ 0 ∧ (pin0.getX 5).toNat % 16 = 0 ∧
    okWith (refAdmits .load .strand (pin0.getX 5) pin0) (fun p => okWith (refHead (pin0.getX 5) p.2) (fun q => q.2.1.isSome &&
      okWith (q.2.2.descWord q.2.2.ctx.who q.2.2.here (regionBase (pin0.getX 5)) (regionBase (pin0.getX 5))) (fun d => !d.1.getLsbD 61))) = true ∧
    okWith (refBase 1 pin0) (fun p => okWith (refAdmits .load .strand (refAddr p.1) p.2) (fun q => okWith (refHead (refAddr p.1) q.2) (fun h => h.2.1.any (fun d => d.size == 4)))) = true ∧
    nextWith (exec (.hpin 5 1) pin0) (fun t => t.getX 5 == 0x200000 && t.mem.num 0x200000 8 == 2 ^ 54 + 4 && decide (t.ctx.pins.length = 1)) = true ∧
    nextWith (exec (.hunpin 1) pinOne) (fun t => t.mem.num 0x200000 8 == 4 && t.ctx.pins == []) = true ∧
    nextWith (exec (.hmakeI 3 1 9) pin0) (fun t => t.ctx.getH 3 == 0x6000000000200030) = true := by
  unfold onFront; decide +kernel

/-! ## Witnesses: engine commands and pots -/

/-- A descriptor of rank 1: 64 elements of 4 bytes at 0x200000. -/
def desc1 : List Word := [0x9000000000200000, 0x200000, 256, 0, 0x400000040, 0, 0, 0]

def asBlock (at0 : Nat) (ws : List Word) : List (Nat × Nat × Nat) :=
  (List.range ws.length).map (fun i => (at0 + 8 * i, 8, (ws.getD i 0).toNat))

/-- Counts 0, 2^24 + 1 and 64; slots without and with a descriptor, walks that fit and do not; a multicast with and without a pot. -/
theorem witness_EngineCommands :
    let s := withX [(5, 0x210000), (6, 0x200000), (7, 64), (8, 0x1000001), (9, 0x300000040), (11, 0x300000000), (12, 0x300000040), (13, 0x200040), (14, 4), (15, 61)]
      (withMem [(0x200008, 8, 0x1122334455667788)] base)
    let k : State := { s with ctx := { s.ctx with descs := [(2, desc1)] } }
    onFront s ∧ 0x1000000 < (s.getX 8).toNat ∧ (s.getX 0).toNat = 0 ∧ okWith (s.giveEngine (.cpy (s.getX 5) (s.getX 6) 64)) (fun _ => true) = true ∧
    lookupN 2 s.ctx.descs = none ∧ lookupN 2 k.ctx.descs = some desc1 ∧ walkOk desc1 4 60 = true ∧ walkOk desc1 61 4 = false ∧
    okWith (k.giveEngine (.dsrc desc1 (k.getX 5) 4 4)) (fun _ => true) = true ∧ okWith (k.giveEngine (.ddst desc1 4 (k.getX 5) 4)) (fun _ => true) = true ∧
    (∀ o ∈ s.ops, o.ctx ≠ s.ctx.id) ∧ (∃ o ∈ ({ s with ops := [cpyOp false] } : State).ops, o.ctx = s.ctx.id) ∧
    (s.getX 11).extractLsb' 0 24 = 0 ∧ s.getX (9 + 1) = 0 ∧ s.getX (12 + 1) ≠ 0 ∧
    okWith (s.giveEngine (.mcast (s.getX 5) (s.getX 6) 64 3 0)) (fun _ => true) = true ∧
    okWith (s.potCheck s.ctx.who (some .cluster) (s.getX (12 + 1))) (fun p =>
      okWith (p.2.giveEngine (.mcast (s.getX 5) (s.getX 6) 64 3 (s.getX (12 + 1)))) (fun _ => true)) = true ∧
    nextWith (exec (.cpy 5 6 7) s) (fun t => t.mem.num 0x210008 8 == 0x1122334455667788 && t.ctx.pc == 0x100004) = true := by
  unfold onFront; decide +kernel

/-- A block that names a descriptor and one that does not; a misaligned block. -/
theorem witness_EngineCommands_tdesc :
    let s := withX [(5, 0x200000), (6, 0x200040), (7, 0x200020)] (withMem (asBlock 0x200000 desc1) base)
    onFront s ∧ (s.getX 7).toNat % 64 ≠ 0 ∧ (s.getX 5).toNat % 64 = 0 ∧ okWith (readBlock s (s.getX 5) 8) (fun p => p.1 == desc1 && descOk p.1) = true ∧
    okWith (readBlock s (s.getX 6) 8) (fun p => !descOk p.1) = true := by
  unfold onFront; decide +kernel

/-- An operation of pieces that overlap, and one that an older operation holds back. -/
theorem witness_EngineSteps :
    let o : EngineOp := { cpyOp false with dst := [(0x200008, 64)], src := [(0x200000, 64)], owns := [0x4000], holds := [0x4000] }
    let s : State := { withMem [(0x200000, 8, 0x1122334455667788)] base with ops := [o], arg := .op o.id }
    let b : State := { s with ops := [{ cpyOp false with id := 0, owns := [0x4000] }, { o with id := 1 }], arg := .op 1 }
    s.arg = .op o.id ∧ s.ops.find? (fun p => p.id == o.id) = some o ∧ o.issued = false ∧ s.mem.wf = true ∧ s.opBlocked o = false ∧
    okWith (s.detectLines o.who (o.holds ++ o.owns)) (fun _ => true) = true ∧ b.opBlocked { o with id := 1 } = true ∧
    nextWith (exec .engineIssuePoint s) (fun t => t.mem.num 0x200008 8 == 0x1122334455667788 && t.mem.num 0x200000 8 == 0x1122334455667788) = true := by
  decide +kernel

/-- An issued operation; a multicast with its last arrival, of 1 byte. -/
theorem witness_EngineSteps_moves :
    let o := cpyOp true
    let m : EngineOp := { cpyOp true with kind := .mcast 0x210000 0x200000 2049 1 0x200040, arrivals := [(0, 1)] }
    let s : State := { base with ops := [o], arg := .op o.id }
    let v : State := { base with ops := [m], arg := .op m.id }
    s.arg = .op o.id ∧ s.ops.find? (fun p => p.id == o.id) = some o ∧ o.issued = true ∧ o.arrivals = [] ∧
    v.ops.find? (fun p => p.id == m.id) = some m ∧ m.arrivals = [(0, 1)] ∧
    nextWith (exec .mcastArrival v) (fun t => t.pend.any (fun p => p.1 == .potAddition && (match p.2 with | .pot a => a.count == 1 | _ => false))) = true := by
  decide +kernel

/-- Every state of a pot, a sum below, at and above what is expected, and the greatest count. -/
theorem witness_Pots : (2 ^ 36 - 1 : Nat) < 2 ^ 36 ∧
    (0x0000000000000005 : Word).extractLsb' 62 2 = 0 ∧ (0x4000000000000005 : Word).extractLsb' 62 2 = 1 ∧ (0x8000000000000005 : Word).extractLsb' 62 2 = 2 ∧
    (0xC000000000000005 : Word).extractLsb' 62 2 = 3 ∧ potSum 5 2 2 = (5, 4) ∧ potSum 5 2 3 = (0x4000000000000005, 5) ∧ potSum 5 2 4 = (0x8000000000000005, 6) ∧
    potSum 0x4000000000000005 5 0 = (0x4000000000000005, 5) ∧ potSum 0x8000000000000005 0xFFFFFFFFF 1 = (0x8000000000000005, 0xFFFFFFFFF) := by decide

/-- No marked word in the pot at 0x200040. -/
def unmarked (s : State) : Bool := !s.poisonedAt 0x200040 16 && !s.poisonedAt 0x200040 8 && !s.poisonedAt 0x200048 8

/-- Counts at and below the bound; a pot that is pending and one that is complete; an addition on its way. -/
theorem witness_Pots_commands :
    let s := withX [(5, 0x200040), (6, 0xFFFFFFFFF), (7, 0x1000000000), (8, 0x200080), (9, 0x200060), (11, 2)] (withMem [(0x200040, 8, 7), (0x200080, 8, 0x4000000000000007), (0x200088, 8, 7)] base)
    let p : PotAdd := { ctx := 0, die := 0, lease := 1, sub := 1, pot := 0x200040, count := 7, scope := .cluster }
    let a : State := { s with arg := .pot p }
    let owned : State := { a with ops := [{ cpyOp true with owns := [0x4000] }] }
    onFront s ∧ s.mem.wf = true ∧ (s.getX 9).toNat % 64 ≠ 0 ∧ (s.getX 6).toNat < 2 ^ 36 ∧ 2 ^ 36 ≤ (s.getX 7).toNat ∧
    okWith (s.potCheck s.ctx.who none (s.getX 5)) (fun r => okWith (r.2.access .engine .store .strand (s.getX 5) 64 .normal) (fun q => q.1.pa = 0x200040) &&
      okWith (r.2.access .engine .load .strand (s.getX 5) 64 .normal) (fun q => unmarked q.2)) = true ∧
    (BitVec.ofNat 64 (s.mem.num 0x200040 8)).extractLsb' 62 2 = 0 ∧ (BitVec.ofNat 64 (s.mem.num 0x200080 8)).extractLsb' 62 2 ≠ 0 ∧
    okWith (s.potCheck s.ctx.who (some .device) (s.getX 5)) (fun r => okWith (release (some .device) r.2) (fun u =>
      okWith (u.reach .engine .atomic .device (s.getX 5) 64) (fun q => q.1.pa = 0x200040 && okWith (q.2.potReach q.2.ctx.who q.1.pa (q.2.ownedLine (q.1.pa / 128) true)) unmarked))) = true ∧
    okWith (a.potCheck { lease := p.lease, sub := p.sub, die := p.die } (some p.scope) p.pot) (fun r => r.1 = 0x200040 &&
      okWith (r.2.potReach { lease := p.lease, sub := p.sub, die := p.die } r.1 (r.2.ownedLine (r.1 / 128) true)) unmarked) = true ∧
    okWith (owned.potCheck { lease := p.lease, sub := p.sub, die := p.die } (some p.scope) p.pot) (fun r => r.2.ownedLine (r.1 / 128) true) = true ∧
    nextWith (exec (.potinit 5 0) s) (fun t => t.mem.num 0x200040 8 == 0x4000000000000000) = true ∧
    nextWith (exec (.potwait .device 10 8) s) (fun t => t.getX 10 == 0x4000000000000007) = true ∧
    nextWith (exec (.potadd .device 5 11) s) (fun t => t.mem.num 0x200040 8 == 7 && t.mem.num 0x200048 8 == 2) = true ∧
    nextWith (exec .potAddition a) (fun t => t.mem.num 0x200040 8 == 0x4000000000000007 && t.mem.num 0x200048 8 == 7) = true := by
  unfold onFront; decide +kernel

/-! ## Witnesses: collectives -/

/-- All-reduce of four INT32 at 0x201000 between this die and die 1, whose table is at 0x200140. -/
def block1 : List Word := [0x0600000000000100, 0x201000, 4, 0x200140, 0, 0, 0, 0]
def peers1 : List Word := [0x8000000000000000, 0x8000000000000100]

theorem witness_CollectiveCommands :
    let s := withX [(5, 0x200100), (6, 0x200108), (7, 0)] (withMem (asBlock 0x200100 block1 ++ asBlock 0x200140 peers1) base)
    let full : State := { s with ctx := { s.ctx with handles := (List.range 16).map (fun k => (k, 40 + k)) } }
    let held (st : CollState) : State := { s with ctx := { s.ctx with handles := [(0, 5)] }
                                                  colls := [{ id := 5, die := 0, ctx := 0, lease := 1, sub := 1, handle := 0, block := block1, peers := peers1, share := 16
                                                              partners := [], lines := [], state := st, start := [], residual := [], owns := [] }] }
    onFront s ∧ (∀ k, k < 16 → ∃ p ∈ full.ctx.handles, p.1 = k) ∧ (∀ p ∈ s.ctx.handles, p.1 ≠ 0) ∧ (s.getX 6).toNat % 64 ≠ 0 ∧
    okWith (readBlock s (s.getX 5) 8) (fun p => p.1 == block1 && collOk p.1 && okWith (readBlock p.2 (p.1.getD 3 0) (cN p.1)) (fun q =>
      q.1 == peers1 && q.1.all (fun e => peerOk e && peerNode e == q.2.node) && peerDie (q.1.getD (cRank p.1) 0) == q.2.ctx.die && okWith (collAddrs q.2 p.1) (fun _ => true))) = true ∧
    lookupN (s.getX 7).toNat (held (.ended 0)).ctx.handles = some 5 ∧ ((held (.ended 0)).colls.find? (fun k => k.id == 5)).map Coll.state = some (.ended 0) ∧
    ((held .started).colls.find? (fun k => k.id == 5)).map Coll.state = some .started ∧ (∀ p ∈ (held .started).ctx.handles, p.1 ≠ (s.getX 6).toNat) ∧
    nextWith (exec (.coll 8 5) s) (fun t => t.getX 8 == 0 && t.colls.length == 1 && t.ctx.handles.length == 1) = true ∧
    nextWith (exec (.collwait 8 7) (held (.ended 2))) (fun t => t.getX 8 == 2 && t.colls.length == 1 && t.ctx.handles.isEmpty) = true ∧
    nextWith (exec (.collwait 8 7) (held (.ended 1))) (fun t => t.getX 8 == 1 && t.colls.isEmpty) = true := by
  unfold onFront; decide +kernel

/-- A collective of rank 0, and what the other participant has sent. -/
def coll1 (st : CollState) : Coll :=
  { id := 5, die := 0, ctx := 0, lease := 1, sub := 1, handle := 0, block := block1, peers := peers1, share := 16, partners := [(1, 6)], lines := [0x201000 / 128], state := st
    start := (match st with | .started => [1, 2, 3, 4] | _ => []), residual := [], owns := [] }

def urn (st : CollState) (params : List Word) (data : List Word) : State :=
  { withMem [(0x201000, 8, 0x0000000200000001), (0x201008, 8, 0xFFFFFFFF00000003)] base with
    colls := [coll1 st], arg := .op 5, ctx := { base.ctx with handles := [(0, 5)] }
    peers := [{ node := 0, die := 1, index := 5, params := params, data := data }] }

/-- A participant that agrees, one that does not, one that has not armed; the sum modulo 2^32. -/
theorem witness_Collectives :
    let same := collParams block1 peers1
    let s := urn .armed same []
    let e := urn .started same [10, 20, 30, 0xFFFFFFFD]
    s.arg = .op (coll1 .armed).id ∧ s.colls.find? (fun k => k.id == 5) = some (coll1 .armed) ∧ s.asleep 0 = false ∧ s.cpFrozen 0 = false ∧ collOk block1 = true ∧
    cComp block1 = false ∧ cSignal block1 = 0 ∧ cPot block1 = 0 ∧ (coll1 .armed).others = [1] ∧ (s.sent (coll1 .armed) 1).map CollPeer.params = some same ∧
    ((urn .armed [] []).sent (coll1 .armed) 1).map CollPeer.params ≠ some same ∧ ({ s with peers := [] } : State).sent (coll1 .armed) 1 = none ∧
    okWith (s.collRange (coll1 .armed) 0x201000 16) (fun p => p.1 == [(0x201000, 16)] && (State.pieceLines p.1).all (fun l => !p.2.ownedLine l true) &&
      okWith (p.2.detectLines (coll1 .armed).who (State.pieceLines p.1)) (fun _ => true)) = true ∧
    e.mem.wf = true ∧ ((e.sent (coll1 .started) 1).map CollPeer.data).getD [] = [10, 20, 30, 0xFFFFFFFD] ∧
    (cTy block1 = .i32 ∧ cRed block1 = 0 ∧ 2 ≤ cN block1) ∧
    nextWith (exec .collectiveStart s) (fun t => t.colls.any (fun c => c.state == .started && c.start == [1, 2, 3, 0xFFFFFFFF])) = true ∧
    nextWith (exec .collectiveEnd e) (fun t => t.mem.num 0x201000 8 == 0x160000000B && t.mem.num 0x20100C 4 == 1 && t.colls.any (fun c => c.state == .ended 0)) = true ∧
    okWith (e.collRange (coll1 .started) 0x201000 16) (fun p => p.1 == [(0x201000, 16)]) = true ∧ e.arrived (coll1 .started) = true ∧
    nextWith (exec .collectiveAbort (urn .started same [])) (fun t => t.mem == e.mem && t.colls.any (fun c => c.state == .ended 1)) = true ∧
    nextWith (exec .collectiveAbort s) (fun t => t.mem == e.mem && t.colls.any (fun c => c.state == .ended 1)) = true ∧
    ((({ e with reeve := { e.reeve with subs := [] }, tlb := [] } : State).collRange (coll1 .started) 0x201000 16).map Prod.fst).isOk = false := by
  decide +kernel

/-! ## Witnesses: relocation -/

/-- The cycle of `healing`, at a step. -/
def cycleAt (step : GleanStep) (todo : List Word) (owns : List (Nat × Nat)) : Glean :=
  { id := 3, die := 0, ctx := 0, lease := 1, sub := 1, base := 0, bitmap := 0x80000, step := step, todo := todo, toParcels := [], toOff := 0
    inPlace := [], stopped := false, owns := owns, holds := [] }

/-- A cycle that starts, one active, one in each of the states that hglean.free meets (a table that cannot be read is recorded). -/
theorem witness_RelocationCommands :
    let x (s : State) : State := withX [(5, 0), (6, 0x80000), (7, 0x200000), (8, 0x80040)] s
    let s := x heap
    let a := x { withMem [(0x8, 8, 0x90000)] (region 0x6000000000000000 0 0 0 0) with gleans := [cycleAt .done [] []] }
    let c := x { region 0x6000000000000000 0 0 0 0 with gleans := [cycleAt .copy [] []] }
    onFront s ∧ (s.getX 7).toNat % 2 ^ 29 ≠ 0 ∧ (s.getX 5).toNat % 2 ^ 29 = 0 ∧ (s.getX 8).toNat % 128 ≠ 0 ∧ (s.getX 6).toNat % 128 = 0 ∧
    okWith (commandWords s (s.getX 5) 12) (fun p => !(p.1.getD 0 0).getLsbD 61 && decide (((p.1.getD 1 0).extractLsb' 0 3).toNat ≤ 5) &&
      okWith (readable p.2 (fwdBase (p.1.getD 1 0)) (16 * fwdCount (p.1.getD 1 0))) (fun q => q.1 &&
        okWith (readable q.2 (fwdBase (p.1.getD 2 0)) (8 * ((p.1.getD 2 0).extractLsb' 0 16).toNat)) (fun v => v.1 &&
          (parcelsOf (p.1.drop 4)).isEmpty && !v.2.cpFrozen v.2.ctx.die && v.2.ops.isEmpty && v.2.colls.isEmpty && v.2.gleans.isEmpty &&
          v.2.mills.isEmpty && v.2.reeve.retiring.isEmpty && okWith (({ v.2 with nextId := v.2.nextId + 1 } : State).gleanStore (cycleAt .copy [] []) .store (s.getX 5) 0x8000000000000000 2) (fun _ => true)))) = true ∧
    okWith (commandWords a (a.getX 5) 8) (fun p => (p.1.getD 0 0).getLsbD 61 && !p.2.cpFrozen p.2.ctx.die &&
      (match p.2.gleans.find? (fun k => k.base == 0 && k.lease == p.2.ctx.lease && k.sub == p.2.ctx.sub) with
       | some g => g.step == .done && okWith (freeCycle p.2 g p.1) (fun _ => true) | none => false)) = true ∧
    okWith (commandWords c (c.getX 5) 8) (fun p => p.2.gleans.any (fun g => g.step != .done)) = true := by
  unfold onFront; decide +kernel

/-- Of the bits of a bitmap of one parcel, those from 512 on are clear; the first 520 are set, and no byte is marked there. -/
def fewLive (s : State) (ps : List (Nat × Nat)) : Bool := ((s.readPieces ps).drop 64).all (· == 0)
def manyLive (s : State) (ps : List (Nat × Nat)) : Bool :=
  (List.range 65).all (fun i => (s.readPieces ps).getD i 0 == 0xFF && !(s.markBytes ps).getD i false)

theorem live_few {s : State} {base : Word} {f : Nat} {ps : List (Nat × Nat)} (h : fewLive s ps = true) : (liveHeaders s base [f] ps).length ≤ 512 := by
  simp only [fewLive, List.all_eq_true, beq_iff_eq] at h
  simp only [liveHeaders, List.length_singleton, List.range_one, List.flatMap_cons, List.flatMap_nil, List.append_nil, List.length_map, Nat.mul_zero, Nat.zero_add]
  refine (((List.nodup_range.filter _).subperm (l₂ := List.range 512) fun k hk => ?_).length_le).trans_eq List.length_range
  rw [List.mem_range]
  by_contra hc
  simp only [List.mem_filter, Bool.and_eq_true] at hk
  have : (s.readPieces ps).getD (k / 8) 0 = 0 := by
    rcases Nat.lt_or_ge (k / 8) (s.readPieces ps).length with hl | hl
    · rw [List.getD_eq_getElem _ _ hl]
      refine h _ (List.mem_iff_getElem.2 ⟨k / 8 - 64, by simp; omega, ?_⟩)
      simp only [List.getElem_drop]
      congr 1
      omega
    · exact List.getD_eq_default _ _ hl
  rw [this] at hk
  simp at hk

theorem live_many {s : State} {base : Word} {f : Nat} {ps : List (Nat × Nat)} (h : manyLive s ps = true) : 512 < (liveHeaders s base [f] ps).length := by
  simp only [manyLive, List.all_eq_true, List.mem_range, Bool.and_eq_true, beq_iff_eq, Bool.not_eq_true'] at h
  simp only [liveHeaders, List.length_singleton, List.range_one, List.flatMap_cons, List.flatMap_nil, List.append_nil, List.length_map, Nat.mul_zero, Nat.zero_add]
  refine Nat.lt_of_lt_of_le (by rw [List.length_range]; decide) ((List.nodup_range (n := 520)).subperm fun k hk => ?_).length_le
  rw [List.mem_range] at hk
  have hb : ∀ i, i < 8 → (0xFF : Byte).getLsbD i = true := by decide
  simp only [List.mem_filter, List.mem_range, Bool.and_eq_true, Bool.not_eq_true']
  exact ⟨by omega, (h _ (by omega)).2, by rw [(h _ (by omega)).1]; exact hb _ (Nat.mod_lt _ (by decide))⟩

/-- A region with one from-parcel whose cycle has not started, and its bitmap in memory at 0x80000. -/
def starting (m : List (Nat × Nat × Nat)) : State := withX [(5, 0), (6, 0x80000), (9, 0x800000)] (withMem m (region 0x4000000000000000 2 4 0 0))

/-- The checks of hglean on `starting` up to its bitmap pass, and p holds of the words, the lines' bytes and the state then. -/
def prepared (s : State) (p : List Word → List (Nat × Nat) → State → Bool) : Bool :=
  okWith (commandWords s 0 12) (fun a => a.1.getD 0 0 == 0x4000000000000000 && fwdCount (a.1.getD 1 0) == 1024 && parcelsOf (a.1.drop 4) == [1] &&
    okWith (readable a.2 (fwdBase (a.1.getD 1 0)) (16 * fwdCount (a.1.getD 1 0))) (fun b => b.1 &&
      okWith (readable b.2 (fwdBase (a.1.getD 2 0)) (8 * ((a.1.getD 2 0).extractLsb' 0 16).toNat)) (fun c => c.1 &&
        !(c.2.rangeCheck .gleaner .load 0x800000 16384).isOk && okWith (c.2.rangeCheck .gleaner .load 0x80000 16384) (fun d => p a.1 d.1 d.2))))

/-- The lines of the bitmap are free of errors, and p holds once they are read. -/
def readOut (ps : List (Nat × Nat)) (s : State) (p : State → Bool) : Bool :=
  okWith (s.detectLines s.ctx.who (State.pieceLines ps)) (fun x => p ((State.pieceLines ps).foldl (fun (s : State) l => s.touch s.ctx.who .l2 l false false .no) x))

/-- A bitmap that cannot be read at 0x800000, and at 0x80000 one with a live object and one with more than the table admits; a unit that
has a line of it. -/
theorem witness_RelocationCommands_start :
    let own : EngineOp := { cpyOp true with owns := [0x80000 / 128] }
    onFront (starting []) ∧
    prepared (starting []) (fun ws ps s => !s.cpFrozen s.ctx.die && s.gleans.isEmpty && (State.pieceLines ps).all (fun l => !s.ownedLine l false) &&
      readOut ps s (fun t => fewLive t ps &&
        let u := t.consume ((t.markBytes ps).any id)
        let g := cycleOf u ws 0 0x80000 []
        let v : State := { u with nextId := u.nextId + 1 }
        let lines := g.owns.flatMap (fun r => (List.range r.2).map (fun i => r.1 + i))
        lines.all (fun l => !v.ownedLine l true) && !v.opBefore g.id v.ctx.core lines (State.pieceLines ps) &&
          !v.collBefore g.id v.ctx.core (lines ++ State.pieceLines ps) && okWith (v.unitCheck g.who .store .device 8 0 8) (fun p => p.1 == 0) &&
          okWith (v.gleanStore g .store 0 0xA000000000000000 2) (fun _ => true))) = true ∧
    prepared (starting [(0x80000, 65, 2 ^ 520 - 1)]) (fun _ ps s => !s.cpFrozen s.ctx.die && s.gleans.isEmpty && readOut ps s (fun t => manyLive t ps)) = true ∧
    prepared { starting [] with ops := [own] } (fun _ ps s => (State.pieceLines ps).any (fun l => s.ownedLine l false)) = true := by
  unfold onFront; decide +kernel

/-- A cycle of `region` with parcel 2 mapped, about to take its next step; the header word 0 of its object. -/
def cycling (g : Glean) (head : Nat) : State :=
  { withMem [(0x50200, 8, 0x80000000004041E0)] (region 0x6000000000000000 0 head 0 0) with gleans := [g], arg := .op 3 }

def toCopy : Glean := { cycleAt .copy [0x200000] [(0, 2)] with toParcels := [2] }
def toHeal : Glean := { cycleAt .heal [] [(0, 2)] with sub := 2 }

/-- An object without room stays. -/
theorem witness_RelocationSteps :
    (cycling toCopy 4).arg = .op toCopy.id ∧ (cycling toCopy 4).gleans.find? (fun k => k.id == toCopy.id) = some toCopy ∧ (cycling toCopy 4).cpFrozen 0 = false ∧
    okWith (copyObject (cycling toCopy 4) { toCopy with todo := [], toParcels := [] } 0x200000) (fun p => p.2.inPlace == [1] && p.1.mem.num 0x70028 8 == 0x5000000000200000) = true := by
  decide +kernel

/-- A pinned object stays. -/
theorem witness_RelocationSteps_pinned :
    okWith ((cycling toCopy (2 ^ 54 + 4)).gleanLoad toCopy 0x200000 0) (fun p => headPins p.1 != 0 && okWith (p.2.gleanLoad toCopy 16 2) (fun q =>
      okWith (q.2.headOf toCopy.who none 0x200000 p.1) (fun h => h.1.isSome))) = true := by
  decide +kernel

/-- The scan. -/
theorem witness_RelocationSteps_scan : okWith (scanParcels (cycling toHeal 4) (cycleAt .copy [] [])) (fun _ => true) = true := by
  decide +kernel

/-- A parcel, contexts of another sublease. -/
theorem witness_RelocationSteps_parcel :
    okWith (fixParcel (cycling toHeal 4) (cycleAt .fixup [] []) 0x200200 (2 ^ 17) 0) (fun _ => true) = true ∧
    (∀ k ∈ (cycling toHeal 4).ctxs, toHeal.healsCtx k = false) ∧ toHeal.owns ≠ [] := by
  decide +kernel

/-- An object of 64 bytes moves to a parcel with room for it. -/
theorem witness_RelocationSteps_moves :
    okWith ((cycling toCopy 4).gleanLoad toCopy 0x200000 0) (fun a => okWith (a.2.gleanLoad toCopy 16 2) (fun b => okWith (b.2.headOf toCopy.who none 0x200000 a.1) (fun h =>
      h.1.any (fun x => x.size == 4) && headPins a.1 == 0 && headState a.1 == 0 && okWith (h.2.unitCheck toCopy.who .atomic .device 8 0x200000 8) (fun c =>
        roomFor 64 toCopy.toParcels toCopy.toOff == some ([2], 0) && okWith (c.2.gleanRange toCopy .load 0x200000 64 0) (fun d =>
          (d.2.markBytes d.1).all (!·) && okWith (d.2.gleanRange toCopy .store 0x400000 64 1) (fun e =>
            okWith (installFwd (e.2.writePieces none e.1 (leBytes 8 (a.1 &&& 0x003FFFFFFFFFFFFF).toNat ++ (e.2.readPieces d.1).drop 8)) { toCopy with toOff := 64 } 0x200000 0x400000) (fun f =>
              f.any (fun f => okWith (f.gleanStore toCopy .store 0x200000 (a.1 ||| 0x8000000000000000) 0) (fun _ => true))))))))) = true := by
  decide +kernel

theorem test_object_moves :
    nextWith (exec .gleanerObjectCopy (cycling toCopy 4)) (fun t => t.mem.num 0x400000 8 == 4 && t.mem.num 0x200000 8 == 0x8000000000000004 &&
      t.mem.num 0x70028 8 == 0x5000000000400000 && t.pend.any (fun p => p.1 == .gleanerCycle)) = true := by
  decide +kernel

/-! ## Witnesses: scheduling and the Mill -/

/-- FP32 elements 4 bytes apart, of which n are fetched. -/
def fetched (n : Nat) : Stream :=
  { ctx := 0, base := 0x210000, output := false, ty := .f32, counts := [5000], strides := [4], mfmt := 0, pos := 0, stamp := 0
    ahead := List.replicate n { val := 0, bad := false, fault := none, skip := false, stamp := 0 } }

/-- Two iterations of a loop from 0 below 4 by tiles of 2. -/
def nest1 : List Word := [0x100000, 0, 99, 0, 1, 0x4000002, 0, 0, 0, 0, 0, 0, 0x0009200000000000, 0x0040800000000000, 0, 0]

/-- The same of `nest1` in a pool, and its first iteration's coordinates. -/
def pooled : Nest :=
  { id := 9, die := 0, lease := 1, sub := 1, level := 0, words := nest1, next := 1, live := 1, waited := 2 ^ 16 + 1, raised := false, inPool := true
    gated := false, failed := false }

theorem witness_LaunchAndPlacement :
    let s := withX [(5, 0x200080), (6, 0x200040)] (withMem (asBlock 0x200080 nest1) base)
    onFront s ∧ (s.getX 6).toNat % 128 ≠ 0 ∧ (s.getX 5).toNat % 128 = 0 ∧ nestOk nest1 = true ∧ nestTotal nest1 = 2 ∧ nestOk [] = false ∧
    okWith (readBlock s (s.getX 5) 16) (fun p => p.1 == nest1 && okWith (launchAddrs p.2 p.2.ctx.who p.2.ctx p.1) (fun u =>
      okWith (release (some .device) u) (fun v => !v.poolFull v.ctx.die v.ctx.lease v.ctx.sub))) = true ∧
    (s.modSub 1 1 (fun b => { b with quota := 0 })).poolFull 0 1 1 = true ∧
    nextWith (exec (.launch 7 5) s) (fun t => t.getX 7 == 0 && t.nests.map Nest.words == [nest1]) = true := by
  unfold onFront; decide +kernel

/-- A placement in the next context; a pool that is empty; ages at and above the bound. -/
theorem witness_CrierSteps :
    let s : State := { base with nests := [pooled], arg := .die 0 }
    s.asleep 0 = false ∧ base.candidates 0 = [] ∧ s.cpFrozen 0 = false ∧ s.candidates 0 = [pooled] ∧ (s.chooseCtx pooled).isSome = true ∧
    nestMill pooled.words = false ∧ s.ctx.active = true ∧ (∀ x ∈ s.nests, x.id = pooled.id → x = pooled) ∧
    nextWith (exec .crierPlacement s) (fun t => t.others.any (fun k => k.getX 9 == 99 && k.getX 10 == 2 && k.pc == 0x100000) && t.nests.all (fun n => !n.inPool)) = true ∧
    nextWith (exec .priorityAging { s with arg := .nest 0 9 }) (fun t => t.nests.all Nest.raised) = true := by decide +kernel

theorem witness_CrierSteps_drain :
    let k : Ctx := { base.ctx with phase := .draining, self := 2, nest := 9 }
    let s : State := { base with others := [k], arg := .ctx k.id }
    let n : Nest := { pooled with inPool := false, live := 0 }
    let out : Stream := { fetched 1 with ctx := k.id, output := true }
    let b : State := s.modCore 0 (fun c => c.modFe true (fun f => { f with streams := [(2, out)] }))
    s.findCtx k.id = some k ∧ k.phase = .draining ∧ (∃ o ∈ ({ s with ops := [{ cpyOp false with ctx := k.id }] } : State).ops, o.ctx = k.id) ∧
    (∀ o ∈ s.ops, o.ctx ≠ k.id) ∧ s.pendingOut k = [] ∧ b.pendingOut k = [2] ∧ (∀ n ∈ s.nests, n.id ≠ k.nest) ∧ s.others.Nodup ∧ (∀ j ∈ s.others, j.id = k.id → j = k) ∧ s.ctx.id ≠ k.id ∧
    ({ s with nests := [n] } : State).nests.find? (fun x => x.id == n.id) = some n ∧ nestPot n.words = 0 ∧ nestDown n.words = none ∧
    nextWith (exec .drainComplete s) (fun t => t.others.isEmpty) = true ∧
    nextWith (exec .drainComplete { s with nests := [n], arg := .nest 0 9 }) (fun t => t.nests.isEmpty) = true := by decide +kernel

/-- A nest whose pot is at 0x200040 and whose downstream word is at 0x200080, with none of it left; where a unit has the pot's line;
a Miller whose Mill has still to read. -/
theorem witness_CrierSteps_nest :
    let n : Nest := { pooled with inPool := false, live := 0, words := (nest1.set 3 0x200040).set 15 0x9000000000200080 }
    let x : State := { base with nests := [n], arg := .nest 0 9 }
    let o : State := { x with ops := [{ cpyOp true with owns := [0x4000] }] }
    let k : Ctx := { base.ctx with phase := .draining, self := 0x400 }
    nestPot n.words = 0x200040 ∧ nestDown n.words = some 0x200080 ∧ x.nests.find? (fun y => y.id == n.id) = some n ∧ (∀ j ∈ x.ctxs, j.isMiller = false) ∧
    okWith (x.potCheck n.who (some .device) (nestPot n.words)) (fun p => okWith (p.2.crierLine n p.1 true) (fun _ => true)) = true ∧
    okWith (x.unitCheck n.who .store .strand 8 0x200080 8) (fun p => okWith (p.2.crierLine n p.1 true) (fun _ => true)) = true ∧
    okWith (x.nestPay n) (fun u => okWith (u.nestTell n) (fun _ => true)) = true ∧ (o.nestPay n).isOk = false ∧
    ({ onMiller base with mills := [(0, { mill0 with ops := [(0, .mldb 16 [0x4000] 0 [])] })] } : State).commandsLeft k = true ∧
    nextWith (exec .drainComplete x) (fun t => t.nests.isEmpty && t.mem.num 0x200048 8 == 1 && t.mem.num 0x200080 8 == 2 ^ 64 - 1) = true ∧
    nextWith (exec .drainComplete o) (fun t => t.nests == [n] && t.mem == o.mem) = true := by decide +kernel

/-- Rows 1 and 128, a record that ends with the slice, an odd tile in FP64 mode, the last rows of a tile; a Mill at work. -/
theorem witness_MillerInstructions :
    let s := withX [(5, 1), (6, 128), (7, 48896), (8, 48912), (9, 127), (10, 0x200000), (11, 16), (12, 24)] (onMiller base)
    s.lane = none ∧ s.ctx.isMiller = true ∧ base.ctx.isMiller = false ∧ 1 ≤ (s.getX 5).toNat ∧ (s.getX 6).toNat ≤ 128 ∧ (s.getX 0).toNat < 1 ∧
    (s.getX 7).toNat % 16 = 0 ∧ (s.getX 7).toNat + (MmulMode.info .bf16).record ≤ 49152 ∧ 49152 < (s.getX 8).toNat + (MmulMode.info .bf16).record ∧
    (2 : BitVec 2).toNat % 2 = 0 ∧ (s.getX 9).toNat ≤ 127 ∧ (s.getX 9).toNat + (s.getX 5).toNat ≤ 128 ∧ 127 < (s.getX 6).toNat ∧ (s.mill s.ctx.cluster).ops = [] ∧
    (s.setMill 0 { mill0 with ops := [(0, .mclr 0)] }).mill s.ctx.cluster ≠ mill0 ∧ (s.getX 12).toNat % 16 ≠ 0 ∧
    (s.getX 11).toNat % 16 = 0 ∧ 16 ≤ (s.getX 11).toNat ∧ (s.getX 0).toNat % 16 = 0 ∧ s.poison = [] ∧ s.dramErr = [] ∧
    okWith (s.rangeCheck .engine .load (s.getX 10) (256 * 16)) (fun p => (State.pieceLines p.1).all (fun l => !p.2.ownedLine l false) &&
      okWith (p.2.detectLines s.ctx.who (State.pieceLines p.1)) (fun v => v.poison.isEmpty && v.dramErr.isEmpty)) = true ∧
    nextWith (exec (.mclr 3) s) (fun t => (t.mill 0).ops.map Prod.snd == [.mclr 3]) = true := by decide +kernel

/-- A Mill with a tile word, a slice byte, each operation, and the last slice bytes. -/
theorem witness_MillWork :
    let m : Mill := { mill0 with slices := [(49151, 7)], tiles := [(tileKey 1 5 6, 0x3F800000)] }
    let s (o : MillOp) : State := { base with mills := [(0, { m with ops := [(4, o)] })], arg := .cluster 0 }
    m.bad = [] ∧ swf 0 0 m.slices = true ∧ swf 0 0 m.tiles = true ∧ (s (.mclr 1)).arg = .cluster 0 ∧ (s (.mclr 1)).mill 0 = { m with ops := [(4, .mclr 1)] } ∧
    (49136 : Nat) + 16 ≤ 49152 ∧ (m.drain.toList.getD 3 []).length + 1024 ≤ 32768 ∧
    nextWith (exec .millOperation (s (.mclr 1))) (fun t => (t.mill 0).tile32 1 5 6 == 0) = true ∧
    nextWith (exec .millOperation (s (.mclr 0))) (fun t => (t.mill 0).tile32 1 5 6 == 0x3F800000) = true ∧
    nextWith (exec .millOperation (s (.mout false false 1 3 5 2))) (fun t => ((t.mill 0).drain.toList.getD 3 []).drop 24 |>.take 4 |>.isEqv [0, 0, 0x80, 0x3F] (· == ·)) = true := by
  decide +kernel

/-- A Mill with bytes in its feed queue 2 and operations: a row of BF16 and one of FP64, a row that is short before an mclr of the same and of
another tile, an mout that clears and one for which its queue has no room; a sum of two products. -/
theorem witness_MillWork_rows :
    let m (n : Nat) : Mill := { mill0 with feed := mill0.feed.set 2 (List.replicate n 0x40), slices := [(5 * 49152 + 6, 0), (5 * 49152 + 7, 0x40)].filter (fun p => p.2 != 0)
                                           tiles := [(tileKey 1 0 5, 0x3F800000)] }
    let s (n : Nat) (ops : List (Nat × MillOp)) : State := { base with mills := [(0, { m n with ops := ops })], arg := .cluster 0 }
    let full : Mill := { mill0 with drain := mill0.drain.set 3 (List.replicate 32000 9) }
    swf 0 0 (m 256).slices = true ∧ swf 0 0 (m 256).tiles = true ∧ (m 256).bad = [] ∧ (s 256 [(4, .mmul .bf16 1 2 0 2 0 0)]).mill 0 = { m 256 with ops := [(4, .mmul .bf16 1 2 0 2 0 0)] } ∧
    (MmulMode.info .bf16).rowBytes ≤ ((m 256).feed.toList.getD 2 []).length ∧ (MmulMode.info .f64).rowBytes ≤ ((m 1024).feed.toList.getD 2 []).length ∧
    ((m 255).feed.toList.getD 2 []).length < (MmulMode.info .bf16).rowBytes ∧ ((full.drain.toList.getD 3 []).drop 31744).isEmpty = false ∧
    nextWith (exec .millOperation (s 255 [(4, .mmul .bf16 1 2 0 2 0 0), (6, .mclr 1)])) (fun t => (t.mill 0).tile32 1 0 5 == 0x3F800000 && (t.mill 0).ops.length == 2) = true ∧
    nextWith (exec .millOperation (s 255 [(4, .mmul .bf16 0 2 0 2 0 0), (6, .mclr 1)])) (fun t => (t.mill 0).tile32 1 0 5 == 0 && (t.mill 0).ops.map Prod.fst == [4]) = true ∧
    nextWith (exec .millOperation (s 0 [(4, .mout false true 1 3 0 1)])) (fun t => (t.mill 0).tile32 1 0 5 == 0 && (((t.mill 0).drain.toList.getD 3 []).drop 20).take 4 == [0, 0, 0x80, 0x3F]) = true ∧
    alignedSum 30 [(3, 4), (-5, -40)] = .num false (48 * 2 ^ 25) (-25) := by decide +kernel

/-! ## Witnesses: the vector unit -/

/-- A plot of n elements of 2^w cells along a row. -/
def rowPlot (row w n : Nat) : Word := BitVec.ofNat 64 (2 ^ 63 + n * 2 ^ 47 + 2 ^ 38 + row * 2 ^ 21 + w * 2 ^ 19 + 2 ^ 16)

def withPlots (l : List (VReg × Word)) (s : State) : State :=
  l.foldl (fun s p => { s with ctx := s.ctx.setPlot p.1 p.2 }) s

/-- Elements of plot v from the first on. -/
def put (v : VReg) (l : List Nat) (s : State) : State :=
  (List.range l.length).foldl (fun s e => s.setElem v e (l.getD e 0)) s

def withVl (n : Nat) (s : State) : State := { s with ctx := { s.ctx with vl := BitVec.ofNat 64 n } }

def withMask (m : MReg) (b : BitVec 4096) (s : State) : State := { s with ctx := s.ctx.setMask m b }

/-- Plots of four elements: v0-v3 of 2 cells, v4-v7 of 4, v8-v11 of 1. -/
def plots12 : List (VReg × Word) :=
  (List.range 12).map (fun k => (BitVec.ofNat 6 k, rowPlot k (if k < 4 then 1 else if k < 8 then 2 else 0) 4))

/-- A context under VL = 3 with these plots; 1.0, 2.0, 3.0, 4.0 in v1, 0.5 in all of v2. -/
def vbase : State :=
  withVl 3 (put 2 [0x3F000000, 0x3F000000, 0x3F000000, 0x3F000000] (put 1 [0x3F800000, 0x40000000, 0x40400000, 0x40800000] (withPlots plots12 base)))

/-- The instruction is dispatched at once, its checks pass, and p holds of the run. -/
def vec (s : State) (i : Instr) (k : VSpec) (p : VRun → Bool) : Bool :=
  decide (s.lane = none) && !s.ctx.isMiller && okWith (takeUnit s) (fun s0 => s0.ctx.vq.isEmpty && !s0.ctx.threading &&
    okWith (vbegin (vcommit i s0).1 k (vcommit i s0).2) p)

theorem vec_spec {s : State} {i : Instr} {k : VSpec} {p : VRun → Bool} (h : vec s i k p = true) : ∃ r, dispatches s i k r ∧ p r = true := by
  simp only [vec, Bool.and_eq_true, decide_eq_true_eq, Bool.not_eq_true'] at h
  obtain ⟨⟨hl, hm⟩, h0⟩ := h
  obtain ⟨s0, h1, h2⟩ := okWith_spec h0
  simp only [Bool.and_eq_true, List.isEmpty_iff, Bool.not_eq_true'] at h2
  obtain ⟨⟨hq, ht⟩, h3⟩ := h2
  obtain ⟨r, h4, h5⟩ := okWith_spec h3
  exact ⟨r, ⟨hl, hm, s0, h1, hq, ht, h4⟩, h5⟩

def lanesCalmly (r : VRun) : Bool := r.src.myCore.laneErr.isEmpty && !bitAt (r.src.die (BitVec.ofNat 2 (r.src.ctx.core / 64))).errinj 63

def calmly (r : VRun) : Bool := r.sfault.isNone && lanesCalmly r && r.src.ctx.fcsr.extractLsb' 8 4 == 0

theorem lanesCalm_of {r : VRun} (h : lanesCalmly r = true) : lanesCalm r := by
  simp only [lanesCalmly, Bool.and_eq_true, List.isEmpty_iff, Bool.not_eq_true'] at h
  exact ⟨h.1, fun l => by simp [State.laneInjection, h.2]⟩

def fits (r : VRun) (d : VReg) : Bool :=
  swf 0 0 r.src.myCore.field && plotLegal (r.src.plotOf d) (r.src.rows r.src.ctx.core r.src.ctx.fe)

/-- The conjunction that witnesses give: the instruction is dispatched, nothing stands in its way, its destinations are admitted. -/
def Runs (s : State) (i : Instr) (k : VSpec) (ds : List VReg) (p : VRun → Bool) : Prop :=
  ∃ r, dispatches s i k r ∧ calm r ∧ (∀ d ∈ ds, placed r d) ∧ p r = true

theorem runs_of {s : State} {i : Instr} {k : VSpec} {ds : List VReg} {p : VRun → Bool}
    (h : vec s i k (fun r => calmly r && ds.all (fits r) && p r) = true) : Runs s i k ds p := by
  obtain ⟨r, hd, hr⟩ := vec_spec h
  simp only [calmly, fits, Bool.and_eq_true, List.all_eq_true, Option.isNone_iff_eq_none, beq_iff_eq] at hr
  obtain ⟨⟨⟨⟨h1, h2⟩, h3⟩, h4⟩, h5⟩ := hr
  exact ⟨r, hd, ⟨h1, lanesCalm_of h2, h3⟩, fun d hd => h4 d hd, h5⟩

/-- No source is an input stream. -/
def flowing (r : VRun) : Bool := r.spec.srcs.all (fun p => (r.src.inputOf p.1).isNone)

/-- Every element, none under an empty mask, some under a mask. -/
theorem witness_VectorFloat :
    Runs vbase (.vfadd .f32 opt 0 1 (.plot 2)) (maSpec .f32 opt 0 [(1, some 2), (2, some 2)]) [0] (fun r => decide (r.elems = [0, 1, 2])) ∧
    Runs vbase (.vfma .f32 optM 0 1 (.plot 2) 3) (maSpec .f32 optM 0 [(1, some 2), (2, some 2), (3, some 2)]) [0] (fun r => decide (r.elems = [])) ∧
    Runs (withMask 3 5 vbase) (.vfsqrt .f32 optM 1 1) (maSpec .f32 optM 1 [(1, some 2)]) [1] (fun r => decide (r.elems = [0, 2])) ∧
    Runs vbase (.vcvt .bf16 .f32 opt 8 1) { unit := 0, o := opt, dest := some (8, some 1), srcs := [(1, some 2)], lenOf := [8], cross := false, scalarRes := false, governed := true }
      [8] (fun r => decide (r.elems = [0, 1, 2])) ∧
    nextWith (exec (.vfadd .f32 opt 0 1 (.plot 2)) vbase) (fun t => t.elem 0 2 == 0x40600000 && t.elem 0 3 == 0) = true ∧
    nextWith (exec (.vfsqrt .f32 optM 1 1) (withMask 3 5 vbase)) (fun t => t.elem 1 1 == 0x40000000 && t.elem 1 2 == 0x3FDDB3D7 && t.ctx.fcsr == 1) = true := by
  and_intros <;> first | decide +kernel | exact runs_of (by decide +kernel)

theorem witness_VectorInteger :
    let s := put 4 [2 ^ 64 - 1, 7, 5, 9] (put 5 [1, 0, 3, 9] vbase)
    Runs s (.vdiv .i64 opt 6 4 (.plot 5)) (maSpec .i64 opt 6 [(4, some 4), (5, some 4)]) [6] (fun r => decide (r.elems = [0, 1, 2])) ∧
    Runs s (.vadc .i64 opt 6 4 (.plot 5) 1 2) (maSpec .i64 opt 6 [(4, some 4), (5, some 4)]) [6] (fun r => decide (r.len ≤ 4096)) ∧
    Runs s (.vrand .i64 opt 6 5) (maSpec .i64 opt 6 []) [6] (fun r => decide (r.len = 3)) ∧
    nextWith (exec (.vdiv .i64 opt 6 4 (.plot 5)) s) (fun t => t.elem 6 0 == 2 ^ 64 - 1 && t.elem 6 1 == 2 ^ 64 - 1 && t.elem 6 2 == 1) = true ∧
    nextWith (exec (.vadc .i64 opt 6 4 (.plot 5) 1 2) s) (fun t => t.elem 6 0 == 0 && (t.ctx.mask 2).getLsbD 0 && t.elem 6 1 == 7 && !(t.ctx.mask 2).getLsbD 1) = true := by
  and_intros <;> first | decide +kernel | exact runs_of (by decide +kernel)

/-- Compares, a mask operation, a count with room in the length queue, a first bit and none, reductions with elements and none. -/
theorem witness_VectorMasks :
    let s := withMask 1 6 (withX [(5, 0x40000000)] vbase)
    Runs s (.vfcmp .lt .f32 opt 2 1 2) (cmpSpec .f32 opt 1 2) [] (fun r => decide (r.len = 3)) ∧
    Runs s (.vcmp .ltu .i32 opt 2 1 2) (cmpSpec .i32 opt 1 2) [] (fun r => decide (r.len = 3)) ∧
    Runs s (.mandn opt 2 1 3) (maskSpec opt false) [] (fun r => decide (r.len ≤ 4096)) ∧
    Runs s (.mpopc true opt 6 1) (maskSpec opt true) [] (fun r => decide (r.src.ctx.lq.length < 16)) ∧
    Runs s (.mfirst opt 6 1) (maskSpec opt true) [] (fun r => (r.src.ctx.mask 1).getLsbD 1 && !(r.src.ctx.mask 1).getLsbD 0) ∧
    Runs s (.mfirst opt 6 7) (maskSpec opt true) [] (fun r => r.src.ctx.mask 7 == 0) ∧
    Runs s (.vred .add .i32 opt 5 1) (redSpec .i32 opt 1) [] (fun r => r.active 0) ∧
    Runs s (.vfred .add .f32 opt 5 1) (redSpec .f32 opt 1) [] (fun r => r.active 0) ∧
    Runs s (.vfred .add .f32 optM 5 1) (redSpec .f32 optM 1) [] (fun r => !r.active 0) ∧
    nextWith (exec (.mandn opt 2 1 3) s) (fun t => t.ctx.mask 2 == 6) = true ∧
    nextWith (exec (.mpopc true opt 6 1) s) (fun t => t.getX 6 == 2 && t.ctx.lq == [2]) = true ∧
    nextWith (exec (.mfirst opt 6 7) s) (fun t => t.getX 6 == 0xFFFFFFFFFFFFFFFF) = true ∧
    nextWith (exec (.vfcmp .lt .f32 opt 2 2 1) s) (fun t => t.ctx.mask 2 == 7) = true ∧
    nextWith (exec (.vred .add .i32 opt 5 1) s) (fun t => t.getX 5 == 0xFFFFFFFFFFC00000) = true ∧
    nextWith (exec (.vfred .add .f32 opt 5 1) s) (fun t => t.getX 5 == 0x41000000) = true := by
  and_intros <;> first | decide +kernel | exact runs_of (by decide +kernel)
/-- An entry queued before, a full queue, a lane thread, a unit that is free, and the failures of dispatch one by one. -/
theorem witness_VectorIssue :
    let i : Instr := .vfadd .f32 opt 0 1 (.plot 2)
    let k := maSpec .f32 opt 0 [(1, some 2), (2, some 2)]
    let e := waiting i
    let q : State := { vbase with ctx := { vbase.ctx with vq := [e] } }
    let f : State := { vbase with ctx := { vbase.ctx with vq := List.replicate 32 e } }
    let sends : State := { vbase with ctx := { vbase.ctx with vq := [waiting (.vextract .f32 opt 5 1 (.imm 0))] } }
    let lanes : State := { q with ctx := { q.ctx with detach := (inLane base).ctx.detach } }
    let free : State := { vbase with ctx := { vbase.ctx with unit := false } }
    let noPipe : State := vbase.modCore 0 (fun c => c.modFe false (fun x => { x with pipeown := 0xF0 }))
    let lq : VSpec := { k with o := ⟨0, false, false, .lq⟩ }
    let some1 : State := { vbase with ctx := { vbase.ctx with lq := [5000, 2] } }
    isVectorInstr i = true ∧ vbase.lane = none ∧ vbase.ctx.isMiller = false ∧ okWith (takeUnit q) (fun s0 => !s0.ctx.commitWaits i && !s0.ctx.vq.isEmpty) = true ∧
    okWith (takeUnit sends) (fun s0 => (vectorReads (.vld .f32 opt .plain 0 5 0 0)).any (fun x => s0.ctx.sendsTo.contains x)) = true ∧
    okWith (takeUnit f) (fun s0 => decide (32 ≤ s0.ctx.vq.length)) = true ∧ q.ctx.phase = .running ∧ q.ctx.threading = false ∧ lanes.ctx.threading = true ∧
    okWith (vectorBody e.instr e { q with ctx := { q.ctx with vq := [] } }) (fun t => t.elem 0 0 == 0x3FC00000) = true ∧
    vbase.myCore.board = [] ∧ vbase.ctx.unit = true ∧ free.ctx.unit = false ∧ (∀ j ∈ free.others, j.core = free.ctx.core → j.fe = free.ctx.fe → j.unit = false) ∧
    ¬ (4 ≤ k.unit ∨ noPipe.myFe.pipeown &&& pipeMask k.unit ≠ 0) ∧ (4 ≤ k.unit ∨ vbase.myFe.pipeown &&& pipeMask k.unit ≠ 0) ∧
    (lq.governed = true ∧ lq.o.vls = .lq ∧ e.popped = none ∧ vbase.ctx.lq = [] ∧ some1.ctx.lq = [5000, 2]) ∧
    (∃ p ∈ k.dest.toList ++ k.srcs, plotValid (base.plotOf p.1) = false) ∧ (∀ p ∈ k.dest.toList ++ k.srcs, plotNamed vbase p) ∧
    (vbase.ctx.inTrap = true ∨ vbase.ctx.vstart = 0) ∧ (k.governed = true → k.o.vls ≠ .lq) ∧
    okWith (vbegin e lq some1) (fun r => decide (r.vl = 4096) && decide (r.len = 4) && r.src.ctx.lq == [2]) = true := by
  unfold plotNamed; decide +kernel

/-- A convoy of two members, and fields that break the rules. -/
theorem witness_VectorIssue_convoy :
    let s := withMem [(0x100004, 8, 0x00000040C400C108), (0x10000C, 8, 0x00000040C400C108)] vbase
    ¬ ((2 : BitVec 3).toNat < 2) ∧ (0 : BitVec 3) ≠ 7 ∧ (∃ u ∈ [(7 : BitVec 3), 0].take 2, u = 7) ∧
    (match s.fetchAt (s.ctx.pc + 4) with
     | .word s1 enc n => enc == 0x00000040C400C108 && n == 8 && convoyUnit enc == some 0 && convoyUnit enc != some 1 &&
         (match s1.fetchAt (s.ctx.pc + 12) with | .word _ e2 n2 => e2 == 0x00000040C400C108 && n2 == 8 | _ => false)
     | _ => false) = true ∧ decodeWord 0x00000040C400C108 = .ok (.vfadd .f32 opt 3 1 (.plot 2)) ∧
    nextWith (exec (.convoyHeader 2 0 0 0 0 0 0) s) (fun t => t.ctx.pc == 0x100004 && t.ctx.convoy == [0x00000040C400C108, 0x00000040C400C108] && t.ctx.breaks == []) = true := by decide +kernel

/-- Entries legal, undefined and illegal; totals below and at 2^40; grants with x0, with a cap and with a cap of 0; a watermark. -/
theorem witness_VectorConfiguration :
    let lp (rem grant : Nat) (s : State) : State := { s with ctx := { s.ctx with loop := { remaining := BitVec.ofNat 40 rem, grant := BitVec.ofNat 13 grant, base := 8, strips := 1 } } }
    let s := lp 100 0 (withX [(5, rowPlot 12 1 4), (6, 5), (7, 10), (8, 2 ^ 40 - 1), (9, 2 ^ 40), (10, 0x200000)] (withMem [(0x200000, 8, 20)] vbase))
    Runs s (.plotset false 12 5) (cfgSpec false) [] (fun r => plotLegal (s.getX 5) (r.src.rows s.ctx.core s.ctx.fe) && plotValid (s.getX 5) &&
      !plotValid (r.src.plotOf 12) && decide (r.src.ctx.plots.toList.countP plotValid < r.src.plotLimit)) ∧
    Runs s (.plotset false 1 6) (cfgSpec false) [] (fun r => !plotValid (s.getX 6) && plotValid (r.src.plotOf 1)) ∧
    plotValid 0x8000000000000000 = true ∧ plotLegal 0x8000000000000000 (s.rows s.ctx.core s.ctx.fe) = false ∧
    Runs s (.plotget false 11 1) (cfgSpec true) [] (fun r => plotValid (r.src.plotOf 1)) ∧
    Runs s (.vloop false 8) (cfgSpec false) [] (fun _ => true) ∧ (s.getX 8).toNat < 2 ^ 40 ∧ 2 ^ 40 ≤ (s.getX 9).toNat ∧
    Runs s (.setvl false 11 7) (cfgSpec false) [] (fun _ => s.ctx.unit && s.getX 7 != 0) ∧
    Runs s (.setvlW false false .device 11 10 7) (cfgSpec true) [] (fun r => okWith (r.src.load .scalar (s.getX 10) 8 .normal) (fun p => p.1 == some 20)) ∧
    capped s 7 (min s.ctx.loop.remaining.toNat s.ctx.mvl.toNat) = 10 ∧ capped s 0 100 = 100 ∧ s.ctx.loop.base.toNat + 10 ≤ 20 ∧ s.ctx.loop.base.toNat < 20 ∧
    Runs s (.wmpub false .device 10) (cfgSpec false) [] (fun r => okWith (release (some .device) r.src) (fun x =>
      okWith (x.access .scalar .store .strand (s.getX 10) 8 .normal) (fun p => p.1.pa == 0x200000 && (State.selectAt p.1.pa).isNone))) ∧
    onFront s ∧ s.ctx.loop.grant = 0 ∧ s.ctx.loop.remaining ≠ 0 ∧ (lp 100 4 s).ctx.loop.grant ≠ 0 ∧ (lp 0 0 s).ctx.loop.remaining = 0 ∧
    Runs s (.vsync false .device) (cfgSpec false) [] (fun r => r.src.streamsOut r.src.ctx) ∧
    nextWith (exec (.plotset false 12 5) s) (fun t => t.ctx.plot 12 == rowPlot 12 1 4) = true ∧
    nextWith (exec (.setvl false 11 7) s) (fun t => t.ctx.vl == 10 && t.getX 11 == 10 && t.ctx.loop.grant == 10) = true ∧
    nextWith (exec (.setvlW false true .device 11 10 0) s) (fun t => t.ctx.vl == 12) = true ∧
    nextWith (exec (.vlend 0xFFFC) (lp 100 4 s)) (fun t => t.ctx.loop.remaining == 96 && t.ctx.loop.base == 12 && t.ctx.pc == 0xFFFF0) = true := by
  unfold onFront; and_intros <;> first | decide +kernel | exact runs_of (by decide +kernel)

/-- A stream of four FP32 elements, 4 bytes apart. -/
def stream1 : List Word := [0x210000, 0x100, 0x0000000400000004, 0, 0, 0, 0, 0]

theorem witness_StreamSetup :
    let s := withX [(5, 0x200040), (6, 0x200080), (7, 0x200048)] (withMem (asBlock 0x200040 stream1) vbase)
    onFront s ∧ (s.getX 7).toNat % 64 ≠ 0 ∧ (s.getX 5).toNat % 64 = 0 ∧ streamOk stream1 = true ∧ streamTy stream1 = .f32 ∧
    (mform s.ctx.mfmt).admits (streamTy stream1) .other = true ∧
    okWith (takeUnit s) (fun s0 => s0.ctx.vq.isEmpty && !s0.ctx.threading && (s0.streamAt 2).isNone &&
      okWith (readBlock s0 (s.getX 5) 8) (fun p => p.1 == stream1 && p.2.ctx == s0.ctx && (List.range 9).all (fun j => p.2.streamAt j == s0.streamAt j)) &&
      okWith (readBlock s0 (s.getX 6) 8) (fun p => !streamOk p.1)) = true ∧
    nextWith (exec (.strset 5 2) s) (fun t => (t.streamAt 2).any (fun x => x.base == 0x210000 && x.pos == 0 && x.ahead.isEmpty)) = true := by
  unfold onFront; decide +kernel

def streaming (n : Nat) : State :=
  { base.modMyFe (fun f => { f with streams := [(2, fetched n)] }) with ops := [cpyOp true], arg := .op (cpyOp true).id }

theorem streaming_at (n : Nat) : lookupN 2 (((streaming n).core 0).fe false).streams = some (fetched n) := by with_unfolding_all rfl

/-- The buffer of a stream with room for one more element, and of one without; its front end and context. -/
theorem witness_EngineSteps_stream :
    let s := streaming 2047
    lookupN 2 ((s.core 0).fe false).streams = some (fetched 2047) ∧ lookupN 1 ((s.core 0).fe false).streams = none ∧ s.ctx.id = 0 ∧ s.ctx.present = true ∧
    s.ctx.core = 0 ∧ s.ctx.fe = false ∧ (fetched 2047).ahead.length + 1 = (fetched 2047).room ∧ (fetched 2047).pos + (fetched 2047).ahead.length < (fetched 2047).total ∧
    (∀ x ∈ (fetched 2047).ahead, x.fault = none) ∧ (fetched 2048).room ≤ (fetched 2048).ahead.length ∧
    okWith ((({ s with arg := .stream 0 2 } : State).unboard 2).load .stream ((fetched 2047).addr 2047) (fetched 2047).size .normal) (fun p => p.1 == some 0) = true := by
  intro s
  have len (n : Nat) : (fetched n).ahead.length = n := List.length_replicate
  simp only [len]
  refine ⟨streaming_at _, ?_, ?_, ?_, ?_, ?_, ?_, ?_, fun x hx => by rw [List.eq_of_mem_replicate hx], ?_, ?_⟩ <;> decide +kernel

/-- A slot of `streaming 2047` whose next element no stash holds, one whose next the stash holds with room in the scoreboard and with
none, and one whose next an older copy is to write. -/
theorem witness_EngineSteps_held :
    let t : Stream := { fetched 2047 with stamp := 1 }
    let s : State := { (streaming 2047).modMyFe (fun f => { f with streams := [(2, t)] }) with arg := .stream 0 2 }
    let stashed (n : Nat) : State := s.modCore 0 (fun c => { c with
      fe0 := { c.fe0 with maps := [{ ctx := 0, off := 0, addr := 0x210000, len := 0x8000, lines := [] }] }
      board := List.replicate n { op := .engine 99, ranges := [(0x50000, 128)] } })
    let older : EngineOp := { cpyOp true with id := 0, owns := [0x211FFC / 128] }
    let held : State := { s with ops := older :: s.ops }
    (s.unboard 2).fillRanges t = [] ∧ (s.unboard 2).streamHeld 1 .load (t.addr 2047) = false ∧
    ((stashed 31).unboard 2).fillRanges t ≠ [] ∧ ((stashed 31).unboard 2).myCore.board.length < 32 ∧ ¬ ((stashed 32).unboard 2).myCore.board.length < 32 ∧
    held.ops.find? (fun p => p.id == 7) = some (cpyOp true) ∧ (held.unboard 2).streamHeld 1 .load (t.addr 2047) = true ∧
    ((s.unboard 2).load .stream 0x20000000 4 .normal).isOk = false := by decide +kernel

def reached (x : ARes (State.Reached × State)) (pa : Nat) : Bool := okWith x (fun p => p.1.pa == pa)

/-- As `memCalm`. -/
def memCalmly (s : State) : Bool :=
  s.dramErr.isEmpty && s.latent.isEmpty && s.poison.isEmpty && s.myCore.board.isEmpty && [0, 1, 2, 3].all (fun d => (s.die d).l2.all (fun y => y.bad.isEmpty))

/-- Only element 1 is active: an FP32 load and store, a unit of a q4 group from the stash, an indexed atomic that keeps the old value and one that does not. -/
theorem witness_VectorMemory :
    let s := withMask 3 2 (put 8 [0, 0, 0, 0] (withX [(5, 0x200000)] (withMem [(0x200000, 8, 0x4080000040A00000)] vbase)))
    let j := put 0 [7, 8, 9, 10] (put 3 [0, 4, 8, 12] s)
    let g := ({ s with ctx := { s.ctx with mfmt := 0x6100 } } : State).modMyFe (fun f => { f with maps := [{ ctx := 0, off := 0, addr := 0x200000, len := 128, lines := [] }] })
    (vloadForm s { entry := waiting (.mclr 0), spec := cfgSpec false, vl := 0, start := 0, len := 0, selfov := false, src := s, sfault := none }
      (.vld .f32 optM .plain 0 5 0 0)).isSome = true ∧ s.mem.wf = true ∧
    Runs s (.vld .f32 optM .plain 0 5 0 0) (memSpec 1 optM (some (0, some 2)) [] 0 false) [0] (fun r => decide (r.elems = [1]) && stored r .f32 == 4 &&
      (mform r.src.ctx.mfmt).scale == 0 && (mform r.src.ctx.mfmt).admits .f32 .unit && memCalmly r.src &&
      reached (r.src.reach .vector .load .strand 0x200004 4) 0x200004) ∧
    Runs g (.vldt .bf16 optM .plain 0 5 0 8) (memSpec 1 optM (some (8, some 1)) [] 8 false) [8] (fun r => decide (r.elems = [1]) && memCalmly r.src &&
      (mform r.src.ctx.mfmt).admits .bf16 .vldt && (r.src.stashAt r.src.ctx.core 0x200000).isSome && reached (r.src.reach .vector .load .strand 0x200000 2) 0x200000) ∧
    Runs s (.vst .f32 optM .plain 0 5 1 0) (memSpec 2 optM none [(1, some 2)] 1 false) [] (fun r => decide (r.elems = [1]) &&
      okWith (release none r.src) (fun v => reached (v.reach .vector .store .strand 0x200004 4) 0x200004)) ∧
    Runs j (.vamo .add .i32 optM .plain 0 false false 5 2 0 3) (memSpec 2 optM (some (2, some 2)) [(0, some 2), (3, some 2)] 0 false) [2] (fun r => decide (r.elems = [1]) &&
      !(plotBox (r.src.plotOf 2)).meets (plotBox (r.src.plotOf 0)) && !(plotBox (r.src.plotOf 2)).meets (plotBox (r.src.plotOf 3)) &&
      decide (1 < plotCount (r.src.plotOf 2)) && okWith (release none r.src) (fun v => reached (v.reach .gather .atomic .strand 0x200004 4) 0x200004)) ∧
    Runs j (.vamo .add .i32 optM .plain 0 false true 5 0 0 3) (memSpec 2 optM none [(0, some 2), (3, some 2)] 0 false) [] (fun r => decide (r.elems = [1])) ∧
    nextWith (exec (.vld .f32 optM .plain 0 5 0 0) s) (fun t => t.elem 0 1 == 0x40800000 && t.elem 0 0 == 0) = true ∧
    nextWith (exec (.vst .f32 optM .plain 0 5 1 0) s) (fun t => t.mem.num 0x200000 8 == 0x4000000040A00000) = true ∧
    nextWith (exec (.vamo .add .i32 optM .plain 0 false false 5 2 0 3) j) (fun t => t.mem.num 0x200000 8 == 0x4080000840A00000 && t.elem 2 1 == 0x40800000) = true := by
  and_intros <;> first | decide +kernel | exact runs_of (by decide +kernel)

/-- A whole group of 16 q4 elements with its scale plot, and an element of a row in channel mode inside and outside the window. -/
theorem witness_VectorFormats :
    let pl := withPlots [(0, rowPlot 0 1 16), (8, rowPlot 8 0 4)] (withX [(5, 0x200000)] (withMem [(0x200000, 8, 0x4321432143213F80), (0x200008, 2, 0x4321)] base))
    let s : State := withVl 16 { pl with ctx := { pl.ctx with mfmt := 0x6100, vtype := 0x70 } }
    let c : State := withMask 3 2 (withVl 4 (withPlots [(9, rowPlot 9 0 4)] { pl with ctx := { pl.ctx with mfmt := 0x2200, kvwin := 0x10002 } }))
    (∀ x ∈ [7, 0, 5], x < 2 ^ codeBits true) ∧ codeAt true (packCodes true [7, 0, 5]) 2 = 5 ∧
    Runs s (.vld .f32 opt .plain 0 5 0 8) { memSpec 1 opt (some (0, some 2)) [] 0 false with also := [(8, some 1)] } [0] (fun r => memCalmly r.src &&
      plotValid (r.src.plotOf 8) && (plotBox (r.src.plotOf 8)).inRows (r.src.rows r.src.ctx.core r.src.ctx.fe) && plotSlot (r.src.plotOf 8) == 0 && (mform r.src.ctx.mfmt).enc == .group false &&
      (mform r.src.ctx.mfmt).scale == 1 && (mform r.src.ctx.mfmt).admits .f32 .unit && decide (r.elems = List.range 16) && r.src.blockSize == 16 &&
      plotLegal (r.src.plotOf 8) (r.src.rows r.src.ctx.core r.src.ctx.fe) && plotEw (r.src.plotOf 8) == 1 && !(plotBox (r.src.plotOf 8)).meets (plotBox (r.src.plotOf 0)) &&
      okWith (r.groupUnits (plainLoad .vector (r.src.keeps 10)) 0x200000 5 0 r.src) (fun p => p.1 == [some 0x3F80, some 0x4321, some 0x4321, some 0x4321, some 0x4321])) ∧
    Runs c (.vld .bf16 optM .plain 0 5 9 8) (memSpec 1 optM (some (9, some 1)) [(8, some 1)] 9 true) [9] (fun r => memCalmly r.src && flowing r && decide (2 ≤ plotCount (r.src.plotOf 8)) && (mform r.src.ctx.mfmt).scale == 2 &&
      (mform r.src.ctx.mfmt).admits .bf16 .unit && decide (r.elems = [1]) && r.vl % 2 == 0 &&
      reached (r.src.reach .vector .load .strand (0x200000 + BitVec.ofNat 64 (1 / 2 * 4 + 1 % 2 * 1)) 1) 0x200001) ∧
    nextWith (exec (.vld .f32 opt .plain 0 5 0 8) s) (fun t => t.elem 0 0 == 0x3F800000 && t.elem 0 3 == 0x40800000 && t.elem 8 0 == 0x3F80) = true := by
  and_intros <;> first | decide +kernel | exact runs_of (by decide +kernel)

/-- As `vec_spec`, when nothing else is asked of the run. -/
def Acts (s : State) (i : Instr) (k : VSpec) (p : VRun → Bool) : Prop := ∃ r, dispatches s i k r ∧ p r = true

theorem acts_of {s : State} {i : Instr} {k : VSpec} {p : VRun → Bool} (h : vec s i k p = true) : Acts s i k p := vec_spec h

/-- The flags of element e of a two-source instruction raise the enabled cause c, or none. -/
def raises (i : Instr) (r : VRun) (e : Nat) (c : Option Nat) : Bool :=
  match vfp2 i with
  | some (t, _, _, a, b, f) =>
    fpCause r.src.ctx.fcsr (f (ftFmt t) r.src.ctx.rmode (r.get a (ftyE t) e).1 (r.getB b (ftyE t) e).1).flags == c
  | none => false

/-- A division by 0 at element 1 with its exception enabled, into another plot and into one that overlaps a source. -/
theorem witness_VectorFloat_traps :
    let z := withPlots [(13, rowPlot 1 1 4 + 2 * 2 ^ 29)] (put 2 [0x3F000000, 0, 0x3F000000, 0x3F000000] { vbase with ctx := { vbase.ctx with fcsr := 0x200, tvec := 0x400 } })
    let i (d : VReg) : Instr := .vfdiv .f32 opt d 1 (.plot 2)
    let k (d : VReg) : VSpec := maSpec .f32 opt d [(1, some 2), (2, some 2)]
    let meets (d : VReg) (o : Bool) : Prop := Acts z (i d) (k d) (fun r => r.sfault.isNone && lanesCalmly r && fits r d && r.selfov == o && r.elems == [0, 1, 2] &&
      raises (i d) r 1 (some 0x11) && raises (i d) r 0 none)
    meets 0 false ∧ meets 13 true ∧
    nextWith (exec (i 0) z) (fun t => t.elem 0 0 == 0x40000000 && t.elem 0 1 == 0 && t.ctx.tcause == 0x11 && t.ctx.tval == 1 && t.ctx.vstart == 1 && t.ctx.tplot == 0 &&
      t.ctx.pc == 0x400) = true ∧
    nextWith (exec (i 13) z) (fun t => t.elem 13 0 == 0x40000000 && t.ctx.vstart == 0 && t.ctx.tplot == 13 && t.elem 1 2 == 0x40400000 && t.ctx.fcsr == 0x200) = true := by
  and_intros <;> first | decide +kernel | exact acts_of (by decide +kernel)

/-- An error in the lane of element 1, for the first time and in its replay, with a context protected or not. -/
theorem witness_VectorFloat_lanes :
    let s (rep : Bool) (status : Word) : State :=
      { vbase.modCore 0 (fun c => { c with laneErr := [(1, rep)] }) with ctx := { vbase.ctx with status := status } }
    let i : Instr := .vfadd .f32 opt 0 1 (.plot 2)
    let meets (rep : Bool) (status : Word) : Prop := Acts (s rep status) i (maSpec .f32 opt 0 [(1, some 2), (2, some 2)]) (fun r =>
      r.sfault.isNone && r.src.ctx.fcsr == 0 && r.src.myCore.laneErr == [(1, rep)] && !bitAt (r.src.die (BitVec.ofNat 2 (r.src.ctx.core / 64))).errinj 63 && fits r 0 &&
      decide (r.start = 0) && decide (1 < r.len) && r.src.ctx.protected == (status == 0x8000) && r.src.ctx.cki.extractLsb' 32 16 == 0)
    meets false 0 ∧ meets true 0 ∧ meets true 0x8000 ∧
    nextWith (exec i (s true 0)) (fun t => t.elem 0 0 == 0x3FC00000 && t.elem 0 1 == 0x7FC00000 && t.ctx.cki == 0x100000008 && t.myCore.laneErr.isEmpty) = true ∧
    nextWith (exec i (s true 0x8000)) (fun t => t.elem 0 1 == 0x7FC00000 && t.ctx.cki.getLsbD 4 && t.reeve.box.length == 1) = true ∧
    nextWith (exec i (s false 0)) (fun t => t.elem 0 1 == 0x40200000 && t.ctx.cki == 0) = true := by
  and_intros <;> first | decide +kernel | exact acts_of (by decide +kernel)

/-- Element 1 of FP32 accesses, alone, at an address that no table maps, and behind element 0 with an index that misaligns it; an index
plot that the destination overlaps. -/
theorem witness_VectorMemory_traps :
    let s := withMask 4 3 (withMask 3 2 (withX [(5, 0x1FFFFFFC), (6, 0x200000)] (withMem [(0x200000, 4, 0x40A00000)]
      { vbase with ctx := { vbase.ctx with tvec := 0x400, tdeleg := 0xFFFFFFFF } })))
    let j := put 3 [0, 2, 8, 12] (put 2 [0, 0x1FE00000, 0, 0] (withPlots [(13, rowPlot 3 1 4 + 2 * 2 ^ 29)] s))
    let opt4 : VOpts := ⟨4, false, false, .vl⟩
    let sound (r : VRun) : Bool := calmly r && memCalmly r.src && (mform r.src.ctx.mfmt).admits .f32 .unit && (mform r.src.ctx.mfmt).scale == 0
    let two (d : VReg) (o : Bool) : Prop := Acts j (.vldx .f32 opt4 .plain 0 false 6 d 3) (memSpec 1 opt4 (some (d, some 2)) [(3, some 2)] d false) (fun r =>
      sound r && fits r d && r.selfov == o && r.elems == [0, 1] && reached (r.src.reach .gather .load .strand 0x200000 4) 0x200000)
    Acts s (.vld .f32 optM .plain 0 5 0 0) (memSpec 1 optM (some (0, some 2)) [] 0 false) (fun r => sound r && fits r 0 && r.elems == [1] &&
      faultsOf (r.src.reach .vector .load .strand 0x20000000 4) (0x08, 0x20000000)) ∧ two 0 false ∧ two 13 true ∧
    Acts s (.vst .f32 optM .plain 0 5 1 0) (memSpec 2 optM none [(1, some 2)] 1 false) (fun r => sound r && r.elems == [1] &&
      okWith (release none r.src) (fun v => faultsOf (v.reach .vector .store .strand 0x20000000 4) (0x09, 0x20000000))) ∧
    Acts j (.vstx .f32 opt4 .plain 0 false 6 1 3) (memSpec 2 opt4 none [(1, some 2), (3, some 2)] 1 false) (fun r => sound r && r.elems == [0, 1] &&
      okWith (release none r.src) (fun v => reached (v.reach .gather .store .strand 0x200000 4) 0x200000)) ∧
    Acts j (.vamo .add .i32 optM .plain 0 false false 6 0 1 2) (memSpec 2 optM (some (0, some 2)) [(1, some 2), (2, some 2)] 1 false) (fun r => calmly r &&
      memCalmly r.src && r.elems == [1] && okWith (release none r.src) (fun v => faultsOf (v.reach .gather .atomic .strand 0x20000000 4) (0x09, 0x20000000))) ∧
    nextWith (exec (.vld .f32 optM .plain 0 5 0 0) s) (fun t => t.ctx.tcause == 0x08 && t.ctx.tval == 0x20000000 && t.ctx.vstart == 1 && t.elem 0 1 == 0) = true ∧
    nextWith (exec (.vldx .f32 opt4 .plain 0 false 6 0 3) j) (fun t => t.ctx.tcause == 0x04 && t.ctx.tval == 0x200002 && t.ctx.vstart == 1 && t.elem 0 0 == 0x40A00000) = true ∧
    nextWith (exec (.vldx .f32 opt4 .plain 0 false 6 13 3) j) (fun t => t.ctx.tcause == 0x04 && t.ctx.vstart == 0 && t.elem 3 1 == 2) = true ∧
    nextWith (exec (.vstx .f32 opt4 .plain 0 false 6 1 3) j) (fun t => t.ctx.tval == 0x200002 && t.mem.num 0x200000 8 == 0x3F800000) = true := by
  and_intros <;> first | decide +kernel | exact acts_of (by decide +kernel)

/-- Offsets inside and past the source, a count of the length queue, no group encoding and one. -/
theorem witness_VectorMoves :
    let s := withMask 1 5 (withX [(6, 2)] vbase)
    let g : State := withVl 16 (withPlots [(0, rowPlot 0 1 16), (8, rowPlot 8 0 5)] { base with ctx := { base.ctx with mfmt := 0x6000, vtype := 0x70 } })
    Runs s (.vslideup .f32 opt 0 1 (.reg 6)) (pmSpec .f32 opt 0 [(1, some 2)] true) [0] flowing ∧
    Runs s (.vcompress true .f32 opt 0 1 1) (pmSpec .f32 opt 0 [(1, some 2)] true) [0] (fun r => flowing r && decide (r.src.ctx.lq.length < 16)) ∧
    Runs s (.vinsert .f32 opt 0 6 (.imm 2)) (pmSpec .f32 opt 0 [] false) [0] flowing ∧
    Runs s (.vextract .i32 opt 7 1 (.imm 1)) { redSpec .i32 opt 1 with unit := 5 } [] flowing ∧
    Runs g (.vunpk .f32 opt 0 8) (pmSpec .f32 opt 0 [(8, some 1)] true) [0] (fun r => flowing r && (mform r.src.ctx.mfmt).enc == .group false && r.len % r.src.blockSize == 0) ∧
    Runs s (.vunpk .f32 opt 0 8) (pmSpec .f32 opt 0 [(8, some 1)] true) [0] (fun r => flowing r && (mform r.src.ctx.mfmt).enc == .native) ∧
    nextWith (exec (.vslideup .f32 opt 0 1 (.reg 6)) s) (fun t => t.elem 0 2 == 0x3F800000 && t.elem 0 1 == 0) = true ∧
    nextWith (exec (.vslidedn .f32 opt 0 1 (.reg 6)) s) (fun t => t.elem 0 0 == 0x40400000 && t.elem 0 1 == 0) = true ∧
    nextWith (exec (.vcompress true .f32 opt 0 1 1) s) (fun t => t.elem 0 0 == 0x3F800000 && t.elem 0 1 == 0x40400000 && t.ctx.lq == [2]) = true ∧
    nextWith (exec (.vextract .i32 opt 7 1 (.imm 1)) s) (fun t => t.getX 7 == 0x40000000) = true := by
  and_intros <;> first | decide +kernel | exact runs_of (by decide +kernel)

/-- No detachment and an ended one, faults of two elements, a thread and its registers, a thread at its limit. -/
theorem witness_LaneThreads :
    let k : VSpec := { unit := 7, o := opt, dest := none, srcs := [(1, none)], lenOf := [1], cross := false, scalarRes := true, governed := true }
    let f : VSpec := { unit := 7, o := noOpts, dest := none, srcs := [], lenOf := [], cross := false, scalarRes := false, governed := false }
    let faults : List LaneFault := [{ elem := 2, cause := 0x08, addr := 0x77 }, { elem := 1, cause := 0x08, addr := 0x66 }]
    let ended : State := { vbase with ctx := { vbase.ctx with detach := some { va := 1, nt := 1, threads := [], faults := faults } } }
    let l : State := { inLane (vbase.withFetchWord 32 0x08A07FFF) with arg := .lane 0 0 }
    let old : Detach := { va := 1, nt := 1, threads := [{ elem := 0, pc := 0x100000, count := 65535 }], faults := [] }
    let m : State := { l with ctx := { l.ctx with detach := some old } }
    Runs vbase (.vdetach opt 1 0 5) k [] (fun r => r.src.ctx.detach.isNone && r.src.ownIssued .core && decide (r.elems = [0, 1, 2])) ∧
    Runs ended (.vdetach opt 1 0 5) k [] (fun r => r.src.ctx.detach.isSome) ∧ Runs vbase (.vfence false .strand) f [] (fun r => r.src.ctx.detach.isNone && r.src.streamsOut r.src.ctx) ∧
    Runs ended (.vfence false .strand) f [] (fun r => r.src.ctx.detach.any (fun d => d.faults == faults)) ∧
    (∀ g ∈ faults, g ≠ { elem := 1, cause := 0x08, addr := 0x66 } → 1 < g.elem) ∧ l.lane = some 0 ∧ l.ctx.detach.isSome = true ∧ vbase.lane = none ∧
    m.arg = .lane m.ctx.id 0 ∧ m.ctx.present = true ∧ (∃ t ∈ old.threads, t.elem = 0) ∧ (∀ t ∈ old.threads, t.elem = 0 → 65535 ≤ t.count) ∧
    fetches m.fetch 0x08A07FFF 4 = true ∧ m.laneReg 16 = some 1 ∧ swf 0 0 m.myCore.field = true ∧
    nextWith (exec (.vdetach opt 1 0 5) vbase) (fun t => t.ctx.detach.any (fun d => d.threads.map LaneThread.elem == [0, 1, 2])) = true ∧
    nextWith (exec .laneThreadLimit m) (fun t => t.ctx.detach.any (fun d => d.threads.isEmpty && d.faults.map LaneFault.cause == [0x1A])) = true := by
  and_intros <;> first | decide +kernel | exact runs_of (by decide +kernel)

/-- Queues with room and with entries, full, and empty. -/
theorem witness_MillQueues :
    let held (fill : Nat) : State := vbase.setMill 0 { mill0 with holder := some vbase.ctx.nest, feed := Vector.replicate 4 (List.replicate fill 9), drain := Vector.replicate 4 (List.replicate (min fill 12) 9) }
    Runs (held 12) (.vfeed .bf16 .f32 opt 1) (memSpec 1 opt none [(1, some 2)] 1 false) [] (fun r => decide (r.start < r.len) &&
      (r.src.mill r.src.ctx.cluster).holder == some r.src.ctx.nest) ∧
    Runs (held 12) (.vdrain false .f32 opt 1) (memSpec 2 opt (some (1, some 2)) [] 1 false) [1] (fun r => decide (r.start < r.len) &&
      decide ((r.len - r.start) * 4 ≤ (r.src.mill 0).drain[r.src.ctx.queue].length)) ∧
    Runs (held 0) (.vdrain false .f32 opt 1) (memSpec 2 opt (some (1, some 2)) [] 1 false) [1] (fun r =>
      decide ((r.src.mill 0).drain[r.src.ctx.queue].length < (r.len - r.start) * 4)) ∧
    nextWith (exec (.vfeed .bf16 .f32 opt 1) (held 0)) (fun t => (t.mill 0).feed[0] == [0x80, 0x3F, 0, 0x40, 0x40, 0x40]) = true ∧
    nextWith (exec (.vdrain false .f32 opt 1) (held 12)) (fun t => (t.mill 0).drain[0] == [] && t.elem 1 0 == 0x09090909) = true := by
  and_intros <;> first | decide +kernel | exact runs_of (by decide +kernel)

theorem long_of {α : Type} {l : List α} {n : Nat} (h : (l.drop n).isEmpty = false) : n < l.length := by
  by_contra hc
  rw [List.drop_eq_nil_of_le (by omega)] at h
  cases h

/-- A queue that is full (`long_of`), and a Mill that no crew of the nest holds. -/
theorem witness_MillQueues_full :
    let full : State := vbase.setMill 0 { mill0 with holder := some vbase.ctx.nest, feed := Vector.replicate 4 (List.replicate 32768 9) }
    let other : State := vbase.setMill 0 { mill0 with holder := some (vbase.ctx.nest + 1) }
    let feeds (s : State) (p : VRun → Bool) : Prop := Runs s (.vfeed .bf16 .f32 opt 1) (memSpec 1 opt none [(1, some 2)] 1 false) [] (fun r => decide (r.start < r.len) && p r)
    feeds full (fun r => (r.src.mill 0).holder == some r.src.ctx.nest && !((r.src.mill 0).feed[r.src.ctx.queue].drop 32764).isEmpty &&
      decide (((List.range r.len).drop r.start).flatMap (fun e => feedBytes .bf16 .f32 (if r.active e then (r.get 1 .f32 e).1 else 0)) = [0x80, 0x3F, 0, 0x40, 0x40, 0x40])) ∧
    feeds other (fun r => (r.src.mill 0).holder != some r.src.ctx.nest) ∧
    Runs other (.vdrain false .f32 opt 1) (memSpec 2 opt (some (1, some 2)) [] 1 false) [1] (fun r => decide (r.start < r.len) && (r.src.mill 0).holder != some r.src.ctx.nest) ∧
    nextWith (exec (.vfeed .bf16 .f32 opt 1) other) (fun t => t.ctx.vq.map VQEntry.instr == [.vfeed .bf16 .f32 opt 1] && t.mill 0 == other.mill 0) = true := by
  and_intros <;> first | decide +kernel | exact runs_of (by decide +kernel)

/-- A front of two objectives and at most n tuples under a policy, with the tuples given. -/
def frontOf (policy n : Nat) (ts : List (Nat × Nat)) : Front :=
  { cfg := BitVec.ofNat 64 (1 + 64 * policy + 1024 * n)
    slots := (List.range ts.length).map (fun i => { slot := i, objs := #v[BitVec.ofNat 32 (ts.getD i (0, 0)).1, BitVec.ofNat 32 (ts.getD i (0, 0)).2, 0, 0], payload := 5 }) }

theorem frontSound_of {f : Front} (h : (fcfgOk f.cfg && decide (f.slots.map FSlot.slot).Nodup && f.slots.all (fun x => decide (x.slot < fCap f.cfg) &&
    !hasNan f.cfg x.objs && (x.objs.toList.drop (fDims f.cfg)).all (· == 0))) = true) : frontSound f := by
  simp only [Bool.and_eq_true, decide_eq_true_eq, List.all_eq_true, beq_iff_eq, Bool.not_eq_true'] at h
  exact ⟨h.1.1, h.1.2, fun x hx => ⟨(h.2 x hx).1.1, (h.2 x hx).1.2, (h.2 x hx).2⟩⟩

/-- Arrivals that are better, worse, neither, and not numbers, at a front with room and a full one under each policy. -/
theorem witness_FrontArrivals :
    let f (p n : Nat) : Front := frontOf p n [(0x40000000, 0x3F800000)]
    let t (a b : BitVec 32) : Tuple := #v[a, b, 0, 0]
    frontSound (f 0 4) ∧ frontSound (f 1 1) ∧ frontSound (f 2 1) ∧ frontSound (f 3 1) ∧ hasNan (f 0 4).cfg (t 0x7FC00000 0) = true ∧
    hasNan (f 0 4).cfg (t 0 0x40000000) = false ∧ dominates (f 0 4).cfg (t 0x40000000 0x3F800000) (t 0x40000000 0x40000000) = true ∧
    (match (f 0 4).arrive 3 (t 0 0x40000000) 6 with | .ok h => h.slots.map FSlot.slot == [0, 1] | _ => false) = true ∧
    (match (f 2 1).arrive 3 (t 0 0x40000000) 6 with | .full => true | _ => false) = true ∧ (match (f 0 1).arrive 3 (t 0 0x40000000) 6 with | .mark _ n => n == 3 | _ => false) = true ∧
    (match (f 3 1).arrive 3 (t 0 0x40000000) 6 with | .ok h => decide (h.slots.length = 1) | _ => false) = true := by
  refine ⟨frontSound_of ?_, frontSound_of ?_, frontSound_of ?_, frontSound_of ?_, ?_⟩ <;> and_intros <;> decide +kernel

theorem witness_FrontInstructions :
    let s0 := withX [(5, 0x1001), (6, 0x1), (7, 0x210000)] vbase
    let s := withMask 3 2 { s0 with ctx := (s0.ctx.setFront 1 (frontOf 0 4 [(0x40000000, 0x3F800000)])).setFront 2 (frontOf 2 4 [(0, 0x40000000)]) }
    let vs : VSpec := { unit := 4, o := optM, dest := none, srcs := [(1, some 2), (2, some 2), (3, some 2)], lenOf := [1, 2, 3], cross := false, scalarRes := false, governed := true }
    let rs : VSpec := { unit := 4, o := opt, dest := some (1, some 2), also := [(2, some 2), (3, some 2)], srcs := [], lenOf := [1, 2, 3], cross := false, scalarRes := false, governed := true }
    Runs s (.fcfg opt 1 5) frontSpec [] (fun _ => true) ∧ fcfgOk (s.getX 5) = true ∧ fcfgOk (s.getX 6) = false ∧ Runs s (.fclr opt 1) frontSpec [] (fun _ => true) ∧
    Runs s (.fins optM 1 1 3) vs [] (fun r => decide (r.elems = [1]) && (r.src.ctx.front 1).cfg != 0 && decide (fDims (r.src.ctx.front 1).cfg = 2)) ∧
    Runs s (.fmerge opt 1 2) frontSpec [] (fun r => (r.src.ctx.front 2).slots.map FSlot.slot == [0] && r.start == 0 &&
      decide (fDims (r.src.ctx.front 1).cfg = fDims (r.src.ctx.front 2).cfg) && (r.src.ctx.front 1).cfg.extractLsb' 2 4 == (r.src.ctx.front 2).cfg.extractLsb' 2 4) ∧
    Runs s (.fread opt 1 3 1 8) rs [1, 2, 3] (fun r => (r.src.ctx.front 1).slots.map FSlot.slot == [0]) ∧
    (∀ w ∈ [(1 : VReg), 2, 3], plotNamed s (w, some 2)) ∧ [(1 : VReg), 2, 3].Pairwise (fun a b => (plotBox (s.plotOf a)).meets (plotBox (s.plotOf b)) = false) ∧
    nextWith (exec (.fins optM 1 1 3) s) (fun t => (t.ctx.front 1).slots == [{ slot := 0, objs := #v[0x40000000, 0x3F000000, 0, 0], payload := 0 }]) = true ∧
    nextWith (exec (.fread opt 1 3 1 8) s) (fun t => t.getX 8 == 1 && t.elem 1 0 == 0x40000000 && t.elem 2 0 == 0x3F800000 && t.elem 3 0 == 5) = true ∧
    nextWith (exec (.fmerge opt 1 2) s) (fun t => decide ((t.ctx.front 1).slots.length = 2)) = true := by
  unfold plotNamed; and_intros <;> first | decide +kernel | exact runs_of (by decide +kernel)

/-- A front saved to memory, one loaded, and words that are no image. -/
theorem witness_FrontInstructions_images :
    let s (m : State) : State := withX [(7, 0x210000)] { m with ctx := m.ctx.setFront 1 (frontOf 0 4 [(0x40000000, 0x3F800000)]) }
    let loads (m : State) (p : List Word → Bool) : Prop := Runs (s m) (.fload opt 1 7) frontSpec [] (fun r => okWith (imageCheck r.entry .load 0x210000 r.src) (fun w =>
      okWith (foldE (fun (st : List (Option Nat) × State) (a : Word) => (frontAcc r.entry (st.2.load .vector a 8 .normal)).map (fun p => (st.1 ++ [p.1], p.2)))
        (([], w) : List (Option Nat) × State) (wordAddrs 0x210000 200)) (fun v => v.1.all Option.isSome && p (v.1.map (fun x => BitVec.ofNat 64 (x.getD 0))))))
    Runs (s vbase) (.fsave opt 1 7) frontSpec [] (fun r => (r.src.ctx.front 1).cfg != 0 && okWith (imageCheck r.entry .store 0x210000 r.src) (fun w =>
      okWith (foldE (fun (w : State) (p : Word × Word) => frontAcc r.entry (w.store .vector p.1 8 p.2.toNat)) w ((wordAddrs 0x210000 200).zip (r.src.ctx.front 1).image)) (fun _ => true))) ∧
    loads (withMem [(0x210000, 8, 0x1001)] vbase) (fun ws => (Front.ofImage ws).isSome) ∧ (Front.ofImage (1 :: List.replicate 199 0)).isNone = true := by
  and_intros <;> first | exact runs_of (by decide +kernel) | decide +kernel

/-! ## Witnesses: slots, records, the board, errors -/

/-- No strand runs; the slot table of die 0 has entries 3 and 5, and slot 5 is under way. -/
def slotted : State :=
  State.reset.modDie 0 (fun x => { x with slots := (x.slots.set 3 0x8000FFFFFFFF0101).set 5 0x8000FFFFFFFF0102, present := some 5, slotEnd := 100 })

def record3 : EvRecord := { level := 3, lease := 1, sub := 1, words := [0x0100000000000001, 2, 3, 4, 5, 6, 7, 8] }

/-- Before and at a boundary; a record for a queue, for a queue whose entry is in use, for no queue. -/
theorem witness_SlotsAndRecords :
    let s : State := { slotted with arg := .die 0, time := 100 }
    let q : State := { State.reset with reeve := { State.reset.reeve with wQueue := some { base := 0x300000, k := 4, next := 15 }, records := [record3] } }
    (slotted.die 0).slotEnd.toNat ≤ s.time.toNat ∧ slotted.time.toNat < (slotted.die 0).slotEnd.toNat ∧ (∀ k ∈ s.ctxs, k.die ≠ 1) ∧ (∀ y ∈ (s.die 0).l2, y.bad = []) ∧
    ({ slotted with arg := .die 1, time := 10000 } : State).arg = .die 1 ∧ base.reeve.records = [] ∧ q.reeve.records = [record3] ∧
    ({ q with reeve := { q.reeve with wQueue := none } } : State).queueOf 3 1 1 = none ∧ q.queueOf 3 1 1 = some { base := 0x300000, k := 4, next := 15 } ∧
    record3.words.length = 8 ∧ q.mem.wf = true ∧ okWith (q.queueAt 3 1 1 0x3003C0) (fun p => p.1 == some 0x3003C0 && !p.2.ownedLine (0x3003C0 / 128) true &&
      okWith (p.2.detectLine (State.reeveWho 0) (0x3003C0 / 128)) (fun _ => true)) = true ∧ dieOfPa 0x3003C0 = 0 ∧ q.mem.byte (0x3003C0 + 7) = 0 ∧
    (withMem [(0x3003C0, 8, 2 ^ 56)] q).mem.byte (0x3003C0 + 7) ≠ 0 ∧
    nextWith (exec .eventRecordWrite q) (fun t => t.mem.num 0x3003C0 8 == 0x0100000000000001 && t.mem.num 0x3003F8 8 == 8 && t.reeve.wQueue.any (fun k => k.next == 0)) = true := by
  decide +kernel

theorem witness_SlotsAndRecords_boundary :
    let s : State := { State.reset with arg := .die 1, time := 10000 }
    let k : State := s.modDie 1 (fun x => { x with slots := (x.slots.set 3 0x8000FFFFFFFF0101).set 5 0x8000FFFFFFFF0102, present := some 5 })
    s.arg = .die 1 ∧ (k.die 1).slotEnd.toNat ≤ k.time.toNat ∧ (∀ c ∈ k.ctxs, c.die ≠ 1) ∧ (∀ y ∈ (k.die 1).l2, y.bad = []) ∧
    nextWith (exec .slotBoundary k) (fun t => (t.die 1).present == some 3 && (t.die 1).inForce == 0x8000FFFFFFFF0101) = true := by decide +kernel

/-- The strand of `vbase`, at its slot's end on die 0: the next slot is another sublease's; a superblock of each of two way-groups is in the L2. -/
def ending : State :=
  let y (way : Nat) : L2Way := { slice := 16, set := 16, way := way, tag := way, valid := 0xF, dirty := 1, bad := [] }
  { vbase.modDie 0 (fun x => { x with slots := (x.slots.set 3 0x8000FFFFFFFF0102).set 5 0x8000FFFFFFFF0101, present := some 5, inForce := 0x8000FFFFFFFF0101
                                      slotEnd := 100, l2 := [y 3, y 4] }) with arg := .die 0, time := 100 }

/-- A line destroyed in the way-group that changes hands. -/
def endingHurt : State := { lostLine 3 1 ending with arg := .die 0, time := 100 }

/-- The strand leaves with its vector instruction undone, its plots' cells are saved, and it comes back when its slot is under way. -/
theorem witness_SlotsAndRecords_switch :
    let q : State := { ending with ctx := { ending.ctx with vq := [waiting (.mclr 0)], pc := 0x100008 } }
    let back (t : State) : State := { t.modDie 0 (fun x => { x with inForce := 0x8000FFFFFFFF0101, present := some 5 }) with arg := .die 0 }
    (ending.die 0).slotEnd.toNat ≤ ending.time.toNat ∧ (∀ z ∈ (ending.die 0).l2, z.bad = []) ∧ ending.ctx.die = 0 ∧ ending.ctx.phase = .running ∧
    State.occOf 0x8000FFFFFFFF0101 0 = slotTag ending.ctx ∧ [0, 1, 2].all (fun g => State.occOf 0x8000FFFFFFFF0102 g != slotTag ending.ctx) = true ∧
    ((endingHurt.die 0).l2.any (fun z => z.bad.any (fun b => z.dirty.getLsbD b.1) && decide (z.way / 4 = 0))) = true ∧
    nextWith (exec .slotBoundary endingHurt) (fun t => t.pend.any (fun p => p.1 == .dirtyL2UeContainment)) = true ∧
    nextWith (exec .slotBoundary q) (fun t => (t.die 0).l2.map L2Way.way == [4] && (t.die 0).inForce == 0x8000FFFFFFFF0102 && !t.ctx.present &&
      t.ctxs.any (fun j => j.phase == .saved && j.vq.isEmpty && j.pc == 0x100000 && j.id == 0 && j.area.any (fun a => a.phase == .running && sget 0 a.cells (1 * 512 + 1) == 0x3F80)) &&
      nextWith (exec .slotBoundary (back t)) (fun u => u.ctxs.any (fun j => j.phase == .running && j.id == 0 && j.pc == 0x100000) && u.elem 1 0 == 0x3F800000)) = true := by
  decide +kernel

/-- A context that is being saved, with and without lane threads, and one that stands saved with its slot under way and without. -/
theorem witness_SlotsAndRecords_moving :
    let a : SaveArea := { phase := .running, cells := [(513, 7)], badCells := [], maps := [], streams := [] }
    let of (p : Phase) : State := { ending with time := 50, ctx := { ending.ctx with phase := p, area := some a } }
    let here (t : State) : State := t.modDie 0 (fun x => { x with inForce := 0x8000FFFFFFFF0102, present := some 3 })
    let threads : State := { here (of .stopping) with ctx := { (of .stopping).ctx with detach := (inLane base).ctx.detach } }
    onlyMoving (here (of .stopping)) 0 (of .stopping).ctx ∧ onlyMoving (of .saved) 0 (of .saved).ctx ∧ onlyMoving threads 0 threads.ctx ∧
    (of .saved).time.toNat < ((of .saved).die 0).slotEnd.toNat ∧ (of .stopping).ctx.threading = false ∧ threads.ctx.threading = true ∧ (of .stopping).pendingOut (of .stopping).ctx = [] ∧
    (here (of .stopping)).onTurn 0 1 1 = false ∧ (here (of .saved)).canResume 0 (of .saved).ctx = false ∧ (of .saved).canResume 0 (of .saved).ctx = true ∧
    (of .saved).asleep 0 = false ∧ swf 0 0 a.cells = true ∧ swf 0 0 (ending.core 0).field = true ∧
    nextWith (exec .slotBoundary (here (of .stopping))) (fun t => t.ctxs.any (fun j => j.phase == .saved && j.area.any (fun a => !a.cells.isEmpty))) = true ∧
    nextWith (exec .slotBoundary (of .saved)) (fun t => t.myFe.rowsOwner == some (1, 1) && sget 0 t.myCore.field 513 == 7 && t.elem 1 1 == 0) = true := by
  unfold onlyMoving; decide +kernel

/-- A Mill and rows that another sublease had, and a Mill of the same one. -/
theorem witness_SlotsAndRecords_hands :
    let n : Nest := { pooled with lease := 1, sub := 1 }
    let m (b : Byte) : Mill := { mill0 with owner := some (1, b), tiles := [(5, 7)] }
    let s (b : Byte) : State := { (vbase.setMill 0 (m b)).modMyFe (fun f => { f with rowsOwner := some (1, 2) }) with ctx := { vbase.ctx with unit := false } }
    ((s 2).mill 0).owner = some (1, 2) ∧ (2 : Byte) ≠ n.sub ∧ ((s 1).mill 0).owner = some (n.lease, n.sub) ∧ (s 2).ctx.lease = n.lease ∧ (s 2).ctx.sub = n.sub ∧ (s 2).ctx.unit = false ∧
    (s 2).foreignBoard (s 2).ctx.core n.lease n.sub = false ∧ (s 2).others = [] ∧ (s 2).myFe.rowsOwner = some (1, 2) ∧
    ((s 2).holdMill 0 n).mill 0 = { mill0 with holder := some 9, owner := some (1, 1) } ∧ okWith (takeUnit (s 2)) (fun u => u.myCore.field.isEmpty && u.ctx.unit) = true := by
  decide +kernel

/-- The lease of `base`, changed. -/
def leased (f : Lease → Lease) : State := { base with reeve := { base.reeve with leases := base.reeve.leases.map f } }

def pausedAt (t : Word) : State := leased (fun l => { l with pausedAt := some t })

/-- A frame for each die's table. -/
def roots0 : Vector Word 4 := #v[0x30000000, 0x2030000000, 0x4030000000, 0x6030000000]

/-- Tolerances at each threshold; addresses of the fabric's messages; a queue for a message; leases that pause and arrive. -/
theorem witness_BoardEvents :
    let tol (n : Nat) : State := leased (fun l => { l with tolerance := BitVec.ofNat 64 n })
    let queue : State := base.modSub 1 1 (fun b => { b with vqueues := Vector.replicate 16 1 })
    (∀ d, (base.die d).l2 = []) ∧ State.reset.reeve.leases = [] ∧ (∀ l ∈ (tol 200).reeve.leases, l.tolerance.toNat = 200) ∧ (tol 200).reeve.leases ≠ [] ∧
    State.dramRange 0x200001 3 = true ∧ okWith (base.remoteReach 0x200001 3 true) (fun _ => true) = true ∧ okWith (base.remoteReach 0x200001 3 false) (fun _ => true) = true ∧
    (0x200008 : BitVec 48).toNat % 8 = 0 ∧ isDram 0x200008 = true ∧ State.reset.leavesOf 0x200008 = [] ∧ (∃ f ∈ base.leavesOf 0x200008, f.leaf.amo = true) ∧
    okWith (base.remoteReach 0x200008 8 true) (fun t => !t.poisonedAt 0x200008 8) = true ∧ (queue.sub? 1 1).any (fun x => x.vqueues[0] != 0) = true ∧ base.sub? 1 2 = none ∧
    ((pausedAt 400).lease? 1).map Lease.pausedAt = some (some 400) ∧ (base.lease? 1).map Lease.pausedAt = some none ∧ base.lease? 2 = none ∧
    nextWith (exec .fabricMessage { base with arg := .fabric (.rmaWrite 0x200001 [1, 2, 3]) }) (fun t => t.mem.num 0x200000 8 == 0x03020100) = true ∧
    nextWith (exec .powerStateEntry (tol 40000)) (fun t => (t.die 3).power == 2) = true ∧
    nextWith (exec .leaseMigration { pausedAt 400 with arg := .migration 1 true 500 3 roots0 }) (fun t => t.timeOf 1 == 503) = true := by
  decide +kernel

/-- An access of control core 1, which its lease has, and what the core does with it. -/
def ccAt (k : CcKind) (va data : Word) : CcAccess :=
  { core := 1, lease := 1, sub := 1, level := 1, kind := k, aq := false, rl := false, size := 3, addr := va, data := data, signed := false, fp := false, rd := 5, next := 0x104 }

def ccOf (s : State) (x : CcAccess) : State :=
  { s with arg := .cc x, reeve := { s.reeve with leases := s.reeve.leases.map (fun l => { l with ccs := [1] }) } }

def cc0 : CcCore := { x := Vector.replicate 32 0, f := Vector.replicate 32 0, fcsr := 0, pc := 0x100, resv := some (0x200000, 8) }

/-- The access passes its checks and arrives at pa, past what R25 and R323 ask for. -/
def arrives (s : State) (x : CcAccess) (pa : Nat) : Bool :=
  okWith (s.checked (ccWho 1 1 1) ctx0 .scalar (CcKind.acc x.kind) .device 8 x.addr 8) (fun p => p.1.phys x.addr == pa && !p.2.ownedLine (pa / 128) true &&
    okWith (p.2.detectLine (ccWho 1 1 1) (pa / 128)) (fun t => t.poison.isEmpty && t.dramErr.isEmpty && t.latent.isEmpty))

/-- A core that the lease has and one it has not; on its turn and not; each kind of access; one that a check refuses. -/
theorem witness_BoardEvents_control :
    let s (x : CcAccess) : State := ccOf (withMem [(0x200000, 8, 0x80)] base) x
    let r : State := { s (ccAt .sc 0x200000 5) with ccs := [(1, cc0)] }
    let elsewhere : State := [0, 1, 2, 3].foldl (fun t d => t.modDie d (fun x => { x with slots := (x.slots.set 3 0x8000FFFFFFFF0101).set 5 0x8000FFFFFFFF0102, present := some 5, inForce := 0x8000FFFFFFFF0102 })) r
    (base.lease? 1).any (fun l => !l.ccs.contains 1) = true ∧ ((s (ccAt .fence 0 0)).lease? 1).any (fun l => l.ccs.contains 1) = true ∧
    (s (ccAt .fence 0 0)).ccRuns 1 1 1 = true ∧ elsewhere.ccRuns 1 1 1 = false ∧
    ((s (ccAt .load 0 0)).checked (ccWho 1 1 1) ctx0 .scalar .load .device 8 0x40000000 8).isOk = false ∧
    [CcKind.load, .sc].all (fun k => arrives (s (ccAt k 0x200000 5)) (ccAt k 0x200000 5) 0x200000) = true ∧
    isDeviceRegion 0x200000 = false ∧ (s (ccAt .load 0 0)).mem.wf = true ∧ (r.cc 1).resv = some (0x200000, 8) ∧ ((s (ccAt .sc 0 0)).cc 1).resv = none ∧
    nextWith (exec .controlCoreAccess (s (ccAt .load 0x200000 0))) (fun t => (t.cc 1).x[5] == 0x80 && (t.cc 1).pc == 0x104) = true ∧
    nextWith (exec .controlCoreAccess r) (fun t => (t.cc 1).x[5] == 0 && t.mem.num 0x200000 8 == 5) = true ∧
    nextWith (exec .controlCoreAccess (s (ccAt .sc 0x200000 5))) (fun t => (t.cc 1).x[5] == 1 && t.mem.num 0x200000 8 == 0x80) = true := by decide +kernel

/-- Leases that arrive with tables and without, and back later or earlier than they paused; a receive that meets a send, and one that does not. -/
theorem witness_BoardEvents_arrivals :
    let twice : Vector Word 4 := #v[0x30000000, 0x30000000, 0x4030000000, 0x6030000000]
    let queue : State := base.modSub 1 1 (fun b => { b with vqueues := Vector.replicate 16 1 })
    let m (tag : Option Word) : UeMsg := { port := 3, lease := 1, sub := 1, tag := tag, data := [7] }
    let sent : State := { queue with ue := [m (some 4), m (some 5)], arg := .fabric (.receive 3 1 1 (some 5)) }
    base.lease? 2 = none ∧ base.rootsOk roots0 = true ∧ base.rootsOk twice = false ∧
    (queue.sub? 1 1).any (fun x => x.vqueues[3] != 0) = true ∧ sent.ue = [m (some 4)] ++ m (some 5) :: [] ∧ (∀ y ∈ [m (some 4)], y.tag ≠ some 5) ∧ (∀ y ∈ sent.ue, y.tag ≠ none) ∧
    nextWith (exec .fabricMessage sent) (fun t => t.ue == [m (some 4)] && t.replies.map (fun r => (r.supported, r.data)) == [(true, [7])]) = true ∧
    nextWith (exec .fabricMessage { sent with arg := .fabric (.receive 3 1 1 none) }) (fun t => t.ue == sent.ue && t.replies.isEmpty && t.pend.any (fun p => p.1 == .fabricMessage)) = true ∧
    nextWith (exec .leaseMigration { base with arg := .migration 2 true 500 3 twice }) (fun t => (t.lease? 2).isNone) = true ∧
    nextWith (exec .leaseMigration { pausedAt 400 with arg := .migration 1 true 399 3 roots0 }) (fun t => (t.lease? 1).any (fun l => l.pausedAt == some 400)) = true := by
  decide +kernel

/-- Control core 1 at a pc where these bytes stand. -/
def coded (n v : Nat) : State :=
  let s := withMem [(0x200100, n, v), (0x200000, 8, 0x80)] base
  { s with ccs := [(1, { cc0 with pc := 0x200100, x := cc0.x.set 6 0x1FFFF8 })], arg := .ccRun 1 1 1 1
           reeve := { s.reeve with leases := s.reeve.leases.map (fun l => { l with ccs := [1] }) } }

/-- addi x5, x0, 5; c.addi x5, 1; ld x5, 8(x6); ebreak, which traps; a core of another lease, and code of level W. -/
theorem witness_BoardEvents_fetch :
    let s := coded 4 0x00500293
    s.ccShares 1 1 = true ∧ base.ccShares 1 1 = false ∧ s.ccRuns 1 1 1 = true ∧
    okWith (ccFetch (ccWho 1 1 1) (s.cc 1).pc s) (fun p => p.1 == some (0x00500293, 4)) = true ∧
    okWith (ccFetch (ccWho 1 1 1) 0x200100 (coded 2 0x0285)) (fun p => p.1 == some (0x00128293, 2)) = true ∧
    nextWith (exec .controlCoreAccess s) (fun t => (t.cc 1).x[5] == 5 && (t.cc 1).pc == 0x200104) = true ∧
    nextWith (exec .controlCoreAccess (coded 2 0x0285)) (fun t => (t.cc 1).x[5] == 1 && (t.cc 1).pc == 0x200102) = true ∧
    nextWith (exec .controlCoreAccess (coded 4 0x00833283)) (fun t => (t.cc 1).x[5] == 0x80 && (t.cc 1).pc == 0x200104) = true ∧
    nextWith (exec .controlCoreAccess (coded 4 0x00100073)) (fun t => (t.cc 1).x[5] == 0 && (t.cc 1).pc == 0x200100) = true ∧
    nextWith (exec .controlCoreAccess { s with arg := .ccRun 1 1 1 3 }) (fun t => t.cc 1 == s.cc 1) = true := by decide +kernel

/-- A store of the Reeve at a device physical address; a core whose sublease has no slot now. -/
theorem witness_BoardEvents_reeve :
    let a : CcAccess := { ccAt .store 0x200000 5 with level := 3 }
    let s : State := { base with arg := .cc a }
    isDram 0x200000 = true ∧ s.ownedLine (0x200000 / 128) true = false ∧ (match s.detectLine (State.reeveWho 0) 0x4000 with | .ok _ => true | .error _ => false) = true ∧ s.mem.wf = true ∧
    nextWith (exec .controlCoreAccess s) (fun t => t.mem.num 0x200000 8 == 5) = true := by decide +kernel

/-- Device space at 0x2000_0000, by tables. -/
def deviceAt (pa : Nat) : State :=
  withMem [(0x40008, 8, 0xC000000000050000), (0x50000, 8, 0x80000000200001E0), (0x20008, 8, 0xC000000000060000), (0x60000, 8, 0x80000000000081E0 + pa)] base

/-- The windows of R355: a counter, a select with a value that R353 admits and one it does not, the last word of a request. -/
theorem witness_BoardEvents_windows :
    let c (x : CcAccess) : State := ccOf ((deviceAt 0x8100000000).modDie 0 (fun d => { d with counts := d.counts.set 1 77 })) x
    let q (x : CcAccess) : State := ccOf (deviceAt 0x8000000000) x
    arrives (c (ccAt .load 0x20000008 0)) (ccAt .load 0x20000008 0) 0x8100000008 = true ∧ State.counterAt 0x8100000008 = some (0, 1) ∧
    State.selectAt 0x8100002008 = some (0, 1) ∧ State.selectOk 0x01010021 = true ∧ State.selectOk 0x1F = false ∧
    arrives (c (ccAt .store 0x20002008 0x20)) (ccAt .store 0x20002008 0x20) 0x8100002008 = true ∧
    arrives (q (ccAt .store 0x20000038 7)) (ccAt .store 0x20000038 7) 0x8000000038 = true ∧ isDeviceRegion 0x8000000038 = true ∧ isCounterWindow 0x8000000038 = false ∧
    (0x8000000038 + 8) % 64 = 0 ∧
    nextWith (exec .controlCoreAccess (c (ccAt .load 0x20000008 0))) (fun t => (t.cc 1).x[5] == 77) = true ∧
    nextWith (exec .controlCoreAccess (c (ccAt .store 0x20002008 0x20))) (fun t => (t.die 0).selects[1] == 0x20) = true := by decide +kernel

/-- A superblock in way 3 of set 0 of slice 0, line 1 destroyed, dirty or not. -/
def wayAt (dirty : BitVec 4) : L2Way := { slice := 0, set := 0, way := 3, tag := 0, valid := 0xF, dirty := dirty, bad := [(1, 0xFFFF)] }

def hurt (dirty : BitVec 4) : State := { base.modDie 0 (fun x => { x with l2 := [wayAt dirty] }) with arg := .way 0 0 0 3 1 }

/-- A dirty line of an L1, and a stash mapping whose first line is dirty and whose second is not, at 0x200000. -/
def struckCaches : Core :=
  let e : Tlb := { place := .cluster 0, lease := 1, sub := 1, die := 0, va := 0x20, ipa := 0x200000, pa := 0x200000, size := 16, size2 := 16, cls := 0, home := 0, skew := 0
                   ce := false, amo := true, x := false, w := true, r := true }
  let m : StashMap := { ctx := 0, off := 0, addr := 0x200000, len := 256, lines := [{ idx := 0, entry := e, dirty := true }, { idx := 1, entry := e, dirty := false }] }
  { base.core 0 with l1 := [{ line := 0x4000, dirty := true, high := false }], fe0 := { (base.core 0).fe0 with maps := [m] } }

def injecting (e : Word) (s : State) : State := { s.modDie 0 (fun x => { x with errinj := e }) with arg := .die 0 }

/-- The first and the last word of a line, an address past DRAM, lines of an L1, a stash and an L2, injection into each kind of memory. -/
theorem witness_ErrorsStrike :
    let s (x : ErrTarget) : State := { base.modCore 0 (fun _ => struckCaches) with arg := .error x }
    let d : State := { base with arg := .addr 0x200000, dramErr := [(0x4000, 0x8001)] }
    isDram (0x200000 : BitVec 48).toNat = true ∧ isDram (0x8000000000 : BitVec 48).toNat = false ∧ ((s (.l1 0 0x200000 0x8001)).core 0).l1.any (fun q => q.line == 0x4000 && q.dirty) = true ∧
    [0, 1].all (fun k => struckCaches.fe0.maps.any (fun m => m.lines.any (fun l => m.physLine l == 0x4000 + k && l.dirty == (k == 0)))) = true ∧
    (base.findCtx 0).isSome = true ∧ lookupN 0x4000 base.dramErr = none ∧ lookupN 0x4000 d.dramErr = some 0x8001 ∧ base.argWay = none ∧ (∀ k, base.arg ≠ .die k) ∧
    (hurt 2).argWay = some (0, wayAt 2, 1) ∧ (hurt 2).l2Find 0 ((wayAt 2).superblock * 4 + 1) = some (wayAt 2) ∧
    (wayAt 2).bad.any (fun b => b.1 == ((wayAt 2).superblock * 4 + 1) % 4) = true ∧ (wayAt 2).dirty.getLsbD 1 = true ∧ (wayAt 0).dirty.getLsbD 1 = false ∧
    [(0x8400000000000080 : Word), 0x9400000000200000].all (fun e => e.getLsbD 63 && e.extractLsb' 58 2 == 1) = true ∧ (base.die 0).errinj.getLsbD 63 = false ∧
    (hurt 0).l2Find 0 0x4000 = none ∧ (hurt 0).l2Find 0 1 = some (wayAt 0) ∧
    nextWith (exec .uncorrectableError (s (.l1 0 0x200000 0x8001))) (fun t => t.poison.contains (0x4000 * 16 + 15) && t.poison.contains (0x4000 * 16)) = true ∧
    nextWith (exec .uncorrectableError (s (.stash 0 0x200000 1))) (fun t => t.poison.contains (0x4000 * 16) && t.myFe.maps.all (fun m => m.lines.length == 1)) = true ∧
    nextWith (exec .errinjPerform (injecting 0x9400000000200000 base)) (fun t => lookupN 0x4000 t.dramErr == some 0xFFFF) = true ∧
    nextWith (exec .errinjPerform (injecting 0x8400000000000080 { hurt 0 with dies := (base.modDie 0 (fun x => { x with l2 := [{ wayAt 0 with bad := [] }] })).dies }))
      (fun t => (t.die 0).l2.any (fun y => lookupN 1 y.bad == some 0xFFFF)) = true ∧
    nextWith (exec .uncorrectableError (s (.mask 0 5))) (fun t => t.ctx.phase == .draining) = true := by decide +kernel

/-- A destroyed dirty line whose way-group a sublease owns, and one whose group nobody owns; faults and restarts. -/
theorem witness_ErrorsHandled :
    let s : State := (hurt 2).modDie 0 (fun x => { x with present := some 0, inForce := 0x8000FFFFFFFF0101 })
    let r : Req := { level := 3, lease := 1, sub := 1, tLease := 1, tSub := 1, tag := 9 }
    let z : State := { base with reeve := { base.reeve with frozen := true, inbox := [{ num := 4, req := r, body := .resetSublease, begun := false }] } }
    let b : State := { base with reeve := { base.reeve with inbox := [{ num := 4, req := r, body := .resetSublease, begun := true }] } }
    base.argWay = none ∧ s.argWay = some (0, wayAt 2, 1) ∧ (wayAt 2).dirty.getLsbD 1 = true ∧ (wayAt 2).bad.any (fun x => x.1 == 1) = true ∧
    (s.die 0).ownerOf ((wayAt 2).way / 4) = some (1, 1) ∧ ((hurt 2).die 0).ownerOf ((wayAt 2).way / 4) = none ∧ z.reeve.frozen = true ∧ z.reeve.leases ≠ [] ∧
    ({ base with reeve := { base.reeve with retired := [0x200000] } } : State).reeve.retired = [0x200000] ∧ isDram 0x200000 = true ∧
    ((base.modDie 0 (fun x => { x with cpFrozen := true })).die 0).cpFrozen = true ∧ b.reeve.inbox.any (fun w => w.begun) = true ∧
    nextWith (exec .reeveFault b) (fun t => t.reeve.inbox.isEmpty && t.reeve.responses.map (fun x => x.words.getD 0 0) == [0x300000009]) = true ∧
    nextWith (exec .reeveRestart z) (fun t => t.reeve.records.any (fun k => k.level == 2) && t.pend.any (fun p => p.1 == .resetSublease)) = true := by decide +kernel

/-- Frame 0 is free where no table takes it: a free frame is found, whatever the free value. -/
theorem frame_of (s : State) (hr : s.roots = []) (hd : (0 : Nat) ∉ s.reeve.retired) (hu : s.reeve.used = []) : (s.takeFrame 0 0).1.isSome = true := by
  simp only [State.takeFrame, List.findSome?_isSome_iff]
  generalize s.free.1.toNat = v
  refine ⟨(2 ^ 21 - v % 2 ^ 21) % 2 ^ 21, List.mem_range.2 (Nat.mod_lt _ (by decide)), ?_⟩
  have hi : (v + (2097152 - v % 2097152)) % 2097152 = 0 := by omega
  simp [hi, State.frameFree, State.takenRanges, hr, hd, hu, show State.zoneOf 0 = 0 by decide]

theorem okBind {α β : Type} {x : Except State α} {f : α → Except State β} (hx : ∃ a, x = .ok a) (hf : ∀ a, ∃ u, f a = .ok u) :
    ∃ u, (x >>= f) = .ok u := by
  obtain ⟨a, rfl⟩ := hx
  exact hf a

theorem frame_rest (s : State) (d z : Nat) : (s.takeFrame d z).2.ops = s.ops ∧ (s.takeFrame d z).2.colls = s.colls ∧
    (s.takeFrame d z).2.gleans = s.gleans ∧ (s.takeFrame d z).2.mills = s.mills ∧ ∀ e, ((s.takeFrame d z).2.die e).l2 = (s.die e).l2 :=
  ⟨rfl, rfl, rfl, rfl, fun _ => rfl⟩

theorem calm_frame (x : State) (ho : x.ops = []) (hc : x.colls = []) (hg : x.gleans = []) (hm : x.mills = []) (f : Nat) : x.frameBusy f = false := by
  simp [State.frameBusy, State.ownedLine, ho, hc, hg, hm]

theorem read_frame (t : State) (f : Nat) (hl : ∀ e, (t.die e).l2 = []) : ∃ u, t.readFrame f = .ok u := by
  unfold State.readFrame
  simp only [hl, List.flatMap_nil, List.filter_nil]
  exact okBind ⟨t, rfl⟩ (fun a => ⟨_, rfl⟩)

theorem replace_ok (t : State) (new : Nat) (ho : t.ops = []) (hc : t.colls = []) (hg : t.gleans = []) (hm : t.mills = []) (hl : ∀ e, (t.die e).l2 = []) :
    ∃ u, t.replaceFrame 0x10000 new [] = .ok u := by
  unfold State.replaceFrame
  rw [if_neg (by simp [calm_frame t ho hc hg hm])]
  refine okBind (read_frame t _ hl) (fun a => okBind ⟨_, rfl⟩ (fun b => ?_))
  exact ⟨_, rfl⟩

/-- A page that no table maps is retired. -/
theorem retire_of (s : State) (hr : s.roots = []) (hd : s.reeve.retired = []) (hu : s.reeve.used = []) (ho : s.ops = []) (hc : s.colls = []) (hg : s.gleans = [])
    (hm : s.mills = []) (hl : ∀ d, (s.die d).l2 = []) : ∃ u, s.retirePage 0x10000 = .ok u := by
  have h0 : dieOfPa 0x10000 = 0 ∧ State.zoneOf 0x10000 = 0 ∧ isDram 0x10000 = true := by decide
  have none' : s.leavesOf 0x10000 = [] := by simp [State.leavesOf, State.leavesOver, hr]
  unfold State.retirePage
  rw [h0.1, h0.2.1, if_neg (by simp [hd, h0.2.2]), none']
  generalize hs : ({ s with reeve := { s.reeve with retired := s.reeve.retired ++ [0x10000] } } : State) = r
  have some' : (r.takeFrame 0 0).1.isSome = true := hs ▸ frame_of _ hr (by simp [hd]) hu
  obtain ⟨ro, rc, rg, rm, rl⟩ := frame_rest r 0 0
  have h : r.ops = [] ∧ r.colls = [] ∧ r.gleans = [] ∧ r.mills = [] ∧ ∀ e, (r.die e).l2 = [] := hs ▸ ⟨ho, hc, hg, hm, hl⟩
  split
  · next h => rw [h] at some'; cases some'
  · next new t e =>
    rw [e] at ro rc rg rm rl
    exact replace_ok t new (ro.trans h.1) (rc.trans h.2.1) (rg.trans h.2.2.1) (rm.trans h.2.2.2.1) (fun d => (rl d).trans (h.2.2.2.2 d))

/-- A page whose line an engine owns waits, whichever frame the free value picks. -/
theorem witness_ErrorsHandled_busy : ∃ t, ({ base with ops := [{ cpyOp true with owns := [0x4000] }] } : State).retirePage 0x200000 = .error t := by
  generalize hs : ({ base with ops := [{ cpyOp true with owns := [0x4000] }] } : State) = s
  have hr : s.reeve.retired = [] := hs ▸ rfl
  unfold State.retirePage
  rw [if_neg (by simp [hr, show isDram 0x200000 = true by decide])]
  generalize hx : ({ s with reeve := { s.reeve with retired := s.reeve.retired ++ [0x200000] } } : State) = x
  split
  · exact ⟨_, rfl⟩
  · next new t e =>
    have ht : (x.takeFrame (dieOfPa 0x200000) (State.zoneOf 0x200000)).2.frameBusy 0x200000 = true := by
      subst hx hs
      exact List.any_eq_true.2 ⟨0x4000, by decide +kernel, rfl⟩
    rw [e] at ht
    unfold State.replaceFrame
    rw [if_pos (by simp [ht])]
    exact ⟨_, rfl⟩

/-- A page of DRAM that no table maps can be retired, whichever frame the free value picks. -/
theorem witness_ErrorsHandled_retire : let s : State := { State.reset with arg := .addr 0x10000 }
    s.arg = .addr 0x10000 ∧ isDram (0x10000 : BitVec 48).toNat = true ∧ (0x10000 : Nat) ∉ s.reeve.retired ∧ s.leavesOf 0x10000 = [] ∧ s.mem.wf = true ∧
    ∃ u, s.retirePage 0x10000 = .ok u :=
  ⟨rfl, by decide, by decide, by decide, by decide, retire_of _ rfl rfl rfl rfl rfl rfl rfl (by decide)⟩

/-! ## Witnesses: requests, the machine as a whole -/

/-- Who asks at a level, for sublease 1 of lease 1. -/
def asks (level : BitVec 2) : Req := { level := level, lease := 1, sub := 1, tLease := 1, tSub := 1, tag := 9 }

def asked (s : State) (r : Req) (b : ReqBody) : State := { s with arg := .request r b, reeve := { s.reeve with booted := true } }

/-- A record by W for the sublease at level S over itself. -/
def deleg1 (rights : Rights) : Deleg :=
  { byLevel := 3, byLease := 0, bySub := 0, toLevel := 1, toLease := 1, toSub := 1, tLease := 1, tSub := 1, rights := rights, revoked := false }

/-- Without a strand, and with a second sublease number free. -/
def quiet : State := { base with ctx := ctx0 }

def assign0 : Assign := { cores := [], pipes := [], mills := [], ccs := [], vqueues := Vector.replicate 16 0, s1root := 3, window := none, s2roots := roots0 }

/-- With delegation records. -/
def given (l : List Deleg) (s : State) : State := { s with reeve := { s.reeve with delegs := l } }

/-- A record by W for the lease over sublease 1, with every right. -/
def toLease : Deleg := { deleg1 0x3F with toLevel := 2, toSub := 0xFF }

/-- Statuses of the responses. -/
def statuses (s : State) : List Nat := s.reeve.responses.map (fun x => (x.words.getD 0 0).toNat / 2 ^ 32)

/-- A request of an awake, booted device with nothing waiting has its turn. -/
theorem witness_SubleaseRequests_served (r : Req) (b : ReqBody) : served (asked base r b) r b := by
  have awake : ∀ d, (base.die d).power = 0 ∧ (base.die d).slow = 0 := by decide
  exact ⟨rfl, rfl, rfl, awake, fun w h => nomatch h⟩

/-- One that does not: the Reeve frozen, an older request of its holder, a die that sleeps, a device that has not booted. -/
theorem witness_SubleaseRequests_waits :
    let w : Waiting := { num := 0, req := asks 3, body := .resetSublease, begun := false }
    let old : State := { base with reeve := { base.reeve with inbox := [w] }, nextId := 1 }
    ({ base with reeve := { base.reeve with frozen := true } } : State).reeve.frozen = true ∧ base.reeve.frozen = false ∧ base.reeve.booted = false ∧
    (∀ w ∈ old.reeve.inbox, w.num < old.nextId) ∧ (∃ w ∈ old.reeve.inbox, oneHolder w.req (asks 3)) ∧ base.reeve.inbox = [] ∧
    (∃ d, ((base.modDie 1 (fun x => { x with power := 2 })).die d).power ≠ 0) := by
  unfold oneHolder; decide

theorem witness_SubleaseRequests :
    let n3 : Req := { asks 3 with tSub := 2 }
    base.holds (asks 1) rCreate = false ∧ (given [deleg1 0x3F] base).holds (asks 1) rCreate = true ∧ n3.tSub ≠ 0xFF ∧ base.holds n3 rCreate = true ∧
    base.lease? 7 = none ∧ base.sub? 1 2 = none ∧ (base.sub? 1 1).isSome = true ∧ (base.lease? 1).any (fun l => base.assignOk 1 2 assign0 && l.admits base 2 assign0) = true ∧
    (base.lease? 1).any (fun l => base.assignOk 1 1 assign0 && l.admits base 1 assign0) = true ∧ (base.sub? 1 1).any (fun y => base.withdraws y assign0) = true ∧
    (quiet.sub? 1 1).any (fun y => !quiet.withdraws y assign0) = true ∧ (base.lease? 1).any (fun l => l.admits base 2 { assign0 with cores := [9] }) = false ∧
    base.shareOk { assign0 with cores := [9], ccs := [4] } = true ∧
    quiet.busy 1 (some 1) = false ∧ (∀ k ∈ quiet.ctxs, k.active = true → ¬ (k.lease = 1 ∧ k.sub = 1)) ∧ quiet.nests = [] ∧ quiet.colls = [] ∧ (∀ d, (quiet.die d).l2 = []) ∧
    ((base.modCore 3 (fun c => c.modFe true (fun f => { f with rowsOwner := some (1, 1) }))).core 3).fe1.rowsOwner = some (1, 1) ∧ (64 : BitVec 8).toNat ≤ 64 ∧ (256 : BitVec 16).toNat ≤ 256 ∧
    nextWith (exec .createSublease (asked base n3 (.createSublease assign0))) (fun t => (t.sub? 1 2).any (fun x => x.root == 3) && statuses t == [0]) = true ∧
    nextWith (exec .createSublease (asked base (asks 3) (.createSublease assign0))) (fun t => statuses t == [4]) = true ∧
    nextWith (exec .resetSublease (asked (put 1 [5] (withPlots plots12 quiet) |>.modMyFe (fun f => { f with rowsOwner := some (1, 1) })) (asks 3) .resetSublease))
      (fun t => t.myCore.field.isEmpty && statuses t == [0]) = true ∧
    nextWith (exec .setLimits (asked base (asks 0) (.setLimits 1 5 5))) (fun t => statuses t == [1]) = true := by decide +kernel

/-- Leaves of 512 MiB of both stages; who may write one of stage 1, and who not. -/
theorem witness_SubleaseRequests_map :
    let x : Sub := { State.loadSub with window := some (0x20000000, 0x20000000) }
    (0x10001 : Word).toNat % 2 ^ 16 ≠ 0 ∧ (0x20000000 : Word).toNat % 2 ^ 29 = 0 ∧ canonical 0x20000000 = true ∧ quiet.mem.wf = true ∧ quiet.busy 1 (some 1) = false ∧ quiet.busy 1 none = false ∧
    stage1Agent (asks 2) State.loadSub true 0x80000000200001E0 ∧ stage1Agent (asks 1) x true 0x80000000200001E0 ∧ ¬ stage1Agent (asks 3) x true 0x80000000200001E0 ∧
    ¬ stage1Agent (asks 1) State.loadSub true 0x80000000200001E0 ∧
    mapEntryOk false true 0 0x80000000200001E0 = true ∧ mapEntryOk true true 0 0x80000000200001E0 = true ∧ quiet.framesFree 1 0x80000000200001E0 (2 ^ 29) = true ∧
    ({ quiet with reeve := { quiet.reeve with retired := [0x20010000] } } : State).framesFree 1 0x80000000200001E0 (2 ^ 29) = false ∧
    okWith (quiet.slot1 { State.reeveWho 0 with lease := 1, sub := 1 } true 0x20000000 3 0x30000) (fun p => p.1 == some 0x40008 &&
      okWith (p.2.reeveStore 0x40008 (leBytes 8 0x80000000200001E0)) (fun _ => true)) = true ∧
    okWith (quiet.slot2 { State.reeveWho 0 with lease := 1, sub := 1 } true 0x20000000 3 0x10000) (fun p => p.1 == 0x20008 && p.2.mem.wf &&
      okWith (p.2.reeveStore 0x20008 (leBytes 8 0x80000000200001E0)) (fun _ => true)) = true := by
  have w : ∀ (r : Req) (y : Sub), stage1Agent r y true 0x80000000200001E0 ↔ r.lease = r.tLease ∧ (r.level = 2 ∨ (r.level = 1 ∧ r.sub = r.tSub ∧
      y.window.any (fun p => decide (p.1.toNat ≤ 0x20000000) && decide (0x40000000 ≤ p.1.toNat + p.2.toNat)) = true)) := by
    intro r y
    simp [stage1Agent, Option.any_eq_true]
  simp only [w]
  decide +kernel

/-- A die whose L2 takes nothing in, because every way is quarantined. -/
def shutDie : Die := { State.reset.die 0 with quarantined := (List.range 256).flatMap (fun s => (List.range 16).map (fun w => (s, w))) }

/-- The machine after reset with four such dies, memory m, and frames u in the Reeve's hands. -/
def shut (m : Memory) (u : List Nat) : State :=
  { State.reset with dies := Vector.replicate 4 shutDie, mem := m, reeve := { State.reset.reeve with used := u, booted := true } }

theorem shut_die (m : Memory) (u : List Nat) (d : BitVec 2) : (shut m u).die d = shutDie := by
  simp [State.die, shut]

theorem shut_find (m : Memory) (u : List Nat) (d : BitVec 2) (line : Nat) : (shut m u).l2Find d line = none := by
  unfold State.l2Find; rw [shut_die]; rfl

theorem shut_count (m : Memory) (u : List Nat) (d : BitVec 2) (l c : Byte) (e n : Nat) (h : e = 0x20 ∨ e = 0x21) :
    (shut m u).countDie d l c e n = shut m u := by
  unfold State.countDie
  rw [shut_die]
  rcases h with rfl | rfl <;> rfl

theorem shut_victim (m : Memory) (u : List Nat) (d : BitVec 2) (sb : Nat) : (shut m u).l2Victim d (l2Slice sb) (l2Set sb) 3 = .error (shut m u) := by
  unfold State.l2Victim
  rw [shut_die]
  have n : (((List.range 4).map (fun i => 3 * 4 + i)).filter (fun w => !shutDie.quarantined.contains (l2Slice sb, w))) = [] := by
    rw [List.filter_eq_nil_iff]
    intro w hw
    obtain ⟨k, hk, rfl⟩ := List.mem_map.1 hw
    have : shutDie.quarantined.contains (l2Slice sb, 3 * 4 + k) = true := by
      rw [List.contains_iff_mem]
      have := List.mem_range.1 hk
      exact List.mem_flatMap.2 ⟨_, List.mem_range.2 (Nat.mod_lt _ (by decide)), List.mem_map.2 ⟨3 * 4 + k, List.mem_range.2 (by omega), rfl⟩⟩
    rw [this]
    decide
  simp only [n]
  rfl

theorem shut_touch (m : Memory) (u : List Nat) (w : Who) (g : w.via = .reeve) (line : Nat) (b : Bool) :
    (shut m u).touch w .l2 line true b .no = shut m u := by
  have hb : ∀ l c n, (shut m u).dramBytes line l c n = shut m u := fun l c n => by
    unfold State.dramBytes
    split
    · exact shut_count _ _ _ _ _ _ _ (.inr rfl)
    · rfl
  have hg : (shut m u).groupFor w line = some 3 := by unfold State.groupFor; rw [g]
  have hr : (shut m u).recallLine w .l2 line true = shut m u := rfl
  have hw : (if (true && b) = true then (shut m u).dramWrite line else (shut m u).dramRead line) = shut m u := by split <;> rfl
  unfold State.touch
  split
  · rfl
  · dsimp only
    rw [hr, hg]
    have hl : (shut m u).l2Count w line true b = shut m u := by
      unfold State.l2Count
      dsimp only
      rw [shut_find]
      dsimp only
      rw [shut_count _ _ _ _ _ _ _ (.inl rfl), hb]
    rw [hl]
    unfold State.l2Touch
    rw [shut_find]
    dsimp only
    rw [hw, shut_die]
    have he : (bitAt shutDie.errinj 63 && bits shutDie.errinj 62 60 == 0 && bits shutDie.errinj 47 7 == line) = false := rfl
    rw [he, if_neg Bool.false_ne_true, shut_die, shut_victim]
    rfl

theorem shut_put (m : Memory) (u : List Nat) (pa : Nat) (bs : List Byte) : (shut m u).putBytes none pa bs = shut (m.setBytes pa bs) u := by
  have h : ∀ (l : List Nat) (m : Memory), l.foldl (fun s x => State.notifyLine s none x) (shut m u) = shut m u := by
    intro l
    induction l with
    | nil => exact fun _ => rfl
    | cons x l ih => exact fun m => ih m
  exact h _ _

theorem shut_store (m : Memory) (u : List Nat) (pa : Nat) (bs : List Byte) : (shut m u).reeveStore pa bs = .ok (shut (m.setBytes pa bs) u) := by
  have step : ∀ l : Nat, (shut m u).ownedLine l true = false ∧ (shut m u).detectLine (State.reeveWho (dieOfPa pa)) l = .ok (shut m u) := fun l => by
    refine ⟨rfl, ?_⟩
    unfold State.detectLine State.l2Detect
    rw [shut_find]
  have all : ∀ ls : List Nat, foldE (fun (s : State) l => if s.ownedLine l true then .error s
      else (s.detectLine (State.reeveWho (dieOfPa pa)) l).map (fun s => s.touch (State.reeveWho (dieOfPa pa)) .l2 l true
        (decide (pa ≤ l * 128) && decide (l * 128 + 128 ≤ pa + bs.length)) .no)) (shut m u) ls = .ok (shut m u) := by
    intro ls
    induction ls with
    | nil => rfl
    | cons l ls ih =>
      simp only [foldE, (step l).1, (step l).2, Bool.false_eq_true, if_false, Except.map, shut_touch m u (State.reeveWho (dieOfPa pa)) rfl]
      exact ih
  unfold State.reeveStore
  dsimp only
  rw [all]
  exact congrArg Except.ok (shut_put m u pa bs)

/-- The Reeve takes the frames that W names. -/
theorem witness_SubleaseRequests_roots :
    (shut [] []).lease? 1 = none ∧ (shut [] []).rootsOk roots0 = true ∧ (shut [] []).mem.wf = true ∧ ∃ t, (shut [] []).takeRoots roots0 = .ok t := by
  refine ⟨by decide, by decide +kernel, by decide, ?_⟩
  suffices h : ∀ (l : List Nat) (m : Memory) (u : List Nat), ∃ t, foldE (fun (s : State) a => s.reeveStore a (List.replicate 65536 0)) (shut m u) l = .ok t from
    h _ [] ([] ++ roots0.toList.map BitVec.toNat)
  intro l
  induction l with
  | nil => exact fun _ _ => ⟨_, rfl⟩
  | cons a l ih =>
    intro m u
    simp only [foldE, shut_store]
    exact ih _ _

/-- Occupants that share no core, a delegation at each level, a revocation, an entry of the mask. -/
theorem witness_SubleaseRequests_more :
    let other : Sub := { State.loadSub with num := 2, cores := [] }
    let held : List Deleg := [deleg1 1, { deleg1 1 with byLevel := 1, byLease := 1, bySub := 1, toSub := 2 }]
    let two : State := given held { base with reeve := { base.reeve with subs := base.reeve.subs ++ [other] } }
    let l2 : State := given [toLease] base
    (0x8001FFFF01020101 : Word).extractLsb' 48 15 ≠ 0 ∧ (0x8001FFFFFFFF0101 : Word).extractLsb' 48 16 = (0x8001FFFF01020101 : Word).extractLsb' 48 16 ∧
    (∀ p ∈ [1, 2], State.occOf 0x8001FFFFFFFF0101 p = 0xFFFF) ∧ State.occOf 0x8001FFFFFFFF0101 0 / 256 = 1 ∧ l2.holds (asks 2) rPriority = true ∧ (0 : Word).extractLsb' 48 16 ≠ 0x8001 ∧
    (∀ q ∈ [0, 1, 2], ∀ p ∈ List.range q, State.occOf 0x8001FFFF01020101 p ≠ 0xFFFF → State.occOf 0x8001FFFF01020101 q ≠ 0xFFFF →
      ∀ k ∈ two.occCores (State.occOf 0x8001FFFF01020101 p), k ∉ two.occCores (State.occOf 0x8001FFFF01020101 q)) ∧
    (∀ k ∈ List.range 6, (0x3F : Rights).getLsbD k = true → l2.holds (asks 2) k = true) ∧ (l2.sub? 1 1).isSome = true ∧ (l2.lease? 1).isSome = true ∧ (l2.lease? 7).isNone = true ∧
    (∃ k ∈ List.range 6, (0x3F : Rights).getLsbD k = true ∧ base.holds (asks 2) k = false) ∧ held[0].backs held[1] = true ∧
    Req.isLevel (asks 1) 2 = false ∧ Req.isLevel (asks 2) 2 = true ∧ (0x300 : Word) &&& ~~~0x700 = 0 ∧
    nextWith (exec .revoke (asked two (asks 3) (.revoke 1 1))) (fun t => t.reeve.delegs.map Deleg.revoked == [true, true]) = true ∧
    nextWith (exec .delegate (asked l2 (asks 2) (.delegate 1 1 0x3F))) (fun t => t.reeve.delegs.length == 2 && statuses t == [0]) = true ∧
    nextWith (exec .setLdm (asked base (asks 2) (.setLdm 0x300))) (fun t => (t.sub? 1 1).any (fun x => x.ldm == 0x300)) = true := by decide +kernel

/-- Level S over its own sublease with the create right: what takes nothing new, and what does. -/
theorem witness_SubleaseRequests_assign :
    let s : State := { quiet with reeve := { quiet.reeve with delegs := [deleg1 0x3F], leases := quiet.reeve.leases.map (fun l => { l with cores := [0, 1] }) } }
    let more : Assign := { assign0 with cores := [0] }
    let new : Assign := { assign0 with cores := [1] }
    let both (p : Lease → Sub → Bool) : Bool := (s.lease? 1).any (fun l => (s.sub? 1 1).any (p l))
    s.holds (asks 1) rCreate = true ∧ (asks 1).level.toNat < 2 ∧ s.assignOk 1 1 more = true ∧ both (fun l x => l.admits s 1 more && x.admits more && !s.withdraws x more) = true ∧
    both (fun l x => l.admits s 1 new && !x.admits new) = true ∧ s.assignOk 1 1 new = true ∧
    nextWith (exec .createSublease (asked s (asks 1) (.createSublease new))) (fun t => statuses t == [2]) = true ∧
    nextWith (exec .createSublease (asked s (asks 1) (.createSublease more))) (fun t => statuses t == [0] && (t.sub? 1 1).any (fun x => x.root == 0x30000)) = true := by decide +kernel

/-- The old entry of a leaf: none, one within the window, one outside; an entry that S makes invalid. -/
theorem witness_SubleaseRequests_replaces :
    let w : Who := { State.reeveWho 0 with lease := 1, sub := 1 }
    let x : Sub := { State.loadSub with window := some (0x20000000, 0x20000000) }
    let at1 (s : State) (p : Word → State → Bool) : Bool := okWith (s.slot1 w true 0x20000000 3 0x30000) (fun a => a.1 == some 0x40008 && okWith (a.2.readEntry w 0x40008) (fun b => p b.1 b.2))
    at1 quiet (fun old v => old == 0 && decide (parseEntry false 2 old = .bad) && okWith (v.reeveStore 0x40008 (leBytes 8 0x80000000200001E0)) (fun _ => true)) = true ∧
    [(0x80000000200001E0, true), (0x80000000000001E0, false)].all (fun e => at1 (withMem [(0x40008, 8, e.1)] quiet) (fun old _ => match parseEntry false 2 old with
      | .leaf l => x.window.any (fun p => decide (p.1.toNat ≤ l.addr) && decide (l.addr + 2 ^ 29 ≤ p.1.toNat + p.2.toNat)) == e.2 | _ => false)) = true ∧
    stage1Agent (asks 1) x true 0 ∧ mapEntryOk false true 0 0 = true := by
  have w : stage1Agent (asks 1) { State.loadSub with window := some (0x20000000, 0x20000000) } true 0 := ⟨rfl, .inr ⟨rfl, rfl, .inl rfl⟩⟩
  refine ⟨by decide +kernel, by decide +kernel, w, by decide⟩

/-- Occupants of the handler's own lease exchanged in a slot that it has, with one sublease and with all as the target. -/
theorem witness_SubleaseRequests_occupants :
    let s : State := (given [toLease] base).modDie 0 (fun x => { x with slots := x.slots.set 4 0x8001FFFF02020102 })
    let all : Req := { asks 2 with tSub := 0xFF }
    s.holds (asks 2) rPriority = true ∧ (asks 2).level = 2 ∧ State.occOf 0x8001FFFF02020102 2 = 0xFFFF ∧
    [0, 1, 2].all (fun p => State.occOf 0x8001FFFF02020102 p == State.occOf 0x8001FFFF02020101 p ||
      (State.occOf 0x8001FFFF02020102 p / 256 == 1 && State.occOf 0x8001FFFF02020101 p / 256 == 1 && State.occOf 0x8001FFFF02020101 p % 256 == 1)) = true ∧
    nextWith (exec .setOccupants (asked s (asks 2) (.setOccupants 0 4 0x8001FFFF02020101))) (fun t => statuses t == [0] && (t.die 0).slots[4] == 0x8001FFFF02020101) = true ∧
    nextWith (exec .setOccupants (asked s (asks 2) (.setOccupants 0 4 0x8001010102020101))) (fun t => statuses t == [2]) = true ∧
    all.tSub = 0xFF := by decide +kernel

/-- Delegation of a right that a record gives, whose record is revoked; a target that is another lease's; an error within and outside the target. -/
theorem witness_SubleaseRequests_derived :
    let own : Deleg := { deleg1 1 with byLevel := 2, byLease := 1, bySub := 0xFF }
    let s : State := given [toLease] base
    let gone : State := given [{ toLease with revoked := true }] base
    s.holder (asks 2) = true ∧ ({ toLease with revoked := true }).backs own = true ∧ (s.sub? 1 1).isSome = true ∧ (asks 2).tSub ≠ 0xFF ∧
    nextWith (exec .delegate (asked s { asks 2 with tLease := 7 } (.delegate 1 1 0))) (fun t => statuses t == [1]) = true ∧
    nextWith (exec .delegate (asked gone (asks 2) (.delegate 1 1 1))) (fun t => t.reeve.delegs.map Deleg.revoked == [true, true] && statuses t == [0]) = true ∧
    base.injectsWithin (asks 3) 0x9400000000200000 = true ∧ base.injectsWithin (asks 3) 0x9400000020000000 = false ∧
    base.injectsWithin { asks 3 with tSub := 0xFF } 0xA400000000000000 = true ∧ base.injectsWithin (asks 3) 0xA400000000000004 = false ∧
    nextWith (exec .injectError (asked base (asks 3) (.injectError 0 0x9400000020000000))) (fun t => statuses t == [2]) = true := by decide +kernel

/-- A strand whose trap awaits the answer of level S. -/
def trapped : State :=
  { base with ctx := { base.ctx with phase := .suspended, awaits := some { level := 1, nested := false, cause := 0x08, tval := 0x77 }, tpc := 0x104, status := 0x10 } }

theorem witness_DeviceRequests :
    let box (n : Nat) : BlackBox := { seq := BitVec.ofNat 64 n, time := 1, header := 2, detail := 3 }
    let b : State := { base with reeve := { base.reeve with box := [box 4, box 6], leaf := 2 ^ 20 - 1 } }
    let q : State := base.modDie 0 (fun x => { x with quarantined := [(3, 2)], selects := x.selects.set 5 0x01010000 })
    base.holds (asks 1) rCounters = false ∧ base.holds (asks 3) rCounters = true ∧ ((q.die 0).selects.toList.getD 5 0).extractLsb' 24 8 = 1 ∧
    errinjOk 0 0x9400000000200000 = true ∧ errinjOk 0 0x9400000000200001 = false ∧ (0xC400000000000000 : Word).extractLsb' 60 3 = 4 ∧ (asks 1).level ≠ 3 ∧ (asks 0).level = 0 ∧
    (0x8000000000000000 : Word).extractLsb' 60 3 = 0 ∧ base.l2Find 0 0 = none ∧ (0xA000000000000000 : Word).extractLsb' 60 3 = 2 ∧
    (0x300001 : Word).toNat % 64 ≠ 0 ∧ (0x300000 : Word).toNat % 64 = 0 ∧ 4 ≤ (4 : BitVec 5).toNat ∧ (4 : BitVec 5).toNat ≤ 16 ∧ base.mem.wf = true ∧
    (∀ i, i < 2 ^ 4 → isDram (0x300000 + BitVec.ofNat 64 (64 * i)).toNat = true ∧ base.ownedLine ((0x300000 + BitVec.ofNat 64 (64 * i)).toNat / 128) true = false) ∧
    b.reeve.box = [box 4] ++ box 6 :: [] ∧ (∀ x ∈ [box 4], x.seq.toNat < (5 : Word).toNat) ∧ (5 : Word).toNat ≤ (box 6).seq.toNat ∧ base.holder (asks 1) = false ∧ base.holder (asks 3) = true ∧
    (base.lease? 1).isSome = true ∧ b.reeve.leaf < 2 ^ 20 ∧ ((3 : Byte).toNat, (2 : BitVec 4).toNat) ∈ (q.die 0).quarantined ∧ ((3 : Byte).toNat, (1 : BitVec 4).toNat) ∉ (q.die 0).quarantined := by
  decide +kernel

/-- The current context's trap awaits an answer, with and without a vector instruction held; registers that a request reaches; breakpoints. -/
theorem witness_DeviceRequests_contexts :
    let h : State := { trapped with ctx := { trapped.ctx with status := 0, tqpos := 0x8000000000000000, held := some (waiting (.mclr 0)) } }
    let f : State := { base with ctx := { base.ctx with breaks := [1, 2, 3, 4] } }
    awaited trapped (asks 1) 0 { level := 1, nested := false, cause := 0x08, tval := 0x77 } ∧ base.targetCtx (asks 3) 5 = none ∧ trapped.ctx.resumes = none ∧
    h.ctx.inTrap = false ∧ h.ctx.resumes.isSome = true ∧ trapped.ctx.isMiller = false ∧ plotValid (rowPlot 0 1 4) = true ∧
    plotLegal (rowPlot 0 1 4) (trapped.rows trapped.ctx.core trapped.ctx.fe) = true ∧ plotLegal 0x8000000000000000 (trapped.rows trapped.ctx.core trapped.ctx.fe) = false ∧
    ((Front.image (trapped.ctx.front 0))[(199 : BitVec 8).toNat]?).isSome = true ∧
    Req.isLevel (asks 0) 1 = false ∧ Req.isLevel (asks 0) 2 = false ∧ base.ctx.active = true ∧ (7 : Word) ∉ base.ctx.breaks ∧ base.ctx.breaks.length < 4 ∧ (7 : Word) ∉ f.ctx.breaks ∧ 4 ≤ f.ctx.breaks.length := by
  unfold awaited; decide +kernel

/-- Launches for sublease 1: a record that passes, a record that cannot be read, a quota that is full. -/
theorem witness_DeviceRequests_launch :
    let l : State := withMem (asBlock 0x200080 nest1) base
    ((asks 1).level < 2 ∧ (asks 1).sub ≠ ({ asks 1 with tSub := 2 } : Req).tSub) ∧ (l.sub? 1 1).isSome = true ∧ nestOk nest1 = true ∧ nestTotal nest1 = 2 ∧
    (match l.recordAt { lease := 1, sub := 1, die := 0 } 0x40000000 with | .error (.fault _ f) => f.cause == 0x08 | _ => false) = true ∧
    okWith (l.recordAt { lease := 1, sub := 1, die := 0 } 0x200080) (fun p => p.1 == nest1 &&
      okWith (launchAddrs p.2 { lease := 1, sub := 1, die := 0 } ctx0 p.1) (fun v => !v.poolFull 0 1 1)) = true ∧ (l.modSub 1 1 (fun b => { b with quota := 0 })).poolFull 0 1 1 = true := by
  decide +kernel

theorem test_device_requests :
    nextWith (exec .resume (asked trapped (asks 1) (.resume 0))) (fun t => t.ctx.phase == .running && t.ctx.pc == 0x104 && statuses t == [0]) = true ∧
    nextWith (exec .terminate (asked trapped (asks 1) (.terminate 0))) (fun t => t.ctx.phase == .draining && t.reeve.records.any (fun k => k.level == 2)) = true ∧
    nextWith (exec .launchRequest (asked (withMem (asBlock 0x200080 nest1) base) (asks 3) (.launchRequest 0 0x200080))) (fun t => t.nests.map Nest.words == [nest1]) = true := by
  decide +kernel

theorem witness_StepKeepsMemoryForm : (base.withFetchWord 32 0x08A07FFF).mem.wf = true ∧
    nextWith (step (base.withFetchWord 32 0x08A07FFF)) (fun t => t.mem.wf && t.ctx.getX 5 == 0x7FFF) = true := by decide +kernel

end Sys2Proof.Tests
end

/-! ## The canonical form of memory under every operation

`State.MemOk` says that a state's memory is in canonical form. Memory is written by `State.putBytes` alone, which keeps the
form (`putBytes_wf`), so each operation of the model keeps it. One lemma for each operation that answers a state, under
`State.MemOk`; operations that may stop have their stops' states in the form too (`Ends`). -/

namespace Sys2Proof.Machine

/-- Memory is in canonical form. -/
def State.MemOk (s : State) : Prop := s.mem.wf = true

def Stop.MemOk : Stop → Prop
  | .trap s _ => s.MemOk
  | .wait s => s.MemOk

def AStop.MemOk : AStop → Prop
  | .fault s _ => s.MemOk
  | .wait s => s.MemOk

/-- An operation ends with a value of which P holds, or with a stop of which E holds. -/
def Ends {ε α : Type} (P : α → Prop) (E : ε → Prop) : Except ε α → Prop
  | .ok a => P a
  | .error e => E e

/-- The next state, if there is one, has memory in canonical form. -/
def Out.MemOk : Host.Outcome State Fault Refusal → Prop
  | .next t => t.MemOk
  | .fault _ | .refused _ => True

namespace Ends
variable {ε α β : Type} {P : α → Prop} {Q : β → Prop} {E : ε → Prop}

theorem ok {x : Except ε α} (h : Ends P E x) {a : α} (e : x = .ok a) : P a := by subst e; exact h

theorem error {x : Except ε α} (h : Ends P E x) {a : ε} (e : x = .error a) : E a := by subst e; exact h

theorem bind {x : Except ε α} {f : α → Except ε β} (h : Ends P E x) (k : ∀ a, P a → Ends Q E (f a)) : Ends Q E (x >>= f) := by
  cases x with
  | ok a => exact k a h
  | error e => exact h

/-- After a check whose value says nothing. -/
theorem seq {P : Unit → Prop} {x : Except ε Unit} {y : Except ε β} (h : Ends P E x) (k : Ends Q E y) : Ends Q E (x >>= fun _ => y) :=
  h.bind fun _ _ => k

theorem map {x : Except ε α} {f : α → β} (h : Ends P E x) (k : ∀ a, P a → Q (f a)) : Ends Q E (x.map f) := by
  cases x with
  | ok a => exact k a h
  | error e => exact h

theorem ite {c : Prop} {_ : Decidable c} {x y : Except ε α} (hx : Ends P E x) (hy : Ends P E y) : Ends P E (if c then x else y) := by
  split
  · exact hx
  · exact hy

/-- Two ways to a value, which goes on in one way. -/
theorem join {c : Prop} {_ : Decidable c} {x y : Except ε α} {f : α → Except ε β} (hx : Ends P E x) (hy : Ends P E y)
    (k : ∀ a, P a → Ends Q E (f a)) : Ends Q E (if c then x >>= f else y >>= f) :=
  .ite (hx.bind k) (hy.bind k)

theorem mono {R : α → Prop} {x : Except ε α} (h : Ends P E x) (k : ∀ a, P a → R a) : Ends R E x := by
  cases x with
  | ok a => exact k a h
  | error e => exact h

theorem foldE {f : α → β → Except ε α} (step : ∀ a b, P a → Ends P E (f a b)) (l : List β) : ∀ {a : α}, P a → Ends P E (foldE f a l) := by
  induction l with
  | nil => exact fun h => h
  | cons b l ih =>
    intro a h
    have hs := step a b h
    rw [Machine.foldE]
    cases hf : f a b with
    | ok a' => exact ih (hs.ok hf)
    | error e => exact hs.error hf

/-- A scalar access traps or waits in the state that the access left. -/
theorem scalarAcc {x : ARes α} (h : Ends P AStop.MemOk x) : Ends P Stop.MemOk (scalarAcc x) := by
  match x, h with
  | .ok _, h => exact h
  | .error (.fault _ _), h => exact h
  | .error (.wait _), h => exact h

end Ends

theorem KeptBy.ends {α : Type} {s : State} {r : ARes (α × State)} (k : KeptBy s r) (h : s.MemOk) : Ends (fun x => x.2.MemOk) AStop.MemOk r := by
  have of {t : State} (k : Kept s t) : t.MemOk := by rw [State.MemOk, k.mem]; exact h
  match r, k with
  | .ok (_, _), k => exact of k
  | .error (.fault _ _), k => exact of k
  | .error (.wait _), k => exact of k

namespace State.MemOk
variable {s t : State}

theorem of_eq (h : s.MemOk) (e : t.mem = s.mem) : t.MemOk := by rw [State.MemOk, e]; exact h

theorem kept (h : s.MemOk) (k : Kept s t) : t.MemOk := h.of_eq k.mem

theorem ite {c : Prop} {_ : Decidable c} (hs : s.MemOk) (ht : t.MemOk) : (if c then s else t).MemOk := by
  split
  · exact hs
  · exact ht

theorem foldl {α : Type} {f : State → α → State} (step : ∀ s a, s.MemOk → (f s a).MemOk) (l : List α) (h : s.MemOk) : (l.foldl f s).MemOk :=
  foldl_ind (P := State.MemOk) step l h

theorem post (h : s.MemOk) (i : Instr) (a : EventArg) : (s.post i a).MemOk := h

/-! ### Checks, traps and the scalar core's own state -/

theorem check (h : s.MemOk) (b : Bool) (c : Nat) (v : Word) : Ends (fun _ => True) Stop.MemOk (check b s c v) := by
  unfold Machine.check
  split
  · trivial
  · exact h

theorem legal (h : s.MemOk) (l : Legal) (rs : List XReg) : Ends (fun _ => True) Stop.MemOk (legal l rs s) :=
  (h.check _ _ _).seq (.ite h trivial)

theorem inOrder (h : s.MemOk) : Ends (fun _ => True) Stop.MemOk (inOrder s) := .ite h trivial

theorem drained (h : s.MemOk) : Ends (fun _ => True) Stop.MemOk (drained s) := .ite trivial h

theorem quiet (h : s.MemOk) : Ends (fun _ => True) Stop.MemOk (quiet s) := h.drained.seq (.ite h trivial)

theorem command (h : s.MemOk) (rs : List XReg) : Ends (fun _ => True) Stop.MemOk (command rs s) := (h.legal _ _).seq h.drained

theorem setX (h : s.MemOk) (r : XReg) (v : Word) : (s.setX r v).MemOk := h.of_eq (s.setX_mem r v)

theorem setPc (h : s.MemOk) (a : Word) : (s.setPc a).MemOk := h.of_eq (s.setPc_mem a)

theorem advance (h : s.MemOk) (n : Word) : (s.advance n).MemOk := h.of_eq (s.advance_mem n)

theorem sendX (h : s.MemOk) (d : XReg) (v : Word) : (s.sendX d v).MemOk := by unfold State.sendX; exact .ite h h

theorem takeTrap (h : s.MemOk) (x : Trap) : (s.takeTrap x).MemOk := h.of_eq (s.takeTrap_mem x)

theorem yieldTurn (h : s.MemOk) : s.yieldTurn.MemOk := h.of_eq s.yieldTurn_mem

theorem terminate (h : s.MemOk) (c : Ctx) (n : Nat) (own : Bool) (v : Word) : (s.terminate c n own v).MemOk := h.of_eq (s.terminate_mem c n own v)

theorem rotate (h : s.MemOk) : s.rotate.MemOk := by
  unfold State.rotate
  dsimp only
  split <;> exact h

theorem switchTo (h : s.MemOk) (c : CtxId) : (s.switchTo c).MemOk := by
  unfold State.switchTo
  split
  · exact h
  · split <;> exact h

theorem arrange (h : s.MemOk) (n : Nat) : (s.arrange n).MemOk := h.of_eq (s.arrange_mem n)

theorem endCtx (h : s.MemOk) (c : CtxId) : (s.endCtx c).MemOk := h.of_eq (s.endCtx_mem c)

theorem abortColls (h : s.MemOk) (p : Coll → Bool) : (s.abortColls p).MemOk := h.of_eq (s.abortColls_mem p)

theorem callWake (h : s.MemOk) (d : BitVec 2) : (s.callWake d).MemOk := by unfold State.callWake; exact .ite h h

theorem acquire (h : s.MemOk) (sc : Option Scope) : (s.acquire sc).MemOk := h.of_eq (s.acquire_mem sc)

theorem release (h : s.MemOk) (sc : Option Scope) : Ends State.MemOk Stop.MemOk (release sc s) := by
  unfold Machine.release
  split
  · exact h
  · exact .ite h (State.MemOk.ite h h)

theorem countCtx (h : s.MemOk) (e n : Nat) : (s.countCtx e n).MemOk := h.kept (kept_countCtx s e n)

theorem count (h : s.MemOk) (core : Nat) (f : Bool) (e n : Nat) : (s.count core f e n).MemOk := h.kept (kept_count s core f e n)

theorem countDie (h : s.MemOk) (d : BitVec 2) (l b : Byte) (e n : Nat) : (s.countDie d l b e n).MemOk := h.kept (kept_countDie s d l b e n)

theorem consume (h : s.MemOk) (bad : Bool) : (s.consume bad).MemOk := by
  unfold State.consume
  exact .ite (countCtx (by exact h) _ _) h

end State.MemOk

theorem Out.MemOk.ite {c : Prop} {_ : Decidable c} {x y : Host.Outcome State Fault Refusal} (hx : Out.MemOk x) (hy : Out.MemOk y) :
    Out.MemOk (if c then x else y) := by
  split
  · exact hx
  · exact hy

theorem Ends.settle {r : Res State} (h : Ends State.MemOk Stop.MemOk r) : Out.MemOk (settle r) := by
  match r, h with
  | .ok _, h => exact h
  | .error (.trap _ _), h => exact State.MemOk.takeTrap h _
  | .error (.wait _), h => exact State.MemOk.yieldTurn h

/-! ### Accesses -/

namespace State.MemOk
variable {s t : State}

theorem touch (h : s.MemOk) (w : Who) (p : Path) (line : Nat) (write whole : Bool) (keep : Keep) : (s.touch w p line write whole keep).MemOk :=
  h.kept (kept_touch s w p line write whole keep)

theorem writeBack (h : s.MemOk) (w : Who) (line : Nat) : (s.writeBack w line).MemOk := h.kept (kept_writeBack s w line)

theorem detectLine (h : s.MemOk) (w : Who) (line : Nat) : Ends State.MemOk State.MemOk (s.detectLine w line) := by
  cases e : s.detectLine w line with
  | ok t => exact h.kept (kept_detectLine (.inl e))
  | error t => exact h.kept (kept_detectLine (.inr e))

theorem detectLines (h : s.MemOk) (w : Who) (ls : List Nat) : Ends State.MemOk State.MemOk (s.detectLines w ls) :=
  Ends.foldE (fun _ l h => detectLine h w l) ls h

theorem translate (h : s.MemOk) (w : Who) (k : Acc) (va : Word) (test : Tlb → Option Nat) :
    Ends (fun x => x.2.MemOk) AStop.MemOk (s.translate w k va test) := (kept_translate s w k va test).ends h

theorem checked (h : s.MemOk) (w : Who) (c : Ctx) (a : Agent) (k : Acc) (sc : Scope) (al : Nat) (va : Word) (n : Nat) :
    Ends (fun x => x.2.MemOk) AStop.MemOk (s.checked w c a k sc al va n) := (kept_checked s w c a k sc al va n).ends h

theorem reach (h : s.MemOk) (a : Agent) (k : Acc) (sc : Scope) (va : Word) (n : Nat) :
    Ends (fun x => x.2.MemOk) AStop.MemOk (s.reach a k sc va n) := (kept_reach s a k sc va n).ends h

theorem access (h : s.MemOk) (a : Agent) (k : Acc) (sc : Scope) (va : Word) (n : Nat) (keep : Keep) :
    Ends (fun x => x.2.MemOk) AStop.MemOk (s.access a k sc va n keep) :=
  (h.reach a k sc va n).bind fun _ ht => ht.touch _ _ _ _ _ _

theorem readAt (h : s.MemOk) (a : Agent) (pa n : Nat) : (s.readAt a pa n).2.MemOk := h.kept (kept_readAt s a pa n)

theorem load (h : s.MemOk) (a : Agent) (va : Word) (n : Nat) (keep : Keep) :
    Ends (fun x => x.2.MemOk) AStop.MemOk (s.load a va n keep) :=
  (h.access a .load .strand va n keep).bind fun _ ht => .ite ht (readAt ht _ _ _)

theorem putBytes (h : s.MemOk) (w : Option CtxId) (pa : Nat) (bs : List Byte) : (s.putBytes w pa bs).MemOk := putBytes_wf h w pa bs

theorem writePieces (h : s.MemOk) (w : Option CtxId) (ps : List (Nat × Nat)) (bs : List Byte) : (s.writePieces w ps bs).MemOk :=
  writePieces_wf w ps bs h

theorem putAt (h : s.MemOk) (a : Agent) (pa n v : Nat) : Ends State.MemOk AStop.MemOk (s.putAt a pa n v) := by
  unfold State.putAt
  split
  · exact .ite h h
  · exact putBytes h _ _ _

theorem store (h : s.MemOk) (a : Agent) (va : Word) (n v : Nat) : Ends State.MemOk AStop.MemOk (s.store a va n v) :=
  (h.access a .store .strand va n .normal).bind fun _ ht => putAt ht _ _ _ _

theorem atomic (h : s.MemOk) (a : Agent) (sc : Scope) (va : Word) (n : Nat) (f : Nat → Option Nat) :
    Ends (fun x => x.2.2.MemOk) AStop.MemOk (s.atomic a sc va n f) := by
  refine (h.access a .atomic sc va n .normal).bind fun ⟨r, t⟩ ht => ?_
  dsimp only
  have hr : (if t.poisonedAt r.pa n = true then (0, t) else t.readAt a r.pa n).2.MemOk := by
    split
    · exact ht
    · exact readAt ht _ _ _
  split
  · exact hr
  · exact ((hr.touch _ _ _ _ _ _).putAt _ _ _ _).bind fun _ hu => State.MemOk.ite hu hu

theorem rangeCheckBy (h : s.MemOk) (w : Who) (c : Ctx) (a : Agent) (k : Acc) (va : Word) (n : Nat) :
    Ends (fun x => x.2.MemOk) AStop.MemOk (s.rangeCheckBy w c a k va n) := by
  unfold State.rangeCheckBy
  refine Ends.foldE (P := fun x : List (Nat × Nat) × State => x.2.MemOk) (fun _ _ ht => ?_) _ h
  exact (translate ht _ _ _ _).bind fun _ hu => hu

theorem rangeCheck (h : s.MemOk) (a : Agent) (k : Acc) (va : Word) (n : Nat) : Ends (fun x => x.2.MemOk) AStop.MemOk (s.rangeCheck a k va n) :=
  h.rangeCheckBy _ _ _ _ _ _

theorem unitCheck (h : s.MemOk) (w : Who) (k : Acc) (sc : Scope) (al : Nat) (va : Word) (n : Nat) :
    Ends (fun x => x.2.MemOk) AStop.MemOk (s.unitCheck w k sc al va n) :=
  (h.checked _ _ _ _ _ _ _ _).bind fun _ ht => ht

theorem ordinaryCheck (h : s.MemOk) (w : Who) (k : Acc) (sc : Option Scope) (al : Nat) (va : Word) :
    Ends (fun x => x.2.MemOk) AStop.MemOk (s.ordinaryCheck w k sc al va) :=
  .ite h ((h.translate _ _ _ _).bind fun _ ht => ht)

/-! ### Scalar instructions -/

theorem alu2 (h : s.MemOk) (f : Word → Word → Word) (d a b : XReg) : Ends State.MemOk Stop.MemOk (alu2 f d a b s) :=
  (h.legal _ _).seq ((h.setX _ _).advance _)

theorem alu1 (h : s.MemOk) (f : Word → Word) (d a : XReg) : Ends State.MemOk Stop.MemOk (alu1 f d a s) :=
  (h.legal _ _).seq ((h.setX _ _).advance _)

theorem loadX (h : s.MemOk) (x : Ext) (n : Nat) (d : XReg) (va : Word) : Ends State.MemOk Stop.MemOk (loadX x n d va s) :=
  (h.load _ _ _ _).scalarAcc.bind fun _ ht => ((consume ht _).setX _ _).advance _

theorem ldOp {k : Nat} (h : s.MemOk) (x : Ext) (n : Nat) (q : Option Scope) (d a : XReg) (o : BitVec k) :
    Ends State.MemOk Stop.MemOk (ldOp x n q d a o s) :=
  (h.legal _ _).seq (h.inOrder.seq ((h.loadX _ _ _ _).bind fun _ ht => acquire ht q))

theorem stOp {k : Nat} (h : s.MemOk) (n : Nat) (q : Option Scope) (d a : XReg) (o : BitVec k) : Ends State.MemOk Stop.MemOk (stOp n q d a o s) :=
  (h.legal _ _).seq (h.drained.seq ((h.release q).bind fun _ ht => (store ht _ _ _ _).scalarAcc.bind fun _ hu => advance hu _))

theorem amo8 (h : s.MemOk) (op : AmoOp) (d a b : XReg) (r : AOrd) (sc : Scope) : Ends State.MemOk Stop.MemOk (amo8 op d a b r sc s) :=
  (h.legal _ _).seq (h.drained.seq ((h.release _).bind fun _ ht => (atomic ht _ _ _ _ _).scalarAcc.bind fun _ hu =>
    (((consume hu _).setX _ _).advance _).acquire _))

theorem cas8 (h : s.MemOk) (d a b : XReg) (r : AOrd) (sc : Scope) : Ends State.MemOk Stop.MemOk (cas8 d a b r sc s) :=
  (h.legal _ _).seq (h.drained.seq ((h.release _).bind fun _ ht => (atomic ht _ _ _ _ _).scalarAcc.bind fun _ hu =>
    (((consume hu _).setX _ _).advance _).acquire _))

theorem fpDeliver (h : s.MemOk) (d : XReg) (r : FRes) : Ends State.MemOk Stop.MemOk (fpDeliver d r s) := by
  unfold Machine.fpDeliver
  split
  · exact h
  · exact (setX (by exact h) _ _).advance _

end State.MemOk
end Sys2Proof.Machine

namespace Sys2Proof.Machine

/-! ### Control, maintenance and system instructions -/

namespace State.MemOk
variable {s : State}

theorem branch (h : s.MemOk) (taken : Word → Word → Bool) (a b : XReg) (o : BitVec 16) : Ends State.MemOk Stop.MemOk (branch taken a b o s) :=
  (h.legal _ _).seq (State.MemOk.ite (h.setPc _) (h.advance _))

theorem maskBranch (h : s.MemOk) (taken : BitVec 4096 → BitVec 4096 → Bool) (m : MReg) (o : BitVec 16) :
    Ends State.MemOk Stop.MemOk (maskBranch taken m o s) :=
  (h.legal _ _).seq (h.drained.seq (State.MemOk.ite (h.setPc _) (h.advance _)))

theorem execJal (h : s.MemOk) (d : XReg) (o : BitVec 21) : Out.MemOk (execJal d o s) :=
  Ends.settle ((h.legal _ _).seq ((h.setX _ _).setPc _))

theorem execJalr (h : s.MemOk) (d a : XReg) (i : BitVec 16) : Out.MemOk (execJalr d a i s) :=
  Ends.settle ((h.legal _ _).seq ((h.check _ _ _).seq ((h.setX _ _).setPc _)))

theorem execFence (h : s.MemOk) (sc : Scope) (a b : XReg) : Out.MemOk (execFence sc a b s) :=
  Ends.settle ((h.legal _ _).seq (h.drained.seq (.ite (h.advance _) ((h.release _).bind fun _ ht => (acquire ht _).advance _))))

theorem execIfence (h : s.MemOk) : Out.MemOk (execIfence s) := Ends.settle ((h.legal _ _).seq (h.advance _))

theorem cacheLine (h : s.MemOk) (k : Acc) (va : Word) : Ends (fun x => x.2.MemOk) Stop.MemOk (s.cacheLine k va) := by
  unfold State.cacheLine
  have ht := h.translate s.ctx.who k va (fun e => if e.cls = 0 then none else some 0x0D)
  split
  · exact h
  · split
    · next e => exact ht.ok e
    · next e => exact ht.error e
    · next e => exact ht.error e

theorem l2Clean (h : s.MemOk) (w : Who) (line : Nat) : (s.l2Clean w line).MemOk := by
  unfold State.l2Clean
  dsimp only
  split
  · exact h
  · split
    · exact h.kept (((kept_dramWrite s _).trans (kept_dramBytes _ _ _ _ _)).trans (kept_l2Mod _ _ _ _))
    · exact h

theorem cacheop (h : s.MemOk) (k : Acc) (fetch : Bool) {act : State → Who → Nat → State} (keeps : ∀ s w l, s.MemOk → (act s w l).MemOk) (a b : XReg) :
    Ends State.MemOk Stop.MemOk (cacheop k fetch act a b s) := by
  refine (h.legal _ _).seq (h.drained.seq ((h.check _ _ _).seq (Ends.bind (Ends.foldE (fun s va hs => ?_) _ h) fun _ ht => advance ht _)))
  refine (cacheLine hs k va).bind fun ⟨l, t⟩ ht => ?_
  dsimp only at ht ⊢
  cases l with
  | none => exact ht
  | some l =>
    have hd := ht.detectLine t.ctx.who l
    dsimp only
    split
    · exact .ite ht ht
    · split
      · next e => exact .ite (hd.error e) (hd.error e)
      · next e => exact keeps _ _ _ (hd.ok e)

theorem stashFlush (h : s.MemOk) (w : Who) (m : StashMap) : (s.stashFlush w m).MemOk := foldl (fun _ _ h => writeBack h _ _) _ h

theorem unfillMaps (h : s.MemOk) (w : Who) (n : Nat) (f : Bool) (p : StashMap → Bool) : (s.unfillMaps w n f p).MemOk :=
  foldl (fun _ _ h => stashFlush h _ _) _ h

theorem unfill (h : s.MemOk) (l : Byte) (b : Option Byte) (p : Tlb → Bool) : (s.unfill l b p).MemOk :=
  foldl (fun _ _ h => unfillMaps h _ _ _ _) _ h

theorem dropTlb (h : s.MemOk) (l : Byte) (b : Option Byte) (p : Tlb → Bool) : (s.dropTlb l b p).MemOk :=
  unfill (by exact h) _ _ _

theorem tlbinv1 (h : s.MemOk) (b : XReg) (regs : List XReg) (p : Tlb → Bool) : Ends State.MemOk Stop.MemOk (tlbinv1 b regs p s) :=
  (h.legal _ _).seq ((h.check _ _ _).seq (h.drained.seq ((h.check _ _ _).seq (.ite h ((h.dropTlb _ _ _).advance _)))))

theorem tlbinv2 (h : s.MemOk) (b : XReg) (regs : List XReg) (p : Tlb → Bool) : Ends State.MemOk Stop.MemOk (tlbinv2 b regs p s) :=
  (h.legal _ _).seq ((h.check _ _ _).seq (h.drained.seq ((h.check _ _ _).seq (.ite h ((h.dropTlb _ _ _).advance _)))))

theorem modMyFe (h : s.MemOk) (g : FrontEnd → FrontEnd) : (s.modMyFe g).MemOk := h

theorem execStashmap (h : s.MemOk) (d a b : XReg) : Out.MemOk (execStashmap d a b s) :=
  Ends.settle ((h.legal _ _).seq (h.drained.seq ((h.check _ _ _).seq ((h.check _ _ _).seq ((h.check _ _ _).seq ((h.check _ _ _).seq
    ((h.check _ _ _).seq ((h.check _ _ _).seq ((h.check _ _ _).seq ((h.check _ _ _).seq ((h.modMyFe _).advance _)))))))))))

theorem execStashunmap (h : s.MemOk) (a : XReg) : Out.MemOk (execStashunmap a s) := by
  refine Ends.settle ((h.legal _ _).seq (h.drained.seq ?_))
  dsimp only
  split
  · exact h
  · exact .ite h (((h.stashFlush _ _).modMyFe _).advance _)

theorem execSyscall (h : s.MemOk) : Out.MemOk (execSyscall s) := Ends.settle ((h.legal _ _).seq (h.drained.seq h))

theorem unpass (h : s.MemOk) : s.unpass.MemOk := h

theorem execWaitev (h : s.MemOk) (d a b : XReg) : Out.MemOk (execWaitev d a b s) :=
  Ends.settle ((h.legal _ _).seq (h.drained.seq ((h.access _ _ _ _ _ _).scalarAcc.bind fun _ ht =>
    (advance (by exact consume ht _) _).unpass)))

theorem execYield (h : s.MemOk) : Out.MemOk (execYield s) :=
  Ends.settle ((h.legal _ _).seq (h.drained.seq (State.MemOk.ite (h.advance _) (h.advance _))))

theorem addRecord (h : s.MemOk) (l : BitVec 2) (a b : Byte) (w : List Word) : (s.addRecord l a b w).MemOk := h

theorem execExit (h : s.MemOk) : Out.MemOk (execExit s) := by
  refine Ends.settle ((h.legal _ _).seq (h.quiet.seq (endCtx (unpass ?_) _)))
  split
  · exact h
  · exact h.addRecord _ _ _ _

theorem execVrelease (h : s.MemOk) : Out.MemOk (execVrelease s) :=
  Ends.settle ((h.legal _ _).seq (h.quiet.seq (arrange (by exact h.advance 4) _)))

theorem execChkerr (h : s.MemOk) (d : XReg) : Out.MemOk (execChkerr d s) :=
  Ends.settle ((h.legal _ _).seq (h.drained.seq (.ite h ((setX (by exact h) _ _).advance _))))

theorem wakeCtx (h : s.MemOk) (c : CtxId) (r : Word) : (s.wakeCtx c r).MemOk := h

theorem execWaitevWake (h : s.MemOk) : Out.MemOk (execWaitevWake s) := by
  unfold Machine.execWaitevWake
  split
  · split
    · exact State.MemOk.ite (h.wakeCtx _ _) h
    · exact h
  · exact h

theorem execWaitevTimeout (h : s.MemOk) : Out.MemOk (execWaitevTimeout s) := by
  unfold Machine.execWaitevTimeout
  split
  · split
    · exact State.MemOk.ite (h.wakeCtx _ _) h
    · exact h
  · exact h

/-! ### Fetching, time and lane threads -/

theorem parcelAt (h : s.MemOk) (a : Word) : Ends (fun x => x.2.MemOk) AStop.MemOk (s.parcelAt a) := by
  refine (h.checked _ _ _ _ _ _ _ _).bind fun ⟨e, t⟩ ht => ?_
  have hd := detectLine ht s.ctx.who (e.phys a / 128)
  dsimp only
  split
  · exact ht
  · split
    · next e => exact hd.error e
    · next e => exact touch (hd.ok e) _ _ _ _ _ _

end State.MemOk

/-- Whatever a fetch answers, it leaves memory in canonical form. -/
def Fetched.MemOk : Fetched → Prop
  | .trap s _ _ => s.MemOk
  | .poison s => s.MemOk
  | .wait s => s.MemOk
  | .word s _ _ => s.MemOk

namespace State.MemOk
variable {s : State}

theorem fetchAt (h : s.MemOk) (pc : Word) : (s.fetchAt pc).MemOk := by
  unfold State.fetchAt
  have h1 := h.parcelAt pc
  split
  · next e => exact h1.error e
  · next e => exact h1.error e
  · next p1 t e =>
    have ht : t.MemOk := h1.ok e
    have h2 := ht.parcelAt (pc + 4)
    split
    · exact ht
    · dsimp only
      split
      · exact ht
      · split
        · next e => exact h2.error e
        · next e => exact h2.error e
        · next p2 u e =>
          have hu : u.MemOk := h2.ok e
          split
          · exact hu
          · exact hu

theorem fetch (h : s.MemOk) : s.fetch.MemOk := by
  unfold State.fetch
  split
  · exact h
  · split
    · exact h
    · exact h.fetchAt _

theorem tick (h : s.MemOk) (n : Nat) : (s.tick n).MemOk := by
  refine foldl (fun _ _ h => ?_) _ (foldl (by intro s a h; exact h) _ ?_)
  · exact .ite h h
  · exact h

theorem cycles (h : s.MemOk) (n : Nat) : (s.cycles n).MemOk :=
  foldl (fun _ _ h => count h _ _ _ _) _ (foldl (by intro s a h; exact h) _ h)

/-! ### Error injection -/

theorem injected (h : s.MemOk) (d : BitVec 2) (v : Word) (o : Option (Byte × Byte)) : (s.injected d v o).MemOk := h

theorem corrected (h : s.MemOk) (d : BitVec 2) : (s.corrected d).MemOk := h.countDie _ _ _ _ _

theorem performInjection (h : s.MemOk) (d : BitVec 2) : (s.performInjection d).MemOk := by
  have hc := h.corrected d
  unfold State.performInjection
  dsimp only
  split
  · exact h
  · split
    · split
      · exact h
      · refine injected ?_ _ _ _
        split
        · exact h
        · exact hc
    · refine injected ?_ _ _ _
      split
      · exact h
      · exact hc
    · exact h
    · refine injected ?_ _ _ _
      split
      · exact h.post _ _
      · exact hc
    · refine injected ?_ _ _ _
      split
      · exact hc
      · exact h.post _ _

theorem laneInjected (h : s.MemOk) (core : Nat) : (s.laneInjected core).MemOk := by
  unfold State.laneInjected
  refine injected ?_ _ _ _
  split
  · exact h.countCtx _ _
  · exact h

theorem modDie (h : s.MemOk) (d : BitVec 2) (f : Die → Die) : (s.modDie d f).MemOk := h

theorem setErrinj (h : s.MemOk) (d : BitVec 2) (v : Word) : (s.setErrinj d v).MemOk := by
  unfold State.setErrinj
  dsimp only
  split
  · exact h
  · exact performInjection (by exact h) _

/-! ### Engine commands and pots -/

theorem readBlock (h : s.MemOk) (va : Word) (n : Nat) : Ends (fun x => x.2.MemOk) Stop.MemOk (readBlock s va n) := by
  unfold Machine.readBlock
  refine Ends.foldE (P := fun x : List Word × State => x.2.MemOk) (fun _ _ ht => ?_) _ h
  exact (load ht _ _ _ _).scalarAcc.bind fun _ hu => consume hu _

theorem execTdesc (h : s.MemOk) (a : XReg) (k : BitVec 4) : Out.MemOk (execTdesc a k s) :=
  Ends.settle ((h.command _).seq ((h.check _ _ _).seq ((h.readBlock _ _).bind fun _ ht => (check ht _ _ _).seq (advance (by exact ht) _))))

theorem checkChunks (h : s.MemOk) (k : EngKind) : Ends (fun x => x.2.2.MemOk) AStop.MemOk (s.checkChunks k) := by
  have all (kind : Acc) (rs : List (Word × Nat)) {t : State} (ht : t.MemOk) : Ends (fun x : List (Nat × Nat) × State => x.2.MemOk) AStop.MemOk
      (foldE (fun st r => st.2.rangeCheck .engine kind r.1 r.2 >>= fun x => .ok (st.1 ++ x.1, x.2)) ([], t) rs) :=
    Ends.foldE (P := fun x : List (Nat × Nat) × State => x.2.MemOk)
      (by intro _ _ hu; exact (rangeCheck hu _ _ _ _).bind fun _ hv => hv) _ ht
  exact (all .load _ h).bind fun _ ht => (all .store _ ht).bind fun _ hu => hu

theorem addMarks (h : s.MemOk) (ps : List (Nat × Nat)) (marks : List Bool) : (s.addMarks ps marks).MemOk := by
  unfold State.addMarks
  exact .ite h h

theorem moveBytes (h : s.MemOk) (src dst : List (Nat × Nat)) : (s.moveBytes src dst).MemOk := (h.writePieces _ _ _).addMarks _ _

theorem touchOp (h : s.MemOk) (o : EngineOp) : (s.touchOp o).MemOk :=
  foldl (fun _ _ h => touch h _ _ _ _ _ _) _ (foldl (fun _ _ h => touch h _ _ _ _ _ _) _ h)

theorem issueOp (h : s.MemOk) (o : EngineOp) : (s.issueOp o).MemOk := by
  unfold State.issueOp
  dsimp only
  have hd := h.detectLines o.who (o.holds ++ o.owns)
  split
  · exact h
  · split
    · next e => exact (hd.error e).post _ _
    · next e => exact .ite ((touchOp (hd.ok e) _).moveBytes _ _) ((touchOp (hd.ok e) _).moveBytes _ _)

theorem giveEngine (h : s.MemOk) (k : EngKind) : Ends State.MemOk Stop.MemOk (s.giveEngine k) :=
  (h.checkChunks k).scalarAcc.bind fun _ ht => .ite h (issueOp (by exact ht) _)

theorem execEngineIssuePoint (h : s.MemOk) : Out.MemOk (execEngineIssuePoint s) := by
  unfold Machine.execEngineIssuePoint
  split
  · exact State.MemOk.ite h (h.issueOp _)
  · exact h

theorem execEngineRetire (h : s.MemOk) : Out.MemOk (execEngineRetire s) := by
  unfold Machine.execEngineRetire
  split
  · split <;> exact h
  · exact h

theorem execCpy (h : s.MemOk) (d a b : XReg) : Out.MemOk (execCpy d a b s) :=
  Ends.settle ((h.command _).seq ((h.check _ _ _).seq (.ite (h.advance _) ((h.giveEngine _).bind fun _ ht => advance ht _))))

theorem cpyWalk (h : s.MemOk) (k : BitVec 4) (ix b : XReg) (mk : List Word → Nat → Nat → EngKind) :
    Ends State.MemOk Stop.MemOk (cpyWalk k ix b mk s) := by
  unfold Machine.cpyWalk
  refine .ite (h.advance _) ?_
  split
  · exact h
  · exact (h.check _ _ _).seq ((h.giveEngine _).bind fun _ ht => advance ht _)

theorem execCpyDsrc (h : s.MemOk) (d a b : XReg) (k : BitVec 4) : Out.MemOk (execCpyDsrc d a b k s) :=
  Ends.settle ((h.command _).seq (h.cpyWalk _ _ _ _))

theorem execCpyDdst (h : s.MemOk) (d a b : XReg) (k : BitVec 4) : Out.MemOk (execCpyDdst d a b k s) :=
  Ends.settle ((h.command _).seq (h.cpyWalk _ _ _ _))

theorem fabricClean (h : s.MemOk) (d : BitVec 2) : (s.fabricClean d).MemOk := h.kept (kept_fabricClean s d)

theorem fabricDrop (h : s.MemOk) (d : BitVec 2) : (s.fabricDrop d).MemOk := h.kept (kept_fabricDrop s d)

theorem execCpydrain (h : s.MemOk) (sc : Scope) : Out.MemOk (execCpydrain sc s) :=
  Ends.settle ((h.command _).seq (.ite h ((acquire (.ite (h.fabricClean _) h) _).advance _)))

theorem potCheck (h : s.MemOk) (w : Who) (sc : Option Scope) (pot : Word) : Ends (fun x => x.2.MemOk) AStop.MemOk (s.potCheck w sc pot) :=
  h.ordinaryCheck _ _ _ _ _

theorem potReach (h : s.MemOk) (w : Who) (pa : Nat) (owned : Bool) : Ends State.MemOk State.MemOk (s.potReach w pa owned) :=
  .ite h ((h.detectLine _ _).map fun _ ht => touch ht _ _ _ _ _ _)

theorem potWord (h : s.MemOk) (pa : Nat) (first : Bool) : (s.potWord pa first).2.MemOk := by
  unfold State.potWord
  split <;> exact h

theorem enginePoison (h : s.MemOk) (c : CtxId) (bad : Bool) : (s.enginePoison c bad).MemOk := .ite h h

theorem potPut (h : s.MemOk) (pa count : Nat) : (s.potPut pa count).MemOk := ((h.potWord _ _).potWord _ _).putBytes _ _ _

theorem potAddAt (h : s.MemOk) (c : CtxId) (pa count : Nat) : (s.potAddAt c pa count).MemOk := (h.potPut _ _).enginePoison _ _

theorem potAbortAt (h : s.MemOk) (pa : Nat) : (s.potAbortAt pa).MemOk := h.putBytes _ _ _

theorem execPotinit (h : s.MemOk) (a b : XReg) : Out.MemOk (execPotinit a b s) :=
  Ends.settle ((h.command _).seq ((h.potCheck _ _ _).scalarAcc.bind fun _ ht => (check ht _ _ _).seq
    ((access ht _ _ _ _ _ _).scalarAcc.bind fun _ hu => (putBytes hu _ _ _).advance _)))

theorem execPotadd (h : s.MemOk) (sc : Scope) (a b : XReg) : Out.MemOk (execPotadd sc a b s) := by
  refine Ends.settle ((h.command _).seq ((h.potCheck _ _ _).scalarAcc.bind fun _ ht => (check ht _ _ _).seq
    ((release ht _).bind fun _ hu => (reach hu _ _ _ _ _).scalarAcc.bind fun ⟨r, v⟩ hv => ?_)))
  have hp := potReach hv v.ctx.who r.pa (v.ownedLine (r.pa / 128) true)
  dsimp only
  split
  · next e => exact hp.error e
  · next e => exact (potAddAt (hp.ok e) _ _ _).advance _

theorem execPotwait (h : s.MemOk) (sc : Scope) (d a : XReg) : Out.MemOk (execPotwait sc d a s) :=
  Ends.settle ((h.command _).seq ((h.potCheck _ _ _).scalarAcc.bind fun _ ht => (access ht _ _ _ _ _ _).scalarAcc.bind fun _ hu =>
    .ite ht ((((enginePoison (potWord (potWord hu _ _) _ _) _ _).setX _ _).advance _).acquire _)))

theorem execPotAddition (h : s.MemOk) : Out.MemOk (execPotAddition s) := by
  unfold Machine.execPotAddition
  split
  · next p _ =>
    dsimp only
    have hc := h.potCheck { lease := p.lease, sub := p.sub, die := p.die } (some p.scope) p.pot
    split
    · next e => exact hc.error e
    · next e => exact hc.error e
    · next pa t e =>
      have ht : t.MemOk := hc.ok e
      have hp := ht.potReach { lease := p.lease, sub := p.sub, die := p.die } pa (t.ownedLine (pa / 128) true)
      dsimp only [Out.MemOk]
      split
      · next e => exact (hp.error e).post _ _
      · next e => exact potAddAt (hp.ok e) _ _ _
  · exact h

theorem execMcast (h : s.MemOk) (d a n : XReg) : Out.MemOk (execMcast d a n s) := by
  refine Ends.settle ((h.command _).seq ((h.check _ _ _).seq (.join (P := State.MemOk) h ?_ fun _ ht => ?_)))
  · exact (h.potCheck _ _ _).scalarAcc.map fun _ ht => ht
  · exact (giveEngine ht _).bind fun _ hu => advance hu _

theorem execMcastArrival (h : s.MemOk) : Out.MemOk (execMcastArrival s) := by
  unfold Machine.execMcastArrival
  split
  · exact h
  · split
    · dsimp only
      split
      · next e => exact ((h.detectLines _ _).error e).post _ _
      · next e =>
        have ht := (h.detectLines _ _).ok e
        dsimp only [Out.MemOk]
        generalize hu : List.foldl _ _ _ = u
        have hu : u.MemOk := hu ▸ foldl (by intro s p h; exact touch h _ _ _ _ _ _) _ ht
        exact .ite (post (by exact .ite hu (hu.post _ _)) _ _) (post (by exact .ite hu (hu.post _ _)) _ _)
    · exact h

end State.MemOk
end Sys2Proof.Machine

namespace Sys2Proof.Machine

/-! ### Collectives -/

namespace State.MemOk
variable {s : State}

theorem fresh (h : s.MemOk) : s.fresh.2.MemOk := h

theorem modColl (h : s.MemOk) (id : Nat) (f : Coll → Coll) : (s.modColl id f).MemOk := h

theorem deliver (h : s.MemOk) (p : CollPeer) : (s.deliver p).MemOk := h

theorem tellPartners (h : s.MemOk) (c : Coll) (data : List Word) : (s.tellPartners c data).MemOk :=
  foldl (by intro s p h; exact h) _ h

theorem pairUpColls (h : s.MemOk) (c : Coll) : (s.pairUpColls c).MemOk := by
  unfold State.pairUpColls
  dsimp only
  generalize hu : List.foldl _ s _ = u
  have hu : u.MemOk := by
    rw [← hu]
    refine foldl (fun t p ht => ?_) _ h
    split
    · exact ht
    · split
      · exact ht
      · exact ht
  split
  · exact hu
  · refine foldl (fun t p ht => ?_) _ (hu.tellPartners _ _)
    split
    · exact ht
    · exact ht

theorem collAddrs (h : s.MemOk) (b : List Word) : Ends (fun x => x.2.MemOk) AStop.MemOk (collAddrs s b) := by
  refine (h.rangeCheck _ _ _ _).bind fun _ ht => .join (P := State.MemOk) ht ?_ fun _ hu =>
    .join (P := fun x : List (Nat × Nat) × State => x.2.MemOk) ?_ hu fun _ hv => .join (P := State.MemOk) hv ?_ fun _ hw => hw
  · exact (rangeCheck ht _ _ _ _).map fun _ hu => hu
  · exact rangeCheck hu _ _ _ _
  · exact (potCheck hv _ _ _).map fun _ hw => hw

theorem execColl (h : s.MemOk) (d a : XReg) : Out.MemOk (execColl d a s) := by
  refine Ends.settle ((h.command _).seq ?_)
  split
  · exact h
  · refine (h.check _ _ _).seq ((h.readBlock _ _).bind fun _ ht => (check ht _ _ _).seq ((readBlock ht _ _).bind fun _ hu => (check hu _ _ _).seq ?_))
    dsimp only
    split
    · exact (check hu _ _ _).seq ((collAddrs hu _).scalarAcc.bind fun _ hv => (setX (by exact pairUpColls (by exact hv) _) _ _).advance _)
    · exact (collAddrs hu _).scalarAcc.bind fun _ hv => (setX (by exact pairUpColls (by exact hv) _) _ _).advance _

theorem forgetColl (h : s.MemOk) (c : Coll) : (s.forgetColl c).MemOk := .ite h h

theorem execCollwait (h : s.MemOk) (d a : XReg) : Out.MemOk (execCollwait d a s) := by
  refine Ends.settle ((h.command _).seq ?_)
  dsimp only
  split
  · exact h
  · split
    · exact ((setX (by exact h.forgetColl _) _ _).advance _).acquire _
    · exact h

theorem endColl (h : s.MemOk) (c : Coll) (status : Nat) : (s.endColl c status).MemOk := by
  unfold State.endColl
  dsimp only
  split
  · exact h
  · split
    · exact h
    · exact forgetColl (by exact h) _

theorem writeResult (h : s.MemOk) (c : Coll) (ps : List (Nat × Nat)) (pick : Nat → Bool) : (s.writeResult c ps pick).MemOk :=
  (h.writePieces _ _ _).addMarks _ _

theorem writeResidual (h : s.MemOk) (c : Coll) (ps : List (Nat × Nat)) (pick : Nat → Bool) : (s.writeResidual c ps pick).MemOk :=
  (h.writePieces _ _ _).addMarks _ _

theorem collRange (h : s.MemOk) (c : Coll) (va : Word) (n : Nat) : Ends (fun x => x.2.MemOk) AStop.MemOk (s.collRange c va n) :=
  h.rangeCheckBy _ _ _ _ _ _

theorem collRanges (h : s.MemOk) (c : Coll) : Ends (fun x => x.2.2.MemOk) AStop.MemOk (s.collRanges c) := by
  refine (h.collRange _ _ _).bind fun _ ht => .join (P := fun x : List (Nat × Nat) × State => x.2.MemOk) ?_ ht fun _ hu => hu
  exact collRange ht _ _ _

theorem abortData (h : s.MemOk) (c : Coll) : (s.abortData c).MemOk := by
  unfold State.abortData
  split
  · dsimp only
    generalize hs' : ({ s with freeCtr := _ } : State) = s'
    have h' : s'.MemOk := by rw [← hs']; exact h
    have hr := h'.collRange c (cBuf c.block) (cCount c.block * cZ c.block)
    generalize s'.collRange c (cBuf c.block) (cCount c.block * cZ c.block) = r at hr ⊢
    have resid {t : State} (ht : t.MemOk) (va : Word) (n : Nat) (pick : Nat → Bool) (u : State)
        (hu : u = match t.collRange c va n with | .error _ => t | .ok (rs, s) => s.writeResidual c rs pick) : u.MemOk := by
      have hc := ht.collRange c va n
      rw [hu]
      split
      · exact ht
      · next e => exact writeResidual (hc.ok e) _ _ _
    cases r with
    | error e => exact .ite (resid h' _ _ _ _ rfl) h'
    | ok x => exact .ite (resid (writeResult hr _ _ _) _ _ _ _ rfl) (writeResult hr _ _ _)
  · exact h

theorem urnRecord (h : s.MemOk) (c : Coll) (f : XFault) (code : Nat) : (s.urnRecord c f code).MemOk := h

theorem failColl (h : s.MemOk) (c : Coll) (status : Nat) : Ends State.MemOk State.MemOk (s.failColl c status) := by
  unfold State.failColl
  split
  · exact (h.abortData _).endColl _ _
  · have hp := h.potCheck c.who (some .system) (cPot c.block)
    split
    · next t f e =>
      have ht : t.MemOk := hp.error e
      exact ((ht.urnRecord _ _ _).abortData _).endColl _ _
    · next e => exact hp.error e
    · next e => exact (potReach (hp.ok e) _ _ _).map fun _ ht => ((abortData ht _).potAbortAt _).endColl _ _

theorem abortPartners (h : s.MemOk) (c : Coll) : (s.abortPartners c).MemOk := foldl (by intro s p h; exact h) _ h

theorem execCollectiveAbort (h : s.MemOk) : Out.MemOk (execCollectiveAbort s) := by
  unfold Machine.execCollectiveAbort
  split
  · exact h
  · next c _ =>
    have hf := h.failColl c 1
    split
    · exact h
    · split
      · next e => exact abortPartners (hf.ok e) _
      · next e => exact (hf.error e).post _ _
    · split
      · next e => exact abortPartners (hf.ok e) _
      · next e => exact (hf.error e).post _ _

theorem urnFail (h : s.MemOk) (c : Coll) (f : XFault) (code : Nat) {again : State → State} (keeps : ∀ s, s.MemOk → (again s).MemOk) :
    (s.urnFail c f code again).MemOk := by
  unfold State.urnFail
  have hf := h.failColl c 1
  split
  · next t e => exact abortPartners (urnRecord (hf.ok e) _ _ _) _
  · next e => exact keeps _ (hf.error e)

theorem startColl (h : s.MemOk) (c : Coll) : (s.startColl c).MemOk := by
  unfold State.startColl
  dsimp only
  have hr := h.collRanges c
  split
  · exact h
  · split
    · next e => exact urnFail (hr.error e) _ _ _ fun _ h => h.post _ _
    · next e => exact (hr.error e).post _ _
    · next ps rs t e =>
      have ht : t.MemOk := hr.ok e
      have hd := ht.detectLines c.who (pieceLines (ps ++ rs))
      split
      · exact ht
      · split
        · next e => exact (hd.error e).post _ _
        · next u e =>
          have hu := foldl (f := fun s l => s.touch c.who .l2 l true false .no) (fun _ _ h => touch h _ _ _ _ _ _) (pieceLines (ps ++ rs)) (hd.ok e)
          exact (tellPartners (modColl (by exact .ite hu hu) _ _) _ _).post _ _

theorem execCollectiveStart (h : s.MemOk) : Out.MemOk (execCollectiveStart s) := by
  unfold Machine.execCollectiveStart
  split
  · exact h
  · next c _ =>
    dsimp only
    have hf := h.failColl c 2
    have hc := h.checked c.who ((s.collOwner c).getD ctx0) .engine .load .strand 8 (cSignal c.block) 8
    split
    · exact h
    · exact h
    · split
      · exact (h.callWake _).post _ _
      · split
        · exact h
        · split
          · dsimp only [Out.MemOk]
            split
            · next e => exact hf.ok e
            · next e => exact (hf.error e).post _ _
          · split
            · exact h
            · split
              · exact h.startColl c
              · split
                · next e => exact urnFail (hc.error e) _ _ _ fun _ h => h.post _ _
                · next e => exact (hc.error e).post _ _
                · next x t e =>
                  have ht : t.MemOk := hc.ok e
                  have hd := ht.detectLine c.who (x.phys (cSignal c.block) / 128)
                  split
                  · exact ht
                  · split
                    · next e => exact (hd.error e).post _ _
                    · next e =>
                      have hu := touch (hd.ok e) c.who .l2 (x.phys (cSignal c.block) / 128) false false .no
                      exact .ite (hu.post _ _) ((hu.fabricDrop _).startColl c)

theorem payColl (h : s.MemOk) (c : Coll) : Ends State.MemOk State.MemOk (s.payColl c) := by
  unfold State.payColl
  have hp := h.potCheck c.who (some .system) (cPot c.block)
  split
  · exact h
  · split
    · next t f e =>
      have ht : t.MemOk := hp.error e
      exact ht.urnRecord _ _ _
    · next e => exact hp.error e
    · next e => exact (potReach (hp.ok e) _ _ _).map fun _ ht => (fabricClean ht _).potAddAt _ _ _

theorem execCollectiveEnd (h : s.MemOk) : Out.MemOk (execCollectiveEnd s) := by
  unfold Machine.execCollectiveEnd
  split
  · exact h
  · next c _ =>
    dsimp only
    have hr := h.collRanges c
    split
    · exact h
    · exact h
    · split
      · exact h
      · split
        · next e => exact urnFail (hr.error e) _ _ _ fun _ h => h.post _ _
        · next e => exact (hr.error e).post _ _
        · next ps rs t e =>
          have ht : t.MemOk := hr.ok e
          have hd := ht.detectLines c.who (pieceLines (ps ++ rs))
          split
          · next e => exact (hd.error e).post _ _
          · next u e =>
            have hw := writeResult (hd.ok e) c ps fun _ => true
            split
            · exact (hd.ok e :)
            · next e =>
              refine endColl ((payColl (countDie ?_ _ _ _ _ _) c).ok e) _ _
              exact .ite (hw.writeResidual _ _ _) hw

end State.MemOk
end Sys2Proof.Machine

namespace Sys2Proof.Machine

/-! ### Managed references -/

def HealFault.MemOk : HealFault → Prop
  | .operand s _ => s.MemOk
  | .unread s _ _ => s.MemOk
  | .wait s => s.MemOk

/-- A barrier that cannot heal traps or waits in the state that it has left. -/
theorem Ends.healed {α : Type} {P : α → Prop} {x : HealRes α} (h : Ends P HealFault.MemOk x) : Ends P Stop.MemOk (healed x) := by
  match x, h with
  | .ok _, h => exact h
  | .error (.operand _ _), h => exact h
  | .error (.unread _ _ _), h => exact h
  | .error (.wait _), h => exact h

namespace State.MemOk
variable {s : State}

theorem modCore (h : s.MemOk) (n : Nat) (f : Core → Core) : (s.modCore n f).MemOk := h

theorem descWord (h : s.MemOk) (w : Who) (core : Option (Nat × Bool)) (va tval : Word) :
    Ends (fun x => x.2.MemOk) HealFault.MemOk (s.descWord w core va tval) := by
  unfold State.descWord
  have hc := h.checked w s.ctx .walker .load .strand 8 va 8
  split
  · next e => exact hc.error e
  · next e => exact hc.error e
  · next x t e =>
    have ht : t.MemOk := hc.ok e
    have hd := ht.detectLine w (x.phys va / 128)
    dsimp only
    split
    · next e => exact hd.error e
    · next e => exact .ite (touch (hd.ok e) _ _ _ _ _ _) (touch (hd.ok e) _ _ _ _ _ _)

theorem parcelBit (h : s.MemOk) (w : Who) (core : Option (Nat × Bool)) (k : Nat) (va : Word) :
    Ends (fun x => x.2.MemOk) HealFault.MemOk (s.parcelBit w core k va) :=
  .ite h ((h.descWord _ _ _ _).bind fun _ ht => ht)

theorem probe (w : Who) (core : Option (Nat × Bool)) (region table hdr : Word) (n fuel : Nat) :
    ∀ {s : State} (i : Nat), s.MemOk → Ends (fun x => x.2.MemOk) HealFault.MemOk (s.probe w core region table hdr n fuel i) := by
  induction fuel with
  | zero => exact fun _ h => h
  | succ fuel ih =>
    intro s i h
    rw [State.probe]
    exact (h.descWord _ _ _ _).bind fun _ ht => .ite ht (.ite ((descWord ht _ _ _ _).bind fun _ hu => hu) (ih _ ht))

theorem countHere (h : s.MemOk) (core : Option (Nat × Bool)) (e : Nat) :
    (match core with | some (n, f) => s.count n f e 1 | none => s).MemOk := by
  split
  · exact h.count _ _ _ _
  · exact h

theorem lookup (h : s.MemOk) (w : Who) (core : Option (Nat × Bool)) (phase : Nat) (hdr : Word) :
    Ends (fun x => x.2.MemOk) HealFault.MemOk (s.lookup w core phase hdr) := by
  unfold State.lookup
  dsimp only
  split
  · exact h
  · refine (descWord (h.countHere core 0x0A) _ _ _ _).bind fun _ ht => (probe _ _ _ _ _ _ _ _ ht).bind fun ⟨r, u⟩ hu => ?_
    dsimp only
    split
    · exact hu
    · exact hu

theorem bitmapWord (h : s.MemOk) (w : Who) (core : Option (Nat × Bool)) (va : Word) :
    Ends (fun x => x.2.MemOk) HealFault.MemOk (s.bitmapWord w core va) := by
  unfold State.bitmapWord
  have hc := h.translate w .load va (fun _ => none)
  split
  · next e => exact hc.error e
  · next e => exact hc.error e
  · next x t e =>
    have ht : t.MemOk := hc.ok e
    have hd := ht.detectLine w (x.phys va / 128)
    dsimp only
    split
    · next e => exact hd.error e
    · next e => exact touch (hd.ok e) _ _ _ _ _ _

theorem bitBelow (w : Who) (core : Option (Nat × Bool)) (bitmap : Word) (gran k : Nat) :
    ∀ {s : State} (met : List XFault), s.MemOk → Ends (fun x => x.2.2.MemOk) HealFault.MemOk (s.bitBelow w core bitmap gran met k) := by
  induction k with
  | zero => exact fun _ h => h
  | succ k ih =>
    intro s met h
    rw [State.bitBelow]
    refine (h.bitmapWord _ _ _).bind fun ⟨v, t⟩ ht => ?_
    dsimp only
    split
    · exact ih _ ht
    · split
      · exact ht
      · exact ih _ ht

/-- Words of a descriptor are read one after another from a state that a barrier has reached. -/
theorem foldHeal {α β : Type} {f : HealRes (α × State) → β → HealRes (α × State)}
    (step : ∀ r b, Ends (fun x => x.2.MemOk) HealFault.MemOk r → Ends (fun x => x.2.MemOk) HealFault.MemOk (f r b)) (l : List β)
    {r : HealRes (α × State)} (h : Ends (fun x => x.2.MemOk) HealFault.MemOk r) : Ends (fun x => x.2.MemOk) HealFault.MemOk (l.foldl f r) :=
  foldl_ind (P := Ends (fun x : α × State => x.2.MemOk) HealFault.MemOk) step l h

theorem headerSearch (h : s.MemOk) (w : Who) (core : Option (Nat × Bool)) (va : Word) :
    Ends (fun x => x.2.2.MemOk) HealFault.MemOk (s.headerSearch w core va) := by
  unfold State.headerSearch
  dsimp only
  split
  · exact h
  · refine Ends.bind (foldHeal (α := Nat) (fun r k hr => ?_) _ (by exact h)) fun _ ht => (bitBelow _ _ _ _ _ _ ht).bind fun _ hu => hu
    exact hr.bind fun _ ht => (parcelBit ht _ _ _ _).bind fun _ hu => hu

theorem headerBelow (h : s.MemOk) (w : Who) (core : Option (Nat × Bool)) (va : Word) :
    Ends (fun x => x.2.MemOk) HealFault.MemOk (s.headerBelow w core va) :=
  (h.headerSearch _ _ _).bind fun _ ht => ht

theorem healRef (h : s.MemOk) (w : Who) (core : Option (Nat × Bool)) (r : Word) :
    Ends (fun x => x.2.MemOk) HealFault.MemOk (s.healRef w core r) := by
  refine .ite h (.ite h ((h.descWord _ _ _ _).bind fun ⟨d0, t⟩ ht => ?_))
  dsimp only
  generalize hu : (if refPhase r = bits d0 63 62 then t else _) = u
  have hu : u.MemOk := by rw [← hu]; exact .ite ht (countHere ht core 0x09)
  refine .ite hu (.ite hu (.join (P := fun x : Bool × State => x.2.MemOk) (parcelBit hu _ _ _ _) hu fun _ hv => .ite hv
    (.join (P := fun x : Option Word × State => x.2.MemOk) hv (headerBelow hv _ _ _) fun ⟨hdr, w⟩ hw => ?_)))
  dsimp only
  split
  · exact hw
  · refine (lookup hw _ _ _ _).bind fun ⟨hit, y⟩ hy => ?_
    dsimp only
    split
    · exact hy
    · exact hy

theorem headOf (h : s.MemOk) (w : Who) (core : Option (Nat × Bool)) (hdr w0 : Word) :
    Ends (fun x => x.2.MemOk) HealFault.MemOk (s.headOf w core hdr w0) :=
  .ite h ((h.descWord _ _ _ _).bind fun _ ht => .ite ht ((descWord ht _ _ _ _).bind fun _ hu => hu))

theorem hval (h : s.MemOk) (r : HReg) : Ends (fun x => x.2.MemOk) Stop.MemOk (hval r s) := (h.healRef _ _ _).healed

theorem setH (h : s.MemOk) (r : HReg) (v : Word) : (s.setH r v).MemOk := h

theorem refBase (h : s.MemOk) (r : HReg) : Ends (fun x => x.2.MemOk) Stop.MemOk (refBase r s) :=
  (h.hval _).bind fun _ ht => (check (setH ht _ _) _ _ _).seq ((check (setH ht _ _) _ _ _).seq ht)

theorem refAdmits (h : s.MemOk) (k : Acc) (sc : Scope) (va : Word) : Ends (fun x => x.2.MemOk) Stop.MemOk (refAdmits k sc va s) :=
  (h.check _ _ _).seq (h.translate _ _ _ _).scalarAcc

theorem refHead (h : s.MemOk) (hdr : Word) : Ends (fun x => x.2.2.MemOk) Stop.MemOk (refHead hdr s) :=
  (h.load _ _ _ _).scalarAcc.bind fun _ ht => (headOf (consume ht _) _ _ _ _).healed.bind fun _ hu => hu

theorem notCopying (h : s.MemOk) (store : Bool) (w0 : Word) (hd : Option Head) : Ends (fun _ => True) Stop.MemOk (notCopying store w0 hd s) :=
  .ite h trivial

theorem refReach (h : s.MemOk) (r : HReg) (off : Word) (k : Acc) (sc : Scope) (isRef : Bool) :
    Ends (fun x => x.2.2.MemOk) Stop.MemOk (refReach r off k sc isRef s) := by
  refine (h.refBase _).bind fun _ ht => (check ht _ _ _).seq ((refAdmits ht _ _ _).bind fun _ hu => (refAdmits hu _ _ _).bind fun _ hv =>
    (refHead hv _).bind fun ⟨w0, hd, w⟩ hw => ?_)
  dsimp only
  split
  · exact hw
  · exact (check hw _ _ _).seq ((notCopying hw _ _ _).seq hw)

theorem refStorable (h : s.MemOk) (field v : Word) : Ends State.MemOk Stop.MemOk (refStorable field v s) := by
  refine (h.check _ _ _).seq (.ite h (Ends.bind (foldHeal (α := Bool) (fun r k hr => ?_) _ (by exact h)).healed fun _ ht => (check ht _ _ _).seq ht))
  exact hr.bind fun _ ht => (descWord ht _ _ _ _).bind fun _ hu => hu

theorem hldOp {k : Nat} (h : s.MemOk) (q : Option Scope) (d a : HReg) (o : BitVec k) : Ends State.MemOk Stop.MemOk (hldOp q d a o s) := by
  refine (h.legal _ _).seq (h.drained.seq ((h.refReach _ _ _ _ _).bind fun _ ht => (load ht _ _ _ _).scalarAcc.bind fun ⟨v, u⟩ hu => ?_))
  dsimp only
  split
  · exact (advance (by exact setH (consume hu _) _ _) _).acquire _
  · refine (check hu _ _ _).seq ((healRef hu _ _ _).healed.bind fun _ hv => .ite ((atomic hv _ _ _ _ _).scalarAcc.bind fun _ hw => ?_) ?_)
    · exact (advance (by exact setH hw _ _) _).acquire _
    · exact (advance (by exact setH hv _ _) _).acquire _

theorem hstOp {k : Nat} (h : s.MemOk) (q : Option Scope) (b a : HReg) (o : BitVec k) : Ends State.MemOk Stop.MemOk (hstOp q b a o s) :=
  (h.legal _ _).seq (h.drained.seq ((h.release _).bind fun _ ht => (refReach ht _ _ _ _ _).bind fun _ hu => (hval hu _).bind fun _ hv =>
    (refStorable hv _ _).bind fun _ hw => (store hw _ _ _ _).scalarAcc.bind fun _ hx => (setH hx _ _).advance _))

theorem hldwOp {k : Nat} (h : s.MemOk) (q : Option Scope) (d : XReg) (a : HReg) (o : BitVec k) : Ends State.MemOk Stop.MemOk (hldwOp q d a o s) :=
  (h.legal _ _).seq (h.drained.seq ((h.refReach _ _ _ _ _).bind fun _ ht => (load ht _ _ _ _).scalarAcc.bind fun _ hu =>
    (((consume hu _).setX _ _).advance _).acquire _))

theorem hstwOp {k : Nat} (h : s.MemOk) (q : Option Scope) (d : XReg) (a : HReg) (o : BitVec k) : Ends State.MemOk Stop.MemOk (hstwOp q d a o s) :=
  (h.legal _ _).seq (h.drained.seq ((h.release _).bind fun _ ht => (refReach ht _ _ _ _ _).bind fun _ hu =>
    (store hu _ _ _ _).scalarAcc.bind fun _ hv => advance hv _))

theorem execHcas (h : s.MemOk) (d a : HReg) (b : XReg) (c : BitVec 4) (r : AOrd) (sc : Scope) : Out.MemOk (execHcas d a b c r sc s) :=
  Ends.settle ((h.legal _ _).seq (h.drained.seq ((h.release _).bind fun _ ht => (refReach ht _ _ _ _ _).bind fun _ hu => (hval hu _).bind fun _ hv =>
    (hval hv _).bind fun _ hw => (load hw _ _ _ _).scalarAcc.bind fun _ hx => (check hx _ _ _).seq ((refStorable hx _ _).bind fun _ hy =>
    (healRef hy _ _ _).healed.bind fun _ hz => (atomic hz _ _ _ _ _).scalarAcc.bind fun _ hs =>
    (advance (setH (setH (consume hs _) _ _) _ _) _).acquire _))))

theorem execHcasw (h : s.MemOk) (d : XReg) (a : HReg) (b : XReg) (c : BitVec 4) (r : AOrd) (sc : Scope) : Out.MemOk (execHcasw d a b c r sc s) :=
  Ends.settle ((h.legal _ _).seq (h.drained.seq ((h.release _).bind fun _ ht => (refReach ht _ _ _ _ _).bind fun _ hu =>
    (atomic hu _ _ _ _ _).scalarAcc.bind fun _ hv => (((consume hv _).setX _ _).advance _).acquire _)))

theorem execHcmp (h : s.MemOk) (d : XReg) (a b : HReg) : Out.MemOk (execHcmp d a b s) :=
  Ends.settle ((h.legal _ _).seq (h.drained.seq ((h.hval _).bind fun _ ht => (hval (setH ht _ _) _).bind fun _ hu =>
    ((setH hu _ _).setX _ _).advance _)))

theorem refPinned (h : s.MemOk) (a : HReg) (pin : Bool) : Ends (fun x => x.2.2.2.MemOk) Stop.MemOk (refPinned a pin s) := by
  refine (h.refBase _).bind fun _ ht => (refAdmits ht _ _ _).bind fun _ hu => (refHead hu _).bind fun ⟨w0, hd, w⟩ hw => ?_
  dsimp only
  split
  · exact hw
  · exact (notCopying hw _ _ _).seq hw

theorem execHpin (h : s.MemOk) (d : XReg) (a : HReg) : Out.MemOk (execHpin d a s) :=
  Ends.settle ((h.legal _ _).seq (h.drained.seq ((h.refPinned _ _).bind fun _ ht => (check ht _ _ _).seq
    ((atomic ht _ _ _ _ _).scalarAcc.bind fun _ hu => (setX (by exact hu) _ _).advance _))))

theorem execHunpin (h : s.MemOk) (a : HReg) : Out.MemOk (execHunpin a s) := by
  refine Ends.settle ((h.legal _ _).seq (h.drained.seq ((h.release _).bind fun _ ht => (refPinned ht _ _).bind fun ⟨hdr, w0, hd, u⟩ hu => ?_)))
  dsimp only
  split
  · exact hu
  · exact (atomic hu _ _ _ _ _).scalarAcc.bind fun _ hv => advance (by exact hv) _

theorem execHmake (h : s.MemOk) (d : HReg) (a : XReg) : Out.MemOk (execHmake d a s) :=
  Ends.settle ((h.legal _ _).seq (h.drained.seq ((h.check _ _ _).seq ((h.refAdmits _ _ _).bind fun _ ht => (refHead ht _).bind fun _ hu =>
    (check hu _ _ _).seq ((descWord hu _ _ _ _).healed.bind fun _ hv => Ends.bind (Ends.healed (.ite (parcelBit hv _ _ _ _) hv)) fun _ hw =>
    (setH hw _ _).advance _)))))

theorem execHmakeI (h : s.MemOk) (d a : HReg) (b : XReg) : Out.MemOk (execHmakeI d a b s) := by
  refine Ends.settle ((h.legal _ _).seq (h.drained.seq ((h.refBase _).bind fun _ ht => (refAdmits ht _ _ _).bind fun _ hu =>
    (refHead hu _).bind fun ⟨w0, hd, w⟩ hw => ?_)))
  dsimp only
  split
  · exact hw
  · exact (check hw _ _ _).seq ((setH hw _ _).advance _)

end State.MemOk
end Sys2Proof.Machine

namespace Sys2Proof.Machine

/-! ### Relocation -/

def GStop.MemOk : GStop → Prop
  | .fail s _ _ => s.MemOk
  | .wait s => s.MemOk

/-- A cycle's access fails or waits in the state that the access left. -/
theorem Ends.gleanAcc {α : Type} {P : α → Prop} {x : ARes α} (code : Nat) (h : Ends P AStop.MemOk x) : Ends P GStop.MemOk (gleanAcc code x) := by
  match x, h with
  | .ok _, h => exact h
  | .error (.fault _ _), h => exact h
  | .error (.wait _), h => exact h

/-- A failure that is recorded leaves its state. -/
theorem Ends.recordFail {r : GRes State} (g : Glean) (h : Ends State.MemOk GStop.MemOk r) : Ends State.MemOk GStop.MemOk (recordFail g r) := by
  match r, h with
  | .ok _, h => exact h
  | .error (.fail _ _ _), h => exact h
  | .error (.wait _), h => exact h

namespace State.MemOk
variable {s : State}

theorem modGlean (h : s.MemOk) (id : Nat) (f : Glean → Glean) : (s.modGlean id f).MemOk := h

theorem undone (h : s.MemOk) (t : State) : (s.undone t).MemOk := h

theorem gleanRecord (h : s.MemOk) (g : Glean) (f : XFault) (code : Nat) : (s.gleanRecord g f code).MemOk := h.addRecord _ _ _ _

theorem gleanLine (h : s.MemOk) (g : Glean) (line : Nat) (write whole : Bool) : Ends State.MemOk GStop.MemOk (s.gleanLine g line write whole) := by
  unfold State.gleanLine
  have hd := h.detectLine g.who line
  split
  · exact h
  · split
    · next e => exact hd.error e
    · next e => exact touch (hd.ok e) _ _ _ _ _ _

theorem gleanLoad (h : s.MemOk) (g : Glean) (va : Word) (code : Nat) : Ends (fun x => x.2.MemOk) GStop.MemOk (s.gleanLoad g va code) :=
  ((h.unitCheck _ _ _ _ _ _).gleanAcc _).bind fun _ ht => (gleanLine ht _ _ _ _).bind fun _ hu => .ite hu hu

theorem gleanStore (h : s.MemOk) (g : Glean) (k : Acc) (va v : Word) (code : Nat) : Ends State.MemOk GStop.MemOk (s.gleanStore g k va v code) :=
  ((h.unitCheck _ _ _ _ _ _).gleanAcc _).bind fun _ ht => (gleanLine ht _ _ _ _).bind fun _ hu => putBytes hu _ _ _

theorem gleanRange (h : s.MemOk) (g : Glean) (k : Acc) (va : Word) (n code : Nat) :
    Ends (fun x => x.2.MemOk) GStop.MemOk (s.gleanRange g k va n code) :=
  ((h.rangeCheckBy _ _ _ _ _ _).gleanAcc _).bind fun _ ht => (Ends.foldE (fun _ _ hu => gleanLine hu _ _ _ _) _ ht).bind fun _ hu => hu

end State.MemOk

/-- An object that finds no place, or one, leaves memory in canonical form. -/
def State.optMemOk (o : Option State) : Prop := ∀ s ∈ o, s.MemOk

namespace State.MemOk
variable {s : State}

theorem installAt (g : Glean) (table hdr ref : Word) (n fuel : Nat) :
    ∀ {s : State} (i : Nat), s.MemOk → Ends State.optMemOk GStop.MemOk (installAt s g table hdr ref n fuel i) := by
  induction fuel with
  | zero => exact fun _ h => fun _ h => by cases h
  | succ fuel ih =>
    intro s i h
    rw [Machine.installAt]
    refine (h.gleanLoad _ _ _).bind fun _ ht => .ite (ih _ ht) ((gleanStore ht _ _ _ _ _).bind fun _ hu => (gleanStore hu _ _ _ _ _).bind fun v hv => ?_)
    exact fun _ e => by cases e; exact hv

theorem installFwd (h : s.MemOk) (g : Glean) (hdr target : Word) : Ends State.optMemOk GStop.MemOk (installFwd s g hdr target) :=
  (h.gleanLoad _ _ _).bind fun _ ht => (gleanLoad ht _ _ _).bind fun _ hu => installAt _ _ _ _ _ _ _ hu

theorem addBadObject (h : s.MemOk) (g : Glean) : Ends State.MemOk GStop.MemOk (addBadObject s g) :=
  (h.gleanLoad _ _ _).bind fun _ ht => gleanStore ht _ _ _ _ _

theorem keepObject (h : s.MemOk) (g : Glean) (hdr : Word) : Ends (fun x => x.1.MemOk) State.MemOk (keepObject s g hdr) := by
  unfold Machine.keepObject
  dsimp only
  have hi := h.installFwd { g with inPlace := parcelOf hdr :: g.inPlace } hdr hdr
  split
  · next e => exact gleanRecord (hi.error e) _ _ _
  · next e => exact hi.error e
  · exact h
  · next e => exact hi.ok e _ rfl

theorem failObject (h : s.MemOk) (g : Glean) (hdr : Word) (f : XFault) (code : Nat) :
    Ends (fun x => x.1.MemOk) State.MemOk (failObject s g hdr f code) :=
  .ite (h.gleanRecord _ _ _) ((h.gleanRecord _ _ _).keepObject _ _)

end State.MemOk

/-- What may fail for an object goes on as the object does. -/
theorem Ends.orFail {α : Type} {P : α → Prop} {r : GRes α} {k : α → GObj} (g : Glean) (hdr : Word) (h : Ends P GStop.MemOk r)
    (next : ∀ a, P a → Ends (fun x => x.1.MemOk) State.MemOk (k a)) : Ends (fun x => x.1.MemOk) State.MemOk (orFail g hdr r k) := by
  match r, h with
  | .ok a, h => exact next a h
  | .error (.fail _ _ _), h => exact State.MemOk.failObject h _ _ _ _
  | .error (.wait _), h => exact h

namespace State.MemOk
variable {s : State}

theorem moveObject (h : s.MemOk) (g : Glean) (hdr w0 : Word) (n : Nat) : Ends (fun x => x.1.MemOk) State.MemOk (moveObject s g hdr w0 n) := by
  unfold Machine.moveObject
  split
  · exact h.keepObject _ _
  · next ps off _ =>
    refine (h.gleanRange _ _ _ _ _).orFail _ _ fun ⟨src, t⟩ ht => ?_
    have hr := gleanRange ht g .store (g.base + word (ps.headD 0 * 2 ^ 21 + off)) n 1
    dsimp only
    split
    · exact failObject ht _ _ _ _
    · split
      · next e => exact hr.error e
      · next e => exact failObject (hr.error e) _ _ _ _
      · next e =>
        have hw := writePieces (hr.ok e) none
        refine (installFwd (hw _ _) _ _ _).orFail _ _ fun done hd => ?_
        cases done with
        | none => exact hw _ _
        | some u => exact (gleanStore (hd u rfl) _ _ _ _ _).orFail _ _ fun _ hv => countDie hv _ _ _ _ _

theorem copyObject (h : s.MemOk) (g : Glean) (hdr : Word) : Ends (fun x => x.1.MemOk) State.MemOk (copyObject s g hdr) := by
  refine (h.gleanLoad _ _ _).orFail _ _ fun ⟨w0, t⟩ ht => ?_
  have hh := headOf ht g.who none hdr w0
  dsimp only
  split
  · next e => exact hh.error e
  · next e => exact failObject (hh.error e) _ _ _ _
  · next e => exact failObject (hh.error e) _ _ _ _
  · next e => exact (addBadObject (hh.ok e) _).orFail _ _ fun _ hu => keepObject hu _ _
  · next e => exact .ite (keepObject (hh.ok e) _ _) (((unitCheck (hh.ok e) _ _ _ _ _ _).gleanAcc _).orFail _ _ fun _ hu => moveObject hu _ _ _ _)

theorem execGleanerObjectCopy (h : s.MemOk) : Out.MemOk (execGleanerObjectCopy s) := by
  unfold Machine.execGleanerObjectCopy
  split
  · exact h
  · next g _ =>
    split
    · next hdr rest _ _ =>
      have hc := h.copyObject { g with todo := rest } hdr
      split
      · exact h.post _ _
      · split
        · exact (h.undone _).post _ _
        · next e => exact State.MemOk.ite ((modGlean (hc.ok e) _ _).post _ _) ((modGlean (hc.ok e) _ _).post _ _)
    · exact h

theorem searchRecorded (h : s.MemOk) (g : Glean) (r : Word) :
    (match searchFaults s g r with | .ok (fs, _) => fs.foldl (fun (s : State) f => s.gleanRecord g f 2) s | .error _ => s).MemOk := by
  split
  · exact foldl (fun _ _ h => gleanRecord h _ _ _) _ h
  · exact h

theorem gleanHeal (h : s.MemOk) (g : Glean) (r : Word) : Ends (fun x => x.2.MemOk) GStop.MemOk (gleanHeal s g r) := by
  unfold Machine.gleanHeal
  have hr := (h.searchRecorded g r).healRef g.who none r
  split
  · exact h
  · dsimp only
    split
    · next e => exact hr.ok e
    · next e => exact hr.error e
    · next e => exact gleanRecord (hr.error e) _ _ _
    · next e => exact hr.error e

theorem fixField (h : s.MemOk) (g : Glean) (va : Word) : Ends State.MemOk GStop.MemOk (fixField s g va) :=
  (h.gleanLoad _ _ _).bind fun _ ht => (gleanHeal ht _ _).bind fun _ hu => .ite hu ((gleanStore hu _ _ _ _ _).recordFail _)

theorem fixParcel (g : Glean) (base : Word) (fuel : Nat) :
    ∀ {s : State} (off : Nat), s.MemOk → Ends State.MemOk GStop.MemOk (fixParcel s g base fuel off) := by
  induction fuel with
  | zero => exact fun _ h => h
  | succ fuel ih =>
    intro s off h
    rw [Machine.fixParcel]
    refine .ite h ((h.gleanLoad _ _ _).bind fun ⟨w0, t⟩ ht => .ite ht ?_)
    have hh := headOf ht g.who none (base + word off) w0
    dsimp only
    split
    · next e => exact hh.error e
    · next e => exact hh.error e
    · next e => exact hh.error e
    · next e => exact addBadObject (hh.ok e) _
    · next e => exact (Ends.foldE (fun _ _ hu => fixField hu _ _) _ (hh.ok e)).bind fun _ hu => ih _ hu

theorem descWords (h : s.MemOk) (g : Glean) (k n : Nat) : Ends (fun x => x.2.MemOk) GStop.MemOk (descWords s g k n) := by
  unfold Machine.descWords
  refine Ends.foldE (P := fun x : List Word × State => x.2.MemOk) (fun _ _ ht => ?_) _ h
  exact (gleanLoad ht _ _ _).bind fun _ hu => hu

theorem scanParcels (h : s.MemOk) (g : Glean) : Ends (fun x => x.2.MemOk) GStop.MemOk (scanParcels s g) :=
  (h.descWords _ _ _).bind fun _ ht => (descWords ht _ _ _).bind fun _ hu => hu

theorem healCtx (h : s.MemOk) (g : Glean) (k : Ctx) : Ends State.MemOk GStop.MemOk (healCtx s g k) := by
  refine Ends.bind (Ends.foldE (P := fun x : Vector Word 16 × State => x.2.MemOk) (fun _ _ ht => ?_) _ (by exact h)) fun _ ht => ht
  exact (gleanHeal ht _ _).bind fun _ hu => hu

theorem execGleanerCycle (h : s.MemOk) : Out.MemOk (execGleanerCycle s) := by
  unfold Machine.execGleanerCycle
  split
  · exact h
  · next g _ =>
    dsimp only
    split
    · exact h.post _ _
    · split
      · exact h
      · have hs := h.scanParcels g
        split
        · exact h.post _ _
        · split
          · exact (h.undone _).post _ _
          · next e => exact ((gleanRecord (hs.error e) _ _ _).modGlean _ _).post _ _
          · next e => exact (modGlean (hs.ok e) _ _).post _ _
      · split
        · exact (h.modGlean _ _).post _ _
        · next p rest _ =>
          have hf := (fixParcel g p (2 ^ 17) 0 h).recordFail g
          split
          · exact (h.undone _).post _ _
          · exact (h.undone _).post _ _
          · next e => exact (modGlean (hf.ok e) _ _).post _ _
      · have hf := Ends.foldE (f := fun s k => Machine.healCtx s g k) (fun _ k ht => healCtx ht g k) (s.ctxs.filter g.healsCtx) h
        split
        · exact (h.undone _).post _ _
        · exact (h.undone _).post _ _
        · next e =>
          have ht := hf.ok e
          exact .ite ht (ht.modGlean _ _)

theorem commandWord (h : s.MemOk) (va : Word) : Ends (fun x => x.2.MemOk) Stop.MemOk (commandWord s va) := by
  refine (h.checked _ _ _ _ _ _ _ _).scalarAcc.bind fun ⟨e, t⟩ ht => .ite ht ?_
  have hd := detectLine ht s.ctx.who (e.phys va / 128)
  split
  · next e => exact hd.error e
  · next e => exact consume (touch (hd.ok e) _ _ _ _ _ _) _

theorem commandWords (h : s.MemOk) (va : Word) (n : Nat) : Ends (fun x => x.2.MemOk) Stop.MemOk (commandWords s va n) := by
  unfold Machine.commandWords
  refine Ends.foldE (P := fun x : List Word × State => x.2.MemOk) (fun _ _ ht => ?_) _ h
  exact (commandWord ht _).bind fun _ hu => hu

theorem readable (h : s.MemOk) (va : Word) (n : Nat) : Ends (fun x => x.2.MemOk) AStop.MemOk (readable s va n) := by
  unfold Machine.readable
  refine Ends.foldE (P := fun x : Bool × State => x.2.MemOk) (fun ⟨b, t⟩ p ht => ?_) _ h
  have hr := translate ht s.ctx.who .load p.1 (fun _ => none)
  dsimp only
  split
  · next e => exact hr.ok e
  · next e => exact hr.error e
  · next e => exact hr.error e

theorem execHglean (h : s.MemOk) (d a b : XReg) : Out.MemOk (execHglean d a b s) := by
  refine Ends.settle ((h.command _).seq ((h.check _ _ _).seq ((h.check _ _ _).seq ((h.commandWords _ _).bind fun ⟨ws, t⟩ ht =>
    .ite ((setX ht _ _).advance _) ((readable ht _ _).scalarAcc.bind fun ⟨_, u⟩ hu => (readable hu _ _).scalarAcc.bind fun ⟨_, v⟩ hv =>
    (check hv _ _ _).seq ((rangeCheck hv _ _ _ _).scalarAcc.bind fun ⟨ps, w⟩ hw => .ite hw ?_))))))
  have hd := detectLines hw w.ctx.who (pieceLines ps)
  dsimp only
  split
  · next e => exact hd.error e
  · next y e =>
    generalize hz : State.consume _ _ = z
    have hz : z.MemOk := by
      rw [← hz]
      exact consume (foldl (fun _ _ h => touch h _ _ _ _ _ _) _ (hd.ok e)) _
    refine .ite ((hz.setX _ _).advance _) (.ite hz ?_)
    split
    · next e =>
      have hu := (gleanStore hz.fresh _ _ _ _ _).ok e
      exact (setX (by exact hu) _ _).advance _
    · next e => exact (gleanStore hz.fresh _ _ _ _ _).error e
    · next e =>
      have hu := (gleanStore hz.fresh _ _ _ _ _).error e
      exact (setX (by exact hu) _ _).advance _

theorem clearTable (h : s.MemOk) (g : Glean) (table : Word) (n : Nat) : Ends State.MemOk GStop.MemOk (clearTable s g table n) :=
  (h.gleanRange _ _ _ _ _).bind fun _ ht => writePieces ht _ _ _

/-- The range check is a variable here, so that the kernel does not compute it over the parcel's 2^21 bytes. -/
theorem returnParcels (g : Glean) (ps : List Nat) :
    ∀ {s : State}, s.MemOk → Ends (fun x => x.2.MemOk) GStop.MemOk (returnParcels s g ps) := by
  have hr (s : State) (h : s.MemOk) := h.gleanRange g
  obtain ⟨range, e⟩ : ∃ r, r = State.gleanRange := ⟨_, rfl⟩
  delta Machine.returnParcels Machine.returnParcels._f
  rw [← e] at hr ⊢
  clear e
  induction ps with
  | nil => exact fun h => h
  | cons p ps ih =>
    intro s h
    specialize hr s h .store (g.base + word (p * 2 ^ 21)) (2 ^ 21) 4
    dsimp only [List.brecOn, List.brecOn.go] at ih ⊢
    split
    · next e => exact hr.error e
    · next e => exact ih (gleanRecord (hr.error e) _ _ _)
    · next e => exact (ih (writePieces (hr.ok e) _ _ _)).bind fun _ ht => ht

theorem freeWrite (h : s.MemOk) (g : Glean) (va v : Word) : Ends State.MemOk GStop.MemOk (freeWrite g s va v) := (h.gleanStore _ _ _ _ _).recordFail _

theorem freeCycle (h : s.MemOk) (g : Glean) (ws : List Word) : Ends (fun x => x.2.MemOk) GStop.MemOk (freeCycle s g ws) :=
  ((clearTable (by exact h) _ _ _).recordFail _).bind fun _ ht => (returnParcels _ _ ht).bind fun _ hu =>
    (Ends.foldE (fun _ _ hv => freeWrite hv _ _ _) _ hu).bind fun _ hv => (freeWrite hv _ _ _).bind fun _ hw => hw

theorem execHgleanFree (h : s.MemOk) (d a : XReg) : Out.MemOk (execHgleanFree d a s) := by
  refine Ends.settle ((h.command _).seq ((h.commandWords _ _).bind fun ⟨ws, t⟩ ht => (check ht _ _ _).seq (.ite ht ?_)))
  split
  · exact undone ht _
  · exact undone ht _
  · next e => exact (setX (Ends.ok (freeCycle ht _ _) e) _ _).advance _

end State.MemOk
end Sys2Proof.Machine

namespace Sys2Proof.Machine

/-! ### The Crier -/

namespace State.MemOk
variable {s : State}

theorem modNest (h : s.MemOk) (id : Nat) (f : Nest → Nest) : (s.modNest id f).MemOk := h

theorem wakeCrier (h : s.MemOk) (d : BitVec 2) : (s.wakeCrier d).MemOk := .ite h h

theorem crierRecord (h : s.MemOk) (n : Nest) (f : XFault) (a : Word) (code : Nat) : (s.crierRecord n f a code).MemOk := h.addRecord _ _ _ _

theorem crierLine (h : s.MemOk) (n : Nest) (pa : Nat) (write : Bool) : Ends State.MemOk State.MemOk (s.crierLine n pa write) :=
  .ite h ((h.detectLine _ _).map fun _ ht => touch ht _ _ _ _ _ _)

theorem nestPay (h : s.MemOk) (n : Nest) : Ends State.MemOk State.MemOk (s.nestPay n) := by
  unfold State.nestPay
  have hp := h.potCheck n.who (some .device) (nestPot n.words)
  refine .ite h ?_
  split
  · next e => exact crierRecord (hp.error e) _ _ _ _
  · next e => exact hp.error e
  · next e => exact (crierLine (hp.ok e) _ _ _).map fun _ hu => potPut hu _ _

theorem nestTell (h : s.MemOk) (n : Nest) : Ends State.MemOk State.MemOk (s.nestTell n) := by
  unfold State.nestTell
  split
  · exact h
  · next va _ =>
    have hc := h.unitCheck n.who .store .strand 8 va 8
    split
    · next e => exact crierRecord (hc.error e) _ _ _ _
    · next e => exact hc.error e
    · next e => exact (crierLine (hc.ok e) _ _ _).map fun _ hu => putBytes hu _ _ _

theorem finishNest (h : s.MemOk) (id : Nat) : (s.finishNest id).MemOk := by
  unfold State.finishNest
  split
  · exact h
  · next n _ =>
    have hp := (h.nestPay n).bind fun t ht => nestTell ht n
    split
    · exact h
    · split
      · exact post (undone (by exact h) _) _ _
      · next e => exact (hp.ok e :)

theorem acceptNest (h : s.MemOk) (d : BitVec 2) (l b : Byte) (level : BitVec 2) (ws : List Word) : (s.acceptNest d l b level ws).MemOk :=
  .ite (wakeCrier (by exact h) _) (finishNest (by exact h) _)

theorem launchAddrs (h : s.MemOk) (w : Who) (c : Ctx) (ws : List Word) : Ends State.MemOk AStop.MemOk (launchAddrs s w c ws) := by
  have word {t : State} (ht : t.MemOk) (k : Acc) (va : Option Word) : Ends State.MemOk AStop.MemOk
      (match va with
        | none => .ok t
        | some va => (t.checked w c .engine k .strand 8 va 8).map Prod.snd) := by
    split
    · exact ht
    · exact (ht.checked _ _ _ _ _ _ _ _).map fun _ hu => hu
  exact (word h .load _).bind fun _ ht => (word ht .store _).bind fun _ hu => .ite hu ((potCheck hu _ _ _).map fun _ hv => hv)

theorem execLaunch (h : s.MemOk) (d a : XReg) : Out.MemOk (execLaunch d a s) :=
  Ends.settle ((h.command _).seq ((h.check _ _ _).seq ((h.readBlock _ _).bind fun _ ht => (check ht _ _ _).seq
    ((launchAddrs ht _ _ _).scalarAcc.bind fun _ hu => (release hu _).bind fun _ hv =>
      .ite ((setX hv _ _).advance _) (((acceptNest hv _ _ _ _ _).setX _ _).advance _)))))

theorem execPriorityAging (h : s.MemOk) : Out.MemOk (execPriorityAging s) := by
  unfold Machine.execPriorityAging
  split
  · exact h
  · exact h

theorem addCtx (h : s.MemOk) (k : Ctx) : (s.addCtx k).MemOk := .ite h h

theorem setMill (h : s.MemOk) (n : Nat) (m : Mill) : (s.setMill n m).MemOk := h

theorem holdMill (h : s.MemOk) (cluster : Nat) (n : Nest) : (s.holdMill cluster n).MemOk := h.setMill _ _

theorem dropMaps (h : s.MemOk) (k : Ctx) : (s.dropMaps k).MemOk :=
  .ite h (modCore (foldl (fun _ _ h => stashFlush h _ _) _ h) _ _)

theorem leaveMaps (h : s.MemOk) (k : Ctx) : (s.leaveMaps k).MemOk := by
  unfold State.leaveMaps
  refine .ite h ?_
  split
  · exact h.dropMaps _
  · exact .ite (by exact h.dropMaps k) (dropMaps (by exact h) _)

theorem passMaps (h : s.MemOk) (core : Nat) (f : Bool) (l b : Byte) : (s.passMaps core f l b).MemOk := foldl (fun _ _ h => leaveMaps h _) _ h

theorem endPass (h : s.MemOk) (c : CtxId) : (s.endPass c).MemOk := h

theorem place (h : s.MemOk) (n : Nest) (coord : BitVec 10) (level : Nat) : (s.place n coord level).MemOk := by
  unfold State.place
  refine countDie (modDie (modNest (arrange (endPass (addCtx (modCore (passMaps ?_ _ _ _ _) _ _) _) _) _) _ _) _ _) _ _ _ _ _
  exact .ite (addCtx (.ite (h.holdMill _ _) h) _) (.ite (h.holdMill _ _) h)

theorem gate (h : s.MemOk) (n : Nest) : (s.gate n).2.MemOk := by
  unfold State.gate
  split
  · exact h
  · split
    · exact h
    · next va _ =>
      have hc := h.unitCheck n.who .load .strand 8 va 8
      split
      · next e => exact finishNest (modNest (crierRecord (hc.error e) _ _ _ _) _ _) _
      · next e => exact hc.error e
      · next e =>
        have hl (pa : Nat) := (hc.ok e).crierLine n pa false
        split
        · next e => exact (hl _).error e
        · next e =>
          have hv := (hl _).ok e
          exact iteInduction (motive := fun x : Bool × State => x.2.MemOk) (fun _ => hv) (fun _ => hv.modNest _ _)

/-- The gate is a variable here, so that the unifier does not unfold it. -/
theorem placeFirst (ns : List Nest) : ∀ {s : State}, s.MemOk → (s.placeFirst ns).MemOk := by
  have hg (s : State) (n : Nest) (h : s.MemOk) := h.gate n
  obtain ⟨gate, e⟩ : ∃ r, r = State.gate := ⟨_, rfl⟩
  delta State.placeFirst State.placeFirst._f
  rw [← e] at hg ⊢
  clear e
  induction ns with
  | nil => exact fun h => h
  | cons n ns ih =>
    intro s h
    specialize hg s n h
    dsimp only [List.brecOn, List.brecOn.go] at ih ⊢
    split
    · next e => exact ih (e ▸ hg :)
    · next e =>
      rw [e] at hg
      split
      · exact ih hg
      · exact place hg _ _ _

theorem execCrierPlacement (h : s.MemOk) : Out.MemOk (execCrierPlacement s) := by
  unfold Machine.execCrierPlacement
  split
  · next d _ =>
    have ht : State.MemOk (if s.cpFrozen d || (s.candidates d).isEmpty then s else if s.asleep d then s.callWake d
      else s.placeFirst (s.candidates d)) := .ite h (.ite (h.callWake d) (h.placeFirst _))
    exact State.MemOk.ite (wakeCrier ht _) ht
  · exact h

theorem sendOut (h : s.MemOk) (k : Ctx) : (s.sendOut k).MemOk := foldl (fun _ _ h => .ite h (post h _ _)) _ h

theorem freeCtx (h : s.MemOk) (k : Ctx) : (s.freeCtx k).MemOk := by
  have ht : State.MemOk (if k.present then s.leaveMaps k else s) := .ite (h.leaveMaps k) h
  unfold State.freeCtx
  generalize (if k.present then s.leaveMaps k else s) = t at ht ⊢
  have hu : State.MemOk (if k = t.ctx then { t with ctx := ctx0, lane := none } else { t with others := t.others.erase k }) := .ite ht ht
  exact .ite hu (arrange (by exact hu) _)

theorem releaseMill (h : s.MemOk) (k : Ctx) : (s.releaseMill k).MemOk := .ite h h

theorem execDrainComplete (h : s.MemOk) : Out.MemOk (execDrainComplete s) := by
  unfold Machine.execDrainComplete
  split
  · split
    · exact h
    · next k _ =>
      have hr := (h.freeCtx k).releaseMill k
      exact .ite h (.ite h (.ite ((h.sendOut k).post _ _) (finishNest (.ite hr (hr.modNest _ _)) _)))
  · exact h.finishNest _
  · exact h

end State.MemOk
end Sys2Proof.Machine

namespace Sys2Proof.Machine

/-! ### The Mill's instructions -/

namespace State.MemOk
variable {s : State}

theorem giveMill (h : s.MemOk) (op : MillOp) : (s.giveMill op).MemOk := h

theorem execMldb (h : s.MemOk) (d a b : XReg) : Out.MemOk (execMldb d a b s) := by
  refine Ends.settle ((h.legal _ _).seq ((h.check _ _ _).seq ((h.check _ _ _).seq ((h.rangeCheck _ _ _ _).scalarAcc.bind fun ⟨ps, t⟩ ht =>
    .ite h ?_))))
  have hd := ht.detectLines s.ctx.who (State.pieceLines ps)
  split
  · next e => exact hd.error e
  · next e => exact (giveMill (enginePoison (foldl (fun _ _ h => touch h _ _ _ _ _ _) _ (hd.ok e)) _ _) _).advance _

theorem execMmul (h : s.MemOk) (m : MmulMode) (t q : BitVec 2) (a b : XReg) : Out.MemOk (execMmul m t q a b s) :=
  Ends.settle ((h.legal _ _).seq ((h.check _ _ _).seq ((h.check _ _ _).seq ((h.check _ _ _).seq ((h.giveMill _).advance _)))))

theorem execMclr (h : s.MemOk) (t : BitVec 2) : Out.MemOk (execMclr t s) := Ends.settle ((h.legal _ _).seq ((h.giveMill _).advance _))

theorem execMout (h : s.MemOk) (f64 clr : Bool) (t q : BitVec 2) (a b : XReg) : Out.MemOk (execMout f64 clr t q a b s) :=
  Ends.settle ((h.legal _ _).seq ((h.check _ _ _).seq ((h.check _ _ _).seq ((h.check _ _ _).seq ((h.giveMill _).advance _)))))

theorem execMsync (h : s.MemOk) : Out.MemOk (execMsync s) := Ends.settle ((h.legal _ _).seq (.ite (h.advance _) h))

theorem execMillOperation (h : s.MemOk) : Out.MemOk (execMillOperation s) := by
  unfold Machine.execMillOperation
  split
  · exact State.MemOk.ite ((h.setMill _ _).enginePoison _ _) (((h.setMill _ _).enginePoison _ _).post _ _)
  · exact h

end State.MemOk

/-! ### What vector instructions share -/

/-- A queued instruction's body keeps the form. -/
def BodyOk (body : VQEntry → State → Res State) : Prop := ∀ en {s : State}, s.MemOk → Ends State.MemOk Stop.MemOk (body en s)

namespace State.MemOk
variable {s : State}

theorem vraise {α : Type} {P : α → Prop} (h : s.MemOk) (en : VQEntry) (p : Nat) (c : Nat) (v : Word) (e : Option Nat) (n : Nat) :
    Ends P Stop.MemOk (vraise en p s c v e n) := State.MemOk.ite h h

theorem vcheck (h : s.MemOk) (en : VQEntry) (k : VSpec) (b : Bool) (c : Nat) : Ends (fun _ => True) Stop.MemOk (vcheck en k b s c) :=
  .ite trivial (h.vraise _ _ _ _ _ _)

theorem postStream (h : s.MemOk) (slot : Nat) : (s.postStream slot).MemOk := .ite h (h.post _ _)

theorem streamIn (h : s.MemOk) (en : VQEntry) (k : VSpec) (n : Nat) (v : VReg) : Ends State.MemOk Stop.MemOk (streamIn en k n s v) := by
  unfold Machine.streamIn
  split
  · exact h
  · exact (h.vcheck _ _ _ _).seq (.ite (h.postStream _) h)

theorem streamOut (h : s.MemOk) (en : VQEntry) (k : VSpec) (n : Nat) (v : VReg) : Ends State.MemOk Stop.MemOk (streamOut en k n s v) := by
  unfold Machine.streamOut
  split
  · exact h
  · exact (h.vcheck _ _ _ _).seq (.ite (h.postStream _) h)

theorem streamCut (h : s.MemOk) (k : VSpec) : (s.streamCut k).MemOk := by
  refine foldl (fun s p h => ?_) _ h
  split
  · exact h
  · exact h.modMyFe _

theorem takeLength (h : s.MemOk) (en : VQEntry) (k : VSpec) : Ends (fun x => x.2.2.MemOk) Stop.MemOk (takeLength en k s) := by
  unfold Machine.takeLength
  refine .ite h ?_
  split
  · exact h
  · exact h
  · split
    · exact h
    · split
      · exact h.vraise _ _ _ _ _ _
      · exact h

theorem plotReady (h : s.MemOk) (en : VQEntry) (k : VSpec) (n : Nat) (v : VReg) (cells : Option Nat) :
    Ends (fun _ => True) Stop.MemOk (plotReady en k n s v cells) := h.vcheck _ _ _ _

/-- A dispatched instruction reads its sources in a state whose memory is in the form. -/
theorem vbegin (h : s.MemOk) (en : VQEntry) (k : VSpec) : Ends (fun r => r.src.MemOk) Stop.MemOk (vbegin en k s) :=
  (h.vcheck _ _ _ _).seq ((h.takeLength _ _).bind fun ⟨_, _, _⟩ ht =>
    (Ends.foldE (P := fun _ => True) (fun _ _ _ => plotReady ht _ _ _ _ _) _ trivial).bind fun _ _ => (vcheck ht _ _ _ _).seq
      (.join (P := State.MemOk) ht (Ends.foldE (fun _ _ hu => streamIn hu _ _ _ _) _ ht) fun _ hu =>
        .join (P := State.MemOk) hu (Ends.foldE (fun _ _ hv => streamOut hv _ _ _ _) _ hu) fun _ hv => hv))

theorem advanceStreams (h : s.MemOk) (k : VRun) : (k.advanceStreams s).MemOk :=
  .ite h (foldl (fun _ _ h => postStream (by exact h) _) _ (foldl (by intro s a h; exact h) _ h))

theorem done (h : s.MemOk) (k : VRun) : Ends State.MemOk Stop.MemOk (k.done s) := by
  unfold VRun.done
  have ht := h.advanceStreams k
  generalize k.advanceStreams s = t at ht ⊢
  have hu : State.MemOk (if t.ctx.inTrap then t else { t with ctx := { t.ctx with vstart := 0 } }) := .ite ht ht
  exact (hu.countCtx _ _).countCtx _ _

theorem addBox (h : s.MemOk) (w0 w1 : Word) : (s.addBox w0 w1).1.MemOk := h

theorem vectorPoison (h : s.MemOk) (bad : Bool) : (s.vectorPoison bad).MemOk := .ite (countCtx (by exact h) _ _) h

theorem laneMeets (h : s.MemOk) (p : LaneErr) : (s.laneMeets p).MemOk := by
  have ht : State.MemOk ((if p.injected then s.laneInjected s.ctx.core
      else s.modCore s.ctx.core (fun c => { c with laneErr := c.laneErr.erase (p.lane, p.repeats) })).countCtx 0x04 1) :=
    countCtx (.ite (h.laneInjected _) (h.modCore _ _)) _ _
  exact .ite ht (.ite (addBox (by exact ht) _ _) ht)

theorem lane (h : s.MemOk) (k : VRun) (e : Nat) : (k.lane s e).1.MemOk := by
  unfold VRun.lane
  dsimp only
  split
  · exact h
  · exact h.laneMeets _

theorem lanes (h : s.MemOk) (k : VRun) : (k.lanes s).1.MemOk :=
  foldl_ind (P := fun x : State × List Nat => x.1.MemOk) (fun _ _ h => lane h _ _) _ h

/-- A trap at an element is taken in the state reached, or before a self-overlapping instruction. -/
theorem trapAt {α : Type} {P : α → Prop} {k : VRun} (h : s.MemOk) (hk : k.src.MemOk) (c : Nat) (v : Word) (i : Nat) :
    Ends P Stop.MemOk (k.trapAt s c v i : Res α) := by
  unfold VRun.trapAt
  refine .ite (vraise ?_ _ _ _ _ _ _) (h.vraise _ _ _ _ _ _)
  exact State.MemOk.ite (c := k.sfault.isSome = true) (hk.streamCut k.spec) hk

theorem ended {k : VRun} (h : s.MemOk) (hk : k.src.MemOk) : Ends State.MemOk Stop.MemOk (k.ended s) := by
  unfold VRun.ended
  split
  · exact (h.streamCut _).trapAt hk _ _ _
  · exact h

theorem whole (h : s.MemOk) (k : VRun) : Ends (fun _ => True) Stop.MemOk (k.whole s) := by
  unfold VRun.whole
  split
  · exact (h.streamCut _).vraise _ _ _ _ _ _
  · trivial

theorem element {k : VRun} {put : State → Nat → Nat → State} (keeps : ∀ s e v, s.MemOk → (put s e v).MemOk) (hk : k.src.MemOk) (h : s.MemOk)
    (canon : Nat) (work : Nat → EWork) (e : Nat) : Ends State.MemOk Stop.MemOk (k.element canon work put s e) := by
  unfold VRun.element
  have hl := h.lane k e
  refine .ite hl (.ite (keeps _ _ _ hl) ?_)
  dsimp only
  split
  · exact hl.trapAt hk _ _ _
  · exact keeps _ _ _ (vectorPoison (by exact hl) _)

theorem loop {k : VRun} {put : State → Nat → Nat → State} (keeps : ∀ s e v, s.MemOk → (put s e v).MemOk) (hk : k.src.MemOk) (h : s.MemOk)
    (canon : Nat) (work : Nat → EWork) : Ends State.MemOk Stop.MemOk (k.loop canon work put s) :=
  (Ends.foldE (fun _ _ h => element keeps hk h _ _ _) _ h).bind fun _ ht => ended ht hk

theorem setElem (h : s.MemOk) (d : VReg) (e v : Nat) : (s.setElem d e v).MemOk := h

theorem vmap (h : s.MemOk) (en : VQEntry) (k : VSpec) (t : ETy) (d : VReg) (work : VRun → Nat → EWork) :
    Ends State.MemOk Stop.MemOk (vmap en k t d work s) :=
  (h.vbegin _ _).bind fun _ hr => (loop (fun _ _ _ h => setElem h _ _ _) hr hr _ _).bind fun _ ht => done ht _

theorem passRows (h : s.MemOk) (core : Nat) (f : Bool) (mine : Byte × Byte) : (s.passRows core f mine).MemOk := .ite h h

theorem passUnit (h : s.MemOk) : s.passUnit.MemOk :=
  .ite h (.ite (h.passRows _ _ _) ((h.passRows _ _ _).passRows _ _ _))

theorem takeUnit (h : s.MemOk) : Ends State.MemOk Stop.MemOk (takeUnit s) :=
  .ite h (.ite h.passUnit (.ite h (passUnit (by exact h))))

theorem vcommit (h : s.MemOk) (i : Instr) : (vcommit i s).2.MemOk := h

theorem vtry {body : VQEntry → State → Res State} (hb : BodyOk body) (h : s.MemOk) (en : VQEntry) :
    Ends State.MemOk Stop.MemOk (vtry body en s) := by
  unfold Machine.vtry
  split
  · exact h
  · exact hb en h

theorem vqueue {body : VQEntry → State → Res State} (hb : BodyOk body) (h : s.MemOk) (en : VQEntry) :
    Ends State.MemOk Stop.MemOk (vqueue body en s) := .ite h (h.vtry hb en)

theorem vissue {body : VQEntry → State → Res State} (h : s.MemOk) (hb : BodyOk body) (i : Instr) : Out.MemOk (vissue i body s) :=
  Ends.settle ((h.legal _ _).seq (h.takeUnit.bind fun _ ht => .ite ht (vqueue hb (vcommit ht i) _)))

/-! ### Configuration -/

theorem vwaiting {body : VQEntry → State → Res State} (h : s.MemOk) (hb : BodyOk body) (i : Instr) : Out.MemOk (vwaiting i body s) := by
  refine Ends.settle ((h.legal _ _).seq (h.takeUnit.bind fun _ ht => (drained ht).seq (.ite ht ?_)))
  dsimp only
  split
  · exact ht
  · exact hb _ (vcommit ht i)

theorem granted (h : s.MemOk) (n : Nat) : (granted s n).MemOk := h

theorem vAccess {α : Type} {P : α → Prop} {r : ARes α} (h : Ends P AStop.MemOk r) (en : VQEntry) (p : Nat) :
    Ends P Stop.MemOk (vAccess en p r) := by
  match r, h with
  | .ok _, h => exact h
  | .error (.fault t f), h =>
    have ht : t.MemOk := h
    exact ht.vraise (P := P) en p f.cause f.tval none 0
  | .error (.wait _), h => exact h

theorem consumeWord (h : s.MemOk) (bad : Bool) : (s.consumeWord bad).MemOk := .ite (countCtx (by exact h) _ _) h

end State.MemOk

open State.MemOk

theorem plotsetBody_ok (d : VReg) (x : XReg) : BodyOk (plotsetBody d x) := fun _ _ h =>
  (h.vbegin _ _).bind fun _ _ => .ite (State.MemOk.done (by exact h) _) (.ite (State.MemOk.done (by exact h) _) (h.vraise _ _ _ _ _ _))

theorem plotgetBody_ok (d : XReg) (v : VReg) : BodyOk (plotgetBody d v) := fun _ _ h => (h.vbegin _ _).bind fun _ _ => (h.sendX _ _).done _

theorem vloopBody_ok (x : XReg) : BodyOk (vloopBody x) := fun _ _ h =>
  (h.vbegin _ _).bind fun _ _ => .ite (h.vraise _ _ _ _ _ _) (State.MemOk.done (by exact h) _)

theorem setvlBody_ok (x : XReg) : BodyOk (setvlBody x) := fun _ _ h =>
  (h.vbegin _ _).bind fun _ _ => (h.vcheck _ _ _ _).seq ((h.granted _).done _)

theorem setvlWBody_ok (partly : Bool) (sc : Scope) (d a c : XReg) : BodyOk (setvlWBody partly sc d a c) := by
  intro en s h
  refine (h.vbegin _ _).bind fun r _ => (h.vcheck _ _ _ _).seq ?_
  have grant {t : State} (ht : t.MemOk) (n : Nat) : Ends State.MemOk Stop.MemOk (r.done ((granted t n).sendX d (word n))) :=
    ((ht.granted n).sendX _ _).done r
  refine .ite (grant h 0) ((State.MemOk.vAccess (h.load _ _ _ _) _ _).bind fun ⟨v, t⟩ ht => ?_)
  have hu := State.MemOk.consumeWord ht v.isNone
  exact .ite (.ite (grant (hu.acquire _) _) hu) (.ite (grant (hu.acquire _) _) hu)

theorem wmpubBody_ok (sc : Scope) (x : XReg) : BodyOk (wmpubBody sc x) := fun _ _ h =>
  (h.vbegin _ _).bind fun _ _ => (h.release _).bind fun _ ht =>
    (State.MemOk.vAccess (State.MemOk.store ht _ _ _ _) _ _).bind fun _ hu => State.MemOk.done hu _

theorem vlendBody_ok : BodyOk vlendBody := fun _ _ h => h

theorem vsyncBody_ok (sc : Scope) : BodyOk (vsyncBody sc) := fun _ _ h =>
  (h.vbegin _ _).bind fun _ _ => .ite h (State.MemOk.done (.ite (h.fabricClean _) h) _)

theorem State.MemOk.execVlend {s : State} (h : s.MemOk) (o : BitVec 16) : Out.MemOk (execVlend o s) :=
  Ends.settle ((h.legal _ _).seq (.ite h ((h.check _ _ _).seq (vqueue vlendBody_ok ((h.vcommit (.vlend o)).setPc _) _))))

end Sys2Proof.Machine

namespace Sys2Proof.Machine

/-! ### Vector arithmetic, masks and reductions -/

namespace State.MemOk
variable {s : State}

theorem setMaskBit (h : s.MemOk) (m : MReg) (e : Nat) (b : Bool) : (s.setMaskBit m e b).MemOk := h

theorem clampIf (h : s.MemOk) (b : Bool) : (s.clampIf b).MemOk := .ite h h

end State.MemOk

open State.MemOk

theorem fp2Body_ok (f : Fmt → RMode → Nat → Nat → FRes) (t : FTy) (o : VOpts) (d a : VReg) (b : VSrc) : BodyOk (fp2Body f t o d a b) :=
  fun _ _ h => h.vmap _ _ _ _ _

theorem fp3Body_ok (p c : Bool) (t : FTy) (o : VOpts) (d a : VReg) (b : VSrc) (v : VReg) : BodyOk (fp3Body p c t o d a b v) :=
  fun _ _ h => h.vmap _ _ _ _ _

theorem fp1Body_ok (f : Fmt → RMode → Nat → FRes) (t : FTy) (o : VOpts) (d a : VReg) : BodyOk (fp1Body f t o d a) :=
  fun _ _ h => h.vmap _ _ _ _ _

theorem int2Body_ok (f : Nat → Nat → Nat → Nat) (t : ITy) (o : VOpts) (d a : VReg) (b : VSrc) : BodyOk (int2Body f t o d a b) :=
  fun _ _ h => h.vmap _ _ _ _ _

theorem vcvtBody_ok (d t : ETy) (o : VOpts) (vd va : VReg) : BodyOk (vcvtBody d t o vd va) := fun _ _ h => h.vmap _ _ _ _ _

theorem vrandBody_ok (t : ETy) (o : VOpts) (vd : VReg) (xs : XReg) : BodyOk (vrandBody t o vd xs) := fun _ _ h => h.vmap _ _ _ _ _

theorem carryBody_ok (sub : Bool) (t : ITy) (o : VOpts) (d a : VReg) (b : VSrc) (i c : MReg) : BodyOk (carryBody sub t o d a b i c) :=
  fun _ _ h => (h.vbegin _ _).bind fun _ hr =>
    (loop (fun _ _ _ h => (State.MemOk.setElem h _ _ _).setMaskBit _ _ _) hr hr _ _).bind fun _ ht => State.MemOk.done ht _

/-- The loop of an instruction whose destination is a mask. -/
theorem loop_putBit {r : VRun} (hr : r.src.MemOk) (m : MReg) (c : Nat) (work : Nat → EWork) :
    Ends State.MemOk Stop.MemOk (r.loop c work (putBit m) r.src >>= fun s => r.done s) :=
  (loop (fun _ _ _ h => State.MemOk.setMaskBit h _ _ _) hr hr _ _).bind fun _ ht => State.MemOk.done ht _

theorem vfcmpBody_ok (c : FCond) (t : FTy) (o : VOpts) (m : MReg) (a b : VReg) : BodyOk (vfcmpBody c t o m a b) :=
  fun _ _ h => (h.vbegin _ _).bind fun _ hr => loop_putBit hr _ _ _

theorem vcmpBody_ok (c : ICond) (t : ITy) (o : VOpts) (m : MReg) (a b : VReg) : BodyOk (vcmpBody c t o m a b) :=
  fun _ _ h => (h.vbegin _ _).bind fun _ hr => loop_putBit hr _ _ _

theorem maskBody_ok (f : VRun → Nat → Bool) (o : VOpts) (m : MReg) : BodyOk (maskBody f o m) :=
  fun _ _ h => (h.vbegin _ _).bind fun _ hr => loop_putBit hr _ _ _

theorem mshiftBody_ok (down : Bool) (k : MCount) (o : VOpts) (d a : MReg) : BodyOk (mshiftBody down k o d a) := fun _ _ h =>
  maskBody_ok _ _ _ _ h

theorem mpopcBody_ok (lq : Bool) (o : VOpts) (d : XReg) (m : MReg) : BodyOk (mpopcBody lq o d m) := by
  intro en s h
  refine (h.vbegin _ _).bind fun r hr => (hr.vcheck _ _ _ _).seq ?_
  have hl := hr.lanes r
  dsimp only
  refine State.MemOk.done (sendX ?_ _ _) _
  split
  · exact hl
  · exact hl

theorem mfirstBody_ok (o : VOpts) (d : XReg) (m : MReg) : BodyOk (mfirstBody o d m) := fun _ _ h =>
  (h.vbegin _ _).bind fun r hr => ((hr.lanes r).sendX _ _).done _

theorem taking_src (k : VRun) (f : Nat → List (VReg × Nat)) : (k.taking f).src = k.src := by
  unfold VRun.taking
  dsimp only
  split <;> rfl

theorem taking_ok {k : VRun} (h : k.src.MemOk) (f : Nat → List (VReg × Nat)) : (k.taking f).src.MemOk := by rwa [taking_src]

theorem reduceBody_ok (f : RMode → Nat → Nat → FRes) (out : Nat → Word) (t : ETy) (o : VOpts) (d : XReg) (v : VReg) :
    BodyOk (reduceBody f out t o d v) := by
  intro en s h
  refine (h.vbegin _ _).bind fun r hr => ?_
  have hk := taking_ok hr (fun i => [(v, i)])
  generalize r.taking (fun i => [(v, i)]) = k at hk ⊢
  refine (hk.whole k).seq ?_
  have hl := State.MemOk.foldl (f := fun s i => s.vectorPoison (k.active i && !(k.lanes k.src).2.contains i && (k.get v t i).2))
    (fun _ _ h => vectorPoison h _) (List.range k.len) (hk.lanes k)
  dsimp only
  split
  · exact State.MemOk.done hl _
  · exact State.MemOk.done (sendX (by exact hl) _ _) _

end Sys2Proof.Machine

namespace Sys2Proof.Machine

/-! ### Vector memory -/

/-- A loader of elements keeps the form. -/
def LoaderOk (ld : Loader) : Prop := ∀ {s : State}, s.MemOk → ∀ va z, Ends (fun x => x.2.MemOk) AStop.MemOk (ld s va z)

theorem plainLoad_ok (a : Agent) (keep : Keep) : LoaderOk (plainLoad a keep) := fun h _ _ => h.load _ _ _ _

namespace State.MemOk
variable {s : State} {k : VRun} {ld : Loader}

theorem each {f : Bool → State → Nat → Res State} (hf : ∀ b e {s : State}, s.MemOk → Ends State.MemOk Stop.MemOk (f b s e)) (hk : k.src.MemOk)
    (h : s.MemOk) : Ends State.MemOk Stop.MemOk (k.each f s) := by
  refine (Ends.foldE (P := State.MemOk) (fun s e h => ?_) _ h).bind fun _ ht => ended ht hk
  have hl := h.lane k e
  exact .ite (hf _ _ hl) hl

theorem acc {α : Type} {P : α → Prop} {r : ARes α} (hr : Ends P AStop.MemOk r) (hk : k.src.MemOk) (e : Nat) : Ends P Stop.MemOk (k.acc e r) := by
  match r, hr with
  | .ok _, h => exact h
  | .error (.fault t _), h =>
    have ht : t.MemOk := h
    exact ht.trapAt hk _ _ _
  | .error (.wait _), h => exact h

theorem board (h : s.MemOk) (k : VRun) (addr : Nat → Word) (z : Nat) : Ends (fun _ => True) Stop.MemOk (k.board addr z s) := by
  unfold VRun.board
  refine .ite trivial ?_
  dsimp only
  split
  · trivial
  · exact .ite h trivial

theorem loadElem (hl : LoaderOk ld) (hk : k.src.MemOk) (h : s.MemOk) (e' : Enc) (sat : Bool) (t : ETy) (d : VReg) (scale : Option Nat)
    (va : Word × Bool) (z : Nat) (lost : Bool) (e : Nat) : Ends State.MemOk Stop.MemOk (k.loadElem ld e' sat t d scale va z lost s e) := by
  refine (acc (hl h _ _) hk e).bind fun ⟨b, u⟩ hu => ?_
  dsimp only
  split
  · exact (vectorPoison hu _).setElem _ _ _
  · exact ((vectorPoison hu _).clampIf _).setElem _ _ _

theorem storeElem (hk : k.src.MemOk) (h : s.MemOk) (a : Agent) (e' : Enc) (sat : Bool) (t : ETy) (v : VReg) (scale : Option Nat)
    (va : Word × Bool) (z : Nat) (lost : Bool) (e : Nat) : Ends State.MemOk Stop.MemOk (k.storeElem a e' sat t v scale va z lost s e) := by
  unfold VRun.storeElem
  extract_lets x
  split
  exact (acc (h.store _ _ _ _) hk e).bind fun _ hu => (vectorPoison hu _).clampIf _

theorem kvStep (h : s.MemOk) (n : Nat) : (s.kvStep n).MemOk := h.of_eq (by rw [State.kvStep])

theorem groupUnits (hl : LoaderOk ld) (hk : k.src.MemOk) (h : s.MemOk) (va : Word) (n f : Nat) :
    Ends (fun x => x.2.MemOk) Stop.MemOk (k.groupUnits ld va n f s) := by
  unfold VRun.groupUnits
  refine Ends.foldE (P := fun x : List (Option Nat) × State => x.2.MemOk) (fun _ _ ht => ?_) _ h
  exact (acc (hl ht _ _) hk f).bind fun _ hu => hu

theorem groupLoad (hl : LoaderOk ld) (hk : k.src.MemOk) (h : s.MemOk) (q3 sat : Bool) (t : ETy) (d vc : VReg) (bs : Nat) (base : Word) (g : Nat) :
    Ends State.MemOk Stop.MemOk (k.groupLoad ld q3 sat t d vc bs base s g) := by
  unfold VRun.groupLoad
  dsimp only
  split
  · exact foldl (fun _ _ h => lane h _ _) _ h
  · refine (groupUnits hl hk h _ _ _).bind fun ⟨us, u⟩ hu => ?_
    dsimp only
    refine foldl (fun s e hs => ?_) _ (.ite (setElem hu _ _ _) hu)
    have he := hs.lane k e
    exact .ite he (.ite (he.setElem _ _ _) (.ite ((he.vectorPoison _).setElem _ _ _) ((he.clampIf _).setElem _ _ _)))

theorem storeBits (h : s.MemOk) (va : Word) (mask v : Nat) : Ends State.MemOk AStop.MemOk (s.storeBits va mask v) :=
  (h.access _ _ _ _ _ _).bind fun _ ht => putAt ht _ _ _ _

theorem groupStore (hk : k.src.MemOk) (h : s.MemOk) (q3 sat : Bool) (t : ETy) (v vc : VReg) (bs : Nat) (base : Word) (g : Nat) :
    Ends State.MemOk Stop.MemOk (k.groupStore q3 sat t v vc bs base s g) := by
  unfold VRun.groupStore
  split
  · exact h
  · next f es _ =>
    dsimp only
    refine Ends.bind (P := State.MemOk) (Ends.foldE (fun s p hs => ?_) _ h) fun u hu => ?_
    · exact (acc (hs.reach _ _ _ _ _) hk _).bind fun _ ht => ht
    · have hl := foldl_ind (P := fun x : State × List Nat => x.1.MemOk)
        (f := fun st e => ((k.lane st.1 e).1, if (k.lane st.1 e).2 then e :: st.2 else st.2)) (fun _ _ h => lane h _ _) (f :: es) (s := (u, [])) hu
      exact Ends.bind (P := State.MemOk) (Ends.foldE (fun _ _ hs => acc (storeBits hs _ _ _) hk _) _ hl) fun w hw =>
        (foldl (fun _ _ h => vectorPoison h _) _ hw).clampIf _

theorem loadElem' (hl : LoaderOk ld) (hk : k.src.MemOk) (h : s.MemOk) (e' : Enc) (sat : Bool) (t : ETy) (d : VReg) (va : Nat → Word × Bool)
    (z : Nat) (lost : Bool) (e : Nat) : Ends State.MemOk Stop.MemOk (k.loadElem' ld e' sat t d va z lost s e) :=
  loadElem hl hk h _ _ _ _ _ _ _ _ _

theorem storeElem' (hk : k.src.MemOk) (h : s.MemOk) (a : Agent) (e' : Enc) (sat : Bool) (t : ETy) (v : VReg) (va : Nat → Word × Bool)
    (z : Nat) (lost : Bool) (e : Nat) : Ends State.MemOk Stop.MemOk (k.storeElem' a e' sat t v va z lost s e) :=
  storeElem hk h _ _ _ _ _ _ _ _ _ _

/-- A queued load's end: it completes, and an acquire takes its effect. -/
theorem doneAcquire (h : s.MemOk) (k : VRun) (a : Option Scope) :
    Ends State.MemOk Stop.MemOk (k.done s >>= fun s => .ok (s.acquire a)) := (h.done k).bind fun _ ht => acquire ht a

theorem loadAll {ld : Nat → Loader} (hl : ∀ z, LoaderOk (ld z)) (hk : k.src.MemOk) (h : s.MemOk) (kind : AKind) (t : ETy) (d : VReg)
    (at' : Nat → VRun → Nat → Word × Bool) : Ends State.MemOk Stop.MemOk (loadAll kind ld t d at' k s) :=
  (h.vcheck _ _ _ _).seq ((h.board _ _ _).seq (each (fun _ _ _ h => loadElem' (hl _) hk h _ _ _ _ _ _ _ _) hk h))

theorem storeAll (hk : k.src.MemOk) (a : Agent) (kind : AKind) (t : ETy) (v : VReg) (at' : VRun → Nat → Word × Bool) (q : StOrd) :
    Ends State.MemOk Stop.MemOk (storeAll a kind t v at' q k) :=
  (hk.vcheck _ _ _ _).seq ((hk.release _).bind fun _ hs => (board hs _ _ _).seq
    ((each (fun _ _ _ h => storeElem' hk h _ _ _ _ _ _ _ _ _) hk hs).bind fun _ ht => done ht _))

theorem l1Evict (h : s.MemOk) (w : Who) (core set : Nat) : (s.l1Evict w core set).MemOk := h.kept (kept_l1Evict s w core set)

theorem addGathered (h : s.MemOk) (d : Word) (z : Nat) (va : Word) : (s.addGathered d z va).MemOk := by
  unfold State.addGathered
  dsimp only
  generalize hr : List.foldl _ _ _ = r
  have hr : r.2.MemOk := by
    rw [← hr]
    refine foldl_ind (P := fun x : List Nat × State => x.2.MemOk) (fun st i hs => ?_) _ h
    split
    · exact hs
    · exact touch hs _ _ _ _ _ _
  split
  · exact hr
  · exact (l1Evict hr _ _ _).modCore _ _

end State.MemOk

open State.MemOk

theorem stridedLoad_ok (d : Word) (keep : Keep) : LoaderOk (stridedLoad d keep) := by
  intro s h va z
  refine .ite (h.load _ _ _ _) ((h.reach _ _ _ _ _).bind fun ⟨r, t⟩ ht => ?_)
  exact State.MemOk.ite (countCtx ht _ _) (State.MemOk.ite (addGathered (touch ht _ _ _ _ _ _) _ _ _) (touch ht _ _ _ _ _ _))

theorem stashLoad_ok : LoaderOk stashLoad := fun h _ _ => .ite (h.load _ _ _ _) ((h.checked _ _ _ _ _ _ _ _).bind fun _ ht => ht)

theorem vldBody_ok (t : ETy) (o : VOpts) (q : LdOrd) (x : XReg) (d c : VReg) : BodyOk (vldBody t o q x d c) := by
  intro en s h
  refine (h.vbegin _ _).bind fun r hr => (hr.vcheck _ _ _ _).seq ?_
  dsimp only
  split
  · exact (hr.vcheck _ _ _ _).seq ((hr.board _ _ _).seq ((Ends.foldE (fun _ _ h => groupLoad (plainLoad_ok _ _) hr h _ _ _ _ _ _ _ _) _ hr).bind
      fun _ ht => (ended ht hr).bind fun _ hu => State.MemOk.doneAcquire hu _ _))
  · refine (hr.vcheck _ _ _ _).seq ((hr.board _ _ _).seq (Ends.bind (P := State.MemOk) (each (fun _ _ _ h => ?_) (taking_ok hr _) hr)
      fun _ hu => State.MemOk.doneAcquire hu _ _))
    exact .ite (loadElem (plainLoad_ok _ _) (taking_ok hr _) h _ _ _ _ _ _ _ _ _) (loadElem (plainLoad_ok _ _) (taking_ok hr _) h _ _ _ _ _ _ _ _ _)
  · exact (hr.board _ _ _).seq ((each (fun _ _ _ h => loadElem' (plainLoad_ok _ _) hr h _ _ _ _ _ _ _ _) hr hr).bind
      fun _ hu => State.MemOk.doneAcquire hu _ _)

end Sys2Proof.Machine

namespace Sys2Proof.Machine
open State.MemOk

theorem vstBody_ok (t : ETy) (o : VOpts) (q : StOrd) (x : XReg) (v c : VReg) : BodyOk (vstBody t o q x v c) := by
  intro en s h
  refine (h.vbegin _ _).bind fun r hr => (hr.vcheck _ _ _ _).seq ((hr.release _).bind fun u hu => ?_)
  dsimp only
  split
  · exact (hu.vcheck _ _ _ _).seq ((hu.board _ _ _).seq ((Ends.foldE (fun _ _ h => groupStore (taking_ok hr _) h _ _ _ _ _ _ _ _) _ hu).bind
      fun _ ht => (ended ht (taking_ok hr _)).bind fun _ hw => State.MemOk.done hw _))
  · refine (hu.vcheck _ _ _ _).seq ((hu.board _ _ _).seq (Ends.bind (P := State.MemOk) (each (fun _ _ _ h => ?_) (taking_ok hr _) hu)
      fun _ hw => (kvStep hw _).done _))
    exact .ite (storeElem (taking_ok hr _) h _ _ _ _ _ _ _ _ _ _) (storeElem (taking_ok hr _) h _ _ _ _ _ _ _ _ _ _)
  · exact (hu.board _ _ _).seq ((each (fun _ _ _ h => storeElem' hr h _ _ _ _ _ _ _ _ _) hr hu).bind fun _ hw => State.MemOk.done hw _)

theorem vldStridedBody_ok (t : ETy) (o : VOpts) (q : LdOrd) (x p : XReg) (d : VReg) : BodyOk (vldStridedBody t o q x p d) :=
  fun _ _ h => (h.vbegin _ _).bind fun _ hr => (State.MemOk.loadAll (fun _ => stridedLoad_ok _ _) hr hr _ _ _ _).bind fun _ hu => State.MemOk.doneAcquire hu _ _

theorem vstStridedBody_ok (t : ETy) (o : VOpts) (q : StOrd) (x p : XReg) (v : VReg) : BodyOk (vstStridedBody t o q x p v) :=
  fun _ _ h => (h.vbegin _ _).bind fun _ hr => hr.storeAll _ _ _ _ _ _

theorem vldxBody_ok (t : ETy) (o : VOpts) (q : LdOrd) (ix64 : Bool) (x : XReg) (d v : VReg) : BodyOk (vldxBody t o q ix64 x d v) :=
  fun _ _ h => (h.vbegin _ _).bind fun _ hr => (State.MemOk.loadAll (fun _ => plainLoad_ok _ _) hr hr _ _ _ _).bind fun _ hu => State.MemOk.doneAcquire hu _ _

theorem vstxBody_ok (t : ETy) (o : VOpts) (q : StOrd) (ix64 : Bool) (x : XReg) (d v : VReg) : BodyOk (vstxBody t o q ix64 x d v) :=
  fun _ _ h => (h.vbegin _ _).bind fun _ hr => hr.storeAll _ _ _ _ _ _

theorem vldtBody_ok (t : ETy) (o : VOpts) (q : LdOrd) (x p : XReg) (d : VReg) : BodyOk (vldtBody t o q x p d) :=
  fun _ _ h => (h.vbegin _ _).bind fun _ hr => (State.MemOk.loadAll (fun _ => stashLoad_ok) hr hr _ _ _ _).bind fun _ hu => State.MemOk.doneAcquire hu _ _

theorem State.MemOk.amoElem {s : State} {r : VRun} (hr : r.src.MemOk) (h : s.MemOk) (op : AmoOp) (t : ETy) (q : VamoOrd) (discard : Bool)
    (base : Word) (ix64 : Bool) (d v b : VReg) (lost : Bool) (e : Nat) :
    Ends State.MemOk Stop.MemOk (r.amoElem op t q discard base ix64 d v b lost s e) :=
  (acc (h.atomic _ _ _ _ _) hr e).bind fun _ hu => State.MemOk.ite (vectorPoison hu _) ((vectorPoison hu _).setElem _ _ _)

theorem vamoBody_ok (op : AmoOp) (t : ITy) (o : VOpts) (q : VamoOrd) (ix64 discard : Bool) (x : XReg) (d v b : VReg) :
    BodyOk (vamoBody op t o q ix64 discard x d v b) := fun _ _ h =>
  (h.vbegin _ _).bind fun _ hr => (hr.vcheck _ _ _ _).seq ((hr.release _).bind fun _ hs => (board hs _ _ _).seq
    ((each (fun _ _ _ h => amoElem hr h _ _ _ _ _ _ _ _ _ _ _) hr hs).bind fun _ hu => State.MemOk.doneAcquire hu _ _))

/-! ### Mill queues and lane threads -/

theorem heldMill_ok {s : State} (h : s.MemOk) : Ends (fun _ => True) Stop.MemOk (heldMill s) := .ite trivial h

theorem vfeedBody_ok (f : Feed) (t : FTy) (o : VOpts) (v : VReg) : BodyOk (vfeedBody f t o v) := by
  intro en s h
  refine (h.vbegin _ _).bind fun r hr => .ite (hr.done _) ((heldMill_ok hr).bind fun m _ => .ite hr ?_)
  refine Ends.bind (P := State.MemOk) (ended (setMill (foldl (fun _ _ h => vectorPoison h _) _ (hr.lanes r)) _ _) hr) fun _ hu => State.MemOk.done hu _

theorem vdrainBody_ok (f64 : Bool) (t : FTy) (o : VOpts) (d : VReg) : BodyOk (vdrainBody f64 t o d) := by
  intro en s h
  refine (h.vbegin _ _).bind fun r hr => .ite (hr.done _) ((heldMill_ok hr).bind fun m _ => .ite hr ?_)
  exact Ends.bind (P := State.MemOk) (ended (foldl (fun _ _ h => setElem h _ _ _) _ (lanes (setMill hr _ _) r)) hr) fun _ hu => State.MemOk.done hu _

theorem vdetachBody_ok (o : VOpts) (v : VReg) (n : BitVec 4) (x : XReg) : BodyOk (vdetachBody o v n x) := fun _ _ h =>
  (h.vbegin _ _).bind fun _ hr => (hr.vcheck _ _ _ _).seq ((hr.whole _).seq ((hr.release _).bind fun _ hs => State.MemOk.done (by exact hs) _))

theorem vfenceBody_ok (sc : Scope) : BodyOk (vfenceBody sc) := by
  intro en s h
  refine .ite h ((h.vbegin _ _).bind fun r hr => .ite hr ?_)
  dsimp only
  split
  · exact hr.done _
  · next d _ =>
    have hs : State.MemOk (if sc == .system then ({ r.src with ctx := { r.src.ctx with detach := none } } : State).fabricClean r.src.ctx.die
        else { r.src with ctx := { r.src.ctx with detach := none } }) := .ite (fabricClean (by exact hr) _) hr
    split
    · exact State.MemOk.vraise hs _ _ _ _ _ _
    · exact State.MemOk.done hs _

namespace State.MemOk
variable {s : State}

theorem endThread (h : s.MemOk) (e : Nat) : (s.endThread e).MemOk := h

theorem execLexit (h : s.MemOk) : Out.MemOk (execLexit s) := by
  refine Ends.settle ((h.legal _ _).seq ?_)
  split
  · exact h.endThread _
  · exact h

theorem laneFault (h : s.MemOk) (e c : Nat) (a : Word) : (s.laneFault e c a).MemOk := h

theorem execLaneThreadLimit (h : s.MemOk) : Out.MemOk (execLaneThreadLimit s) := by
  unfold Machine.execLaneThreadLimit
  split
  · split
    · exact h
    · exact .ite (laneFault (by exact h.switchTo _) _ _ _) h
  · exact h

end State.MemOk
end Sys2Proof.Machine

namespace Sys2Proof.Machine

/-! ### Errors and what follows them -/

namespace State.MemOk
variable {s : State}

theorem takeFrame (h : s.MemOk) (d z : Nat) : (s.takeFrame d z).2.MemOk := h

theorem dramRead (h : s.MemOk) (l : Nat) : (s.dramRead l).MemOk := h.kept (kept_dramRead s l)

theorem readFrame (h : s.MemOk) (f : Nat) : Ends State.MemOk State.MemOk (s.readFrame f) :=
  (h.detectLines _ _).bind fun _ ht => foldl (fun _ _ h => dramRead h _) _ ht

theorem unfillFrame (h : s.MemOk) (f : Nat) : (s.unfillFrame f).MemOk :=
  foldl (fun _ _ h => (unfillMaps h _ _ _ _).unfillMaps _ _ _ _) _ h

theorem forgetFrame (h : s.MemOk) (f : Nat) : (s.forgetFrame f).MemOk := h

theorem renameFrame (h : s.MemOk) (a b : Nat) : (s.renameFrame a b).MemOk := h

theorem healRetired (h : s.MemOk) (a b : Nat) : (s.healRetired a b).MemOk := h

theorem reeveStore (h : s.MemOk) (pa : Nat) (bs : List Byte) : Ends State.MemOk State.MemOk (s.reeveStore pa bs) := by
  refine Ends.bind (P := State.MemOk) (Ends.foldE (fun s l hs => .ite hs ?_) _ h) fun _ ht => putBytes ht _ _ _
  exact (hs.detectLine _ _).map fun _ hu => touch hu _ _ _ _ _ _

theorem rewriteLeaf (h : s.MemOk) (f : Found) (old new : Nat) : Ends State.MemOk State.MemOk (s.rewriteLeaf f old new) := by
  unfold State.rewriteLeaf
  refine .ite (h.reeveStore _ _) ?_
  have ht := h.takeFrame (dieOfPa f.entry) 0
  generalize s.takeFrame (dieOfPa f.entry) 0 = r at ht ⊢
  split
  · exact ht
  · extract_lets page
    clear_value page
    exact Ends.bind (P := State.MemOk) (reeveStore (by exact ht) _ _) fun _ hu => reeveStore hu _ _

theorem l2Touch (h : s.MemOk) (d : BitVec 2) (p : Option Nat) (l : Nat) (a b : Bool) : (s.l2Touch d p l a b).MemOk :=
  h.kept (kept_l2Touch s d p l a b)

theorem replaceFrame (h : s.MemOk) (old new : Nat) (found : List Found) : Ends State.MemOk State.MemOk (s.replaceFrame old new found) := by
  unfold State.replaceFrame
  refine .ite h ((h.readFrame _).bind fun t ht => ?_)
  refine (Ends.foldE (fun _ _ h => rewriteLeaf h _ _ _) _ ((((ht.unfillFrame old).forgetFrame old).moveBytes _ _).renameFrame old new)).bind
    fun u hu => ?_
  have hv := healRetired (foldl (f := fun s l => s.l2Touch (BitVec.ofNat 2 (dieOfPa new)) (some 3) l true true) (fun _ _ h => l2Touch h _ _ _ _ _)
    (linesOf new 65536) (foldl (f := fun s f => s.dropTlb f.lease none (fun e => decide (e.pa ≤ old) && decide (old < e.pa + 2 ^ e.size)))
      (fun _ _ h => dropTlb h _ _ _) found hu)) old new
  exact State.MemOk.ite (hv.addBox _ _) ((hv.addBox _ _).addRecord _ _ _ _)

theorem retirePage (h : s.MemOk) (old : Nat) : Ends State.MemOk State.MemOk (s.retirePage old) := by
  unfold State.retirePage
  refine .ite h ?_
  have ht : (({ s with reeve := { s.reeve with retired := s.reeve.retired ++ [old] } } : State).takeFrame (dieOfPa old) (zoneOf old)).2.MemOk :=
    takeFrame (by exact h) _ _
  split
  · next e => rwa [e] at ht
  · next e =>
    rw [e] at ht
    exact replaceFrame ht _ _ _

theorem tryRetire (h : s.MemOk) (p : Nat) : (s.tryRetire p).MemOk := by
  unfold State.tryRetire
  split
  · next e => exact (h.retirePage p).ok e
  · exact (h.undone _).post _ _

theorem execPageRetire (h : s.MemOk) : Out.MemOk (execPageRetire s) := by
  unfold Machine.execPageRetire
  split
  · exact .ite trivial (h.tryRetire _)
  · exact h

theorem endNotice (h : s.MemOk) (k : Ctx) (c : Nat) (own : Bool) (v : Word) : (s.endNotice k c own v).MemOk := h.of_eq (s.endNotice_mem k c own v)

theorem discardSaved (h : s.MemOk) (k : Ctx) : (s.discardSaved k).MemOk := by
  have ht := ((h.abortColls (fun c => c.ctx == k.id && k.handles.any (fun h => h.2 == c.id))).freeCtx k).releaseMill k
  exact finishNest (.ite ht (ht.modNest _ _)) _

theorem endSub (h : s.MemOk) (l b : Byte) (c : Nat) (v : Word) : (s.endSub l b c v).MemOk :=
  foldl (fun _ _ h => .ite (terminate h _ _ _ _) ((endNotice h _ _ _ _).discardSaved _)) _ h

theorem dropNests (h : s.MemOk) (l b : Byte) : (s.dropNests l b).MemOk := foldl (fun _ _ h => (modNest h _ _).finishNest _) _ h

theorem dropLine (h : s.MemOk) (d : BitVec 2) (y : L2Way) (i : Nat) : (s.dropLine d y i).MemOk := h

theorem startRetiring (h : s.MemOk) (line : Nat) (w : BitVec 16) (l b : Byte) : (s.startRetiring line w l b).MemOk := h

theorem l2WriteBack (h : s.MemOk) (d : BitVec 2) (y : L2Way) : (s.l2WriteBack d y).MemOk := h.kept (kept_l2WriteBack s d y)

theorem quarantine (h : s.MemOk) (d : BitVec 2) (slice way : Nat) (l b : Byte) : (s.quarantine d slice way l b).MemOk :=
  modDie (foldl (fun _ _ h => foldl (fun _ _ h => (startRetiring h _ _ _ _).post _ _) _ (l2WriteBack h _ _)) _ h) _ _

theorem poisonLine (h : s.MemOk) (l : Nat) (w : BitVec 16) : (s.poisonLine l w).MemOk := h.kept (kept_poisonLine s l w)

theorem contain (h : s.MemOk) (d : BitVec 2) (y : L2Way) (i : Nat) : (s.contain d y i).MemOk := by
  unfold State.contain
  dsimp only
  split
  · exact ((h.poisonLine _ _).dropLine _ _ _).post _ _
  · exact (quarantine (tryRetire (startRetiring (dropLine (dropNests (abortColls (h.endSub _ _ _ _) _) _ _) _ _ _) _ _ _ _) _) _ _ _ _ _).addBox _ _
      |>.addRecord _ _ _ _

theorem execDirtyL2UeContainment (h : s.MemOk) : Out.MemOk (execDirtyL2UeContainment s) := by
  unfold Machine.execDirtyL2UeContainment
  split
  · exact h
  · exact State.MemOk.ite (h.contain _ _ _) h

theorem dramScan (h : s.MemOk) (l : Nat) : (s.dramScan l).MemOk := h.kept (kept_dramScan s l)

theorem execDramPatrolScrub (h : s.MemOk) : Out.MemOk (execDramPatrolScrub s) := by
  unfold Machine.execDramPatrolScrub
  split
  · exact .ite (h.dramScan _) trivial
  · exact foldl (fun _ _ h => dramScan h _) _ h
  · exact h

theorem scrubWay (h : s.MemOk) (d : BitVec 2) (y : L2Way) (i : Nat) : (s.scrubWay d y i).MemOk := by
  have hd : (s.l2Detect d (y.superblock * 4 + i)).1.MemOk := h.kept (kept_l2Detect s d _)
  unfold State.scrubWay
  split
  · next e => rwa [e] at hd
  · next e =>
    rw [e] at hd
    exact hd.post _ _

theorem execL2SliceScrub (h : s.MemOk) : Out.MemOk (execL2SliceScrub s) := by
  unfold Machine.execL2SliceScrub
  split
  · exact foldl (fun _ _ h => foldl (fun _ _ h => scrubWay h _ _ _) _ h) _ h
  · split
    · exact h
    · exact h.scrubWay _ _ _

theorem execCpFault (h : s.MemOk) : Out.MemOk (execCpFault s) := by
  unfold Machine.execCpFault
  split
  · exact (h.modDie _ _).post _ _
  · exact h

theorem execCpRestart (h : s.MemOk) : Out.MemOk (execCpRestart s) := by
  unfold Machine.execCpRestart
  split
  · exact .ite h ((h.modDie _ _).addBox _ _)
  · exact h

theorem respond (h : s.MemOk) (r : Req) (n : Nat) (ws : List Word) : (s.respond r n ws).MemOk := h

theorem execReeveFault (h : s.MemOk) : Out.MemOk (execReeveFault s) := by
  have ht : State.MemOk ((s.reeve.inbox.filter Waiting.begun).foldl (fun s w => s.respond w.req 3 []) s) :=
    foldl (by intro s w h; exact h) _ h
  exact post (by exact ht) _ _

theorem execReeveRestart (h : s.MemOk) : Out.MemOk (execReeveRestart s) := by
  refine .ite h ?_
  refine State.MemOk.foldl (fun _ _ h => addRecord h _ _ _ _) _ (addBox (foldl (fun _ _ h => terminate h _ _ _ _) _ ?_) _ _)
  exact foldl (fun _ _ h => post h _ _) _ h

theorem execErrinjPerform (h : s.MemOk) : Out.MemOk (execErrinjPerform s) := by
  unfold Machine.execErrinjPerform
  split
  · exact h.performInjection _
  · exact h

theorem strike (h : s.MemOk) (core line : Nat) (w : BitVec 16) (dirty : Bool) : (s.strike core line w dirty).MemOk :=
  .ite ((h.writeBack _ _).poisonLine _ _) h

theorem lost (h : s.MemOk) (c : CtxId) : (s.lost c).MemOk := by
  unfold State.lost
  split
  · exact h
  · exact .ite h (h.terminate _ _ _ _)

theorem corruptDram (h : s.MemOk) (l : Nat) (w : BitVec 16) : (s.corruptDram l w).MemOk := h

theorem corruptLine (h : s.MemOk) (d : BitVec 2) (y : L2Way) (i : Nat) (w : BitVec 16) : (s.corruptLine d y i w).MemOk := h

theorem setCore (h : s.MemOk) (n : Nat) (c : Core) : (s.setCore n c).MemOk := h

theorem execUncorrectableError (h : s.MemOk) : Out.MemOk (execUncorrectableError s) := by
  unfold Machine.execUncorrectableError
  split
  · split
    · exact .ite (h.corruptDram _ _) trivial
    · dsimp only
      split
      · exact h
      · exact (h.setCore _ _).strike _ _ _ _
    · split
      · exact h
      · exact h.corruptLine _ _ _ _
    · exact (h.setCore _ _).strike _ _ _ _
    · exact h.modCore _ _
    · exact h.lost _
    · exact h.lost _
    · exact h.lost _
    · exact h.lost _
    · exact .ite h (h.setMill _ _)
    · exact h.modCore _ _
  · exact h

end State.MemOk
end Sys2Proof.Machine

namespace Sys2Proof.Machine

/-! ### Streams -/

open State.MemOk in
theorem strsetBody_ok (a : XReg) (k : BitVec 4) : BodyOk (strsetBody a k) := by
  intro en s h
  refine (h.vbegin _ _).bind fun r hr => .ite (hr.postStream _) ((hr.vcheck _ _ _ _).seq (State.MemOk.done ?_ _))
  exact State.MemOk.modCore (State.MemOk.modMyFe hr _) _ _

namespace State.MemOk
variable {s : State}

theorem unboard (h : s.MemOk) (slot : Nat) : (s.unboard slot).MemOk := h.modCore _ _

theorem execStrset (h : s.MemOk) (a : XReg) (k : BitVec 4) : Out.MemOk (execStrset a k s) :=
  Ends.settle ((h.command _).seq (h.takeUnit.bind fun _ ht => (check ht _ _ _).seq
    (.join (P := fun x : List Word × State => x.2.MemOk) ht (readBlock ht _ _) fun ⟨_, _⟩ hu => (check hu _ _ _).seq
      (.ite hu (vqueue (strsetBody_ok _ _) (vcommit hu (.strset a k)) _)))))

theorem as {f : State → State} (keeps : ∀ s, s.MemOk → (f s).MemOk) (h : s.MemOk) (c : CtxId) : (s.as c f).MemOk :=
  (keeps _ (h.switchTo c)).switchTo _

theorem setStream (h : s.MemOk) (slot : Nat) (t : Stream) : (s.setStream slot t).MemOk := h.modMyFe _

/-- The load and the conversion are variables here, so that the kernel does not compute them. -/
theorem streamRead (t : Stream) (n : Nat) : ∀ (got : List StreamElem) {s : State}, s.MemOk → (s.streamRead t n got).2.2.MemOk := by
  have hl (s : State) (a : Agent) (va : Word) (n : Nat) (k : Keep) (h : s.MemOk) := h.load a va n k
  obtain ⟨load, e⟩ : ∃ r, r = State.load := ⟨_, rfl⟩
  obtain ⟨conv, e'⟩ : ∃ r, r = loadConv := ⟨_, rfl⟩
  delta State.streamRead State.streamRead._f
  rw [← e] at hl
  rw [← e, ← e']
  clear e e'
  induction n with
  | zero => exact fun _ _ h => h
  | succ n ih =>
    intro got s h
    dsimp only [Nat.brecOn, Nat.brecOn.go] at ih ⊢
    split
    · exact h
    · split
      · exact h
      · split
        · next e => exact ih _ ((hl _ _ _ _ _ h).error e)
        · next e => exact (hl _ _ _ _ _ h).error e
        · next e => exact ih _ ((hl _ _ _ _ _ h).ok e)
        · next e => exact ih _ (clampIf ((hl _ _ _ _ _ h).ok e) _)

theorem boardFill (h : s.MemOk) (slot : Nat) (t : Stream) : (s.boardFill slot t).MemOk := by
  unfold State.boardFill
  split
  · exact h
  · exact h.modCore _ _

theorem streamFetch (h : s.MemOk) (slot : Nat) (t : Stream) : (s.streamFetch slot t).MemOk := by
  have hu := h.unboard slot
  have hs := (streamRead t (t.room - t.ahead.length) [] hu).setStream slot
    { t with ahead := t.ahead ++ ((s.unboard slot).streamRead t (t.room - t.ahead.length) []).1 }
  exact .ite (hu.postStream _) (.ite ((hs.boardFill _ _).postStream _) hs)

theorem streamStore (h : s.MemOk) (slot : Nat) (t : Stream) : (s.streamStore slot t).MemOk := by
  unfold State.streamStore
  refine .ite (h.postStream _) ?_
  split
  · next s' e =>
    obtain ⟨p, -, e⟩ := List.exists_of_findSome?_eq_some e
    have hr := h.reach .stream .store .strand p.2.1 t.size
    split at e
    · next u e' =>
      cases e
      exact postStream (hr.error e') _
    · cases e
  · refine setStream (foldl (fun s p hs => ?_) _ h) _ _
    have ha := hs.access .stream .store .strand p.2.1 t.size .normal
    dsimp only
    split
    · exact hs
    · next r u e =>
      have hu : u.MemOk := ha.ok e
      have hp := (hu.putBytes none r.pa (leBytes t.size p.2.2.1)).clampIf p.2.2.2
      exact .ite (hp.addMarks _ _) hp

theorem execStreamTransfer (h : s.MemOk) : Out.MemOk (execStreamTransfer s) := by
  unfold Machine.execStreamTransfer
  split
  · dsimp only
    split
    · exact h
    · exact State.MemOk.ite h (as (fun _ h => .ite (streamStore h _ _) (streamFetch h _ _)) h _)
  · exact h

/-! ### Event records and slots -/

theorem queueAt (h : s.MemOk) (level : BitVec 2) (l b : Byte) (a : Word) : Ends (fun x => x.2.MemOk) State.MemOk (s.queueAt level l b a) := by
  unfold State.queueAt
  dsimp only
  split
  · have ht := h.translate { State.reeveWho 0 with lease := l, sub := b } .atomic a (State.ordinaryTest none)
    split
    · next e => exact ht.ok e
    · next e => exact ht.error e
    · next e => exact ht.error e
  · have walk (fresh : Bool) {s : State} (h : s.MemOk) (fits : Option Leaf → Option Leaf) :
        Ends (fun x : Option Leaf × State => x.2.MemOk) State.MemOk
          (match s.stage2 { State.reeveWho 0 with lease := l, sub := b } fresh a.toNat with
            | .ok (x, s) => .ok (fits x, s)
            | .error (.fault s _) => .ok (none, s)
            | .error (.wait s) => .error s) := by
      have hs : Ends (fun x => x.2.MemOk) AStop.MemOk (s.stage2 { State.reeveWho 0 with lease := l, sub := b } fresh a.toNat) :=
        (kept_stage2 s _ _ _).ends h
      split
      · next e => exact (hs.ok e :)
      · next e => exact (hs.error e :)
      · next e => exact (hs.error e :)
    refine (walk false h _).bind fun ⟨x, t⟩ ht => .join (P := fun x : Option Leaf × State => x.2.MemOk) ht (walk true ht _) fun _ hu => hu
  · exact h
  · exact h

theorem setQueue (h : s.MemOk) (level : BitVec 2) (l b : Byte) (q : Option EvQueue) : (s.setQueue level l b q).MemOk := by
  unfold State.setQueue
  split
  · exact h
  · exact h
  · exact h
  · exact h

theorem tryRecord (h : s.MemOk) (r : EvRecord) : Ends State.MemOk State.MemOk (s.tryRecord r) := by
  unfold State.tryRecord
  split
  · exact h
  · refine (h.queueAt _ _ _ _).bind fun ⟨pa, t⟩ ht => ?_
    dsimp only at ht ⊢
    split
    · exact ht.setQueue _ _ _ _
    · refine .ite ht ((ht.detectLine _ _).bind fun u hu => ?_)
      exact .ite (touch hu _ _ _ _ _ _) (setQueue (putBytes (putBytes (touch (touch hu _ _ _ _ _ _) _ _ _ _ _ _) _ _ _) _ _ _) _ _ _ _)

theorem writeRecord (rs : List EvRecord) : ∀ (before : List EvRecord) {s : State}, s.MemOk → (s.writeRecord before rs).MemOk := by
  induction rs with
  | nil => exact fun _ _ h => h
  | cons r rs ih =>
    intro before s h
    rw [State.writeRecord]
    have hr : Ends State.MemOk State.MemOk (if before.any (fun x => x.level == r.level && x.lease == r.lease && (x.level != 1 || x.sub == r.sub))
        then .error s else s.tryRecord r) := .ite h (h.tryRecord r)
    dsimp only
    split
    · next e => exact (hr.ok e :)
    · next e => exact ih _ (hr.error e)

theorem execEventRecordWrite (h : s.MemOk) : Out.MemOk (execEventRecordWrite s) :=
  .ite h (State.MemOk.ite (writeRecord _ _ h) (post (writeRecord _ _ h) _ _))

theorem mapCtxs (h : s.MemOk) (p : Ctx → Bool) (f : Ctx → Ctx) : (s.mapCtxs p f).MemOk := h

theorem withCtx {f : State → State} (keeps : ∀ s, s.MemOk → (f s).MemOk) (h : s.MemOk) (k : Ctx) : (s.withCtx k f).MemOk := by
  refine .ite (keeps _ h) ?_
  have ht : (f { s with ctx := k, others := s.ctx :: s.others.erase k, lane := none }).MemOk := keeps _ h
  exact ht

theorem saveCtx (h : s.MemOk) (k : Ctx) : (s.saveCtx k).MemOk := .ite ((h.dropMaps _).mapCtxs _ _) (((h.dropMaps _).mapCtxs _ _).arrange _)

theorem restoreBad (h : s.MemOk) (k : Ctx) (inside : Nat → Bool) (bad : List Nat) : (s.restoreBad k inside bad).MemOk :=
  .ite h (foldl (fun _ _ h => (modCore h _ _).mapCtxs _ _) _ h)

theorem resumeCtx (h : s.MemOk) (k : Ctx) : (s.resumeCtx k).MemOk := by
  unfold State.resumeCtx
  have hi : State.MemOk (if k.isMiller then s else s.arrange k.core) := .ite h (h.arrange _)
  generalize (if k.isMiller then s else s.arrange k.core) = t at hi ⊢
  have hm (p f own) := (passMaps (mapCtxs hi p f) k.core k.fe k.lease k.sub).modCore k.core own
  exact .ite (hi.mapCtxs _ _) (.ite (hm _ _ _) (restoreBad (modCore (hm _ _ _) _ _) _ _ _))

theorem stopCtxs (h : s.MemOk) (d : BitVec 2) (p : Ctx → Bool) : (s.stopCtxs d p).MemOk := h.mapCtxs _ _

theorem settleCtxs (h : s.MemOk) (d : BitVec 2) : (s.settleCtxs d).MemOk :=
  foldl (fun _ _ h => .ite (.ite (callWake h _) (resumeCtx h _)) h) _ (foldl (fun _ _ h => .ite (saveCtx h _) (sendOut h _)) _ h)

theorem flushGroups (h : s.MemOk) (d : BitVec 2) (gs : List Nat) : (s.flushGroups d gs).MemOk :=
  modDie (foldl (fun _ _ h => l2WriteBack h _ _) _ h) _ _

theorem revokeNow (h : s.MemOk) (d : BitVec 2) : (s.revokeNow d).MemOk := by
  have ht := State.MemOk.foldl (f := fun s b => if (b.ldmClear[d.toNat]'d.isLt &&& ~~~b.ldm) = 0 then s
    else s.mapCtxs (fun k => k.lease == b.lease && k.sub == b.num && k.die == d)
      (fun k => { k with tdeleg := k.tdeleg &&& ~~~(b.ldmClear[d.toNat]'d.isLt &&& ~~~b.ldm) }))
    (fun _ _ h => .ite h (mapCtxs h _ _)) s.reeve.subs h
  exact ht

theorem boundary (h : s.MemOk) (d : BitVec 2) : (s.boundary d).MemOk := by
  unfold State.boundary
  dsimp only
  split
  · exact h.post _ _
  · exact (((h.flushGroups _ _).modDie _ _).stopCtxs _ _).revokeNow _

theorem execSlotBoundary (h : s.MemOk) : Out.MemOk (execSlotBoundary s) := by
  unfold Machine.execSlotBoundary
  split
  · next d _ =>
    have ht : State.MemOk (if decide ((s.die d).slotEnd.toNat ≤ s.time.toNat) then s.boundary d else s) := .ite (h.boundary d) h
    exact State.MemOk.ite ((ht.settleCtxs d).post _ _) (ht.settleCtxs d)
  · exact h

end State.MemOk
end Sys2Proof.Machine

namespace Sys2Proof.Machine

/-! ### Boot, power, the fabric and the control cores -/

namespace State.MemOk
variable {s : State}

theorem execDeviceBoot (h : s.MemOk) : Out.MemOk (execDeviceBoot s) := by
  unfold Machine.execDeviceBoot
  split
  · dsimp only
    split
    · exact h
    · exact h
  · exact h

theorem loseCaches (h : s.MemOk) (d : BitVec 2) : (s.loseCaches d).MemOk := by
  unfold State.loseCaches
  extract_lets mine clean t
  have ht : t.MemOk := foldl (fun s p hs => ?_) _ h
  · exact flushGroups (by exact ht) _ _
  exact .ite ((unfillMaps (foldl (fun _ _ h => writeBack h _ _) _ hs) _ _ _ _).unfillMaps _ _ _ _) hs

theorem enterPower (h : s.MemOk) (d : BitVec 2) (p : Nat) : (s.enterPower d p).MemOk := modDie (.ite (h.loseCaches _) h) _ _

theorem execPowerStateEntry (h : s.MemOk) : Out.MemOk (execPowerStateEntry s) := by
  refine State.MemOk.foldl (fun s d hs => ?_) _ h
  dsimp only
  split
  · exact (hs.post _ _).post _ _
  · exact hs.enterPower _ _

theorem execWake (h : s.MemOk) : Out.MemOk (execWake s) := by
  unfold Machine.execWake
  split
  · exact h.modDie _ _
  · exact h

theorem remoteReach (h : s.MemOk) (a n : Nat) (write : Bool) : Ends State.MemOk State.MemOk (s.remoteReach a n write) := by
  refine Ends.foldE (fun s l hs => .ite hs ?_) _ h
  exact (hs.detectLine _ _).map fun _ hu => touch hu _ _ _ _ _ _

theorem reply (h : s.MemOk) (m : FabricMsg) (b : Bool) (l : List Byte) : (s.reply m b l).MemOk := h

theorem execFabricMessage (h : s.MemOk) : Out.MemOk (execFabricMessage s) := by
  have hr (a n write) := h.remoteReach a n write
  unfold Machine.execFabricMessage
  split
  · dsimp only
    split
    · exact State.MemOk.ite (by exact h) h
    · refine .ite h ?_
      split
      · exact h.post _ _
      · exact reply (by exact h) _ _ _
    · refine .ite h ?_
      split
      · next e => exact ((hr _ _ _).error e).post _ _
      · next e => exact (putBytes ((hr _ _ _).ok e) _ _ _).reply _ _ _
    · refine .ite h ?_
      split
      · next e => exact ((hr _ _ _).error e).post _ _
      · next e => exact reply ((hr _ _ _).ok e) _ _ _
    · refine .ite h (.ite (h.reply _ _ _) ?_)
      split
      · next e => exact ((hr _ _ _).error e).post _ _
      · next e => exact (putBytes ((hr _ _ _).ok e) _ _ _).reply _ _ _
    · exact h.reply _ _ _
    · split
      · exact h
      · exact State.MemOk.ite (h.deliver _) h
    · split
      · exact h
      · exact State.MemOk.ite (h.post _ _) h
  · exact h

theorem modCc (h : s.MemOk) (n : Nat) (f : CcCore → CcCore) : (s.modCc n f).MemOk := h

theorem ccDone (h : s.MemOk) (a : CcAccess) (v : Word) : (s.ccDone a v).MemOk := h

theorem ccNext (h : s.MemOk) (a : CcAccess) : (s.ccNext a).MemOk := h

theorem keepWaiting (h : s.MemOk) (w : Waiting) : (s.keepWaiting w).MemOk := .ite h h

theorem arrives (h : s.MemOk) (r : Req) (b : ReqBody) : (s.arrives r b).MemOk := (h.keepWaiting _).post _ _

theorem windowStore (h : s.MemOk) (a : CcAccess) (pa n : Nat) : (s.windowStore a pa n).MemOk := .ite h (h.arrives _ _)

theorem ccAccess (h : s.MemOk) (a : CcAccess) (pa n : Nat) : Ends State.MemOk AStop.MemOk (s.ccAccess a pa n) := by
  unfold State.ccAccess
  have hr (b : Bool) : (if b then (0, s) else s.readAt .scalar pa n).2.MemOk := iteInduction (motive := fun x : Nat × State => x.2.MemOk)
    (fun _ => h) (fun _ => h.readAt _ _ _)
  have put {t : State} (ht : t.MemOk) (v : Nat) : Ends State.MemOk AStop.MemOk
      (t.putAt .scalar pa n v >>= fun t => .ok (if isDeviceRegion pa && !isCounterWindow pa then t.windowStore a pa n else t)) :=
    (ht.putAt _ _ _ _).bind fun _ hu => State.MemOk.ite (windowStore hu _ _ _) hu
  have cleared {u : State} (hu : u.MemOk) (b : Bool) (p : Nat → Bool) :
      State.MemOk (if b then { u with poison := u.poison.filter p } else u) := .ite hu hu
  dsimp only
  split
  · exact (hr _).ccDone _ _
  · exact (put (hr _) _).bind fun _ hu => ccNext hu _
  · exact (put (hr _) _).bind fun _ hu => (cleared hu _ _).ccDone _ _
  · exact (put (hr _) _).bind fun _ hu => (cleared hu _ _).ccDone _ _
  · exact ((hr _).ccDone _ _).modCc _ _
  · exact .ite ((put (hr _) _).bind fun _ hu => (ccDone hu _ _).modCc _ _) (((hr _).ccDone _ _).modCc _ _)
  · exact hr _
  · exact hr _
  · exact hr _

theorem setSelect (h : s.MemOk) (d : BitVec 2) (k : Nat) (v : Word) : (s.setSelect d k v).MemOk := h

theorem reeveAccess (h : s.MemOk) (a : CcAccess) : Ends State.MemOk State.MemOk (s.reeveAccess a) := by
  unfold State.reeveAccess
  dsimp only
  split
  · exact State.MemOk.ite (h.setSelect _ _ _) h
  · exact .ite (h.reeveStore _ _) h
  · exact .ite h ((h.detectLine _ _).map fun _ hu => touch hu _ _ _ _ _ _)
  · exact h

end State.MemOk

section
variable {s : State} {again : State → State} (keeps : ∀ s : State, s.MemOk → (again s).MemOk)
include keeps

theorem State.MemOk.ccPerform (h : s.MemOk) (a : CcAccess) : Out.MemOk (ccPerform a again s) := by
  have hc (w k sc al va n) := h.checked w ctx0 .scalar k sc al va n
  have access : Out.MemOk (match s.checked (ccWho a.level a.lease a.sub) ctx0 .scalar (CcKind.acc a.kind) .device (2 ^ a.size.toNat) a.addr
      (2 ^ a.size.toNat) with
      | .error (.fault s _) => .next s
      | .error (.wait s) => .next (again s)
      | .ok (e, s) =>
        let pa := e.phys a.addr
        let write := match a.kind with
          | .load | .lr | .fence | .other | .fcsr => false
          | .sc => (s.cc a.core.toNat).resv == some (pa, 2 ^ a.size.toNat)
          | .store | .amo _ | .amominu => true
        if s.ownedLine (pa / 128) write then .next (again s)
        else match s.detectLine (ccWho a.level a.lease a.sub) (pa / 128) with
          | .error s => .next (again s)
          | .ok s =>
            let atomic := match a.kind with | .amo _ | .amominu | .sc => true | .load | .store | .lr | .fence | .other | .fcsr => false
            let s := s.touch (ccWho a.level a.lease a.sub) (if e.cls == 2 || (atomic && isFabric pa) then .uncached else .l2) (pa / 128) write false .no
            match s.ccAccess a pa (2 ^ a.size.toNat) with
            | .error (.fault s _) => .next s
            | .error (.wait s) => .next (again s)
            | .ok s => .next s) := by
    split
    · next e => exact (hc _ _ _ _ _ _).error e
    · next e => exact keeps _ ((hc _ _ _ _ _ _).error e)
    · next x t e =>
      have ht : t.MemOk := (hc _ _ _ _ _ _).ok e
      refine .ite (keeps _ ht) ?_
      have hd := ht.detectLine (ccWho a.level a.lease a.sub) (x.phys a.addr / 128)
      split
      · next e => exact keeps _ (hd.error e)
      · next u e =>
        have hu : u.MemOk := hd.ok e
        have ha (p write) := (hu.touch (ccWho a.level a.lease a.sub) p (x.phys a.addr / 128) write false .no).ccAccess a
        dsimp only
        split
        · next e => exact (ha _ _ _ _).error e
        · next e => exact keeps _ ((ha _ _ _ _).error e)
        · next e => exact (ha _ _ _ _).ok e
  unfold Machine.ccPerform
  refine .ite ?_ (.ite h (.ite (keeps _ h) ?_))
  · have hr := h.reeveAccess a
    dsimp only [Out.MemOk]
    split
    · next e => exact hr.ok e
    · next e => exact keeps _ (hr.error e)
  · dsimp only
    split
    · exact h.ccNext _
    · exact h.ccDone _ _
    · exact (h.modCc _ _).ccNext _
    all_goals exact access

end

namespace State.MemOk
variable {s : State}

theorem ccParcel (h : s.MemOk) (w : Who) (a : Word) : Ends (fun x => x.2.MemOk) AStop.MemOk (ccParcel w a s) := by
  refine (h.checked _ _ _ _ _ _ _ _).bind fun ⟨e, t⟩ ht => .ite ht ?_
  have hd := detectLine ht w (e.phys a / 128)
  split
  · next e => exact hd.error e
  · next e => exact touch (hd.ok e) _ _ _ _ _ _

theorem ccFetch (h : s.MemOk) (w : Who) (a : Word) : Ends (fun x => x.2.MemOk) AStop.MemOk (ccFetch w a s) := by
  refine (h.ccParcel _ _).bind fun ⟨p, t⟩ ht => ?_
  dsimp only at ht ⊢
  split
  · exact ht
  · exact .ite ht ((ht.ccParcel _ _).bind fun _ hu => hu)

theorem ccExecute {again : State → State} (keeps : ∀ s : State, s.MemOk → (again s).MemOk) (h : s.MemOk) (core : BitVec 5) (level : BitVec 2)
    (lease sub : Byte) : Out.MemOk (ccExecute core level lease sub again s) := by
  have hf := h.ccFetch (ccWho level lease sub) (s.cc core.toNat).pc
  unfold Machine.ccExecute
  refine .ite h (.ite (keeps _ h) ?_)
  split
  · next e => exact hf.error e
  · next e => exact keeps _ (hf.error e)
  · next e => exact hf.ok e
  · next t e =>
    have ht : t.MemOk := hf.ok e
    split
    · exact ht
    · exact ht.ccPerform keeps _
    · exact ht

theorem execControlCoreAccess (h : s.MemOk) : Out.MemOk (execControlCoreAccess s) := by
  unfold Machine.execControlCoreAccess
  split
  · exact h.ccPerform (fun _ h => post h _ _) _
  · exact ccExecute (fun _ h => post h _ _) h _ _ _ _
  · exact h

theorem takeRoots (h : s.MemOk) (v : Vector Word 4) : Ends State.MemOk State.MemOk (s.takeRoots v) :=
  Ends.foldE (fun _ _ h => reeveStore h _ _) _ (by exact h)

theorem modLease (h : s.MemOk) (l : Byte) (f : Lease → Lease) : (s.modLease l f).MemOk := h

theorem modSub (h : s.MemOk) (l b : Byte) (f : Sub → Sub) : (s.modSub l b f).MemOk := h

theorem execLeaseMigration (h : s.MemOk) : Out.MemOk (execLeaseMigration s) := by
  have wake {t : State} (ht : t.MemOk) : State.MemOk (([0, 1, 2, 3] : List (BitVec 2)).foldl (fun s d => s.post .slotBoundary (.die d)) t) :=
    foldl (fun _ _ h => post h _ _) _ ht
  unfold Machine.execLeaseMigration
  split
  · next l arrive t pause roots _ =>
    extract_lets dies wakeSlots
    split
    · refine .ite h ?_
      split
      · exact (h.undone _).post _ _
      · next t e =>
        have ht : t.MemOk := (h.takeRoots _).ok e
        exact post (wake (by exact ht)) _ _
    · next k _ =>
      cases k.pausedAt <;> cases arrive
      case some.true => exact State.MemOk.ite h (wake (h.modLease _ _))
      case none.false => exact wake (foldl (fun _ _ h => stopCtxs h _ _) _ (h.modLease _ _))
      all_goals exact h
  · exact h

end State.MemOk
end Sys2Proof.Machine

namespace Sys2Proof.Machine

/-! ### Control registers and fronts -/

namespace State.MemOk
variable {s : State}

theorem setCtx (h : s.MemOk) (c : Ctx) : State.MemOk { s with ctx := c } := h

theorem ctlSet (h : s.MemOk) (n : Nat) (v : Word) : (s.ctlSet n v).MemOk := by
  unfold State.ctlSet
  dsimp only
  iterate 20 refine State.MemOk.ite (h.setCtx _) ?_
  iterate 2 refine State.MemOk.ite (h.modCore _ _) ?_
  refine State.MemOk.ite (h.modMyFe _) ?_
  iterate 3 refine State.MemOk.ite (h.setCtx _) ?_
  exact h.setErrinj _ _

theorem ctlAccess (h : s.MemOk) (n : Nat) (write : Bool) : Ends (fun _ => True) Stop.MemOk (ctlAccess n write s) := by
  unfold Machine.ctlAccess
  split
  · exact h
  · next r w _ =>
    refine (h.check _ _ _).seq (.ite ?_ ((h.check _ _ _).seq (h.check _ _ _)))
    cases w with
    | none => exact h
    | some l => exact (h.check _ _ _).seq (h.check _ _ _)

theorem ctlStore (h : s.MemOk) (n : Nat) (v : Word) : Ends State.MemOk Stop.MemOk (ctlStore n v s) := (h.check _ _ _).seq (h.ctlSet _ _)

theorem ctlRead (h : s.MemOk) (d : XReg) (n : Nat) : Ends State.MemOk Stop.MemOk (ctlRead d n s) :=
  (h.ctlAccess _ _).seq (.ite (h.drained.seq ((h.setX _ _).advance _)) ((h.setX _ _).advance _))

theorem ctlModify (h : s.MemOk) (f : Word → Word → Word) (d a : XReg) (n : Nat) : Ends State.MemOk Stop.MemOk (ctlModify f d a n s) :=
  (h.ctlAccess _ _).seq (h.drained.seq ((h.ctlStore _ _).bind fun _ ht => (setX ht _ _).advance _))

theorem execCtlr (h : s.MemOk) (d : XReg) (n : BitVec 12) : Out.MemOk (execCtlr d n s) := Ends.settle ((h.legal _ _).seq (h.ctlRead _ _))

theorem execCtlw (h : s.MemOk) (d a : XReg) (n : BitVec 12) : Out.MemOk (execCtlw d a n s) :=
  Ends.settle ((h.legal _ _).seq (h.ctlModify _ _ _ _))

theorem execCtlset (h : s.MemOk) (d a : XReg) (n : BitVec 12) : Out.MemOk (execCtlset d a n s) :=
  Ends.settle ((h.legal _ _).seq (.ite (h.ctlRead _ _) (h.ctlModify _ _ _ _)))

theorem execCtlclr (h : s.MemOk) (d a : XReg) (n : BitVec 12) : Out.MemOk (execCtlclr d a n s) :=
  Ends.settle ((h.legal _ _).seq (.ite (h.ctlRead _ _) (h.ctlModify _ _ _ _)))

theorem ctlEvent (h : s.MemOk) (n : Nat) : Ends State.MemOk Stop.MemOk (ctlEvent n s) := by
  unfold Machine.ctlEvent
  split
  · exact (h.ctlAccess _ _).seq (h.drained.seq (h.ctlStore _ _))
  · exact h

theorem execErrinjWrite (h : s.MemOk) : Out.MemOk (execErrinjWrite s) := by
  unfold Machine.execErrinjWrite
  split
  · exact State.MemOk.ite (h.setErrinj _ _) h
  · exact (h.ctlEvent _).settle
  · exact h

theorem arrive (h : s.MemOk) {d : FReg} {t : Tuple} {p : BitVec 32} {u : State} (e : s.arrive d t p = some u) : u.MemOk := by
  unfold State.arrive at e
  split at e
  · cases e
    exact h
  · cases e
    exact h
  · cases e

theorem finsElem {r : VRun} (hr : r.src.MemOk) (h : s.MemOk) (d : FReg) (ps : List VReg) (v : VReg) (e : Nat) :
    Ends State.MemOk Stop.MemOk (finsElem r d ps v s e) := by
  unfold Machine.finsElem
  dsimp only
  split
  · next e => exact vectorPoison (h.arrive e) _
  · exact h.trapAt hr _ _ _

theorem frontAcc {α : Type} {P : α → Prop} {r : ARes α} (h : Ends P AStop.MemOk r) (en : VQEntry) : Ends P Stop.MemOk (frontAcc en r) := by
  match r, h with
  | .ok _, h => exact h
  | .error (.fault t f), h =>
    have ht : t.MemOk := h
    exact ht.vraise (P := P) en frontSpec.tplot f.cause f.tval none 0
  | .error (.wait _), h => exact h

theorem imageCheck (h : s.MemOk) (en : VQEntry) (k : Acc) (b : Word) : Ends State.MemOk Stop.MemOk (imageCheck en k b s) :=
  .ite (h.vraise _ _ _ _ _ _) ((frontAcc (h.rangeCheck _ _ _ _) _).bind fun _ ht => ht)

end State.MemOk

open State.MemOk

theorem fcfgBody_ok (d : FReg) (x : XReg) : BodyOk (fcfgBody d x) := fun _ _ h =>
  (h.vbegin _ _).bind fun _ hr => .ite (State.MemOk.done (by exact hr) _) (hr.vraise _ _ _ _ _ _)

theorem finsBody_ok (o : VOpts) (d : FReg) (a b : VReg) : BodyOk (finsBody o d a b) := fun _ _ h =>
  (h.vcheck _ _ _ _).seq ((h.vbegin _ _).bind fun _ hr => (Ends.foldE (fun _ _ h => State.MemOk.finsElem hr h _ _ _ _) _ hr).bind fun _ ht =>
    (ended ht hr).bind fun _ hu => State.MemOk.done hu _)

theorem fmergeBody_ok (a b : FReg) : BodyOk (fmergeBody a b) := by
  intro en s h
  refine (h.vcheck _ _ _ _).seq ((h.vbegin _ _).bind fun r hr => Ends.bind (P := State.MemOk) (Ends.foldE (fun s x hs => ?_) _ hr) fun _ ht =>
    State.MemOk.done ht _)
  split
  · next e => exact hs.arrive e
  · exact hs.vraise _ _ _ _ _ _

theorem freadBody_ok (o : VOpts) (d v : VReg) (a : FReg) (x : XReg) : BodyOk (freadBody o d v a x) := by
  intro en s h
  refine (h.vcheck _ _ _ _).seq ((h.vbegin _ _).bind fun r hr => Ends.bind (P := State.MemOk) (ended (foldl (fun s e hs => ?_) _ hr) hr) fun _ ht =>
    (sendX ht _ _).done _)
  dsimp only
  split
  · exact hs
  · exact State.MemOk.setElem (foldl (fun _ _ h => State.MemOk.setElem h _ _ _) _ hs) _ _ _

theorem fclrBody_ok (d : FReg) : BodyOk (fclrBody d) := fun _ _ h => (h.vbegin _ _).bind fun _ hr => State.MemOk.done (by exact hr) _

theorem fsaveBody_ok (a : FReg) (x : XReg) : BodyOk (fsaveBody a x) := fun _ _ h =>
  (h.vcheck _ _ _ _).seq ((h.vbegin _ _).bind fun _ hr => (hr.imageCheck _ _ _).bind fun _ ht =>
    (Ends.foldE (fun _ _ h => State.MemOk.frontAcc (State.MemOk.store h _ _ _ _) _) _ ht).bind fun _ hu => State.MemOk.done hu _)

theorem floadBody_ok (d : FReg) (x : XReg) : BodyOk (floadBody d x) := by
  intro en s h
  refine (h.vbegin _ _).bind fun r hr => (hr.imageCheck _ _ _).bind fun t ht => Ends.bind (P := fun x : List (Option Nat) × State => x.2.MemOk)
    (Ends.foldE (fun x va hs => ?_) _ ht) fun ⟨ws, u⟩ hu => ?_
  · exact (State.MemOk.frontAcc (State.MemOk.load hs _ _ _ _) _).bind fun _ hu => hu
  have hv := vectorPoison hu (ws.any Option.isNone)
  dsimp only
  split
  · exact hv.vraise _ _ _ _ _ _
  · exact State.MemOk.done (by exact hv) _

end Sys2Proof.Machine

namespace Sys2Proof.Machine

/-! ### Requests to the Reeve -/

/-- Serving a request leaves memory in canonical form. -/
def Served.MemOk : Served → Prop
  | .answer _ _ s => s.MemOk
  | .wait s => s.MemOk

def ServeOk (run : Serve) : Prop := ∀ may r b {s : State}, s.MemOk → (run may r b s).MemOk

theorem Served.MemOk.ite {c : Prop} {_ : Decidable c} {x y : Served} (hx : x.MemOk) (hy : y.MemOk) : (if c then x else y).MemOk := by
  split
  · exact hx
  · exact hy

def MapStop.MemOk : MapStop → Prop
  | .status _ => True
  | .wait s => s.MemOk

/-- A property that each step on the way of `slot2` keeps holds of what it answers. What the Reeve reads and the frame that it takes are
variables here, so that the kernel does not compute them. -/
theorem Ends.slot2 {P : State → Prop} {E : MapStop → Prop} (w : Who) (large : Bool) (la n : Nat)
    (hr : ∀ s a, P s → Ends (fun x => P x.2) (fun e => ∀ u, e = .wait u → E (.wait u)) (s.readEntry w a))
    (hf : ∀ s d z, P s → P (s.takeFrame d z).2) (hused : ∀ (s : State) used, P s → P { s with reeve := { s.reeve with used := used } })
    (hm : ∀ s pa bs, P s → Ends P E (s.mapStore pa bs)) (hstop : ∀ k, E (.status k)) :
    ∀ {s : State} (table : Nat), P s → Ends (fun x => P x.2) E (s.slot2 w large la n table) := by
  obtain ⟨read, er⟩ : ∃ r, r = State.readEntry := ⟨_, rfl⟩
  obtain ⟨frame, ef⟩ : ∃ r, r = State.takeFrame := ⟨_, rfl⟩
  obtain ⟨zeros, ez⟩ : ∃ r, r = List.replicate 65536 (0 : Byte) := ⟨_, rfl⟩
  delta State.slot2 State.slot2._f
  rw [← er] at hr
  rw [← ef] at hf
  rw [← er, ← ef, ← ez]
  clear er ef ez
  induction n with
  | zero => exact fun _ _ => hstop _
  | succ n ih =>
    intro s table h
    dsimp only [Nat.brecOn, Nat.brecOn.go] at ih ⊢
    refine .ite h ?_
    split
    · exact hstop _
    · next e => exact (hr _ _ h).error e _ rfl
    · next e =>
      have ht := (hr _ _ h).ok e
      dsimp only at ht
      split
      · exact ih _ ht
      · exact hstop _
      · have hu := hf _ (dieOfPa table) 0 ht
        split
        · exact hstop _
        · next u e =>
          rw [e] at hu
          exact Ends.bind (P := P) (hm _ _ _ (hused _ _ hu)) fun _ hx => (hm _ _ _ hx).bind fun _ hy => ih _ hy

namespace State.MemOk
variable {s : State}

theorem answered (h : s.MemOk) (w : Waiting) : (s.answered w).MemOk := h

theorem attempt {run : Serve} (hrun : ServeOk run) (h : s.MemOk) (i : Instr) (w : Waiting) : (attempt i run w s).MemOk := by
  unfold Machine.attempt
  refine .ite (post (by exact h.keepWaiting w) _ _) (.ite ((h.answered _).respond _ _ _) ?_)
  have hr := hrun (fun k => w.begun || s.holds w.req k) w.req w.body h
  split
  · next e =>
    rw [e] at hr
    exact (answered hr _).respond _ _ _
  · next e =>
    rw [e] at hr
    exact (keepWaiting hr _).post _ _

theorem serve {run : Serve} (hrun : ServeOk run) (h : s.MemOk) (i : Instr) : Out.MemOk (serve i run s) := by
  unfold Machine.serve
  split
  · exact State.MemOk.ite (h.keepWaiting _) (.ite ((h.keepWaiting _).post _ _) (attempt hrun h _ _))
  · split
    · exact h
    · exact State.MemOk.ite h (.ite (h.post _ _) (attempt hrun h _ _))
  · exact h

theorem resetSteps (h : s.MemOk) (l b : Byte) (own : Bool) (v : Word) : (s.resetSteps l b own v).MemOk :=
  foldl (fun _ _ h => .ite h (post h _ _)) _
    (foldl (fun _ _ h => .ite (terminate h _ _ _ _) ((endNotice h _ _ _ _).discardSaved _)) _ (h.mapCtxs _ _))

theorem clearSub (h : s.MemOk) (l b : Byte) {t : State} (e : s.clearSub l b = some t) : t.MemOk := by
  unfold State.clearSub at e
  dsimp only at e
  split at e
  · cases e
  · have hs (cores mills ue) : State.MemOk { s with cores := cores, mills := mills, ue := ue } := h
    rw [← Option.some.inj e]
    refine foldl (fun _ _ h => ?_) _ ?_
    · exact flushGroups h _ _
    · exact hs _ _ _

theorem postHurt (h : s.MemOk) (l b : Byte) : (s.postHurt l b).MemOk :=
  foldl (fun _ _ h => foldl (fun _ _ h => post h _ _) _ h) _ h

theorem resetSub (h : s.MemOk) (l b : Byte) (own : Bool) (v : Word) : (s.resetSub l b own v).2.MemOk := by
  unfold State.resetSub
  have hd := h.dropNests l b
  generalize s.dropNests l b = t at hd ⊢
  have hr := hd.resetSteps l b own v
  dsimp only
  generalize t.resetSteps l b own v = u at hr ⊢
  split
  · exact hd
  · split
    · exact hr
    · split
      · dsimp only
        exact hr.postHurt _ _
      · next e =>
        dsimp only
        exact hr.clearSub _ _ e

theorem forgetSub (h : s.MemOk) (l b : Byte) : (s.forgetSub l b).MemOk := h

theorem stage2 (h : s.MemOk) (w : Who) (fresh : Bool) (a : Nat) : Ends (fun x => x.2.MemOk) AStop.MemOk (s.stage2 w fresh a) :=
  (kept_stage2 s w fresh a).ends h

theorem readEntry (h : s.MemOk) (w : Who) (a : Nat) : Ends (fun x => x.2.MemOk) AStop.MemOk (s.readEntry w a) := (kept_readEntry s w a).ends h

theorem slot1 (w : Who) (large : Bool) (va : Word) (n : Nat) :
    ∀ {s : State} (table : Nat), s.MemOk → Ends (fun x => x.2.MemOk) AStop.MemOk (s.slot1 w large va n table) := by
  induction n with
  | zero => exact fun _ h => h
  | succ n ih =>
    intro s table h
    rw [State.slot1]
    refine (h.stage2 _ _ _).bind fun ⟨l2, t⟩ ht => ?_
    dsimp only at ht ⊢
    split
    · exact ht
    · refine .ite ht ((ht.readEntry _ _).bind fun ⟨e, u⟩ hu => ?_)
      dsimp only at hu ⊢
      split
      · exact ih _ hu
      · exact hu

theorem mapStore (h : s.MemOk) (pa : Nat) (bs : List Byte) : Ends State.MemOk MapStop.MemOk (s.mapStore pa bs) := by
  have hs := h.reeveStore pa bs
  unfold State.mapStore
  split
  · next e => exact hs.ok e
  · next e => exact hs.error e

theorem slot2 (w : Who) (large : Bool) (la : Nat) (n : Nat) {s : State} (table : Nat) (h : s.MemOk) :
    Ends (fun x => x.2.MemOk) MapStop.MemOk (s.slot2 w large la n table) :=
  Ends.slot2 w large la n (fun s _ h => by
      have hr := h.readEntry w
      cases e : s.readEntry w _ with
      | ok x => exact (hr _).ok e
      | error y => exact fun u hu => by subst hu; exact (hr _).error e)
    (fun _ _ _ h => h.takeFrame _ _) (fun _ _ h => h) (fun _ _ _ h => mapStore h _ _) (fun _ => trivial) table h

theorem mapLeaf2 (h : s.MemOk) (r : Req) (large : Bool) (d : BitVec 2) (a e : Word) (root : Nat) :
    Ends State.MemOk MapStop.MemOk (mapLeaf2 r large d a e root s) :=
  (slot2 _ _ _ _ _ h).bind fun _ ht => (mapStore ht _ _).bind fun _ hu => dropTlb hu _ _ _

theorem mapLeaf1 (h : s.MemOk) (r : Req) (large : Bool) (d : BitVec 2) (a e : Word) (root : Nat) (owns : TEntry → Bool) :
    Ends State.MemOk MapStop.MemOk (mapLeaf1 r large d a e root owns s) := by
  unfold Machine.mapLeaf1
  dsimp only
  have hs (w : Who) := slot1 w large a 3 root h
  split
  · trivial
  · next e => exact (hs _).error e
  · trivial
  · next pa t e =>
    have ht : t.MemOk := (hs _).ok e
    split
    · trivial
    · next e => exact (ht.readEntry _ _).error e
    · next e => exact .ite trivial ((mapStore ((ht.readEntry _ _).ok e) _ _).bind fun _ hu => dropTlb hu _ _ _)

theorem mapped (h : s.MemOk) {r : Except MapStop State} (hr : Ends State.MemOk MapStop.MemOk r) : (mapped s r).MemOk := by
  match r, hr with
  | .ok _, hr => exact hr
  | .error (.status _), _ => exact h
  | .error (.wait _), _ => exact h

theorem accessReg (h : s.MemOk) (level : Nat) (reg : CtxReg) (v : Option Word) {p : Word × State} (e : accessReg level reg v s = some p) :
    p.2.MemOk := by
  unfold Machine.accessReg at e
  dsimp only at e
  split at e
  · cases e
    cases v <;> exact h
  · cases e
    cases v <;> exact h
  · cases e
    cases v <;> exact h
  · split at e
    · cases e
      exact h
    · split at e
      · cases e
      · cases e
        exact h
  · split at e
    · cases e
      exact h
    · cases e
      exact h
  · split at e
    · cases e
    · split at e
      · cases e
        exact h
      · split at e
        · cases e
        · cases e
          exact h
  · split at e
    · cases e
    · split at e
      · cases e
      · split at e
        · cases e
          exact h
        · split at e
          · cases e
            exact h.ctlSet _ _
          · cases e

theorem recordAt (h : s.MemOk) (w : Who) (va : Word) : Ends (fun x => x.2.MemOk) AStop.MemOk (s.recordAt w va) := by
  refine .ite h ((h.checked _ _ _ _ _ _ _ _).bind fun ⟨e, t⟩ ht => .ite ht ?_)
  have hd := detectLine ht w (e.phys va / 128)
  split
  · next e => exact hd.error e
  · next e => exact touch (hd.ok e) _ _ _ _ _ _

end State.MemOk
end Sys2Proof.Machine

namespace Sys2Proof.Machine
open State.MemOk

theorem createSub_ok : ServeOk createSub := by
  intro may r b s h
  unfold createSub
  split
  · dsimp only
    refine .ite (.ite h (.ite h ?_)) (.ite h ?_)
    · have ht := fun v => h.takeRoots v
      split
      · exact h.undone _
      · next t e =>
        have hu : t.MemOk := (ht _).ok e
        have hl (reeve) : State.MemOk { t with reeve := reeve } := hu
        exact State.MemOk.post (hl _) _ _
    · split
      · exact h
      · refine .ite h ?_
        split
        · exact .ite h (.ite h (h.modSub _ _ _))
        · exact .ite h h
  · exact h

theorem resetReq_ok : ServeOk resetReq := by
  intro may r b s h
  unfold resetReq
  split
  · refine .ite h (.ite h ?_)
    have hr := h.resetSub r.tLease r.tSub (r.level == 1) 1
    split
    · next e =>
      rw [e] at hr
      exact hr
    · next e =>
      rw [e] at hr
      exact hr
  · exact h

theorem destroyReq_ok : ServeOk destroyReq := by
  intro may r b s h
  unfold destroyReq
  split
  · refine .ite h (.ite h ?_)
    have hr := h.resetSub r.tLease r.tSub (r.level == 1) 2
    split
    · next e =>
      rw [e] at hr
      exact hr
    · next e =>
      rw [e] at hr
      exact State.MemOk.forgetSub hr _ _
  · exact h

theorem mapReq_ok : ServeOk mapReq := by
  intro may r b s h
  unfold mapReq
  split
  · refine .ite h (.ite (.ite h ?_) ?_)
    · split
      · exact h
      · exact .ite h (.ite h (h.mapped (h.mapLeaf2 _ _ _ _ _ _)))
    · split
      · exact h
      · exact .ite h (.ite h (h.mapped (h.mapLeaf1 _ _ _ _ _ _ _)))
  · exact h

theorem limitsReq_ok : ServeOk limitsReq := by
  intro may r b s h
  unfold limitsReq
  split
  · exact .ite h (.ite h (h.modSub _ _ _))
  · exact h

theorem occupantsReq_ok : ServeOk occupantsReq := by
  intro may r b s h
  unfold occupantsReq
  split
  · exact .ite h (.ite h (h.modDie _ _))
  · exact h

theorem countersReq_ok : ServeOk countersReq := by
  intro may r b s h
  unfold countersReq
  split
  · exact .ite h h
  · exact h

theorem injectReq_ok : ServeOk injectReq := by
  intro may r b s h
  unfold injectReq
  split
  · exact .ite h (.ite h (h.setErrinj _ _))
  · exact h

theorem delegateReq_ok : ServeOk delegateReq := by
  intro may r b s h
  unfold delegateReq
  split
  · exact .ite h (.ite h h)
  · exact h

theorem revokeReq_ok : ServeOk revokeReq := by
  intro may r b s h
  unfold revokeReq
  split
  · exact .ite h h
  · exact h

theorem queueReq_ok : ServeOk queueReq := by
  intro may r b s h
  unfold queueReq
  split
  · next base k =>
    refine .ite h (.ite h ?_)
    extract_lets one
    have hq : Ends (fun x : List (Option Nat) × State => x.2.MemOk) State.MemOk (foldE one ([], s) (List.range (2 ^ k.toNat))) := by
      refine Ends.foldE (P := fun x : List (Option Nat) × State => x.2.MemOk) (fun st i ht => ?_) _ h
      exact (queueAt ht _ _ _ _).bind fun _ hu => hu
    split
    · exact h.undone _
    · next ps t e =>
      have ht : t.MemOk := hq.ok e
      refine .ite h ?_
      split
      · exact h.undone _
      · next e => exact setQueue ((Ends.foldE (P := State.MemOk) (fun _ _ h => reeveStore h _ _) _ ht).ok e) _ _ _ _
  · exact h

theorem ldmReq_ok : ServeOk ldmReq := by
  intro may r b s h
  unfold ldmReq
  split
  · exact .ite h (.ite h (h.modSub _ _ _))
  · exact h

theorem answer_ok {s : State} (h : s.MemOk) (r : Req) (c : CtxId) {k : Ctx → Await → Served} (hk : ∀ x a, (k x a).MemOk) :
    (answer r c s k).MemOk := by
  unfold answer
  split
  · exact h
  · split
    · exact h
    · exact .ite h (.ite h (hk _ _))

theorem resumeReq_ok : ServeOk resumeReq := by
  intro may r b s h
  unfold resumeReq
  split
  · exact answer_ok h _ _ fun _ _ => h.mapCtxs _ _
  · exact h

theorem terminateReq_ok : ServeOk terminateReq := by
  intro may r b s h
  unfold terminateReq
  split
  · exact answer_ok h _ _ fun _ _ => State.MemOk.ite (h.terminate _ _ _ _) ((h.endNotice _ _ _ _).discardSaved _)
  · exact h

theorem contextReq_ok : ServeOk contextReq := by
  intro may r b s h
  unfold contextReq
  split
  · refine answer_ok h _ _ fun x _ => ?_
    dsimp only
    split
    · exact h
    · refine withCtx (fun t ht => ?_) h x
      split
      · exact ht
      · next e => exact ht.accessReg _ _ _ e
  · exact h

theorem breakpointReq_ok : ServeOk breakpointReq := by
  intro may r b s h
  unfold breakpointReq
  split
  · refine .ite h ?_
    split
    · exact h
    · exact .ite (h.mapCtxs _ _) (.ite h (.ite h (h.mapCtxs _ _)))
  · exact h

theorem launchReq_ok : ServeOk launchReq := by
  intro may r b s h
  unfold launchReq
  split
  · refine .ite h (.ite h ?_)
    have hr (w va) := h.recordAt w va
    split
    · next e => exact (hr _ _).error e
    · next e => exact (hr _ _).error e
    · next ws t e =>
      have ht : t.MemOk := (hr _ _).ok e
      refine .ite ht ?_
      have hl (w c ws) := ht.launchAddrs w c ws
      split
      · next e => exact (hl _ _ _).error e
      · next e => exact (hl _ _ _).error e
      · next u e =>
        have hu : u.MemOk := (hl _ _ _).ok e
        exact .ite hu (hu.acceptNest _ _ _ _ _)
  · exact h

theorem blackBoxReq_ok : ServeOk blackBoxReq := by
  intro may r b s h
  unfold blackBoxReq
  split
  · refine .ite h ?_
    dsimp only
    split
    · exact h
    · exact h
  · exact h

theorem powerReq_ok : ServeOk powerReq := by
  intro may r b s h
  unfold powerReq
  split
  · exact .ite h (.ite h ((h.modLease _ _).post _ _))
  · exact h

theorem attestReq_ok : ServeOk attestReq := by
  intro may r b s h
  unfold attestReq
  split
  · exact .ite h (.ite h h)
  · exact h

theorem quarantineReq_ok : ServeOk quarantineReq := by
  intro may r b s h
  unfold quarantineReq
  split
  · exact .ite h (.ite h (h.modDie _ _))
  · exact h

end Sys2Proof.Machine

namespace Sys2Proof.Machine
open State.MemOk

/-! ### Moves across lanes -/

theorem move_ok {r : VRun} (hr : r.src.MemOk) (t : ETy) (d : VReg) (src : Nat → Option (Nat × Bool)) :
    Ends State.MemOk Stop.MemOk (r.move t d src) := loop (fun _ _ _ h => .ite (State.MemOk.setElem h _ _ _) h) hr hr _ _

theorem moveBody_ok (k : VSpec) (t : ETy) (d : VReg) (ok : Bool) (takes : VRun → Nat → List (VReg × Nat))
    (src : VRun → Nat → Option (Nat × Bool)) : BodyOk (moveBody k t d ok takes src) := fun _ _ h =>
  (h.vbegin _ _).bind fun _ hr => (hr.vcheck _ _ _ _).seq ((move_ok (taking_ok hr _) _ _ _).bind fun _ hu => State.MemOk.done hu _)

theorem shiftBody_ok (t : ETy) (o : VOpts) (d a : VReg) (ok : Bool) (j : VRun → Nat → Option Nat) : BodyOk (shiftBody t o d a ok j) :=
  moveBody_ok _ _ _ _ _ _

theorem vslideupBody_ok (t : ETy) (o : VOpts) (d a : VReg) (k : VCount) : BodyOk (vslideupBody t o d a k) := fun _ _ h =>
  shiftBody_ok _ _ _ _ _ _ _ h

theorem vslidednBody_ok (t : ETy) (o : VOpts) (d a : VReg) (k : VCount) : BodyOk (vslidednBody t o d a k) := fun _ _ h =>
  shiftBody_ok _ _ _ _ _ _ _ h

theorem vbcastBody_ok (t : ETy) (o : VOpts) (d a : VReg) (k : VCount) : BodyOk (vbcastBody t o d a k) := fun _ _ h =>
  shiftBody_ok _ _ _ _ _ _ _ h

theorem vinsertBody_ok (t : ETy) (o : VOpts) (d : VReg) (x : XReg) (k : VCount) : BodyOk (vinsertBody t o d x k) := fun _ _ h =>
  moveBody_ok _ _ _ _ _ _ _ h

theorem vpermBody_ok (t : ETy) (o : VOpts) (d a b : VReg) : BodyOk (vpermBody t o d a b) := by
  unfold vpermBody
  exact moveBody_ok _ _ _ _ _ _

theorem vredBody_ok (op : RedOp) (t : ITy) (o : VOpts) (x : XReg) (v : VReg) : BodyOk (vredBody op t o x v) := by
  unfold vredBody
  exact reduceBody_ok _ _ _ _ _ _

theorem vfredBody_ok (op : FRedOp) (t : FTy) (o : VOpts) (x : XReg) (v : VReg) : BodyOk (vfredBody op t o x v) := by
  unfold vfredBody
  exact reduceBody_ok _ _ _ _ _ _

theorem vcompressBody_ok (lq : Bool) (t : ETy) (o : VOpts) (d a : VReg) (m : MReg) : BodyOk (vcompressBody lq t o d a m) := by
  intro en s h
  refine (h.vbegin _ _).bind fun r hr => (hr.vcheck _ _ _ _).seq ((move_ok (taking_ok hr _) _ _ _).bind fun u hu => State.MemOk.done ?_ _)
  split
  · exact hu
  · exact hu

theorem vextractBody_ok (t : ETy) (o : VOpts) (x : XReg) (v : VReg) (k : VCount) : BodyOk (vextractBody t o x v k) := by
  intro en s h
  refine (h.vbegin _ _).bind fun r hr => ?_
  have hl (q : VRun) (i : Nat) : (if i < r.len then q.lane r.src i else (r.src, false)).1.MemOk :=
    iteInduction (motive := fun x : State × Bool => x.1.MemOk) (fun _ => hr.lane _ _) (fun _ => hr)
  exact (hr.whole _).seq (State.MemOk.done ((vectorPoison (hl _ _) _).sendX _ _) _)

theorem vunpkBody_ok (t : ETy) (o : VOpts) (d a : VReg) : BodyOk (vunpkBody t o d a) := by
  intro en s h
  refine (h.vbegin _ _).bind fun r hr => ?_
  dsimp only
  split
  · refine (hr.vcheck _ _ _ _).seq (Ends.bind (P := State.MemOk) (loop (fun _ _ _ h => ?_) (taking_ok hr _) (taking_ok hr _) _ _)
      fun _ hu => State.MemOk.done hu _)
    exact (clampIf h _).setElem _ _ _
  · exact (hr.vcheck _ _ _ _).seq hr
  · exact (hr.vcheck _ _ _ _).seq hr
  · exact (hr.vcheck _ _ _ _).seq hr

/-! ### Dispatch, the return from a trap, convoys -/

theorem vectorBody_ok (i : Instr) : BodyOk (vectorBody i) := by
  unfold vectorBody
  split
  · exact plotsetBody_ok _ _
  · exact plotgetBody_ok _ _
  · exact vloopBody_ok _
  · exact setvlBody_ok _
  · exact setvlWBody_ok _ _ _ _ _
  · exact wmpubBody_ok _ _
  · exact vsyncBody_ok _
  · exact vlendBody_ok
  · exact fp2Body_ok _ _ _ _ _ _
  · exact fp2Body_ok _ _ _ _ _ _
  · exact fp2Body_ok _ _ _ _ _ _
  · exact fp2Body_ok _ _ _ _ _ _
  · exact fp2Body_ok _ _ _ _ _ _
  · exact fp2Body_ok _ _ _ _ _ _
  · exact fp2Body_ok _ _ _ _ _ _
  · exact fp2Body_ok _ _ _ _ _ _
  · exact fp2Body_ok _ _ _ _ _ _
  · exact fp3Body_ok _ _ _ _ _ _ _ _
  · exact fp3Body_ok _ _ _ _ _ _ _ _
  · exact fp3Body_ok _ _ _ _ _ _ _ _
  · exact fp3Body_ok _ _ _ _ _ _ _ _
  · exact fp1Body_ok _ _ _ _ _
  · exact fp1Body_ok _ _ _ _ _
  · exact fp1Body_ok _ _ _ _ _
  · exact fp1Body_ok _ _ _ _ _
  · exact fp1Body_ok _ _ _ _ _
  · exact fp1Body_ok _ _ _ _ _
  · exact fp1Body_ok _ _ _ _ _
  · exact fp1Body_ok _ _ _ _ _
  · exact fp1Body_ok _ _ _ _ _
  · exact fp1Body_ok _ _ _ _ _
  · exact int2Body_ok _ _ _ _ _ _
  · exact int2Body_ok _ _ _ _ _ _
  · exact int2Body_ok _ _ _ _ _ _
  · exact int2Body_ok _ _ _ _ _ _
  · exact int2Body_ok _ _ _ _ _ _
  · exact int2Body_ok _ _ _ _ _ _
  · exact int2Body_ok _ _ _ _ _ _
  · exact int2Body_ok _ _ _ _ _ _
  · exact int2Body_ok _ _ _ _ _ _
  · exact int2Body_ok _ _ _ _ _ _
  · exact int2Body_ok _ _ _ _ _ _
  · exact int2Body_ok _ _ _ _ _ _
  · exact int2Body_ok _ _ _ _ _ _
  · exact int2Body_ok _ _ _ _ _ _
  · exact int2Body_ok _ _ _ _ _ _
  · exact int2Body_ok _ _ _ _ _ _
  · exact int2Body_ok _ _ _ _ _ _
  · exact int2Body_ok _ _ _ _ _ _
  · exact int2Body_ok _ _ _ _ _ _
  · exact carryBody_ok _ _ _ _ _ _ _ _
  · exact carryBody_ok _ _ _ _ _ _ _ _
  · exact vfcmpBody_ok _ _ _ _ _ _
  · exact vcmpBody_ok _ _ _ _ _ _
  · exact vcvtBody_ok _ _ _ _ _
  · exact maskBody_ok _ _ _
  · exact maskBody_ok _ _ _
  · exact maskBody_ok _ _ _
  · exact maskBody_ok _ _ _
  · exact maskBody_ok _ _ _
  · exact mshiftBody_ok _ _ _ _ _
  · exact mpopcBody_ok _ _ _ _
  · exact mfirstBody_ok _ _ _
  · exact vredBody_ok _ _ _ _ _
  · exact vfredBody_ok _ _ _ _ _
  · exact vrandBody_ok _ _ _ _
  · exact vldBody_ok _ _ _ _ _ _
  · exact vstBody_ok _ _ _ _ _ _
  · exact vldStridedBody_ok _ _ _ _ _ _
  · exact vstStridedBody_ok _ _ _ _ _ _
  · exact vldxBody_ok _ _ _ _ _ _ _
  · exact vstxBody_ok _ _ _ _ _ _ _
  · exact vldtBody_ok _ _ _ _ _ _
  · exact vamoBody_ok _ _ _ _ _ _ _ _ _ _
  · exact vpermBody_ok _ _ _ _ _
  · exact vslideupBody_ok _ _ _ _ _
  · exact vslidednBody_ok _ _ _ _ _
  · exact vcompressBody_ok _ _ _ _ _ _
  · exact shiftBody_ok _ _ _ _ _ _
  · exact vbcastBody_ok _ _ _ _ _
  · exact vextractBody_ok _ _ _ _ _
  · exact vinsertBody_ok _ _ _ _ _
  · exact vunpkBody_ok _ _ _ _
  · exact vfeedBody_ok _ _ _ _
  · exact vdrainBody_ok _ _ _ _
  · exact vdetachBody_ok _ _ _ _
  · exact vfenceBody_ok _
  · exact fcfgBody_ok _ _
  · exact finsBody_ok _ _ _ _
  · exact fmergeBody_ok _ _
  · exact freadBody_ok _ _ _ _ _
  · exact fclrBody_ok _
  · exact fsaveBody_ok _ _
  · exact floadBody_ok _ _
  · exact strsetBody_ok _ _
  · exact fun _ _ h => h

namespace State.MemOk
variable {s : State}

theorem dispatchHead (h : s.MemOk) : Ends State.MemOk Stop.MemOk (dispatchHead s) := by
  unfold Machine.dispatchHead
  split
  · exact h
  · exact .ite h ((vtry (vectorBody_ok _) (by exact h) _).bind fun _ ht => ht)

theorem execVectorDispatch (h : s.MemOk) : Out.MemOk (execVectorDispatch s) := .ite h.dispatchHead.settle h

theorem returnFromTrap (h : s.MemOk) : s.returnFromTrap.MemOk := h

theorem returnHeld (h : s.MemOk) : Ends State.MemOk Stop.MemOk (returnHeld s) := by
  unfold Machine.returnHeld
  split
  · exact h.returnFromTrap
  · next en _ =>
    have hb := vectorBody_ok en.instr en h.returnFromTrap
    refine .ite h ?_
    split
    · exact h
    · exact hb

theorem execTret (h : s.MemOk) : Out.MemOk (execTret s) :=
  Ends.settle ((h.legal _ _).seq ((h.check _ _ _).seq ((h.check _ _ _).seq (h.drained.seq h.returnHeld))))

theorem execIllegalInstruction (h : s.MemOk) : Out.MemOk (execIllegalInstruction s) :=
  Ends.settle (r := raise s 0x01 s.enc) h

theorem convoyMembers (us : List Nat) : ∀ {s : State} (a : Word), s.MemOk → Ends (fun x => x.2.MemOk) Stop.MemOk (convoyMembers s a us) := by
  induction us with
  | nil => exact fun _ h => h
  | cons u us ih =>
    intro s a h
    have hf := h.fetchAt a
    rw [Machine.convoyMembers]
    split
    · next e =>
      rw [e] at hf
      exact hf
    · next e =>
      rw [e] at hf
      exact .ite (terminate hf _ _ _ _) h
    · next e =>
      rw [e] at hf
      exact hf
    · next e =>
      rw [e] at hf
      exact (h.check _ _ _).seq ((ih _ hf).bind fun _ ht => ht)

theorem execConvoyHeader (h : s.MemOk) (n a b c d e f : BitVec 3) : Out.MemOk (execConvoyHeader n a b c d e f s) := by
  refine Ends.settle ((h.legal _ _).seq ((h.check _ _ _).seq ((convoyMembers _ _ h).bind fun ⟨l, t⟩ ht => ?_)))
  cases l with
  | none => exact ht
  | some l =>
    have hc (c : Ctx) : State.MemOk { t with ctx := c } := ht
    exact (hc _).advance _

end State.MemOk
end Sys2Proof.Machine

/-! ## One step

Each instruction keeps memory in its canonical form, and so does each turn of the agenda. -/

namespace Sys2Proof.Machine
namespace State.MemOk
variable {s t : State}

/-! ### Scalar floating point -/

theorem fp2 (h : s.MemOk) (f : Fmt → RMode → Nat → Nat → FRes) (t : STy) (d a b : XReg) : Ends State.MemOk Stop.MemOk (fp2 f t d a b s) :=
  (h.legal _ _).seq (h.fpDeliver _ _)

theorem fp1 (h : s.MemOk) (f : Fmt → RMode → Nat → FRes) (t : STy) (d a : XReg) : Ends State.MemOk Stop.MemOk (fp1 f t d a s) :=
  (h.legal _ _).seq (h.fpDeliver _ _)

theorem fp3 (h : s.MemOk) (p q : Bool) (t : STy) (d a b c : XReg) : Ends State.MemOk Stop.MemOk (fp3 p q t d a b c s) :=
  (h.legal _ _).seq (h.fpDeliver _ _)

theorem execFcvtFromI64 (h : s.MemOk) (t : STy) (d a : XReg) : Out.MemOk (execFcvtFromI64 t d a s) :=
  Ends.settle ((h.legal _ _).seq (h.fpDeliver _ _))

/-! ### Every instruction -/

/-- A vector instruction with the body that its entry of the queue performs. -/
theorem vissueBody (h : s.MemOk) (i : Instr) {body : VQEntry → State → Res State} (e : vectorBody i = body) : Out.MemOk (Machine.vissue i body s) :=
  h.vissue (e ▸ vectorBody_ok i) i

theorem exec (h : s.MemOk) (i : Instr) : Out.MemOk (exec i s) := by
  cases i with
  | add | sub | and | or | xor | sll | srl | sra | slt | sltu | min | max | minu | maxu | mul | mulh | mulhu | div | divu | rem | remu =>
    exact (h.alu2 _ _ _ _).settle
  | clz | ctz | popc | addi | andi | ori | xori | slli | srli | srai | lui => exact (h.alu1 _ _ _).settle
  | fadd | fsub | fmul | fdiv | fmin | fmax | fcmpEq | fcmpLt | fcmpLe => exact (h.fp2 _ _ _ _ _).settle
  | fsqrt | fcvtToI64 | fcvtFpFp | fmv | fneg | fabs => exact (h.fp1 _ _ _ _).settle
  | fcvtFromI64 => exact h.execFcvtFromI64 _ _ _
  | ffma | ffms | ffnma | ffnms => exact (h.fp3 _ _ _ _ _ _ _).settle
  | waitev => exact h.execWaitev _ _ _
  | chkerr => exact h.execChkerr _
  | ctlr => exact h.execCtlr _ _
  | ctlw => exact h.execCtlw _ _ _
  | ctlset => exact h.execCtlset _ _ _
  | ctlclr => exact h.execCtlclr _ _ _
  | jal => exact h.execJal _ _
  | jalr => exact h.execJalr _ _ _
  | beq | bne | blt | bge | bltu | bgeu => exact (h.branch _ _ _ _).settle
  | bany | ball | bnone => exact (h.maskBranch _ _ _).settle
  | ldB | ldBAcq | ldH | ldHAcq | ldW | ldWAcq | ldD | ldDAcq | ldBu | ldBuAcq | ldHu | ldHuAcq | ldWu | ldWuAcq => exact (h.ldOp _ _ _ _ _ _).settle
  | stB | stBRel | stH | stHRel | stW | stWRel | stD | stDRel => exact (h.stOp _ _ _ _ _).settle
  | amoswap | amoadd | amoand | amoor | amoxor | amomin | amomax | amomaxu => exact (h.amo8 _ _ _ _ _ _).settle
  | cas => exact (h.cas8 _ _ _ _ _).settle
  | fence => exact h.execFence _ _ _
  | cacheopPf | cacheopPf2 => exact (h.cacheop _ _ (fun _ _ _ h => touch h _ _ _ _ _ _) _ _).settle
  | cacheopPfw => exact (h.cacheop _ _ (fun _ _ _ h => (h.kept (kept_recallLine _ _ _ _ _)).touch _ _ _ _ _ _) _ _).settle
  | cacheopEvict => exact (h.cacheop _ _ (fun _ _ _ h => h.kept (kept_recallL1 _ _ _ _ _)) _ _).settle
  | cacheopClean => exact (h.cacheop _ _ (fun _ _ _ h => l2Clean h _ _) _ _).settle
  | tlbinvS1 | tlbinvS1all => exact (h.tlbinv1 _ _ _).settle
  | tlbinvS2 | tlbinvS2all => exact (h.tlbinv2 _ _ _).settle
  | stashmap => exact h.execStashmap _ _ _
  | stashunmap => exact h.execStashunmap _
  | hld | hldAcq => exact (h.hldOp _ _ _ _).settle
  | hst | hstRel => exact (h.hstOp _ _ _ _).settle
  | hldw | hldwAcq => exact (h.hldwOp _ _ _ _).settle
  | hstw | hstwRel => exact (h.hstwOp _ _ _ _).settle
  | hcas d a b c r sc => exact h.execHcas d a b c r sc
  | hcasw d a b c r sc => exact h.execHcasw d a b c r sc
  | hcmp => exact h.execHcmp _ _ _
  | hpin => exact h.execHpin _ _
  | hunpin => exact h.execHunpin _
  | hmake => exact h.execHmake _ _
  | hmakeI => exact h.execHmakeI _ _ _
  | tdesc => exact h.execTdesc _ _
  | cpy => exact h.execCpy _ _ _
  | cpyDsrc => exact h.execCpyDsrc _ _ _ _
  | cpyDdst => exact h.execCpyDdst _ _ _ _
  | cpydrain => exact h.execCpydrain _
  | strset => exact h.execStrset _ _
  | mcast => exact h.execMcast _ _ _
  | potinit => exact h.execPotinit _ _
  | potadd => exact h.execPotadd _ _ _
  | potwait => exact h.execPotwait _ _ _
  | coll => exact h.execColl _ _
  | collwait => exact h.execCollwait _ _
  | hglean => exact h.execHglean _ _ _
  | hgleanFree => exact h.execHgleanFree _ _
  | launch => exact h.execLaunch _ _
  | mldb => exact h.execMldb _ _ _
  | mmul => exact h.execMmul _ _ _ _ _
  | mclr => exact h.execMclr _
  | mout => exact h.execMout _ _ _ _ _ _
  | vlend => exact h.execVlend _
  | convoyHeader => exact h.execConvoyHeader _ _ _ _ _ _ _
  | plotset | plotget | setvl | setvlW | vloop | wmpub | vfadd | vfsub | vfmul | vfdiv | vfmin | vfmax | vfsgnj | vfsgnjn | vfsgnjx | vfma | vfms |
  vfnma | vfnms | vfsqrt | vfrec | vfrsqrt | vfexp | vflog | vfsin | vfcos | vftanh | vfabs | vfneg | vadd | vsub | vmul | vmulh | vmulhu | vdiv | vdivu
  | vrem | vremu | vand | vor | vxor | vsll | vsrl | vsra | vmin | vmax | vminu | vmaxu | vadc | vsbc | vfcmp | vcmp | vcvt | mand | mor | mxor | mandn
  | mnot | mshift | mpopc | mfirst | vred | vfred | vrand | vld | vldStrided | vldx | vldt | vst | vstStrided | vstx | vamo | vperm | vslideup |
  vslidedn | vcompress | vexpand | vbcast | vextract | vinsert | vunpk | vfeed | vdrain | vdetach | fcfg | fins | fmerge | fread | fclr | fsave | fload =>
    exact h.vissueBody _ rfl
  | vsync => exact h.vwaiting (vsyncBody_ok _) _
  | vfence => exact h.vwaiting (vfenceBody_ok _) _
  | syscall => exact h.execSyscall
  | tret => exact h.execTret
  | yield => exact h.execYield
  | exit => exact h.execExit
  | vrelease => exact h.execVrelease
  | lexit => exact h.execLexit
  | ifence => exact h.execIfence
  | msync => exact h.execMsync
  | tqposWrite | statusProtectedWrite | pipeownWrite => exact (h.ctlEvent _).settle
  | errinjWrite => exact h.execErrinjWrite
  | millOperation => exact h.execMillOperation
  | laneThreadLimit => exact h.execLaneThreadLimit
  | engineIssuePoint => exact h.execEngineIssuePoint
  | engineRetire => exact h.execEngineRetire
  | streamTransfer => exact h.execStreamTransfer
  | mcastArrival => exact h.execMcastArrival
  | potAddition => exact h.execPotAddition
  | collectiveStart => exact h.execCollectiveStart
  | collectiveEnd => exact h.execCollectiveEnd
  | collectiveAbort => exact h.execCollectiveAbort
  | gleanerCycle => exact h.execGleanerCycle
  | gleanerObjectCopy => exact h.execGleanerObjectCopy
  | crierPlacement => exact h.execCrierPlacement
  | priorityAging => exact h.execPriorityAging
  | drainComplete => exact h.execDrainComplete
  | slotBoundary => exact h.execSlotBoundary
  | eventRecordWrite => exact h.execEventRecordWrite
  | waitevWake => exact h.execWaitevWake
  | waitevTimeout => exact h.execWaitevTimeout
  | dirtyL2UeContainment => exact h.execDirtyL2UeContainment
  | pageRetire => exact h.execPageRetire
  | dramPatrolScrub => exact h.execDramPatrolScrub
  | l2SliceScrub => exact h.execL2SliceScrub
  | cpFault => exact h.execCpFault
  | cpRestart => exact h.execCpRestart
  | reeveFault => exact h.execReeveFault
  | reeveRestart => exact h.execReeveRestart
  | errinjPerform => exact h.execErrinjPerform
  | deviceBoot => exact h.execDeviceBoot
  | powerStateEntry => exact h.execPowerStateEntry
  | wake => exact h.execWake
  | fabricMessage => exact h.execFabricMessage
  | createSublease => exact h.serve createSub_ok _
  | destroySublease => exact h.serve destroyReq_ok _
  | map => exact h.serve mapReq_ok _
  | setLimits => exact h.serve limitsReq_ok _
  | setOccupants => exact h.serve occupantsReq_ok _
  | readCounters => exact h.serve countersReq_ok _
  | resetSublease => exact h.serve resetReq_ok _
  | injectError => exact h.serve injectReq_ok _
  | delegate => exact h.serve delegateReq_ok _
  | revoke => exact h.serve revokeReq_ok _
  | registerEventQueue => exact h.serve queueReq_ok _
  | setLdm => exact h.serve ldmReq_ok _
  | resume => exact h.serve resumeReq_ok _
  | terminate => exact h.serve terminateReq_ok _
  | contextAccess => exact h.serve contextReq_ok _
  | breakpoint => exact h.serve breakpointReq_ok _
  | launchRequest => exact h.serve launchReq_ok _
  | readBlackBox => exact h.serve blackBoxReq_ok _
  | power => exact h.serve powerReq_ok _
  | attest => exact h.serve attestReq_ok _
  | releaseQuarantine => exact h.serve quarantineReq_ok _
  | vectorDispatch => exact h.execVectorDispatch
  | illegalInstruction => exact h.execIllegalInstruction
  | uncorrectableError => exact h.execUncorrectableError
  | controlCoreAccess => exact h.execControlCoreAccess
  | leaseMigration => exact h.execLeaseMigration

/-! ### Fetching and the turns -/

theorem runWord (h : s.MemOk) (enc : Nat) : Out.MemOk (runWord s enc) := by
  unfold Machine.runWord
  dsimp only
  split
  · exact exec (by exact h) _
  · exact exec (by exact h) _

theorem runFetched (h : s.MemOk) : Out.MemOk (runFetched s) := by
  have hf := h.fetch
  unfold Machine.runFetched
  split
  next t c v e => exact State.MemOk.takeTrap (by rw [e] at hf; exact hf) _
  next t e =>
    have ht : t.MemOk := by rw [e] at hf; exact hf
    exact .ite h.yieldTurn (terminate (by exact ht) _ _ _ _)
  next t e => exact yieldTurn (by rw [e] at hf; exact hf)
  next t enc n e =>
    have ht : t.MemOk := by rw [e] at hf; exact hf
    exact runWord (by exact ht) _

theorem runCtx (h : s.MemOk) : Out.MemOk (runCtx s) := by
  have hd := h.dispatchHead
  refine .ite h.returnHeld.settle (.ite h.runFetched ?_)
  split
  next t e => exact runFetched (hd.error e)
  next => exact exec (by exact h) _

theorem countLane (h : s.MemOk) (c : CtxId) (e : Nat) : (s.countLane c e).MemOk := h

theorem runLane (h : s.MemOk) (e : Nat) : Out.MemOk (runLane s e) := by
  have hs : State.MemOk { s with lane := some e, yielded := 0 } := h
  unfold Machine.runLane
  dsimp only
  split
  · exact h
  · refine .ite h (.ite (exec (by exact h) _) ?_)
    have hf := hs.runFetched
    split
    next t e =>
      rw [e] at hf
      have ht := vectorPoison (s := t) hf
      exact .ite (countLane (by exact ht _) _ _) (ht _)
    next => exact hf

theorem perform (h : s.MemOk) (i : Instr) (a : EventArg) : Out.MemOk (perform s i a) := .ite h (exec (by exact h) i)

theorem takeTurn (h : s.MemOk) (t : Turn) : Out.MemOk (takeTurn s t) := by
  cases t with
  | run c =>
    unfold Machine.takeTurn
    dsimp only
    split
    · exact .ite (runCtx (switchTo (by exact h) _)) h
    · exact h
  | lane c e => exact .ite ((h.switchTo _).runLane _) h
  | event i a => exact h.perform _ _
  | tick n => exact h.tick n
  | cycles n => exact h.cycles n
  | tlbDrop k => exact h
  | walkDrop k => exact h

theorem takePending (h : s.MemOk) : Out.MemOk (takePending s) := by
  unfold Machine.takePending
  split
  · exact perform (by exact h) _ _
  · split
    · exact (h.switchTo _).runLane _
    · exact h

theorem takeDefault (h : s.MemOk) : Out.MemOk (takeDefault s) := by
  unfold Machine.takeDefault
  split
  · refine .ite (.ite (runCtx (by exact h)) h.rotate) ?_
    split
    · exact (h.switchTo _).runCtx
    · exact takePending (by exact h)
  next c e _ _ =>
    have hl := (h.switchTo c).runLane e
    split
    next t et => rw [et] at hl; exact hl
    next => exact hl
  · exact h.takePending

theorem step (h : s.MemOk) : Out.MemOk (step s) := by
  unfold Machine.step
  split
  · exact takeTurn (by exact h) _
  · exact h.takeDefault

end State.MemOk
end Sys2Proof.Machine

/-- Settles O60: memory is written by `State.putBytes` alone, which keeps the form, so every operation of the model does. -/
theorem stepKeepsMemoryForm : Obligations.StepKeepsMemoryForm := by
  unfold Obligations.StepKeepsMemoryForm
  intro s t h e
  have hs : Sys2Proof.Machine.Out.MemOk (Sys2Proof.Machine.step s) := Sys2Proof.Machine.State.MemOk.step h
  rw [e] at hs
  exact hs

/-! ## Scalar loads (R166, R317)

The fourteen forms are one operation (`exec_load`). Where the access is admitted, its next state is given by what the load
answers (`exec_load_reached`): a value, or none where a word is marked. -/

namespace Sys2Proof.Machine

/-! ### Legality -/

theorem Legal.any_admits (s : State) : Legal.any.admits s = true := rfl

theorem legal_any {s : State} {rs : List XReg} (h : Claims.regsOk s rs) : legal .any rs s = .ok () := by
  have hall : rs.all s.regOk = true := List.all_eq_true.2 fun r hr => (h r hr).1
  have hfree : (s.lane.isNone && rs.any fun r => s.ctx.sendsTo.contains r) = false := by
    rw [Bool.and_eq_false_imp]
    intro hl
    rw [List.any_eq_false]
    intro r hr
    have hn := (h r hr).2 (Option.isNone_iff_eq_none.1 hl)
    rwa [List.contains_iff_mem]
  unfold legal
  rw [Legal.any_admits, hall, Bool.and_self, check_true, hfree]
  rfl

theorem inOrder_ok {s : State} (h : Claims.inOrderNow s) : inOrder s = .ok () := by
  unfold inOrder
  rw [if_neg]
  rw [Bool.and_eq_true, Option.isNone_iff_eq_none]
  rintro ⟨hl, hq⟩
  rw [h hl] at hq
  cases hq

theorem inOrder_waits {s : State} (hl : s.lane = none) (hq : s.ctx.memoryQueued = true) : inOrder s = .error (.wait s) := by
  unfold inOrder
  rw [if_pos (by rw [hl, hq]; rfl)]
  rfl

/-! ### The value read -/

/-- Little-endian bytes as the sum of R7. -/
theorem leNat_eq_sum (bs : List Byte) : leNat bs = ((List.range bs.length).map fun k => (bs.getD k 0).toNat * 256 ^ k).sum := by
  induction bs with
  | nil => rfl
  | cons b bs ih =>
    rw [leNat, ih, List.length_cons, List.range_succ_eq_map, List.map_cons, List.sum_cons, List.map_map, ← List.sum_map_mul_left]
    congr 1
    · simp
    · refine congrArg List.sum (List.map_congr_left fun k _ => ?_)
      simp only [Function.comp, List.getD_cons_succ]
      rw [pow_succ]
      ring

theorem num_eq_value {m : Memory} (h : m.wf = true) (pa n : Nat) : m.num pa n = Claims.value m pa n := by
  unfold Memory.num Claims.value
  rw [leNat_eq_sum, Memory.bytes_eq h, List.length_map, List.length_range]
  refine congrArg List.sum (List.map_congr_left fun k hk => ?_)
  rw [List.mem_range] at hk
  simp [List.getD_eq_getElem?_getD, hk]

theorem wordI_sextN (w v : Nat) : wordI (sextN w v) = (BitVec.ofNat w v).signExtend 64 := by
  unfold wordI sextN BitVec.signExtend
  rw [BitVec.toInt_eq_toNat_cond, BitVec.toNat_ofNat]
  dsimp only
  split <;> push_cast <;> rfl

/-- How a load widens, in the words of R166. -/
theorem extend_eq (sg : Bool) (n v : Nat) :
    extend (if sg then .signed else .zero) n v = if sg then (BitVec.ofNat (8 * n) v).signExtend 64 else BitVec.ofNat 64 v := by
  cases sg
  · rfl
  · exact wordI_sextN _ _

/-- At 8 bytes there is nothing to widen. -/
theorem loadX_signed_eight : loadX .signed 8 = loadX .zero 8 := by
  have he : extend .signed 8 = extend .zero 8 := funext fun v => (extend_eq true 8 v).trans (BitVec.signExtend_eq _)
  unfold loadX
  rw [he]

/-- What a load answers where its access has arrived, and the state behind it. -/
def State.loaded (t : State) (a : Agent) (pa n : Nat) : Option Nat × State :=
  if t.poisonedAt pa n then (none, t) else (some (t.readAt a pa n).1, (t.readAt a pa n).2)

theorem State.load_eq_loaded {s t : State} {a : Agent} {va : Word} {n : Nat} {keep : Keep} {r : Reached}
    (h : s.access a .load .strand va n keep = .ok (r, t)) : s.load a va n keep = .ok (t.loaded a r.pa n) := by
  unfold State.load State.loaded
  rw [h]
  dsimp only [bind, Except.bind]
  split <;> rfl

theorem kept_loaded (t : State) (a : Agent) (pa n : Nat) : Kept t (t.loaded a pa n).2 := by
  unfold State.loaded
  split
  · exact Kept.refl t
  · exact State.kept_readAt t a pa n

theorem State.loaded_clean {t : State} {pa n : Nat} (h : t.poisonedAt pa n = false) (a : Agent) :
    t.loaded a pa n = (some (t.readAt a pa n).1, (t.readAt a pa n).2) := if_neg (by simp [h])

theorem State.loaded_marked {t : State} {pa n : Nat} (h : t.poisonedAt pa n = true) (a : Agent) : t.loaded a pa n = (none, t) := if_pos h

/-- Only a context reads device space; for it the agent is the scalar core. -/
theorem agent_inDevice (s : State) (pa : Nat) : (s.agent.isScalar && isDeviceRegion pa) = true ↔ Claims.inDevice s pa := by
  unfold State.agent Claims.inDevice
  cases s.lane <;> simp [Agent.isScalar]

theorem readAt_memory {s t : State} {pa : Nat} (h : ¬ Claims.inDevice s pa) (n : Nat) : t.readAt s.agent pa n = (t.mem.num pa n, t) := by
  rw [← agent_inDevice, Bool.not_eq_true] at h
  exact State.readAt_mem h

theorem readAt_counter {s t : State} {pa : Nat} (h : Claims.inDevice s pa) {e : BitVec 2} {k : Nat} (hc : State.counterAt pa = some (e, k)) (n : Nat) :
    t.readAt s.agent pa n = (Claims.part ((t.die e).counts.toList.getD k 0) pa n, t) := by
  unfold State.readAt
  rw [if_pos ((agent_inDevice s pa).2 h), hc]
  rfl

theorem readAt_select {s t : State} {pa : Nat} (h : Claims.inDevice s pa) {e : BitVec 2} {k : Nat} (hc : State.counterAt pa = none)
    (hs : State.selectAt pa = some (e, k)) (n : Nat) :
    t.readAt s.agent pa n = (Claims.part ((t.die e).selects.toList.getD k 0) pa n, t) := by
  unfold State.readAt
  rw [if_pos ((agent_inDevice s pa).2 h), hc, hs]
  rfl

theorem readAt_window {s t : State} {pa : Nat} (h : Claims.inWindow s pa) (n : Nat) :
    t.readAt s.agent pa n = (t.free.1.toNat % 256 ^ n, t.free.2) := by
  obtain ⟨hd, hc, hs⟩ := h
  unfold State.readAt
  rw [if_pos ((agent_inDevice s pa).2 hd), hc, hs]

/-! ### The fourteen forms -/

/-- Every form of load is the same operation on its fields (R166). -/
theorem exec_load {i : Instr} {sg : Bool} {n : Nat} {d a : XReg} {o : Word} {q : Option Scope}
    (h : Claims.loadForm i = some (sg, n, d, a, o, q)) (s : State) :
    exec i s = settle (do
      legal .any [d, a] s
      inOrder s
      let s' ← loadX (if sg then .signed else .zero) n d (s.getX a + o * BitVec.ofNat 64 n) s
      .ok (s'.acquire q)) := by
  unfold Claims.loadForm at h
  split at h
  iterate 6 · cases h; rfl
  iterate 2 · cases h; rw [if_pos rfl, loadX_signed_eight]; rfl
  iterate 6 · cases h; rfl
  · cases h

/-- The state behind a load that answers v in t. -/
def State.afterLoad (t : State) (sg : Bool) (n : Nat) (d : XReg) (q : Option Scope) (v : Option Nat) : State :=
  (((t.consume v.isNone).setX d (extend (if sg then .signed else .zero) n (v.getD 0))).advance 4).acquire q

theorem exec_load_reached {i : Instr} {sg : Bool} {n : Nat} {d a : XReg} {o : Word} {q : Option Scope} {s t : State} {r : State.Reached}
    (h : Claims.loadForm i = some (sg, n, d, a, o, q)) (hr : Claims.regsOk s [d, a]) (ho : Claims.inOrderNow s)
    (ha : Claims.admitted s .load .strand (s.getX a + o * BitVec.ofNat 64 n) n r t) :
    exec i s = .next ((t.loaded s.agent r.pa n).2.afterLoad sg n d q (t.loaded s.agent r.pa n).1) := by
  have hx : ∀ x, loadX x n d (s.getX a + o * BitVec.ofNat 64 n) s =
      .ok ((((t.loaded s.agent r.pa n).2.consume (t.loaded s.agent r.pa n).1.isNone).setX d (extend x n ((t.loaded s.agent r.pa n).1.getD 0))).advance 4) := by
    intro x
    unfold loadX
    rw [State.load_eq_loaded ha]
    rfl
  rw [exec_load h, legal_any hr, inOrder_ok ho, hx]
  rfl

theorem State.afterLoad_value (t : State) (sg : Bool) (n : Nat) (d : XReg) (q : Option Scope) (v : Nat) :
    t.afterLoad sg n d q (some v) =
      ((t.setX d (if sg then (BitVec.ofNat (8 * n) v).signExtend 64 else BitVec.ofNat 64 v)).advance 4).acquire q := by
  unfold State.afterLoad
  rw [Option.getD_some, extend_eq]
  rfl

theorem loadResult : Claims.LoadResult := by
  intro i sg n r d a o q s t hi hregs
  refine ⟨fun hl hq => ?_, fun ho hm ha hp => ?_⟩
  · rw [exec_load hi, legal_any hregs, inOrder_waits hl hq]
    rfl
  have out {v : Nat} {u : State} (e : t.readAt s.agent r.pa n = (v, u)) : exec i s =
      .next (((u.setX d (if sg then (BitVec.ofNat (8 * n) v).signExtend 64 else BitVec.ofNat 64 v)).advance 4).acquire q) := by
    rw [exec_load_reached hi hregs ho ha, State.loaded_clean hp, e]
    exact congrArg _ (u.afterLoad_value sg n d q v)
  refine ⟨fun hd => ?_, fun hd e k hc => out (readAt_counter hd hc n), fun hd e k hc hs => out (readAt_select hd hc hs n),
    fun hw => out (readAt_window hw n)⟩
  have hmem : t.mem = s.mem := (State.kept_access ha).mem
  exact out ((readAt_memory hd n).trans (by rw [hmem, num_eq_value hm]))

end Sys2Proof.Machine

/-! ### What a load leaves as it was -/

namespace Sys2Proof.Machine

/-- A context's poison consumed: the mark of R317, beside an event counted. -/
theorem State.consume_ctx {s : State} (hl : s.lane = none) (bad : Bool) : (s.consume bad).ctx = if bad then s.ctx.scalarMark else s.ctx := by
  cases bad with
  | false => rfl
  | true =>
    unfold State.consume
    rw [if_pos rfl, if_pos rfl, (kept_countCtx _ _ _).ctx, hl]
    rfl

theorem State.consume_lane (s : State) (bad : Bool) : (s.consume bad).lane = s.lane := by
  cases bad with
  | false => rfl
  | true => exact (kept_countCtx _ _ _).lane

theorem State.consume_mem (s : State) (bad : Bool) : (s.consume bad).mem = s.mem := by
  cases bad with
  | false => rfl
  | true => exact (kept_countCtx _ _ _).mem

theorem State.setX_ctx {s : State} (hl : s.lane = none) (d : XReg) (v : Word) : (s.setX d v).ctx = s.ctx.setX d v := by
  unfold State.setX
  rw [hl]

theorem State.setPc_ctx {s : State} (hl : s.lane = none) (a : Word) : (s.setPc a).ctx = { s.ctx with pc := a } := by
  unfold State.setPc
  rw [hl]

/-- A marked value reads as 0 (R317), however it is widened. -/
theorem extend_zero (x : Ext) (n : Nat) : extend x n 0 = 0 := by
  cases x with
  | signed => simp [extend, sextN, wordI]
  | zero => rfl

theorem State.afterLoad_mem (t : State) (sg : Bool) (n : Nat) (d : XReg) (q : Option Scope) (v : Option Nat) :
    (t.afterLoad sg n d q v).mem = t.mem := by
  unfold State.afterLoad
  rw [State.acquire_mem, State.advance_mem, State.setX_mem, State.consume_mem]

/-- In a context only xd and the pc change, and the mark of poison consumed. -/
theorem State.afterLoad_ctx {t : State} (hl : t.lane = none) (sg : Bool) (n : Nat) (d : XReg) (q : Option Scope) (v : Option Nat) :
    ∃ pc, (t.afterLoad sg n d q v).ctx =
      { (if v.isNone then t.ctx.scalarMark else t.ctx).setX d (extend (if sg then .signed else .zero) n (v.getD 0)) with pc := pc } := by
  have hc : (t.consume v.isNone).lane = none := (t.consume_lane _).trans hl
  unfold State.afterLoad
  rw [(kept_acquire _ _).ctx, State.advance, State.setPc_ctx ((State.setX_lane _ _ _).trans hc), State.setX_ctx hc, State.consume_ctx hl]
  exact ⟨_, rfl⟩

/-- The frame of a write to xd and the pc. -/
theorem ctxFrame_setX {s t : State} {d : XReg} {v pc : Word} (h : t.ctx = { s.ctx.setX d v with pc := pc }) :
    Claims.ctxFrame (fun x => x = d ∧ d ≠ 0) s t := by
  have hg (r : XReg) : t.ctx.getX r = (s.ctx.setX d v).getX r := by rw [h]; rfl
  refine ⟨fun r hr => ?_, ?_⟩
  · rw [hg, Ctx.getX_setX]
    by_cases h0 : r = 0
    · rw [if_pos h0, h0]
      rfl
    · rw [if_neg h0, if_neg fun e => hr ⟨e, e ▸ h0⟩]
  · rw [h]
    unfold Ctx.setX
    split <;> rfl

theorem loadFrame : Claims.LoadFrame := by
  intro i sg n r d a o q s t u hi hl ho hregs ha he
  have hk : Kept s t := State.kept_access ha
  have hkl := hk.trans (kept_loaded t s.agent r.pa n)
  rw [exec_load_reached hi hregs ho ha] at he
  obtain rfl : _ = u := by injection he
  obtain ⟨pc, hc⟩ := State.afterLoad_ctx (hkl.lane.trans hl) sg n d q (t.loaded s.agent r.pa n).1
  rw [hkl.ctx] at hc
  refine ⟨fun b => ?_, fun hp => ?_, fun hp => ?_, fun hq => ?_⟩
  · rw [State.afterLoad_mem, hkl.mem]
  · rw [State.loaded_clean hp] at hc ⊢
    exact ctxFrame_setX hc
  · rw [State.loaded_marked hp] at hc ⊢
    refine ⟨ctxFrame_setX (s := { s with ctx := s.ctx.scalarMark }) hc, ?_⟩
    rw [hc]
    show (s.ctx.scalarMark.setX d _).getX d = 0
    rw [Ctx.getX_setX, if_pos rfl, Option.getD_none, extend_zero, ite_self]
  · unfold Ctx.scalarMark
    rw [hq]
    rfl

end Sys2Proof.Machine

/-- Settles O9: the fourteen forms are one operation, whose next state is given by what the load answers. -/
theorem loads : Obligations.Loads := ⟨Sys2Proof.Machine.loadResult, Sys2Proof.Machine.loadFrame⟩

/-! ## Requests about subleases (R340-R347)

A request is served by one function for all: `serve`. Where its turn comes at once, what the request's own meaning answers is the
outcome (`exec_served`); the claims then speak of that meaning alone. -/

namespace Sys2Proof.Machine

/-- How a request of each body is served. -/
def requestServe : ReqBody → Serve
  | .createSublease _ | .malformed => createSub
  | .destroySublease => destroyReq
  | .map _ _ _ _ _ => mapReq
  | .setLimits _ _ _ => limitsReq
  | .setOccupants _ _ _ => occupantsReq
  | .readCounters _ _ => countersReq
  | .resetSublease => resetReq
  | .injectError _ _ => injectReq
  | .delegate _ _ _ => delegateReq
  | .revoke _ _ => revokeReq
  | .registerEventQueue _ _ => queueReq
  | .setLdm _ => ldmReq
  | .resume _ => resumeReq
  | .terminate _ => terminateReq
  | .contextAccess _ _ _ => contextReq
  | .breakpoint _ _ _ => breakpointReq
  | .launchRequest _ _ => launchReq
  | .readBlackBox _ => blackBoxReq
  | .power _ => powerReq
  | .attest _ => attestReq
  | .releaseQuarantine _ _ _ => quarantineReq

theorem exec_step (b : ReqBody) (s : State) : exec (ReqBody.step b) s = serve (ReqBody.step b) (requestServe b) s := by
  cases b <;> rfl

/-- A request as it stands in the inbox when it arrives. -/
def State.arriving (s : State) (r : Req) (b : ReqBody) : Waiting := { num := s.nextId, req := r, body := b, begun := false }

theorem sameHolder_iff (a b : Req) : State.sameHolder a b = true ↔ Claims.oneHolder a b := by
  simp [State.sameHolder, Claims.oneHolder, and_assoc]

theorem overtakes_iff (s : State) (r : Req) (b : ReqBody) :
    s.overtakes (s.arriving r b) = true ↔ ∃ w ∈ s.reeve.inbox, Claims.oneHolder w.req r ∧ w.num < s.nextId := by
  unfold State.overtakes State.arriving
  simp [sameHolder_iff]

theorem overtakes_none {s : State} {r : Req} (h : ∀ w ∈ s.reeve.inbox, ¬ Claims.oneHolder w.req r) (b : ReqBody) :
    s.overtakes (s.arriving r b) = false := by
  rw [← Bool.not_eq_true, overtakes_iff]
  rintro ⟨w, hw, hr, -⟩
  exact h w hw hr

theorem mem_dies (s : State) (x : Die) : x ∈ s.dies.toList ↔ ∃ d, s.die d = x := by
  rw [Vector.mem_toList_iff, Vector.mem_iff_getElem]
  constructor
  · rintro ⟨i, hi, rfl⟩
    refine ⟨BitVec.ofNat 2 i, ?_⟩
    unfold State.die
    congr 1
    simp [Nat.mod_eq_of_lt hi]
  · rintro ⟨d, rfl⟩
    exact ⟨d.toNat, d.isLt, rfl⟩

theorem awake_iff (s : State) : s.awake = true ↔ ∀ d, (s.die d).power = 0 ∧ (s.die d).slow = 0 := by
  have hall : s.awake = true ↔ ∀ x ∈ s.dies.toList, (x.power == 0 && x.slow == 0) = true := List.all_eq_true
  rw [hall]
  constructor
  · intro h d
    simpa using h _ ((mem_dies s _).2 ⟨d, rfl⟩)
  · intro h x hx
    obtain ⟨d, rfl⟩ := (mem_dies s x).1 hx
    simpa using h d

/-- The state in which a request has been answered. -/
def State.closed (t : State) (num : Nat) (r : Req) (status : Nat) (ws : List Word) : State :=
  { t with reeve := { t.reeve with
    inbox := t.reeve.inbox.filter (fun x => x.num != num), responses := t.reeve.responses ++ [Claims.response r status ws] } }

theorem serve_request {s : State} {r : Req} {b : ReqBody} (h : s.arg = .request r b) (i : Instr) (run : Serve) :
    serve i run s = .next (if s.reeve.frozen then s.keepWaiting (s.arriving r b)
      else if s.overtakes (s.arriving r b) then (s.keepWaiting (s.arriving r b)).post i (.waiting s.nextId)
      else attempt i run (s.arriving r b) s) := by
  unfold serve
  rw [h]
  rfl

theorem attempt_asleep {s : State} (h : s.awake = false) (i : Instr) (run : Serve) (w : Waiting) :
    attempt i run w s = ({ s.keepWaiting w with pend := (.wake, .none) :: (s.keepWaiting w).pend } : State).post i (.waiting w.num) := by
  unfold attempt
  rw [h]
  rfl

theorem attempt_unbooted {s : State} (ha : s.awake = true) (hb : s.reeve.booted = false) (i : Instr) (run : Serve) (w : Waiting) :
    attempt i run w s = s.closed w.num w.req 2 [] := by
  unfold attempt
  rw [ha, hb]
  rfl

theorem attempt_answer {s t : State} {w : Waiting} {i : Instr} {run : Serve} {status : Nat} {ws : List Word} (ha : s.awake = true)
    (hb : s.reeve.booted = true) (hw : w.begun = false) (hr : run (s.holds w.req) w.req w.body s = .answer status ws t) :
    attempt i run w s = t.closed w.num w.req status ws := by
  unfold attempt
  simp only [ha, hb, hw, Bool.not_true, Bool.false_eq_true, if_false, Bool.false_or]
  rw [hr]
  rfl

theorem exec_served {s t : State} {r : Req} {b : ReqBody} {status : Nat} {ws : List Word} (h : Claims.served s r b)
    (hr : requestServe b (s.holds r) r b s = .answer status ws t) : exec (ReqBody.step b) s = .next (t.closed s.nextId r status ws) := by
  obtain ⟨harg, hfrozen, hbooted, hawake, hfirst⟩ := h
  rw [exec_step, serve_request harg, hfrozen, overtakes_none hfirst]
  exact congrArg _ (attempt_answer ((awake_iff s).2 hawake) hbooted rfl hr)

/-- A request that its meaning refuses is turned down, and nothing else changes. -/
theorem refusedWith_of {s : State} {r : Req} {b : ReqBody} {status : Nat} (h : Claims.served s r b)
    (hr : requestServe b (s.holds r) r b s = refuse s status) : Claims.refusedWith (ReqBody.step b) s r status := exec_served h hr

theorem answers_of {s t : State} {r : Req} {b : ReqBody} {status : Nat} {ws : List Word} (h : Claims.served s r b)
    (hr : requestServe b (s.holds r) r b s = .answer status ws t) (hk : t.reeve.responses = s.reeve.responses) :
    Claims.answers (ReqBody.step b) s (t.closed s.nextId r status ws) r status ws :=
  ⟨exec_served h hr, congrArg (· ++ [Claims.response r status ws]) hk⟩

/-! ### Arrival -/

theorem keepWaiting_arriving {s : State} (h : ∀ w ∈ s.reeve.inbox, w.num < s.nextId) (r : Req) (b : ReqBody) :
    s.keepWaiting (s.arriving r b) =
      { s with nextId := s.nextId + 1, reeve := { s.reeve with inbox := s.reeve.inbox ++ [s.arriving r b] } } := by
  have hnew : s.reeve.inbox.any (fun x => x.num == (s.arriving r b).num) = false := by
    rw [List.any_eq_false]
    intro w hw
    have hlt := h w hw
    simp only [State.arriving, beq_iff_eq]
    omega
  unfold State.keepWaiting
  dsimp only
  rw [hnew, if_neg Bool.false_ne_true, show max s.nextId ((s.arriving r b).num + 1) = s.nextId + 1 from Nat.max_eq_right (Nat.le_succ _)]

theorem keepWaiting_kept {s : State} (h : ∀ w ∈ s.reeve.inbox, w.num < s.nextId) (r : Req) (b : ReqBody) :
    Claims.kept s r b (s.keepWaiting (s.arriving r b)) ∧ (s.keepWaiting (s.arriving r b)).pend = s.pend := by
  rw [keepWaiting_arriving h]
  exact ⟨⟨rfl, rfl, rfl, rfl⟩, rfl⟩

theorem requestsArrive : Claims.RequestsArrive := by
  intro s r
  refine ⟨fun b harg hnums => ?_, fun b harg hfrozen hbooted hawake hfirst => ?_⟩
  · obtain ⟨hk, hp⟩ := keepWaiting_kept hnums r b
    refine ⟨fun hfrozen => ?_, fun hfrozen hold => ?_, fun hfrozen hfirst hsleep => ?_⟩
    · rw [exec_step, serve_request harg, hfrozen]
      exact ⟨_, rfl, hk, hp⟩
    · obtain ⟨w, hw, hr⟩ := hold
      rw [exec_step, serve_request harg, hfrozen, (overtakes_iff s r b).2 ⟨w, hw, hr, hnums w hw⟩]
      exact ⟨_, rfl, hk, congrArg (· ++ _) hp⟩
    · have hasleep : s.awake = false := by
        rw [← Bool.not_eq_true, awake_iff]
        obtain ⟨d, hd⟩ := hsleep
        intro h
        obtain ⟨hpower, hslow⟩ := h d
        exact hd.elim (absurd hpower) (absurd hslow)
      rw [exec_step, serve_request harg, hfrozen, overtakes_none hfirst]
      exact ⟨_, congrArg _ (attempt_asleep hasleep _ _ _), hk, congrArg (fun l => (Instr.wake, EventArg.none) :: l ++ [(ReqBody.step b, .waiting s.nextId)]) hp⟩
  · unfold Claims.refusedWith
    rw [exec_step, serve_request harg, hfrozen, overtakes_none hfirst]
    exact congrArg _ (attempt_unbooted ((awake_iff s).2 hawake) hbooted _ _ _)

end Sys2Proof.Machine

/-! ### The Reeve's tables after a request -/

namespace Sys2Proof.Machine

theorem find?_updateWhere {α : Type} {p : α → Bool} {f : α → α} (h : ∀ a, p a = true → p (f a) = true) (l : List α) :
    (updateWhere p f l).find? p = (l.find? p).map f := by
  induction l with
  | nil => rfl
  | cons a l ih =>
    unfold updateWhere at ih ⊢
    by_cases ha : p a = true
    · simp [ha, h a ha]
    · simp [ha, ih]

theorem find?_append_single {α : Type} {p : α → Bool} {l : List α} (h : l.find? p = none) {a : α} (ha : p a = true) :
    (l ++ [a]).find? p = some a := by
  rw [List.find?_append, h, Option.none_or, List.find?_singleton, if_pos ha]

theorem State.sub?_modSub {s : State} {l b : Byte} {f : Sub → Sub} (h : ∀ x, (f x).lease = x.lease ∧ (f x).num = x.num) :
    (s.modSub l b f).sub? l b = (s.sub? l b).map f :=
  find?_updateWhere (fun x hx => by rwa [(h x).1, (h x).2]) _

theorem State.die_modDie_same (s : State) (d : BitVec 2) (f : Die → Die) : (s.modDie d f).die d = f (s.die d) := by
  rw [State.die_modDie, if_pos rfl]

theorem State.holds_of_W {s : State} {r : Req} (h : r.level = 3) (k : Nat) : s.holds r k = true := by simp [State.holds, h]

theorem State.holder_of_W {s : State} {r : Req} (h : r.level = 3) : s.holder r = true := by simp [State.holder, h]

theorem bits_eq_extract (w : Word) (hi lo : Nat) : bits w hi lo = (w.extractLsb' lo (hi + 1 - lo)).toNat := by
  rw [BitVec.extractLsb'_toNat, Nat.shiftRight_eq_div_pow]
  rfl

/-! An answer changes only the inbox and the responses. -/

section closed
variable (t : State) (num : Nat) (r : Req) (status : Nat) (ws : List Word)

@[simp] theorem State.closed_mem : (t.closed num r status ws).mem = t.mem := rfl
@[simp] theorem State.closed_tlb : (t.closed num r status ws).tlb = t.tlb := rfl
@[simp] theorem State.closed_cores : (t.closed num r status ws).cores = t.cores := rfl
@[simp] theorem State.closed_core (n : Nat) : (t.closed num r status ws).core n = t.core n := rfl
@[simp] theorem State.closed_mill (n : Nat) : (t.closed num r status ws).mill n = t.mill n := rfl
@[simp] theorem State.closed_die (d : BitVec 2) : (t.closed num r status ws).die d = t.die d := rfl
@[simp] theorem State.closed_ue : (t.closed num r status ws).ue = t.ue := rfl
@[simp] theorem State.closed_lease? (l : Byte) : (t.closed num r status ws).lease? l = t.lease? l := rfl
@[simp] theorem State.closed_sub? (l b : Byte) : (t.closed num r status ws).sub? l b = t.sub? l b := rfl
@[simp] theorem State.closed_timeOf (l : Byte) : (t.closed num r status ws).timeOf l = t.timeOf l := rfl
@[simp] theorem State.closed_delegs : (t.closed num r status ws).reeve.delegs = t.reeve.delegs := rfl

end closed

/-! ### Set limits, set occupants, set LDM -/

theorem forall_lt_three (P : Nat → Prop) : (∀ p, p < 3 → P p) ↔ P 0 ∧ P 1 ∧ P 2 := by
  constructor
  · exact fun h => ⟨h 0 (by decide), h 1 (by decide), h 2 (by decide)⟩
  · rintro ⟨h0, h1, h2⟩ p hp
    match p, hp with
    | 0, _ => exact h0
    | 1, _ => exact h1
    | 2, _ => exact h2

/-- An occupant of a slot that a lease handler may put in place of another (R342). -/
def occMayReplace (r : Req) (a b : Nat) : Prop :=
  a = b ∨ (a ≠ 0xFFFF ∧ b ≠ 0xFFFF ∧ a / 256 = r.lease.toNat ∧ b / 256 = r.lease.toNat ∧ r.tLease = r.lease ∧
    (r.tSub = 0xFF ∨ b % 256 = r.tSub.toNat))

/-- Two occupants of an entry share a core. -/
def State.occMeet (s : State) (e : Word) (p q : Nat) : Prop :=
  State.occOf e p ≠ 0xFFFF ∧ State.occOf e q ≠ 0xFFFF ∧ ∃ k ∈ s.occCores (State.occOf e p), k ∈ s.occCores (State.occOf e q)

theorem occMeet_iff (s : State) (e : Word) (p q : Nat) :
    (State.occOf e p != 0xFFFF && State.occOf e q != 0xFFFF &&
      (s.occCores (State.occOf e p)).any (fun k => (s.occCores (State.occOf e q)).contains k)) = true ↔ s.occMeet e p q := by
  simp [State.occMeet, and_assoc]

theorem occMayReplace_iff (r : Req) (a b : Nat) :
    (a == b || (a != 0xFFFF && b != 0xFFFF && decide (a / 256 = r.lease.toNat) && decide (b / 256 = r.lease.toNat) &&
      r.tLease == r.lease && (r.tSub == 0xFF || decide (b % 256 = r.tSub.toNat)))) = true ↔ occMayReplace r a b := by
  simp only [occMayReplace, Bool.or_eq_true, Bool.and_eq_true, beq_iff_eq, bne_iff_ne, decide_eq_true_eq, and_assoc]

theorem bits_eq_iff (v w : Word) (hi lo : Nat) :
    (bits v hi lo == bits w hi lo) = true ↔ v.extractLsb' lo (hi + 1 - lo) = w.extractLsb' lo (hi + 1 - lo) := by
  rw [beq_iff_eq, bits_eq_extract, bits_eq_extract, BitVec.toNat_inj]

theorem entryMayReplace_iff (r : Req) (old e : Word) :
    (bits old 63 48 == bits e 63 48 && ((List.map (State.occOf old) [0, 1, 2]).zip (List.map (State.occOf e) [0, 1, 2])).all (fun p =>
      p.1 == p.2 || (p.1 != 0xFFFF && p.2 != 0xFFFF && decide (p.1 / 256 = r.lease.toNat) && decide (p.2 / 256 = r.lease.toNat) &&
        r.tLease == r.lease && (r.tSub == 0xFF || decide (p.2 % 256 = r.tSub.toNat))))) = true ↔
    old.extractLsb' 48 16 = e.extractLsb' 48 16 ∧ ∀ p, p < 3 → occMayReplace r (State.occOf old p) (State.occOf e p) := by
  rw [Bool.and_eq_true, bits_eq_iff, forall_lt_three]
  simp only [List.map_cons, List.map_nil, List.zip_cons_cons, List.zip_nil_left, List.all_cons, List.all_nil, Bool.and_true, Bool.and_eq_true,
    occMayReplace_iff]

theorem entryEmpty_iff (e : Word) : (bitAt e 63 && bits e 62 48 == 0) = true ↔ e.getLsbD 63 = true ∧ e.extractLsb' 48 15 = 0 := by
  rw [Bool.and_eq_true, beq_iff_eq, bits_eq_extract, ← BitVec.toNat_inj]
  rfl

/-- What set occupants does, check by check. -/
theorem occupantsReq_eq (may : Nat → Bool) (r : Req) (d : BitVec 2) (i : BitVec 6) (e : Word) (s : State) :
    let old := (s.die d).slots.toList.getD i.toNat 0
    let mine : Prop := old.extractLsb' 48 16 = e.extractLsb' 48 16 ∧ ∀ p, p < 3 → occMayReplace r (State.occOf old p) (State.occOf e p)
    (may rPriority = false ∨ r.level.toNat < 2 → occupantsReq may r (.setOccupants d i e) s = refuse s 1) ∧
    (may rPriority = true → 2 ≤ r.level.toNat →
      (r.level ≠ 3 ∧ ¬ mine → occupantsReq may r (.setOccupants d i e) s = refuse s 2) ∧
      (r.level = 3 ∨ mine → (e.getLsbD 63 = true → e.extractLsb' 48 15 ≠ 0) → ¬ s.occMeet e 0 1 → ¬ s.occMeet e 0 2 → ¬ s.occMeet e 1 2 →
        occupantsReq may r (.setOccupants d i e) s = done (s.modDie d (fun x => { x with slots := x.slots.setIfInBounds i.toNat e })))) := by
  have hold : (s.die d).slots.toList.getD i.toNat slot0 = (s.die d).slots.toList.getD i.toNat 0 := by
    have hi : i.toNat < 64 := i.isLt
    simp [hi]
  intro old mine
  refine ⟨fun h => if_pos ?_, fun hp hl => ⟨fun h => ?_, fun hmine hempty h01 h02 h12 => ?_⟩⟩
  · simpa only [Bool.or_eq_true, Bool.not_eq_true', decide_eq_true_eq] using h
  · obtain ⟨hw, hm⟩ := h
    unfold occupantsReq
    dsimp only
    rw [if_neg (by rw [hp]; simp only [Bool.not_true, Bool.false_or, decide_eq_true_eq]; omega), hold]
    refine if_pos ?_
    simp only [Bool.or_eq_true]
    refine .inl (.inl (.inl (.inl ?_)))
    rw [Bool.not_eq_true', ← Bool.not_eq_true, Bool.or_eq_true, entryMayReplace_iff, beq_iff_eq, not_or]
    exact ⟨hw, hm⟩
  · unfold occupantsReq
    dsimp only
    rw [if_neg (by rw [hp]; simp only [Bool.not_true, Bool.false_or, decide_eq_true_eq]; omega), hold]
    refine if_neg ?_
    simp only [Bool.or_eq_true, occMeet_iff, not_or]
    refine ⟨⟨⟨⟨?_, h01⟩, h02⟩, h12⟩, ?_⟩
    · rw [Bool.not_eq_true, Bool.not_eq_false', Bool.or_eq_true, entryMayReplace_iff, beq_iff_eq]
      exact hmine
    · rw [entryEmpty_iff]
      rintro ⟨h63, h0⟩
      exact hempty h63 h0

theorem occCores_apart {s : State} {e : Word} (h : ∀ p q, p < q → q < 3 → State.occOf e p ≠ 0xFFFF → State.occOf e q ≠ 0xFFFF →
      ∀ k ∈ s.occCores (State.occOf e p), k ∉ s.occCores (State.occOf e q)) {p q : Nat} (hpq : p < q) (hq : q < 3) : ¬ s.occMeet e p q := by
  rintro ⟨hp, hq', k, hk, hk'⟩
  exact h p q hpq hq hp hq' k hk hk'

theorem limitRequests : Claims.LimitRequests := by
  intro s t v r
  refine ⟨fun cap quota urn hs => ⟨fun hp => ?_, fun hp hbad => ?_, fun x hp hx hquota hurn hurn' => ?_⟩, fun d i e hs => ?_,
    fun v hs => ⟨fun hl => ?_, fun x hl hx hv => ?_⟩⟩
  · exact refusedWith_of hs (if_pos (by rw [hp]; rfl))
  · have hcheck : ((s.sub? r.tLease r.tSub).isNone || decide (256 < quota.toNat) || decide (urn = 0) || decide (64 < urn.toNat)) = true := by
      simpa only [Bool.or_eq_true, decide_eq_true_eq, or_assoc] using hbad
    exact refusedWith_of hs ((if_neg (by rw [hp]; decide)).trans (if_pos hcheck))
  · have hcheck : ¬ ((s.sub? r.tLease r.tSub).isNone || decide (256 < quota.toNat) || decide (urn = 0) || decide (64 < urn.toNat)) = true := by
      simp only [Bool.or_eq_true, decide_eq_true_eq, not_or]
      exact ⟨⟨⟨by rw [hx]; exact Bool.false_ne_true, by omega⟩, hurn⟩, by omega⟩
    refine ⟨_, answers_of hs ((if_neg (by rw [hp]; decide)).trans (if_neg hcheck)) rfl, ?_, rfl⟩
    rw [State.closed_sub?, State.sub?_modSub, hx]
    · rfl
    · exact fun _ => ⟨rfl, rfl⟩
  · obtain ⟨hrefuse, hgo⟩ := occupantsReq_eq (s.holds r) r d i e s
    refine ⟨fun h => refusedWith_of hs (hrefuse h), fun hp hl hm => ?_, fun hagent hempty hapart => ?_⟩
    · exact refusedWith_of hs ((hgo hp (by rw [hl]; decide)).1 ⟨by rw [hl]; decide, hm⟩)
    · have hp : s.holds r rPriority = true := hagent.elim (fun h => State.holds_of_W h _) fun h => h.1
      have hl : 2 ≤ r.level.toNat := hagent.elim (fun h => by rw [h]; decide) fun h => by rw [h.2.1]; decide
      have hm := hagent.imp_right fun h => h.2.2
      refine ⟨_, answers_of hs ((hgo hp hl).2 hm hempty (occCores_apart hapart (by decide) (by decide))
        (occCores_apart hapart (by decide) (by decide)) (occCores_apart hapart (by decide) (by decide))) rfl, ?_, rfl, ?_⟩
      · rw [State.closed_die, State.die_modDie_same]
        have hi : i.toNat < 64 := i.isLt
        simp [hi]
      · rw [State.closed_die, State.die_modDie_same]
  · exact refusedWith_of hs (if_pos (by rw [hl]; rfl))
  · have hcheck : ¬ ((s.sub? r.tLease r.tSub).isNone || v &&& ~~~0x700 != 0) = true := by
      rw [hx, hv]
      exact Bool.false_ne_true
    refine ⟨_, { x with ldm := v, ldmClear := x.ldmClear.map fun c => (c ||| (x.ldm &&& ~~~v)) &&& ~~~v },
      answers_of hs ((if_neg (by rw [hl]; decide)).trans (if_neg hcheck)) rfl, ?_, rfl, rfl, fun d => ?_⟩
    · rw [State.closed_sub?, State.sub?_modSub, hx]
      · rfl
      · exact fun _ => ⟨rfl, rfl⟩
    show v ||| (x.ldmClear.map fun c => (c ||| (x.ldm &&& ~~~v)) &&& ~~~v)[d] = _
    rw [Fin.getElem_fin, Vector.getElem_map]
    ext k
    simp only [BitVec.getElem_or, BitVec.getElem_and, BitVec.getElem_not]
    cases v[k] <;> simp [Bool.or_comm]

end Sys2Proof.Machine

/-! ### Delegate and revoke (R346) -/

namespace Sys2Proof.Machine

theorem any_range_six (p : Nat → Bool) : (List.range 6).any p = true ↔ ∃ k, k < 6 ∧ p k = true := by
  simp only [List.any_eq_true, List.mem_range]

/-- A record of a list of records falls where none that stands gives it, or gives it some right of its own (R346). -/
def Deleg.Fallen (d : Deleg) (l : List Deleg) (p : Deleg → Prop) : Prop := ∀ o ∈ l, o.backs d = true → p o → o.revoked = true

theorem orphan_iff (d : Deleg) (l : List Deleg) :
    d.orphan l = true ↔ d.byLevel ≠ 3 ∧ (d.Fallen l (fun _ => True) ∨
      ∃ k, k < 6 ∧ d.rights.getLsbD k = true ∧ d.Fallen l (fun o => o.rights.getLsbD k = true)) := by
  have hback (p : Deleg → Bool) : (!l.any fun o => !o.revoked && o.backs d && p o) = true ↔ d.Fallen l (fun o => p o = true) := by
    simp only [Bool.not_eq_true', List.any_eq_false, Bool.and_eq_true, not_and, Deleg.Fallen, Bool.not_eq_true]
    refine forall_congr' fun o => forall_congr' fun _ => ?_
    cases o.revoked <;> simp
  unfold Deleg.orphan
  simp only [Bool.and_eq_true, Bool.or_eq_true, any_range_six, hback, bne_iff_ne]

/-- Where a delegation may put its record: with the next level down (R346). -/
def State.placeOk (s : State) (r : Req) (tl ts : Byte) : Prop :=
  (r.level = 3 ∧ ts = 0xFF ∧ (s.lease? tl).isSome = true) ∨ (r.level = 2 ∧ tl = r.lease ∧ (s.sub? tl ts).isSome = true) ∨
    (r.level = 1 ∧ tl = r.lease ∧ ts = r.sub)

def State.targetOk (s : State) (r : Req) : Prop :=
  (r.tSub = 0xFF ∧ (s.lease? r.tLease).isSome = true) ∨ (r.tSub ≠ 0xFF ∧ (s.sub? r.tLease r.tSub).isSome = true)

/-- The record of a delegation, before it is known whether it stands. -/
def delegOf (r : Req) (tl ts : Byte) (rights : Rights) : Deleg :=
  { byLevel := r.level, byLease := r.lease, bySub := r.sub, toLevel := r.level - 1, toLease := tl, toSub := ts
    tLease := r.tLease, tSub := r.tSub, rights := rights, revoked := false }

/-- The model's test of the place, as it is made. -/
def State.placeTest (s : State) (r : Req) (tl ts : Byte) : Bool :=
  match r.level.toNat with
  | 3 => ts == 0xFF && (s.lease? tl).isSome
  | 2 => tl == r.lease && (s.sub? tl ts).isSome
  | 1 => tl == r.lease && ts == r.sub
  | _ => false

theorem placeTest_iff (s : State) (r : Req) (tl ts : Byte) : s.placeTest r tl ts = true ↔ s.placeOk r tl ts := by
  have hlevel (n : Nat) (hn : n < 4) : r.level.toNat = n ↔ r.level = BitVec.ofNat 2 n := by
    rw [← BitVec.toNat_inj, BitVec.toNat_ofNat, Nat.mod_eq_of_lt hn]
  unfold State.placeTest State.placeOk
  split
  · next h => simp [(hlevel 3 (by decide)).1 h]
  · next h => simp [(hlevel 2 (by decide)).1 h]
  · next h => simp [(hlevel 1 (by decide)).1 h]
  · next h3 h2 h1 =>
    simp only [Bool.false_eq_true, false_iff, not_or, not_and']
    exact ⟨fun _ h => h3 ((hlevel 3 (by decide)).2 h), fun _ h => h2 ((hlevel 2 (by decide)).2 h), fun _ h => h1 ((hlevel 1 (by decide)).2 h)⟩

theorem targetTest_iff (s : State) (r : Req) :
    (if r.tSub = 0xFF then (s.lease? r.tLease).isSome else (s.sub? r.tLease r.tSub).isSome) = true ↔ s.targetOk r := by
  unfold State.targetOk
  split
  · next h => exact ⟨fun hs => .inl ⟨h, hs⟩, fun hs => hs.elim And.right fun k => absurd h k.1⟩
  · next h => exact ⟨fun hs => .inr ⟨h, hs⟩, fun hs => hs.elim (fun k => absurd k.1 h) And.right⟩

theorem rights_covered_iff (may : Nat → Bool) (rights : Rights) :
    (List.range 6).all (fun k => !rights.getLsbD k || may k) = true ↔ ∀ k, k < 6 → rights.getLsbD k = true → may k = true := by
  simp only [List.all_eq_true, List.mem_range, Bool.or_eq_true, Bool.not_eq_true', ← Bool.not_eq_true, imp_iff_not_or]

theorem delegateReq_unfold (may : Nat → Bool) (r : Req) (tl ts : Byte) (rights : Rights) (s : State) :
    delegateReq may r (.delegate tl ts rights) s =
      if r.level = 0 || !s.holder r || !(List.range 6).all (fun k => !rights.getLsbD k || may k) then refuse s 1
      else if !s.placeTest r tl ts || !(if r.tSub = 0xFF then (s.lease? r.tLease).isSome else (s.sub? r.tLease r.tSub).isSome) then refuse s 2
      else done { s with reeve := { s.reeve with delegs := s.reeve.delegs ++
        [{ delegOf r tl ts rights with revoked := (delegOf r tl ts rights).orphan s.reeve.delegs }] } } := rfl

/-- What delegate does, check by check. -/
theorem delegateReq_eq (may : Nat → Bool) (r : Req) (tl ts : Byte) (rights : Rights) (s : State) :
    (r.level = 0 ∨ s.holder r = false ∨ (∃ k, k < 6 ∧ rights.getLsbD k = true ∧ may k = false) →
      delegateReq may r (.delegate tl ts rights) s = refuse s 1) ∧
    (r.level ≠ 0 → s.holder r = true → (∀ k, k < 6 → rights.getLsbD k = true → may k = true) →
      (¬ (s.placeOk r tl ts ∧ s.targetOk r) → delegateReq may r (.delegate tl ts rights) s = refuse s 2) ∧
      (s.placeOk r tl ts → s.targetOk r → delegateReq may r (.delegate tl ts rights) s =
        done { s with reeve := { s.reeve with delegs := s.reeve.delegs ++
          [{ delegOf r tl ts rights with revoked := (delegOf r tl ts rights).orphan s.reeve.delegs }] } })) := by
  rw [delegateReq_unfold]
  refine ⟨fun h => if_pos ?_, fun hl hh hr => ?_⟩
  · simp only [Bool.or_eq_true, decide_eq_true_eq, Bool.not_eq_true', ← Bool.not_eq_true ((List.range 6).all _), rights_covered_iff]
    rcases h with h | h | ⟨k, hk, hr, hm⟩
    · exact .inl (.inl h)
    · exact .inl (.inr h)
    · exact .inr fun hall => absurd (hall k hk hr) (by rw [hm]; decide)
  · rw [if_neg]
    · refine ⟨fun hbad => if_pos ?_, fun hp ht => if_neg ?_⟩
      · rw [Bool.or_eq_true, Bool.not_eq_true', Bool.not_eq_true', ← Bool.not_eq_true, ← Bool.not_eq_true, placeTest_iff, targetTest_iff]
        exact not_and_or.1 hbad
      · rw [(placeTest_iff s r tl ts).2 hp, (targetTest_iff s r).2 ht]
        decide
    · rw [hh, (rights_covered_iff may rights).2 hr]
      simpa using hl

theorem delegate_claim (s : State) (r : Req) (tl ts : Byte) (rights : Rights) (hs : Claims.served s r (.delegate tl ts rights)) :
    (r.level = 0 ∨ s.holder r = false ∨ (∃ k, k < 6 ∧ rights.getLsbD k = true ∧ s.holds r k = false) → Claims.refusedWith .delegate s r 1) ∧
    (r.level ≠ 0 → s.holder r = true → (∀ k, k < 6 → rights.getLsbD k = true → s.holds r k = true) → ¬ (s.placeOk r tl ts ∧ s.targetOk r) →
      Claims.refusedWith .delegate s r 2) ∧
    (s.holder r = true → (∀ k, k < 6 → rights.getLsbD k = true → s.holds r k = true) → s.placeOk r tl ts → s.targetOk r →
      ∃ u d, Claims.answers .delegate s u r 0 [] ∧ u.reeve.delegs = s.reeve.delegs ++ [d] ∧ d = { delegOf r tl ts rights with revoked := d.revoked } ∧
        (d.revoked = true ↔ r.level ≠ 3 ∧ (d.Fallen s.reeve.delegs (fun _ => True) ∨
          ∃ k, k < 6 ∧ rights.getLsbD k = true ∧ d.Fallen s.reeve.delegs (fun o => o.rights.getLsbD k = true)))) := by
  obtain ⟨hrefuse, hgo⟩ := delegateReq_eq (s.holds r) r tl ts rights s
  refine ⟨fun h => refusedWith_of hs (hrefuse h), fun hl hh hr hbad => refusedWith_of hs ((hgo hl hh hr).1 hbad), fun hh hr hp ht => ?_⟩
  have hl : r.level ≠ 0 := by
    rcases hp with ⟨h, -⟩ | ⟨h, -⟩ | ⟨h, -⟩ <;> rw [h] <;> decide
  refine ⟨_, _, answers_of hs ((hgo hl hh hr).2 hp ht) rfl, rfl, rfl, ?_⟩
  exact orphan_iff (delegOf r tl ts rights) s.reeve.delegs

/-- The records that p selects are withdrawn. -/
def withdrawn (p : Deleg → Bool) (l : List Deleg) : List Deleg := l.map (fun d => if p d then { d with revoked := true } else d)

theorem mem_withdrawn {p : Deleg → Bool} {l : List Deleg} {d : Deleg} (hd : d ∈ l) (hp : p d = true) : { d with revoked := true } ∈ withdrawn p l :=
  List.mem_map.2 ⟨d, hd, if_pos hp⟩

/-- What is withdrawn stays so. -/
theorem mem_withdrawn_again (p : Deleg → Bool) {l : List Deleg} {d : Deleg} (hd : { d with revoked := true } ∈ l) :
    { d with revoked := true } ∈ withdrawn p l := by
  refine List.mem_map.2 ⟨_, hd, ?_⟩
  split <;> rfl

/-- A record whose backing falls with those withdrawn is an orphan afterwards. -/
theorem Deleg.Fallen.withdrawn {d : Deleg} {p : Deleg → Bool} {q : Deleg → Prop} {l : List Deleg}
    (h : ∀ o ∈ l, o.backs d = true → q o → p o = true ∨ o.revoked = true) : d.Fallen (withdrawn p l) q := by
  intro o ho hb hqo
  obtain ⟨o', ho', rfl⟩ := List.mem_map.1 ho
  by_cases hp : p o' = true
  · rw [if_pos hp]
  · rw [if_neg hp] at hb hqo ⊢
    exact (h o' ho' hb hqo).resolve_left hp

/-- The delegator's records to a holder over the target. -/
def revokesFor (r : Req) (tl ts : Byte) (d : Deleg) : Bool :=
  d.byLevel == r.level && (r.level == 3 || d.byLease == r.lease) && (decide (2 ≤ r.level.toNat) || d.bySub == r.sub) && d.toLease == tl && d.toSub == ts &&
    d.tLease == r.tLease && d.tSub == r.tSub

theorem revokeReq_eq (may : Nat → Bool) (r : Req) (tl ts : Byte) (s : State) :
    revokeReq may r (.revoke tl ts) s =
      let l := withdrawn (revokesFor r tl ts) s.reeve.delegs
      let l' := withdrawn (fun d => d.orphan l) l
      if !s.reeve.delegs.any (revokesFor r tl ts) then refuse s 2
      else done { s with reeve := { s.reeve with delegs := withdrawn (fun d => d.orphan l') l' } } := rfl

theorem revokes_of_W {r : Req} (h : r.level = 3) (tl ts : Byte) (d : Deleg) :
    revokesFor r tl ts d = true ↔ d.byLevel = 3 ∧ d.toLease = tl ∧ d.toSub = ts ∧ d.tLease = r.tLease ∧ d.tSub = r.tSub := by
  unfold revokesFor
  have h2 : 2 ≤ BitVec.toNat (3 : BitVec 2) := by decide
  rw [h]
  simp only [Bool.and_eq_true, Bool.or_eq_true, beq_iff_eq, decide_eq_true_eq, h2, true_or, and_true, and_assoc]

theorem rightRequests : Claims.RightRequests := by
  intro s r
  refine ⟨fun tl ts rights hs => ?_, fun tl ts hs hl => ?_⟩
  · obtain ⟨h1, h2, hgo⟩ := delegate_claim s r tl ts rights hs
    refine ⟨h1, h2, fun hh hr hp ht => ?_⟩
    obtain ⟨u, d, ha, hu, hd, hrev⟩ := hgo hh hr hp ht
    exact ⟨u, d, ha, hu, congrArg Deleg.toLevel hd, congrArg Deleg.toLease hd, congrArg Deleg.toSub hd, congrArg Deleg.tLease hd,
      congrArg Deleg.tSub hd, congrArg Deleg.rights hd, congrArg Deleg.byLevel hd, congrArg Deleg.byLease hd, congrArg Deleg.bySub hd, hrev⟩
  · have hm (d : Deleg) := revokes_of_W hl tl ts d
    have he := revokeReq_eq (s.holds r) r tl ts s
    dsimp only
    refine ⟨fun hnone => refusedWith_of hs (he.trans (if_pos ?_)), fun hsome => ?_⟩
    · rw [Bool.not_eq_true', List.any_eq_false]
      exact fun d hd => fun h => hnone d hd ((hm d).1 h)
    · have hany : ¬ (!s.reeve.delegs.any (revokesFor r tl ts)) = true := by
        obtain ⟨d, hd, hmine⟩ := hsome
        rw [List.any_eq_true.2 ⟨d, hd, (hm d).2 hmine⟩]
        decide
      refine ⟨_, answers_of hs (he.trans (if_neg hany)) rfl, ?_, fun d hd hmine => ?_, fun d hd hby hfall => ?_⟩
      · simp [withdrawn]
      · exact mem_withdrawn_again _ (mem_withdrawn_again _ (mem_withdrawn hd ((hm d).2 hmine)))
      · have hstays : d ∈ withdrawn (revokesFor r tl ts) s.reeve.delegs :=
          List.mem_map.2 ⟨d, hd, if_neg fun h => hby ((hm d).1 h).1⟩
        refine mem_withdrawn_again _ (mem_withdrawn hstays ((orphan_iff _ _).2 ⟨hby, ?_⟩))
        refine hfall.imp (fun h => ?_) fun ⟨k, hk, hr, h⟩ => ⟨k, hk, hr, ?_⟩
        · exact Deleg.Fallen.withdrawn fun o ho hb hq => (h o ho hb hq).imp_left (hm o).2
        · exact Deleg.Fallen.withdrawn fun o ho hb hq => (h o ho hb hq).imp_left (hm o).2

end Sys2Proof.Machine

/-! ### What accesses to memory leave alone

Accesses of the Reeve and of the fabric move lines of the caches, marks, walk-cache entries and bytes. `State.apart` is the state
without these; each operation of the memory system leaves it as it was, so that requests, replies, leases and cached translations
are as before. `Kept` says the same of memory, contexts and control cores where nothing is written. -/

namespace Sys2Proof.Machine

/-- The state without what accesses to memory change. -/
def State.apart (s : State) : State :=
  { s with
    ctx := ctx0, others := [], cores := [], dies := Vector.replicate 4 die0, mem := [], poison := [], dramErr := [], latent := [], walks := [],
    ccs := [], pend := [], freeCtr := 0, reeve := { s.reeve with box := [], boxNext := 0, used := [] } }

namespace State

section apart
variable {s t : State} (h : t.apart = s.apart)
include h

theorem responses_of_apart : t.reeve.responses = s.reeve.responses := (congrArg (fun x : State => x.reeve.responses) h :)
theorem leases_of_apart : t.reeve.leases = s.reeve.leases := (congrArg (fun x : State => x.reeve.leases) h :)
theorem subs_of_apart : t.reeve.subs = s.reeve.subs := (congrArg (fun x : State => x.reeve.subs) h :)
theorem tlb_of_apart : t.tlb = s.tlb := (congrArg State.tlb h :)
theorem replies_of_apart : t.replies = s.replies := (congrArg State.replies h :)
theorem time_of_apart : t.time = s.time := (congrArg State.time h :)

end apart

theorem apart_foldl {α : Type} {f : State → α → State} (step : ∀ s a, (f s a).apart = s.apart) (l : List α) (s : State) :
    (l.foldl f s).apart = s.apart :=
  foldl_ind (P := fun t => t.apart = s.apart) (fun t a h => (step t a).trans h) l rfl

theorem apart_ite {c : Prop} {_ : Decidable c} {s t u : State} (ht : t.apart = s.apart) (hu : u.apart = s.apart) :
    (if c then t else u).apart = s.apart := by
  split
  · exact ht
  · exact hu

theorem apart_setCore (s : State) (n : Nat) (c : Core) : (s.setCore n c).apart = s.apart := rfl

theorem apart_modCore (s : State) (n : Nat) (f : Core → Core) : (s.modCore n f).apart = s.apart := rfl

theorem apart_dramScan (s : State) (line : Nat) : (s.dramScan line).apart = s.apart := by
  unfold dramScan
  split <;> rfl

theorem apart_dramRead (s : State) (line : Nat) : (s.dramRead line).apart = s.apart := by
  unfold dramRead
  refine apart_ite rfl ?_
  have h := apart_dramScan s line
  dsimp only
  split <;> exact h

theorem apart_countDie (s : State) (d : BitVec 2) (l b : Byte) (e n : Nat) : (s.countDie d l b e n).apart = s.apart := apart_ite rfl rfl

theorem apart_dramBytes (s : State) (line : Nat) (l b : Byte) (n : Nat) : (s.dramBytes line l b n).apart = s.apart :=
  apart_ite (apart_countDie _ _ _ _ _ _) rfl

theorem apart_l2WriteBack (s : State) (d : BitVec 2) (x : L2Way) : (s.l2WriteBack d x).apart = s.apart := by
  refine apart_foldl (fun s i => ?_) _ s
  split
  · exact apart_dramBytes (s.dramWrite _) _ _ _ _
  · rfl

/-- Whether there is a way or not, the caches alone have moved. -/
theorem apart_l2Victim (s : State) (d : BitVec 2) (slice set group : Nat) :
    Ends (fun x => x.2.apart = s.apart) (fun t => t.apart = s.apart) (s.l2Victim d slice set group) := by
  unfold l2Victim
  dsimp only [free]
  split
  · rfl
  · split
    · rfl
    · split
      · rfl
      · split
        · rfl
        · exact apart_l2WriteBack _ _ _

theorem apart_l2Touch (s : State) (d : BitVec 2) (g : Option Nat) (line : Nat) (write whole : Bool) :
    (s.l2Touch d g line write whole).apart = s.apart := by
  unfold l2Touch
  dsimp only
  split
  · exact apart_ite rfl rfl
  · have h0 : (if write && whole then s.dramWrite line else s.dramRead line).apart = s.apart := apart_ite rfl (apart_dramRead s line)
    generalize (if write && whole then s.dramWrite line else s.dramRead line) = t at h0
    split
    · exact h0
    · next g =>
      have h1 : (if (bitAt (t.die d).errinj 63 && bits (t.die d).errinj 62 60 == 0 && bits (t.die d).errinj 47 7 == line) = true
        then t.post .errinjPerform (.die d) else t).apart = s.apart := apart_ite h0 h0
      generalize (if (bitAt (t.die d).errinj 63 && bits (t.die d).errinj 62 60 == 0 && bits (t.die d).errinj 47 7 == line) = true
        then t.post .errinjPerform (.die d) else t) = u at h1
      split
      · exact h1
      · have hv := apart_l2Victim u d (l2Slice (line / 4)) (l2Set (line / 4)) g
        split
        · next e => exact (hv.error e).trans h1
        · next e => exact (hv.ok e).trans h1

theorem apart_l2Detect (s : State) (d : BitVec 2) (line : Nat) : (s.l2Detect d line).1.apart = s.apart := by
  unfold l2Detect
  split
  · rfl
  · split
    · rfl
    · split <;> rfl

theorem apart_detectLine (s : State) (w : Who) (line : Nat) :
    Ends (fun t => t.apart = s.apart) (fun t => t.apart = s.apart) (s.detectLine w line) := by
  have h := apart_l2Detect s (l2Die w line) line
  unfold detectLine
  generalize s.l2Detect (l2Die w line) line = r at h ⊢
  obtain ⟨t, _ | x⟩ := r
  · exact h
  · exact h

theorem apart_writeBack (s : State) (w : Who) (line : Nat) : (s.writeBack w line).apart = s.apart := by
  have h := apart_l2Detect s (l2Die w line) line
  unfold writeBack
  dsimp only
  generalize s.l2Detect (l2Die w line) line = r at h ⊢
  obtain ⟨t, _ | x⟩ := r
  · refine (apart_l2Touch _ _ _ _ _ _).trans (apart_ite ?_ h)
    exact (apart_dramBytes _ _ _ _ _).trans h
  · exact apart_ite (c := _) (t := t) h h

theorem apart_count (s : State) (core : Nat) (f : Bool) (e n : Nat) : (s.count core f e n).apart = s.apart := apart_ite rfl rfl

theorem apart_l2Count (s : State) (w : Who) (line : Nat) (write whole : Bool) : (s.l2Count w line write whole).apart = s.apart := by
  unfold l2Count
  dsimp only
  split
  · rfl
  · exact (apart_dramBytes _ _ _ _ _).trans (apart_countDie _ _ _ _ _ _)

theorem apart_l1Evict (s : State) (w : Who) (core set : Nat) : (s.l1Evict w core set).apart = s.apart := by
  unfold l1Evict
  dsimp only
  refine apart_ite rfl ?_
  split
  · split <;> rfl
  · exact apart_ite (apart_writeBack _ _ _) rfl

theorem apart_recallL1 (s : State) (w : Who) (n line : Nat) (write : Bool) : (s.recallL1 w n line write).apart = s.apart :=
  apart_ite (apart_writeBack _ _ _) rfl

theorem apart_recallStash (s : State) (w : Who) (n : Nat) (f : Bool) (p : Path) (line : Nat) (write : Bool) :
    (s.recallStash w n f p line write).apart = s.apart :=
  apart_ite rfl (apart_ite (apart_writeBack _ _ _) rfl)

theorem apart_recallLine (s : State) (w : Who) (p : Path) (line : Nat) (write : Bool) : (s.recallLine w p line write).apart = s.apart := by
  refine apart_foldl (fun t q => apart_ite rfl ?_) _ _
  refine ((apart_recallStash _ _ _ _ _ _ _).trans (apart_recallStash _ _ _ _ _ _ _)).trans (apart_ite rfl ?_)
  exact apart_recallL1 _ _ _ _ _

theorem apart_l1Touch (s : State) (w : Who) (core : Nat) (f : Bool) (line : Nat) (write whole : Bool) (keep : Keep) :
    (s.l1Touch w core f line write whole keep).apart = s.apart := by
  unfold l1Touch
  refine apart_ite (apart_ite rfl rfl) ?_
  have h0 (b : Bool) := (apart_l2Count (s.count core f 0x05 1) w line b whole).trans (apart_count s core f 0x05 1)
  refine apart_ite ((apart_l2Touch _ _ _ _ _ _).trans (h0 _)) ?_
  exact (apart_setCore _ _ _).trans ((apart_l1Evict _ _ _ _).trans ((apart_l2Touch _ _ _ _ _ _).trans (h0 _)))

theorem apart_stashTouch (s : State) (w : Who) (core : Nat) (f : Bool) (off idx : Nat) (e : Tlb) (line : Nat) (write : Bool) :
    (s.stashTouch w core f off idx e line write).apart = s.apart := by
  refine (apart_modCore _ _ _).trans (apart_ite rfl ?_)
  exact (apart_l2Touch _ _ _ _ _ _).trans (apart_l2Count _ _ _ _ _)

theorem apart_uncached (s : State) (w : Who) (line : Nat) (write whole : Bool) : (s.uncached w line write whole).apart = s.apart := by
  unfold uncached
  refine apart_ite rfl ?_
  have h (n : Nat) := apart_dramBytes s line w.lease w.sub n
  exact apart_ite (h _) ((apart_dramRead _ _).trans (h _))

theorem apart_touch (s : State) (w : Who) (p : Path) (line : Nat) (write whole : Bool) (keep : Keep) :
    (s.touch w p line write whole keep).apart = s.apart := by
  unfold touch
  refine apart_ite rfl ?_
  have h := apart_recallLine s w p line write
  dsimp only
  split
  · exact (apart_l1Touch _ _ _ _ _ _ _ _).trans h
  · exact (apart_stashTouch _ _ _ _ _ _ _ _ _).trans h
  · exact (apart_l2Touch _ _ _ _ _ _).trans ((apart_l2Count _ _ _ _ _).trans h)
  · exact (apart_uncached _ _ _ _ _).trans h

end State
end Sys2Proof.Machine

namespace Sys2Proof.Machine

/-! ### The Reeve's reads and writes -/

/-- An operation that ends with a value leaves alone what accesses to memory leave alone. -/
abbrev EndsApart {ε α : Type} (s : State) (x : Except ε (α × State)) : Prop := Ends (fun x => x.2.apart = s.apart) (fun _ : ε => True) x

namespace State

theorem apart_readEntry (s : State) (w : Who) (pa : Nat) : EndsApart s (s.readEntry w pa) := by
  have h := apart_detectLine s w (pa / 128)
  unfold readEntry
  refine .ite trivial ?_
  split
  · trivial
  · next e => exact (apart_touch _ _ _ _ _ _ _).trans (h.ok e)

theorem apart_walkPut (s : State) (e : WalkEntry) : (s.walkPut e).apart = s.apart := apart_ite rfl rfl

theorem apart_walk2 (w : Who) (ipa n : Nat) : ∀ (s : State) (table : Nat), EndsApart s (s.walk2 w ipa n table) := by
  induction n with
  | zero => exact fun _ _ => rfl
  | succ n ih =>
    intro s table
    unfold walk2
    refine (apart_readEntry s w _).bind fun ⟨e, t⟩ ht => ?_
    dsimp only
    split
    · exact ht
    · exact (ih _ _).mono fun _ h => h.trans ((apart_walkPut _ _).trans ht)
    · exact ht

theorem apart_stage2 (s : State) (w : Who) (fresh : Bool) (ipa : Nat) : EndsApart s (s.stage2 w fresh ipa) := by
  unfold stage2
  split
  · rfl
  · exact apart_walk2 _ _ _ _ _

theorem apart_slot1 (w : Who) (large : Bool) (va : Word) (n : Nat) : ∀ (s : State) (table : Nat), EndsApart s (s.slot1 w large va n table) := by
  induction n with
  | zero => exact fun _ _ => rfl
  | succ n ih =>
    intro s table
    unfold slot1
    refine (apart_stage2 s w true _).bind fun ⟨l2, t⟩ ht => ?_
    dsimp only
    split
    · exact ht
    · refine .ite ht ((apart_readEntry t w _).bind fun ⟨e, u⟩ hu => ?_)
      dsimp only
      split
      · exact (ih _ _).mono fun _ h => h.trans (hu.trans ht)
      · exact hu.trans ht

/-- Kept memory, contexts and tables, on the way of `slot1`. -/
theorem kept_slot1 (w : Who) (large : Bool) (va : Word) (n : Nat) : ∀ (s : State) (table : Nat), KeptBy s (s.slot1 w large va n table) := by
  induction n with
  | zero => exact fun s _ => Kept.refl s
  | succ n ih =>
    intro s table
    unfold slot1
    refine (kept_stage2 s w true _).bind fun l2 t _ => ?_
    dsimp only
    split
    · exact Kept.refl t
    · split
      · exact Kept.refl t
      · refine (kept_readEntry t w _).bind fun e u _ => ?_
        dsimp only
        split
        · exact ih _ _
        · exact Kept.refl u

theorem apart_post (s : State) (i : Instr) (a : EventArg) : (s.post i a).apart = s.apart := rfl

theorem apart_notifyLine (s : State) (w : Option CtxId) (l : Nat) : (s.notifyLine w l).apart = s.apart := by
  unfold notifyLine
  dsimp only
  split
  · rfl
  · exact (apart_foldl (fun s _ => apart_post s _ _) _ _).trans rfl

theorem apart_putBytes (s : State) (w : Option CtxId) (pa : Nat) (bs : List Byte) : (s.putBytes w pa bs).apart = s.apart := by
  have hresv (s : State) (n : Nat) : (s.dropResv pa n).apart = s.apart := apart_ite rfl rfl
  have hclear (s : State) (n : Nat) : (s.clearPoison pa n).apart = s.apart := apart_ite rfl rfl
  have hdrop (s : State) (n : Nat) : (s.dropGathered pa n).apart = s.apart := apart_ite rfl rfl
  refine (apart_foldl (fun _ _ => apart_notifyLine _ _ _) _ _).trans ?_
  rw [hdrop, hclear, hresv]
  rfl

/-- The Reeve's write: the bytes stand, and but for the caches nothing else has changed. -/
theorem reeveStore_ok {s v : State} {pa : Nat} {bs : List Byte} (h : s.reeveStore pa bs = .ok v) :
    ∃ t, Kept s t ∧ t.apart = s.apart ∧ v = t.putBytes none pa bs := by
  unfold reeveStore at h
  dsimp only [bind, Except.bind] at h
  split at h
  · cases h
  · next t e =>
    cases h
    have ht : Kept s t ∧ t.apart = s.apart := by
      refine foldE_ind (P := fun t => Kept s t ∧ t.apart = s.apart) (fun u l u' hu e => ?_) _ ⟨Kept.refl s, rfl⟩ e
      split at e
      · cases e
      · cases hx : u.detectLine (reeveWho (dieOfPa pa)) l with
        | error x => rw [hx] at e; cases e
        | ok x =>
          rw [hx] at e
          cases e
          exact ⟨hu.1.trans ((kept_detectLine (.inl hx)).trans (kept_touch _ _ _ _ _ _ _)),
            (apart_touch _ _ _ _ _ _ _).trans (((apart_detectLine _ _ _).ok hx).trans hu.2)⟩
    exact ⟨t, ht.1, ht.2, rfl⟩

theorem reeveStore_apart {s v : State} {pa : Nat} {bs : List Byte} (h : s.reeveStore pa bs = .ok v) : v.apart = s.apart := by
  obtain ⟨t, -, ht, rfl⟩ := reeveStore_ok h
  exact (apart_putBytes _ _ _ _).trans ht

theorem reeveStore_mem {s v : State} {pa : Nat} {bs : List Byte} (h : s.reeveStore pa bs = .ok v) : v.mem = s.mem.setBytes pa bs := by
  obtain ⟨t, ht, -, rfl⟩ := reeveStore_ok h
  rw [putBytes_mem, ht.mem]

/-- The same for the frames of a lease's roots, which read 0 afterwards. -/
theorem storeZeros_ok (n : Nat) (l : List Nat) : ∀ {s t : State}, foldE (fun (s : State) a => s.reeveStore a (List.replicate n 0)) s l = .ok t →
    t.apart = s.apart ∧ (s.mem.wf = true → t.mem.wf = true ∧ (∀ a ∈ l, ∀ j, j < n → t.mem.byte (a + j) = 0) ∧
      ∀ x, s.mem.byte x = 0 → t.mem.byte x = 0) := by
  induction l with
  | nil =>
    intro s t h
    cases h
    exact ⟨rfl, fun hw => ⟨hw, fun _ ha => absurd ha List.not_mem_nil, fun _ hx => hx⟩⟩
  | cons a l ih =>
    intro s t h
    rw [foldE] at h
    split at h
    · next u e =>
      obtain ⟨hapart, hrest⟩ := ih h
      refine ⟨hapart.trans (reeveStore_apart e), fun hw => ?_⟩
      have hmem := reeveStore_mem e
      have hbyte (x : Nat) : u.mem.byte x = if a ≤ x ∧ x < a + n then 0 else s.mem.byte x := by
        rw [hmem, Memory.byte_setBytes hw, List.length_replicate]
        split
        · next hx =>
          rw [List.getD_eq_getElem?_getD, List.getElem?_replicate, if_pos (by omega)]
          rfl
        · rfl
      obtain ⟨htw, hzero, hkeep⟩ := hrest (hmem ▸ Memory.wf_setBytes hw a _)
      have hkeep' (x : Nat) (hx : s.mem.byte x = 0) : t.mem.byte x = 0 := hkeep x (by rw [hbyte, hx, ite_self])
      refine ⟨htw, fun b hb j hj => ?_, hkeep'⟩
      rcases List.mem_cons.1 hb with rfl | hb
      · exact hkeep _ ((hbyte _).trans (if_pos ⟨by omega, by omega⟩))
      · exact hzero b hb j hj
    · cases h

theorem takeRoots_ok {s t : State} {v : Vector Word 4} (h : s.takeRoots v = .ok t) :
    t.apart = s.apart ∧ (s.mem.wf = true → ∀ p ∈ v.toList, ∀ j, j < 65536 → t.mem.byte (p.toNat + j) = 0) := by
  unfold takeRoots at h
  obtain ⟨ha, hz⟩ := storeZeros_ok 65536 _ h
  exact ⟨ha, fun hw p hp => (hz hw).2.1 _ (List.mem_map.2 ⟨p, hp, rfl⟩)⟩

end State
end Sys2Proof.Machine

/-! ### Reset and destroy (R341, R347) -/

namespace Sys2Proof.Machine

/-- The state without what the L2s' contents and the errors behind them are. -/
def State.offDies (s : State) : State := { s with dies := Vector.replicate 4 die0, dramErr := [], latent := [] }

theorem offDies_foldl {α : Type} {f : State → α → State} (step : ∀ s a, (f s a).offDies = s.offDies) (l : List α) (s : State) :
    (l.foldl f s).offDies = s.offDies :=
  foldl_ind (P := fun t => t.offDies = s.offDies) (fun t a h => (step t a).trans h) l rfl

theorem offDies_dramBytes (s : State) (line : Nat) (l b : Byte) (n : Nat) : (s.dramBytes line l b n).offDies = s.offDies := by
  unfold State.dramBytes
  split
  · unfold State.countDie
    dsimp only
    split <;> rfl
  · rfl

theorem offDies_l2WriteBack (s : State) (d : BitVec 2) (x : L2Way) : (s.l2WriteBack d x).offDies = s.offDies := by
  refine offDies_foldl (fun s i => ?_) _ s
  split
  · exact offDies_dramBytes (s.dramWrite _) _ _ _ _
  · rfl

theorem offDies_flushGroups (s : State) (d : BitVec 2) (g : List Nat) : (s.flushGroups d g).offDies = s.offDies :=
  Eq.trans (b := (((s.die d).l2.filter fun y => g.contains (y.way / 4)).foldl (fun s y => s.l2WriteBack d y) s).offDies) rfl
    (offDies_foldl (fun s y => offDies_l2WriteBack s d y) _ s)

/-- A front end without the rows of a sublease. -/
def feCleared (mine : Option (Byte × Byte)) (f : FrontEnd) : FrontEnd := if f.rowsOwner == mine then { f with rowsOwner := none } else f

/-- A core without what a sublease has in it. -/
def coreCleared (mine : Option (Byte × Byte)) (c : Core) : Core :=
  let gone (i : Nat) : Bool := (c.fe (decide (128 ≤ i / 512))).rowsOwner == mine
  { c with field := c.field.filter (fun q => !gone q.1), fieldErr := c.fieldErr.filter (fun i => !gone i)
           fe0 := feCleared mine c.fe0, fe1 := feCleared mine c.fe1 }

def millCleared (mine : Option (Byte × Byte)) (m : Mill) : Mill := if m.owner == mine then mill0 else m

/-- The state after steps 3 and 5 of R347, but for the L2s. -/
def State.cleared (s : State) (l b : Byte) : State :=
  { s with
    cores := s.cores.map (fun p => (p.1, coreCleared (some (l, b)) p.2))
    mills := s.mills.map (fun p => (p.1, millCleared (some (l, b)) p.2))
    ue := s.ue.filter (fun m => !(m.lease == l && m.sub == b)) }

theorem hurtWays_nil {x : Die} (h : ∀ y ∈ x.l2, y.bad = []) (groups : List Nat) : State.hurtWays x groups = [] := by
  refine List.flatMap_eq_nil_iff.2 fun y hy => ?_
  rw [h y (List.mem_of_mem_filter hy)]
  rfl

theorem map_millCleared (mine : Option (Byte × Byte)) (l : List (Nat × Mill)) :
    l.map (fun p => if p.2.owner == mine then (p.1, mill0) else p) = l.map (fun p => (p.1, millCleared mine p.2)) := by
  refine List.map_congr_left fun p _ => ?_
  unfold millCleared
  split <;> rfl

theorem clearSub_clean {s : State} (h : ∀ d, ∀ y ∈ (s.die d).l2, y.bad = []) (l b : Byte) :
    ∃ u, s.clearSub l b = some u ∧ u.offDies = (s.cleared l b).offDies := by
  have hclean : ((List.range 4).any fun d => !(State.hurtWays (s.die (BitVec.ofNat 2 d))
      ([0, 1, 2].filter fun g => (s.die (BitVec.ofNat 2 d)).ownerOf g == some (l, b))).isEmpty) = false := by
    rw [List.any_eq_false]
    intro d _
    rw [hurtWays_nil (h _)]
    exact Bool.false_ne_true
  unfold State.clearSub
  dsimp only
  rw [hclean, if_neg Bool.false_ne_true]
  refine ⟨_, rfl, (offDies_foldl (fun s d => offDies_flushGroups s _ _) _ _).trans ?_⟩
  rw [map_millCleared]
  rfl

/-! Where nothing of a sublease moves, the steps before it change nothing. -/

theorem updateWhere_none {α : Type} {p : α → Bool} {f : α → α} {l : List α} (h : ∀ a ∈ l, p a = false) : updateWhere p f l = l := by
  refine (List.map_congr_left fun a ha => ?_).trans (List.map_id l)
  rw [h a ha]
  rfl

theorem State.mapCtxs_none {s : State} {p : Ctx → Bool} {f : Ctx → Ctx} (h : ∀ k ∈ s.ctxs, p k = false) : s.mapCtxs p f = s := by
  unfold State.mapCtxs
  rw [h _ (List.mem_cons_self ..), updateWhere_none fun k hk => h k (List.mem_cons_of_mem _ hk)]
  rfl

theorem filter_none {α : Type} {p : α → Bool} {l : List α} (h : ∀ a ∈ l, p a = false) : l.filter p = [] :=
  List.filter_eq_nil_iff.2 fun a ha => by rw [h a ha]; exact Bool.false_ne_true

section idle
variable {s : State} {l b : Byte} (h : Claims.subIdle s l b)
include h

theorem dropNests_idle : s.dropNests l b = s := by
  obtain ⟨-, hnests, -⟩ := h
  unfold State.dropNests
  rw [filter_none]
  · rfl
  · intro n hn
    have := hnests n hn
    simp only [Bool.and_eq_false_iff, beq_eq_false_iff_ne]
    tauto

theorem owesPot_idle : s.owesPot l b = false := by
  obtain ⟨-, hnests, -⟩ := h
  unfold State.owesPot
  rw [List.any_eq_false]
  intro n hn
  have := hnests n hn
  simp only [Bool.and_eq_true, beq_iff_eq, not_and]
  tauto

theorem ctx_idle {k : Ctx} (hk : k ∈ s.ctxs) (ha : k.active = true) : (k.lease == l && k.sub == b) = false := by
  rw [← Bool.not_eq_true, Bool.and_eq_true, beq_iff_eq, beq_iff_eq]
  exact h.1 k hk ha

theorem resetSteps_idle (own : Bool) (value : Word) : s.resetSteps l b own value = s := by
  have hfree (k : Ctx) (ha : ¬ k.active = true) : k.phase = .free := by
    simpa only [Ctx.active, bne_iff_ne, ne_eq, not_not] using ha
  unfold State.resetSteps
  dsimp only
  rw [State.mapCtxs_none]
  · rw [filter_none (l := s.ctxs), List.foldl_nil, filter_none (l := s.colls)]
    · rfl
    · intro c hc
      rw [← Bool.not_eq_true, Bool.and_eq_true, Bool.and_eq_true, beq_iff_eq, beq_iff_eq]
      exact fun hm => h.2.2.2.1 c hc hm.1
    · intro k hk
      by_cases ha : k.active = true
      · rw [ctx_idle h hk ha, Bool.and_false, Bool.false_and]
      · rw [Bool.not_eq_true] at ha
        rw [ha, Bool.false_and, Bool.false_and, Bool.false_and]
  · intro k hk
    by_cases ha : k.active = true
    · rw [ctx_idle h hk ha, Bool.false_and, Bool.false_and]
    · rw [hfree k ha, Bool.and_false]

theorem subQuiet_idle : s.subQuiet l b = true := by
  obtain ⟨hctxs, hnests, hbusy, hcolls, -⟩ := h
  unfold State.subQuiet
  rw [hbusy]
  simp only [Bool.and_eq_true, Bool.not_eq_true', List.any_eq_false, beq_iff_eq, Bool.not_false, and_true, not_and]
  refine ⟨⟨fun n hn hl hb => hnests n hn ⟨hl, hb⟩, fun k hk ha hb => hctxs k hk ha.1 ⟨ha.2, hb⟩⟩, fun c hc hm => absurd hm (hcolls c hc)⟩

/-- A reset of an idle sublease is complete at once. -/
theorem resetSub_idle (own : Bool) (value : Word) : ∃ u, s.resetSub l b own value = (true, u) ∧ u.offDies = (s.cleared l b).offDies := by
  obtain ⟨u, hu, hoff⟩ := clearSub_clean h.2.2.2.2 l b
  refine ⟨u, ?_, hoff⟩
  unfold State.resetSub
  dsimp only
  rw [dropNests_idle h, owesPot_idle h, resetSteps_idle h, subQuiet_idle h, hu]
  rfl

end idle

end Sys2Proof.Machine

namespace Sys2Proof.Machine

/-! What stands where a sublease has been cleared. -/

section offDies
variable {s t : State} (h : t.offDies = s.offDies)
include h

theorem cores_of_offDies : t.cores = s.cores := (congrArg State.cores h :)
theorem mills_of_offDies : t.mills = s.mills := (congrArg State.mills h :)
theorem mem_of_offDies : t.mem = s.mem := (congrArg State.mem h :)
theorem ue_of_offDies : t.ue = s.ue := (congrArg State.ue h :)
theorem reeve_of_offDies : t.reeve = s.reeve := (congrArg State.reeve h :)

end offDies

theorem core_cleared (s : State) (l b : Byte) (n : Nat) : (s.cleared l b).core n = coreCleared (some (l, b)) (s.core n) := by
  unfold State.core
  show (lookupN n (s.cores.map _)).getD core0 = _
  rw [lookupN_map fun _ => coreCleared (some (l, b))]
  cases lookupN n s.cores <;> rfl

theorem mill_cleared (s : State) (l b : Byte) (n : Nat) : (s.cleared l b).mill n = millCleared (some (l, b)) (s.mill n) := by
  unfold State.mill
  show (lookupN n (s.mills.map _)).getD mill0 = _
  rw [lookupN_map fun _ => millCleared (some (l, b))]
  cases lookupN n s.mills <;> rfl

theorem fe_coreCleared (mine : Option (Byte × Byte)) (c : Core) (f : Bool) : (coreCleared mine c).fe f = feCleared mine (c.fe f) := by
  cases f <;> rfl

theorem feCleared_own {mine : Option (Byte × Byte)} {f : FrontEnd} (h : f.rowsOwner = mine) : (feCleared mine f).rowsOwner = none := by
  unfold feCleared
  rw [if_pos (by rw [h]; exact beq_self_eq_true mine)]

theorem field_coreCleared {mine : Option (Byte × Byte)} {c : Core} {i : Nat} (h : (c.fe (decide (128 ≤ i / 512))).rowsOwner = mine) :
    sget 0 (coreCleared mine c).field i = 0 := by
  refine sget_of_not_mem fun v hv => ?_
  have hg := (List.mem_filter.1 hv).2
  have hown : ((c.fe (decide (128 ≤ i / 512))).rowsOwner == mine) = true := by rw [h]; exact beq_self_eq_true mine
  exact Bool.false_ne_true ((congrArg not hown).symm.trans hg)

theorem millCleared_own {mine : Option (Byte × Byte)} {m : Mill} (h : m.owner = mine) : millCleared mine m = mill0 :=
  if_pos (by rw [h]; exact beq_self_eq_true mine)

theorem reset_claim {s : State} {r : Req} (hs : Claims.served s r .resetSublease) :
    (s.holds r rReset = false → Claims.refusedWith .resetSublease s r 1) ∧
    (s.holds r rReset = true → s.sub? r.tLease r.tSub = none → Claims.refusedWith .resetSublease s r 2) ∧
    (s.holds r rReset = true → (s.sub? r.tLease r.tSub).isSome = true → Claims.subIdle s r.tLease r.tSub →
      ∃ u, Claims.answers .resetSublease s u r 0 [] ∧ u.mem = s.mem ∧
      (∀ n f, ((s.core n).fe f).rowsOwner = some (r.tLease, r.tSub) → ((u.core n).fe f).rowsOwner = none ∧
        ∀ i, decide (128 ≤ i / 512) = f → sget 0 (u.core n).field i = 0) ∧
      (∀ n, (s.mill n).owner = some (r.tLease, r.tSub) → u.mill n = mill0) ∧ ∀ m ∈ u.ue, ¬ (m.lease = r.tLease ∧ m.sub = r.tSub)) := by
  refine ⟨fun hp => refusedWith_of hs (if_pos (by rw [hp]; rfl)), fun hp hx => refusedWith_of hs ?_, fun hp hx hi => ?_⟩
  · exact (if_neg (by rw [hp]; decide)).trans (if_pos (by rw [hx]; rfl))
  · obtain ⟨t, ht, hoff⟩ := resetSub_idle hi (r.level == 1) 1
    have hreeve : t.reeve = s.reeve := (reeve_of_offDies hoff).trans rfl
    have hmem : t.mem = s.mem := (mem_of_offDies hoff).trans rfl
    have hrun : requestServe .resetSublease (s.holds r) r .resetSublease s = done t := by
      refine (if_neg (by rw [hp]; decide)).trans ((if_neg ?_).trans ?_)
      · rw [Option.isNone_iff_eq_none, ← Option.not_isSome_iff_eq_none, not_not]
        exact hx
      · rw [ht]
    have hcore (n : Nat) : t.core n = coreCleared (some (r.tLease, r.tSub)) (s.core n) := by
      rw [← core_cleared]
      unfold State.core
      rw [cores_of_offDies hoff]
    refine ⟨_, answers_of hs hrun (congrArg Reeve.responses hreeve :), hmem, fun n f ho => ?_, fun n ho => ?_, fun m hm => ?_⟩
    · rw [State.closed_core, hcore, fe_coreCleared]
      refine ⟨feCleared_own ho, fun i hi => field_coreCleared ?_⟩
      rw [hi]
      exact ho
    · rw [State.closed_mill]
      have hm := mill_cleared s r.tLease r.tSub n
      rw [millCleared_own ho] at hm
      rw [← hm]
      unfold State.mill
      rw [mills_of_offDies hoff]
    · rw [State.closed_ue, ue_of_offDies hoff] at hm
      have hne := (List.mem_filter.1 hm).2
      rw [Bool.not_eq_true', ← Bool.not_eq_true, Bool.and_eq_true, beq_iff_eq, beq_iff_eq] at hne
      exact hne

theorem destroy_claim {s : State} {r : Req} (hs : Claims.served s r .destroySublease) :
    (s.holds r rCreate = false → Claims.refusedWith .destroySublease s r 1) ∧
    (s.holds r rCreate = true → s.sub? r.tLease r.tSub = none → Claims.refusedWith .destroySublease s r 2) ∧
    (s.holds r rCreate = true → (s.sub? r.tLease r.tSub).isSome = true → Claims.subIdle s r.tLease r.tSub →
      ∃ u, Claims.answers .destroySublease s u r 0 [] ∧ u.sub? r.tLease r.tSub = none ∧
        (∀ e ∈ u.tlb, ¬ (e.lease = r.tLease ∧ e.sub = r.tSub)) ∧ u.mem = s.mem ∧
        ∀ p ∈ u.cores, ∀ h ∈ p.2.fwd, ¬ (h.lease = r.tLease ∧ h.sub = r.tSub)) := by
  have other (l b l' b' : Byte) (h : (!(l == l' && b == b')) = true) : ¬ (l = l' ∧ b = b') := by
    rw [Bool.not_eq_true', ← Bool.not_eq_true, Bool.and_eq_true, beq_iff_eq, beq_iff_eq] at h
    exact h
  refine ⟨fun hp => refusedWith_of hs (if_pos (by rw [hp]; rfl)), fun hp hx => refusedWith_of hs ?_, fun hp hx hi => ?_⟩
  · exact (if_neg (by rw [hp]; decide)).trans (if_pos (by rw [hx]; rfl))
  · obtain ⟨t, ht, hoff⟩ := resetSub_idle hi (r.level == 1) 2
    have hreeve : t.reeve = s.reeve := (reeve_of_offDies hoff).trans rfl
    have hmem : t.mem = s.mem := (mem_of_offDies hoff).trans rfl
    have hrun : requestServe .destroySublease (s.holds r) r .destroySublease s = done (t.forgetSub r.tLease r.tSub) := by
      refine (if_neg (by rw [hp]; decide)).trans ((if_neg ?_).trans ?_)
      · rw [Option.isNone_iff_eq_none, ← Option.not_isSome_iff_eq_none, not_not]
        exact hx
      · rw [ht]
    refine ⟨_, answers_of hs hrun (congrArg Reeve.responses hreeve :), ?_, fun e he => ?_, hmem, fun p hp f hf => ?_⟩
    · refine List.find?_eq_none.2 fun x hx => ?_
      rw [Bool.and_eq_true, beq_iff_eq, beq_iff_eq]
      exact other _ _ _ _ (List.mem_filter.1 hx).2
    · exact other _ _ _ _ (List.mem_filter.1 he).2
    · obtain ⟨q, -, rfl⟩ := List.mem_map.1 hp
      exact other _ _ _ _ (List.mem_filter.1 hf).2

end Sys2Proof.Machine

/-! ### Create (R340, R341) -/

namespace Sys2Proof.Machine

/-- The sublease that a create request makes. -/
def newSub (r : Req) (a : Assign) : Sub :=
  { lease := r.tLease, num := r.tSub, root := a.s1root, cores := a.cores, pipes := a.pipes, mills := a.mills
    vqueues := a.vqueues, quota := 256, cap := 3, urn := 64, ldm := 0, ldmClear := Vector.replicate 4 0, queue := none, window := a.window }

/-- A sublease with another assignment; root and window are L's and W's to give. -/
def reassigned (own : Bool) (a : Assign) (x : Sub) : Sub :=
  { x with
    root := if own then a.s1root else x.root, window := if own then a.window else x.window
    cores := a.cores, pipes := a.pipes, mills := a.mills, vqueues := a.vqueues }

/-- The lease that a create request of W makes. -/
def newLease (r : Req) (a : Assign) (t : State) : Lease :=
  { num := r.tLease, roots := a.s2roots, offset := 0 - t.time, tolerance := 0
    queue := none, cores := a.cores, mills := a.mills, ccs := a.ccs, vqueues := a.vqueues, pausedAt := none }

section sub
variable {may : Nat → Bool} {r : Req} {a : Assign} {s : State} (hn : r.tSub ≠ 0xFF)
include hn

theorem createSub_sub : createSub may r (.createSublease a) s =
    if !may rCreate then refuse s 1
    else match s.lease? r.tLease with
      | none => refuse s 2
      | some l =>
        if !s.assignOk r.tLease r.tSub a || !l.admits s r.tSub a then refuse s 2
        else match s.sub? r.tLease r.tSub with
          | some x =>
            if !decide (2 ≤ r.level.toNat) && !x.admits a then refuse s 2
            else if s.withdraws x a then refuse s 4
            else done (s.modSub r.tLease r.tSub (reassigned (decide (2 ≤ r.level.toNat)) a))
          | none =>
            if r.level.toNat < 2 then refuse s 2 else
            done { s with reeve := { s.reeve with subs := s.reeve.subs ++ [newSub r a] } } := if_neg hn

variable {l : Lease} (hm : may rCreate = true) (hl : s.lease? r.tLease = some l)
include hm hl

theorem createSub_bad (h : ¬ (s.assignOk r.tLease r.tSub a = true ∧ l.admits s r.tSub a = true)) :
    createSub may r (.createSublease a) s = refuse s 2 := by
  have hc : (!s.assignOk r.tLease r.tSub a || !l.admits s r.tSub a) = true := by
    rw [Bool.or_eq_true, Bool.not_eq_true', Bool.not_eq_true', ← Bool.not_eq_true, ← Bool.not_eq_true]
    exact not_and_or.1 h
  rw [createSub_sub hn, hm, if_neg (by decide), hl]
  dsimp only
  rw [hc, if_pos rfl]

variable (ha : s.assignOk r.tLease r.tSub a = true) (had : l.admits s r.tSub a = true)
include ha had

theorem createSub_good : createSub may r (.createSublease a) s =
    match s.sub? r.tLease r.tSub with
    | some x =>
      if !decide (2 ≤ r.level.toNat) && !x.admits a then refuse s 2
      else if s.withdraws x a then refuse s 4
      else done (s.modSub r.tLease r.tSub (reassigned (decide (2 ≤ r.level.toNat)) a))
    | none =>
      if r.level.toNat < 2 then refuse s 2 else
      done { s with reeve := { s.reeve with subs := s.reeve.subs ++ [newSub r a] } } := by
  rw [createSub_sub hn, hm, if_neg (by decide), hl]
  dsimp only
  rw [ha, had, if_neg (by decide)]

theorem createSub_new (hx : s.sub? r.tLease r.tSub = none) : createSub may r (.createSublease a) s =
    if r.level.toNat < 2 then refuse s 2 else done { s with reeve := { s.reeve with subs := s.reeve.subs ++ [newSub r a] } } := by
  rw [createSub_good hn hm hl ha had, hx]

theorem createSub_old {x : Sub} (hx : s.sub? r.tLease r.tSub = some x) : createSub may r (.createSublease a) s =
    if !decide (2 ≤ r.level.toNat) && !x.admits a then refuse s 2
    else if s.withdraws x a then refuse s 4
    else done (s.modSub r.tLease r.tSub (reassigned (decide (2 ≤ r.level.toNat)) a)) := by
  rw [createSub_good hn hm hl ha had, hx]

end sub

/-- Where W makes a lease. -/
theorem createSub_lease {may : Nat → Bool} {r : Req} {a : Assign} {s : State} (hn : r.tSub = 0xFF) :
    (r.level ≠ 3 → createSub may r (.createSublease a) s = refuse s 1) ∧
    (r.level = 3 → ((s.lease? r.tLease).isSome = true ∨ s.shareOk a = false ∨ s.rootsOk a.s2roots = false) →
      createSub may r (.createSublease a) s = refuse s 2) ∧
    (∀ t, r.level = 3 → s.lease? r.tLease = none → s.shareOk a = true → s.rootsOk a.s2roots = true → s.takeRoots a.s2roots = .ok t →
      createSub may r (.createSublease a) s =
        done (({ t with reeve := { t.reeve with leases := t.reeve.leases ++ [newLease r a t] } } : State).post .powerStateEntry .none)) := by
  unfold createSub
  dsimp only
  rw [if_pos hn]
  refine ⟨fun hl => if_pos (by rw [bne_iff_ne]; exact hl), fun hl hbad => ?_, fun t hl hnone hshare hroots ht => ?_⟩
  · refine (if_neg (by rw [hl]; decide)).trans (if_pos ?_)
    simpa only [Bool.or_eq_true, Bool.not_eq_true', or_assoc] using hbad
  · refine (if_neg (by rw [hl]; decide)).trans ((if_neg ?_).trans ?_)
    · rw [hnone, hshare, hroots]
      exact Bool.false_ne_true
    · rw [ht]
      rfl

theorem State.timeOf_of_lease {s : State} {l : Byte} {k : Lease} (h : s.lease? l = some k) : s.timeOf l = s.time + k.offset := by
  unfold State.timeOf
  rw [h]
  rfl

theorem create_claim {s : State} {r : Req} (a : Assign) (hs : Claims.served s r (.createSublease a)) :
    (r.tSub ≠ 0xFF → s.holds r rCreate = false → Claims.refusedWith .createSublease s r 1) ∧
    (r.tSub ≠ 0xFF → s.holds r rCreate = true → s.lease? r.tLease = none → Claims.refusedWith .createSublease s r 2) ∧
    (∀ l, r.tSub ≠ 0xFF → s.holds r rCreate = true → s.lease? r.tLease = some l →
      (¬ (s.assignOk r.tLease r.tSub a = true ∧ l.admits s r.tSub a = true) → Claims.refusedWith .createSublease s r 2) ∧
      (s.assignOk r.tLease r.tSub a = true → l.admits s r.tSub a = true →
        (s.sub? r.tLease r.tSub = none → r.level.toNat < 2 → Claims.refusedWith .createSublease s r 2) ∧
        (s.sub? r.tLease r.tSub = none → 2 ≤ r.level.toNat → ∃ u x, Claims.answers .createSublease s u r 0 [] ∧
          u.sub? r.tLease r.tSub = some x ∧ Claims.assigned x a ∧
          x.root = a.s1root ∧ x.window = a.window ∧ x.ldm = 0 ∧ x.queue = none ∧ u.mem = s.mem) ∧
        (∀ y, s.sub? r.tLease r.tSub = some y → (r.level.toNat < 2 → y.admits a = false → Claims.refusedWith .createSublease s r 2) ∧
          ((2 ≤ r.level.toNat ∨ y.admits a = true) →
            (s.withdraws y a = true → Claims.refusedWith .createSublease s r 4) ∧
            (s.withdraws y a = false → ∃ u x, Claims.answers .createSublease s u r 0 [] ∧ u.sub? r.tLease r.tSub = some x ∧ Claims.assigned x a ∧
              (2 ≤ r.level.toNat → x.root = a.s1root ∧ x.window = a.window) ∧ (r.level.toNat < 2 → x.root = y.root ∧ x.window = y.window) ∧
              x.ldm = y.ldm ∧ x.queue = y.queue ∧ x.quota = y.quota ∧ u.mem = s.mem))))) := by
  refine ⟨fun hn hm => refusedWith_of hs ?_, fun hn hm hl => refusedWith_of hs ?_, fun l hn hm hl => ⟨fun hbad => ?_, fun ha had => ⟨fun hx hv => ?_,
    fun hx hv => ?_, fun y hx => ⟨fun hv hy => ?_, fun hv => ⟨fun hw => ?_, fun hw => ?_⟩⟩⟩⟩⟩
  · exact (createSub_sub hn).trans (if_pos (by rw [hm]; rfl))
  · refine (createSub_sub hn).trans ((if_neg (by rw [hm]; decide)).trans ?_)
    rw [hl]
  · exact refusedWith_of hs (createSub_bad hn hm hl hbad)
  · exact refusedWith_of hs ((createSub_new hn hm hl ha had hx).trans (if_pos hv))
  · refine ⟨_, newSub r a, answers_of hs ((createSub_new hn hm hl ha had hx).trans (if_neg (by omega))) rfl, ?_, ⟨rfl, rfl, rfl, rfl⟩, rfl, rfl, rfl, rfl, rfl⟩
    exact find?_append_single hx (by simp [newSub])
  · exact refusedWith_of hs ((createSub_old hn hm hl ha had hx).trans (if_pos (by rw [hy, decide_eq_false (by omega)]; rfl)))
  all_goals
    have hgo : ¬ (!decide (2 ≤ r.level.toNat) && !y.admits a) = true := by
      simp only [Bool.and_eq_true, Bool.not_eq_true', decide_eq_false_iff_not, not_and_or, not_not, Bool.not_eq_false]
      exact hv
  · exact refusedWith_of hs ((createSub_old hn hm hl ha had hx).trans ((if_neg hgo).trans (if_pos hw)))
  · refine ⟨_, reassigned (decide (2 ≤ r.level.toNat)) a y,
      answers_of hs ((createSub_old hn hm hl ha had hx).trans ((if_neg hgo).trans (if_neg (by rw [hw]; decide)))) rfl, ?_, ⟨rfl, rfl, rfl, rfl⟩,
      fun hv => ?_, fun hv => ?_, rfl, rfl, rfl, rfl⟩
    · rw [State.closed_sub?, State.sub?_modSub, hx]
      · rfl
      · exact fun _ => ⟨rfl, rfl⟩
    · rw [decide_eq_true hv]
      exact ⟨rfl, rfl⟩
    · rw [decide_eq_false (by omega)]
      exact ⟨rfl, rfl⟩

theorem createLease_claim {s : State} {r : Req} (a : Assign) (hs : Claims.served s r (.createSublease a)) (hn : r.tSub = 0xFF) :
    (r.level ≠ 3 → Claims.refusedWith .createSublease s r 1) ∧
    (r.level = 3 → ((s.lease? r.tLease).isSome = true ∨ s.shareOk a = false ∨ s.rootsOk a.s2roots = false) → Claims.refusedWith .createSublease s r 2) ∧
    (∀ t, r.level = 3 → s.lease? r.tLease = none → s.shareOk a = true → s.rootsOk a.s2roots = true → s.takeRoots a.s2roots = .ok t → s.mem.wf = true →
      ∃ u k, Claims.answers .createSublease s u r 0 [] ∧ u.lease? r.tLease = some k ∧
      k.roots = a.s2roots ∧ k.cores = a.cores ∧ k.mills = a.mills ∧ k.ccs = a.ccs ∧ k.vqueues = a.vqueues ∧ u.timeOf r.tLease = 0 ∧
      ∀ p ∈ a.s2roots.toList, ∀ j, j < 65536 → u.mem.byte (p.toNat + j) = 0) := by
  obtain ⟨h1, h2, hgo⟩ := createSub_lease (may := s.holds r) (a := a) (s := s) hn
  refine ⟨fun hl => refusedWith_of hs (h1 hl), fun hl hbad => refusedWith_of hs (h2 hl hbad), fun t hl hnone hshare hroots ht hw => ?_⟩
  obtain ⟨hapart, hzero⟩ := State.takeRoots_ok ht
  have hfound : ({ t with reeve := { t.reeve with leases := t.reeve.leases ++ [newLease r a t] } } : State).lease? r.tLease = some (newLease r a t) := by
    refine find?_append_single ?_ (by simp [newLease])
    rw [State.leases_of_apart hapart]
    exact hnone
  refine ⟨_, newLease r a t, answers_of hs (hgo t hl hnone hshare hroots ht) (State.responses_of_apart hapart :), hfound, rfl, rfl, rfl, rfl, rfl, ?_, hzero hw⟩
  exact (State.timeOf_of_lease hfound).trans (add_sub_cancel t.time 0)

theorem subleaseTable : Claims.SubleaseTable := by
  intro s r
  refine ⟨fun a hs => ?_, destroy_claim, reset_claim⟩
  obtain ⟨h1, h2, h3⟩ := create_claim a hs
  exact ⟨h1, h2, h3, createLease_claim a hs⟩

end Sys2Proof.Machine

/-! ### Map (R340, R345) -/

namespace Sys2Proof.Machine
namespace State

theorem apart_stashFlush (s : State) (w : Who) (m : StashMap) : (s.stashFlush w m).apart = s.apart :=
  apart_foldl (fun _ _ => apart_writeBack _ _ _) _ s

theorem apart_unfillMaps (s : State) (w : Who) (n : Nat) (f : Bool) (p : StashMap → Bool) : (s.unfillMaps w n f p).apart = s.apart :=
  (apart_modCore _ _ _).trans (apart_foldl (fun _ _ => apart_stashFlush _ _ _) _ s)

theorem apart_unfill (s : State) (l : Byte) (b : Option Byte) (p : Tlb → Bool) : (s.unfill l b p).apart = s.apart :=
  apart_foldl (fun _ _ => apart_unfillMaps _ _ _ _ _) _ s

theorem stashFlush_mem (s : State) (w : Who) (m : StashMap) : (s.stashFlush w m).mem = s.mem :=
  mem_foldl (fun s _ => (kept_writeBack s _ _).mem) _ s

theorem unfillMaps_mem (s : State) (w : Who) (n : Nat) (f : Bool) (p : StashMap → Bool) : (s.unfillMaps w n f p).mem = s.mem :=
  mem_foldl (fun s m => stashFlush_mem s w m) _ s

theorem unfill_mem (s : State) (l : Byte) (b : Option Byte) (p : Tlb → Bool) : (s.unfill l b p).mem = s.mem :=
  mem_foldl (fun s _ => unfillMaps_mem s _ _ _ _) _ s

/-- What removing translations leaves of them. -/
theorem dropTlb_tlb (s : State) (l : Byte) (b : Option Byte) (p : Tlb → Bool) :
    (s.dropTlb l b p).tlb = s.tlb.filter (fun e => !(e.lease == l && (b == none || b == some e.sub) && p e)) :=
  tlb_of_apart (apart_unfill _ l b p)

theorem dropTlb_mem (s : State) (l : Byte) (b : Option Byte) (p : Tlb → Bool) : (s.dropTlb l b p).mem = s.mem := unfill_mem _ l b p

theorem dropTlb_responses (s : State) (l : Byte) (b : Option Byte) (p : Tlb → Bool) : (s.dropTlb l b p).reeve.responses = s.reeve.responses :=
  (responses_of_apart (apart_unfill _ l b p) :)

end State

/-- A lease's agent may write a stage 1 leaf, as the model tests it (R1, R345). -/
theorem stage1Agent_iff (r : Req) (x : Sub) (large : Bool) (e : Word) :
    (r.lease == r.tLease && (r.level == 2 || (r.level == 1 && r.sub == r.tSub && (!bitAt e 63 ||
      x.window.any (fun p => decide (p.1.toNat ≤ bits e 51 16 * 65536) &&
        decide (bits e 51 16 * 65536 + (if large then 2 ^ 29 else 2 ^ 16) ≤ p.1.toNat + p.2.toNat)))))) = true ↔ Claims.stage1Agent r x large e := by
  unfold Claims.stage1Agent bitAt
  rw [bits_eq_extract]
  simp only [Bool.and_eq_true, Bool.or_eq_true, beq_iff_eq, Bool.not_eq_true', Option.any_eq_true, decide_eq_true_eq, and_assoc]

/-- Who may put another entry in place of one of stage 1 (R345). -/
def mayReplace (r : Req) (x : Sub) (large : Bool) (old : TEntry) : Bool :=
  r.level == 2 || (match old with
    | .bad => true
    | .ptr _ => false
    | .leaf l => x.window.any (fun p => decide (p.1.toNat ≤ l.addr) && decide (l.addr + (if large then 2 ^ 29 else 2 ^ 16) ≤ p.1.toNat + p.2.toNat)))

theorem mayReplace_iff (r : Req) (x : Sub) (large : Bool) (old : TEntry) :
    mayReplace r x large old = true ↔ r.level = 2 ∨ old = .bad ∨
      ∃ l p, old = .leaf l ∧ x.window = some p ∧ p.1.toNat ≤ l.addr ∧ l.addr + (if large then 2 ^ 29 else 2 ^ 16) ≤ p.1.toNat + p.2.toNat := by
  unfold mayReplace
  rw [Bool.or_eq_true, beq_iff_eq]
  refine or_congr_right ?_
  cases old with
  | bad => simp
  | ptr t => simp
  | leaf l => simp [Option.any_eq_true]

theorem mapReq_stage1 {may : Nat → Bool} {r : Req} {large : Bool} {die : BitVec 2} {addr e : Word} {s : State} {x : Sub}
    (hm : may rMap = true) (hx : s.sub? r.tLease r.tSub = some x) :
    let n := if large then 2 ^ 29 else 2 ^ 16
    ((¬ Claims.stage1Agent r x large e ∨ addr.toNat % n ≠ 0) → mapReq may r (.map false large die addr e) s = refuse s 2) ∧
    (Claims.stage1Agent r x large e → addr.toNat % n = 0 → canonical addr = true → mapEntryOk false large die e = true →
      s.busy r.tLease (some r.tSub) = false → mapReq may r (.map false large die addr e) s =
        mapped s (mapLeaf1 r large die addr e x.root.toNat (mayReplace r x large) s)) := by
  have hagent := stage1Agent_iff r x large e
  intro n
  unfold mapReq
  dsimp only
  rw [hm, if_neg (by decide), if_neg Bool.false_ne_true, hx]
  refine ⟨fun hbad => if_pos ?_, fun ha hn hc he hb => (if_neg ?_).trans ((if_neg (by rw [hb]; decide)).trans rfl)⟩
  · simp only [Bool.or_eq_true, bne_iff_ne]
    refine .inl (.inl (hbad.imp_left fun h => ?_))
    rw [Bool.not_eq_true', ← Bool.not_eq_true]
    exact fun hh => h (hagent.1 hh)
  · simp only [Bool.or_eq_true, not_or, bne_iff_ne, ne_eq, not_not]
    refine ⟨⟨⟨?_, hn⟩, by rw [hc]; decide⟩, by rw [he]; decide⟩
    rw [Bool.not_eq_true, Bool.not_eq_false']
    exact hagent.2 ha

/-- The leaf stands, where the walk finds its place and nothing keeps the Reeve from it. -/
theorem mapLeaf1_found {r : Req} {large : Bool} {die : BitVec 2} {addr e : Word} {root pa : Nat} {owns : TEntry → Bool} {s t t' : State} {old : Word}
    (hslot : s.slot1 { State.reeveWho die.toNat with lease := r.tLease, sub := r.tSub } large addr 3 root = .ok (some pa, t))
    (hread : t.readEntry { State.reeveWho die.toNat with lease := r.tLease, sub := r.tSub } pa = .ok (old, t')) :
    (owns (parseEntry false (if large then 2 else 3) old) = false → mapLeaf1 r large die addr e root owns s = .error (.status 2)) ∧
    (∀ v, owns (parseEntry false (if large then 2 else 3) old) = true → t'.reeveStore pa (leBytes 8 e.toNat) = .ok v →
      mapLeaf1 r large die addr e root owns s = .ok (v.dropTlb r.tLease (some r.tSub) fun t =>
        decide (t.va * 2 ^ t.size < addr.toNat + (if large then 2 ^ 29 else 2 ^ 16)) && decide (addr.toNat < t.va * 2 ^ t.size + 2 ^ t.size))) := by
  unfold mapLeaf1
  dsimp only
  rw [hslot]
  dsimp only
  rw [hread]
  refine ⟨fun h => if_pos (by rw [h]; rfl), fun v h hv => (if_neg (by rw [h]; decide)).trans ?_⟩
  unfold State.mapStore
  rw [hv]
  rfl

theorem map_stage1 {s t t' v : State} {r : Req} {large : Bool} {die : BitVec 2} {addr e old : Word} {x : Sub} {pa : Nat}
    (hs : Claims.served s r (.map false large die addr e)) (hw : s.mem.wf = true) (hm : s.holds r rMap = true)
    (hx : s.sub? r.tLease r.tSub = some x) (ha : Claims.stage1Agent r x large e) (hn : addr.toNat % (if large then 2 ^ 29 else 2 ^ 16) = 0)
    (hc : canonical addr = true) (he : mapEntryOk false large die e = true) (hb : s.busy r.tLease (some r.tSub) = false)
    (hslot : s.slot1 { State.reeveWho die.toNat with lease := r.tLease, sub := r.tSub } large addr 3 x.root.toNat = .ok (some pa, t))
    (hread : t.readEntry { State.reeveWho die.toNat with lease := r.tLease, sub := r.tSub } pa = .ok (old, t')) :
    (¬ mayReplace r x large (parseEntry false (if large then 2 else 3) old) = true → Claims.refusedWith .map s r 2) ∧
    (mayReplace r x large (parseEntry false (if large then 2 else 3) old) = true → t'.reeveStore pa (leBytes 8 e.toNat) = .ok v →
      ∃ u, Claims.answers .map s u r 0 [] ∧
      u.mem.num pa 8 = e.toNat ∧ (∀ a, a < pa ∨ pa + 8 ≤ a → u.mem.byte a = s.mem.byte a) ∧
      ∀ t ∈ u.tlb, t.lease = r.tLease → t.sub = r.tSub →
        (t.va + 1) * 2 ^ t.size ≤ addr.toNat ∨ addr.toNat + (if large then 2 ^ 29 else 2 ^ 16) ≤ t.va * 2 ^ t.size) := by
  have hreq := (mapReq_stage1 (may := s.holds r) (die := die) hm hx).2 ha hn hc he hb
  obtain ⟨hno, hyes⟩ := mapLeaf1_found (e := e) (owns := mayReplace r x large) hslot hread
  refine ⟨fun h => refusedWith_of hs (hreq.trans ?_), fun h hv => ?_⟩
  · rw [hno (Bool.not_eq_true _ ▸ h)]
    rfl
  · have hrun := hreq.trans (congrArg (mapped s) (hyes v h hv))
    have hapart : v.apart = s.apart :=
      (State.reeveStore_apart hv).trans (((State.apart_readEntry _ _ _).ok hread).trans ((State.apart_slot1 _ _ _ _ _ _).ok hslot))
    have hmem' : t'.mem = s.mem :=
      ((State.kept_readEntry _ _ _).ok hread).mem.trans ((State.kept_slot1 _ _ _ _ _ _).ok hslot).mem
    have hmem : v.mem = s.mem.setNum pa 8 e.toNat := by rw [State.reeveStore_mem hv, hmem']; rfl
    refine ⟨_, answers_of hs hrun ((State.dropTlb_responses _ _ _ _).trans (State.responses_of_apart hapart)), ?_, fun a hout => ?_, fun y hy hl hb => ?_⟩
    · rw [State.closed_mem, State.dropTlb_mem, hmem, Memory.num_setNum hw]
      exact Nat.mod_eq_of_lt e.isLt
    · rw [State.closed_mem, State.dropTlb_mem, hmem]
      exact Memory.byte_setBytes_of_outside hw (by simpa using hout)
    · rw [State.closed_tlb, State.dropTlb_tlb] at hy
      have hfar := (List.mem_filter.1 hy).2
      simp only [hl, hb, beq_self_eq_true, Bool.or_true, Bool.true_and, Bool.not_eq_true', Bool.and_eq_false_iff, decide_eq_false_iff_not,
        not_lt] at hfar
      rw [Nat.succ_mul]
      exact hfar.symm

end Sys2Proof.Machine

namespace Sys2Proof.Machine

/-! Stage 2: the tables on the way are the Reeve's to make. -/

theorem State.apart_takeFrame (s : State) (die zone : Nat) : (s.takeFrame die zone).2.apart = s.apart := by
  unfold State.takeFrame
  rfl

theorem State.apart_mapStore {s v : State} {pa : Nat} {bs : List Byte} (h : s.mapStore pa bs = .ok v) : v.apart = s.apart := by
  unfold State.mapStore at h
  split at h
  · next e =>
    cases h
    exact State.reeveStore_apart e
  · cases h

theorem State.apart_slot2 (s : State) (w : Who) (large : Bool) (la n table : Nat) : EndsApart s (s.slot2 w large la n table) :=
  Ends.slot2 (P := fun t => t.apart = s.apart) (E := fun _ => True) w large la n
    (fun t a h => by
      have hr := State.apart_readEntry t w a
      cases e : t.readEntry w a with
      | ok x => exact (hr.ok e).trans h
      | error y => exact fun _ _ => trivial)
    (fun t d z h => (State.apart_takeFrame t d z).trans h) (fun _ _ h => h)
    (fun t pa bs h => by
      cases e : t.mapStore pa bs with
      | ok v => exact (State.apart_mapStore e).trans h
      | error y => trivial)
    (fun _ => trivial) table rfl

theorem mapReq_stage2 {may : Nat → Bool} {r : Req} {large : Bool} {die : BitVec 2} {addr e : Word} {s : State} (hm : may rMap = true) :
    let n := if large then 2 ^ 29 else 2 ^ 16
    (r.level ≠ 3 → mapReq may r (.map true large die addr e) s = refuse s 1) ∧
    (∀ k, r.level = 3 → s.lease? r.tLease = some k →
      ((addr.toNat % n ≠ 0 ∨ s.framesFree r.tLease e n = false) → mapReq may r (.map true large die addr e) s = refuse s 2) ∧
      (addr.toNat % n = 0 → addr.toNat < 2 ^ 52 → mapEntryOk true large die e = true → s.framesFree r.tLease e n = true →
        s.busy r.tLease none = false → mapReq may r (.map true large die addr e) s =
          mapped s (mapLeaf2 r large die addr e (k.roots[die.toNat]'die.isLt).toNat s))) := by
  intro n
  unfold mapReq
  dsimp only
  rw [hm, if_neg (by decide), if_pos rfl]
  refine ⟨fun hl => if_pos (bne_iff_ne.2 hl), fun k hl hk => ?_⟩
  rw [hl, if_neg (by decide), hk]
  dsimp only
  refine ⟨fun hbad => if_pos ?_, fun hn ha he hf hb => (if_neg ?_).trans (if_neg (by rw [hb]; decide))⟩
  · simp only [Bool.or_eq_true, bne_iff_ne, Bool.not_eq_true']
    exact hbad.elim (fun h => .inl (.inl (.inl h))) .inr
  · simp only [Bool.or_eq_true, not_or, bne_iff_ne, ne_eq, not_not, decide_eq_true_eq, Bool.not_eq_true', Bool.not_eq_false]
    exact ⟨⟨⟨hn, by omega⟩, he⟩, hf⟩

theorem mapLeaf2_found {r : Req} {large : Bool} {die : BitVec 2} {addr e : Word} {root pa : Nat} {s t v : State}
    (hslot : s.slot2 { State.reeveWho die.toNat with lease := r.tLease, sub := r.tSub } large addr.toNat 3 root = .ok (pa, t))
    (hv : t.reeveStore pa (leBytes 8 e.toNat) = .ok v) : ∃ p, mapLeaf2 r large die addr e root s = .ok (v.dropTlb r.tLease none p) := by
  unfold mapLeaf2
  dsimp only
  rw [hslot]
  dsimp only [bind, Except.bind]
  unfold State.mapStore
  rw [hv]
  exact ⟨_, rfl⟩

theorem map_stage2 {s t v : State} {r : Req} {large : Bool} {die : BitVec 2} {addr e : Word} {k : Lease} {pa : Nat}
    (hs : Claims.served s r (.map true large die addr e)) (hl : r.level = 3)
    (hk : s.lease? r.tLease = some k) (hn : addr.toNat % (if large then 2 ^ 29 else 2 ^ 16) = 0) (ha : addr.toNat < 2 ^ 52)
    (he : mapEntryOk true large die e = true) (hf : s.framesFree r.tLease e (if large then 2 ^ 29 else 2 ^ 16) = true)
    (hb : s.busy r.tLease none = false)
    (hslot : s.slot2 { State.reeveWho die.toNat with lease := r.tLease, sub := r.tSub } large addr.toNat 3
      (k.roots[die.toNat]'die.isLt).toNat = .ok (pa, t))
    (hv : t.reeveStore pa (leBytes 8 e.toNat) = .ok v) (hw : t.mem.wf = true) :
    ∃ u, Claims.answers .map s u r 0 [] ∧ u.mem.num pa 8 = e.toNat ∧ ∀ a, a < pa ∨ pa + 8 ≤ a → u.mem.byte a = t.mem.byte a := by
  have hreq := ((mapReq_stage2 (may := s.holds r) (large := large) (die := die) (addr := addr) (e := e) (State.holds_of_W hl _)).2 k hl hk).2 hn ha he hf hb
  obtain ⟨p, hp⟩ := mapLeaf2_found (e := e) hslot hv
  have hapart : v.apart = s.apart := (State.reeveStore_apart hv).trans ((State.apart_slot2 _ _ _ _ _ _).ok hslot)
  have hmem : v.mem = t.mem.setNum pa 8 e.toNat := State.reeveStore_mem hv
  refine ⟨_, answers_of hs (hreq.trans (congrArg (mapped s) hp)) ((State.dropTlb_responses _ _ _ _).trans (State.responses_of_apart hapart)), ?_,
    fun a hout => ?_⟩
  · rw [State.closed_mem, State.dropTlb_mem, hmem, Memory.num_setNum hw]
    exact Nat.mod_eq_of_lt e.isLt
  · rw [State.closed_mem, State.dropTlb_mem, hmem]
    exact Memory.byte_setBytes_of_outside hw (by simpa using hout)

theorem mapRequests : Claims.MapRequests := by
  intro s t t' v r
  refine ⟨fun large die addr e x pa old hs hw => ?_, fun large die addr e k pa hs _ => ?_⟩
  · refine ⟨fun hm => refusedWith_of hs (if_pos (by rw [hm]; rfl)), fun hm hx hbad => refusedWith_of hs ((mapReq_stage1 hm hx).1 hbad),
      fun hm hx ha hn hc he hb hslot hread => ?_⟩
    obtain ⟨hno, hyes⟩ := map_stage1 (v := v) hs hw hm hx ha hn hc he hb hslot hread
    rw [mayReplace_iff] at hno hyes
    exact ⟨hno, hyes⟩
  · refine ⟨fun hm hl => refusedWith_of hs ((mapReq_stage2 hm).1 hl),
      fun hl hk hbad => refusedWith_of hs (((mapReq_stage2 (State.holds_of_W hl _)).2 k hl hk).1 hbad),
      fun hl hk hn ha he hf hb hslot hv hw => map_stage2 hs hl hk hn ha he hf hb hslot hv hw⟩

end Sys2Proof.Machine

/-- Settles O57: `serve` is one function for all requests; each clause is read off what the request's own meaning answers. -/
theorem subleaseRequests : Obligations.SubleaseRequests :=
  ⟨Sys2Proof.Machine.requestsArrive, Sys2Proof.Machine.subleaseTable, Sys2Proof.Machine.mapRequests, Sys2Proof.Machine.limitRequests,
    Sys2Proof.Machine.rightRequests⟩

/-! ## A remote read of a marked word (O54)

A mark (R316) leaves the word's bytes in memory as they stand: only the list of marked words changes. A consumer then
receives the canonical value of R317, which for a peer's read is zeros (log 83). The clause of `DeviceEvents` on RMA reads
asks for memory's bytes in every state, so a marked word that holds a byte other than zero refutes it. -/

namespace Sys2Proof.Machine

/-- The device after reset, where the word at 0x1000 of package DRAM holds 1 and is marked poisoned, and a peer reads it. -/
def markedRead : State :=
  { State.reset with mem := State.reset.mem.setBytes 0x1000 [1], poison := [0x200], arg := .fabric (.rmaRead 0x1000 8) }

/-- Neither an owner nor containment keeps the peer waiting. -/
theorem markedRead_reached : ∃ t, markedRead.remoteReach 0x1000 8 false = .ok t := by
  have reached : (markedRead.remoteReach 0x1000 8 false).toBool = true := by decide +kernel
  cases e : markedRead.remoteReach 0x1000 8 false with
  | ok t => exact ⟨t, rfl⟩
  | error u => rw [e] at reached; cases reached

/-- The data of the last reply that a step leaves. -/
def lastData : Host.Outcome State Fault Refusal → Option (List Byte)
  | .next u => u.replies.getLast?.map (fun r => r.data)
  | _ => none

/-- The peer is answered with zeros (R317, R337, log 83). -/
theorem markedRead_answered : lastData (exec .fabricMessage markedRead) = some (List.replicate 8 0) := by
  decide +kernel

/-- Memory keeps the byte under the mark. -/
theorem markedRead_bytes : markedRead.mem.bytes 0x1000 8 = [1, 0, 0, 0, 0, 0, 0, 0] := by
  decide +kernel

/-- `DeviceEvents` fails: its clause on RMA reads has no premise that the words read are unmarked. -/
theorem not_deviceEvents : ¬ Claims.DeviceEvents := by
  intro h
  obtain ⟨t, reached⟩ := markedRead_reached
  obtain ⟨-, -, -, -, -, rmaRead, -⟩ := h markedRead t
  obtain ⟨u, r, step, -, replies, -, -, data⟩ := rmaRead 0x1000 8 rfl (by decide) (by decide) reached
  have answered : lastData (exec .fabricMessage markedRead) = some (markedRead.mem.bytes 0x1000 8) := by
    rw [step]
    simp only [lastData, replies, List.getLast?_append, List.getLast?_singleton, Option.some_or, Option.map_some, data]
    rfl
  rw [markedRead_answered, markedRead_bytes] at answered
  exact absurd answered (by decide)

end Sys2Proof.Machine

/-- Refutes O54: in `markedRead` a peer reads a word of package DRAM that is marked poisoned and holds 1. The model answers zeros, as
R317 and log 83 have it, and the clause on RMA reads asks for memory's bytes. -/
theorem not_boardEvents : ¬ Obligations.BoardEvents := by
  unfold Obligations.BoardEvents
  rintro ⟨device, -⟩
  exact Sys2Proof.Machine.not_deviceEvents device

/-! ## Checks of a scalar access (R25, O12)

A walk of the tables never faults on a read: it waits. So a fault of a walk is one of the three that it raises itself, in the order
of its steps (`walk1_faults`, `walkBoth_eq`); and a fault of a translation is that of a walk which uses nothing cached
(`translate_fault`). -/

namespace Sys2Proof.Machine

/-- The only stop is a wait. -/
def AStop.isWait : AStop → Prop
  | .fault _ _ => False
  | .wait _ => True

namespace State

/-- Reading a table entry never faults (R23). -/
theorem readEntry_waits (s : State) (w : Who) (pa : Nat) : Ends (fun _ => True) AStop.isWait (s.readEntry w pa) := by
  unfold readEntry
  split
  · trivial
  · split <;> trivial

theorem walk2_waits (w : Who) (ipa n : Nat) : ∀ (s : State) (table : Nat), Ends (fun _ => True) AStop.isWait (s.walk2 w ipa n table) := by
  induction n with
  | zero => exact fun _ _ => trivial
  | succ n ih =>
    intro s table
    rw [walk2]
    refine (readEntry_waits s w _).bind fun (e, t) _ => ?_
    dsimp only
    split
    · trivial
    · exact ih _ _
    · trivial

/-- Stage 2 alone answers a leaf or none, or waits. -/
theorem stage2_waits (s : State) (w : Who) (fresh : Bool) (ipa : Nat) : Ends (fun _ => True) AStop.isWait (s.stage2 w fresh ipa) := by
  unfold stage2
  split
  · trivial
  · exact walk2_waits w ipa _ s _

/-- Check 2 of R25 has failed for the entry of a level: the lease address read there has no readable ordinary frame. -/
def TableFault (w : Who) (fresh : Bool) (va : Nat) (u : State) (f : XFault) : Prop :=
  f.cause = 0x0C ∧ ∃ (level table : Nat) (z : State) (l2 : Option Leaf), 1 ≤ level ∧ level ≤ 3 ∧
    f.tval = BitVec.ofNat 64 (table + 8 * entryIndex level va) ∧ z.stage2 w fresh (table + 8 * entryIndex level va) = .ok (l2, u) ∧
    ∀ l, l2 = some l → l.r = false ∨ l.cls ≠ 0

/-- Every fault of the stage 1 walk is check 2's. -/
theorem walk1_faults (w : Who) (fresh : Bool) (va n : Nat) (hn : n ≤ 3) : ∀ (s : State) (table : Nat),
    Ends (fun _ => True) (fun x => ∀ u f, x = .fault u f → TableFault w fresh va u f) (s.walk1 w fresh va n table) := by
  induction n with
  | zero => exact fun _ _ => trivial
  | succ n ih =>
    intro s table
    have waits {x : AStop} (h : x.isWait) (u : State) (f : XFault) (e : x = .fault u f) : TableFault w fresh va u f := by
      subst e
      exact h.elim
    rw [walk1]
    have h2 := stage2_waits s w fresh (table + 8 * entryIndex (3 - n) va)
    cases hs : s.stage2 w fresh (table + 8 * entryIndex (3 - n) va) with
    | error x => exact waits (h2.error hs)
    | ok r =>
      obtain ⟨l2, t⟩ := r
      dsimp only [bind, Except.bind]
      split
      · next hnone =>
        intro u f e
        cases e
        refine ⟨rfl, 3 - n, table, s, l2, by omega, by omega, rfl, hs, fun l hl => ?_⟩
        have hl := Option.filter_eq_none_iff.1 hnone l hl
        by_cases hr : l.r = true
        · exact .inr fun hc => hl (by simp [hr, hc])
        · exact .inl (by simpa using hr)
      · next l _ =>
        have he := readEntry_waits t w (leafPa l (table + 8 * entryIndex (3 - n) va))
        cases hr : t.readEntry w (leafPa l (table + 8 * entryIndex (3 - n) va)) with
        | error x => exact waits (he.error hr)
        | ok r =>
          dsimp only
          split
          · trivial
          · exact ih (by omega) _ _
          · trivial

theorem walkFrom_levels (s : State) (w : Who) (sub : Option Byte) (fresh : Bool) (addr root : Nat) : (s.walkFrom w sub fresh addr root).1 ≤ 3 := by
  unfold walkFrom
  dsimp only
  split
  · exact Nat.le_refl 3
  · split <;> simp only [Nat.le_refl, Nat.reduceLeDiff]

section walkBoth
variable {s u : State} {w : Who} {fresh : Bool} {k : Acc} {va : Word} {b : Sub}

theorem walkBoth_not_canonical (h : canonical va = false) :
    s.walkBoth w fresh k va = .error (.fault s { cause := k.cause, tval := va }) := by
  unfold walkBoth
  rw [h]
  rfl

/-- The stage 1 walk of an access, from where the walk cache lets it start. -/
def first (s : State) (w : Who) (fresh : Bool) (va : Word) (b : Sub) : ARes (Option Leaf × State) :=
  let v := (va &&& 0x7FFFFFFFFFFFFF).toNat
  let start := s.walkFrom w (some w.sub) fresh v b.root.toNat
  s.walk1 w fresh v start.1 start.2

/-- Checks 3 and 4, after the stage 1 walk has answered. -/
def permissions (w : Who) (fresh : Bool) (k : Acc) (va : Word) (r : Option Leaf × State) : ARes (Tlb × State) :=
  match r.1.filter (fun l => k.allowed l.x l.w l.r) with
  | none => .error (.fault r.2 { cause := k.cause, tval := va })
  | some l1 => do
    let (l2, s) ← r.2.stage2 w fresh (leafPa l1 va.toNat)
    match l2.filter (fun l => k.allowed l.x l.w l.r) with
    | none => .error (.fault s { cause := 0x0C, tval := word (leafPa l1 va.toNat) })
    | some l2 => .ok (combine w va l1 l2, s)

/-- A walk of a canonical address: the stage 1 walk, then the permissions. -/
theorem walkBoth_eq (hc : canonical va = true) (hb : s.sub? w.lease w.sub = some b) :
    s.walkBoth w fresh k va = s.first w fresh va b >>= permissions w fresh k va := by
  unfold walkBoth
  rw [hc, hb]
  rfl

/-- Check 3: no stage 1 leaf that grants the access. -/
theorem permissions_refused1 {l1 : Option Leaf} (hg : l1.filter (fun l => k.allowed l.x l.w l.r) = none) :
    permissions w fresh k va (l1, u) = .error (.fault u { cause := k.cause, tval := va }) := by
  unfold permissions
  rw [hg]

variable {l1 : Leaf} (hg : k.allowed l1.x l1.w l1.r = true) {u2 : State} {l2 : Option Leaf}
  (h2 : u.stage2 w fresh (leafPa l1 va.toNat) = .ok (l2, u2))
include hg h2

/-- Check 4: no stage 2 leaf that grants the access. -/
theorem permissions_refused2 (hg2 : l2.filter (fun l => k.allowed l.x l.w l.r) = none) :
    permissions w fresh k va (some l1, u) = .error (.fault u2 { cause := 0x0C, tval := word (leafPa l1 va.toNat) }) := by
  unfold permissions
  rw [Option.filter_some, if_pos hg]
  dsimp only [bind, Except.bind]
  rw [h2]
  dsimp only
  rw [hg2]

theorem permissions_granted {l : Leaf} (hl : l2 = some l) (hg2 : k.allowed l.x l.w l.r = true) :
    permissions w fresh k va (some l1, u) = .ok (combine w va l1 l, u2) := by
  subst hl
  unfold permissions
  rw [Option.filter_some, if_pos hg]
  dsimp only [bind, Except.bind]
  rw [h2]
  dsimp only
  rw [Option.filter_some, if_pos hg2]

end walkBoth

end State

/-- The causes of a stage 1 failure, in the words of R25. -/
theorem Acc.cause_eq (k : Acc) : k.cause = if k = .load then 0x08 else if k = .fetch then 0x0A else 0x09 := by
  cases k <;> rfl

theorem filter_refused {k : Acc} {l : Option Leaf} (h : ∀ x, l = some x → k.allowed x.x x.w x.r = false) :
    l.filter (fun x => k.allowed x.x x.w x.r) = none :=
  Option.filter_eq_none_iff.2 fun x hx => by rw [h x hx]; decide

theorem walkChecks : Claims.WalkChecks := by
  intro s w fresh k va
  rw [← Acc.cause_eq k]
  refine ⟨State.walkBoth_not_canonical, fun hc b hb => ?_⟩
  have after {r : ARes (Option Leaf × State)} (h : s.first w fresh va b = r) :
      s.walkBoth w fresh k va = r >>= State.permissions w fresh k va := by rw [← h, State.walkBoth_eq hc hb]
  refine ⟨fun u f h => ⟨after h, (State.walk1_faults w fresh _ _ (State.walkFrom_levels _ _ _ _ _ _) s _).error h u f rfl⟩,
    fun u l1 h hg => (after h).trans (State.permissions_refused1 (filter_refused hg)),
    fun u l1 h hg u2 l2 h2 => ⟨fun hg2 => (after h).trans (State.permissions_refused2 hg h2 (filter_refused hg2)),
      fun l hl hg2 => (after h).trans (State.permissions_granted hg h2 hl hg2)⟩⟩

/-! ### Translation, and the access as a whole -/

namespace State
variable {s t : State} {w : Who} {k : Acc} {va : Word} {test : Tlb → Option Nat} {f : XFault}

theorem walkFresh_fault (h : s.walkFresh w k va test = .error (.fault t f)) :
    s.walkBoth w true k va = .error (.fault t f) ∨ ∃ e, s.walkBoth w true k va = .ok (e, t) ∧ test e = some f.cause ∧ f.tval = va := by
  unfold walkFresh at h
  cases hw : s.walkBoth w true k va with
  | error x =>
    rw [hw] at h
    exact .inl h
  | ok r =>
    obtain ⟨e, u⟩ := r
    rw [hw] at h
    dsimp only [bind, Except.bind] at h
    split at h
    · next c hc =>
      cases h
      exact .inr ⟨e, rfl, hc, rfl⟩
    · cases h

/-- A fault is found by a walk that uses nothing cached, from the state itself or from what a first walk leaves (R28). -/
theorem translate_fault (h : s.translate w k va test = .error (.fault t f)) :
    ∃ u, (u = s ∨ (∃ e, s.walkBoth w false k va = .ok (e, u)) ∨ ∃ g, s.walkBoth w false k va = .error (.fault u g)) ∧
      u.walkFresh w k va test = .error (.fault t f) := by
  unfold translate at h
  split at h
  · split at h
    · cases h
    · exact ⟨s, .inl rfl, h⟩
  · split at h
    · next e u hw =>
      split at h
      · cases h
      · exact ⟨u, .inr (.inl ⟨e, hw⟩), h⟩
    · next u g hw => exact ⟨u, .inr (.inr ⟨g, hw⟩), h⟩
    · cases h

variable {a : Agent} {sc : Scope} {n : Nat} {keep : Keep}

/-- Check 1 comes first, in a stash mapping and outside. -/
theorem reach_misaligned (s : State) (a : Agent) (k : Acc) (sc : Scope) (h : va.toNat % n ≠ 0) :
    s.reach a k sc va n = .error (.fault s { cause := 0x04, tval := va }) := by
  have hn : (va.toNat % n != 0) = true := bne_iff_ne.2 h
  unfold reach
  dsimp only
  split
  · rw [if_pos hn]
  · unfold checked
    rw [if_pos hn]
    rfl

theorem access_error {x : AStop} (h : s.reach a k sc va n = .error x) (keep : Keep) : s.access a k sc va n keep = .error x := by
  unfold access
  rw [h]
  rfl

theorem unmapped_of_offStash (h : Claims.offStash s va) : (if s.ctx.isMiller = true then none else s.stashAt s.ctx.core va) = none := by
  rcases h with h | h
  · exact if_pos h
  · rw [h, ite_self]

theorem reach_error_offStash (h : Claims.offStash s va) {x : AStop} (hx : s.checked (s.ctx.whoFor a) s.ctx a k sc n va n = .error x) :
    s.reach a k sc va n = .error x := by
  unfold reach
  dsimp only
  rw [unmapped_of_offStash h, hx]
  rfl

/-- An access outside the stash arrives where its checked translation says. -/
theorem reach_ok_offStash {p : Reached} (h : Claims.offStash s va) (hr : s.reach a k sc va n = .ok (p, t)) :
    ∃ e u, s.checked (s.ctx.whoFor a) s.ctx a k sc n va n = .ok (e, u) ∧ p.pa = e.phys va := by
  unfold reach at hr
  dsimp only at hr
  rw [unmapped_of_offStash h] at hr
  dsimp only at hr
  cases hc : s.checked (s.ctx.whoFor a) s.ctx a k sc n va n with
  | error x => rw [hc] at hr; cases hr
  | ok r =>
    obtain ⟨e, u⟩ := r
    rw [hc] at hr
    dsimp only [bind, Except.bind] at hr
    split at hr
    · cases hr
    · split at hr
      · cases hr
      · cases hr
        exact ⟨e, u, rfl, rfl⟩

theorem checked_aligned (c : Ctx) (h : va.toNat % n = 0) : s.checked w c a k sc n va n = s.translate w k va (classTest c a k sc va n) := by
  unfold checked
  rw [h]
  rfl

end State

/-- Checks 5 and 6 in their order (R25, R26). -/
theorem classTest_refuses (c : Ctx) (a : Agent) (k : Acc) (sc : Scope) (va : Word) (n : Nat) (e : Tlb) :
    (classAdmits c a k e.cls va n = false → classTest c a k sc va n e = some 0x0D) ∧
    (classAdmits c a k e.cls va n = true → k = .atomic → e.amo = false → (e.home = 2 ∨ sc = .system) → classTest c a k sc va n e = some 0x0E) := by
  unfold classTest
  refine ⟨fun h => by rw [h]; rfl, fun h hk ha hs => ?_⟩
  have hno : atomicOk k sc e = false := by
    subst hk
    unfold atomicOk
    rcases hs with hs | hs <;> simp [ha, hs]
  rw [h, hno]
  rfl

theorem scalarChecks : Claims.ScalarChecks := by
  intro k sc va n s
  refine ⟨fun ha => ?_, fun ha ho t f ht => ?_, fun ha ho p t hp => ?_, fun e => classTest_refuses _ _ _ _ _ _ e⟩
  · rw [State.access_error (State.reach_misaligned s s.agent k sc ha)]
    rfl
  · have hr := State.reach_error_offStash ho ((State.checked_aligned s.ctx ha).trans ht)
    obtain ⟨u, hu, hw⟩ := State.translate_fault ht
    refine ⟨?_, u, hu, State.walkFresh_fault hw⟩
    rw [State.access_error hr]
    rfl
  · obtain ⟨v, hv, -⟩ := State.access_ok hp
    obtain ⟨e, u, he, hpa⟩ := State.reach_ok_offStash ho hv
    obtain ⟨-, ht, htest⟩ := State.checked_ok he
    exact ⟨e, u, ht, htest, hpa⟩

end Sys2Proof.Machine

/-- Settles O12: a walk raises its three faults in the order of its steps, and a scalar access those of a walk that uses nothing
cached. -/
theorem accessChecks : Obligations.AccessChecks := ⟨Sys2Proof.Machine.walkChecks, Sys2Proof.Machine.scalarChecks⟩

/-! ## What the caches leave alone beside `Kept`

`Kept` says what an access to memory leaves as it was. Two more facts are needed here. The L2 and DRAM change nothing of a core and
of the walk cache (`State.Under`). And no cache operation arms or disarms an injection, nor brings an error or a mark into a machine that
has none (`State.Sound`). -/

namespace Sys2Proof.Machine

namespace State

/-- No error and no mark stands in memory or in an L2. -/
structure ErrorFree (s : State) : Prop where
  dramErr : s.dramErr = []
  latent : s.latent = []
  poison : s.poison = []
  l2 : ∀ d, ∀ y ∈ (s.die d).l2, y.bad = []

/-- From s to t the injections stand as they were, and no error has come where there was none. -/
structure Sound (s t : State) : Prop where
  errinj : ∀ d, (t.die d).errinj = (s.die d).errinj
  free : s.ErrorFree → t.ErrorFree

/-- What the L2 and DRAM leave alone: the cores, the walk cache, and what `Sound` says. -/
structure Under (s t : State) : Prop extends Sound s t where
  cores : t.cores = s.cores
  walks : t.walks = s.walks

namespace Sound
variable {s t u : State}

theorem refl (s : State) : Sound s s := ⟨fun _ => rfl, fun h => h⟩

theorem trans (a : Sound s t) (b : Sound t u) : Sound s u := ⟨fun d => (b.errinj d).trans (a.errinj d), fun h => b.free (a.free h)⟩

/-- Where the dies, the marks and the errors are as they were. -/
theorem of_eq (hd : t.dies = s.dies) (h1 : t.dramErr = s.dramErr) (h2 : t.latent = s.latent) (h3 : t.poison = s.poison) : Sound s t := by
  have die (d : BitVec 2) : t.die d = s.die d := by simp only [State.die, hd]
  exact ⟨fun d => by rw [die], fun h => ⟨h1.trans h.dramErr, h2.trans h.latent, h3.trans h.poison, fun d => by rw [die]; exact h.l2 d⟩⟩

theorem ite {c : Prop} {_ : Decidable c} (ht : Sound s t) (hu : Sound s u) : Sound s (if c then t else u) := by
  split
  · exact ht
  · exact hu

theorem foldl {α : Type} {f : State → α → State} (step : ∀ s a, Sound s (f s a)) (l : List α) (s : State) : Sound s (l.foldl f s) :=
  foldl_ind (P := Sound s) (fun t a h => h.trans (step t a)) l (refl s)

end Sound

namespace Under
variable {s t u : State}

theorem refl (s : State) : Under s s := ⟨Sound.refl s, rfl, rfl⟩

theorem trans (a : Under s t) (b : Under t u) : Under s u := ⟨a.toSound.trans b.toSound, b.cores.trans a.cores, b.walks.trans a.walks⟩

theorem ite {c : Prop} {_ : Decidable c} (ht : Under s t) (hu : Under s u) : Under s (if c then t else u) := by
  split
  · exact ht
  · exact hu

theorem foldl {α : Type} {f : State → α → State} (step : ∀ s a, Under s (f s a)) (l : List α) (s : State) : Under s (l.foldl f s) :=
  foldl_ind (P := Under s) (fun t a h => h.trans (step t a)) l (refl s)

/-- One die changes, and its L2 gains no destroyed line. -/
theorem of_setDie (s : State) (d : BitVec 2) (x : Die) (he : x.errinj = (s.die d).errinj)
    (hb : (∀ y ∈ (s.die d).l2, y.bad = []) → ∀ y ∈ x.l2, y.bad = []) : Under s (s.setDie d x) := by
  refine ⟨⟨fun e => ?_, fun h => ⟨h.dramErr, h.latent, h.poison, fun e => ?_⟩⟩, rfl, rfl⟩ <;> rw [die_setDie] <;> split
  · next hd => rw [he, hd]
  · rfl
  · exact hb (h.l2 d)
  · exact h.l2 e

/-- Where only the marks and errors of DRAM change, and none comes. -/
theorem of_marks {s t : State} (hd : t.dies = s.dies) (hc : t.cores = s.cores) (hw : t.walks = s.walks)
    (h : s.ErrorFree → t.dramErr = [] ∧ t.latent = [] ∧ t.poison = []) : Under s t := by
  have die (d : BitVec 2) : t.die d = s.die d := by simp only [State.die, hd]
  refine ⟨⟨fun d => by rw [die], fun hs => ?_⟩, hc, hw⟩
  obtain ⟨h1, h2, h3⟩ := h hs
  exact ⟨h1, h2, h3, fun d => by rw [die]; exact hs.l2 d⟩

/-- Where nothing of the memory system changes. -/
theorem of_rest {s t : State} (hd : t.dies = s.dies) (hc : t.cores = s.cores) (hw : t.walks = s.walks) (h1 : t.dramErr = s.dramErr)
    (h2 : t.latent = s.latent) (h3 : t.poison = s.poison) : Under s t :=
  ⟨Sound.of_eq hd h1 h2 h3, hc, hw⟩

theorem of_post (s : State) (i : Instr) (a : EventArg) : Under s (s.post i a) := of_rest rfl rfl rfl rfl rfl rfl

theorem of_free (s : State) : Under s s.free.2 := of_rest rfl rfl rfl rfl rfl rfl

theorem of_addBox (s : State) (h d : Word) : Under s (s.addBox h d).1 := of_rest rfl rfl rfl rfl rfl rfl

end Under

/-! ### DRAM and the L2 -/

theorem under_dramScan (s : State) (line : Nat) : Under s (s.dramScan line) := by
  unfold dramScan
  split
  · exact Under.refl s
  · next ws h =>
    refine Under.of_marks rfl rfl rfl fun hs => ?_
    rw [hs.dramErr] at h
    cases h

theorem under_dramRead (s : State) (line : Nat) : Under s (s.dramRead line) := by
  unfold dramRead
  split
  · exact Under.refl s
  · refine (under_dramScan s line).trans ?_
    dsimp only
    split
    · exact Under.refl _
    · next ws h =>
      refine Under.of_marks rfl rfl rfl fun hs => ?_
      rw [hs.latent] at h
      cases h

theorem under_dramWrite (s : State) (line : Nat) : Under s (s.dramWrite line) :=
  Under.of_marks rfl rfl rfl fun hs => ⟨by simp [dramWrite, hs.dramErr, eraseN], by simp [dramWrite, hs.latent, eraseN], hs.poison⟩

theorem under_countDie (s : State) (d : BitVec 2) (l b : Byte) (e n : Nat) : Under s (s.countDie d l b e n) :=
  Under.ite (Under.refl s) (Under.of_setDie s d _ rfl fun h => h)

theorem under_dramBytes (s : State) (line : Nat) (l b : Byte) (n : Nat) : Under s (s.dramBytes line l b n) :=
  Under.ite (under_countDie s _ _ _ _ _) (Under.refl s)

theorem under_l2WriteBack (s : State) (d : BitVec 2) (x : L2Way) : Under s (s.l2WriteBack d x) :=
  Under.foldl (fun s _ => Under.ite ((under_dramWrite s _).trans (under_dramBytes _ _ _ _ _)) (Under.refl s)) _ s

/-- A way changes, and where it had no error it has none. -/
theorem under_l2Mod (s : State) (d : BitVec 2) (y : L2Way) {f : L2Way → L2Way} (hf : ∀ x, x.bad = [] → (f x).bad = []) : Under s (s.l2Mod d y f) := by
  refine Under.of_setDie s d _ rfl fun h z hz => ?_
  obtain ⟨hz, -⟩ := List.mem_filter.1 hz
  obtain ⟨x, hx, rfl⟩ := List.mem_map.1 hz
  split
  · exact hf x (h x hx)
  · exact h x hx

/-- Lines leave a die's L2. -/
theorem under_l2Filter (s : State) (d : BitVec 2) (p : L2Way → Bool) : Under s (s.modDie d (fun x => { x with l2 := x.l2.filter p })) :=
  Under.of_setDie s d _ rfl fun h y hy => h y (List.mem_of_mem_filter hy)

theorem under_l2Victim (s : State) (d : BitVec 2) (slice set group : Nat) :
    Ends (fun x => Under s x.2) (Under s) (s.l2Victim d slice set group) := by
  unfold l2Victim
  dsimp only
  split
  · exact Under.refl s
  · split
    · exact Under.refl s
    · split
      · exact Under.of_free s
      · split
        · exact (Under.of_free s).trans (Under.of_post _ _ _)
        · exact ((Under.of_free s).trans (under_l2WriteBack _ _ _)).trans (under_l2Filter _ _ _)

theorem under_l2Touch (s : State) (d : BitVec 2) (g : Option Nat) (line : Nat) (write whole : Bool) : Under s (s.l2Touch d g line write whole) := by
  unfold l2Touch
  dsimp only
  split
  · exact Under.ite (under_l2Mod s d _ fun _ h => h) (Under.refl s)
  · have h0 : Under s (if (write && whole) = true then s.dramWrite line else s.dramRead line) :=
      Under.ite (under_dramWrite s line) (under_dramRead s line)
    refine h0.trans ?_
    generalize (if (write && whole) = true then s.dramWrite line else s.dramRead line) = t
    split
    · exact Under.refl t
    · have h1 : Under t (if (bitAt (t.die d).errinj 63 && bits (t.die d).errinj 62 60 == 0 && bits (t.die d).errinj 47 7 == line) = true
          then t.post .errinjPerform (.die d) else t) := Under.ite (Under.of_post _ _ _) (Under.refl _)
      refine h1.trans ?_
      generalize (if (bitAt (t.die d).errinj 63 && bits (t.die d).errinj 62 60 == 0 && bits (t.die d).errinj 47 7 == line) = true
          then t.post .errinjPerform (.die d) else t) = u
      split
      · exact under_l2Mod u d _ fun _ h => h
      · have hv := under_l2Victim u d (l2Slice (line / 4)) (l2Set (line / 4))
        split
        · next e => exact (hv _).error e
        · next e =>
          refine ((hv _).ok e).trans (Under.of_setDie _ d _ rfl fun h y hy => ?_)
          rcases List.mem_cons.1 hy with rfl | hy
          · rfl
          · exact h y hy

theorem l2Detect_clean {s : State} (h : s.ErrorFree) (d : BitVec 2) (line : Nat) : s.l2Detect d line = (s, none) := by
  unfold l2Detect
  split
  · rfl
  · next x hx =>
    rw [h.l2 d x (List.mem_of_find?_eq_some hx)]
    rfl

theorem under_l2Detect (s : State) (d : BitVec 2) (line : Nat) : Under s (s.l2Detect d line).1 := by
  unfold l2Detect
  split
  · exact Under.refl s
  · split
    · exact Under.refl s
    · split
      · exact Under.refl s
      · refine (under_l2Mod s d _ fun x h => ?_).trans (Under.of_addBox _ _ _)
        simp [h]

theorem under_detectLine {s t : State} {w : Who} {line : Nat} (h : s.detectLine w line = .ok t ∨ s.detectLine w line = .error t) : Under s t := by
  have h0 := under_l2Detect s (l2Die w line) line
  unfold detectLine at h
  generalize s.l2Detect (l2Die w line) line = r at h0 h
  obtain ⟨u, o⟩ := r
  cases o with
  | none => rcases h with h | h <;> cases h; exact h0
  | some x => rcases h with h | h <;> cases h; exact h0.trans (Under.of_post _ _ _)

/-- A write-back that meets a destroyed line leaves no error where there was none: it meets one only where there is one. -/
theorem under_writeBack (s : State) (w : Who) (line : Nat) : Under s (s.writeBack w line) := by
  have h := under_l2Detect s (l2Die w line) line
  have hclean : s.ErrorFree → (s.l2Detect (l2Die w line) line).2 = none := fun hs => by rw [l2Detect_clean hs]
  unfold writeBack
  dsimp only
  generalize s.l2Detect (l2Die w line) line = r at h hclean ⊢
  obtain ⟨t, _ | x⟩ := r <;> dsimp only at h hclean ⊢
  · exact h.trans ((Under.ite (under_dramBytes t _ _ _ _) (Under.refl t)).trans (under_l2Touch _ _ _ _ _ _))
  · refine ⟨⟨fun d => ?_, fun hs => absurd (hclean hs) (by simp)⟩, ?_, ?_⟩
    · rw [show ∀ (v : State) e x n, (v.postContain e x n).die d = v.die d from fun _ _ _ _ => rfl]
      split
      · exact h.errinj d
      · refine Eq.trans ?_ (h.errinj d)
        rw [l2Mod, die_modDie]
        split
        · next e => rw [e]
        · rfl
    · exact Eq.trans (by split <;> rfl) h.cores
    · exact Eq.trans (by split <;> rfl) h.walks

end State

end Sys2Proof.Machine

/-! ## Removal of translations (R174, O15) -/

namespace Sys2Proof.Machine

namespace State

theorem stashFlush_kept (s : State) (w : Who) (m : StashMap) : Kept s (s.stashFlush w m) :=
  Kept.foldl (fun s _ => kept_writeBack s _ _) _ s

theorem unfillMaps_kept (s : State) (w : Who) (n : Nat) (f : Bool) (p : StashMap → Bool) : Kept s (s.unfillMaps w n f p) :=
  (Kept.foldl (fun s m => stashFlush_kept s w m) _ s).trans (Kept.of_maps _ n f _)

theorem unfill_kept (s : State) (l : Byte) (b : Option Byte) (p : Tlb → Bool) : Kept s (s.unfill l b p) :=
  Kept.foldl (fun s _ => unfillMaps_kept s _ _ _ _) _ s

theorem walks_foldl {α : Type} {f : State → α → State} (step : ∀ s a, (f s a).walks = s.walks) (l : List α) (s : State) :
    (l.foldl f s).walks = s.walks :=
  foldl_ind (P := fun t => t.walks = s.walks) (fun t a h => (step t a).trans h) l rfl

theorem unfillMaps_walks (s : State) (w : Who) (n : Nat) (f : Bool) (p : StashMap → Bool) : (s.unfillMaps w n f p).walks = s.walks :=
  walks_foldl (fun s _ => walks_foldl (fun s _ => (under_writeBack s _ _).walks) _ s) _ s

theorem unfill_walks (s : State) (l : Byte) (b : Option Byte) (p : Tlb → Bool) : (s.unfill l b p).walks = s.walks :=
  walks_foldl (fun s _ => unfillMaps_walks s _ _ _ _) _ s

/-- What removing translations leaves of the walk cache. -/
theorem dropTlb_walks (s : State) (l : Byte) (b : Option Byte) (p : Tlb → Bool) :
    (s.dropTlb l b p).walks = s.walks.filter (fun e => !(e.lease == l && (b == none || b == e.sub))) :=
  unfill_walks _ l b p

theorem dropTlb_ctx (s : State) (l : Byte) (b : Option Byte) (p : Tlb → Bool) : (s.dropTlb l b p).ctx = s.ctx := (unfill_kept _ l b p).ctx

theorem dropTlb_lane (s : State) (l : Byte) (b : Option Byte) (p : Tlb → Bool) : (s.dropTlb l b p).lane = s.lane := (unfill_kept _ l b p).lane

end State

/-! ### A system instruction on a front end -/

theorem State.advance_ctx {s : State} (hl : s.lane = none) (n : Word) : (s.advance n).ctx = { s.ctx with pc := s.ctx.pc + n } := by
  have hpc : s.pc = s.ctx.pc := by
    unfold State.pc State.thread?
    rw [hl]
    rfl
  unfold State.advance
  rw [State.setPc_ctx hl, hpc]

theorem sendsTo_of_empty {c : Ctx} (h : c.vq = []) : c.sendsTo = [] := by
  unfold Ctx.sendsTo
  rw [h]
  rfl

theorem regOk_of_ctx {s : State} (h : s.lane = none) (r : XReg) : s.regOk r = true := by
  unfold State.regOk
  rw [h]
  rfl

theorem legal_front {s : State} (h : Claims.onFront s) (rs : List XReg) : legal .front rs s = .ok () := by
  obtain ⟨hl, hm, hq⟩ := h
  have hadmits : Legal.front.admits s = true := by
    unfold Legal.admits
    rw [hl, hm]
    rfl
  have hregs : rs.all s.regOk = true := List.all_eq_true.2 fun r _ => regOk_of_ctx hl r
  unfold legal
  rw [hadmits, hregs, sendsTo_of_empty hq, Bool.and_self, check_true, if_neg (by simp)]
  rfl

theorem drained_of_empty {s : State} (h : s.ctx.vq = []) : drained s = .ok () := by
  unfold drained
  rw [h]
  exact if_pos (Bool.or_true _)

theorem check_of {b : Bool} {s : State} {c : Nat} {v : Word} (h : b = true) : check b s c v = .ok () := by rw [h, check_true]

theorem check_fails {b : Bool} {s : State} {c : Nat} {v : Word} (h : b ≠ true) : check b s c v = .error (.trap s (.scalar c v)) := if_neg h

/-! ### The four forms -/

/-- Whose translations a form names (R174): one sublease of the issuer's lease, or all of a lease. -/
def removalTarget (one : Bool) (lease n : Byte) : Byte × Option Byte := if one then (lease, some n) else (n, none)

/-- The target of a form exists. -/
def State.targetKnown (s : State) (one : Bool) (n : Byte) : Bool := if one then (s.sub? s.ctx.lease n).isSome else (s.lease? n).isSome

/-- Every form is the same operation on its fields (R174). -/
theorem exec_tlbinv {s : State} {i : Instr} {lvl : Nat} {one : Bool} {b : XReg} {p : Tlb → Prop} (hi : Claims.tlbForm s i = some (lvl, one, b, p))
    (hs : Claims.onFront s) :
    ∃ q : Tlb → Bool, (∀ e, q e = true ↔ p e) ∧
      let n : Byte := (s.getX b).setWidth 8
      let x := removalTarget one s.ctx.lease n
      exec i s = settle (do
        check (decide (lvl ≤ s.ctx.level)) s 0x03 s.enc
        check (s.targetKnown one n) s 0x02 (s.getX b)
        if s.busy x.1 x.2 then waits s else .ok ((s.dropTlb x.1 x.2 q).advance 4)) := by
  have form1 (b : XReg) (rs : List XReg) (q : Tlb → Bool) : settle (tlbinv1 b rs q s) = settle (do
      check (decide (2 ≤ s.ctx.level)) s 0x03 s.enc
      check (s.targetKnown true ((s.getX b).setWidth 8)) s 0x02 (s.getX b)
      if s.busy s.ctx.lease (some ((s.getX b).setWidth 8)) then waits s
      else .ok ((s.dropTlb s.ctx.lease (some ((s.getX b).setWidth 8)) q).advance 4)) := by
    unfold tlbinv1
    rw [legal_front hs, drained_of_empty hs.2.2]
    rfl
  have form2 (b : XReg) (rs : List XReg) (q : Tlb → Bool) : settle (tlbinv2 b rs q s) = settle (do
      check (decide (3 ≤ s.ctx.level)) s 0x03 s.enc
      check (s.targetKnown false ((s.getX b).setWidth 8)) s 0x02 (s.getX b)
      if s.busy ((s.getX b).setWidth 8) none then waits s
      else .ok ((s.dropTlb ((s.getX b).setWidth 8) none q).advance 4)) := by
    unfold tlbinv2
    rw [legal_front hs, drained_of_empty hs.2.2]
    rfl
  unfold Claims.tlbForm at hi
  split at hi
  · cases hi
    exact ⟨_, fun e => by unfold Tlb.covers; exact beq_iff_eq, form1 _ _ _⟩
  · cases hi
    exact ⟨_, fun e => iff_of_true rfl trivial, form1 _ _ _⟩
  · cases hi
    exact ⟨_, fun e => by unfold Tlb.covers2; exact beq_iff_eq, form2 _ _ _⟩
  · cases hi
    exact ⟨_, fun e => iff_of_true rfl trivial, form2 _ _ _⟩
  · cases hi

/-- An engine operation of the target keeps it busy (R268). -/
theorem busy_of_op {s : State} {o : EngineOp} {l : Byte} {b : Option Byte} (ho : o ∈ s.ops) (hl : o.lease = l) (hb : b = none ∨ b = some o.sub) :
    s.busy l b = true := by
  have h : (s.ops.any fun o => o.lease == l && (b == none || b == some o.sub)) = true :=
    List.any_eq_true.2 ⟨o, ho, by rw [hl]; simpa using hb⟩
  unfold State.busy
  dsimp only
  rw [h]
  rfl

section removal
variable {s : State} {one : Bool} {n : Byte}

/-- A translation is the target's, as the model tests it. -/
theorem tlb_mine (lease : Byte) (e : Tlb) :
    (e.lease == (removalTarget one lease n).1 && ((removalTarget one lease n).2 == none || (removalTarget one lease n).2 == some e.sub)) = true ↔
      if one then e.lease = lease ∧ e.sub = n else e.lease = n := by
  unfold removalTarget
  cases one
  · simp
  · simp [eq_comm (a := n)]

theorem walk_mine (lease : Byte) (e : WalkEntry) :
    (e.lease == (removalTarget one lease n).1 && ((removalTarget one lease n).2 == none || (removalTarget one lease n).2 == e.sub)) = true ↔
      if one then e.lease = lease ∧ e.sub = some n else e.lease = n := by
  unfold removalTarget
  cases one
  · simp
  · simp [eq_comm (a := some n)]

theorem targetKnown_iff : s.targetKnown one n = true ↔ if one then (s.sub? s.ctx.lease n).isSome = true else (s.lease? n).isSome = true := by
  unfold State.targetKnown
  cases one <;> rfl

/-- Which translations stand after a removal. -/
theorem mem_dropTlb_iff (lease : Byte) (q : Tlb → Bool) (e : Tlb) :
    e ∈ (s.dropTlb (removalTarget one lease n).1 (removalTarget one lease n).2 q).tlb ↔
      e ∈ s.tlb ∧ ¬ ((if one then e.lease = lease ∧ e.sub = n else e.lease = n) ∧ q e = true) := by
  rw [State.dropTlb_tlb, List.mem_filter, Bool.not_eq_true', ← Bool.not_eq_true, Bool.and_eq_true, tlb_mine]

theorem mem_walks_dropTlb_iff (lease : Byte) (q : Tlb → Bool) (e : WalkEntry) :
    e ∈ (s.dropTlb (removalTarget one lease n).1 (removalTarget one lease n).2 q).walks ↔
      e ∈ s.walks ∧ ¬ (if one then e.lease = lease ∧ e.sub = some n else e.lease = n) := by
  rw [State.dropTlb_walks, List.mem_filter, Bool.not_eq_true', ← Bool.not_eq_true, walk_mine]

end removal

end Sys2Proof.Machine

open Sys2Proof Sys2Proof.Machine in
/-- Settles O15: every form is one operation on its fields, and what it removes is a filter of the cached translations. -/
theorem translationRemoval : Obligations.TranslationRemoval := by
  intro i lvl one b p s hi hs n mine known
  obtain ⟨q, hq, hx⟩ := exec_tlbinv hi hs
  dsimp only at hx
  refine ⟨fun h => ?_, fun h hk => ?_, fun h hk ho => ?_, fun h hk hb => ?_⟩
  · rw [hx, check_fails (by simpa using h)]
    rfl
  · rw [hx, check_of (decide_eq_true h), check_fails (mt targetKnown_iff.1 hk)]
    rfl
  · obtain ⟨o, ho, hm⟩ := ho
    have hbusy : s.busy (removalTarget one s.ctx.lease n).1 (removalTarget one s.ctx.lease n).2 = true := by
      cases one
      · exact busy_of_op ho hm (.inl rfl)
      · exact busy_of_op ho hm.1 (.inr (congrArg some hm.2.symm))
    rw [hx, check_of (decide_eq_true h), check_of (targetKnown_iff.2 hk)]
    dsimp only [bind, Except.bind]
    rw [if_pos hbusy]
    rfl
  · have hidle : s.busy (removalTarget one s.ctx.lease n).1 (removalTarget one s.ctx.lease n).2 = false := by
      cases one <;> exact hb
    refine ⟨(s.dropTlb (removalTarget one s.ctx.lease n).1 (removalTarget one s.ctx.lease n).2 q).advance 4, ?_, fun e he => ?_, fun e he hm => ?_, fun e he => ?_, fun e he => ?_, ?_, ?_⟩
    · rw [hx, check_of (decide_eq_true h), check_of (targetKnown_iff.2 hk)]
      dsimp only [bind, Except.bind]
      rw [if_neg (by rw [hidle]; decide)]
      rfl
    · rw [State.advance_tlb, mem_dropTlb_iff, hq] at he
      exact he.2
    · rw [State.advance_tlb, mem_dropTlb_iff]
      exact ⟨he, fun h => hm h.1⟩
    · rw [State.advance_tlb, mem_dropTlb_iff] at he
      exact he.1
    · rwa [State.advance_walks, mem_walks_dropTlb_iff] at he
    · rw [State.advance_mem, State.dropTlb_mem]
    · rw [State.advance_ctx ((State.dropTlb_lane _ _ _ _).trans hs.1), State.dropTlb_ctx]

/-! ## Atomics and compare-and-swap (R168, R169, O11)

Where its access has arrived, an atomic reads the old value and, if its function gives one, writes the new value there
(`State.atomic_keeps`, `State.atomic_writes`). All eight atomics are one instruction on the operation (`exec_amo`); `cas` is the same
with a function that may refuse. -/

namespace Sys2Proof.Machine

/-! ### The eight operations -/

theorem sextN_eq_toInt (w v : Nat) : sextN w v = (BitVec.ofNat w v).toInt := by
  unfold sextN
  rw [BitVec.toInt_eq_toNat_cond, BitVec.toNat_ofNat]
  dsimp only
  split <;> push_cast <;> rfl

/-- The model's operations on numbers are those on words (R168, R221). -/
theorem amoFn_eq_amoBits (op : AmoOp) {w old x : Nat} (ho : old < 2 ^ w) (hx : x < 2 ^ w) :
    amoFn op w old x = (Claims.amoBits op (BitVec.ofNat w old) (BitVec.ofNat w x)).toNat := by
  have hold : (BitVec.ofNat w old).toNat = old := (BitVec.toNat_ofNat _ _).trans (Nat.mod_eq_of_lt ho)
  have hnew : (BitVec.ofNat w x).toNat = x := (BitVec.toNat_ofNat _ _).trans (Nat.mod_eq_of_lt hx)
  unfold amoFn Claims.amoBits
  simp only [sextN_eq_toInt, decide_eq_true_eq]
  cases op with
  | swap => exact hnew.symm
  | add => rw [BitVec.toNat_add, hold, hnew]
  | and => rw [BitVec.toNat_and, hold, hnew]
  | or => rw [BitVec.toNat_or, hold, hnew]
  | xor => rw [BitVec.toNat_xor, hold, hnew]
  | min =>
    dsimp only
    rcases lt_trichotomy (BitVec.ofNat w old).toInt (BitVec.ofNat w x).toInt with h | h | h
    · rw [if_pos h, if_pos h.le, hold]
    · rw [if_neg h.not_lt, if_pos h.le, BitVec.eq_of_toInt_eq h, hnew]
    · rw [if_neg h.le.not_gt, if_neg h.not_ge, hnew]
  | max =>
    dsimp only
    by_cases h : (BitVec.ofNat w old).toInt < (BitVec.ofNat w x).toInt
    · rw [if_pos h, if_neg h.not_ge, hnew]
    · rw [if_neg h, if_pos (not_lt.1 h), hold]
  | maxu =>
    dsimp only
    rw [hold, hnew]
    by_cases h : old < x
    · rw [if_pos h, if_neg h.not_ge, hnew]
    · rw [if_neg h, if_pos (not_lt.1 h), hold]

theorem amoNew_eq_amoBits (op : AmoOp) (old x : Word) : Claims.amoNew op old x = Claims.amoBits op old x := by cases op <;> rfl

theorem amoFn_word (op : AmoOp) {old : Nat} (ho : old < 2 ^ 64) (x : Word) :
    amoFn op 64 old x.toNat = (Claims.amoNew op (word old) x).toNat := by
  rw [amoFn_eq_amoBits op ho x.isLt, amoNew_eq_amoBits, BitVec.ofNat_toNat, BitVec.setWidth_eq]
  rfl

/-! ### The state a release and an access leave -/

namespace Kept
variable {s t : State} (h : Kept s t)
include h

theorem laneReg (r : XReg) : t.laneReg r = s.laneReg r := by
  unfold State.laneReg
  rw [h.ctx]

theorem elem (v : VReg) (e : Nat) : t.elem v e = s.elem v e := by
  unfold State.elem Core.elem State.myCore State.plotOf
  rw [h.ctx, h.field]

theorem elemBad (v : VReg) (e : Nat) : t.myCore.elemBad (t.plotOf v) e = s.myCore.elemBad (s.plotOf v) e := by
  unfold Core.elemBad State.myCore State.plotOf
  rw [h.ctx, h.fieldErr]

/-- No register changes, of a context or of a lane thread. -/
theorem getX (r : XReg) : t.getX r = s.getX r := by
  have hp : ∀ v, t.plotOf v = s.plotOf v := fun v => by unfold State.plotOf; rw [h.ctx]
  unfold State.getX
  rw [h.lane, h.ctx]
  split
  · rfl
  · rw [h.laneReg]
    split
    · rfl
    · rw [h.elemBad, h.elem, hp]

theorem agent : t.agent = s.agent := by
  unfold State.agent
  rw [h.lane]

theorem writer (a : Agent) : t.writer a = s.writer a := by
  unfold State.writer
  rw [h.ctx]

end Kept

/-! ### One atomic access -/

namespace State
variable {s t u : State} {a : Agent} {sc : Scope} {va : Word} {n old : Nat} {r : Reached} {f : Nat → Option Nat}

theorem atomic_keeps (ha : s.access a .atomic sc va n .normal = .ok (r, t)) (hp : t.poisonedAt r.pa n = false)
    (hr : t.readAt a r.pa n = (old, u)) (hf : f old = none) : s.atomic a sc va n f = .ok (old, false, u) := by
  unfold atomic
  rw [ha]
  dsimp only [bind, Except.bind]
  rw [hp, if_neg Bool.false_ne_true, hr]
  dsimp only
  rw [hf]

theorem atomic_writes {v : Nat} (ha : s.access a .atomic sc va n .normal = .ok (r, t)) (hp : t.poisonedAt r.pa n = false)
    (hr : t.readAt a r.pa n = (old, u)) (hf : f old = some v) (hs : a.isScalar = false ∨ selectAt r.pa = none) :
    s.atomic a sc va n f =
      .ok (old, false, (u.touch s.ctx.who r.path (r.pa / 128) true true .normal).putBytes (s.writer a) r.pa (leBytes n v)) := by
  have hk : Kept s (u.touch s.ctx.who r.path (r.pa / 128) true true .normal) :=
    (kept_access ha).trans ((by have h := kept_readAt t a r.pa n; rwa [hr] at h : Kept t u).trans (kept_touch _ _ _ _ _ _ _))
  unfold atomic
  rw [ha]
  dsimp only [bind, Except.bind]
  rw [hp, if_neg Bool.false_ne_true, hr]
  dsimp only
  rw [hf]
  dsimp only
  rw [putAt_mem hs, hk.writer]
  rfl

/-- The selects lie in device space (R355). -/
theorem selectAt_device {pa : Nat} (h : isDeviceRegion pa = false) : selectAt pa = none := by
  have hw : isCounterWindow pa = false := by
    unfold isDeviceRegion at h
    exact (Bool.or_eq_false_iff.1 h).2
  unfold selectAt
  rw [hw]
  rfl

theorem agent_selectAt {pa : Nat} (h : ¬ Claims.inDevice s pa) : s.agent.isScalar = false ∨ selectAt pa = none := by
  rw [← agent_inDevice, Bool.not_eq_true, Bool.and_eq_false_iff] at h
  exact h.imp_right selectAt_device

theorem writer_agent (s : State) : s.writer s.agent = Claims.writerOf s := by
  unfold writer agent Claims.writerOf
  cases s.lane <;> rfl

end State

theorem leNat_lt (bs : List Byte) : leNat bs < 256 ^ bs.length := by
  induction bs with
  | nil => exact Nat.one_pos
  | cons b bs ih =>
    rw [leNat, List.length_cons, pow_succ]
    have := b.isLt
    omega

theorem num_lt (m : Memory) (h : m.wf = true) (pa n : Nat) : m.num pa n < 256 ^ n := by
  have hb := leNat_lt (m.bytes pa n)
  rw [Memory.bytes_eq h, List.length_map, List.length_range] at hb
  unfold Memory.num
  rwa [Memory.bytes_eq h]

/-- What eight bytes read as is a number of 64 bits. -/
theorem readAt_lt {t : State} (h : t.mem.wf = true) (a : Agent) (pa : Nat) : (t.readAt a pa 8).1 < 2 ^ 64 := by
  have hm (x : Nat) : x % 256 ^ 8 < 2 ^ 64 := (Nat.mod_lt _ (by decide)).trans_eq (by decide)
  unfold State.readAt
  split
  · dsimp only
    split
    · exact hm _
    · exact hm _
    · exact hm _
  · exact (num_lt t.mem h pa 8).trans_eq (by decide)

/-! ### The instructions -/

theorem drained_ok {s : State} (h : s.lane = none → s.ctx.vq = []) : drained s = .ok () := by
  refine if_pos ?_
  cases hl : s.lane with
  | none => simp [h hl]
  | some _ => rfl

theorem relScope_eq (r : AOrd) (q : Scope) : relScope r q = Claims.relAt r q := by cases r <;> rfl
theorem acqScope_eq (r : AOrd) (q : Scope) : acqScope r q = Claims.acqAt r q := by cases r <;> rfl

/-- Every form is the same operation on its fields (R168). -/
theorem exec_amo {i : Instr} {op : AmoOp} {d a b : XReg} {r : AOrd} {q : Scope} (h : Claims.amoForm i = some (op, d, a, b, r, q)) (s : State) :
    exec i s = settle (amo8 op d a b r q s) := by
  unfold Claims.amoForm at h
  split at h
  iterate 8 · cases h; rfl
  · cases h

section atomics
variable {s s0 t u : State} {p : State.Reached} {d a b : XReg} {r : AOrd} {q : Scope} {op : AmoOp} {old : Nat}

/-- An atomic's next state, where its access has arrived and old has been read. -/
theorem amo8_next (hregs : Claims.regsOk s [d, a, b]) (hq : s.lane = none → s.ctx.vq = []) (hw : s.mem.wf = true)
    (h0 : release (Claims.relAt r q) s = .ok s0) (ha : Claims.admitted s0 .atomic q (s.getX a) 8 p t) (hp : t.poisonedAt p.pa 8 = false)
    (hr : t.readAt s.agent p.pa 8 = (old, u)) (hs : s.agent.isScalar = false ∨ State.selectAt p.pa = none) :
    settle (amo8 op d a b r q s) =
      .next ((((Claims.written s u p (Claims.amoNew op (word old) (s.getX b))).setX d (word old)).advance 4).acquire (Claims.acqAt r q)) := by
  have hk := kept_release h0
  have hkt : Kept s t := hk.trans (State.kept_access ha)
  have hold : old < 2 ^ 64 := by
    have h := readAt_lt (hkt.mem ▸ hw) s.agent p.pa
    rwa [hr] at h
  unfold Claims.admitted at ha
  rw [hk.agent] at ha
  unfold amo8
  rw [legal_any hregs, drained_ok hq, relScope_eq, h0]
  dsimp only [bind, Except.bind]
  rw [hk.agent, hk.getX, hk.getX, State.atomic_writes (f := fun o => some (amoFn op 64 o (s.getX b).toNat)) ha hp hr rfl hs, amoFn_word op hold, hk.writer, State.writer_agent, hk.ctx, acqScope_eq]
  rfl

/-- `cas`: the new value is written where the comparand stands. -/
theorem cas8_next (hregs : Claims.regsOk s [d, d + 1, a, b]) (hq : s.lane = none → s.ctx.vq = []) (hw : s.mem.wf = true)
    (h0 : release (Claims.relAt r q) s = .ok s0) (ha : Claims.admitted s0 .atomic q (s.getX a + s.getX b) 8 p t) (hp : t.poisonedAt p.pa 8 = false)
    (hr : t.readAt s.agent p.pa 8 = (old, u)) (hs : s.agent.isScalar = false ∨ State.selectAt p.pa = none) :
    settle (cas8 d a b r q s) =
      .next ((((if word old = s.getX d then Claims.written s u p (s.getX (d + 1)) else u).setX d (word old)).advance 4).acquire (Claims.acqAt r q)) := by
  have hk := kept_release h0
  have hkt : Kept s t := hk.trans (State.kept_access ha)
  have hold : old < 2 ^ 64 := by
    have h := readAt_lt (hkt.mem ▸ hw) s.agent p.pa
    rwa [hr] at h
  have heq : word old = s.getX d ↔ old = (s.getX d).toNat := by
    rw [← BitVec.toNat_inj, word, BitVec.toNat_ofNat, Nat.mod_eq_of_lt hold]
  unfold Claims.admitted at ha
  rw [hk.agent] at ha
  unfold cas8 pairNext
  rw [legal_any hregs, drained_ok hq, relScope_eq, h0]
  dsimp only [bind, Except.bind]
  rw [hk.agent, hk.getX, hk.getX, hk.getX, hk.getX]
  by_cases h : old = (s.getX d).toNat
  · rw [State.atomic_writes ha hp hr (if_pos h) hs, if_pos (heq.2 h), hk.writer, State.writer_agent, hk.ctx, acqScope_eq]
    rfl
  · rw [State.atomic_keeps ha hp hr (if_neg h), if_neg (mt heq.1 h), acqScope_eq]
    rfl

end atomics

theorem readAt_value {s s0 t : State} {p : State.Reached} {k : Acc} {sc : Scope} {va : Word} {c : Option Scope} (hw : s.mem.wf = true)
    (h0 : release c s = .ok s0) (ha : Claims.admitted s0 k sc va 8 p t) (hd : ¬ Claims.inDevice s p.pa) :
    t.readAt s.agent p.pa 8 = (Claims.value s.mem p.pa 8, t) := by
  have hk : Kept s t := (kept_release h0).trans (State.kept_access ha)
  rw [readAt_memory hd, hk.mem, num_eq_value hw]

theorem readAt_free {s t : State} {pa : Nat} (h : Claims.inWindow s pa) : t.readAt s.agent pa 8 = (t.free.1.toNat, t.free.2) := by
  rw [readAt_window h, Nat.mod_eq_of_lt]
  exact t.free.1.isLt.trans_eq (by decide)

theorem word_toNat (v : Word) : word v.toNat = v := by
  unfold word
  rw [BitVec.ofNat_toNat, BitVec.setWidth_eq]

theorem atomicResult : Claims.AtomicResult := by
  intro i op p d a b r q s s0 t hi hregs hq hw h0 ha hp
  dsimp only
  rw [exec_amo hi]
  refine ⟨fun hd => ?_, fun hd => ?_⟩
  · exact amo8_next hregs hq hw h0 ha hp (readAt_value hw h0 ha hd) (State.agent_selectAt hd)
  · rw [amo8_next hregs hq hw h0 ha hp (readAt_free hd) (.inr hd.2.2), word_toNat]

theorem casResult : Claims.CasResult := by
  intro p n a b c r q s s0 t hregs hq hw h0 ha hp run out
  have hout {u : State} {v : Word} (h : run = .next ((((if v = s.getX n then Claims.written s u p (s.getX (n + 1)) else u).setX n v).advance 4).acquire
      (Claims.acqAt r q))) : out u v :=
    ⟨fun he => by rw [h, if_pos he], fun he => by rw [h, if_neg he]⟩
  refine ⟨fun hd => hout ?_, fun hd => hout ?_⟩
  · exact cas8_next hregs hq hw h0 ha hp (readAt_value hw h0 ha hd) (State.agent_selectAt hd)
  · have h := cas8_next hregs hq hw h0 ha hp (readAt_free hd) (.inr hd.2.2)
    rwa [word_toNat] at h

/-! ### The frame -/

namespace State

theorem ctx_foldl {α : Type} {f : State → α → State} (step : ∀ s a, (f s a).ctx = s.ctx) (l : List α) (s : State) : (l.foldl f s).ctx = s.ctx :=
  foldl_ind (P := fun t => t.ctx = s.ctx) (fun t a h => (step t a).trans h) l rfl

/-- A context's own write does not end its own wait (R161). -/
theorem notifyLine_ctx (s : State) (l : Nat) {w : Option CtxId} (h : w = some s.ctx.id) : (s.notifyLine w l).ctx = s.ctx := by
  unfold notifyLine
  dsimp only
  split
  · rfl
  · refine (ctx_foldl (f := fun s (k : Ctx) => s.post .waitevWake (.ctx k.id)) (fun _ _ => rfl) _ _).trans ?_
    unfold mapCtxs
    refine if_neg ?_
    rw [h]
    simp

theorem putBytes_ctx (s : State) {w : Option CtxId} (h : w = some s.ctx.id) (pa : Nat) (bs : List Byte) : (s.putBytes w pa bs).ctx = s.ctx := by
  have hpoison (s : State) (n : Nat) : (s.clearPoison pa n).ctx = s.ctx := by unfold clearPoison; split <;> rfl
  have hresv (s : State) (n : Nat) : (s.dropResv pa n).ctx = s.ctx := by unfold dropResv; split <;> rfl
  have hgath (s : State) (n : Nat) : (s.dropGathered pa n).ctx = s.ctx := by unfold dropGathered; split <;> rfl
  unfold putBytes
  dsimp only
  refine foldl_ind (P := fun t => t.ctx = s.ctx) (fun t l ht => (notifyLine_ctx t l (h.trans (by rw [ht]))).trans ht) _ ?_
  rw [hgath, hpoison, hresv]

theorem notifyLine_lane (s : State) (w : Option CtxId) (l : Nat) : (s.notifyLine w l).lane = s.lane := by
  unfold notifyLine
  dsimp only
  split
  · rfl
  · exact foldl_ind (f := fun (s : State) (k : Ctx) => s.post .waitevWake (.ctx k.id)) (P := fun t : State => t.lane = s.lane) (fun _ _ h => h) _ rfl

theorem putBytes_lane (s : State) (w : Option CtxId) (pa : Nat) (bs : List Byte) : (s.putBytes w pa bs).lane = s.lane := by
  have hpoison (s : State) (n : Nat) : (s.clearPoison pa n).lane = s.lane := by unfold clearPoison; split <;> rfl
  have hresv (s : State) (n : Nat) : (s.dropResv pa n).lane = s.lane := by unfold dropResv; split <;> rfl
  have hgath (s : State) (n : Nat) : (s.dropGathered pa n).lane = s.lane := by unfold dropGathered; split <;> rfl
  unfold putBytes
  dsimp only
  refine foldl_ind (P := fun t => t.lane = s.lane) (fun t l ht => (notifyLine_lane t w l).trans ht) _ ?_
  rw [hgath, hpoison, hresv]

end State

/-- What an atomic writes of memory lies within its eight bytes. -/
theorem written_byte {s u : State} (hw : u.mem.wf = true) (p : State.Reached) (v : Word) {x : Nat} (h : x < p.pa ∨ p.pa + 8 ≤ x) :
    (Claims.written s u p v).mem.byte x = u.mem.byte x := by
  have hm := (State.kept_touch u s.ctx.who p.path (p.pa / 128) true true .normal).mem
  unfold Claims.written
  rw [State.putBytes_mem, hm]
  exact Memory.byte_setBytes_of_outside hw (by simpa using h)

theorem written_ctx {s u : State} (hl : s.lane = none) (hc : u.ctx = s.ctx) (p : State.Reached) (v : Word) : (Claims.written s u p v).ctx = s.ctx := by
  have hk := State.kept_touch u s.ctx.who p.path (p.pa / 128) true true .normal
  unfold Claims.written
  rw [State.putBytes_ctx, hk.ctx, hc]
  unfold Claims.writerOf
  rw [if_pos hl, hk.ctx, hc]

theorem written_lane {s u : State} (p : State.Reached) (v : Word) : (Claims.written s u p v).lane = u.lane := by
  unfold Claims.written
  rw [State.putBytes_lane, (State.kept_touch _ _ _ _ _ _ _).lane]

theorem regsOk_of_context {s : State} (hl : s.lane = none) (hq : s.ctx.vq = []) (rs : List XReg) : Claims.regsOk s rs :=
  fun r _ => ⟨regOk_of_ctx hl r, fun _ => by rw [sendsTo_of_empty hq]; exact List.not_mem_nil⟩

/-- Of the context only xd and the pc change, and no byte that the state below kept. -/
theorem frame_into {s z u : State} {d : XReg} {v : Word} {c : Option Scope} (hl : z.lane = none) (hc : z.ctx = s.ctx)
    (he : u = ((z.setX d v).advance 4).acquire c) : (∀ x, u.mem.byte x = z.mem.byte x) ∧ Claims.ctxFrame (fun x => x = d ∧ d ≠ 0) s u := by
  subst he
  refine ⟨fun x => by rw [State.acquire_mem, State.advance_mem, State.setX_mem], ctxFrame_setX (v := v) (pc := ?_) ?_⟩
  · exact (z.setX d v).ctx.pc + 4
  · rw [(kept_acquire _ _).ctx, State.advance_ctx ((State.setX_lane _ _ _).trans hl), State.setX_ctx hl, hc]

theorem atomicFrame : Claims.AtomicFrame := by
  intro i p d va r q s s0 t u hi hl hq hw h0 ha hp hs he
  have hkt : Kept s t := (kept_release h0).trans (State.kept_access ha)
  have hkz : Kept s (t.readAt s.agent p.pa 8).2 := hkt.trans (State.kept_readAt _ _ _ _)
  have hr : t.readAt s.agent p.pa 8 = ((t.readAt s.agent p.pa 8).1, (t.readAt s.agent p.pa 8).2) := rfl
  have hframe {z : State} {v : Word} (hz : z.lane = none) (hc : z.ctx = s.ctx) (hm : ∀ x, x < p.pa ∨ p.pa + 8 ≤ x → z.mem.byte x = s.mem.byte x)
      (hu : u = ((z.setX d v).advance 4).acquire (Claims.acqAt r q)) :
      (∀ x, x < p.pa ∨ p.pa + 8 ≤ x → u.mem.byte x = s.mem.byte x) ∧ Claims.ctxFrame (fun x => x = d ∧ d ≠ 0) s u :=
    ⟨fun x hx => ((frame_into hz hc hu).1 x).trans (hm x hx), (frame_into hz hc hu).2⟩
  have hwritten (v w : Word) (hu : u = (((Claims.written s (t.readAt s.agent p.pa 8).2 p w).setX d v).advance 4).acquire (Claims.acqAt r q)) :=
    hframe ((written_lane p w).trans (hkz.lane.trans hl)) (written_ctx hl hkz.ctx p w)
      (fun x hx => by rw [written_byte (hkz.mem ▸ hw) p w hx, hkz.mem]) hu
  obtain ⟨op, a, b, hi, rfl⟩ | ⟨a, b, c, rfl, rfl⟩ := hi
  · rw [exec_amo hi, amo8_next (regsOk_of_context hl hq _) (fun _ => hq) hw h0 ha hp hr (.inr hs)] at he
    cases he
    exact hwritten _ _ rfl
  · have hcas := cas8_next (d := d) (regsOk_of_context hl hq _) (fun _ => hq) hw h0 ha hp hr (.inr hs)
    have he := hcas.symm.trans he
    by_cases h : word (t.readAt s.agent p.pa 8).1 = s.getX d
    · rw [if_pos h] at he
      cases he
      exact hwritten _ _ rfl
    · rw [if_neg h] at he
      cases he
      exact hframe (hkz.lane.trans hl) hkz.ctx (fun x _ => by rw [hkz.mem]) rfl

end Sys2Proof.Machine

/-- Settles O11: an atomic is one access that reads, and writes what its function gives. -/
theorem atomics : Obligations.Atomics := ⟨Sys2Proof.Machine.atomicResult, Sys2Proof.Machine.casResult, Sys2Proof.Machine.atomicFrame⟩

/-! ## Where errors strike (R316, R319, R321-R323, R329, O55) -/

namespace Sys2Proof.Machine

/-! ### Sets of words, and a list by key -/

theorem lookupN_eraseN {α : Type} (k : Nat) (l : List (Nat × α)) : lookupN k (eraseN k l) = none := by
  unfold eraseN
  induction l with
  | nil => rfl
  | cons p l ih =>
    by_cases h : p.1 = k
    · rw [List.filter_cons_of_neg (by simp [h]), ih]
    · rw [List.filter_cons_of_pos (by simp [h]), lookupN, if_neg h, ih]

theorem getLsbD_or_right {n : Nat} (x y : BitVec n) {i : Nat} (h : y.getLsbD i = true) : (x ||| y).getLsbD i = true := by
  rw [BitVec.getLsbD_or, h, Bool.or_true]

/-- All words of a line, whichever were destroyed before. -/
theorem or_allWords (x : BitVec 16) : x ||| 0xFFFF = BitVec.allOnes 16 := BitVec.or_allOnes

/-! ### Errors that strike DRAM, a cache or the Field -/

namespace State

theorem corruptDram_lookup (s : State) (line : Nat) (w : BitVec 16) :
    lookupN line (s.corruptDram line w).dramErr = some (((lookupN line s.dramErr).getD 0) ||| w) :=
  (lookupN_insertN _ _ _ _).trans (if_pos rfl)

/-- The words that an error destroys are marked (R322). -/
theorem mem_poisonLine (s : State) (line : Nat) (w : BitVec 16) {i : Nat} (hi : i < 16) (hw : w.getLsbD i = true) :
    line * 16 + i ∈ (s.poisonLine line w).poison := by
  unfold poisonLine
  simp only [List.mem_append, List.mem_filter, List.mem_map, List.mem_range]
  by_cases h : line * 16 + i ∈ s.poison
  · exact .inr h
  · exact .inl ⟨⟨i, ⟨hi, hw⟩, rfl⟩, by simp [h]⟩

theorem strike_mem (s : State) (core line : Nat) (w : BitVec 16) (dirty : Bool) : (s.strike core line w dirty).mem = s.mem := by
  unfold strike
  split
  · exact (kept_writeBack s _ line).mem
  · rfl

theorem strike_core (s : State) (core line : Nat) (w : BitVec 16) (dirty : Bool) (n : Nat) : (s.strike core line w dirty).core n = s.core n := by
  unfold strike
  split
  · exact congrArg (fun l => (lookupN n l).getD core0) (under_writeBack s _ line).cores
  · rfl

theorem strike_dirty (s : State) (core line : Nat) (w : BitVec 16) {i : Nat} (hi : i < 16) (hw : w.getLsbD i = true) :
    line * 16 + i ∈ (s.strike core line w true).poison := mem_poisonLine _ line w hi hw

/-! ### A context that is lost -/

theorem find?_updateWhere_same {α : Type} {p q : α → Bool} {f : α → α} (h : ∀ a, p (if q a then f a else a) = p a) (l : List α) :
    (updateWhere q f l).find? p = (l.find? p).map (fun a => if q a then f a else a) := by
  unfold updateWhere
  rw [List.find?_map]
  congr 2
  funext a
  exact h a

/-- Contexts change, and neither which they are nor whether they stand in the machine. -/
theorem findCtx_mapCtxs {s : State} {q : Ctx → Bool} {f : Ctx → Ctx} (h : ∀ k, q k = true → (f k).id = k.id ∧ (f k).present = k.present) (c : CtxId) :
    (s.mapCtxs q f).findCtx c = (s.findCtx c).map (fun k => if q k then f k else k) := by
  have hl : (s.mapCtxs q f).ctxs = updateWhere q f s.ctxs := rfl
  unfold findCtx
  rw [hl]
  refine find?_updateWhere_same (fun k => ?_) _
  by_cases hq : q k = true
  · rw [if_pos hq, (h k hq).1, (h k hq).2]
  · rw [if_neg hq]

theorem findCtx_post (s : State) (i : Instr) (a : EventArg) (c : CtxId) : (s.post i a).findCtx c = s.findCtx c := rfl

theorem findCtx_some {s : State} {c : CtxId} {k : Ctx} (h : s.findCtx c = some k) : k.id = c ∧ k.present = true := by
  unfold findCtx at h
  simpa using List.find?_some h

theorem findCtx_arrange (s : State) (n : Nat) (c : CtxId) : (s.arrange n).findCtx c = s.findCtx c := by
  unfold arrange
  split <;> rfl

theorem findCtx_endPass (s : State) (a c : CtxId) : ((s.endPass a).findCtx c).map Ctx.phase = (s.findCtx c).map Ctx.phase := by
  unfold endPass
  rw [findCtx_mapCtxs (f := fun j : Ctx => { j with passed := false }) (fun k _ => ⟨rfl, rfl⟩), Option.map_map]
  congr 1
  funext k
  exact (apply_ite Ctx.phase _ _ _).trans (ite_self _)

theorem updCtx_drains {s : State} {c : CtxId} (h : (s.findCtx c).isSome = true) {f : Ctx → Ctx}
    (hf : ∀ k, (f k).id = k.id ∧ (f k).phase = .draining) : ((s.updCtx c f).findCtx c).map Ctx.phase = some .draining := by
  obtain ⟨k, hk⟩ := Option.isSome_iff_exists.1 h
  have hstands (j : Ctx) (hj : (j.id == c && j.present) = true) : (f j).id = j.id ∧ (f j).present = j.present :=
    ⟨(hf j).1, by rw [(Bool.and_eq_true_iff.1 hj).2, Ctx.present, (hf j).2]⟩
  unfold updCtx
  rw [findCtx_mapCtxs hstands, hk, Option.map_some, if_pos (by simp [findCtx_some hk]), Option.map_some, (hf k).2]

/-- A context that ends drains (R301). -/
theorem findCtx_endCtx {s : State} {c : CtxId} (h : (s.findCtx c).isSome = true) : ((s.endCtx c).findCtx c).map Ctx.phase = some .draining := by
  unfold endCtx
  dsimp only
  rw [findCtx_post]
  split
  · exact updCtx_drains h fun _ => ⟨rfl, rfl⟩
  · exact ((congrArg _ (findCtx_arrange _ _ _)).trans (findCtx_endPass _ _ _)).trans (updCtx_drains h fun _ => ⟨rfl, rfl⟩)

theorem findCtx_endNotice (s : State) (k : Ctx) (n : Nat) (own : Bool) (v : Word) (c : CtxId) : (s.endNotice k n own v).findCtx c = s.findCtx c := by
  unfold endNotice
  dsimp only
  split <;> rfl

theorem findCtx_abortColls (s : State) (p : Coll → Bool) (c : CtxId) : (s.abortColls p).findCtx c = s.findCtx c :=
  foldl_ind (f := fun (s : State) (c : Coll) => s.post .collectiveAbort (.op c.id)) (P := fun t : State => t.findCtx c = s.findCtx c)
    (fun _ _ h => h) _ rfl

theorem findCtx_terminate {s : State} {k : Ctx} {c : CtxId} (h : s.findCtx c = some k) (n : Nat) (own : Bool) (v : Word) :
    ((s.terminate k n own v).findCtx c).map Ctx.phase = some .draining := by
  unfold terminate
  rw [findCtx_abortColls, (findCtx_some h).1]
  exact findCtx_endCtx (by rw [findCtx_endNotice, h]; rfl)

theorem lost_mem (s : State) (c : CtxId) : (s.lost c).mem = s.mem := by
  unfold lost
  split
  · rfl
  · split
    · rfl
    · exact terminate_mem _ _ _ _ _

/-- What loses a register, mask, front or plot entry is terminated (R321). -/
theorem lost_drains {s : State} {c : CtxId} (h : (s.findCtx c).isSome = true) : ∃ j, (s.lost c).findCtx c = some j ∧ j.phase = .draining := by
  obtain ⟨k, hk⟩ := Option.isSome_iff_exists.1 h
  unfold lost
  rw [hk]
  dsimp only
  split
  · next hp => exact ⟨k, hk, beq_iff_eq.1 hp⟩
  · exact Option.map_eq_some_iff.1 (findCtx_terminate hk _ _ _)

/-! ### Scrubbing -/

theorem addBox_last (s : State) (h d : Word) :
    (s.addBox h d).1.reeve.box.getLast? = some { seq := s.reeve.boxNext, time := s.time, header := h, detail := d } := by
  unfold addBox
  simp

/-- A read of a line that DRAM has lost: the error is taken out of DRAM, and marks stand in its place (R322). -/
theorem dramScan_found {s : State} {line : Nat} {x : BitVec 16} (h : lookupN line s.dramErr = some x) :
    s.dramScan line = ({ s with dramErr := eraseN line s.dramErr, latent := insertN line (((lookupN line s.latent).getD 0) ||| x) s.latent } : State).post
      .pageRetire (.addr (BitVec.ofNat 48 (line * 128 / 65536 * 65536))) := by
  unfold dramScan
  rw [h]

theorem scrubWay_dirty {s : State} {d : BitVec 2} {y : L2Way} {i : Nat} (hy : s.l2Find d (y.superblock * 4 + i) = some y)
    (hb : y.bad.any (fun b => b.1 == (y.superblock * 4 + i) % 4) = true) (hd : y.dirty.getLsbD ((y.superblock * 4 + i) % 4) = true) :
    s.scrubWay d y i = s.post .dirtyL2UeContainment (.way d (BitVec.ofNat 8 y.slice) (BitVec.ofNat 5 y.set) (BitVec.ofNat 4 y.way) (BitVec.ofNat 2 i)) := by
  have hdet : s.l2Detect d (y.superblock * 4 + i) = (s, some y) := by
    unfold l2Detect
    rw [hy]
    dsimp only
    rw [hb, hd]
    rfl
  unfold scrubWay
  rw [hdet]

theorem scrubWay_clean {s : State} {d : BitVec 2} {y : L2Way} {i : Nat} (hy : s.l2Find d (y.superblock * 4 + i) = some y)
    (hb : y.bad.any (fun b => b.1 == (y.superblock * 4 + i) % 4) = true) (hd : y.dirty.getLsbD ((y.superblock * 4 + i) % 4) = false) :
    ∃ f, s.scrubWay d y i = ((s.l2Mod d y f).addBox (header 5 0 0 0 0xFFFFF) (word ((y.superblock * 4 + i) * 128))).1 := by
  unfold scrubWay l2Detect
  rw [hy]
  dsimp only
  rw [hb, hd]
  exact ⟨_, rfl⟩

/-! ### Injection -/

theorem injected_errinj (s : State) (d : BitVec 2) (v : Word) (o : Option (Byte × Byte)) : ((s.injected d v o).die d).errinj.getLsbD 63 = false := by
  have h : ((s.injected d v o).die d).errinj = v &&& 0x7FFFFFFFFFFFFFFF :=
    congrArg Die.errinj (die_modDie_same s d fun x => { x with errinj := v &&& 0x7FFFFFFFFFFFFFFF })
  rw [h, BitVec.getLsbD_and]
  exact Bool.and_false _

theorem injected_l2 (s : State) (d : BitVec 2) (v : Word) (o : Option (Byte × Byte)) : ((s.injected d v o).die d).l2 = (s.die d).l2 :=
  (congrArg Die.l2 (die_modDie_same s d fun x => { x with errinj := v &&& 0x7FFFFFFFFFFFFFFF }) :)

/-- The way that an error strikes keeps its place, and the line's words are lost. -/
theorem corruptLine_way {s : State} {d : BitVec 2} {y : L2Way} (h : y ∈ (s.die d).l2) (i : Nat) (w : BitVec 16) :
    ∃ z ∈ ((s.corruptLine d y i w).die d).l2, z.way = y.way ∧ z.dirty = y.dirty ∧ lookupN i z.bad = some (((lookupN i y.bad).getD 0) ||| w) := by
  refine ⟨{ y with bad := (i, ((lookupN i y.bad).getD 0) ||| w) :: y.bad.filter (fun b => b.1 != i) }, ?_, rfl, rfl, if_pos rfl⟩
  unfold corruptLine
  rw [die_modDie_same]
  exact List.mem_map.2 ⟨y, h, if_pos (beq_self_eq_true y)⟩

section perform
variable {s : State} {d : BitVec 2}

/-- An injection's fields, as the model cuts them out (R329). -/
theorem field_of_extract {e : Word} {hi lo n k : Nat} (hn : n = hi + 1 - lo) (h : (e.extractLsb' lo n).toNat = k) : bits e hi lo = k := by
  subst hn
  rw [bits_eq_extract, h]

theorem performInjection_unarmed (h : (s.die d).errinj.getLsbD 63 = false) : s.performInjection d = s := by
  unfold performInjection bitAt
  dsimp only
  rw [h]
  rfl

variable (ha : (s.die d).errinj.getLsbD 63 = true)
include ha

theorem performInjection_absent (hk : bits (s.die d).errinj 62 60 = 0) (hl : s.l2Find d (bits (s.die d).errinj 47 7) = none) :
    s.performInjection d = s := by
  unfold performInjection bitAt
  dsimp only
  rw [ha, hk, hl]
  rfl

theorem performInjection_way (hk : bits (s.die d).errinj 62 60 = 0) (hs : bits (s.die d).errinj 59 58 = 1) {y : L2Way}
    (hl : s.l2Find d (bits (s.die d).errinj 47 7) = some y) :
    s.performInjection d = (s.corruptLine d y (bits (s.die d).errinj 47 7 % 4) 0xFFFF).injected d (s.die d).errinj ((s.die d).ownerOf (y.way / 4)) := by
  unfold performInjection bitAt
  dsimp only
  rw [ha, hk, hl, hs]
  rfl

theorem performInjection_dram (hk : bits (s.die d).errinj 62 60 = 1) (hs : bits (s.die d).errinj 59 58 = 1) :
    s.performInjection d = (s.corruptDram (bits (s.die d).errinj 47 7) 0xFFFF).injected d (s.die d).errinj none := by
  unfold performInjection bitAt
  dsimp only
  rw [ha, hk, hs]
  rfl

end perform

end State

/-! ### The events -/

section events
variable {s : State} {a : BitVec 48} {w : BitVec 16} {c : BitVec 8}

theorem exec_error_dram (h : s.arg = .error (.dram a w)) : exec .uncorrectableError s =
    if isDram a.toNat then .next (s.corruptDram (a.toNat / 128) w) else .fault (.noDram a.toNat) := by
  show execUncorrectableError s = _
  unfold execUncorrectableError
  rw [h]

theorem exec_error_l1 (h : s.arg = .error (.l1 c a w)) {q : L1Line} (hq : (s.core c.toNat).l1.find? (fun q => q.line == a.toNat / 128) = some q) :
    exec .uncorrectableError s = .next ((s.setCore c.toNat { s.core c.toNat with
      l1 := (s.core c.toNat).l1.filter (fun r => r.line != a.toNat / 128) }).strike c.toNat (a.toNat / 128) w q.dirty) := by
  show execUncorrectableError s = _
  unfold execUncorrectableError
  rw [h]
  dsimp only
  rw [hq]

/-- A mapping without its copies of a line (R322). -/
def dropLine (line : Nat) (m : StashMap) : StashMap := { m with lines := m.lines.filter (fun l => m.physLine l != line) }

/-- A mapping of the core holds a dirty copy of the line. -/
def Core.stashDirty (x : Core) (line : Nat) : Bool :=
  (x.fe0.maps ++ x.fe1.maps).any (fun m => m.lines.any (fun l => m.physLine l == line && l.dirty))

theorem exec_error_stash (h : s.arg = .error (.stash c a w)) :
    exec .uncorrectableError s = .next ((s.setCore c.toNat (State.modMaps (s.core c.toNat) (dropLine (a.toNat / 128)))).strike c.toNat (a.toNat / 128) w
      ((s.core c.toNat).stashDirty (a.toNat / 128))) := by
  show execUncorrectableError s = _
  unfold execUncorrectableError
  rw [h]
  rfl

/-- A cell of the Field has an error, and keeps it until it is written (R321). -/
def Core.breakCell (x : Core) (i : Nat) : Core := { x with fieldErr := if x.fieldErr.contains i then x.fieldErr else i :: x.fieldErr }

theorem mem_breakCell (x : Core) (i : Nat) : i ∈ (x.breakCell i).fieldErr := by
  unfold Core.breakCell
  dsimp only
  split
  · next hc => exact List.contains_iff_mem.1 hc
  · exact List.mem_cons_self

theorem exec_error_field {row : Byte} {col : BitVec 9} (h : s.arg = .error (.field c row col)) :
    exec .uncorrectableError s = .next (s.modCore c.toNat (fun x => x.breakCell (cellIndex row.toNat col.toNat))) := by
  show execUncorrectableError s = _
  unfold execUncorrectableError
  rw [h]
  rfl

theorem exec_error_lost {k : CtxId} {x : ErrTarget} {q : XReg} {m : MReg} {f : FReg} {v : VReg}
    (hx : x = .xreg k q ∨ x = .mask k m ∨ x = .front k f ∨ x = .plot k v) (h : s.arg = .error x) :
    exec .uncorrectableError s = .next (s.lost k) := by
  show execUncorrectableError s = _
  unfold execUncorrectableError
  rw [h]
  obtain rfl | rfl | rfl | rfl := hx <;> rfl

theorem exec_patrol_addr (h : s.arg = .addr a) : exec .dramPatrolScrub s =
    if isDram a.toNat then .next (s.dramScan (a.toNat / 128)) else .fault (.noDram a.toNat) := by
  show execDramPatrolScrub s = _
  unfold execDramPatrolScrub
  rw [h]

theorem exec_retire_outside (h : s.arg = .addr a) (hd : isDram a.toNat = false) : exec .pageRetire s = .fault (.noDram a.toNat) := by
  show execPageRetire s = _
  unfold execPageRetire
  rw [h]
  dsimp only
  rw [hd]
  rfl

/-- A slice scrub of one way's line, or of none. -/
theorem exec_scrub_way (h : ∀ d, s.arg ≠ .die d) : exec .l2SliceScrub s =
    match s.argWay with
    | none => .next s
    | some (d, y, i) => .next (s.scrubWay d y i) := by
  show execL2SliceScrub s = _
  unfold execL2SliceScrub
  split
  · next d hd => exact absurd hd (h d)
  · rfl

theorem argWay_not_die {x : BitVec 2 × L2Way × Nat} (h : s.argWay = some x) (d : BitVec 2) : s.arg ≠ .die d := by
  intro hd
  unfold State.argWay at h
  rw [hd] at h
  cases h

theorem exec_inject {d : BitVec 2} (h : s.arg = .die d) : exec .errinjPerform s = .next (s.performInjection d) := by
  show execErrinjPerform s = _
  unfold execErrinjPerform
  rw [h]

/-- No mapping of the core keeps the line. -/
theorem modMaps_dropLine (x : Core) (line : Nat) (f : Bool) : ∀ m ∈ ((State.modMaps x (dropLine line)).fe f).maps, ∀ l ∈ m.lines, m.physLine l ≠ line := by
  have hdrop (ms : List StashMap) : ∀ m ∈ ms.map (dropLine line), ∀ l ∈ m.lines, m.physLine l ≠ line := by
    intro m hm l hl
    obtain ⟨m, -, rfl⟩ := List.mem_map.1 hm
    exact bne_iff_ne.1 (List.mem_filter.1 hl).2
  cases f
  · exact hdrop _
  · exact hdrop _

theorem stashDirty_iff {x : Core} {line : Nat} :
    x.stashDirty line = true ↔ ∃ f, ∃ m ∈ (x.fe f).maps, ∃ l ∈ m.lines, m.physLine l = line ∧ l.dirty = true := by
  unfold Core.stashDirty
  simp only [List.any_append, Bool.or_eq_true, List.any_eq_true, Bool.and_eq_true, beq_iff_eq, Bool.exists_bool]
  rfl

end events

end Sys2Proof.Machine

open Sys2Proof Sys2Proof.Machine in
/-- Settles O55: each event's next state is written out, and what it changes is read off. -/
theorem errorsStrike : Obligations.ErrorsStrike := by
  intro s a w c k d line
  refine ⟨fun h hd => ?_, fun h hd => ?_, fun q h hq => ?_, fun h => ?_, fun row col h => ?_, fun x q m f v hx h hk => ?_, fun h hd => ?_,
    fun h hd => ⟨fun hl => ?_, fun x hl => ?_⟩, fun h hd => ?_, fun y i h hy _ hb => ⟨fun hd => ?_, fun hd => ?_⟩, fun h => ?_⟩
  · rw [exec_error_dram h, hd]
    exact ⟨_, rfl, rfl, rfl, _, s.corruptDram_lookup line w, fun i hi => getLsbD_or_right _ _ hi⟩
  · rw [exec_error_dram h, hd]
    rfl
  · refine ⟨_, exec_error_l1 h hq, fun r hr => ?_, State.strike_mem _ _ _ _ _, fun hd i hi hw => ?_, fun hd => ?_⟩
    · rw [State.strike_core, State.core_setCore] at hr
      exact bne_iff_ne.1 (List.mem_filter.1 hr).2
    · rw [hd]
      exact State.strike_dirty _ _ line w hi hw
    · rw [hd]
      rfl
  · refine ⟨_, exec_error_stash h, State.strike_mem _ _ _ _ _, fun f => ?_, fun hdirty i hi hw => ?_⟩
    · rw [State.strike_core, State.core_setCore]
      exact modMaps_dropLine _ line f
    · rw [stashDirty_iff.2 hdirty]
      exact State.strike_dirty _ _ line w hi hw
  · refine ⟨_, exec_error_field h, ?_, rfl, ?_⟩
    · unfold State.modCore
      rw [State.core_setCore]
      exact mem_breakCell _ _
    · unfold State.modCore
      rw [State.core_setCore]
      rfl
  · obtain ⟨j, hj, hp⟩ := State.lost_drains hk
    exact ⟨_, j, exec_error_lost hx h, hj, hp, s.lost_mem k⟩
  · rw [exec_patrol_addr h, hd]
    exact ⟨rfl, exec_retire_outside h hd⟩
  · have hscan : s.dramScan line = s := by
      unfold State.dramScan
      rw [hl]
    rw [exec_patrol_addr h, hd, if_pos rfl, hscan]
  · refine ⟨s.dramScan line, ((lookupN line s.latent).getD 0) ||| x, ?_, ?_⟩
    · rw [exec_patrol_addr h, hd, if_pos rfl]
    · rw [State.dramScan_found hl]
      exact ⟨lookupN_eraseN line _, rfl, rfl, (lookupN_insertN _ _ _ _).trans (if_pos rfl), fun i hi => getLsbD_or_right _ _ hi,
        List.mem_append_right _ (List.mem_singleton_self _)⟩
  · rw [exec_scrub_way hd, h]
  · refine ⟨s.scrubWay d y i, ?_, ?_⟩
    · rw [exec_scrub_way (argWay_not_die h), h]
    · rw [State.scrubWay_dirty hy hb hd]
      exact ⟨rfl, _, List.mem_append_right _ (List.mem_singleton_self _)⟩
  · obtain ⟨g, hg⟩ := State.scrubWay_clean hy hb hd
    have hlast := (s.l2Mod d y g).addBox_last (State.header 5 0 0 0 0xFFFFF) (word ((y.superblock * 4 + i) * 128))
    rw [← hg] at hlast
    refine ⟨s.scrubWay d y i, _, ?_, ?_, ?_, hlast, show (State.header 5 0 0 0 0xFFFFF).extractLsb' 56 8 = 5 by decide, rfl⟩
    · rw [exec_scrub_way (argWay_not_die h), h]
    · rw [hg]
      rfl
    · rw [hg]
      rfl
  · intro e
    have hline : bits e 47 7 = (e.extractLsb' 7 41).toNat := bits_eq_extract e 47 7
    have hfield {lo n k : Nat} {hi : Nat} (hn : n = hi + 1 - lo) {v : BitVec n} (h : e.extractLsb' lo n = v) (hv : v.toNat = k) : bits e hi lo = k :=
      State.field_of_extract hn (by rw [h, hv])
    rw [exec_inject h]
    refine ⟨fun ha => ?_, fun ha hk hl => ?_, fun y ha hk hs hl => ?_, fun ha hk hs => ?_⟩
    · rw [State.performInjection_unarmed ha]
    · rw [State.performInjection_absent ha (hfield rfl hk rfl) (by rw [hline]; exact hl)]
    · have hp := State.performInjection_way ha (hfield rfl hk rfl) (hfield rfl hs rfl) (by rw [hline]; exact hl)
      obtain ⟨z, hz, hway, hdirty, hbad⟩ := State.corruptLine_way (List.mem_of_find?_eq_some hl) (bits e 47 7 % 4) 0xFFFF
      refine ⟨_, z, congrArg _ hp, State.injected_errinj _ _ _ _, rfl, ?_, hway, hdirty, ?_⟩
      · rw [State.injected_l2]
        exact hz
      · rw [← hline, hbad, or_allWords]
    · refine ⟨_, congrArg _ (State.performInjection_dram ha (hfield rfl hk rfl) (hfield rfl hs rfl)), State.injected_errinj _ _ _ _, rfl, ?_⟩
      rw [← hline, ← or_allWords]
      exact State.corruptDram_lookup s _ _

/-! ### The L1s, the stashes and the walks

An access that starts where no error and no mark stands leaves none behind, whatever it comes to (`Sound.reach`). -/

namespace Sys2Proof.Machine

namespace State

theorem sound_setCore (s : State) (n : Nat) (c : Core) : Sound s (s.setCore n c) := Sound.of_eq rfl rfl rfl rfl

theorem sound_modCore (s : State) (n : Nat) (f : Core → Core) : Sound s (s.modCore n f) := sound_setCore s n _

theorem sound_cores (s : State) (l : List (Nat × Core)) : Sound s { s with cores := l } := Sound.of_eq rfl rfl rfl rfl

theorem sound_free (s : State) : Sound s s.free.2 := (Under.of_free s).toSound

theorem sound_writeBack (s : State) (w : Who) (line : Nat) : Sound s (s.writeBack w line) := (under_writeBack s w line).toSound

theorem sound_l2Touch (s : State) (d : BitVec 2) (g : Option Nat) (line : Nat) (write whole : Bool) : Sound s (s.l2Touch d g line write whole) :=
  (under_l2Touch s d g line write whole).toSound

theorem sound_dramBytes (s : State) (line : Nat) (l b : Byte) (n : Nat) : Sound s (s.dramBytes line l b n) := (under_dramBytes s line l b n).toSound

theorem sound_count (s : State) (core : Nat) (f : Bool) (e n : Nat) : Sound s (s.count core f e n) :=
  Sound.ite (Sound.refl s) (sound_setCore s core _)

theorem sound_countCtx (s : State) (e n : Nat) : Sound s (s.countCtx e n) :=
  Sound.ite (Sound.refl s) (sound_count s _ _ _ _)

theorem sound_l2Count (s : State) (w : Who) (line : Nat) (write whole : Bool) : Sound s (s.l2Count w line write whole) := by
  unfold l2Count
  dsimp only
  split
  · exact Sound.refl s
  · exact (under_countDie s _ _ _ _ _).toSound.trans (sound_dramBytes _ _ _ _ _)

theorem sound_l1Evict (s : State) (w : Who) (core set : Nat) : Sound s (s.l1Evict w core set) := by
  unfold l1Evict
  dsimp only
  have h0 := sound_free s
  split
  · exact Sound.refl s
  · split
    · split
      · exact h0
      · exact h0.trans (sound_setCore _ core _)
    · exact (h0.trans (sound_setCore _ core _)).trans (Sound.ite (sound_writeBack _ _ _) (Sound.refl _))

theorem sound_recallL1 (s : State) (w : Who) (n line : Nat) (write : Bool) : Sound s (s.recallL1 w n line write) :=
  (sound_setCore s n _).trans (Sound.ite (sound_writeBack _ _ _) (Sound.refl _))

theorem sound_recallStash (s : State) (w : Who) (n : Nat) (f : Bool) (p : Path) (line : Nat) (write : Bool) : Sound s (s.recallStash w n f p line write) :=
  Sound.ite (Sound.refl s) ((sound_modCore s n _).trans (Sound.ite (sound_writeBack _ _ _) (Sound.refl _)))

theorem sound_recallLine (s : State) (w : Who) (p : Path) (line : Nat) (write : Bool) : Sound s (s.recallLine w p line write) :=
  Sound.foldl (fun t q => by
    split
    · exact Sound.refl t
    · exact (Sound.ite (Sound.refl t) (sound_recallL1 t w q.1 line write)).trans
        ((sound_recallStash _ w q.1 false p line write).trans (sound_recallStash _ w q.1 true p line write))) _ s

theorem sound_l1Touch (s : State) (w : Who) (core : Nat) (f : Bool) (line : Nat) (write whole : Bool) (keep : Keep) :
    Sound s (s.l1Touch w core f line write whole keep) := by
  have h0 := (sound_count s core f 0x05 1).trans (sound_l2Count _ w line (write && keep == .no) whole)
  exact Sound.ite (Sound.ite (sound_setCore s core _) (Sound.refl s)) (Sound.ite (h0.trans (sound_l2Touch _ _ _ _ _ _))
    (((h0.trans (sound_l2Touch _ _ _ _ _ _)).trans (sound_l1Evict _ w core _)).trans (sound_setCore _ core _)))

theorem sound_stashTouch (s : State) (w : Who) (core : Nat) (f : Bool) (off idx : Nat) (e : Tlb) (line : Nat) (write : Bool) :
    Sound s (s.stashTouch w core f off idx e line write) := by
  unfold stashTouch
  dsimp only
  refine Sound.trans ?_ (sound_modCore _ core _)
  exact Sound.ite (Sound.refl s) ((sound_l2Count s w line false false).trans (sound_l2Touch _ _ _ _ _ _))

theorem sound_uncached (s : State) (w : Who) (line : Nat) (write whole : Bool) : Sound s (s.uncached w line write whole) :=
  Sound.ite (Sound.refl s) ((sound_dramBytes s line _ _ _).trans
    (Sound.ite (under_dramWrite _ line).toSound (under_dramRead _ line).toSound))

/-- The caches on the way of an access. -/
theorem sound_touch (s : State) (w : Who) (p : Path) (line : Nat) (write whole : Bool) (keep : Keep) : Sound s (s.touch w p line write whole keep) := by
  unfold touch
  split
  · exact Sound.refl s
  · dsimp only
    have h0 := sound_recallLine s w p line write
    split
    · exact h0.trans (sound_l1Touch _ _ _ _ _ _ _ _)
    · exact h0.trans (sound_stashTouch _ _ _ _ _ _ _ _ _)
    · exact (h0.trans (sound_l2Count _ _ _ _ _)).trans (sound_l2Touch _ _ _ _ _ _)
    · exact h0.trans (sound_uncached _ _ _ _ _)

theorem sound_walkPut (s : State) (e : WalkEntry) : Sound s (s.walkPut e) :=
  Sound.ite (Sound.of_eq rfl rfl rfl rfl) (Sound.of_eq rfl rfl rfl rfl)

theorem sound_tlbPut (s : State) (w : Who) (va : Word) (e : Tlb) (p : TlbAt) : Sound s (s.tlbPut w va e p) :=
  Sound.ite (Sound.of_eq rfl rfl rfl rfl) (Sound.of_eq rfl rfl rfl rfl)

theorem sound_cacheTlb (s : State) (w : Who) (va : Word) (e : Tlb) : Sound s (s.cacheTlb w va e) :=
  Sound.foldl (fun s p => sound_tlbPut s w va e p) _ s

theorem sound_refill (s : State) (w : Who) (va : Word) (e : Tlb) : Sound s (s.refill w va e) := by
  unfold refill
  split
  · exact Sound.ite (Sound.refl s) (sound_tlbPut s w va e _)
  · exact Sound.refl s

end State

/-- The state in which an access stops. -/
def AStop.state : AStop → State
  | .fault s _ => s
  | .wait s => s

/-- Whatever an access comes to, its state is sound from s on. -/
abbrev SoundBy {α : Type} (s : State) (r : ARes (α × State)) : Prop := Ends (fun x => State.Sound s x.2) (fun x => State.Sound s x.state) r

namespace State.Sound
variable {s t : State} (h : Sound s t)
include h

theorem readEntry (w : Who) (pa : Nat) : SoundBy s (t.readEntry w pa) := by
  unfold State.readEntry
  split
  · exact h
  · split
    · next e => exact h.trans (under_detectLine (.inr e)).toSound
    · next u e => exact (h.trans (under_detectLine (.inl e)).toSound).trans (sound_touch u w .l2 (pa / 128) false false .no)

theorem walk2 (w : Who) (ipa n table : Nat) : SoundBy s (t.walk2 w ipa n table) := by
  induction n generalizing t table with
  | zero => exact h
  | succ n ih =>
    rw [State.walk2]
    refine (h.readEntry w _).bind fun x hx => ?_
    dsimp only
    split
    · exact hx
    · exact ih (hx.trans (sound_walkPut _ _)) _
    · exact hx

theorem stage2 (w : Who) (fresh : Bool) (ipa : Nat) : SoundBy s (t.stage2 w fresh ipa) := by
  unfold State.stage2
  split
  · exact h
  · exact h.walk2 w ipa _ _

theorem walk1 (w : Who) (fresh : Bool) (va n table : Nat) : SoundBy s (t.walk1 w fresh va n table) := by
  induction n generalizing t table with
  | zero => exact h
  | succ n ih =>
    rw [State.walk1]
    refine (h.stage2 w fresh _).bind fun x hx => ?_
    dsimp only
    split
    · exact hx
    · refine (Sound.readEntry hx w _).bind fun y hy => ?_
      split
      · exact hy
      · exact ih (hy.trans (sound_walkPut _ _)) _
      · exact hy

theorem walkBoth (w : Who) (fresh : Bool) (k : Acc) (va : Word) : SoundBy s (t.walkBoth w fresh k va) := by
  unfold State.walkBoth
  dsimp only
  split
  · exact h
  · split
    · exact h
    · refine (h.walk1 w fresh _ _ _).bind fun x hx => ?_
      split
      · exact hx
      · refine (Sound.stage2 hx w fresh _).bind fun y hy => ?_
        split
        · exact hy
        · exact hy

theorem walkFresh (w : Who) (k : Acc) (va : Word) (test : Tlb → Option Nat) : SoundBy s (t.walkFresh w k va test) := by
  unfold State.walkFresh
  refine (h.walkBoth w true k va).bind fun x hx => ?_
  dsimp only
  split
  · exact hx
  · exact hx.trans (sound_cacheTlb _ w va _)

theorem translate (w : Who) (k : Acc) (va : Word) (test : Tlb → Option Nat) : SoundBy s (t.translate w k va test) := by
  unfold State.translate
  split
  · split
    · exact h.trans (sound_refill t w va _)
    · exact h.walkFresh w k va test
  · have h0 := h.walkBoth w false k va
    split
    · next e =>
      split
      · exact (h0.ok e).trans (sound_cacheTlb _ _ _ _)
      · exact Sound.walkFresh (h0.ok e) w k va test
    · next e => exact Sound.walkFresh (h0.error e) w k va test
    · next e => exact h0.error e

theorem checked (w : Who) (c : Ctx) (a : Agent) (k : Acc) (sc : Scope) (al : Nat) (va : Word) (n : Nat) : SoundBy s (t.checked w c a k sc al va n) := by
  unfold State.checked
  split
  · exact h
  · exact h.translate _ _ _ _

theorem stashEntry (m : StashMap) (idx : Nat) (a : Agent) (k : Acc) (sc : Scope) (va : Word) (n : Nat) : SoundBy s (t.stashEntry m idx a k sc va n) := by
  unfold State.stashEntry
  dsimp only
  split
  · exact h.translate _ _ _ _
  · split
    · exact h
    · exact h.walkFresh _ _ _ _

/-- An access on its way to the caches. -/
theorem reach (a : Agent) (k : Acc) (sc : Scope) (va : Word) (n : Nat) : SoundBy s (t.reach a k sc va n) := by
  unfold State.reach
  dsimp only
  split
  · split
    · exact h
    · refine (h.stashEntry _ _ a k sc va n).bind fun x hx => ?_
      split
      · exact hx
      · split
        · next e =>
          split at e
          · cases e
          · exact hx.trans (under_detectLine (.inr e)).toSound
        · next e =>
          split at e
          · cases e; exact hx
          · exact hx.trans (under_detectLine (.inl e)).toSound
  · refine (h.checked _ _ a k sc n va n).bind fun x hx => ?_
    split
    · exact hx
    · split
      · next e => exact hx.trans (under_detectLine (.inr e)).toSound
      · next e => exact hx.trans (under_detectLine (.inl e)).toSound

end State.Sound

/-- Lines that are written back lose no word. -/
theorem State.sound_cleanWays (s : State) (d : BitVec 2) (p : L2Way → Bool) :
    State.Sound s (s.modDie d (fun x => { x with l2 := updateWhere p (fun y => { y with dirty := 0 }) x.l2 })) := by
  apply Under.toSound
  refine Under.of_setDie s d _ ?_ fun hb y hy => ?_
  · rfl
  obtain ⟨z, hz, rfl⟩ := List.mem_map.1 hy
  split
  · exact hb z hz
  · exact hb z hz

theorem State.sound_release {sc : Option Scope} {s t : State} (h : release sc s = .ok t) : State.Sound s t := by
  rcases release_ok h with rfl | rfl
  · exact Sound.refl _
  · exact (sound_cores s _).trans (sound_cleanWays _ s.ctx.die fabricWay)

end Sys2Proof.Machine

/-! ## Vector loads, stores and atomics (R78-R80, R214-R221, O46)

The elements of a plot in the Field, what an access of an element leaves alone (`Steady`), the loop over the elements, the dispatch, and
then the instructions. -/

namespace Sys2Proof.Machine

/-! ### Elements of a plot in the Field (R87) -/

theorem plotCells_nodup (p : Word) (e : Nat) : (plotCells p e).Nodup := by
  refine List.Nodup.map (fun i j h => ?_) List.nodup_range
  unfold cellIndex at h
  omega

theorem length_plotCells (p : Word) (e : Nat) : (plotCells p e).length = plotEw p := by
  unfold plotCells
  rw [List.length_map, List.length_range]

theorem cellsNum_lt (f : List (Nat × Cell16)) (cs : List Nat) : cellsNum f cs < 65536 ^ cs.length := by
  induction cs with
  | nil => exact Nat.one_pos
  | cons c cs ih =>
    rw [cellsNum, List.length_cons, pow_succ]
    have := (sget 0 f c).isLt
    omega

/-- An element is a number of its width. -/
theorem elem_lt (c : Core) (p : Word) (e : Nat) : c.elem p e < 2 ^ (16 * plotEw p) := by
  have h := cellsNum_lt c.field (plotCells p e)
  rw [length_plotCells] at h
  exact h.trans_eq (pow_mul 2 16 _).symm

/-- Other cells stay. -/
theorem sget_setCells_of_not_mem {f : List (Nat × Cell16)} (h : swf 0 0 f = true) {cs : List Nat} {c : Nat} (hc : c ∉ cs) (v : Nat) :
    sget 0 (setCells f cs v) c = sget 0 f c := by
  induction cs generalizing f v with
  | nil => rfl
  | cons a cs ih =>
    obtain ⟨ha, hcs⟩ := not_or.1 (mt List.mem_cons.2 hc)
    rw [setCells, ih (swf_sset h a _) hcs, sget_sset f ((swf_iff _ _).1 h).2, if_neg ha]

/-- The cells of an element hold the value written. -/
theorem cellsNum_setCells {f : List (Nat × Cell16)} (h : swf 0 0 f = true) {cs : List Nat} (hn : cs.Nodup) (v : Nat) :
    cellsNum (setCells f cs v) cs = v % 65536 ^ cs.length := by
  induction cs generalizing f v with
  | nil => exact (Nat.mod_one v).symm
  | cons c cs ih =>
    obtain ⟨hc, hcs⟩ := List.nodup_cons.1 hn
    have hw := swf_sset h c (BitVec.ofNat 16 (v % 65536))
    have hlow : (sget 0 (setCells f (c :: cs) v) c).toNat = v % 65536 := by
      rw [setCells, sget_setCells_of_not_mem hw hc, sget_sset f ((swf_iff _ _).1 h).2, if_pos rfl, BitVec.toNat_ofNat, Nat.mod_mod]
    rw [cellsNum, hlow, setCells, ih hw hcs, List.length_cons, pow_succ', Nat.mod_mul]

namespace State

theorem myCore_setElem (s : State) (d : VReg) (e v : Nat) : (s.setElem d e v).myCore = s.myCore.setElem (s.plotOf d) e v :=
  (core_setCore s _ _ :)

theorem core_setElem (s : State) (d : VReg) (e v n : Nat) : (s.setElem d e v).core n =
    if n = s.ctx.core then s.myCore.setElem (s.plotOf d) e v else s.core n :=
  (core_setCore_any s _ _ n :)

theorem elem_setElem_same {s : State} (h : swf 0 0 s.myCore.field = true) (d : VReg) (e v : Nat) :
    (s.setElem d e v).elem d e = v % 2 ^ (16 * plotEw (s.plotOf d)) := by
  have hp : (s.setElem d e v).plotOf d = s.plotOf d := rfl
  unfold elem Core.elem
  rw [myCore_setElem, hp]
  refine (cellsNum_setCells h (plotCells_nodup _ e) v).trans ?_
  rw [length_plotCells, pow_mul]
  rfl

theorem field_setElem_other {s : State} (h : swf 0 0 s.myCore.field = true) {d : VReg} {e c : Nat} (hc : c ∉ plotCells (s.plotOf d) e) (v : Nat) :
    sget 0 (s.setElem d e v).myCore.field c = sget 0 s.myCore.field c := by
  rw [myCore_setElem]
  exact sget_setCells_of_not_mem h hc v

end State

/-! ### What an element's access leaves alone -/

/-- From s to t the context keeps all but what the access of an element may change of it, the lanes are as calm as they were, and no
error has come. -/
structure Steady (s t : State) : Prop extends State.Sound s t where
  ctx : t.ctx = { s.ctx with mfmt := t.ctx.mfmt, cki := t.ctx.cki, pdirty := t.ctx.pdirty, vstart := t.ctx.vstart }
  laneErr : ∀ n, (t.core n).laneErr = (s.core n).laneErr

namespace Steady
variable {s t u : State}

theorem refl (s : State) : Steady s s := ⟨State.Sound.refl s, rfl, fun _ => rfl⟩

theorem trans (a : Steady s t) (b : Steady t u) : Steady s u :=
  ⟨a.toSound.trans b.toSound, by rw [b.ctx, a.ctx], fun n => (b.laneErr n).trans (a.laneErr n)⟩

theorem of_kept (h : Kept s t) (hs : State.Sound s t) : Steady s t := ⟨hs, by rw [h.ctx], h.laneErr⟩

theorem ite {c : Prop} {_ : Decidable c} (ht : Steady s t) (hu : Steady s u) : Steady s (if c then t else u) := by
  split
  · exact ht
  · exact hu

/-- Only the context changes, and within what may change of it. -/
theorem of_ctx {s : State} {c : Ctx} (h : c = { s.ctx with mfmt := c.mfmt, cki := c.cki, pdirty := c.pdirty, vstart := c.vstart }) :
    Steady s { s with ctx := c } := ⟨State.Sound.of_eq rfl rfl rfl rfl, h, fun _ => rfl⟩

theorem countCtx (s : State) (e n : Nat) : Steady s (s.countCtx e n) := of_kept (State.kept_countCtx s e n) (State.sound_countCtx s e n)

theorem vectorPoison (s : State) (bad : Bool) : Steady s (s.vectorPoison bad) :=
  ite ((of_ctx rfl).trans (countCtx _ _ _)) (refl s)

theorem clampIf (s : State) (b : Bool) : Steady s (s.clampIf b) := ite (of_ctx rfl) (refl s)

theorem setElem (s : State) (d : VReg) (e v : Nat) : Steady s (s.setElem d e v) := by
  refine ⟨State.Sound.of_eq rfl rfl rfl rfl, rfl, fun n => ?_⟩
  rw [State.core_setElem]
  split
  · next h => rw [h]; rfl
  · rfl

section facts
variable (h : Steady s t)
include h

theorem core : t.ctx.core = s.ctx.core := by rw [h.ctx]; rfl
theorem plotOf (v : VReg) : t.plotOf v = s.plotOf v := by unfold State.plotOf; rw [h.ctx]; rfl
theorem mask (m : MReg) : t.ctx.mask m = s.ctx.mask m := by rw [h.ctx]; rfl
theorem getX (r : XReg) : t.ctx.getX r = s.ctx.getX r := by rw [h.ctx]; rfl
theorem pc : t.ctx.pc = s.ctx.pc := by rw [h.ctx]
theorem inTrap : t.ctx.inTrap = s.ctx.inTrap := by rw [h.ctx]; rfl
theorem id : t.ctx.id = s.ctx.id := by rw [h.ctx]; rfl

end facts

end Steady

/-- The Field is as it was. -/
def SameField (s t : State) : Prop := ∀ n, (t.core n).field = (s.core n).field

namespace SameField
variable {s t u : State}

theorem trans (a : SameField s t) (b : SameField t u) : SameField s u := fun n => (b n).trans (a n)

theorem of_cores (h : t.cores = s.cores) : SameField s t := fun n => by unfold State.core; rw [h]

theorem vectorPoison (s : State) (bad : Bool) : SameField s (s.vectorPoison bad) := by
  unfold State.vectorPoison
  split
  · exact (of_cores rfl).trans (State.kept_countCtx _ _ _).field
  · exact fun _ => rfl

theorem clampIf (s : State) (b : Bool) : SameField s (s.clampIf b) := by
  unfold State.clampIf
  split <;> exact fun _ => rfl

theorem myCore (h : SameField s t) (hs : Steady s t) : t.myCore.field = s.myCore.field := by
  unfold State.myCore
  rw [hs.core, h]

end SameField

theorem vectorPoison_mem (s : State) (bad : Bool) : (s.vectorPoison bad).mem = s.mem := by
  unfold State.vectorPoison
  split
  · exact (State.kept_countCtx _ _ _).mem
  · rfl

theorem clampIf_mem (s : State) (b : Bool) : (s.clampIf b).mem = s.mem := by
  unfold State.clampIf
  split <;> rfl

/-! ### Bytes written -/

namespace State

theorem kept_clearPoison (s : State) (pa n : Nat) : Kept s (s.clearPoison pa n) := by
  unfold clearPoison
  split
  · exact Kept.refl s
  · exact Kept.of_poison s _

/-- Cores may lose gathered lines. -/
theorem kept_mapGathered (s : State) (g : List Gathered → List Gathered) :
    Kept s { s with cores := s.cores.map (fun p => (p.1, { p.2 with gathered := g p.2.gathered })) } := by
  refine Kept.of_cores s _ fun m => ?_
  have hl := lookupN_map (fun (_ : Nat) (c : Core) => { c with gathered := g c.gathered }) s.cores m
  unfold core
  dsimp only
  rw [hl]
  cases lookupN m s.cores with
  | none => exact .inl rfl
  | some c => exact .inr ⟨_, rfl, rfl, rfl, rfl, rfl, rfl, fun f => by cases f <;> rfl, fun f => by cases f <;> rfl⟩

theorem kept_dropGathered (s : State) (pa n : Nat) : Kept s (s.dropGathered pa n) := by
  unfold dropGathered
  split
  · exact Kept.refl s
  · exact kept_mapGathered s _

theorem sound_dropGathered (s : State) (pa n : Nat) : Sound s (s.dropGathered pa n) := by
  unfold dropGathered
  split
  · exact Sound.refl s
  · exact sound_cores s _

theorem sound_clearPoison (s : State) (pa n : Nat) : Sound s (s.clearPoison pa n) := by
  unfold clearPoison
  split
  · exact Sound.refl s
  · exact ⟨fun _ => rfl, fun h => ⟨h.dramErr, h.latent, by simp [h.poison], h.l2⟩⟩

theorem cores_notifyLine (s : State) (w : Option CtxId) (l : Nat) : (s.notifyLine w l).cores = s.cores := by
  unfold notifyLine
  dsimp only
  split
  · rfl
  · exact foldl_ind (f := fun (s : State) (k : Ctx) => s.post .waitevWake (.ctx k.id)) (P := fun t : State => t.cores = s.cores) (fun _ _ h => h) _ rfl

theorem sound_notifyLine (s : State) (w : Option CtxId) (l : Nat) : Sound s (s.notifyLine w l) := by
  unfold notifyLine
  dsimp only
  split
  · exact Sound.refl s
  · exact foldl_ind (f := fun (s : State) (k : Ctx) => s.post .waitevWake (.ctx k.id)) (P := fun t : State => Sound s t)
      (fun t k h => h.trans (Under.of_post t _ _).toSound) _ (Sound.of_eq rfl rfl rfl rfl)

theorem cores_dropResv (s : State) (pa n : Nat) : (s.dropResv pa n).cores = s.cores := by unfold dropResv; split <;> rfl

theorem sound_dropResv (s : State) (pa n : Nat) : Sound s (s.dropResv pa n) := Sound.ite (Sound.refl s) (Sound.of_eq rfl rfl rfl rfl)

/-- A context's own write changes of its state only memory. -/
theorem steady_putBytes (s : State) {w : Option CtxId} (h : w = some s.ctx.id) (pa : Nat) (bs : List Byte) :
    Steady s (s.putBytes w pa bs) ∧ SameField s (s.putBytes w pa bs) := by
  have hctx := s.putBytes_ctx h pa bs
  have h0 : Sound s (({ s with mem := s.mem.setBytes pa bs } : State).dropResv pa bs.length) :=
    (Sound.of_eq rfl rfl rfl rfl : Sound s { s with mem := s.mem.setBytes pa bs }).trans (sound_dropResv _ _ _)
  have hc : (({ s with mem := s.mem.setBytes pa bs } : State).dropResv pa bs.length).cores = s.cores := cores_dropResv _ _ _
  unfold putBytes at hctx ⊢
  dsimp only at hctx ⊢
  generalize ({ s with mem := s.mem.setBytes pa bs } : State).dropResv pa bs.length = t at h0 hc hctx ⊢
  have hk := (kept_clearPoison t pa bs.length).trans (kept_dropGathered _ pa bs.length)
  have hs := (h0.trans (sound_clearPoison t pa bs.length)).trans (sound_dropGathered _ pa bs.length)
  generalize (t.clearPoison pa bs.length).dropGathered pa bs.length = u at hk hs hctx ⊢
  have hcore (n : Nat) : ((linesOf pa bs.length).foldl (fun s l => s.notifyLine w l) u).core n = u.core n := by
    unfold core
    rw [foldl_ind (P := fun t : State => t.cores = u.cores) (fun t l h => (cores_notifyLine t w l).trans h) _ rfl]
  have hst (n : Nat) : t.core n = s.core n := by unfold core; rw [hc]
  refine ⟨⟨foldl_ind (P := fun t : State => Sound s t) (fun t l h => h.trans (sound_notifyLine t w l)) _ hs, by rw [hctx], fun n => ?_⟩, fun n => ?_⟩
  · rw [hcore, hk.laneErr, hst]
  · rw [hcore, hk.field, hst]

end State

end Sys2Proof.Machine

/-! ### The loop over the elements (R185) -/

namespace Sys2Proof.Machine

/-- No lane of the core meets an error (R319, R329). -/
def Quiet (s : State) : Prop := s.myCore.laneErr = [] ∧ ∀ l, s.laneInjection s.ctx.core l = none

theorem Steady.quiet {s t : State} (h : Steady s t) (hq : Quiet s) : Quiet t := by
  obtain ⟨hl, hi⟩ := hq
  refine ⟨?_, fun l => ?_⟩
  · unfold State.myCore at hl ⊢
    rw [h.core, h.laneErr, hl]
  · have hj := hi l
    unfold State.laneInjection at hj ⊢
    rwa [h.core, h.errinj]

theorem Quiet.laneHit {s : State} (h : Quiet s) (e : Nat) : s.laneHit e = none := by
  unfold State.laneHit
  rw [h.1]
  simp [h.2]

namespace VRun
variable {r : VRun} {f : Bool → State → Nat → Res State} {s t : State} {e k : Nat} {x : Stop}

theorem lane_of_quiet (h : Quiet s) (e : Nat) : r.lane s e = (s, false) := by
  unfold lane
  dsimp only
  rw [h.laneHit, ite_self]

/-- What the loop does at one index: the element, or only its lane where it is masked off. -/
def laneElem (r : VRun) (f : Bool → State → Nat → Res State) (s : State) (e : Nat) : Res State :=
  let (s, lost) := r.lane s e
  if r.active e then f lost s e else .ok s

theorem each_eq (r : VRun) (f : Bool → State → Nat → Res State) (s : State) :
    r.each f s = foldE (r.laneElem f) s ((List.range r.stop).drop r.start) >>= r.ended := rfl

theorem laneElem_active (h : Quiet s) (ha : r.active e = true) : r.laneElem f s e = f false s e := by
  unfold laneElem
  rw [lane_of_quiet h]
  exact if_pos ha

theorem laneElem_inactive (h : Quiet s) (ha : ¬ r.active e = true) : r.laneElem f s e = .ok s := by
  unfold laneElem
  rw [lane_of_quiet h]
  exact if_neg ha

theorem foldE_none (h : Quiet s) (l : List Nat) (hl : l.filter r.active = []) : foldE (r.laneElem f) s l = .ok s := by
  induction l with
  | nil => rfl
  | cons a l ih =>
    have ha : ¬ r.active a = true := List.filter_eq_nil_iff.1 hl a List.mem_cons_self
    rw [foldE, laneElem_inactive h ha]
    exact ih (by rwa [List.filter_cons_of_neg ha] at hl)

/-- The loop comes to the first active element in the state in which it began. -/
theorem foldE_first (h : Quiet s) (l : List Nat) {es : List Nat} (hl : l.filter r.active = e :: es) :
    ∃ l', l'.filter r.active = es ∧ foldE (r.laneElem f) s l = f false s e >>= fun t => foldE (r.laneElem f) t l' := by
  induction l with
  | nil => cases hl
  | cons a l ih =>
    by_cases ha : r.active a = true
    · rw [List.filter_cons_of_pos ha] at hl
      cases hl
      refine ⟨l, rfl, ?_⟩
      rw [foldE, laneElem_active h ha]
      cases f false s e <;> rfl
    · rw [List.filter_cons_of_neg ha] at hl
      obtain ⟨l', hes, hf⟩ := ih hl
      refine ⟨l', hes, ?_⟩
      rw [foldE, laneElem_inactive h ha]
      exact hf

/-- A failed access at element e traps there. -/
theorem acc_fault {α : Type} (r : VRun) (e : Nat) (s : State) (g : XFault) :
    r.acc (α := α) e (.error (.fault s g)) = r.trapAt s g.cause g.tval e := rfl

theorem board_of_empty (h : s.myCore.board = []) (addr : Nat → Word) (z : Nat) : r.board addr z s = .ok () := by
  unfold board
  rw [h]
  rfl

variable (hr : r.sfault = none)
include hr

theorem stop_of_calm : r.stop = r.len := by
  unfold stop
  rw [hr]

theorem ended_of_calm (s : State) : r.ended s = .ok s := by
  unfold ended
  rw [hr]

theorem each_one (h : Quiet s) (he : r.elems = [e]) (hf : f false s e = .ok t) (ht : Quiet t) : r.each f s = .ok t := by
  obtain ⟨l', hl, hfold⟩ := foldE_first (f := f) h _ he
  rw [each_eq, stop_of_calm hr, hfold, hf]
  dsimp only [bind, Except.bind]
  rw [foldE_none ht l' hl]
  exact ended_of_calm hr t

theorem each_one_error (h : Quiet s) {es : List Nat} (he : r.elems = e :: es) (hf : f false s e = .error x) : r.each f s = .error x := by
  obtain ⟨l', -, hfold⟩ := foldE_first (f := f) h _ he
  rw [each_eq, stop_of_calm hr, hfold, hf]
  rfl

theorem each_two_error (h : Quiet s) (he : r.elems = [e, k]) (hf : f false s e = .ok t) (ht : Quiet t) (hk : f false t k = .error x) :
    r.each f s = .error x := by
  obtain ⟨l', hl, hfold⟩ := foldE_first (f := f) h _ he
  obtain ⟨l2, -, hfold2⟩ := foldE_first (f := f) ht _ hl
  rw [each_eq, stop_of_calm hr, hfold, hf]
  dsimp only [bind, Except.bind]
  rw [hfold2, hk]
  rfl

end VRun

/-! ### Completion -/

theorem core_modMyFe (s : State) (g : FrontEnd → FrontEnd) (n : Nat) : ((s.modMyFe g).core n).field = (s.core n).field := by
  unfold State.modMyFe State.modCore
  rw [State.core_setCore_any]
  split
  · next h =>
    rw [h]
    unfold Core.modFe Core.setFe
    split <;> rfl
  · rfl

/-- What completion leaves of a state: the context but for VSTART, memory and the Field. -/
structure Finished (s t : State) : Prop where
  ctx : t.ctx = { s.ctx with vstart := t.ctx.vstart }
  mem : t.mem = s.mem
  field : SameField s t

namespace Finished
variable {s t u : State}

theorem refl (s : State) : Finished s s := ⟨rfl, rfl, fun _ => rfl⟩

theorem trans (a : Finished s t) (b : Finished t u) : Finished s u := ⟨by rw [b.ctx, a.ctx], b.mem.trans a.mem, a.field.trans b.field⟩

theorem of_kept (h : Kept s t) : Finished s t := ⟨by rw [h.ctx], h.mem, h.field⟩

theorem modMyFe (s : State) (g : FrontEnd → FrontEnd) : Finished s (s.modMyFe g) := ⟨rfl, rfl, core_modMyFe s g⟩

theorem postStream (s : State) (slot : Nat) : Finished s (s.postStream slot) := by
  unfold State.postStream
  dsimp only
  split
  · exact refl s
  · exact ⟨rfl, rfl, fun _ => rfl⟩

theorem foldl {α : Type} {f : State → α → State} (step : ∀ s a, Finished s (f s a)) (l : List α) (s : State) : Finished s (l.foldl f s) :=
  foldl_ind (P := Finished s) (fun t a h => h.trans (step t a)) l (refl s)

theorem advanceStreams (r : VRun) (s : State) : Finished s (r.advanceStreams s) := by
  unfold VRun.advanceStreams
  split
  · exact refl s
  · exact (foldl (fun s _ => modMyFe s _) _ s).trans (foldl (fun s _ => (modMyFe s _).trans (postStream _ _)) _ _)

end Finished

/-- An instruction that is done. -/
theorem done_ok (r : VRun) (s : State) : ∃ t, r.done s = .ok t ∧ Finished s t ∧ (s.ctx.inTrap = false → t.ctx.vstart = 0) := by
  have h0 := Finished.advanceStreams r s
  have htrap : (r.advanceStreams s).ctx.inTrap = s.ctx.inTrap := by rw [h0.ctx]; rfl
  unfold VRun.done
  dsimp only
  generalize r.advanceStreams s = u at h0 htrap
  have hk (v : State) : Kept v ((v.countCtx 0x02 1).countCtx 0x03 r.groups) := (State.kept_countCtx v _ _).trans (State.kept_countCtx _ _ _)
  refine ⟨_, rfl, h0.trans (Finished.trans ?_ (Finished.of_kept (hk _))), fun h => ?_⟩
  · split
    · exact Finished.refl u
    · exact ⟨rfl, rfl, fun _ => rfl⟩
  · rw [(hk _).ctx, if_neg (by rw [htrap, h]; decide)]

end Sys2Proof.Machine

/-! ### Dispatch (R88, R91, R93, R136) -/

namespace Sys2Proof.Machine

theorem vcheck_ok {en : VQEntry} {k : VSpec} {b : Bool} {s : State} {c : Nat} {u : Unit} (h : vcheck en k b s c = .ok u) : b = true := by
  unfold vcheck at h
  split at h
  · assumption
  · cases h

theorem vcheck_of {en : VQEntry} {k : VSpec} {b : Bool} {s : State} {c : Nat} (h : b = true) : vcheck en k b s c = .ok () := if_pos h

/-- The entry of an instruction, whatever length it has popped. -/
def SameEntry (a b : VQEntry) : Prop := b.instr = a.instr ∧ b.pc = a.pc ∧ b.xs = a.xs

theorem takeLength_ok {en : VQEntry} {k : VSpec} {s : State} {x : Nat × VQEntry × State} (h : takeLength en k s = .ok x) :
    SameEntry en x.2.1 ∧ ∃ q, x.2.2 = { s with ctx := { s.ctx with lq := q } } := by
  unfold takeLength at h
  dsimp only at h
  split at h
  · cases h; exact ⟨⟨rfl, rfl, rfl⟩, s.ctx.lq, rfl⟩
  · split at h
    · cases h; exact ⟨⟨rfl, rfl, rfl⟩, s.ctx.lq, rfl⟩
    · cases h; exact ⟨⟨rfl, rfl, rfl⟩, s.ctx.lq, rfl⟩
    · split at h
      · cases h; exact ⟨⟨rfl, rfl, rfl⟩, s.ctx.lq, rfl⟩
      · split at h
        · cases h
        · next rest _ => cases h; exact ⟨⟨rfl, rfl, rfl⟩, rest, rfl⟩

theorem streamIn_ok {en : VQEntry} {k : VSpec} {vl : Nat} {s t : State} {v : VReg} (h : streamIn en k vl s v = .ok t) : t = s := by
  unfold streamIn at h
  split at h
  · cases h; rfl
  · dsimp only [bind, Except.bind] at h
    split at h
    · cases h
    · split at h
      · cases h
      · cases h; rfl

theorem streamOut_ok {en : VQEntry} {k : VSpec} {vl : Nat} {s t : State} {v : VReg} (h : streamOut en k vl s v = .ok t) : t = s := by
  unfold streamOut at h
  split at h
  · cases h; rfl
  · dsimp only [bind, Except.bind] at h
    split at h
    · cases h
    · split at h
      · cases h
      · cases h; rfl

theorem foldE_same {α : Type} {f : State → α → Res State} (hf : ∀ {s t : State} {a : α}, f s a = .ok t → t = s) {l : List α} {s t : State}
    (h : foldE f s l = .ok t) : t = s := by
  induction l generalizing s with
  | nil => cases h; rfl
  | cons a l ih =>
    rw [foldE] at h
    cases ha : f s a with
    | error e => rw [ha] at h; cases h
    | ok u =>
      rw [ha] at h
      exact (ih h).trans (hf ha)

theorem foldE_unit {α : Type} {f : α → Res Unit} {l : List α} {u : Unit} (h : foldE (fun (_ : Unit) a => f a) u l = .ok ()) : ∀ a ∈ l, f a = .ok () := by
  induction l generalizing u with
  | nil => exact fun _ ha => absurd ha List.not_mem_nil
  | cons a l ih =>
    rw [foldE] at h
    cases ha : f a with
    | error e => rw [ha] at h; cases h
    | ok u =>
      rw [ha] at h
      exact List.forall_mem_cons.2 ⟨ha, ih h⟩

/-- What the checks of dispatch settle. -/
theorem vbegin_ok {en : VQEntry} {k : VSpec} {s : State} {r : VRun} (h : vbegin en k s = .ok r) :
    r.spec = k ∧ (k.dest = none → r.selfov = false) ∧ SameEntry en r.entry ∧ (∃ q, r.src = { s with ctx := { s.ctx with lq := q } }) ∧
    ∀ p ∈ k.dest.toList ++ k.also ++ k.srcs, plotReady r.entry k r.vl r.src p.1 p.2 = .ok () := by
  unfold vbegin at h
  dsimp only [bind, Except.bind] at h
  split at h
  · cases h
  split at h
  · cases h
  next x hx =>
  obtain ⟨hen, hq⟩ := takeLength_ok hx
  split at h
  · cases h
  next hplots =>
  split at h
  · cases h
  have hdest {f : VReg × Option Nat → Bool} (hd : k.dest = none) : k.dest.any f = false := by rw [hd]; rfl
  split at h
  · cases h
    exact ⟨rfl, hdest, hen, hq, foldE_unit hplots⟩
  · split at h
    · cases h
    next hi =>
    obtain rfl := foldE_same streamIn_ok hi
    split at h
    · cases h
    next ho =>
    obtain rfl := foldE_same streamOut_ok ho
    cases h
    exact ⟨rfl, hdest, hen, hq, foldE_unit hplots⟩

/-- A named plot has elements of the cells asked for. -/
theorem plotReady_cells {en : VQEntry} {k : VSpec} {vl n : Nat} {s : State} {v : VReg} (h : plotReady en k vl s v (some n) = .ok ()) :
    plotEw (s.plotOf v) = n := by
  have hc := vcheck_ok h
  obtain ⟨hc, -⟩ := Bool.and_eq_true_iff.1 hc
  obtain ⟨-, hn⟩ := Bool.and_eq_true_iff.1 hc
  exact (Option.some.inj (beq_iff_eq.1 hn)).symm

/-! ### Commit -/

/-- The state in which a queued instruction that writes no register at its commit is committed. -/
def State.committed (s : State) : State :=
  { s with ctx := { s.ctx with pc := s.ctx.pc + 8, vqNext := s.ctx.vqNext + 1, convoy := s.ctx.convoy.tail } }

/-- An instruction of 8 bytes that writes no register at its commit. -/
def Plain (i : Instr) : Prop := ∀ s, (vcommit i s).2 = s.committed

/-- The context's registers and memory are as they were. -/
structure Taken (s t : State) : Prop where
  mem : t.mem = s.mem
  x : t.ctx.x = s.ctx.x
  pc : t.ctx.pc = s.ctx.pc
  status : t.ctx.status = s.ctx.status
  lane : t.lane = s.lane

theorem taken_passRows (s : State) (n : Nat) (f : Bool) (m : Byte × Byte) : Taken s (s.passRows n f m) := by
  unfold State.passRows
  dsimp only
  split <;> exact ⟨rfl, rfl, rfl, rfl, rfl⟩

theorem Taken.trans {s t u : State} (a : Taken s t) (b : Taken t u) : Taken s u :=
  ⟨b.mem.trans a.mem, b.x.trans a.x, b.pc.trans a.pc, b.status.trans a.status, b.lane.trans a.lane⟩

theorem taken_passUnit (s : State) : Taken s s.passUnit := by
  unfold State.passUnit
  dsimp only
  split
  · exact ⟨rfl, rfl, rfl, rfl, rfl⟩
  · split
    · exact taken_passRows s _ _ _
    · exact (taken_passRows s _ _ _).trans (taken_passRows _ _ _ _)

/-- Taking the vector unit gives fresh vector state, and leaves the scalar registers (R164). -/
theorem takeUnit_ok {s t : State} (h : takeUnit s = .ok t) : Taken s t := by
  unfold takeUnit at h
  dsimp only at h
  split at h
  · cases h
  · split at h
    · cases h; exact taken_passUnit s
    · split at h
      · cases h
      · cases h
        exact (show Taken s { s with ctx := { s.ctx.freshVector with unit := true } } from ⟨rfl, rfl, rfl, rfl, rfl⟩).trans (taken_passUnit _)

/-- What a dispatched instruction has of the state in which it was executed. -/
structure Issued (s : State) (i : Instr) (r : VRun) : Prop where
  mem : r.src.mem = s.mem
  x : ∀ q, r.src.ctx.getX q = s.ctx.getX q
  pc : r.src.ctx.pc = s.ctx.pc + 8
  inTrap : r.src.ctx.inTrap = s.ctx.inTrap
  lane : r.src.lane = none
  instr : r.entry.instr = i
  entryPc : r.entry.pc = s.ctx.pc
  entryX : ∀ q, r.entry.x q = s.getX q

/-- Executing it is the body, begun. -/
structure Begun (s : State) (i : Instr) (k : VSpec) (r : VRun) (en : VQEntry) (t : State) : Prop extends Issued s i r where
  begins : vbegin en k t = .ok r
  enX : ∀ q, en.x q = s.getX q
  format : t.ctx.mfmt = r.src.ctx.mfmt
  runs : ∀ body, vissue i body s = settle (vtry body en t)

theorem dispatches_begun {s : State} {i : Instr} {k : VSpec} {r : VRun} (hi : Plain i) (h : Claims.dispatches s i k r) :
    ∃ en t, Begun s i k r en t := by
  obtain ⟨hl, hm, s0, h0, hq, ht, hb⟩ := h
  have h1 := takeUnit_ok h0
  obtain ⟨-, -, ⟨hinstr, hpc, hxs⟩, ⟨q, hsrc⟩, -⟩ := vbegin_ok hb
  have hgx (a : XReg) : s0.ctx.getX a = s.ctx.getX a := by unfold Ctx.getX; rw [h1.x]
  have hsx (a : XReg) : s.getX a = s.ctx.getX a := by unfold State.getX; rw [hl]
  have henx (a : XReg) : (vcommit i s0).1.x a = s.getX a := by
    refine Eq.trans ?_ ((hgx a).trans (hsx a).symm)
    unfold VQEntry.x vcommit
    simp
  have hlegal : legal .front [] s = .ok () := by
    unfold legal Legal.admits
    rw [hl, hm]
    rfl
  have hwaits : s0.ctx.commitWaits i = false := by
    unfold Ctx.commitWaits Ctx.grantPending
    rw [sendsTo_of_empty hq, hq]
    simp
  refine ⟨(vcommit i s0).1, (vcommit i s0).2, ?_⟩
  rw [hi s0] at hsrc hb ⊢
  refine ⟨⟨?_, fun a => ?_, ?_, ?_, ?_, hinstr, ?_, fun a => ?_⟩, hb, henx, ?_, fun body => ?_⟩
  · rw [hsrc]; exact h1.mem
  · rw [hsrc]; exact hgx a
  · rw [hsrc]; exact congrArg (· + 8) h1.pc
  · rw [hsrc]; unfold Ctx.inTrap; exact congrArg (bitAt · 4) h1.status
  · rw [hsrc]; exact h1.lane.trans hl
  · exact hpc.trans h1.pc
  · unfold VQEntry.x; rw [hxs]; exact henx a
  · rw [hsrc]
  · unfold vissue
    rw [hlegal, h0]
    dsimp only [bind, Except.bind]
    rw [hwaits, if_neg Bool.false_ne_true]
    unfold vqueue
    rw [hi s0, if_neg]
    · show ¬ (s0.ctx.threading || !s0.ctx.vq.isEmpty) = true
      rw [ht, hq]
      decide

/-- A body that ends is the instruction's effect; one that traps, its trap. -/
theorem vtry_ok {body : VQEntry → State → Res State} {en : VQEntry} {s t : State} (h : body en s = .ok t) : settle (vtry body en s) = .next t := by
  unfold vtry
  rw [h]
  rfl

theorem vtry_trap {body : VQEntry → State → Res State} {en : VQEntry} {s t : State} {x : Trap} (h : body en s = .error (.trap t x)) :
    settle (vtry body en s) = .next (t.takeTrap x) := by
  unfold vtry
  rw [h]
  rfl

end Sys2Proof.Machine

/-! ### Traps at an element (R100-R102) -/

namespace Sys2Proof.Machine

/-- z is a with at most a popped length given back (R315). -/
structure Restored (a z : State) : Prop where
  mem : z.mem = a.mem
  cores : z.cores = a.cores
  ctx : z.ctx = { a.ctx with lq := z.ctx.lq }

namespace Restored
variable {a z : State} (h : Restored a z)
include h

theorem mask (m : MReg) : z.ctx.mask m = a.ctx.mask m := by rw [h.ctx]; rfl
theorem myCore : z.myCore = a.myCore := by
  have hc : z.ctx.core = a.ctx.core := by rw [h.ctx]; rfl
  unfold State.myCore State.core
  rw [hc, h.cores]
theorem elem (v : VReg) (e : Nat) : z.elem v e = a.elem v e := by
  have hp : z.plotOf v = a.plotOf v := by unfold State.plotOf; rw [h.ctx]; rfl
  unfold State.elem
  rw [h.myCore, hp]

end Restored

/-- A trap of a vector instruction at an element, and the state that stands then. -/
theorem vraise_at {α : Type} (en : VQEntry) (p : Nat) (s : State) (c : Nat) (tv : Word) (e vs : Nat) :
    ∃ z x v, vraise (α := α) en p s c tv (some e) vs = .error (.trap z x) ∧ Restored s z ∧ x.cause = c ∧ x.tval = tv ∧ x.vec = some v ∧
      v.entry.instr = en.instr ∧ v.entry.pc = en.pc ∧ v.plot = p ∧ v.vstart = vs ∧
      (p < 64 → v.cell = State.cellWord (s.ctx.plot (BitVec.ofNat 6 p)) e) := by
  unfold vraise
  by_cases h : s.ctx.inTrap = true
  · have hback : ({ s with ctx := { s.ctx with lq := en.popped.toList ++ s.ctx.lq } } : State).ctx.inTrap = true := h
    rw [if_pos h]
    dsimp only
    rw [if_pos hback]
    exact ⟨_, _, _, rfl, ⟨rfl, rfl, rfl⟩, rfl, rfl, rfl, rfl, rfl, rfl, rfl, fun h => if_pos h⟩
  · rw [if_neg h]
    dsimp only
    rw [if_neg h]
    exact ⟨_, _, _, rfl, ⟨rfl, rfl, rfl⟩, rfl, rfl, rfl, rfl, rfl, rfl, rfl, fun h => if_pos h⟩

/-- Where the instruction stops at element e: what overlaps itself has written nothing (R101). -/
theorem trapAt_calm {α : Type} {r : VRun} (hr : r.sfault = none) (s : State) (c : Nat) (tv : Word) (e : Nat) :
    ∃ z x v, r.trapAt (α := α) s c tv e = .error (.trap z x) ∧ (r.selfov = true → Restored r.src z) ∧ (r.selfov = false → Restored s z) ∧
      x.cause = c ∧ x.tval = tv ∧ x.vec = some v ∧ v.entry.instr = r.entry.instr ∧ v.entry.pc = r.entry.pc ∧ v.plot = r.spec.tplot ∧
      v.vstart = (if r.selfov then 0 else e) ∧
      (r.spec.tplot < 64 → v.cell = State.cellWord ((if r.selfov then r.src else s).ctx.plot (BitVec.ofNat 6 r.spec.tplot)) e) := by
  unfold VRun.trapAt
  rw [hr]
  cases ho : r.selfov
  · obtain ⟨z, x, v, hz, h0, h⟩ := vraise_at (α := α) r.entry r.spec.tplot s c tv e e
    exact ⟨z, x, v, hz, fun hh => absurd hh (by decide), fun _ => h0, h⟩
  · obtain ⟨z, x, v, hz, h0, h⟩ := vraise_at (α := α) r.entry r.spec.tplot { r.src with freeCtr := s.freeCtr, nextId := s.nextId } c tv e 0
    exact ⟨z, x, v, hz, fun _ => ⟨h0.mem, h0.cores, h0.ctx⟩, fun hh => absurd hh (by decide), h⟩

/-- Nothing comes after a trap. -/
theorem VRun.trapAt_bind {α β : Type} (r : VRun) (s : State) (c : Nat) (tv : Word) (e : Nat) (g : α → Res β) :
    r.trapAt s c tv e >>= g = r.trapAt s c tv e := by
  unfold VRun.trapAt vraise
  split <;> rfl

/-- An instruction whose body stops at element e traps there. -/
theorem trapsAt_of {s t u : State} {i : Instr} {k : VSpec} {r : VRun} {en : VQEntry} {body : VQEntry → State → Res State} {c : Nat} {tv : Word}
    {d : VReg} {e : Nat} (hb : Begun s i k r en t) (hr : r.sfault = none) (hx : exec i s = vissue i body s)
    (hbody : body en t = r.trapAt u c tv e) (hd : r.spec.tplot = d.toNat) (hu : Steady r.src u) :
    ∃ z, Claims.trapsAt i s z r c tv d e ∧ (r.selfov = true → Restored r.src z) ∧ (r.selfov = false → Restored u z) := by
  obtain ⟨z, x, v, hz, h0, h1, hc, ht, hv, hvi, hvp, hvd, hvs, hcell⟩ := trapAt_calm (α := State) hr u c tv e
  refine ⟨z, ⟨x, v, ?_, hc, ht, hv, hvi.trans hb.instr, hvp.trans hb.entryPc, hvd.trans hd, ?_, hvs⟩, h0, h1⟩
  · rw [hx, hb.runs]
    exact vtry_trap (hbody.trans hz)
  · have hlt : d.toNat < 64 := d.isLt
    rw [hcell (by rw [hd]; exact hlt), hd, BitVec.ofNat_toNat, BitVec.setWidth_eq]
    split
    · rfl
    · exact congrArg (State.cellWord · e) (hu.plotOf d)

/-! ### Loads of an element -/

/-- An access of a state without marks reads what memory holds. -/
theorem State.ErrorFree.clean {s : State} (h : s.ErrorFree) (pa n : Nat) : s.poisonedAt pa n = false := by
  unfold State.poisonedAt
  rw [h.poison]
  rfl

/-- The loader reads, for agent a, what memory holds where the access arrives, and stops where the access stops; on the addresses that
`ok` admits. -/
structure Fetches (a : Agent) (ok : State → Word → Prop) (ld : Loader) : Prop where
  arrives : ∀ {s v : State} {va : Word} {z : Nat} {p : State.Reached}, s.ErrorFree → ok s va → s.reach a .load .strand va z = .ok (p, v) →
    ∃ w, ld s va z = .ok (some (s.mem.num p.pa z), w) ∧ Kept s w ∧ State.Sound s w
  stops : ∀ {s : State} {va : Word} {z : Nat} {x : AStop}, ok s va → s.reach a .load .strand va z = .error x → ld s va z = .error x
  misaligned : ∀ {s : State} {va : Word} {z : Nat}, va.toNat % z ≠ 0 → ld s va z = .error (.fault s { cause := 0x04, tval := va })

namespace State

theorem load_error {s : State} {a : Agent} {va : Word} {n : Nat} {keep : Keep} {x : AStop} (h : s.reach a .load .strand va n = .error x) :
    s.load a va n keep = .error x := by
  unfold load
  rw [access_error h]
  rfl

theorem load_arrives {s v : State} {a : Agent} {va : Word} {n : Nat} {keep : Keep} {p : Reached} (hs : s.ErrorFree) (ha : a.isScalar = false)
    (h : s.reach a .load .strand va n = .ok (p, v)) :
    ∃ w, s.load a va n keep = .ok (some (s.mem.num p.pa n), w) ∧ Kept s w ∧ Sound s w := by
  have hk : Kept s (v.touch s.ctx.who p.path (p.pa / 128) false false keep) := ((kept_reach s a .load .strand va n).ok h).trans (kept_touch _ _ _ _ _ _ _)
  have hsound : Sound s (v.touch s.ctx.who p.path (p.pa / 128) false false keep) := (((Sound.refl s).reach a .load .strand va n).ok h).trans (sound_touch _ _ _ _ _ _ _)
  have hacc : s.access a .load .strand va n keep = .ok (p, v.touch s.ctx.who p.path (p.pa / 128) false false keep) := by
    unfold access
    rw [h]
    rfl
  refine ⟨_, ?_, hk, hsound⟩
  rw [load_eq_loaded hacc, loaded_clean ((hsound.free hs).clean _ _), readAt_mem (by rw [ha]; rfl), hk.mem]

end State

theorem plainLoad_fetches {a : Agent} (ha : a.isScalar = false) (keep : Keep) (ok : State → Word → Prop) : Fetches a ok (plainLoad a keep) where
  arrives hs _ h := State.load_arrives hs ha h
  stops _ h := State.load_error h
  misaligned h := State.load_error (State.reach_misaligned _ a .load .strand h)

/-- An address of vldt lies in a mapping of the core's stash (R219). -/
def InStash (s : State) (va : Word) : Prop := (s.stashAt s.ctx.core va).isSome = true

theorem stashLoad_inStash {s : State} {va : Word} (h : InStash s va) (z : Nat) : stashLoad s va z = s.load .vector va z .normal := if_pos h

theorem stashLoad_fetches : Fetches .vector InStash stashLoad where
  arrives hs hok h := by
    rw [stashLoad_inStash hok]
    exact State.load_arrives hs rfl h
  stops hok h := by
    rw [stashLoad_inStash hok]
    exact State.load_error h
  misaligned {s va z} h := by
    unfold stashLoad
    split
    · exact State.load_error (State.reach_misaligned s .vector .load .strand h)
    · have hc : s.checked s.ctx.who s.ctx .vector .load .strand z va z = .error (.fault s { cause := 0x04, tval := va }) := if_pos (bne_iff_ne.2 h)
      rw [hc]
      rfl

/-! A strided load with a gathered line (R37). -/

namespace State

/-- Caches may be touched, and the core may hold another gathered line. -/
theorem addGathered_kept (s : State) (d : Word) (z : Nat) (va : Word) : Kept s (s.addGathered d z va) ∧ Sound s (s.addGathered d z va) := by
  unfold addGathered
  extract_lets core take
  have h : Kept s ((List.range (128 / z)).foldl take ([], s)).2 ∧ Sound s ((List.range (128 / z)).foldl take ([], s)).2 := by
    refine foldl_ind (P := fun st : List Nat × State => Kept s st.2 ∧ Sound s st.2) (fun st i h => ?_) _ ⟨Kept.refl s, Sound.refl s⟩
    simp only [take]
    split
    · exact h
    · next pa _ =>
      exact ⟨h.1.trans (kept_touch st.2 st.2.ctx.who .l2 (pa / 128) false false .no),
        h.2.trans (sound_touch st.2 st.2.ctx.who .l2 (pa / 128) false false .no)⟩
  split
  · next e => rw [e] at h; exact h
  · next e =>
    rw [e] at h
    exact ⟨(h.1.trans (kept_l1Evict _ _ _ _)).trans (Kept.of_caches _ _ _ _ _), (h.2.trans (sound_l1Evict _ _ _ _)).trans (sound_modCore _ _ _)⟩

/-- What a large stride does to the caches on the way of an element. -/
theorem stridedTouch_kept {s s1 : State} {p : Reached} (h : Kept s s1) (hs : Sound s s1) (d : Word) (z : Nat) (va : Word) (keep : Keep) :
    let s2 := if (p.path.isL1 s1.ctx.core && s1.gatheredHit s1.ctx.core d.toInt z p.pa) = true then s1.countCtx 0x06 1
      else
        let s2 := s1.touch s.ctx.who p.path (p.pa / 128) false false .no
        if (p.path.isL1 s1.ctx.core && !s1.myCore.l1.any (fun l => l.line == p.pa / 128) && keep != .no) = true then s2.addGathered d z va else s2
    Kept s s2 ∧ Sound s s2 := by
  dsimp only
  split
  · exact ⟨h.trans (kept_countCtx _ _ _), hs.trans (sound_countCtx _ _ _)⟩
  · have hk := h.trans (kept_touch s1 s.ctx.who p.path (p.pa / 128) false false .no)
    have ht := hs.trans (sound_touch s1 s.ctx.who p.path (p.pa / 128) false false .no)
    split
    · exact ⟨hk.trans (addGathered_kept _ _ _ _).1, ht.trans (addGathered_kept _ _ _ _).2⟩
    · exact ⟨hk, ht⟩

end State

theorem stridedLoad_fetches (d : Word) (keep : Keep) (ok : State → Word → Prop) : Fetches .vector ok (stridedLoad d keep) := by
  by_cases hd : d.toInt.natAbs ≤ 128
  · have hld : stridedLoad d keep = plainLoad .vector keep := funext fun _ => funext fun _ => funext fun _ => if_pos hd
    rw [hld]
    exact plainLoad_fetches rfl keep ok
  · have hstop {s : State} {va : Word} {z : Nat} {x : AStop} (h : s.reach .vector .load .strand va z = .error x) : stridedLoad d keep s va z = .error x := by
      unfold stridedLoad
      rw [if_neg hd, h]
      rfl
    refine ⟨fun {s v va z p} hs _ h => ?_, fun _ h => hstop h, fun h => hstop (State.reach_misaligned _ .vector .load .strand h)⟩
    obtain ⟨hk, ht⟩ := State.stridedTouch_kept (p := p) ((State.kept_reach s .vector .load .strand va z).ok h)
      (((State.Sound.refl s).reach .vector .load .strand va z).ok h) d z va keep
    refine ⟨_, ?_, hk, ht⟩
    unfold stridedLoad
    rw [if_neg hd, h]
    dsimp only [bind, Except.bind]
    rw [if_neg (by rw [(ht.free hs).clean]; decide), hk.mem]

end Sys2Proof.Machine

/-! ### Loads -/

namespace Sys2Proof.Machine

/-- The marks of vector memory are those the claims ask for. -/
theorem errorFree_of_calm {s : State} (h : Claims.memCalm s) : s.ErrorFree := ⟨h.1, h.2.1, h.2.2.1, h.2.2.2.2⟩

theorem board_of_calm {s : State} (h : Claims.memCalm s) : s.myCore.board = [] := h.2.2.2.1

/-- What a refused access leaves. -/
theorem kept_refused {s y : State} {a : Agent} {k : Acc} {sc : Scope} {va : Word} {n : Nat} {f : XFault}
    (h : s.reach a k sc va n = .error (.fault y f)) : Kept s y ∧ State.Sound s y := by
  have hk := State.kept_reach s a k sc va n
  rw [h] at hk
  exact ⟨hk, ((State.Sound.refl s).reach a k sc va n).error h⟩

/-- A state after an element of plot d has received v: the rest of the Field is as it was. -/
structure Received (s u : State) (d : VReg) (e v : Nat) : Prop where
  value : u.elem d e = v % 2 ^ (16 * plotEw (s.plotOf d))
  others : ∀ c, c ∉ plotCells (s.plotOf d) e → sget 0 u.myCore.field c = sget 0 s.myCore.field c

/-- An element written after steps that leave the Field. -/
theorem received_setElem {s w : State} (h : Steady s w) (hf : SameField s w) (hw : swf 0 0 s.myCore.field = true) (d : VReg) (e v : Nat) :
    Received s (w.setElem d e v) d e v := by
  have hfield := hf.myCore h
  rw [← hfield] at hw
  refine ⟨?_, fun c hc => ?_⟩
  · rw [State.elem_setElem_same hw, h.plotOf]
  · rw [State.field_setElem_other hw (by rwa [h.plotOf]), hfield]

/-- One element loaded (R79). -/
theorem loadElem_arrives {r : VRun} {ld : Loader} {enc : Enc} {sat : Bool} {t : ETy} {d : VReg} {va : Nat → Word × Bool} {z e b : Nat} {s w : State}
    (hld : ld s (va e).1 z = .ok (some b, w)) (hk : Kept s w) (hs : State.Sound s w) :
    ∃ u, r.loadElem' ld enc sat t d va z false s e = .ok u ∧ Steady s u ∧ u.mem = s.mem ∧
      (swf 0 0 s.myCore.field = true → Received s u d e (loadConv enc sat t none b).1) := by
  have h0 : Steady s (w.vectorPoison (va e).2) := (Steady.of_kept hk hs).trans (Steady.vectorPoison w _)
  have hst : Steady s ((w.vectorPoison (va e).2).clampIf (loadConv enc sat t none b).2) := h0.trans (Steady.clampIf _ _)
  have hf : SameField s ((w.vectorPoison (va e).2).clampIf (loadConv enc sat t none b).2) :=
    (SameField.trans hk.field (SameField.vectorPoison w _)).trans (SameField.clampIf _ _)
  refine ⟨((w.vectorPoison (va e).2).clampIf (loadConv enc sat t none b).2).setElem d e (loadConv enc sat t none b).1, ?_,
    hst.trans (Steady.setElem _ _ _ _), ?_, fun hw => received_setElem hst hf hw d e _⟩
  · unfold VRun.loadElem' VRun.loadElem
    rw [hld]
    rfl
  · rw [State.setElem_mem, clampIf_mem, vectorPoison_mem, hk.mem]

theorem loadElem_stops {r : VRun} {ld : Loader} {enc : Enc} {sat : Bool} {t : ETy} {d : VReg} {va : Nat → Word × Bool} {z e : Nat} {s y : State}
    {f : XFault} (hld : ld s (va e).1 z = .error (.fault y f)) :
    r.loadElem' ld enc sat t d va z false s e = r.trapAt y f.cause f.tval e := by
  unfold VRun.loadElem' VRun.loadElem
  rw [hld, VRun.acc_fault, VRun.trapAt_bind]

/-- The loop over the elements, completion, and the acquire. -/
def loadLoop (r : VRun) (ld : Loader) (enc : Enc) (sat : Bool) (t : ETy) (d : VReg) (va : Nat → Word × Bool) (z : Nat) (acq : Option Scope) : Res State := do
  let u ← r.each (r.loadElem' ld enc sat t d va z) r.src
  let u ← r.done u
  .ok (u.acquire acq)

/-- A load of single elements, as its instruction runs: loader, addresses, and the acquire at its end. -/
structure LoadRun (s : State) (i : Instr) (r : VRun) (en : VQEntry) (t0 : State) (t : ETy) (d : VReg) (k : AKind) (addr : Nat → Word) where
  body : VQEntry → State → Res State
  ld : Loader
  va : Nat → Word × Bool
  ok : State → Word → Prop
  acq : Option Scope
  issues : exec i s = vissue i body s
  fetches : Fetches (Claims.vagent i) ok ld
  admits : ∀ (u : State) (e : Nat), (k = .vldt → InStash u (addr e)) → ok u (addr e)
  addrs : ∀ e, (va e).1 = addr e
  runs : body en t0 = loadLoop r ld (Claims.readAs k (mform r.src.ctx.mfmt).enc) (mform r.src.ctx.mfmt).sat t d va (Claims.stored r t) acq

section loads
variable {s t0 : State} {r : VRun} {en : VQEntry} {t : ETy} {o : VOpts} {q : LdOrd} {c : BitVec 4} {d : VReg}

/-- What the loads at addresses of their own share. -/
theorem loadAll_eq {kind : AKind} {ld : Nat → Loader} {at' : Nat → VRun → Nat → Word × Bool} (ha : (mform r.src.ctx.mfmt).admits t kind = true)
    (hb : r.src.myCore.board = []) :
    loadAll kind ld t d at' r r.src =
      r.each (r.loadElem' (ld (Claims.stored r t)) (Claims.readAs kind (mform r.src.ctx.mfmt).enc) (mform r.src.ctx.mfmt).sat t d (at' (Claims.stored r t) r)
        (Claims.stored r t)) r.src := by
  unfold loadAll
  dsimp only
  rw [vcheck_of ha, VRun.board_of_empty hb]
  rfl

/-- The unit-stride body, where the scale mode is none. -/
theorem vldBody_eq {x : XReg} (hb : vbegin en (memSpec 1 o (some (d, some (ETy.cells t))) [] d false) t0 = .ok r) (hfmt : t0.ctx.mfmt = r.src.ctx.mfmt)
    (hs : (mform r.src.ctx.mfmt).scale = 0) (ha : (mform r.src.ctx.mfmt).admits t .unit = true) (hboard : r.src.myCore.board = []) :
    vldBody t o q x d 0 en t0 = loadLoop r (plainLoad .vector (r.src.keeps (r.vl * Claims.stored r t))) (mform r.src.ctx.mfmt).enc (mform r.src.ctx.mfmt).sat
      t d (fun e => (en.x x + word (e * Claims.stored r t), false)) (Claims.stored r t) (acqOf q) := by
  unfold vldBody Claims.stored
  rw [hfmt]
  generalize mform r.src.ctx.mfmt = m at hs ha
  obtain ⟨enc, sat, scale⟩ := m
  obtain rfl : scale = 0 := hs
  have hk : vcheck r.entry (memSpec 1 o (some (d, some (ETy.cells t))) [] d false)
      ((⟨enc, sat, 0⟩ : MForm).admits t .unit && ((0 : Nat) != 0 || (0 : VReg) == 0)) r.src 0x02 = .ok () := vcheck_of (by rw [ha]; rfl)
  simp only [Nat.reduceBEq, Bool.false_eq_true, if_false]
  rw [hb]
  dsimp only [bind, Except.bind]
  rw [hk]
  have hrun (l : Res State) : (r.board (fun e => en.x x + word (e * enc.size t)) (enc.size t) r.src >>= fun _ => l) = l := by
    rw [VRun.board_of_empty hboard]
    rfl
  cases enc with
  | group => cases ha
  | native => exact hrun _
  | fp => exact hrun _
  | int => exact hrun _

theorem plain_of_load {i : Instr} {b : List (VReg × Option Nat)} {k : AKind} {addr : Nat → Word}
    (h : Claims.vloadForm s r i = some (t, o, q, d, b, k, addr)) : Plain i := by
  unfold Claims.vloadForm at h
  split at h
  iterate 4 · exact fun _ => rfl
  · cases h

/-- The address of an indexed element, as the claims write it (R215). -/
theorem indexed_addr (base : Word) (v : VReg) (long : Bool) (e : Nat) : (r.indexed base v long e).1 = base + Claims.indexOf r v long e := by
  unfold VRun.indexed Claims.indexOf
  cases long
  · exact congrArg (base + ·) (wordI_sextN 32 _)
  · exact congrArg (base + ·) ((wordI_sextN 64 _).trans (BitVec.signExtend_eq _))

/-- Every load of single elements runs its elements one by one (R215, R219). -/
theorem loadRun_of_form {i : Instr} {b : List (VReg × Option Nat)} {k : AKind} {addr : Nat → Word}
    (h : Claims.vloadForm s r i = some (t, o, q, d, b, k, addr)) (hb : Begun s i (memSpec 1 o (some (d, some (ETy.cells t))) b d false) r en t0)
    (hs : (mform r.src.ctx.mfmt).scale = 0 ∨ k = .vldt) (ha : (mform r.src.ctx.mfmt).admits t k = true) (hboard : r.src.myCore.board = []) :
    Nonempty (LoadRun s i r en t0 t d k addr) := by
  have hbegins := hb.begins
  unfold Claims.vloadForm at h
  split at h
  · next x _ _ =>
    split at h
    · next hc =>
      cases h
      subst hc
      exact ⟨⟨vldBody t o q x d 0, _, fun e => (en.x x + word (e * Claims.stored r t), false), fun _ _ => True, _, rfl, plainLoad_fetches rfl _ _,
        fun _ _ _ => trivial, fun e => by rw [← hb.enX x]; rfl, vldBody_eq hbegins hb.format (hs.resolve_right (by decide)) ha hboard⟩⟩
    · cases h
  · next x p _ =>
    cases h
    refine ⟨⟨vldStridedBody t o q x p d, stridedLoad (en.x p) (r.src.keeps (r.vl * (en.x p).toInt.natAbs)), fun e => (en.x x + word e * en.x p, false), fun _ _ => True, acqOf q, rfl, stridedLoad_fetches (en.x p) _ _,
      fun _ _ _ => trivial, fun e => by rw [← hb.enX x, ← hb.enX p]; rfl, ?_⟩⟩
    unfold vldStridedBody
    rw [hbegins]
    dsimp only [bind, Except.bind]
    rw [loadAll_eq ha hboard]
    rfl
  · next long x _ v =>
    cases h
    refine ⟨⟨vldxBody t o q long x d v, _, r.indexed (en.x x) v long, fun _ _ => True, acqOf q, rfl, plainLoad_fetches rfl .normal _,
      fun _ _ _ => trivial, fun e => by rw [← hb.enX x]; exact indexed_addr _ v long e, ?_⟩⟩
    have hspec : memSpec 1 o (some (d, some (ETy.cells t))) [(v, some (ixCells long))] d false =
        memSpec 1 o (some (d, some (ETy.cells t))) [(v, some (if long then 4 else 2))] d false := by cases long <;> rfl
    unfold vldxBody
    rw [hspec, hbegins]
    dsimp only [bind, Except.bind]
    rw [loadAll_eq ha hboard]
    rfl
  · next x p _ =>
    cases h
    refine ⟨⟨vldtBody t o q x p d, stashLoad, fun e => (vldtAddr (en.x x) (en.x p) (Claims.stored r t) e, false), InStash, acqOf q, rfl, stashLoad_fetches,
      fun _ _ h => h rfl, fun e => by rw [← hb.enX x, ← hb.enX p]; rfl, ?_⟩⟩
    unfold vldtBody
    rw [hbegins]
    dsimp only [bind, Except.bind]
    rw [loadAll_eq ha hboard]
    rfl
  · cases h

end loads

/-! ### What the claims ask of the state that a run leaves -/

/-- The state after completion: the registers, masks and pc are as dispatch left them, memory and Field as the elements did. -/
structure Ran (s : State) (r : VRun) (u x : State) : Prop where
  masks : Claims.masksStay r x
  getX : ∀ q, x.ctx.getX q = s.ctx.getX q
  pc : x.ctx.pc = s.ctx.pc + 8
  mem : x.mem = u.mem
  field : ∀ c, sget 0 x.myCore.field c = sget 0 u.myCore.field c
  elem : ∀ v e, x.elem v e = u.elem v e

theorem ran_of {s u w : State} {i : Instr} {r : VRun} (hi : Issued s i r) (hs : Steady r.src u) (hf : Finished u w) (c : Option Scope) :
    Ran s r u (w.acquire c) := by
  have hk := kept_acquire w c
  have hctx : (w.acquire c).ctx = { u.ctx with vstart := w.ctx.vstart } := hk.ctx.trans hf.ctx
  have hcore : (w.acquire c).myCore.field = u.myCore.field := by
    unfold State.myCore
    rw [hk.field, hf.field, hctx]
    rfl
  have hplot (v : VReg) : (w.acquire c).plotOf v = u.plotOf v := by unfold State.plotOf; rw [hctx]; rfl
  refine ⟨fun m => ?_, fun q => ?_, ?_, hk.mem.trans hf.mem, fun a => by rw [hcore], fun v e => ?_⟩
  · rw [hctx]; exact hs.mask m
  · rw [hctx]; exact (hs.getX q).trans (hi.x q)
  · rw [hctx]; exact hs.pc.trans hi.pc
  · unfold State.elem Core.elem
    rw [hcore, hplot]

/-- One element has received its value. -/
theorem elements_one {s u x : State} {r : VRun} {d : VReg} {e v : Nat} (hr : Ran s r u x) (he : r.elems = [e]) (hu : Received r.src u d e v) :
    Claims.elements r x d (fun _ => some v) := by
  refine ⟨fun j hj => ?_, fun c hc => ?_⟩
  · rw [he, List.mem_singleton] at hj
    rw [hj, hr.elem]
    exact hu.value
  · rw [hr.field]
    exact hu.others c (hc e (by rw [he]; exact List.mem_singleton_self e))

theorem fieldStays_of {s u x : State} {r : VRun} (hr : Ran s r u x) (hs : Steady r.src u) (hf : SameField r.src u) : Claims.fieldStays r x := by
  intro c
  rw [hr.field, hf.myCore hs]

/-! ### The claims about loads -/

section loadClaims
variable {s t0 v : State} {i : Instr} {r : VRun} {en : VQEntry} {t : ETy} {o : VOpts} {q : LdOrd} {d : VReg} {b : List (VReg × Option Nat)} {k : AKind}
  {addr : Nat → Word} {e pa : Nat} {l : State.Reached}

/-- The element of a load arrives. -/
theorem LoadRun.element (L : LoadRun s i r en t0 t d k addr) (hm : Claims.memCalm r.src) (hk : k = .vldt → (r.src.stashAt r.src.ctx.core (addr e)).isSome = true)
    (hreach : r.src.reach (Claims.vagent i) .load .strand (addr e) (Claims.stored r t) = .ok (l, v)) :
    ∃ u, r.loadElem' L.ld (Claims.readAs k (mform r.src.ctx.mfmt).enc) (mform r.src.ctx.mfmt).sat t d L.va (Claims.stored r t) false r.src e = .ok u ∧
      Steady r.src u ∧ u.mem = r.src.mem ∧ (swf 0 0 r.src.myCore.field = true → Received r.src u d e
        (loadConv (Claims.readAs k (mform r.src.ctx.mfmt).enc) (mform r.src.ctx.mfmt).sat t none (r.src.mem.num l.pa (Claims.stored r t))).1) := by
  obtain ⟨w, hld, hkept, hsound⟩ := L.fetches.arrives (errorFree_of_calm hm) (L.admits r.src e hk) hreach
  rw [← L.addrs e] at hld
  exact loadElem_arrives hld hkept hsound

theorem load_access (hcalm : Claims.calm r) (hm : Claims.memCalm r.src) (he : r.elems = [e]) (hw : s.mem.wf = true)
    (hform : Claims.vloadForm s r i = some (t, o, q, d, b, k, addr)) (hscale : (mform r.src.ctx.mfmt).scale = 0 ∨ k = .vldt)
    (ha : (mform r.src.ctx.mfmt).admits t k = true) (hd : Claims.dispatches s i (memSpec 1 o (some (d, some (ETy.cells t))) b d false) r)
    (hp : Claims.placed r d) (hk : k = .vldt → (r.src.stashAt r.src.ctx.core (addr e)).isSome = true)
    (hreach : r.src.reach (Claims.vagent i) .load .strand (addr e) (Claims.stored r t) = .ok (l, v)) :
    ∃ u, exec i s = .next u ∧ Claims.onward s u ∧ Claims.masksStay r u ∧ Claims.elements r u d (fun _ =>
      some (loadConv (Claims.readAs k (mform r.src.ctx.mfmt).enc) (mform r.src.ctx.mfmt).sat t none (Claims.value s.mem l.pa (Claims.stored r t))).1) := by
  obtain ⟨hsf, hq, -⟩ := hcalm
  obtain ⟨en, t0, hb⟩ := dispatches_begun (plain_of_load hform) hd
  obtain ⟨L⟩ := loadRun_of_form hform hb hscale ha (board_of_calm hm)
  obtain ⟨u, hu, hst, hmem, hrec⟩ := L.element hm hk hreach
  obtain ⟨w, hw', hfin, hvs⟩ := done_ok r u
  have hran := ran_of hb.toIssued hst hfin L.acq
  have hnum : r.src.mem.num l.pa (Claims.stored r t) = Claims.value s.mem l.pa (Claims.stored r t) := by rw [hb.mem, num_eq_value hw]
  refine ⟨w.acquire L.acq, ?_, ⟨hran.mem.trans (hmem.trans hb.mem), hran.getX, hran.pc, fun ht => ?_⟩, hran.masks, ?_⟩
  · rw [L.issues, hb.runs]
    refine vtry_ok (L.runs.trans ?_)
    unfold loadLoop
    rw [VRun.each_one hsf hq he hu (hst.quiet hq)]
    dsimp only [bind, Except.bind]
    rw [hw']
  · rw [(kept_acquire w L.acq).ctx]
    exact hvs (hst.inTrap.trans (hb.inTrap.trans ht))
  · rw [← hnum]
    exact elements_one hran he (hrec hp.1)

/-- A load whose element is refused. -/
theorem LoadRun.stops (L : LoadRun s i r en t0 t d k addr) (hb : Begun s i (memSpec 1 o (some (d, some (ETy.cells t))) b d false) r en t0)
    (hsf : r.sfault = none) {u : State} {c : Nat} {tv : Word} {e : Nat} (hu : Steady r.src u)
    (heach : r.each (r.loadElem' L.ld (Claims.readAs k (mform r.src.ctx.mfmt).enc) (mform r.src.ctx.mfmt).sat t d L.va (Claims.stored r t)) r.src =
      r.trapAt u c tv e) :
    ∃ z, Claims.trapsAt i s z r c tv d e ∧ (r.selfov = true → Restored r.src z) ∧ (r.selfov = false → Restored u z) := by
  have hspec : r.spec.tplot = d.toNat := by rw [(vbegin_ok hb.begins).1]; rfl
  refine trapsAt_of hb hsf L.issues ?_ hspec hu
  rw [L.runs]
  unfold loadLoop
  rw [heach]
  exact r.trapAt_bind _ _ _ _ _

/-- What stands at a trap of an element before which nothing was written. -/
theorem untouched_of {z u : State} (hi : Issued s i r) (hk : Kept r.src u) (h0 : r.selfov = true → Restored r.src z) (h1 : r.selfov = false → Restored u z) :
    z.mem = s.mem ∧ Claims.masksStay r z ∧ Claims.fieldStays r z := by
  have ht (a : State) (ha : Kept r.src a) (h : Restored a z) : z.mem = s.mem ∧ Claims.masksStay r z ∧ Claims.fieldStays r z := by
    refine ⟨h.mem.trans (ha.mem.trans hi.mem), fun m => ?_, fun c => ?_⟩
    · rw [h.mask, ha.ctx]
    · rw [h.myCore]
      unfold State.myCore
      rw [ha.field, ha.ctx]
  cases ho : r.selfov
  · exact ht u hk (h1 ho)
  · exact ht r.src (Kept.refl _) (h0 ho)

theorem load_refused {y : State} {f : XFault} {e : Nat} (hcalm : Claims.calm r) (hm : Claims.memCalm r.src) (he : r.elems = [e])
    (hform : Claims.vloadForm s r i = some (t, o, q, d, b, k, addr)) (hscale : (mform r.src.ctx.mfmt).scale = 0 ∨ k = .vldt)
    (ha : (mform r.src.ctx.mfmt).admits t k = true) (hd : Claims.dispatches s i (memSpec 1 o (some (d, some (ETy.cells t))) b d false) r)
    (hk : k = .vldt → (r.src.stashAt r.src.ctx.core (addr e)).isSome = true)
    (hreach : r.src.reach (Claims.vagent i) .load .strand (addr e) (Claims.stored r t) = .error (.fault y f)) :
    ∃ z, Claims.trapsAt i s z r f.cause f.tval d e ∧ z.mem = s.mem ∧ Claims.masksStay r z ∧ Claims.fieldStays r z := by
  obtain ⟨hsf, hq, -⟩ := hcalm
  obtain ⟨en, t0, hb⟩ := dispatches_begun (plain_of_load hform) hd
  obtain ⟨L⟩ := loadRun_of_form hform hb hscale ha (board_of_calm hm)
  obtain ⟨hkept, hsound⟩ := kept_refused hreach
  have hld := L.fetches.stops (L.admits r.src e hk) hreach
  rw [← L.addrs e] at hld
  have hstop := loadElem_stops (r := r) (enc := Claims.readAs k (mform r.src.ctx.mfmt).enc) (sat := (mform r.src.ctx.mfmt).sat) (t := t) (d := d) hld
  obtain ⟨_, x, _, hx, -⟩ := trapAt_calm (α := State) hsf y f.cause f.tval e
  have heach := VRun.each_one_error hsf hq he (hstop.trans hx)
  obtain ⟨z, hz, h0, h1⟩ := L.stops hb hsf (Steady.of_kept hkept hsound) (heach.trans hx.symm)
  exact ⟨z, hz, untouched_of hb.toIssued hkept h0 h1⟩

theorem load_second {e j : Nat} (hcalm : Claims.calm r) (hm : Claims.memCalm r.src) (he : r.elems = [e, j]) (hw : s.mem.wf = true)
    (hform : Claims.vloadForm s r i = some (t, o, q, d, b, k, addr)) (hscale : (mform r.src.ctx.mfmt).scale = 0 ∨ k = .vldt)
    (ha : (mform r.src.ctx.mfmt).admits t k = true) (hd : Claims.dispatches s i (memSpec 1 o (some (d, some (ETy.cells t))) b d false) r)
    (hp : Claims.placed r d) (hk : k = .vldt → (r.src.stashAt r.src.ctx.core (addr e)).isSome = true)
    (hreach : r.src.reach (Claims.vagent i) .load .strand (addr e) (Claims.stored r t) = .ok (l, v)) (hj : (addr j).toNat % Claims.stored r t ≠ 0) :
    ∃ z, Claims.trapsAt i s z r 0x04 (addr j) d j ∧ z.mem = s.mem ∧ Claims.masksStay r z ∧ (r.selfov = true → Claims.fieldStays r z) ∧
      (r.selfov = false → z.elem d e = (loadConv (Claims.readAs k (mform r.src.ctx.mfmt).enc) (mform r.src.ctx.mfmt).sat t none
          (Claims.value s.mem l.pa (Claims.stored r t))).1 % 2 ^ (16 * plotEw (r.src.plotOf d)) ∧
        ∀ c, c ∉ plotCells (r.src.plotOf d) e → sget 0 z.myCore.field c = sget 0 r.src.myCore.field c) := by
  obtain ⟨hsf, hq, -⟩ := hcalm
  obtain ⟨en, t0, hb⟩ := dispatches_begun (plain_of_load hform) hd
  obtain ⟨L⟩ := loadRun_of_form hform hb hscale ha (board_of_calm hm)
  obtain ⟨u, hu, hst, hmem, hrec⟩ := L.element hm hk hreach
  have hrec := hrec hp.1
  have hnum : r.src.mem.num l.pa (Claims.stored r t) = Claims.value s.mem l.pa (Claims.stored r t) := by rw [hb.mem, num_eq_value hw]
  have hld := L.fetches.misaligned (s := u) hj
  rw [← L.addrs j] at hld
  have hstop := loadElem_stops (r := r) (enc := Claims.readAs k (mform r.src.ctx.mfmt).enc) (sat := (mform r.src.ctx.mfmt).sat) (t := t) (d := d) hld
  rw [L.addrs j] at hstop
  obtain ⟨_, x, _, hx, -⟩ := trapAt_calm (α := State) hsf u 0x04 (addr j) j
  have heach := VRun.each_two_error hsf hq he hu (hst.quiet hq) (hstop.trans hx)
  obtain ⟨z, hz, h0, h1⟩ := L.stops hb hsf hst (heach.trans hx.symm)
  cases ho : r.selfov
  · have h := h1 ho
    refine ⟨z, hz, h.mem.trans (hmem.trans hb.mem), fun m => (h.mask m).trans (hst.mask m), fun hh => absurd hh (by decide), fun _ => ⟨?_, fun c hc => ?_⟩⟩
    · rw [h.elem, ← hnum]
      exact hrec.value
    · rw [h.myCore]
      exact hrec.others c hc
  · obtain ⟨hmem', hmask, hfield⟩ := untouched_of (u := r.src) hb.toIssued (Kept.refl _) h0 (fun hh => absurd (ho.symm.trans hh) (by decide))
    exact ⟨z, hz, hmem', hmask, fun _ => hfield, fun hh => absurd hh (by decide)⟩

end loadClaims

end Sys2Proof.Machine

/-! ### Stores -/

namespace Sys2Proof.Machine

theorem vbegin_unwritten {en : VQEntry} {k : VSpec} {s : State} {r : VRun} (h : vbegin en k s = .ok r) (hd : k.dest = none) : r.selfov = false :=
  (vbegin_ok h).2.1 hd

/-- What stands after v has been written to n bytes at pa: nothing but memory has changed of what the claims speak of. -/
structure Wrote (s u : State) (pa n v : Nat) : Prop where
  steady : Steady s u
  field : SameField s u
  mem : u.mem = s.mem.setNum pa n v

/-- An agent whose writes are the context's own, and reach memory. -/
def OwnWriter (a : Agent) : Prop := a.isScalar = false ∧ ∀ s : State, s.writer a = some s.ctx.id

theorem ownWriter_vector : OwnWriter .vector := ⟨rfl, fun _ => rfl⟩
theorem ownWriter_gather : OwnWriter .gather := ⟨rfl, fun _ => rfl⟩

theorem vagent_own (i : Instr) : OwnWriter (Claims.vagent i) := by
  unfold Claims.vagent
  split
  · exact ownWriter_gather
  · exact ownWriter_gather
  · exact ownWriter_gather
  · exact ownWriter_vector

theorem wrote_putBytes {s y : State} (hk : Kept s y) (hs : State.Sound s y) (pa n v : Nat) :
    Wrote s (y.putBytes (some s.ctx.id) pa (leBytes n v)) pa n v := by
  obtain ⟨h1, h2⟩ := State.steady_putBytes y (w := some s.ctx.id) (by rw [hk.ctx]) pa (leBytes n v)
  exact ⟨(Steady.of_kept hk hs).trans h1, SameField.trans hk.field h2, by rw [State.putBytes_mem, hk.mem]; rfl⟩

/-- Later steps that leave memory and the Field. -/
theorem Wrote.later {s u x : State} {pa n v : Nat} (h : Wrote s u pa n v) (hs : Steady u x) (hf : SameField u x) (hm : x.mem = u.mem) : Wrote s x pa n v :=
  ⟨h.steady.trans hs, h.field.trans hf, hm.trans h.mem⟩

theorem Wrote.marked {s u : State} {pa n v : Nat} (h : Wrote s u pa n v) (bad : Bool) : Wrote s (u.vectorPoison bad) pa n v :=
  h.later (Steady.vectorPoison u bad) (SameField.vectorPoison u bad) (vectorPoison_mem u bad)

theorem pow_256 (n : Nat) : 2 ^ (8 * n) = 256 ^ n := pow_mul 2 8 n

theorem setNum_value {m : Memory} (h : m.wf = true) (pa n v : Nat) : Claims.value (m.setNum pa n v) pa n = v % 256 ^ n := by
  have hw : (m.setNum pa n v).wf = true := Memory.wf_setBytes h pa _
  rw [← num_eq_value hw, Memory.num_setNum h, pow_256]

theorem setNum_byte {m : Memory} (h : m.wf = true) {pa n c : Nat} (v : Nat) (hc : c < pa ∨ pa + n ≤ c) : (m.setNum pa n v).byte c = m.byte c :=
  Memory.byte_setBytes_of_outside h (by simpa using hc)

namespace State

theorem store_arrives {s y : State} {a : Agent} {va : Word} {n : Nat} {p : Reached} (ha : OwnWriter a) (v : Nat)
    (h : s.reach a .store .strand va n = .ok (p, y)) : ∃ u, s.store a va n v = .ok u ∧ Wrote s u p.pa n v := by
  have hk : Kept s (y.touch s.ctx.who p.path (p.pa / 128) true false .normal) := ((kept_reach s a .store .strand va n).ok h).trans (kept_touch _ _ _ _ _ _ _)
  have hs : Sound s (y.touch s.ctx.who p.path (p.pa / 128) true false .normal) := (((Sound.refl s).reach a .store .strand va n).ok h).trans (sound_touch _ _ _ _ _ _ _)
  refine ⟨_, ?_, wrote_putBytes hk hs p.pa n v⟩
  unfold store access
  rw [h]
  refine (putAt_mem (.inl ha.1)).trans ?_
  exact congrArg (fun w => Except.ok (putBytes _ w p.pa (leBytes n v))) ((hk.writer a).trans (ha.2 s))

theorem store_error {s : State} {a : Agent} {va : Word} {n v : Nat} {x : AStop} (h : s.reach a .store .strand va n = .error x) :
    s.store a va n v = .error x := by
  unfold store
  rw [access_error h]
  rfl

end State

/-- One element stored (R79). -/
theorem storeElem_arrives {r : VRun} {a : Agent} {enc : Enc} {sat : Bool} {t : ETy} {v : VReg} {va : Nat → Word × Bool} {z e : Nat} {s y : State}
    {p : State.Reached} (ha : OwnWriter a) (h : s.reach a .store .strand (va e).1 z = .ok (p, y)) :
    ∃ u, r.storeElem' a enc sat t v va z false s e = .ok u ∧ Wrote s u p.pa z (storeConv enc sat t none (r.get v t e).1).1 := by
  obtain ⟨u, hu, hw⟩ := State.store_arrives ha (storeConv enc sat t none (r.get v t e).1).1 h
  refine ⟨_, ?_, (hw.marked ((r.get v t e).2 || (va e).2)).later (Steady.clampIf _ (storeConv enc sat t none (r.get v t e).1).2) (SameField.clampIf _ _) (clampIf_mem _ _)⟩
  unfold VRun.storeElem' VRun.storeElem
  dsimp only [Bool.false_eq_true, if_false]
  rw [if_neg Bool.false_ne_true, hu]
  rfl

theorem storeElem_stops {r : VRun} {a : Agent} {enc : Enc} {sat : Bool} {t : ETy} {v : VReg} {va : Nat → Word × Bool} {z e : Nat} {s y : State} {f : XFault}
    (h : s.reach a .store .strand (va e).1 z = .error (.fault y f)) :
    r.storeElem' a enc sat t v va z false s e = r.trapAt y f.cause f.tval e := by
  unfold VRun.storeElem' VRun.storeElem
  dsimp only
  rw [State.store_error h, VRun.acc_fault]
  exact r.trapAt_bind _ _ _ _ _

/-- A release leaves the scoreboard. -/
theorem board_release {c : Option Scope} {s t : State} (h : release c s = .ok t) (hb : s.myCore.board = []) : t.myCore.board = [] := by
  unfold State.myCore at hb ⊢
  rw [(kept_release h).board, (kept_release h).ctx, hb]

/-- The loop over the elements from v on, and completion. -/
def storeLoop (r : VRun) (f : Bool → State → Nat → Res State) (v : State) : Res State := do
  let u ← r.each f v
  r.done u

/-- A store of single elements, as its instruction runs. -/
structure StoreRun (s : State) (i : Instr) (r : VRun) (en : VQEntry) (t0 : State) (t : ETy) (a : VReg) (v : State) (addr : Nat → Word) where
  body : VQEntry → State → Res State
  va : Nat → Word × Bool
  issues : exec i s = vissue i body s
  addrs : ∀ e, (va e).1 = addr e
  runs : body en t0 = storeLoop r (r.storeElem' (Claims.vagent i) (mform r.src.ctx.mfmt).enc (mform r.src.ctx.mfmt).sat t a va (Claims.stored r t)) v

theorem relOf_eq (q : StOrd) : relOf q = Claims.stScope q := by cases q <;> rfl

section stores
variable {s t0 v : State} {r : VRun} {en : VQEntry} {t : ETy} {o : VOpts} {q : StOrd} {a : VReg}

theorem storeAll_eq {g : Agent} {kind : AKind} {at' : VRun → Nat → Word × Bool} (ha : (mform r.src.ctx.mfmt).admits t kind = true)
    (hrel : release (Claims.stScope q) r.src = .ok v) (hb : r.src.myCore.board = []) :
    storeAll g kind t a at' q r =
      storeLoop r (r.storeElem' g (mform r.src.ctx.mfmt).enc (mform r.src.ctx.mfmt).sat t a (at' r) (Claims.stored r t)) v := by
  unfold storeAll
  dsimp only
  rw [vcheck_of ha, relOf_eq, hrel]
  dsimp only [bind, Except.bind]
  rw [VRun.board_of_empty (board_release hrel hb)]
  rfl

/-- The unit-stride body, where the scale mode is none. -/
theorem vstBody_eq {x : XReg} (hb : vbegin en (memSpec 2 o none [(a, some (ETy.cells t))] a false) t0 = .ok r) (hfmt : t0.ctx.mfmt = r.src.ctx.mfmt)
    (hs : (mform r.src.ctx.mfmt).scale = 0) (ha : (mform r.src.ctx.mfmt).admits t .unit = true) (hrel : release (Claims.stScope q) r.src = .ok v)
    (hboard : r.src.myCore.board = []) :
    vstBody t o q x a 0 en t0 = storeLoop r (r.storeElem' .vector (mform r.src.ctx.mfmt).enc (mform r.src.ctx.mfmt).sat t a
      (fun e => (en.x x + word (e * Claims.stored r t), false)) (Claims.stored r t)) v := by
  unfold vstBody Claims.stored
  rw [hfmt]
  generalize mform r.src.ctx.mfmt = m at hs ha
  obtain ⟨enc, sat, scale⟩ := m
  obtain rfl : scale = 0 := hs
  have hadm : vcheck r.entry (memSpec 2 o none [(a, some (ETy.cells t))] a false)
      ((⟨enc, sat, 0⟩ : MForm).admits t .unit && (((0 : Nat) != 0) || (0 : VReg) == 0)) r.src 0x02 = .ok () := vcheck_of (by rw [ha]; rfl)
  have hne : ((0 : Nat) != 0) = false := rfl
  dsimp only
  simp only [hne, Bool.false_eq_true, if_false] at hadm ⊢
  rw [hb]
  dsimp only [bind, Except.bind]
  rw [hadm]
  dsimp only
  rw [relOf_eq, hrel]
  dsimp only
  have hrun (l : Res State) : (r.board (fun e => en.x x + word (e * enc.size t)) (enc.size t) v >>= fun _ => l) = l := by
    rw [VRun.board_of_empty (board_release hrel hboard)]
    rfl
  cases enc with
  | group => cases ha
  | native => exact hrun _
  | fp => exact hrun _
  | int => exact hrun _

theorem plain_of_store {i : Instr} {b : List (VReg × Option Nat)} {k : AKind} {addr : Nat → Word}
    (h : Claims.vstoreForm s r i = some (t, o, q, a, b, k, addr)) : Plain i := by
  unfold Claims.vstoreForm at h
  split at h
  iterate 3 · exact fun _ => rfl
  · cases h

/-- Every store of single elements runs its elements one by one (R215). -/
theorem storeRun_of_form {i : Instr} {b : List (VReg × Option Nat)} {k : AKind} {addr : Nat → Word}
    (h : Claims.vstoreForm s r i = some (t, o, q, a, b, k, addr)) (hb : Begun s i (memSpec 2 o none ((a, some (ETy.cells t)) :: b) a false) r en t0)
    (hs : (mform r.src.ctx.mfmt).scale = 0) (ha : (mform r.src.ctx.mfmt).admits t k = true) (hrel : release (Claims.stScope q) r.src = .ok v)
    (hboard : r.src.myCore.board = []) : Nonempty (StoreRun s i r en t0 t a v addr) := by
  have hbegins := hb.begins
  unfold Claims.vstoreForm at h
  split at h
  · next x _ _ =>
    split at h
    · next hc =>
      cases h
      subst hc
      exact ⟨⟨vstBody t o q x a 0, fun e => (en.x x + word (e * Claims.stored r t), false), rfl, fun e => by rw [← hb.enX x]; rfl,
        vstBody_eq hbegins hb.format hs ha hrel hboard⟩⟩
    · cases h
  · next x p _ =>
    cases h
    refine ⟨⟨vstStridedBody t o q x p a, fun e => (en.x x + word e * en.x p, false), rfl, fun e => by rw [← hb.enX x, ← hb.enX p]; rfl, ?_⟩⟩
    unfold vstStridedBody
    rw [hbegins]
    dsimp only [bind, Except.bind]
    rw [storeAll_eq ha hrel hboard]
    rfl
  · next long x _ w =>
    cases h
    refine ⟨⟨vstxBody t o q long x a w, r.indexed (en.x x) w long, rfl, fun e => by rw [← hb.enX x]; exact indexed_addr _ w long e, ?_⟩⟩
    have hspec : memSpec 2 o none [(a, some (ETy.cells t)), (w, some (ixCells long))] a false =
        memSpec 2 o none [(a, some (ETy.cells t)), (w, some (if long then 4 else 2))] a false := by cases long <;> rfl
    unfold vstxBody
    rw [hspec, hbegins]
    dsimp only [bind, Except.bind]
    rw [storeAll_eq ha hrel hboard]
    rfl
  · cases h

end stores

/-! ### The claims about stores -/

section storeClaims
variable {s t0 v y : State} {i : Instr} {r : VRun} {en : VQEntry} {t : ETy} {o : VOpts} {q : StOrd} {a : VReg} {b : List (VReg × Option Nat)} {k : AKind}
  {addr : Nat → Word} {e : Nat} {l : State.Reached}

/-- What a release leaves is as calm as it was. -/
theorem steady_release {c : Option Scope} (h : release c s = .ok v) : Steady s v := Steady.of_kept (kept_release h) (State.sound_release h)

theorem StoreRun.element (L : StoreRun s i r en t0 t a v addr) (hreach : v.reach (Claims.vagent i) .store .strand (addr e) (Claims.stored r t) = .ok (l, y)) :
    ∃ u, r.storeElem' (Claims.vagent i) (mform r.src.ctx.mfmt).enc (mform r.src.ctx.mfmt).sat t a L.va (Claims.stored r t) false v e = .ok u ∧
      Wrote v u l.pa (Claims.stored r t) (storeConv (mform r.src.ctx.mfmt).enc (mform r.src.ctx.mfmt).sat t none (r.get a t e).1).1 := by
  rw [← L.addrs e] at hreach
  exact storeElem_arrives (vagent_own i) hreach

theorem store_access (hcalm : Claims.calm r) (hm : Claims.memCalm r.src) (he : r.elems = [e]) (hw : s.mem.wf = true)
    (hform : Claims.vstoreForm s r i = some (t, o, q, a, b, k, addr)) (hscale : (mform r.src.ctx.mfmt).scale = 0)
    (ha : (mform r.src.ctx.mfmt).admits t k = true) (hd : Claims.dispatches s i (memSpec 2 o none ((a, some (ETy.cells t)) :: b) a false) r)
    (hrel : release (Claims.stScope q) r.src = .ok v) (hreach : v.reach (Claims.vagent i) .store .strand (addr e) (Claims.stored r t) = .ok (l, y)) :
    ∃ u, exec i s = .next u ∧ Claims.masksStay r u ∧ Claims.fieldStays r u ∧ (∀ z, u.ctx.getX z = s.ctx.getX z) ∧ u.ctx.pc = s.ctx.pc + 8 ∧
      Claims.value u.mem l.pa (Claims.stored r t) =
        (storeConv (mform r.src.ctx.mfmt).enc (mform r.src.ctx.mfmt).sat t none (r.get a t e).1).1 % 256 ^ Claims.stored r t ∧
      ∀ c, c < l.pa ∨ l.pa + Claims.stored r t ≤ c → u.mem.byte c = s.mem.byte c := by
  obtain ⟨hsf, hq, -⟩ := hcalm
  obtain ⟨en, t0, hb⟩ := dispatches_begun (plain_of_store hform) hd
  obtain ⟨L⟩ := storeRun_of_form hform hb hscale ha hrel (board_of_calm hm)
  obtain ⟨u, hu, hwrote⟩ := L.element hreach
  have hv := steady_release hrel
  have hst := hv.trans hwrote.steady
  obtain ⟨w, hw', hfin, -⟩ := done_ok r u
  have hran := ran_of hb.toIssued hst hfin none
  have hmem : (w.acquire none).mem = s.mem.setNum l.pa (Claims.stored r t) _ := hran.mem.trans (hwrote.mem.trans (by rw [(kept_release hrel).mem, hb.mem]))
  refine ⟨w.acquire none, ?_, hran.masks, fieldStays_of hran hst (SameField.trans (kept_release hrel).field hwrote.field), hran.getX, hran.pc, ?_, fun c hc => ?_⟩
  · rw [L.issues, hb.runs]
    refine vtry_ok (L.runs.trans ?_)
    unfold storeLoop
    rw [VRun.each_one hsf (hv.quiet hq) he hu (hst.quiet hq)]
    exact hw'
  · rw [hmem, setNum_value hw]
  · rw [hmem, setNum_byte hw _ hc]

theorem StoreRun.stops (L : StoreRun s i r en t0 t a v addr) (hb : Begun s i (memSpec 2 o none ((a, some (ETy.cells t)) :: b) a false) r en t0)
    (hsf : r.sfault = none) {u : State} {c : Nat} {tv : Word} {e : Nat} (hu : Steady r.src u)
    (heach : r.each (r.storeElem' (Claims.vagent i) (mform r.src.ctx.mfmt).enc (mform r.src.ctx.mfmt).sat t a L.va (Claims.stored r t)) v = r.trapAt u c tv e) :
    ∃ z, Claims.trapsAt i s z r c tv a e ∧ Restored u z := by
  have hspec : r.spec.tplot = a.toNat := by rw [(vbegin_ok hb.begins).1]; rfl
  obtain ⟨z, hz, -, h1⟩ := trapsAt_of hb hsf L.issues (by
    rw [L.runs]
    unfold storeLoop
    rw [heach]
    exact r.trapAt_bind _ _ _ _ _) hspec hu
  exact ⟨z, hz, h1 (vbegin_unwritten hb.begins rfl)⟩

theorem store_refused {f : XFault} (hcalm : Claims.calm r) (hm : Claims.memCalm r.src) (he : r.elems = [e])
    (hform : Claims.vstoreForm s r i = some (t, o, q, a, b, k, addr)) (hscale : (mform r.src.ctx.mfmt).scale = 0)
    (ha : (mform r.src.ctx.mfmt).admits t k = true) (hd : Claims.dispatches s i (memSpec 2 o none ((a, some (ETy.cells t)) :: b) a false) r)
    (hrel : release (Claims.stScope q) r.src = .ok v)
    (hreach : v.reach (Claims.vagent i) .store .strand (addr e) (Claims.stored r t) = .error (.fault y f)) :
    ∃ z, Claims.trapsAt i s z r f.cause f.tval a e ∧ z.mem = s.mem ∧ Claims.masksStay r z ∧ Claims.fieldStays r z := by
  obtain ⟨hsf, hq, -⟩ := hcalm
  obtain ⟨en, t0, hb⟩ := dispatches_begun (plain_of_store hform) hd
  obtain ⟨L⟩ := storeRun_of_form hform hb hscale ha hrel (board_of_calm hm)
  have hv := steady_release hrel
  have hkept : Kept r.src y := (kept_release hrel).trans (kept_refused hreach).1
  have hsound : State.Sound r.src y := hv.toSound.trans (kept_refused hreach).2
  rw [← L.addrs e] at hreach
  have hstop := storeElem_stops (r := r) (enc := (mform r.src.ctx.mfmt).enc) (sat := (mform r.src.ctx.mfmt).sat) (t := t) (v := a) hreach
  obtain ⟨_, x, _, hx, -⟩ := trapAt_calm (α := State) hsf y f.cause f.tval e
  have heach := VRun.each_one_error hsf (hv.quiet hq) he (hstop.trans hx)
  obtain ⟨z, hz, h1⟩ := L.stops hb hsf (Steady.of_kept hkept hsound) (heach.trans hx.symm)
  exact ⟨z, hz, untouched_of hb.toIssued hkept (fun h => absurd ((vbegin_unwritten hb.begins rfl).symm.trans h) (by decide)) fun _ => h1⟩

theorem store_second {j : Nat} (hcalm : Claims.calm r) (hm : Claims.memCalm r.src) (he : r.elems = [e, j]) (hw : s.mem.wf = true)
    (hform : Claims.vstoreForm s r i = some (t, o, q, a, b, k, addr)) (hscale : (mform r.src.ctx.mfmt).scale = 0)
    (ha : (mform r.src.ctx.mfmt).admits t k = true) (hd : Claims.dispatches s i (memSpec 2 o none ((a, some (ETy.cells t)) :: b) a false) r)
    (hrel : release (Claims.stScope q) r.src = .ok v) (hreach : v.reach (Claims.vagent i) .store .strand (addr e) (Claims.stored r t) = .ok (l, y))
    (hj : (addr j).toNat % Claims.stored r t ≠ 0) :
    ∃ z, Claims.trapsAt i s z r 0x04 (addr j) a j ∧ Claims.masksStay r z ∧ Claims.fieldStays r z ∧
      Claims.value z.mem l.pa (Claims.stored r t) =
        (storeConv (mform r.src.ctx.mfmt).enc (mform r.src.ctx.mfmt).sat t none (r.get a t e).1).1 % 256 ^ Claims.stored r t ∧
      ∀ c, c < l.pa ∨ l.pa + Claims.stored r t ≤ c → z.mem.byte c = s.mem.byte c := by
  obtain ⟨hsf, hq, -⟩ := hcalm
  obtain ⟨en, t0, hb⟩ := dispatches_begun (plain_of_store hform) hd
  obtain ⟨L⟩ := storeRun_of_form hform hb hscale ha hrel (board_of_calm hm)
  obtain ⟨u, hu, hwrote⟩ := L.element hreach
  have hv := steady_release hrel
  have hst := hv.trans hwrote.steady
  have hmis := State.reach_misaligned u (Claims.vagent i) .store .strand hj
  rw [← L.addrs j] at hmis
  have hstop := storeElem_stops (r := r) (enc := (mform r.src.ctx.mfmt).enc) (sat := (mform r.src.ctx.mfmt).sat) (t := t) (v := a) hmis
  rw [L.addrs j] at hstop
  obtain ⟨_, x, _, hx, -⟩ := trapAt_calm (α := State) hsf u 0x04 (addr j) j
  have heach := VRun.each_two_error hsf (hv.quiet hq) he hu (hst.quiet hq) (hstop.trans hx)
  obtain ⟨z, hz, h⟩ := L.stops hb hsf hst (heach.trans hx.symm)
  have hmem : z.mem = s.mem.setNum l.pa (Claims.stored r t) _ := h.mem.trans (hwrote.mem.trans (by rw [(kept_release hrel).mem, hb.mem]))
  refine ⟨z, hz, fun m => (h.mask m).trans (hst.mask m), fun c => ?_, ?_, fun c hc => ?_⟩
  · rw [h.myCore, SameField.myCore (SameField.trans (kept_release hrel).field hwrote.field) hst]
  · rw [hmem, setNum_value hw]
  · rw [hmem, setNum_byte hw _ hc]

end storeClaims

end Sys2Proof.Machine

/-! ### Atomics (R221) -/

namespace Sys2Proof.Machine

/-- An element that a source gives is a number of its width. -/
theorem VRun.get_lt (r : VRun) (v : VReg) (t : ETy) (j : Nat) (hc : ETy.canon t < 2 ^ (16 * plotEw (r.src.plotOf v))) :
    (r.get v t j).1 < 2 ^ (16 * plotEw (r.src.plotOf v)) := by
  have hm (x : Nat) : x % 2 ^ (16 * plotEw (r.src.plotOf v)) < 2 ^ (16 * plotEw (r.src.plotOf v)) := Nat.mod_lt _ (Nat.two_pow_pos _)
  unfold VRun.get
  dsimp only
  split
  · exact hm _
  · split
    · split
      · split
        · exact hc
        · exact hm _
      · exact hm _
    · split
      · exact hc
      · exact elem_lt _ _ _

theorem canon_int (t : ITy) : ETy.canon (ityE t) = 0 := by cases t <;> rfl

theorem pow_width (t : ITy) : 2 ^ ETy.width (ityE t) = 256 ^ (ETy.width (ityE t) / 8) := by
  cases t
  · exact pow_256 4
  · exact pow_256 8

namespace State

/-- A vector atomic whose access arrives is one step on memory (R168, R221). -/
theorem atomic_arrives {s y : State} {sc : Scope} {va : Word} {n : Nat} {p : Reached} (hs : s.ErrorFree) (f : Nat → Nat)
    (h : s.reach .gather .atomic sc va n = .ok (p, y)) :
    ∃ u, s.atomic .gather sc va n (fun o => some (f o)) = .ok (s.mem.num p.pa n, false, u) ∧ Wrote s u p.pa n (f (s.mem.num p.pa n)) := by
  have hk : Kept s (y.touch s.ctx.who p.path (p.pa / 128) false false .normal) := ((kept_reach s .gather .atomic sc va n).ok h).trans (kept_touch _ _ _ _ _ _ _)
  have hsound : Sound s (y.touch s.ctx.who p.path (p.pa / 128) false false .normal) := (((Sound.refl s).reach .gather .atomic sc va n).ok h).trans (sound_touch _ _ _ _ _ _ _)
  have hacc : s.access .gather .atomic sc va n .normal = .ok (p, y.touch s.ctx.who p.path (p.pa / 128) false false .normal) := by
    unfold access
    rw [h]
    rfl
  generalize y.touch s.ctx.who p.path (p.pa / 128) false false .normal = w at hk hsound hacc
  have hread : w.readAt .gather p.pa n = (s.mem.num p.pa n, w) := by rw [readAt_mem rfl, hk.mem]
  exact ⟨_, atomic_writes hacc ((hsound.free hs).clean _ _) hread rfl (.inl rfl),
    wrote_putBytes (hk.trans (kept_touch _ _ _ _ _ _ _)) (hsound.trans (sound_touch _ _ _ _ _ _ _)) p.pa n _⟩

theorem atomic_error {s : State} {a : Agent} {sc : Scope} {va : Word} {n : Nat} {f : Nat → Option Nat} {x : AStop}
    (h : s.reach a .atomic sc va n = .error x) : s.atomic a sc va n f = .error x := by
  unfold atomic
  rw [access_error h]
  rfl

end State

theorem vamoScope_eq (q : VamoOrd) : vamoScope q = Claims.vamoAt q := by cases q <;> rfl
theorem vamoRel_eq (q : VamoOrd) : vamoRel q = Claims.vamoBefore q := by cases q <;> rfl

/-- What a vamo names. -/
def amoSpec (t : ITy) (o : VOpts) (long drop : Bool) (d a b : VReg) : VSpec :=
  memSpec 2 o (if drop then none else some (d, some (ETy.cells (ityE t)))) [(a, some (ETy.cells (ityE t))), (b, some (if long then 4 else 2))] a false

/-- A vamo's destination lies apart from its sources. -/
def Apart (r : VRun) (d a b : VReg) : Prop :=
  (plotBox (r.src.plotOf d)).meets (plotBox (r.src.plotOf a)) = false ∧ (plotBox (r.src.plotOf d)).meets (plotBox (r.src.plotOf b)) = false

section vamo
variable {s t0 v y : State} {r : VRun} {en : VQEntry} {op : AmoOp} {t : ITy} {o : VOpts} {q : VamoOrd} {c : BitVec 4} {long drop : Bool} {x : XReg}
  {d a b : VReg} {base : Word} {e : Nat} {l : State.Reached} {f : XFault}

/-- A vamo runs its elements one by one. -/
theorem vamoBody_eq (hb : vbegin en (amoSpec t o long drop d a b) t0 = .ok r) (hd : drop = false → Apart r d a b)
    (hrel : release (Claims.vamoBefore q) r.src = .ok v) (hboard : r.src.myCore.board = []) :
    vamoBody op t o q long drop x d a b en t0 =
      storeLoop r (r.amoElem op (ityE t) q drop (en.x x) long d a b) v >>= fun u => .ok (u.acquire (vamoAcq q)) := by
  have hspec : memSpec 2 o (if drop then none else some (d, some (ETy.cells (ityE t)))) [(a, some (ETy.cells (ityE t))), (b, some (ixCells long))] a false =
      amoSpec t o long drop d a b := by cases long <;> rfl
  have hapart : (drop || !((plotBox (r.src.plotOf d)).meets (plotBox (r.src.plotOf a)) ||
      (plotBox (r.src.plotOf d)).meets (plotBox (r.src.plotOf b)))) = true := by
    cases hdrop : drop
    · obtain ⟨h1, h2⟩ := hd hdrop
      rw [h1, h2]
      rfl
    · rfl
  unfold vamoBody storeLoop
  dsimp only
  rw [hspec, hb]
  dsimp only [bind, Except.bind]
  rw [vcheck_of hapart]
  dsimp only
  rw [vamoRel_eq, hrel]
  dsimp only
  rw [VRun.board_of_empty (board_release hrel hboard)]
  dsimp only
  cases r.each (r.amoElem op (ityE t) q drop (en.x x) long d a b) v with
  | error _ => rfl
  | ok _ => rfl

/-- One element updates memory, and delivers the old value where the destination has that element. -/
theorem amoElem_arrives (hs : v.ErrorFree) (hw : v.mem.wf = true) (ha : plotEw (r.src.plotOf a) = ETy.cells (ityE t)) (hv : Steady r.src v)
    (hf : SameField r.src v) (h : v.reach .gather .atomic (Claims.vamoAt q) (base + Claims.indexOf r b long e) (ETy.width (ityE t) / 8) = .ok (l, y)) :
    ∃ u, r.amoElem op (ityE t) q drop base long d a b false v e = .ok u ∧ Steady r.src u ∧
      u.mem = v.mem.setNum l.pa (ETy.width (ityE t) / 8) (Claims.amoBits op (BitVec.ofNat (ETy.width (ityE t)) (v.mem.num l.pa (ETy.width (ityE t) / 8)))
        (BitVec.ofNat (ETy.width (ityE t)) (r.get a (ityE t) e).1)).toNat ∧
      (drop = true ∨ plotCount (r.src.plotOf d) ≤ e → SameField r.src u) ∧
      (drop = false → e < plotCount (r.src.plotOf d) → swf 0 0 r.src.myCore.field = true →
        Received r.src u d e (v.mem.num l.pa (ETy.width (ityE t) / 8))) := by
  rw [← vamoScope_eq, ← indexed_addr] at h
  obtain ⟨u, hu, hwrote⟩ := State.atomic_arrives hs (fun z => amoFn op (ETy.width (ityE t)) z (r.get a (ityE t) e).1) h
  have hold : v.mem.num l.pa (ETy.width (ityE t) / 8) < 2 ^ ETy.width (ityE t) := (num_lt v.mem hw _ _).trans_eq (pow_width t).symm
  have hget : (r.get a (ityE t) e).1 < 2 ^ ETy.width (ityE t) := by
    have hlt := r.get_lt a (ityE t) e (by rw [canon_int]; exact Nat.two_pow_pos _)
    rwa [ha] at hlt
  rw [amoFn_eq_amoBits op hold hget] at hwrote
  have hm := hwrote.marked ((r.get a (ityE t) e).2 || (r.indexed base b long e).2)
  have hst := hv.trans hm.steady
  have hfld := hf.trans hm.field
  have hplot : (u.vectorPoison ((r.get a (ityE t) e).2 || (r.indexed base b long e).2)).plotOf d = r.src.plotOf d := hst.plotOf d
  have hrun : r.amoElem op (ityE t) q drop base long d a b false v e =
      .ok (if (drop || decide (plotCount ((u.vectorPoison ((r.get a (ityE t) e).2 || (r.indexed base b long e).2)).plotOf d) ≤ e)) = true then
        u.vectorPoison ((r.get a (ityE t) e).2 || (r.indexed base b long e).2)
      else (u.vectorPoison ((r.get a (ityE t) e).2 || (r.indexed base b long e).2)).setElem d e (v.mem.num l.pa (ETy.width (ityE t) / 8))) := by
    unfold VRun.amoElem
    dsimp only
    rw [hu]
    rfl
  rw [hplot] at hrun
  generalize u.vectorPoison ((r.get a (ityE t) e).2 || (r.indexed base b long e).2) = w at hm hst hfld hrun
  by_cases hc : (drop || decide (plotCount (r.src.plotOf d) ≤ e)) = true
  · rw [if_pos hc] at hrun
    rw [Bool.or_eq_true, decide_eq_true_eq] at hc
    refine ⟨w, hrun, hst, hm.mem, fun _ => hfld, fun h1 h2 => ?_⟩
    rw [h1] at hc
    exact absurd h2 (hc.resolve_left Bool.false_ne_true).not_gt
  · rw [if_neg hc] at hrun
    rw [Bool.or_eq_true, decide_eq_true_eq] at hc
    exact ⟨_, hrun, hst.trans (Steady.setElem _ _ _ _), (State.setElem_mem _ _ _ _).trans hm.mem, fun h => absurd h hc,
      fun _ _ hsw => received_setElem hst hfld hsw d e _⟩

theorem amoElem_stops
    (h : v.reach .gather .atomic (Claims.vamoAt q) (base + Claims.indexOf r b long e) (ETy.width (ityE t) / 8) = .error (.fault y f)) :
    r.amoElem op (ityE t) q drop base long d a b false v e = r.trapAt y f.cause f.tval e := by
  rw [← vamoScope_eq, ← indexed_addr] at h
  unfold VRun.amoElem
  dsimp only
  rw [State.atomic_error h, VRun.acc_fault]
  exact r.trapAt_bind _ _ _ _ _

/-! ### The claims about atomics -/

theorem vamo_plain : Plain (.vamo op t o q c long drop x d a b) := fun _ => rfl

/-- The source of a dispatched vamo has elements of its type. -/
theorem amoSource_cells (hb : vbegin en (amoSpec t o long drop d a b) t0 = .ok r) : plotEw (r.src.plotOf a) = ETy.cells (ityE t) := by
  obtain ⟨-, -, -, -, hplots⟩ := vbegin_ok hb
  refine plotReady_cells (hplots (a, some (ETy.cells (ityE t))) ?_)
  exact List.mem_append_right _ List.mem_cons_self

theorem vamo_access (hcalm : Claims.calm r) (hm : Claims.memCalm r.src) (he : r.elems = [e]) (hw : s.mem.wf = true)
    (hd : Claims.dispatches s (.vamo op t o q c long drop x d a b) (amoSpec t o long drop d a b) r)
    (hp : drop = false → Claims.placed r d ∧ Apart r d a b) (hrel : release (Claims.vamoBefore q) r.src = .ok v)
    (hreach : v.reach .gather .atomic (Claims.vamoAt q) (s.getX x + Claims.indexOf r b long e) (ETy.width (ityE t) / 8) = .ok (l, y)) :
    ∃ u, exec (.vamo op t o q c long drop x d a b) s = .next u ∧ Claims.masksStay r u ∧ (∀ z, u.ctx.getX z = s.ctx.getX z) ∧ u.ctx.pc = s.ctx.pc + 8 ∧
      Claims.value u.mem l.pa (ETy.width (ityE t) / 8) =
        (Claims.amoBits op (BitVec.ofNat (ETy.width (ityE t)) (Claims.value s.mem l.pa (ETy.width (ityE t) / 8)))
          (BitVec.ofNat (ETy.width (ityE t)) (r.get a (ityE t) e).1)).toNat ∧
      (∀ z, z < l.pa ∨ l.pa + ETy.width (ityE t) / 8 ≤ z → u.mem.byte z = s.mem.byte z) ∧
      (drop = true ∨ plotCount (r.src.plotOf d) ≤ e → Claims.fieldStays r u) ∧
      (drop = false → e < plotCount (r.src.plotOf d) → Claims.elements r u d (fun _ => some (Claims.value s.mem l.pa (ETy.width (ityE t) / 8)))) := by
  obtain ⟨hsf, hq, -⟩ := hcalm
  obtain ⟨en, t0, hb⟩ := dispatches_begun vamo_plain hd
  have hk := kept_release hrel
  have hv := steady_release hrel
  have hvm : v.mem = s.mem := hk.mem.trans hb.mem
  rw [← hb.enX x] at hreach
  obtain ⟨u, hu, hst, humem, hdrop, hrec⟩ := amoElem_arrives (op := op) (drop := drop) (d := d) (hv.free (errorFree_of_calm hm)) (by rw [hvm, hw])
    (amoSource_cells hb.begins) hv hk.field hreach
  rw [hvm, num_eq_value hw] at humem hrec
  obtain ⟨w, hw', hfin, -⟩ := done_ok r u
  have hran := ran_of hb.toIssued hst hfin (vamoAcq q)
  have hmem := hran.mem.trans humem
  refine ⟨w.acquire (vamoAcq q), ?_, hran.masks, hran.getX, hran.pc, ?_, fun z hz => ?_, fun h => fieldStays_of hran hst (hdrop h),
    fun h1 h2 => elements_one hran he (hrec h1 h2 (hp h1).1.1)⟩
  · refine (hb.runs (vamoBody op t o q long drop x d a b)).trans (vtry_ok ?_)
    rw [vamoBody_eq hb.begins (fun h => (hp h).2) hrel (board_of_calm hm)]
    unfold storeLoop
    rw [VRun.each_one hsf (hv.quiet hq) he hu (hst.quiet hq)]
    dsimp only [bind, Except.bind]
    rw [hw']
  · rw [hmem, setNum_value hw, Nat.mod_eq_of_lt]
    exact (BitVec.isLt _).trans_eq (pow_width t)
  · rw [hmem, setNum_byte hw _ hz]

theorem vamo_refused (hcalm : Claims.calm r) (hm : Claims.memCalm r.src) (he : r.elems = [e])
    (hd : Claims.dispatches s (.vamo op t o q c long drop x d a b) (amoSpec t o long drop d a b) r)
    (hp : drop = false → Apart r d a b) (hrel : release (Claims.vamoBefore q) r.src = .ok v)
    (hreach : v.reach .gather .atomic (Claims.vamoAt q) (s.getX x + Claims.indexOf r b long e) (ETy.width (ityE t) / 8) = .error (.fault y f)) :
    ∃ z, Claims.trapsAt (.vamo op t o q c long drop x d a b) s z r f.cause f.tval (if drop then a else d) e ∧ z.mem = s.mem ∧ Claims.masksStay r z ∧
      Claims.fieldStays r z := by
  obtain ⟨hsf, hq, -⟩ := hcalm
  obtain ⟨en, t0, hb⟩ := dispatches_begun vamo_plain hd
  have hv := steady_release hrel
  have hkept : Kept r.src y := (kept_release hrel).trans (kept_refused hreach).1
  have hsound : State.Sound r.src y := hv.toSound.trans (kept_refused hreach).2
  rw [← hb.enX x] at hreach
  have hstop := amoElem_stops (r := r) (op := op) (drop := drop) (d := d) (a := a) hreach
  obtain ⟨_, _, _, hx, -⟩ := trapAt_calm (α := State) hsf y f.cause f.tval e
  have heach := VRun.each_one_error hsf (hv.quiet hq) he (hstop.trans hx)
  have hspec : r.spec.tplot = (if drop then a else d).toNat := by
    rw [(vbegin_ok hb.begins).1]
    cases drop <;> rfl
  obtain ⟨z, hz, h0, h1⟩ := trapsAt_of (u := y) (c := f.cause) (tv := f.tval) (e := e) hb hsf rfl (by
    rw [vamoBody_eq hb.begins hp hrel (board_of_calm hm)]
    unfold storeLoop
    rw [heach.trans hx.symm, VRun.trapAt_bind, VRun.trapAt_bind]) hspec (Steady.of_kept hkept hsound)
  exact ⟨z, hz, untouched_of hb.toIssued hkept h0 h1⟩

end vamo

/-! ### The claims -/

theorem vectorAccesses : Claims.VectorAccesses := by
  intro i s v x r e pa l hcalm hm he hw hpa
  subst hpa
  dsimp only
  refine ⟨fun t o q d b k addr hform hscale ha hd hp hk hreach => ?_, fun t o q a b k addr hform hscale ha hd hrel hreach => ?_,
    fun op t o q c long drop y d a b hi hd hp hrel hreach => ?_⟩
  · exact load_access hcalm hm he hw hform hscale ha hd hp hk hreach
  · exact store_access hcalm hm he hw hform hscale ha hd hrel hreach
  · subst hi
    exact vamo_access hcalm hm he hw hd hp hrel hreach

theorem vectorMemoryTraps : Claims.VectorMemoryTraps := by
  intro i s v y r e k l f hcalm hm hw
  dsimp only
  refine ⟨fun t o q d b kk addr hform hscale ha hd hp hk => ⟨fun he hreach => ?_, fun he hreach hmis => ?_⟩,
    fun t o q a b kk addr hform hscale ha hd hrel => ⟨fun he hreach => ?_, fun he hreach hmis => ?_⟩,
    fun op t o q c long drop x d a b hi hd hp hrel he hreach => ?_⟩
  · exact load_refused hcalm hm he hform hscale ha hd (fun h => hk h k (by rw [he]; exact List.mem_cons_self)) hreach
  · exact load_second hcalm hm he hw hform hscale ha hd hp (fun h => hk h e (by rw [he]; exact List.mem_cons_self)) hreach hmis
  · exact store_refused hcalm hm he hform hscale ha hd hrel hreach
  · exact store_second hcalm hm he hw hform hscale ha hd hrel hreach hmis
  · subst hi
    exact vamo_refused hcalm hm he hd hp hrel hreach

end Sys2Proof.Machine

open Sys2Proof Sys2Proof.Machine in
/-- Settles O46: an element's access reads or writes where it arrives and what follows leaves memory, masks and the other cells alone; where
the access is refused, the instruction stops with the access's cause and address at that element. -/
theorem vectorMemory : Obligations.VectorMemory := ⟨vectorAccesses, vectorMemoryTraps⟩

/-! ## Front ends, and checks in order -/

namespace Sys2Proof.Machine

theorem Core.fe_setFe (c : Core) (f : Bool) (x : FrontEnd) (g : Bool) : (c.setFe f x).fe g = if g = f then x else c.fe g := by
  cases f <;> cases g <;> rfl

namespace State
variable {s t : State}

theorem fe_modMyFe (s : State) (g : FrontEnd → FrontEnd) (n : Nat) (f : Bool) :
    ((s.modMyFe g).core n).fe f = if n = s.ctx.core ∧ f = s.ctx.fe then g s.myFe else (s.core n).fe f := by
  unfold modMyFe Core.modFe
  rw [core_modCore]
  by_cases hn : n = s.ctx.core
  · rw [if_pos hn, Core.fe_setFe, hn]
    by_cases hf : f = s.ctx.fe
    · rw [if_pos hf, if_pos ⟨rfl, hf⟩]
      rfl
    · rw [if_neg hf, if_neg fun h => hf h.2]
  · rw [if_neg hn, if_neg fun h => hn h.1]

/-- The front end of the current context after a change of it. -/
theorem myFe_modMyFe (s : State) (g : FrontEnd → FrontEnd) : (s.modMyFe g).myFe = g s.myFe :=
  (fe_modMyFe s g s.ctx.core s.ctx.fe).trans (if_pos ⟨rfl, rfl⟩)

theorem core_of (hc : t.cores = s.cores) (n : Nat) : t.core n = s.core n := by
  unfold core
  rw [hc]

/-- A front end is what the cores hold under the context's coordinates. -/
theorem myFe_of (hc : t.cores = s.cores) (hs : t.ctx.self = s.ctx.self) : t.myFe = s.myFe := by
  unfold myFe myCore core Ctx.core Ctx.fe
  rw [hc, hs]

theorem stashAt_isSome_iff (core : Nat) (va : Word) :
    (s.stashAt core va).isSome = true ↔ ∃ f, ∃ m ∈ ((s.core core).fe f).maps, (va - m.addr).toNat < m.len := by
  let hit (m : StashMap) : Bool := decide ((va - m.addr).toNat < m.len)
  have hhit (l : List StashMap) : (∃ m ∈ l, (va - m.addr).toNat < m.len) ↔ (l.find? hit).isSome = true := by
    simp only [List.find?_isSome, hit, decide_eq_true_eq]
  rw [Bool.exists_bool, hhit, hhit]
  show _ ↔ ((s.core core).fe0.maps.find? hit).isSome = true ∨ ((s.core core).fe1.maps.find? hit).isSome = true
  unfold stashAt
  dsimp only
  split
  · next h => exact iff_of_true rfl (.inl (by rw [h]; rfl))
  · next h => rw [h, Option.isSome_map]; simp [hit]

end State

/-- Checks in order, each with the cause and TVAL of its failure, and what follows them. -/
def guarded {α : Type} (s : State) : List (Bool × Nat × Word) → Res α → Res α
  | [], k => k
  | x :: xs, k => do
    check x.1 s x.2.1 x.2.2
    guarded s xs k

/-- Conditions under which an instruction is refused say what its checks test, each once those before it have passed. -/
def Tests : List (Prop × Nat × Word) → List (Bool × Nat × Word) → Prop
  | [], [] => True
  | p :: ps, x :: xs => (p.1 ↔ x.1 ≠ true) ∧ p.2 = x.2 ∧ (¬ p.1 → Tests ps xs)
  | _, _ => False

section guarded
variable {α : Type} {s : State} {k : Res α}

/-- The first check that fails decides. -/
theorem guarded_first {c : Prop} {v : Nat × Word} {post : List (Prop × Nat × Word)} (hc : c) (pre : List (Prop × Nat × Word)) :
    ∀ xs, Tests (pre ++ (c, v) :: post) xs → (∀ p ∈ pre, ¬ p.1) → guarded s xs k = .error (.trap s (.scalar v.1 v.2)) := by
  induction pre with
  | nil =>
    intro xs h _
    match xs, h with
    | x :: _, ⟨hx, hv, _⟩ =>
      obtain rfl : v = x.2 := hv
      unfold guarded
      rw [check_fails (hx.1 hc)]
      rfl
  | cons p pre ih =>
    intro xs h hpre
    match xs, h with
    | x :: xs, ⟨hx, _, hrest⟩ =>
      have hp : ¬ p.1 := hpre p List.mem_cons_self
      unfold guarded
      rw [check_of (not_not.1 (mt hx.2 hp))]
      exact ih xs (hrest hp) fun q hq => hpre q (List.mem_cons_of_mem _ hq)

/-- Where no check fails, what follows them is done. -/
theorem guarded_passed (ps : List (Prop × Nat × Word)) : ∀ xs, Tests ps xs → (∀ p ∈ ps, ¬ p.1) → guarded s xs k = k := by
  induction ps with
  | nil =>
    intro xs h _
    match xs, h with
    | [], _ => rfl
  | cons p ps ih =>
    intro xs h hps
    match xs, h with
    | x :: xs, ⟨hx, _, hrest⟩ =>
      have hp : ¬ p.1 := hps p List.mem_cons_self
      unfold guarded
      rw [check_of (not_not.1 (mt hx.2 hp))]
      exact ih xs (hrest hp) fun q hq => hps q (List.mem_cons_of_mem _ hq)

end guarded

/-! ## Stash mappings (R41, R175, R176, O16) -/

/-- The mapping that `stashmap` installs. -/
def State.newMap (s : State) (d a b : XReg) : StashMap :=
  { ctx := s.ctx.id, off := (s.getX d).toNat, addr := s.getX a, len := (s.getX b).toNat, lines := [] }

/-- The state after `stashmap` has installed a mapping. -/
def State.mapped (s : State) (m : StashMap) : State := (s.modMyFe fun f => { f with maps := f.maps ++ [m] }).advance 4

/-- What `stashmap` checks, in order (R175). -/
def State.mapChecks (s : State) (d a b : XReg) : List (Bool × Nat × Word) :=
  let off := s.getX d
  let va := s.getX a
  let len := s.getX b
  let own := s.stashRange s.ctx.core s.ctx.fe
  [(va.toNat % 128 == 0, 0x04, va), (off.toNat % 128 == 0, 0x02, off), (len.toNat % 128 == 0 && len != 0, 0x02, len),
   (decide (own.1 ≤ off.toNat) && decide (off.toNat + len.toNat ≤ own.2), 0x02, off),
   (!s.myFe.maps.any (fun m => decide (m.off < off.toNat + len.toNat) && decide (off.toNat < m.off + m.len)), 0x02, off),
   (sameHalf va len, 0x02, va), (!(s.myCore.fe0.maps ++ s.myCore.fe1.maps).any (fun m => meets m.addr m.len va len.toNat), 0x02, va),
   (decide (s.myFe.maps.length < 16), 0x02, 0)]

theorem exec_stashmap {s : State} (hs : Claims.onFront s) (d a b : XReg) :
    exec (.stashmap d a b) s = settle (guarded s (s.mapChecks d a b) (.ok (s.mapped (s.newMap d a b)))) := by
  show settle (do legal .front [d, a, b] s; drained s; guarded s (s.mapChecks d a b) (.ok (s.mapped (s.newMap d a b)))) = _
  rw [legal_front hs, drained_of_empty hs.2.2]
  rfl

/-- A range lies in one canonical half (R175). -/
theorem sameHalf_iff {va len : Word} (h : len ≠ 0) :
    sameHalf va len = true ↔
      (va.toNat + len.toNat - 1 < 2 ^ 54 ∨ 2 ^ 64 - 2 ^ 54 ≤ va.toNat ∧ va.toNat + len.toNat - 1 < 2 ^ 64) := by
  have hpos : 0 < len.toNat := Nat.pos_of_ne_zero fun e => h (BitVec.eq_of_toNat_eq e)
  have hva := va.isLt
  unfold sameHalf canonical bits
  simp only [Bool.and_eq_true, Bool.or_eq_true, beq_iff_eq]
  split <;> simp only [decide_eq_true_eq] <;> omega

/-- What refuses `stashmap`, in order (R175). -/
def State.mapFates (s : State) (d a b : XReg) : List (Prop × Nat × Word) :=
  let off := (s.getX d).toNat
  let va := s.getX a
  let len := (s.getX b).toNat
  let own := s.stashRange s.ctx.core s.ctx.fe
  let last := va.toNat + len - 1
  [(va.toNat % 128 ≠ 0, 0x04, va), (off % 128 ≠ 0, 0x02, s.getX d), (len % 128 ≠ 0 ∨ len = 0, 0x02, s.getX b),
   (off < own.1 ∨ own.2 < off + len, 0x02, s.getX d), (∃ m ∈ s.myFe.maps, m.off < off + len ∧ off < m.off + m.len, 0x02, s.getX d),
   (¬ (last < 2 ^ 54 ∨ (2 ^ 64 - 2 ^ 54 ≤ va.toNat ∧ last < 2 ^ 64)), 0x02, va),
   (∃ m ∈ s.myCore.fe0.maps ++ s.myCore.fe1.maps, meets m.addr m.len va len = true, 0x02, va), (16 ≤ s.myFe.maps.length, 0x02, 0)]

theorem mapFates_tests (s : State) (d a b : XReg) : Tests (s.mapFates d a b) (s.mapChecks d a b) := by
  have h0 : s.getX b = 0 ↔ (s.getX b).toNat = 0 := ⟨congrArg BitVec.toNat, fun h => BitVec.eq_of_toNat_eq h⟩
  refine ⟨by simp, rfl, fun _ => ⟨by simp, rfl, fun _ => ⟨?length, rfl, fun hlen => ⟨?range, rfl, fun _ => ⟨?offsets, rfl, fun _ =>
    ⟨not_congr (sameHalf_iff fun h => hlen (.inr (h0.1 h))).symm, rfl, fun _ => ⟨?addresses, rfl, fun _ => ⟨by simp, rfl, fun _ => trivial⟩⟩⟩⟩⟩⟩⟩⟩
  case length =>
    simp only [ne_eq, Bool.and_eq_true, beq_iff_eq, bne_iff_ne, h0]
    tauto
  case range =>
    simp only [ne_eq, Bool.and_eq_true, decide_eq_true_eq, not_and_or, not_le]
  case offsets =>
    simp only [ne_eq, Bool.not_eq_true', Bool.not_eq_false, List.any_eq_true, Bool.and_eq_true, decide_eq_true_eq]
  case addresses =>
    simp only [ne_eq, Bool.not_eq_true', Bool.not_eq_false, List.any_eq_true]

theorem mapped_ctx {s : State} (hl : s.lane = none) (m : StashMap) : (s.mapped m).ctx = { s.ctx with pc := s.ctx.pc + 4 } :=
  State.advance_ctx (s := s.modMyFe _) hl 4

theorem mapped_maps {s : State} (hl : s.lane = none) (m : StashMap) : (s.mapped m).myFe.maps = s.myFe.maps ++ [m] := by
  have hself : (s.mapped m).ctx.self = s.ctx.self := by rw [mapped_ctx hl]
  unfold State.mapped at hself ⊢
  rw [State.myFe_of (State.advance_cores _ _) hself, State.myFe_modMyFe]

/-- Every byte of a mapping is covered once it stands. -/
theorem mapped_covers (s : State) {m : StashMap} {k : Nat} (hk : k < m.len) (h64 : k < 2 ^ 64) :
    ((s.mapped m).stashAt s.ctx.core (m.addr + BitVec.ofNat 64 k)).isSome = true := by
  refine (State.stashAt_isSome_iff _ _).2 ⟨s.ctx.fe, m, ?_, ?_⟩
  · unfold State.mapped
    rw [State.core_of (State.advance_cores _ _), State.fe_modMyFe, if_pos ⟨rfl, rfl⟩]
    exact List.mem_append_right _ List.mem_cons_self
  · have hsub : m.addr + BitVec.ofNat 64 k - m.addr = BitVec.ofNat 64 k := by rw [add_comm, add_sub_cancel_right]
    rw [hsub, BitVec.toNat_ofNat, Nat.mod_eq_of_lt h64]
    exact hk

theorem stashFlush_cores (s : State) (w : Who) (m : StashMap) : (s.stashFlush w m).cores = s.cores :=
  foldl_ind (P := fun t => t.cores = s.cores) (fun t l h => (State.under_writeBack t w (m.physLine l)).cores.trans h) _ rfl

/-- The state after `stashunmap` has freed the mappings at an offset. -/
def State.unmapped (s : State) (m : StashMap) : State :=
  ((s.stashFlush s.ctx.who m).modMyFe fun f => { f with maps := f.maps.filter (fun k => k.off != m.off) }).advance 4

theorem exec_stashunmap_none {s : State} (hs : Claims.onFront s) {d : XReg} (h : s.myFe.maps.find? (fun m => m.off == (s.getX d).toNat) = none) :
    exec (.stashunmap d) s = .next (s.takeTrap (.scalar 0x02 (s.getX d))) := by
  show execStashunmap d s = _
  unfold execStashunmap
  rw [legal_front hs, drained_of_empty hs.2.2]
  dsimp only [bind, Except.bind]
  rw [h]
  rfl

theorem exec_stashunmap_some {s : State} (hs : Claims.onFront s) {d : XReg} {m : StashMap}
    (h : s.myFe.maps.find? (fun m => m.off == (s.getX d).toNat) = some m) (hb : s.boardHit s.ctx.core m.off m.len = false) :
    exec (.stashunmap d) s = .next (s.unmapped m) := by
  show execStashunmap d s = _
  unfold execStashunmap
  rw [legal_front hs, drained_of_empty hs.2.2]
  dsimp only [bind, Except.bind]
  rw [h]
  dsimp only
  rw [hb]
  rfl

theorem unmapped_ctx {s : State} (hl : s.lane = none) (m : StashMap) : (s.unmapped m).ctx = { s.ctx with pc := s.ctx.pc + 4 } := by
  have hk := State.stashFlush_kept s s.ctx.who m
  refine (State.advance_ctx (s := (s.stashFlush s.ctx.who m).modMyFe _) (hk.lane.trans hl) 4).trans ?_
  show { (s.stashFlush s.ctx.who m).ctx with pc := (s.stashFlush s.ctx.who m).ctx.pc + 4 } = _
  rw [hk.ctx]

theorem unmapped_maps {s : State} (hl : s.lane = none) (m : StashMap) : (s.unmapped m).myFe.maps = s.myFe.maps.filter (fun k => k.off != m.off) := by
  have hk := State.stashFlush_kept s s.ctx.who m
  have hself : (s.unmapped m).ctx.self = (s.stashFlush s.ctx.who m).ctx.self := by rw [unmapped_ctx hl, hk.ctx]
  unfold State.unmapped at hself ⊢
  rw [State.myFe_of (State.advance_cores _ _) hself, State.myFe_modMyFe, State.myFe_of (stashFlush_cores s s.ctx.who m) (by rw [hk.ctx])]

end Sys2Proof.Machine

open Sys2Proof Sys2Proof.Machine in
/-- Settles O16: the checks of `stashmap` are a list, whose first failure decides; what they let through changes the front end's
mappings alone. -/
theorem stashMappings : Obligations.StashMappings := by
  intro s d a b hs off va len own last fates
  have htests : Tests fates (s.mapChecks d a b) := mapFates_tests s d a b
  refine ⟨fun pre c v post hf hpre hc => ?_, fun hnone => ⟨s.mapped (s.newMap d a b), ?_, mapped_ctx hs.1 _, State.advance_mem _ 4, ?_, fun k hk => ?_⟩,
    fun hno => ?_, fun m hm hb => ⟨s.unmapped m, exec_stashunmap_some hs hm hb, unmapped_ctx hs.1 m, ?_, fun k => ?_⟩⟩
  · rw [hf] at htests
    rw [exec_stashmap hs, guarded_first hc pre _ htests hpre]
    rfl
  · rw [exec_stashmap hs, guarded_passed _ _ htests hnone]
    rfl
  · rw [mapped_maps hs.1]
    rfl
  · exact mapped_covers s (m := s.newMap d a b) hk (hk.trans (s.getX b).isLt)
  · exact exec_stashunmap_none hs (List.find?_eq_none.2 fun m hm => by simpa using hno m hm)
  · exact (State.advance_mem _ 4).trans (State.stashFlush_kept s s.ctx.who m).mem
  · have hoff : m.off = off := by simpa using List.find?_some hm
    rw [unmapped_maps hs.1, List.mem_filter, hoff, bne_iff_ne]

/-! ## CTL registers (R115, R157-R159, O18) -/



namespace Sys2Proof.Machine

/-! ### The table -/

/-- A number of the table lies in one of its rows. -/
theorem ctlRow_some {n : Nat} {x : Nat × Option Nat} (h : Claims.ctlRow n = some x) :
    ∃ p ∈ Claims.ctlTable, p.1 ≤ n ∧ n ≤ p.2.1 ∧ p.2.2 = x := by
  unfold Claims.ctlRow at h
  obtain ⟨p, hp, hx⟩ := Option.map_eq_some_iff.1 h
  have hin := List.find?_some hp
  rw [Bool.and_eq_true, decide_eq_true_eq, decide_eq_true_eq] at hin
  exact ⟨p, List.mem_of_find?_eq_some hp, hin.1, hin.2, hx⟩

/-- The numbers of the registers. -/
theorem ctlRow_range {n : Nat} {x : Nat × Option Nat} (h : Claims.ctlRow n = some x) :
    n ≤ 0x009 ∨ 0x010 ≤ n ∧ n ≤ 0x018 ∨ 0x020 ≤ n ∧ n ≤ 0x022 ∨ 0x030 ≤ n ∧ n ≤ 0x032 ∨ 0x040 ≤ n ∧ n ≤ 0x05F ∨ 0x080 ≤ n ∧ n ≤ 0x085 ∨
      n = 0x090 ∨ n = 0x0A0 ∨ n = 0x0F0 := by
  obtain ⟨p, hp, h1, h2, _⟩ := ctlRow_some h
  simp only [Claims.ctlTable, List.mem_cons, List.not_mem_nil, or_false] at hp
  rcases hp with rfl | rfl | rfl | rfl | rfl | rfl | rfl | rfl | rfl | rfl | rfl | rfl | rfl | rfl | rfl | rfl | rfl <;> dsimp only at h1 h2 <;> omega

/-- The numbers of the registers that can be written. -/
theorem ctlRow_writable {n r l : Nat} (h : Claims.ctlRow n = some (r, some l)) :
    n ≤ 0x009 ∨ n = 0x010 ∨ 0x012 ≤ n ∧ n ≤ 0x015 ∨ n = 0x017 ∨ n = 0x018 ∨ 0x020 ≤ n ∧ n ≤ 0x022 ∨ 0x040 ≤ n ∧ n ≤ 0x05F ∨ n = 0x080 ∨ n = 0x081 ∨
      n = 0x090 ∨ n = 0x0A0 ∨ n = 0x0F0 := by
  obtain ⟨p, hp, h1, h2, h3⟩ := ctlRow_some h
  simp only [Claims.ctlTable, List.mem_cons, List.not_mem_nil, or_false] at hp
  rcases hp with rfl | rfl | rfl | rfl | rfl | rfl | rfl | rfl | rfl | rfl | rfl | rfl | rfl | rfl | rfl | rfl | rfl <;> simp at h1 h2 h3 <;> omega


/-! ### What a write leaves to be read -/

/-- The registers that are a field of the context of their own. -/
def plainCtl : List Nat :=
  [0x001, 0x002, 0x003, 0x004, 0x006, 0x007, 0x008, 0x009, 0x010, 0x012, 0x013, 0x014, 0x015, 0x017, 0x018, 0x020]



theorem ctlValue_plain {n : Nat} (h : n ∈ plainCtl) (s : State) (v : Word) (k : Nat) :
    (s.ctlSet n v).ctlValue k = if k = n then v else s.ctlValue k := by
  simp only [plainCtl, List.mem_cons, List.not_mem_nil, or_false] at h
  rcases h with rfl | rfl | rfl | rfl | rfl | rfl | rfl | rfl | rfl | rfl | rfl | rfl | rfl | rfl | rfl | rfl
  all_goals
    split
    · next hk => subst hk; rfl
    · next hk => unfold State.ctlValue; dsimp only; rw [if_neg hk, if_neg hk]; rfl

/-! Registers that a write changes with others of the context. -/

theorem setStatus_eq (c : Ctx) (v : Word) : ∃ m l, c.setStatus v = { c with status := v, mvl := m, vl := l } := by
  unfold Ctx.setStatus
  dsimp only
  split
  · exact ⟨c.mvl, c.vl, rfl⟩
  · exact ⟨_, _, rfl⟩

theorem ctlValue_status (s : State) (v : Word) {k : Nat} (h1 : k ≠ 0x010) (h2 : k ≠ 0x011) :
    (s.ctlSet 0x000 v).ctlValue k = if k = 0x000 then v else s.ctlValue k := by
  have hset : s.ctlSet 0x000 v = { s with ctx := s.ctx.setStatus v } := rfl
  obtain ⟨m, l, hc⟩ := setStatus_eq s.ctx v
  rw [hset, hc]
  split
  · next hk => subst hk; rfl
  · next hk =>
    unfold State.ctlValue
    dsimp only
    rw [if_neg hk, if_neg hk, if_neg h1, if_neg h1, if_neg h2, if_neg h2]
    rfl

theorem setTqpos_eq (c : Ctx) (v : Word) :
    ∃ h l, (if bitAt v 63 then { c with tqpos := v } else c.discardHeld v) = { c with tqpos := v, held := h, lq := l } := by
  split
  · exact ⟨c.held, c.lq, rfl⟩
  · exact ⟨_, _, rfl⟩

theorem ctlValue_tqpos (s : State) (v : Word) {k : Nat} (h : k ≠ 0x016) :
    (s.ctlSet 0x005 v).ctlValue k = if k = 0x005 then v else s.ctlValue k := by
  have hset : s.ctlSet 0x005 v = { s with ctx := if bitAt v 63 then { s.ctx with tqpos := v } else s.ctx.discardHeld v } := rfl
  obtain ⟨_, _, hc⟩ := setTqpos_eq s.ctx v
  rw [hset, hc]
  split
  · next hk => subst hk; rfl
  · next hk =>
    unfold State.ctlValue
    dsimp only
    rw [if_neg hk, if_neg hk, if_neg h, if_neg h]
    rfl

/-- The dirty bits of the plots read back as two halves (R104). -/
theorem ctlValue_pdirty (s : State) (p : BitVec 64) (k : Nat) :
    ({ s with ctx := { s.ctx with pdirty := p } } : State).ctlValue k =
      if k = 0x021 then word (bits p 31 0) else if k = 0x022 then word (bits p 63 32) else s.ctlValue k := by
  split
  · next hk => subst hk; rfl
  · split
    · next hk => subst hk; rfl
    · next h1 h2 =>
      unfold State.ctlValue
      dsimp only
      rw [if_neg h1, if_neg h1, if_neg h2, if_neg h2]
      rfl

theorem bits_halves {a b : Nat} (ha : a < 2 ^ 32) (hb : b < 2 ^ 32) :
    bits (word (a * 2 ^ 32 + b)) 31 0 = b ∧ bits (word (a * 2 ^ 32 + b)) 63 32 = a := by
  simp only [bits, word, BitVec.toNat_ofNat]
  omega

theorem bits_lt (w : Word) (hi lo : Nat) : bits w hi lo < 2 ^ (hi + 1 - lo) := Nat.mod_lt _ (Nat.two_pow_pos _)

theorem ctlValue_pdirty_low (s : State) {v : Word} (hv : v.toNat < 2 ^ 32) (k : Nat) :
    (s.ctlSet 0x021 v).ctlValue k = if k = 0x021 then v else s.ctlValue k := by
  obtain ⟨hlow, hhigh⟩ := bits_halves (bits_lt s.ctx.pdirty 63 32) hv
  refine (ctlValue_pdirty s (word (bits s.ctx.pdirty 63 32 * 2 ^ 32 + v.toNat)) k).trans ?_
  rw [hlow, hhigh, word_toNat]
  by_cases h : k = 0x022
  · subst h; rfl
  · rw [if_neg h]

theorem ctlValue_pdirty_high (s : State) {v : Word} (hv : v.toNat < 2 ^ 32) (k : Nat) :
    (s.ctlSet 0x022 v).ctlValue k = if k = 0x022 then v else s.ctlValue k := by
  obtain ⟨hlow, hhigh⟩ := bits_halves hv (bits_lt s.ctx.pdirty 31 0)
  refine (ctlValue_pdirty s (word (v.toNat * 2 ^ 32 + bits s.ctx.pdirty 31 0)) k).trans ?_
  rw [hlow, hhigh, word_toNat]
  by_cases h : k = 0x021
  · subst h; rfl
  · rw [if_neg h]

/-! Registers whose Zero fields read zero (R9). -/

theorem word_mod_two_pow {v : Word} {n : Nat} (hn : n ≤ 64) : word (v.toNat % 2 ^ n) = v &&& BitVec.ofNat 64 (2 ^ n - 1) := by
  have h : (2 : Nat) ^ n ≤ 2 ^ 64 := Nat.pow_le_pow_right (by decide) hn
  have h0 := Nat.two_pow_pos n
  apply BitVec.eq_of_toNat_eq
  rw [word, BitVec.toNat_and, BitVec.toNat_ofNat, BitVec.toNat_ofNat, Nat.mod_eq_of_lt (by omega : 2 ^ n - 1 < 2 ^ 64), Nat.and_two_pow_sub_one_eq_mod]
  exact Nat.mod_eq_of_lt ((Nat.mod_lt _ h0).trans_le h)

theorem word_bits_from_zero (v : Word) {hi : Nat} (h : hi < 64) : word (bits v hi 0) = v &&& BitVec.ofNat 64 (2 ^ (hi + 1) - 1) := by
  unfold bits
  rw [pow_zero, Nat.div_one, Nat.sub_zero, word_mod_two_pow h]

theorem ctlValue_bypassth (s : State) (v : Word) (k : Nat) : (s.ctlSet 0x090 v).ctlValue k = if k = 0x090 then v &&& 0xFFFFFF else s.ctlValue k := by
  split
  · next hk => subst hk; exact word_bits_from_zero v (hi := 23) (by decide)
  · next hk => unfold State.ctlValue; dsimp only; rw [if_neg hk, if_neg hk]; rfl

theorem ctlValue_urnshare (s : State) (v : Word) (k : Nat) : (s.ctlSet 0x0A0 v).ctlValue k = if k = 0x0A0 then v &&& 0x7F else s.ctlValue k := by
  split
  · next hk => subst hk; exact word_bits_from_zero v (hi := 6) (by decide)
  · next hk => unfold State.ctlValue; dsimp only; rw [if_neg hk, if_neg hk]; rfl

theorem ctlValue_stripcnt (s : State) (v : Word) (k : Nat) : (s.ctlSet 0x081 v).ctlValue k = if k = 0x081 then v else s.ctlValue k := by
  split
  · next hk =>
    subst hk
    show ((v.extractLsb' 40 24) ++ (v.setWidth 40)).setWidth 64 = v
    ext i hi
    simp only [BitVec.getElem_setWidth, BitVec.getLsbD_append, BitVec.getLsbD_setWidth, BitVec.getLsbD_extractLsb']
    by_cases h : i < 40
    · simp [h, BitVec.getLsbD_eq_getElem hi]
    · have h24 : i - 40 < 24 := by omega
      have h40 : 40 + (i - 40) = i := by omega
      simp [h, h24, h40, BitVec.getLsbD_eq_getElem hi]
  · next hk => unfold State.ctlValue; dsimp only; rw [if_neg hk, if_neg hk]; rfl

/-! Registers of the core and of the front end. -/

theorem ctlValue_evsel (s : State) {k : Nat} (h1 : 0x040 ≤ k) (h2 : k ≤ 0x04F) : s.ctlValue k = s.myCore.evsel.toList.getD (k - 0x040) 0 := by
  interval_cases k <;> rfl

theorem ctlValue_evcnt (s : State) {k : Nat} (h1 : 0x050 ≤ k) (h2 : k ≤ 0x05F) : s.ctlValue k = s.myCore.evcnt.toList.getD (k - 0x050) 0 := by
  interval_cases k <;> rfl

/-- What register k reads of a core and a front end of it; every other register reads w. -/
def ctlOfCore (c : Core) (f : Bool) (w : Word) (k : Nat) : Word :=
  if 0x040 ≤ k ∧ k ≤ 0x04F then c.evsel.toList.getD (k - 0x040) 0
  else if 0x050 ≤ k ∧ k ≤ 0x05F then c.evcnt.toList.getD (k - 0x050) 0
  else if k = 0x080 then (c.fe f).pipeown.setWidth 64 else w

theorem ctlOfCore_self (s : State) (k : Nat) : ctlOfCore s.myCore s.ctx.fe (s.ctlValue k) k = s.ctlValue k := by
  unfold ctlOfCore
  split
  · next hk => exact (ctlValue_evsel s hk.1 hk.2).symm
  split
  · next hk => exact (ctlValue_evcnt s hk.1 hk.2).symm
  split
  · next hk => subst hk; rfl
  · rfl

/-- The registers under a change of the context's core. -/
theorem ctlValue_setCore {k : Nat} {x : Nat × Option Nat} (h : Claims.ctlRow k = some x) (s : State) (c : Core) :
    (s.setCore s.ctx.core c).ctlValue k = ctlOfCore c s.ctx.fe (s.ctlValue k) k := by
  have hcore : (s.setCore s.ctx.core c).myCore = c := s.core_setCore s.ctx.core c
  unfold ctlOfCore
  split
  · next hk => rw [ctlValue_evsel _ hk.1 hk.2, hcore]
  split
  · next hk => rw [ctlValue_evcnt _ hk.1 hk.2, hcore]
  split
  · next hk =>
    subst hk
    show (((s.setCore s.ctx.core c).myCore.fe s.ctx.fe).pipeown).setWidth 64 = _
    rw [hcore]
  · next h1 h2 h3 =>
    have hrange : k ≤ 0x009 ∨ 0x010 ≤ k ∧ k ≤ 0x018 ∨ 0x020 ≤ k ∧ k ≤ 0x022 ∨ 0x030 ≤ k ∧ k ≤ 0x032 ∨ 0x081 ≤ k ∧ k ≤ 0x085 ∨ k = 0x090 ∨ k = 0x0A0 ∨ k = 0x0F0 := by
      have := ctlRow_range h
      omega
    rcases hrange with hr | ⟨hl, hr⟩ | ⟨hl, hr⟩ | ⟨hl, hr⟩ | ⟨hl, hr⟩ | rfl | rfl | rfl
    case inr.inr.inr.inr.inr.inl | inr.inr.inr.inr.inr.inr.inl | inr.inr.inr.inr.inr.inr.inr => rfl
    all_goals interval_cases k <;> rfl

theorem getD_setWord (w : Vector Word 16) {i j : Nat} (hi : i < 16) (v : Word) :
    (setWord w i v).toList.getD j 0 = if j = i then v else w.toList.getD j 0 := by
  unfold setWord
  by_cases h : j = i
  · subst h
    simp [List.getD_eq_getElem?_getD, hi]
  · simp [List.getD_eq_getElem?_getD, h, List.getElem?_set_ne (Ne.symm h)]

section
variable (c : Core) (f : Bool) (v w : Word) {n k : Nat}

theorem ctlOfCore_evsel (h1 : 0x040 ≤ n) (h2 : n ≤ 0x04F) :
    ctlOfCore { c with evsel := setWord c.evsel (n - 0x040) v } f w k = if k = n then v else ctlOfCore c f w k := by
  unfold ctlOfCore
  by_cases hk : 0x040 ≤ k ∧ k ≤ 0x04F
  · have hi : k - 0x040 = n - 0x040 ↔ k = n := by omega
    rw [if_pos hk, if_pos hk, getD_setWord _ (by omega), if_congr hi rfl rfl]
  · have hkn : k ≠ n := by omega
    rw [if_neg hk, if_neg hk, if_neg hkn]
    rfl

theorem ctlOfCore_evcnt (h1 : 0x050 ≤ n) (h2 : n ≤ 0x05F) :
    ctlOfCore { c with evcnt := setWord c.evcnt (n - 0x050) v } f w k = if k = n then v else ctlOfCore c f w k := by
  unfold ctlOfCore
  by_cases hk : 0x050 ≤ k ∧ k ≤ 0x05F
  · have hlow : ¬ (0x040 ≤ k ∧ k ≤ 0x04F) := by omega
    have hi : k - 0x050 = n - 0x050 ↔ k = n := by omega
    rw [if_neg hlow, if_neg hlow, if_pos hk, if_pos hk, getD_setWord _ (by omega), if_congr hi rfl rfl]
  · have hkn : k ≠ n := by omega
    rw [if_neg hk, if_neg hk, if_neg hkn]
    rfl

theorem ctlOfCore_pipeown (p : Byte) :
    ctlOfCore (c.modFe f fun x => { x with pipeown := p }) f w k = if k = 0x080 then p.setWidth 64 else ctlOfCore c f w k := by
  have hfe : ((c.modFe f fun x => { x with pipeown := p }).fe f).pipeown = p := by rw [Core.modFe, Core.fe_setFe, if_pos rfl]
  unfold ctlOfCore
  rw [hfe]
  by_cases hk : k = 0x080
  · subst hk; rfl
  · rw [if_neg hk, if_neg hk, if_neg hk]
    cases f <;> rfl

end

section
variable (s : State) (v : Word) {n k : Nat} {x : Nat × Option Nat} (h : Claims.ctlRow k = some x)
include h

theorem ctlValue_set_evsel (h1 : 0x040 ≤ n) (h2 : n ≤ 0x04F) : (s.ctlSet n v).ctlValue k = if k = n then v else s.ctlValue k := by
  have hset : s.ctlSet n v = s.setCore s.ctx.core { s.myCore with evsel := setWord s.myCore.evsel (n - 0x040) v } := by
    interval_cases n <;> rfl
  rw [hset, ctlValue_setCore h, ctlOfCore_evsel _ _ _ _ h1 h2, ctlOfCore_self]

theorem ctlValue_set_evcnt (h1 : 0x050 ≤ n) (h2 : n ≤ 0x05F) : (s.ctlSet n v).ctlValue k = if k = n then v else s.ctlValue k := by
  have hset : s.ctlSet n v = s.setCore s.ctx.core { s.myCore with evcnt := setWord s.myCore.evcnt (n - 0x050) v } := by
    interval_cases n <;> rfl
  rw [hset, ctlValue_setCore h, ctlOfCore_evcnt _ _ _ _ h1 h2, ctlOfCore_self]

theorem ctlValue_set_pipeown : (s.ctlSet 0x080 v).ctlValue k = if k = 0x080 then v &&& 0xFF else s.ctlValue k := by
  have hset : s.ctlSet 0x080 v = s.setCore s.ctx.core (s.myCore.modFe s.ctx.fe fun f => { f with pipeown := v.setWidth 8 }) := rfl
  have hread : ((v.setWidth 8).setWidth 64 : Word) = v &&& 0xFF := by
    refine Eq.trans ?_ (word_mod_two_pow (v := v) (n := 8) (by decide))
    apply BitVec.eq_of_toNat_eq
    simp [word]
  rw [hset, ctlValue_setCore h, ctlOfCore_pipeown, ctlOfCore_self, hread]

end

/-- A half of `PDIRTY` has 32 bits. -/
theorem ctlOk_pdirty {s : State} {n : Nat} {v : Word} (h : n = 0x021 ∨ n = 0x022) (hok : s.ctlOk n v = true) : v.toNat < 2 ^ 32 := by
  rcases h with rfl | rfl <;> exact of_decide_eq_true hok

/-- Every register reads back as it was written, and leaves the others (R157-R159). -/
theorem ctlWriteRead : Claims.CtlWriteRead := by
  intro s n k r v l r2 hn hinj hok hk hstatus htqpos kept
  have hkept (h : n ≠ 0x080 ∧ n ≠ 0x090 ∧ n ≠ 0x0A0) : kept = v := by
    simp only [kept, if_neg h.1, if_neg h.2.1, if_neg h.2.2]
  by_cases hplain : n ∈ plainCtl
  · have hn : n ≠ 0x080 ∧ n ≠ 0x090 ∧ n ≠ 0x0A0 := by
      refine ⟨?_, ?_, ?_⟩ <;> (rintro rfl; revert hplain; decide)
    rw [hkept hn]
    exact ctlValue_plain hplain s v k
  have hrest : n = 0x000 ∨ n = 0x005 ∨ n = 0x021 ∨ n = 0x022 ∨ 0x040 ≤ n ∧ n ≤ 0x04F ∨ 0x050 ≤ n ∧ n ≤ 0x05F ∨ n = 0x080 ∨ n = 0x081 ∨ n = 0x090 ∨ n = 0x0A0 := by
    have := ctlRow_writable hn
    simp only [plainCtl, List.mem_cons, List.not_mem_nil, or_false] at hplain
    omega
  rcases hrest with rfl | rfl | rfl | rfl | hsel | hcnt | rfl | rfl | rfl | rfl
  · exact ctlValue_status s v (hstatus rfl).1 (hstatus rfl).2
  · exact ctlValue_tqpos s v (htqpos rfl)
  · exact ctlValue_pdirty_low s (ctlOk_pdirty (.inl rfl) hok) k
  · exact ctlValue_pdirty_high s (ctlOk_pdirty (.inr rfl) hok) k
  · rw [hkept (by omega)]
    exact ctlValue_set_evsel s v hk hsel.1 hsel.2
  · rw [hkept (by omega)]
    exact ctlValue_set_evcnt s v hk hcnt.1 hcnt.2
  · exact ctlValue_set_pipeown s v hk
  · exact ctlValue_stripcnt s v k
  · exact ctlValue_bypassth s v k
  · exact ctlValue_urnshare s v k

/-! ### The field rules -/

/-- Bit k of a register that a write may change (R159). -/
theorem status_writable_iff (v w : Word) : ((v ^^^ w) &&& ~~~0x8000 == 0) = true ↔ ∀ k, k ≠ 15 → v.getLsbD k = w.getLsbD k := by
  have hbit (k : Nat) : ((v ^^^ w) &&& ~~~0x8000).getLsbD k = ((v.getLsbD k ^^ w.getLsbD k) && decide (k ≠ 15)) := by
    have hmask : (0x8000 : Word) = BitVec.twoPow 64 15 := rfl
    by_cases hk : k < 64
    · simp [hmask, hk, eq_comm (a := k)]
    · simp [BitVec.getLsbD_of_ge _ k (not_lt.1 hk)]
  have hzero : (v ^^^ w) &&& ~~~0x8000 = 0 ↔ ∀ k, ((v ^^^ w) &&& ~~~0x8000).getLsbD k = false :=
    ⟨fun h k => by rw [h]; exact BitVec.getLsbD_zero, fun h => BitVec.eq_of_getLsbD_eq fun k _ => (h k).trans BitVec.getLsbD_zero.symm⟩
  rw [beq_iff_eq, hzero]
  refine forall_congr' fun k => ?_
  rw [hbit]
  by_cases hk : k = 15
  · simp [hk]
  · simp [hk]

theorem toNat_clamp (m x : Word) : (if m.toNat < x.toNat then m else x).toNat = min x.toNat m.toNat := by
  split
  · next h => exact (min_eq_right h.le).symm
  · next h => exact (min_eq_left (not_lt.1 h)).symm

theorem setStatus_changed {c : Ctx} {v : Word} (h : v.getLsbD 15 ≠ c.status.getLsbD 15) :
    (c.setStatus v).mvl = (if v.getLsbD 15 then 2048 else 4096) ∧
      (c.setStatus v).vl.toNat = min c.vl.toNat (if v.getLsbD 15 then 2048 else 4096) := by
  have hne : ¬ (bitAt v 15 == c.protected) = true := fun e => h (beq_iff_eq.1 e)
  unfold Ctx.setStatus
  dsimp only
  rw [if_neg hne]
  refine ⟨rfl, (toNat_clamp _ c.vl).trans (congrArg (min c.vl.toNat) ?_)⟩
  unfold bitAt
  split <;> rfl

/-- A field of a word is zero. -/
theorem bits_eq_zero_iff (w : Word) (hi lo : Nat) : bits w hi lo = 0 ↔ w.extractLsb' lo (hi + 1 - lo) = 0 := by
  simp [bits_eq_extract, ← BitVec.toNat_inj]

/-- All bits from k on are zero. -/
theorem bits_top_eq_zero_iff (w : Word) {k : Nat} (h : k ≤ 64) : bits w 63 k = 0 ↔ w.toNat < 2 ^ k := by
  have hsplit : (2 : Nat) ^ 64 = 2 ^ k * 2 ^ (63 + 1 - k) := by rw [← pow_add, Nat.add_sub_cancel' h]
  have hlt : w.toNat / 2 ^ k < 2 ^ (63 + 1 - k) := Nat.div_lt_of_lt_mul (hsplit ▸ w.isLt)
  unfold bits
  rw [Nat.mod_eq_of_lt hlt, Nat.div_eq_zero_iff_lt (Nat.two_pow_pos k)]

theorem ctlFieldRules : Claims.CtlFieldRules := by
  intro s v
  refine ⟨?_, decide_eq_true_iff, status_writable_iff v s.ctx.status, ?_, beq_iff_eq, decide_eq_true_iff, decide_eq_true_iff, rfl, ?_, setStatus_changed⟩
  · show (bits v 63 16 == 0 && decide (bits v 15 13 ≤ 4) && !bitAt v 12 && bits v 7 5 == 0) = true ↔ _
    simp only [Bool.and_eq_true, beq_iff_eq, decide_eq_true_eq, Bool.not_eq_true', bits_top_eq_zero_iff v (k := 16) (by decide),
      bits_eq_zero_iff v 7 5, bits_eq_extract v 15 13, and_assoc]
    rfl
  · show (bits v 63 8 == 0 && decide (3 ≤ bits v 7 4) && decide (bits v 7 4 ≤ 8) && bits v 3 2 == 0 && decide (bits v 1 0 ≤ 2)) = true ↔ _
    simp only [Bool.and_eq_true, beq_iff_eq, decide_eq_true_eq, bits_top_eq_zero_iff v (k := 8) (by decide), bits_eq_zero_iff v 3 2,
      bits_eq_extract v 7 4, bits_eq_extract v 1 0, and_assoc]
  · show (decide (1 ≤ bits v 6 0) && decide (bits v 6 0 ≤ 64)) = true ↔ _
    simp only [Bool.and_eq_true, decide_eq_true_eq, bits_eq_extract v 6 0]

end Sys2Proof.Machine

/-- Settles O18: what a register reads after a write is found register by register, for the context's own fields, for those that a
write changes with others, and for the core's; the field rules are fields of the written value. -/
theorem ctlFields : Obligations.CtlFields := ⟨Sys2Proof.Machine.ctlWriteRead, Sys2Proof.Machine.ctlFieldRules⟩

/-! ## Pots (R52, R53, R257, R369, O31) -/



namespace Sys2Proof.Machine

/-! ### The table of additions (R53) -/

/-- State and Arrived of a pot's words, as the claims read them. -/
theorem potState_eq (w : Word) : potState w = (w.extractLsb' 62 2).toNat := bits_eq_extract w 63 62

theorem potBytes_eq (w : Word) : potBytes w = (w.extractLsb' 0 36).toNat := bits_eq_extract w 35 0

/-- Word 0 with its State replaced. -/
def potWord0 (st : Nat) (w : Word) : Word := word (st * 2 ^ 62 + w.toNat % 2 ^ 62)

theorem potWord0_toNat {st : Nat} (h : st < 4) (w : Word) : (potWord0 st w).toNat = st * 2 ^ 62 + w.toNat % 2 ^ 62 := by
  unfold potWord0 word
  rw [BitVec.toNat_ofNat]
  omega

theorem potWord0_state {st : Nat} (h : st < 4) (w : Word) : ((potWord0 st w).extractLsb' 62 2).toNat = st := by
  rw [BitVec.extractLsb'_toNat, potWord0_toNat h, Nat.shiftRight_eq_div_pow]
  omega

theorem potWord0_rest {st : Nat} (h : st < 4) (w : Word) : (potWord0 st w).extractLsb' 0 62 = w.extractLsb' 0 62 := by
  apply BitVec.eq_of_toNat_eq
  rw [BitVec.extractLsb'_toNat, BitVec.extractLsb'_toNat, potWord0_toNat h, Nat.shiftRight_zero, Nat.shiftRight_zero]
  omega

/-- Word 1 with Arrived replaced. -/
def potWord1 (w : Word) (n : Nat) : Word := word (w.toNat / 2 ^ 36 * 2 ^ 36 + n)

theorem potWord1_arrived {n : Nat} (h : n < 2 ^ 36) (w : Word) : ((potWord1 w n).extractLsb' 0 36).toNat = n := by
  have hw := w.isLt
  unfold potWord1 word
  rw [BitVec.extractLsb'_toNat, BitVec.toNat_ofNat, Nat.shiftRight_zero]
  omega

/-- What an addition makes of State, of Expected and of the sum. -/
def potNext (st expected sum : Nat) : Nat := if 2 ≤ st then st else if expected < sum then 2 else if sum = expected then 1 else st

def potArrived (st expected sum : Nat) : Nat := if 2 ≤ st ∨ expected < sum then min sum (2 ^ 36 - 1) else sum

theorem potSum_eq (w0 w1 : Word) (count : Nat) : potSum w0 w1 count =
    (potWord0 (potNext (potState w0) (potBytes w0) (potBytes w1 + count)) w0,
      potWord1 w1 (potArrived (potState w0) (potBytes w0) (potBytes w1 + count))) := by
  unfold potSum potWord0 potWord1 potNext potArrived
  simp only [Bool.or_eq_true, decide_eq_true_eq]

theorem potNext_lt {st : Nat} (h : st < 4) (expected sum : Nat) : potNext st expected sum < 4 := by unfold potNext; split_ifs <;> omega

theorem potArrived_lt {st expected : Nat} (h : expected < 2 ^ 36) (sum : Nat) : potArrived st expected sum < 2 ^ 36 := by
  unfold potArrived
  split_ifs <;> omega

theorem potAdditions : Claims.PotAdditions := by
  intro w0 w1 count _
  dsimp only
  rw [potSum_eq, ← potState_eq w0, ← potBytes_eq w0, ← potBytes_eq w1]
  have hst : potState w0 < 4 := bits_lt w0 63 62
  have hexp : potBytes w0 < 2 ^ 36 := bits_lt w0 35 0
  generalize potBytes w1 + count = sum
  dsimp only
  rw [potWord0_state (potNext_lt hst _ _), potWord1_arrived (potArrived_lt hexp _), potWord0_rest (potNext_lt hst _ _)]
  generalize potState w0 = st at hst
  generalize potBytes w0 = e at hexp
  unfold potNext potArrived
  refine ⟨fun h0 hs => ?_, fun h0 hs => ?_, fun h0 hs => ?_, fun h0 hs => ?_, fun h0 => ?_, rfl⟩
  · rw [if_neg (by omega), if_neg (by omega), if_neg (by omega), if_neg (by omega)]; exact ⟨h0, rfl⟩
  · rw [if_neg (by omega), if_neg (by omega), if_pos hs, if_neg (by omega)]; exact ⟨rfl, rfl⟩
  · rw [if_neg (by omega), if_neg (by omega), if_neg (show ¬ (2 ≤ st ∨ e < sum) by omega)]; exact ⟨by split <;> omega, rfl⟩
  · rw [if_neg (by omega), if_pos hs, if_pos (.inr hs)]; exact ⟨rfl, rfl⟩
  · rw [if_pos (by omega), if_pos (.inl (by omega))]; exact ⟨rfl, rfl⟩

/-! ### A pot reached -/

theorem command_front {s : State} (h : Claims.onFront s) (rs : List XReg) : command rs s = .ok () := by
  unfold command
  rw [legal_front h]
  exact drained_of_empty h.2.2

/-- A misaligned pot is refused (R257). -/
theorem potCheck_misaligned {pot : Word} (h : pot.toNat % 64 ≠ 0) (s : State) (w : Who) (sc : Option Scope) :
    s.potCheck w sc pot = .error (.fault s { cause := 0x04, tval := pot }) := if_pos (bne_iff_ne.2 h)

theorem kept_potCheck {s t : State} {w : Who} {sc : Option Scope} {pot : Word} {pa : Nat} (h : s.potCheck w sc pot = .ok (pa, t)) : Kept s t :=
  State.kept_ordinaryCheck h

theorem kept_potReach {s t : State} {w : Who} {pa : Nat} {owned : Bool} (h : s.potReach w pa owned = .ok t) : Kept s t := by
  unfold State.potReach at h
  split at h
  · cases h
  · cases hd : s.detectLine w (pa / 128) with
    | error x => rw [hd] at h; cases h
    | ok u => rw [hd] at h; cases h; exact (State.kept_detectLine (.inl hd)).trans (State.kept_touch _ _ _ _ _ _ _)

/-! ### The words of a pot (R52) -/

/-- The bytes of a range, cut in two. -/
theorem Memory.bytes_append {m : Memory} (h : m.wf = true) (a n k : Nat) : m.bytes a (n + k) = m.bytes a n ++ m.bytes (a + n) k := by
  rw [bytes_eq h, bytes_eq h, bytes_eq h, List.range_add, List.map_append, List.map_map]
  refine congrArg _ (List.map_congr_left fun i _ => ?_)
  rw [Function.comp_apply, Nat.add_assoc]

/-- Two words next to each other in memory. -/
theorem num_two {m : Memory} (h : m.wf = true) (pa x y : Nat) :
    (m.setBytes pa (leBytes 8 x ++ leBytes 8 y)).num pa 8 = x % 2 ^ 64 ∧
      (m.setBytes pa (leBytes 8 x ++ leBytes 8 y)).num (pa + 8) 8 = y % 2 ^ 64 := by
  have hw := Memory.wf_setBytes h pa (leBytes 8 x ++ leBytes 8 y)
  have hall := Memory.bytes_setBytes h pa (leBytes 8 x ++ leBytes 8 y)
  rw [List.length_append, leBytes_length, leBytes_length, Memory.bytes_append hw] at hall
  have hlen : ((m.setBytes pa (leBytes 8 x ++ leBytes 8 y)).bytes pa 8).length = (leBytes 8 x).length := by
    rw [Memory.bytes_eq hw, List.length_map, List.length_range, leBytes_length]
  obtain ⟨hx, hy⟩ := List.append_inj hall hlen
  unfold Memory.num
  exact ⟨by rw [hx, leNat_leBytes], by rw [hy, leNat_leBytes]⟩

namespace State
variable {s : State} {pa : Nat}

theorem potWord_clean (h : s.poisonedAt pa 8 = false) (first : Bool) : s.potWord pa first = (word (s.mem.num pa 8), s) := by
  unfold potWord
  rw [h]
  rfl

theorem potPut_clean (h : s.poisonedAt pa 16 = false) (h0 : s.poisonedAt pa 8 = false) (h1 : s.poisonedAt (pa + 8) 8 = false) (n : Nat) :
    s.potPut pa n = s.putBytes none pa
      (leBytes 8 (potSum (word (s.mem.num pa 8)) (word (s.mem.num (pa + 8) 8)) n).1.toNat ++
        leBytes 8 (potSum (word (s.mem.num pa 8)) (word (s.mem.num (pa + 8) 8)) n).2.toNat) := by
  unfold potPut
  rw [h, potWord_clean h0]
  dsimp only
  rw [potWord_clean h1]
  rfl

/-- An addition at a pot without marked words: its two words are those of the table, and no other byte changes. -/
theorem potAddAt_clean (hw : s.mem.wf = true) (h : s.poisonedAt pa 16 = false) (h0 : s.poisonedAt pa 8 = false)
    (h1 : s.poisonedAt (pa + 8) 8 = false) (c : CtxId) (n : Nat) :
    (BitVec.ofNat 64 ((s.potAddAt c pa n).mem.num pa 8), BitVec.ofNat 64 ((s.potAddAt c pa n).mem.num (pa + 8) 8)) =
        potSum (BitVec.ofNat 64 (s.mem.num pa 8)) (BitVec.ofNat 64 (s.mem.num (pa + 8) 8)) n ∧
      ∀ x, x < pa ∨ pa + 16 ≤ x → (s.potAddAt c pa n).mem.byte x = s.mem.byte x := by
  have hput : s.potAddAt c pa n = s.potPut pa n := by
    unfold potAddAt
    rw [h]
    rfl
  rw [hput, potPut_clean h h0 h1, putBytes_mem]
  unfold word
  generalize potSum _ _ n = v
  obtain ⟨hx, hy⟩ := num_two hw pa v.1.toNat v.2.toNat
  refine ⟨?_, fun x hx => Memory.byte_setBytes_of_outside hw ?_⟩
  · rw [hx, hy, Nat.mod_eq_of_lt v.1.isLt, Nat.mod_eq_of_lt v.2.isLt, BitVec.ofNat_toNat, BitVec.ofNat_toNat, BitVec.setWidth_eq, BitVec.setWidth_eq]
  · rw [List.length_append, leBytes_length, leBytes_length]
    exact hx

end State

/-! ### potinit, potadd, potwait (R257) -/

section commands
variable {s t : State} {pb : Nat} (h : Claims.onFront s)
include h

theorem pot_misaligned {a : XReg} (hp : (s.getX a).toNat % 64 ≠ 0) (q : Scope) (b d : XReg) :
    exec (.potinit a b) s = .next (s.takeTrap (.scalar 0x04 (s.getX a))) ∧
      exec (.potadd q a b) s = .next (s.takeTrap (.scalar 0x04 (s.getX a))) ∧
      exec (.potwait q d a) s = .next (s.takeTrap (.scalar 0x04 (s.getX a))) := by
  refine ⟨?_, ?_, ?_⟩
  · show execPotinit a b s = _
    unfold execPotinit
    rw [command_front h]
    dsimp only [bind, Except.bind]
    rw [potCheck_misaligned hp]
    rfl
  · show execPotadd q a b s = _
    unfold execPotadd
    rw [command_front h]
    dsimp only [bind, Except.bind]
    rw [potCheck_misaligned hp]
    rfl
  · show execPotwait q d a s = _
    unfold execPotwait
    rw [command_front h]
    dsimp only [bind, Except.bind]
    rw [potCheck_misaligned hp]
    rfl

/-- potinit once its pot is checked: a count past 2^36 - 1 is refused. -/
theorem exec_potinit_past {a b : XReg} (hc : s.potCheck s.ctx.who none (s.getX a) = .ok (pb, t)) (hn : 2 ^ 36 ≤ (s.getX b).toNat) :
    exec (.potinit a b) s = .next (t.takeTrap (.scalar 0x02 (s.getX b))) := by
  show execPotinit a b s = _
  unfold execPotinit
  rw [command_front h]
  dsimp only [bind, Except.bind]
  rw [hc]
  dsimp only [scalarAcc]
  rw [check_fails (mt of_decide_eq_true (Nat.not_lt.2 hn)), (kept_potCheck hc).getX]
  rfl

/-- potinit whose pot is checked and reached writes the eight words. -/
theorem exec_potinit {a b : XReg} {r : State.Reached} {u : State} (hc : s.potCheck s.ctx.who none (s.getX a) = .ok (pb, t))
    (hn : (s.getX b).toNat < 2 ^ 36) (hu : t.access .engine .store .strand (s.getX a) 64 .normal = .ok (r, u)) :
    exec (.potinit a b) s =
      .next ((u.putBytes (some u.ctx.id) r.pa (leBytes 64 (if (s.getX b).toNat = 0 then 2 ^ 62 else (s.getX b).toNat))).advance 4) := by
  show execPotinit a b s = _
  unfold execPotinit
  rw [command_front h]
  dsimp only [bind, Except.bind]
  rw [hc]
  dsimp only [scalarAcc]
  rw [check_of (decide_eq_true hn), hu]
  rfl

/-- potwait once its pot is checked, where no word is marked. -/
theorem exec_potwait {d a : XReg} {q : Scope} {r : State.Reached} {u : State} (hc : s.potCheck s.ctx.who none (s.getX a) = .ok (pb, t))
    (hr : t.access .engine .load .strand (s.getX a) 64 .normal = .ok (r, u)) (hm : u.poisonedAt r.pa 16 = false)
    (h0 : u.poisonedAt r.pa 8 = false) (h1 : u.poisonedAt (r.pa + 8) 8 = false) :
    exec (.potwait q d a) s = settle (if potState (word (u.mem.num r.pa 8)) = 0 then waits t
      else .ok (((u.setX d (word (potState (word (u.mem.num r.pa 8)) * 2 ^ 62 + potBytes (word (u.mem.num (r.pa + 8) 8))))).advance 4).acquire
        (some q))) := by
  show execPotwait q d a s = _
  unfold execPotwait
  rw [command_front h]
  dsimp only [bind, Except.bind]
  rw [hc]
  dsimp only [scalarAcc]
  rw [hr]
  dsimp only
  rw [hm, State.potWord_clean h0]
  dsimp only
  rw [State.potWord_clean h1]
  rfl

/-- potadd once its pot is checked: a count past 2^36 - 1 is refused. -/
theorem exec_potadd_past {a b : XReg} {q : Scope} (hc : s.potCheck s.ctx.who (some q) (s.getX a) = .ok (pb, t)) (hn : 2 ^ 36 ≤ (s.getX b).toNat) :
    exec (.potadd q a b) s = .next (t.takeTrap (.scalar 0x02 t.enc)) := by
  show execPotadd q a b s = _
  unfold execPotadd
  rw [command_front h]
  dsimp only [bind, Except.bind]
  rw [hc]
  dsimp only [scalarAcc]
  rw [check_fails (mt of_decide_eq_true (Nat.not_lt.2 hn))]
  rfl

/-- potadd whose pot is checked and reached, after its release. -/
theorem exec_potadd {a b : XReg} {q : Scope} {r : State.Reached} {u v w : State} (hc : s.potCheck s.ctx.who (some q) (s.getX a) = .ok (pb, t))
    (hn : (s.getX b).toNat < 2 ^ 36) (hu : release (some q) t = .ok u) (hv : u.reach .engine .atomic q (s.getX a) 64 = .ok (r, v))
    (hw : v.potReach v.ctx.who r.pa (v.ownedLine (r.pa / 128) true) = .ok w) :
    exec (.potadd q a b) s = .next ((w.potAddAt w.ctx.id r.pa (s.getX b).toNat).advance 4) := by
  show execPotadd q a b s = _
  unfold execPotadd
  rw [command_front h]
  dsimp only [bind, Except.bind]
  rw [hc]
  dsimp only [scalarAcc]
  rw [check_of (decide_eq_true hn), hu]
  dsimp only
  rw [hv]
  dsimp only
  rw [hw]
  rfl

end commands

theorem leBytes_add (n k v : Nat) : leBytes (n + k) v = leBytes n v ++ leBytes k (v / 256 ^ n) := by
  induction n generalizing v with
  | zero => rw [Nat.zero_add, pow_zero, Nat.div_one]; rfl
  | succ n ih => rw [Nat.succ_add, leBytes, leBytes, ih, List.cons_append, Nat.div_div_eq_div_mul, pow_succ']

theorem leBytes_zero (n : Nat) : leBytes n 0 = List.replicate n 0 := by
  induction n with
  | zero => rfl
  | succ n ih => rw [leBytes, ih]; rfl

/-- The eight words that potinit writes: the count, or an open pot, and zeros. -/
theorem potinit_words {m : Memory} (h : m.wf = true) (pa : Nat) {n : Nat} (hn : n < 2 ^ 64) :
    (m.setBytes pa (leBytes 64 n)).num pa 8 = n ∧ (∀ k, 8 ≤ k → k < 64 → (m.setBytes pa (leBytes 64 n)).byte (pa + k) = 0) ∧
      ∀ x, x < pa ∨ pa + 64 ≤ x → (m.setBytes pa (leBytes 64 n)).byte x = m.byte x := by
  have hw := Memory.wf_setBytes h pa (leBytes 64 n)
  have hsplit : leBytes 64 n = leBytes 8 n ++ List.replicate 56 0 := by
    rw [leBytes_add 8 56, Nat.div_eq_of_lt (hn.trans_eq (by decide)), leBytes_zero]
  refine ⟨?_, fun k h8 h64 => ?_, fun x hx => Memory.byte_setBytes_of_outside h (by rwa [leBytes_length])⟩
  · have hall := Memory.bytes_setBytes h pa (leBytes 64 n)
    rw [leBytes_length, Memory.bytes_append hw pa 8 56] at hall
    have hword := (List.append_inj (hall.trans hsplit) (by rw [Memory.bytes_eq hw, List.length_map, List.length_range, leBytes_length])).1
    unfold Memory.num
    rw [hword, leNat_leBytes]
    exact Nat.mod_eq_of_lt hn
  · rw [Memory.byte_setBytes h, if_pos (by rw [leBytes_length]; omega), Nat.add_sub_cancel_left, hsplit, List.getD_append_right _ _ _ _ (by rwa [leBytes_length])]
    exact List.getD_replicate _ (by rw [leBytes_length]; omega)

/-- What potwait answers: State and Arrived. -/
theorem potAnswer (w0 w1 : Word) : word (potState w0 * 2 ^ 62 + potBytes w1) = w0.extractLsb' 62 2 ++ 0#26 ++ w1.extractLsb' 0 36 := by
  rw [potState_eq, potBytes_eq]
  apply BitVec.eq_of_toNat_eq
  have h0 := (w0.extractLsb' 62 2).isLt
  have h1 := (w1.extractLsb' 0 36).isLt
  rw [BitVec.toNat_append, BitVec.toNat_append, ← Nat.shiftLeft_add_eq_or_of_lt h1, ← Nat.shiftLeft_add_eq_or_of_lt (by decide)]
  unfold word
  rw [BitVec.toNat_ofNat, Nat.shiftLeft_eq, Nat.shiftLeft_eq, BitVec.toNat_ofNat]
  omega

section arrival
variable {s t : State} {p : PotAdd} {pa : Nat} (hp : s.arg = .pot p)
  (hc : s.potCheck { lease := p.lease, sub := p.sub, die := p.die } (some p.scope) p.pot = .ok (pa, t))
include hp hc

/-- An addition on its way whose line another unit owns is tried again. -/
theorem exec_potAddition_again (ho : t.ownedLine (pa / 128) true = true) : exec .potAddition s = .next (t.post .potAddition (.pot p)) := by
  show execPotAddition s = _
  unfold execPotAddition
  rw [hp]
  dsimp only
  rw [hc]
  dsimp only
  rw [ho]
  rfl

/-- One that reaches its pot. -/
theorem exec_potAddition {u : State}
    (hr : t.potReach { lease := p.lease, sub := p.sub, die := p.die } pa (t.ownedLine (pa / 128) true) = .ok u) :
    exec .potAddition s = .next (u.potAddAt p.ctx pa p.count.toNat) := by
  show execPotAddition s = _
  unfold execPotAddition
  rw [hp]
  dsimp only
  rw [hc]
  dsimp only
  rw [hr]

end arrival

theorem potCommands : Claims.PotCommands := by
  intro s t u v v0 a b d q pa pb r hs hw hpa
  dsimp only
  subst hpa
  refine ⟨fun hp => pot_misaligned hs hp q b d, fun hc => ?_, fun hc => ?_, fun p hp hc => ?_⟩
  · have hk := kept_potCheck hc
    refine ⟨fun hn => exec_potinit_past hs hc hn, fun hn hu => ⟨_, exec_potinit hs hc hn hu, ?_⟩, fun hu hm h0 h1 => ?_⟩
    · have hmem := (hk.trans (State.kept_access hu)).mem
      rw [State.advance_mem, State.putBytes_mem, hmem]
      exact potinit_words hw r.pa (by split <;> omega)
    · have hmem := (hk.trans (State.kept_access hu)).mem
      rw [exec_potwait hs hc hu hm h0 h1, hmem, potAnswer, potState_eq]
      refine ⟨fun h => ?_, fun h => ?_⟩
      · rw [if_pos (by unfold word; rw [h]; rfl)]
        rfl
      · unfold word
        rw [if_neg (fun e => h (BitVec.eq_of_toNat_eq (e.trans rfl)))]
        rfl
  · have hk := kept_potCheck hc
    refine ⟨fun hn => exec_potadd_past hs hc hn, fun hn hu hv hr hm h0 h1 => ⟨_, exec_potadd hs hc hn hu hv hr, ?_⟩⟩
    have hmem := (((hk.trans (kept_release hu)).trans ((State.kept_reach u .engine .atomic q _ 64).ok hv)).trans (kept_potReach hr)).mem
    rw [State.advance_mem]
    have := State.potAddAt_clean (hmem ▸ hw) hm h0 h1 v.ctx.id (s.getX b).toNat
    rwa [hmem] at this
  · have hk := kept_potCheck hc
    refine ⟨exec_potAddition_again hp hc, fun hr hm h0 h1 => ⟨_, exec_potAddition hp hc hr, ?_⟩⟩
    have hmem := (hk.trans (kept_potReach hr)).mem
    have := State.potAddAt_clean (hmem ▸ hw) hm h0 h1 p.ctx p.count.toNat
    rwa [hmem] at this

end Sys2Proof.Machine

/-- Settles O31: the table by cases over State and the sum; the commands by what their checks and accesses keep (`Kept`) and the bytes that
they then write. -/
theorem pots : Obligations.Pots := ⟨Sys2Proof.Machine.potAdditions, Sys2Proof.Machine.potCommands⟩

/-! ## strset (R48, R255, O42) -/



namespace Sys2Proof.Machine

/-! ### Stream slots of a state (R48) -/

theorem lookupN_eraseN_ne {α : Type} {j k : Nat} (h : j ≠ k) (l : List (Nat × α)) : lookupN j (eraseN k l) = lookupN j l := by
  unfold eraseN
  induction l with
  | nil => rfl
  | cons p l ih =>
    by_cases hp : p.1 = k
    · rw [List.filter_cons_of_neg (by simp [hp]), ih, lookupN, if_neg (by omega)]
    · rw [List.filter_cons_of_pos (by simpa using hp), lookupN, lookupN, ih]

namespace State
variable {s t : State}

theorem streamAt_of (hc : t.cores = s.cores) (hs : t.ctx.self = s.ctx.self) (j : Nat) : t.streamAt j = s.streamAt j := by
  unfold streamAt
  rw [myFe_of hc hs]

theorem streamAt_modMyFe (s : State) (g : FrontEnd → FrontEnd) (j : Nat) : (s.modMyFe g).streamAt j = lookupN j (g s.myFe).streams := by
  unfold streamAt
  rw [myFe_modMyFe]

/-- The scoreboard is not the slots. -/
theorem streamAt_modBoard (s : State) (g : List SbEntry → List SbEntry) (j : Nat) :
    (s.modCore s.ctx.core (fun c => { c with board := g c.board })).streamAt j = s.streamAt j := by
  have hcore : (s.modCore s.ctx.core (fun c => { c with board := g c.board })).myCore = { s.myCore with board := g s.myCore.board } :=
    (core_modCore s _ _ _).trans (if_pos rfl)
  unfold streamAt myFe
  rw [hcore]
  show lookupN j (Core.fe _ s.ctx.fe).streams = _
  cases s.ctx.fe <;> rfl

theorem streamAt_unboard (s : State) (k j : Nat) : (s.unboard k).streamAt j = s.streamAt j :=
  streamAt_modBoard s (List.filter (fun e => e.op != .stream s.ctx.fe k)) j

end State

theorem Kept.streamAt {s t : State} (h : Kept s t) (j : Nat) : t.streamAt j = s.streamAt j := by
  unfold State.streamAt State.myFe State.myCore
  rw [h.ctx, h.streams]

/-! ### Taking the vector unit, and completion -/

/-- What taking the unit leaves beside the scalar registers (R164). -/
structure UnitTaken (s t : State) : Prop where
  enc : t.enc = s.enc
  self : t.ctx.self = s.ctx.self
  mfmt : t.ctx.mfmt = s.ctx.mfmt
  mills : t.mills = s.mills

theorem UnitTaken.trans {s t u : State} (a : UnitTaken s t) (b : UnitTaken t u) : UnitTaken s u :=
  ⟨b.enc.trans a.enc, b.self.trans a.self, b.mfmt.trans a.mfmt, b.mills.trans a.mills⟩

theorem unitTaken_passRows (s : State) (n : Nat) (f : Bool) (m : Byte × Byte) : UnitTaken s (s.passRows n f m) := by
  unfold State.passRows
  dsimp only
  split <;> exact ⟨rfl, rfl, rfl, rfl⟩

theorem unitTaken_passUnit (s : State) : UnitTaken s s.passUnit := by
  unfold State.passUnit
  dsimp only
  split
  · exact ⟨rfl, rfl, rfl, rfl⟩
  · split
    · exact unitTaken_passRows s _ _ _
    · exact (unitTaken_passRows s _ _ _).trans (unitTaken_passRows _ _ _ _)

theorem takeUnit_taken {s t : State} (h : takeUnit s = .ok t) : UnitTaken s t := by
  unfold takeUnit at h
  dsimp only at h
  split at h
  · cases h
  · split at h
    · cases h; exact unitTaken_passUnit s
    · split at h
      · cases h
      · cases h
        exact (show UnitTaken s { s with ctx := { s.ctx.freshVector with unit := true } } from ⟨rfl, rfl, rfl, rfl⟩).trans (unitTaken_passUnit _)

/-- What completion leaves where no stream advances. -/
theorem done_streamless {r : VRun} (hs : r.spec.srcs = []) (hw : r.spec.writes = []) (s : State) :
    ∃ t, r.done s = .ok t ∧ t.mem = s.mem ∧ t.ctx.pc = s.ctx.pc ∧ ∀ j, t.streamAt j = s.streamAt j := by
  have hadv : r.advanceStreams s = s := by
    unfold VRun.advanceStreams
    rw [hs, hw]
    exact ite_self s
  unfold VRun.done
  rw [hadv]
  dsimp only
  generalize hv : (if s.ctx.inTrap = true then s else { s with ctx := { s.ctx with vstart := 0 } } : State) = v
  have hstay : v.mem = s.mem ∧ v.ctx.pc = s.ctx.pc ∧ ∀ j, v.streamAt j = s.streamAt j := by
    rw [← hv]
    split
    · exact ⟨rfl, rfl, fun _ => rfl⟩
    · exact ⟨rfl, rfl, State.streamAt_of rfl rfl⟩
  obtain ⟨hmem, hpc, hstr⟩ := hstay
  have hk : Kept v ((v.countCtx 0x02 1).countCtx 0x03 r.groups) := (State.kept_countCtx v _ _).trans (State.kept_countCtx _ _ _)
  exact ⟨_, rfl, hk.mem.trans hmem, (congrArg Ctx.pc hk.ctx).trans hpc, fun j => (hk.streamAt j).trans (hstr j)⟩

/-! ### The dispatch of strset -/

/-- What strset names: no plot. -/
def strsetSpec : VSpec :=
  { unit := 6, o := { mask := 0, inv := false, dt := false, vls := .vl }, dest := none, srcs := [], lenOf := []
    cross := false, scalarRes := false, governed := false }

/-- The run that dispatch settles for it. -/
def strsetRun (en : VQEntry) (s : State) : VRun :=
  let start := if s.ctx.inTrap then 0 else s.ctx.vstart.toNat
  { entry := en, spec := strsetSpec, vl := s.ctx.vl.toNat, start := start, len := s.ctx.vl.toNat, selfov := false, src := s
    sfault := streamFault strsetSpec start s.ctx.vl.toNat s }

theorem vbegin_strset (en : VQEntry) (s : State) : vbegin en strsetSpec s = .ok (strsetRun en s) := by
  have h : vbegin en strsetSpec s = (do
      vcheck en strsetSpec ((strsetRun en s).start == 0 || true) s 0x02
      let s ← if s.ctx.vl.toNat = 0 then .ok s else .ok s
      let s ← if s.ctx.vl.toNat = 0 then .ok s else .ok s
      .ok (strsetRun en s)) := rfl
  rw [h, vcheck_of (Bool.or_true _), ite_self]
  dsimp only [bind, Except.bind]
  rw [ite_self]

/-- The slots after strset: without the slot, or with the one that the block describes. -/
def slotSet (a : XReg) (k : BitVec 4) (ws : List Word) (s : State) (f : FrontEnd) : FrontEnd :=
  { f with streams := if a = 0 then eraseN k.toNat f.streams
                      else insertN k.toNat (streamOf s.ctx.id ws s.ctx.mfmt s.nextId) f.streams }

theorem strsetBody_eq {a : XReg} {k : BitVec 4} {en : VQEntry} {s : State}
    (ho : ∀ t, s.streamAt k.toNat = some t → t.output = true → t.ahead = [])
    (ha : a = 0 ∨ (mform s.ctx.mfmt).admits (streamTy en.xs.toList) .other = true) :
    strsetBody a k en s = (strsetRun en s).done ((s.modMyFe (slotSet a k en.xs.toList s)).unboard k.toNat) := by
  have hnone : ¬ (s.streamAt k.toNat).any (fun t => t.output && !t.ahead.isEmpty) = true := by
    rw [Option.any_eq_true]
    rintro ⟨t, ht, h⟩
    obtain ⟨h1, h2⟩ := Bool.and_eq_true_iff.1 h
    rw [ho t ht h1] at h2
    cases h2
  have hadm : (a == 0 || (mform s.ctx.mfmt).admits (streamTy en.xs.toList) .other) = true := by
    rcases ha with rfl | h
    · rfl
    · rw [h, Bool.or_true]
  have hb := vbegin_strset en s
  unfold strsetSpec at hb
  unfold strsetBody
  dsimp only
  rw [hb]
  dsimp only [bind, Except.bind, strsetRun]
  rw [if_neg hnone, vcheck_of hadm]
  rfl

/-- Words from a register file that holds those of a block. -/
theorem getD_block (ws : List Word) {i : Nat} (h : i < 32) : (Vector.ofFn (fun i : Fin 32 => ws.getD i.val 0)).toList.getD i 0 = ws.getD i 0 := by
  rw [List.getD_eq_getElem?_getD, List.getElem?_eq_getElem (by simpa using h)]
  simp

/-- A slot is configured by the first eight words of its block. -/
theorem streamOf_congr {ws vs : List Word} (h : ∀ i, i < 8 → vs.getD i 0 = ws.getD i 0) (c : CtxId) (m : Word) (n : Nat) :
    streamOf c vs m n = streamOf c ws m n := by
  have hty : streamTy vs = streamTy ws := by
    unfold streamTy
    rw [h 1 (by decide)]
  have hdims (f : Word → Nat) : (List.range (bits (ws.getD 1 0) 1 0 + 1)).map (fun k => f (vs.getD (2 + k) 0)) =
      (List.range (bits (ws.getD 1 0) 1 0 + 1)).map (fun k => f (ws.getD (2 + k) 0)) := by
    refine List.map_congr_left fun k hk => ?_
    have hb := bits_lt (ws.getD 1 0) 1 0
    rw [List.mem_range] at hk
    rw [h (2 + k) (by omega)]
  have hstrides : (List.range (bits (ws.getD 1 0) 1 0 + 1)).map (fun k => sextN 32 (bits (vs.getD (2 + k) 0) 63 32)) =
      (List.range (bits (ws.getD 1 0) 1 0 + 1)).map (fun k => sextN 32 (bits (ws.getD (2 + k) 0) 63 32)) := by
    have := congrArg (List.map (sextN 32)) (hdims (fun w => bits w 63 32))
    rwa [List.map_map, List.map_map] at this
  unfold streamOf
  dsimp only
  rw [h 0 (by decide), h 1 (by decide), hty, hdims (fun w => bits w 31 0), hstrides]

/-- strset once its block is read: the field rules, the commit and the dispatch. -/
def strsetIssue (a : XReg) (k : BitVec 4) (ws : List Word) (t : State) : Res State := do
  check (a == 0 || streamOk ws) t 0x02 t.enc
  if t.ctx.commitWaits (.strset a k) then waits t
  let (en, u) := vcommit (.strset a k) t
  vqueue (strsetBody a k) { en with xs := Vector.ofFn (fun i : Fin 32 => ws.getD i.val 0) } u

theorem strsetIssue_rejected {a : XReg} {k : BitVec 4} {ws : List Word} {t : State} (ha : a ≠ 0) (hok : streamOk ws = false) :
    settle (strsetIssue a k ws t) = .next (t.takeTrap (.scalar 0x02 t.enc)) := by
  unfold strsetIssue
  rw [beq_false_of_ne ha, hok]
  rfl

/-- The queue entry of strset: its registers hold the block. -/
def strsetEntry (a : XReg) (k : BitVec 4) (ws : List Word) (t : State) : VQEntry :=
  { (vcommit (.strset a k) t).1 with xs := Vector.ofFn (fun i : Fin 32 => ws.getD i.val 0) }

theorem strsetEntry_word (a : XReg) (k : BitVec 4) (ws : List Word) (t : State) (i : Nat) (hi : i < 8) :
    (strsetEntry a k ws t).xs.toList.getD i 0 = ws.getD i 0 := getD_block ws (by omega)

theorem strsetEntry_ty (a : XReg) (k : BitVec 4) (ws : List Word) (t : State) : streamTy (strsetEntry a k ws t).xs.toList = streamTy ws := by
  unfold streamTy
  rw [strsetEntry_word a k ws t 1 (by decide)]

/-- With nothing older in the queue, strset is dispatched at once. -/
theorem strsetIssue_begins {a : XReg} {k : BitVec 4} {ws : List Word} {t : State} (hq : t.ctx.vq = []) (hth : t.ctx.threading = false)
    (hok : a = 0 ∨ streamOk ws = true) :
    strsetIssue a k ws t = vtry (strsetBody a k) (strsetEntry a k ws t) (vcommit (.strset a k) t).2 := by
  have hwaits : t.ctx.commitWaits (.strset a k) = false := by
    unfold Ctx.commitWaits Ctx.grantPending
    rw [sendsTo_of_empty hq, hq]
    rfl
  have hgo : ¬ (t.ctx.threading || !t.ctx.vq.isEmpty) = true := by
    rw [hth, hq]
    decide
  unfold strsetIssue
  rw [check_of (by simpa using hok), hwaits]
  exact if_neg hgo

/-- What strset leaves: its slot freed or configured, the others as they were. -/
theorem strsetIssue_ok {a : XReg} {k : BitVec 4} {ws : List Word} {t : State} (hq : t.ctx.vq = []) (hth : t.ctx.threading = false)
    (ho : ∀ x, t.streamAt k.toNat = some x → x.output = true → x.ahead = []) (hok : a = 0 ∨ streamOk ws = true)
    (ha : a = 0 ∨ (mform t.ctx.mfmt).admits (streamTy ws) .other = true) :
    ∃ u, settle (strsetIssue a k ws t) = .next u ∧ u.mem = t.mem ∧ u.ctx.pc = t.ctx.pc + 4 ∧
      (u.streamAt k.toNat = if a = 0 then none else some (streamOf t.ctx.id ws t.ctx.mfmt t.nextId)) ∧
      ∀ j, j ≠ k.toNat → u.streamAt j = t.streamAt j := by
  rw [strsetIssue_begins hq hth hok]
  have hxs := strsetEntry_word a k ws t
  have hty := strsetEntry_ty a k ws t
  generalize strsetEntry a k ws t = en at hxs hty
  have hv (j : Nat) : (vcommit (.strset a k) t).2.streamAt j = t.streamAt j := State.streamAt_of rfl rfl j
  have hctx : (vcommit (.strset a k) t).2.ctx.id = t.ctx.id ∧ (vcommit (.strset a k) t).2.ctx.mfmt = t.ctx.mfmt ∧
      (vcommit (.strset a k) t).2.nextId = t.nextId ∧ (vcommit (.strset a k) t).2.mem = t.mem ∧
      (vcommit (.strset a k) t).2.ctx.pc = t.ctx.pc + 4 := ⟨rfl, rfl, rfl, rfl, rfl⟩
  generalize (vcommit (.strset a k) t).2 = v at hv hctx
  obtain ⟨hid, hfmt, hnext, hmemv, hpcv⟩ := hctx
  have hbody := strsetBody_eq (a := a) (k := k) (en := en) (s := v) (fun x hx => ho x ((hv _).symm.trans hx)) (by rw [hty, hfmt]; exact ha)
  obtain ⟨u, hu, hmem, hpc, hstr⟩ := done_streamless (r := strsetRun en v) rfl rfl ((v.modMyFe (slotSet a k en.xs.toList v)).unboard k.toNat)
  have hslots (j : Nat) : u.streamAt j = lookupN j (slotSet a k en.xs.toList v v.myFe).streams := by
    rw [hstr, State.streamAt_unboard, State.streamAt_modMyFe]
  refine ⟨u, vtry_ok (hbody.trans hu), hmem.trans hmemv, hpc.trans hpcv, ?_, fun j hj => ?_⟩
  · rw [hslots]
    unfold slotSet
    by_cases h : a = 0
    · rw [if_pos h, if_pos h]
      exact lookupN_eraseN _ _
    · rw [if_neg h, if_neg h]
      dsimp only
      rw [lookupN_insertN, if_pos rfl, streamOf_congr hxs, hid, hfmt, hnext]
  · rw [hslots, ← hv j]
    unfold slotSet
    by_cases h : a = 0
    · rw [if_pos h]
      exact lookupN_eraseN_ne hj _
    · rw [if_neg h]
      exact (lookupN_insertN _ _ _ _).trans (if_neg hj)

section strset
variable {s s0 : State} {a : XReg} {k : BitVec 4} (hs : Claims.onFront s) (h0 : takeUnit s = .ok s0)
include hs h0

theorem getX_taken : s0.getX a = s.getX a := by
  have h1 := takeUnit_ok h0
  have hl := hs.1
  unfold State.getX
  rw [h1.lane, hl]
  unfold Ctx.getX
  rw [h1.x]

theorem strset_misaligned (ha : a ≠ 0) (hx : (s.getX a).toNat % 64 ≠ 0) : exec (.strset a k) s = .next (s0.takeTrap (.scalar 0x04 (s.getX a))) := by
  have hno : ¬ (a == 0 || decide ((s.getX a).toNat % 64 = 0)) = true := by
    rw [beq_false_of_ne ha]
    simp [hx]
  show execStrset a k s = _
  unfold execStrset
  rw [command_front hs, h0]
  dsimp only [bind, Except.bind]
  rw [getX_taken hs h0, check_fails hno]
  rfl

/-- Freeing a slot reads no block. -/
theorem exec_strset_free : exec (.strset 0 k) s = settle (strsetIssue 0 k [] s0) := by
  show execStrset 0 k s = _
  unfold execStrset
  rw [command_front hs, h0]
  rfl

theorem exec_strset_block {ws : List Word} {t : State} (ha : a ≠ 0) (hx : (s.getX a).toNat % 64 = 0)
    (hr : readBlock s0 (s.getX a) 8 = .ok (ws, t)) : exec (.strset a k) s = settle (strsetIssue a k ws t) := by
  show execStrset a k s = _
  unfold execStrset
  rw [command_front hs, h0]
  dsimp only [bind, Except.bind]
  rw [getX_taken hs h0, check_of (by simp [hx])]
  dsimp only
  rw [if_neg ha, hr]
  rfl

end strset

/-- Reading a block leaves the instruction's encoding. -/
theorem enc_readBlock {s t : State} {va : Word} {n : Nat} {ws : List Word} (h : readBlock s va n = .ok (ws, t)) : t.enc = s.enc := by
  refine foldE_ind (P := fun st : List Word × State => st.2.enc = s.enc) (fun st i x hst hx => ?_) _ rfl h
  cases hl : st.2.load .engine (va + word (8 * i)) 8 .normal with
  | error e => rw [hl] at hx; cases e <;> cases hx
  | ok p =>
    rw [hl] at hx
    cases hx
    obtain ⟨_, _, -, hk, -⟩ := State.load_ok (v := p.1) (t := p.2) hl
    refine Eq.trans ?_ (hk.enc.trans hst)
    cases p.1.isNone
    · rfl
    · exact (State.kept_countCtx _ _ _).enc

end Sys2Proof.Machine

open Sys2Proof Sys2Proof.Machine in
/-- Settles O42: the command's own checks decide before the dispatch, and the body changes the slot alone. -/
theorem streamSetup : Obligations.StreamSetup := by
  intro s s0 a k hs h0 hq hth ho
  have h1 := takeUnit_ok h0
  have h2 := takeUnit_taken h0
  have hid : s0.ctx.id = s.ctx.id := by unfold Ctx.id; rw [h2.self]
  refine ⟨?_, strset_misaligned hs h0, fun ws t ha hx hr ht hstr => ⟨fun hok => ?_, fun hok hadm => ?_⟩⟩
  · rintro rfl
    obtain ⟨u, hu, hmem, hpc, hk, hj⟩ := strsetIssue_ok (a := 0) (k := k) (ws := []) hq hth ho (.inl rfl) (.inl rfl)
    exact ⟨u, (exec_strset_free hs h0).trans hu, hk.trans (if_pos rfl), hj, hmem.trans h1.mem, hpc.trans (congrArg (· + 4) h1.pc)⟩
  · rw [exec_strset_block hs h0 ha hx hr, strsetIssue_rejected ha hok, enc_readBlock hr, h2.enc]
  · obtain ⟨u, hu, hmem, hpc, hk, hj⟩ := strsetIssue_ok (a := a) (k := k) (ws := ws) (t := t) (by rw [ht, hq]) (by rw [ht, hth])
      (fun x hx => ho x ((hstr _).symm.trans hx)) (.inr hok) (.inr (by rw [ht, h2.mfmt]; exact hadm))
    rw [if_neg ha, ht, hid, h2.mfmt] at hk
    exact ⟨u, _, (exec_strset_block hs h0 ha hx hr).trans hu, hk, rfl, rfl, rfl, rfl, rfl, rfl, rfl, fun j hne => (hj j hne).trans (hstr j), hmem,
      hpc.trans (by rw [ht, h1.pc])⟩

/-! ## The ends of the Mill's queues (R225, R226, O50) -/



namespace Sys2Proof.Machine

/-! ### Elements of a plot lie apart (R90) -/

/-- Elements in a row end where the next begins. -/
theorem column_le {k w : Nat} (n : Nat) (h : k < w) : k * n + n ≤ w * n := by
  rw [← Nat.succ_mul]
  exact Nat.mul_le_mul_right n h

theorem columns_apart {i j : Nat} (n : Nat) (h : i ≠ j) : i * n + n ≤ j * n ∨ j * n + n ≤ i * n :=
  (Nat.lt_or_gt_of_ne h).imp (column_le n) (column_le n)

theorem plotLegal_box {p : Word} {rows : Nat × Nat} (h : plotLegal p rows = true) : (plotBox p).c1 ≤ 511 := by
  unfold plotLegal at h
  obtain ⟨h, -⟩ := Bool.and_eq_true_iff.1 h
  exact of_decide_eq_true (Bool.and_eq_true_iff.1 h).2

section places
variable {p : Word} {i j : Nat}

/-- An element ends inside the bounding box. -/
theorem plotPos_inside (hi : i < plotCount p) : (plotPos p i).2 + plotEw p ≤ (plotBox p).c1 + 1 := by
  unfold plotCount at hi
  split at hi
  · omega
  unfold plotPos plotBox
  dsimp only
  split
  · next hs =>
    rw [hs] at hi
    dsimp only at hi ⊢
    have hw : 0 < plotW p := Nat.pos_of_mul_pos_right (Nat.zero_lt_of_lt hi)
    have := column_le (plotEw p) (Nat.mod_lt i hw)
    omega
  · next hs =>
    rw [hs] at hi
    have := column_le (w := plotW p) (plotEw p) hi
    dsimp only
    omega
  · dsimp only
    omega
  · next hs =>
    rw [hs] at hi
    have := column_le (w := plotH p) (plotEw p) hi
    dsimp only
    omega
  · dsimp only
    omega

/-- Two elements stand in different rows, or in columns apart. -/
theorem plotPos_apart (hne : i ≠ j) : (plotPos p i).1 ≠ (plotPos p j).1 ∨ (plotPos p i).2 + plotEw p ≤ (plotPos p j).2 ∨
    (plotPos p j).2 + plotEw p ≤ (plotPos p i).2 := by
  unfold plotPos
  split
  · by_cases hr : i / plotW p = j / plotW p
    · have hm : i % plotW p ≠ j % plotW p := fun hm => hne (by rw [← Nat.div_add_mod i (plotW p), hr, hm, Nat.div_add_mod])
      have := columns_apart (plotEw p) hm
      dsimp only
      omega
    · dsimp only
      omega
  · have := columns_apart (plotEw p) hne
    dsimp only
    omega
  iterate 3
  · dsimp only
    omega

/-- No cell belongs to two elements of a plot that plotset admits. -/
theorem plotCells_disjoint {rows : Nat × Nat} (h : plotLegal p rows = true) (hi : i < plotCount p) (hj : j < plotCount p) (hne : i ≠ j) :
    ∀ c ∈ plotCells p i, c ∉ plotCells p j := by
  have hbox := plotLegal_box h
  have hi := plotPos_inside hi
  have hj := plotPos_inside hj
  have hapart := plotPos_apart (p := p) hne
  unfold plotCells cellIndex
  generalize plotPos p i = a at hi hapart
  generalize plotPos p j = b at hj hapart
  simp only [List.mem_map, List.mem_range]
  rintro c ⟨k, hk, rfl⟩ ⟨l, hl, he⟩
  omega

end places

/-! ### Elements written one after the other -/

theorem cellsNum_congr {f g : List (Nat × Cell16)} {cs : List Nat} (h : ∀ c ∈ cs, sget 0 g c = sget 0 f c) : cellsNum g cs = cellsNum f cs := by
  induction cs with
  | nil => rfl
  | cons c cs ih =>
    obtain ⟨hc, hcs⟩ := List.forall_mem_cons.1 h
    rw [cellsNum, cellsNum, hc, ih hcs]

/-- The elements of a list written with the values given. -/
def State.setElems (s : State) (d : VReg) (val : Nat → Nat) (l : List Nat) : State := l.foldl (fun s e => s.setElem d e (val e)) s

theorem swf_setCells {f : List (Nat × Cell16)} (h : swf 0 0 f = true) (cs : List Nat) (v : Nat) : swf 0 0 (setCells f cs v) = true := by
  induction cs generalizing f v with
  | nil => exact h
  | cons c cs ih => exact ih (swf_sset h c _) _

namespace State
variable (s : State) (d : VReg) (val : Nat → Nat)

theorem steady_setElems (l : List Nat) : Steady s (s.setElems d val l) :=
  foldl_ind (P := Steady s) (fun t e h => h.trans (Steady.setElem t d e (val e))) l (Steady.refl s)

theorem setElems_mem (l : List Nat) : (s.setElems d val l).mem = s.mem :=
  foldl_ind (f := fun (s : State) e => s.setElem d e (val e)) (P := fun t : State => t.mem = s.mem) (fun _ _ h => h) l rfl

theorem setElems_mills (l : List Nat) : (s.setElems d val l).mills = s.mills :=
  foldl_ind (f := fun (s : State) e => s.setElem d e (val e)) (P := fun t : State => t.mills = s.mills) (fun _ _ h => h) l rfl

variable {s d val}

theorem elem_congr {s t : State} {e : Nat} (hp : t.plotOf d = s.plotOf d)
    (h : ∀ c ∈ plotCells (s.plotOf d) e, sget 0 t.myCore.field c = sget 0 s.myCore.field c) : t.elem d e = s.elem d e := by
  unfold elem Core.elem
  rw [hp]
  exact cellsNum_congr h

theorem setElem_wf (h : swf 0 0 s.myCore.field = true) (e v : Nat) : swf 0 0 (s.setElem d e v).myCore.field = true := by
  rw [myCore_setElem]
  exact swf_setCells h _ _

/-- Cells of no element written stay. -/
theorem field_setElems_other {c : Nat} {l : List Nat} (h : swf 0 0 s.myCore.field = true) (hc : ∀ e ∈ l, c ∉ plotCells (s.plotOf d) e) :
    sget 0 (s.setElems d val l).myCore.field c = sget 0 s.myCore.field c := by
  induction l generalizing s with
  | nil => rfl
  | cons a l ih =>
    obtain ⟨ha, hl⟩ := List.forall_mem_cons.1 hc
    exact (ih (setElem_wf h a (val a)) hl).trans (field_setElem_other h ha (val a))

/-- Elements that lie apart hold the values given. -/
theorem elem_setElems {l : List Nat} (h : swf 0 0 s.myCore.field = true) (hn : l.Nodup)
    (hd : ∀ i ∈ l, ∀ j ∈ l, i ≠ j → ∀ c ∈ plotCells (s.plotOf d) i, c ∉ plotCells (s.plotOf d) j) {e : Nat} (he : e ∈ l) :
    (s.setElems d val l).elem d e = val e % 2 ^ (16 * plotEw (s.plotOf d)) := by
  induction l generalizing s with
  | nil => cases he
  | cons a l ih =>
    obtain ⟨ha, hnl⟩ := List.nodup_cons.1 hn
    have hw := setElem_wf (d := d) h a (val a)
    rcases List.mem_cons.1 he with rfl | he
    · refine (elem_congr ((steady_setElems _ d val l).plotOf d) fun c hc => ?_).trans (elem_setElem_same h d e (val e))
      exact field_setElems_other hw fun j hj => hd e List.mem_cons_self j (List.mem_cons_of_mem _ hj) (fun h => ha (h ▸ hj)) c hc
    · exact ih hw hnl (fun i hi j hj => hd i (List.mem_cons_of_mem _ hi) j (List.mem_cons_of_mem _ hj)) he

end State

/-! ### Dispatch, and an instruction that stalls -/

/-- The state in which an instruction that stalls is left: it heads the vector queue, and what it asked of other units stands. -/
def State.stalled (s : State) (en : VQEntry) (cki : Word) (pend : List (Instr × EventArg)) : State :=
  { s with ctx := { s.ctx with vq := en :: s.ctx.vq, cki := cki }, pend := pend }

theorem vtry_wait {body : VQEntry → State → Res State} {en : VQEntry} {s w : State} (h : body en s = .error (.wait w)) :
    ∃ cki, settle (vtry body en s) = .next (s.stalled en cki w.pend).yieldTurn := by
  unfold vtry
  rw [h]
  exact ⟨_, rfl⟩

/-- With nothing older in the queue, an instruction is committed and its body begun. -/
theorem vissue_begins {s s0 : State} {i : Instr} (hi : Plain i) (hl : s.lane = none) (hm : s.ctx.isMiller = false) (h0 : takeUnit s = .ok s0)
    (hq : s0.ctx.vq = []) (ht : s0.ctx.threading = false) (body : VQEntry → State → Res State) :
    vissue i body s = settle (vtry body (vcommit i s0).1 s0.committed) := by
  have hlegal : legal .front [] s = .ok () := by
    unfold legal Legal.admits
    rw [hl, hm]
    rfl
  have hwaits : s0.ctx.commitWaits i = false := by
    unfold Ctx.commitWaits Ctx.grantPending
    rw [sendsTo_of_empty hq, hq]
    simp
  have hgo : ¬ (s0.committed.ctx.threading || !s0.committed.ctx.vq.isEmpty) = true := by
    show ¬ (s0.ctx.threading || !s0.ctx.vq.isEmpty) = true
    rw [ht, hq]
    decide
  unfold vissue
  rw [hlegal, h0]
  dsimp only [bind, Except.bind]
  rw [hwaits, if_neg Bool.false_ne_true, hi s0]
  unfold vqueue
  rw [if_neg hgo]

/-- An instruction whose body waits stays at the head of the vector queue. -/
theorem staysQueued_of {s : State} {i : Instr} {k : VSpec} {r : VRun} {body : VQEntry → State → Res State} (hi : Plain i)
    (hd : Claims.dispatches s i k r) (hx : exec i s = vissue i body s)
    (hbody : ∀ en t, vbegin en k t = .ok r → ∃ w, body en t = .error (.wait w)) : Claims.staysQueued i s := by
  obtain ⟨hl, hm, s0, h0, hq, ht, hb⟩ := hd
  have h1 := takeUnit_ok h0
  have h2 := takeUnit_taken h0
  obtain ⟨w, hw⟩ := hbody _ _ hb
  rw [hi s0] at hw
  obtain ⟨cki, htry⟩ := vtry_wait hw
  have hgetX (q : XReg) : s0.ctx.getX q = s.ctx.getX q := by unfold Ctx.getX; rw [h1.x]
  have hid : s0.ctx.id = s.ctx.id := by unfold Ctx.id; rw [h2.self]
  refine ⟨s0.committed.stalled (vcommit i s0).1 cki w.pend, (vcommit i s0).1, ?_, hid, congrArg (List.cons _) hq, rfl, h1.pc, h2.enc, fun q => ?_,
    congrArg (· + 8) h1.pc, hgetX, h1.mem, h2.mills⟩
  · rw [hx, vissue_begins hi hl hm h0 hq ht, htry]
  · refine Eq.trans ?_ (hgetX q)
    unfold vcommit
    simp

/-- Dispatch leaves the context where it is. -/
theorem dispatches_self {s : State} {i : Instr} {k : VSpec} {r : VRun} (hi : Plain i) (h : Claims.dispatches s i k r) :
    r.src.ctx.self = s.ctx.self := by
  obtain ⟨-, -, s0, h0, -, -, hb⟩ := h
  obtain ⟨-, -, -, ⟨q, hsrc⟩, -⟩ := vbegin_ok hb
  rw [hsrc, hi s0]
  exact (takeUnit_taken h0).self

theorem vbegin_len {en : VQEntry} {k : VSpec} {s : State} {r : VRun} (h : vbegin en k s = .ok r) :
    r.len = (k.lenOf.map (fun v => plotCount (r.src.plotOf v))).foldl min r.vl := by
  unfold vbegin at h
  dsimp only [bind, Except.bind] at h
  split at h
  · cases h
  split at h
  · cases h
  next x _ =>
  split at h
  · cases h
  split at h
  · cases h
  split at h
  · cases h
    rfl
  · split at h
    · cases h
    next hi =>
    obtain rfl := foldE_same streamIn_ok hi
    split at h
    · cases h
    next ho =>
    obtain rfl := foldE_same streamOut_ok ho
    cases h
    rfl

theorem foldl_mills {α : Type} {f : State → α → State} (h : ∀ s a, (f s a).mills = s.mills) (l : List α) (s : State) : (l.foldl f s).mills = s.mills :=
  foldl_ind (P := fun u : State => u.mills = s.mills) (fun u a hu => (h u a).trans hu) l rfl

/-- Completion changes no Mill. -/
theorem done_mills {r : VRun} {s t : State} (h : r.done s = .ok t) : t.mills = s.mills := by
  have hpost (s : State) (n : Nat) : (s.postStream n).mills = s.mills := by
    unfold State.postStream
    dsimp only
    split <;> rfl
  have hmod (s : State) (g : FrontEnd → FrontEnd) : (s.modMyFe g).mills = s.mills := rfl
  have hadv : (r.advanceStreams s).mills = s.mills := by
    unfold VRun.advanceStreams
    split
    · rfl
    · exact (foldl_mills (fun s _ => (hpost _ _).trans (hmod s _)) _ _).trans (foldl_mills (fun s _ => hmod s _) _ s)
  unfold VRun.done at h
  dsimp only at h
  generalize r.advanceStreams s = u at hadv h
  cases h
  rw [(State.kept_countCtx _ _ _).mills, (State.kept_countCtx _ _ _).mills, ← hadv]
  split <;> rfl

theorem vectorPoison_mills (s : State) (bad : Bool) : (s.vectorPoison bad).mills = s.mills := by
  unfold State.vectorPoison
  split
  · exact (State.kept_countCtx _ _ _).mills
  · rfl

theorem VRun.lanes_of_quiet (r : VRun) {s : State} (h : Quiet s) : r.lanes s = (s, []) := by
  unfold VRun.lanes
  refine foldl_ind (P := fun x : State × List Nat => x = (s, [])) (fun x e hx => ?_) _ rfl
  subst hx
  dsimp only
  rw [VRun.lane_of_quiet h]
  rfl

theorem Steady.setMill (s : State) (n : Nat) (m : Mill) : Steady s (s.setMill n m) := ⟨State.Sound.of_eq rfl rfl rfl rfl, rfl, fun _ => rfl⟩

/-! ### vfeed (R225) -/

theorem length_feedBytes (f : Feed) (t : FTy) (x y : Nat) : (feedBytes f t x).length = (feedBytes f t y).length := by
  unfold feedBytes
  cases f <;> exact (leBytes_length _ _).trans (leBytes_length _ _).symm

theorem length_flatMap_feedBytes {f : Feed} {t : FTy} (g : Nat → Nat) (l : List Nat) :
    (l.flatMap (fun e => feedBytes f t (g e))).length = l.length * (feedBytes f t 0).length := by
  induction l with
  | nil => exact (Nat.zero_mul _).symm
  | cons a l ih => rw [List.flatMap_cons, List.length_append, ih, length_feedBytes f t _ 0, List.length_cons, Nat.succ_mul, Nat.add_comm]

end Sys2Proof.Machine

/-! ### The Mill that a crew holds (R294) -/



namespace Sys2Proof.Machine

theorem heldMill_of {s : State} (h : (s.mill s.ctx.cluster).holder = some s.ctx.nest) : heldMill s = .ok (s.mill s.ctx.cluster) :=
  if_pos (beq_iff_eq.2 h)

theorem heldMill_waits {s : State} (h : (s.mill s.ctx.cluster).holder ≠ some s.ctx.nest) : heldMill s = waits s :=
  if_neg fun e => h (beq_iff_eq.1 e)

/-- What vfeed names. -/
def feedSpec (o : VOpts) (v : VReg) (t : FTy) : VSpec := memSpec 1 o none [(v, some (ETy.cells (ftyE t)))] v false

/-- What vdrain names. -/
def drainSpec (o : VOpts) (v : VReg) (t : FTy) : VSpec := memSpec 2 o (some (v, some (ETy.cells (ftyE t)))) [] v false

/-- The bytes that vfeed appends: inactive elements as 0. -/
def VRun.feedNew (r : VRun) (f : Feed) (t : FTy) (v : VReg) : List Byte :=
  ((List.range r.len).drop r.start).flatMap (fun e => feedBytes f t (if r.active e then (r.get v (ftyE t) e).1 else 0))

/-- The value that vdrain gives element e. -/
def VRun.drained (r : VRun) (f64 : Bool) (t : FTy) (e : Nat) : Nat :=
  drainElem f64 t (leNat (((r.src.mill r.src.ctx.cluster).drain[r.src.ctx.queue].drop ((e - r.start) * (if f64 then 8 else 4))).take
    (if f64 then 8 else 4)))

/-- Poison that elements consume changes only marks and counts. -/
theorem poisonAll (s : State) (es : List (Nat × Bool)) :
    Steady s (es.foldl (fun s x => s.vectorPoison x.2) s) ∧ SameField s (es.foldl (fun s x => s.vectorPoison x.2) s) ∧
      (es.foldl (fun s x => s.vectorPoison x.2) s).mem = s.mem :=
  foldl_ind (P := fun u : State => Steady s u ∧ SameField s u ∧ u.mem = s.mem)
    (fun u x h => ⟨h.1.trans (Steady.vectorPoison u x.2), h.2.1.trans (SameField.vectorPoison u x.2), (vectorPoison_mem u x.2).trans h.2.2⟩)
    es ⟨Steady.refl s, fun _ => rfl, rfl⟩

section ends
variable {s t0 : State} {r : VRun} {en : VQEntry} {o : VOpts} {v : VReg} {t : FTy} {f : Feed} {f64 : Bool} (hlt : r.start < r.len)
include hlt

theorem vfeedBody_unheld (hb : vbegin en (feedSpec o v t) t0 = .ok r) (hh : (r.src.mill r.src.ctx.cluster).holder ≠ some r.src.ctx.nest) :
    vfeedBody f t o v en t0 = .error (.wait r.src) := by
  unfold feedSpec at hb
  unfold vfeedBody
  dsimp only
  rw [hb]
  dsimp only [bind, Except.bind]
  rw [if_neg (Nat.not_le.2 hlt), heldMill_waits hh]
  rfl

theorem vdrainBody_unheld (hb : vbegin en (drainSpec o v t) t0 = .ok r) (hh : (r.src.mill r.src.ctx.cluster).holder ≠ some r.src.ctx.nest) :
    vdrainBody f64 t o v en t0 = .error (.wait r.src) := by
  unfold drainSpec at hb
  unfold vdrainBody
  dsimp only
  rw [hb]
  dsimp only [bind, Except.bind]
  rw [if_neg (Nat.not_le.2 hlt), heldMill_waits hh]
  rfl

variable (hh : (r.src.mill r.src.ctx.cluster).holder = some r.src.ctx.nest)
include hh

theorem vfeedBody_full (hb : vbegin en (feedSpec o v t) t0 = .ok r)
    (hq : 32768 < ((r.src.mill r.src.ctx.cluster).feed[r.src.ctx.queue]).length + (r.len - r.start) * (feedBytes f t 0).length) :
    vfeedBody f t o v en t0 = .error (.wait r.src) := by
  unfold feedSpec at hb
  unfold vfeedBody
  dsimp only
  rw [hb]
  dsimp only [bind, Except.bind]
  rw [if_neg (Nat.not_le.2 hlt), heldMill_of hh]
  exact if_pos hq

theorem vdrainBody_short (hb : vbegin en (drainSpec o v t) t0 = .ok r)
    (hq : ((r.src.mill r.src.ctx.cluster).drain[r.src.ctx.queue]).length < (r.len - r.start) * (if f64 then 8 else 4)) :
    vdrainBody f64 t o v en t0 = .error (.wait r.src) := by
  unfold drainSpec at hb
  unfold vdrainBody
  dsimp only
  rw [hb]
  dsimp only [bind, Except.bind]
  rw [if_neg (Nat.not_le.2 hlt), heldMill_of hh]
  exact if_pos hq

variable (hsf : r.sfault = none) (hcalm : Quiet r.src)
include hsf hcalm

theorem vfeedBody_fits (hb : vbegin en (feedSpec o v t) t0 = .ok r)
    (hq : ((r.src.mill r.src.ctx.cluster).feed[r.src.ctx.queue]).length + (r.len - r.start) * (feedBytes f t 0).length ≤ 32768) :
    ∃ u, vfeedBody f t o v en t0 = r.done u ∧ Steady r.src u ∧ SameField r.src u ∧ u.mem = r.src.mem ∧
      (u.mill r.src.ctx.cluster).feed[r.src.ctx.queue] = (r.src.mill r.src.ctx.cluster).feed[r.src.ctx.queue] ++ r.feedNew f t v := by
  unfold feedSpec at hb
  unfold vfeedBody
  dsimp only
  rw [hb]
  dsimp only [bind, Except.bind]
  rw [if_neg (Nat.not_le.2 hlt), heldMill_of hh]
  dsimp only
  unfold queueBytes
  rw [if_neg (Nat.not_lt.2 hq), r.lanes_of_quiet hcalm]
  dsimp only
  rw [VRun.ended_of_calm hsf, VRun.stop_of_calm hsf]
  dsimp only
  generalize hes : List.map _ ((List.range r.len).drop r.start) = es
  have hnew : es.flatMap (fun x => feedBytes f t x.1) = r.feedNew f t v := by
    rw [← hes, List.flatMap_map]
    unfold VRun.feedNew
    congr 1
    funext e
    cases r.active e <;> rfl
  obtain ⟨hst, hfield, hmem⟩ := poisonAll r.src es
  generalize es.foldl (fun s x => s.vectorPoison x.2) r.src = u at hst hfield hmem
  refine ⟨_, rfl, hst.trans (Steady.setMill _ _ _), hfield, hmem, ?_⟩
  have hc : u.ctx.cluster = r.src.ctx.cluster := by rw [hst.ctx]; rfl
  rw [State.mill_setMill, if_pos hc.symm, hnew]
  exact Vector.getElem_set_self _

theorem vdrainBody_fits (hb : vbegin en (drainSpec o v t) t0 = .ok r)
    (hq : (r.len - r.start) * (if f64 then 8 else 4) ≤ ((r.src.mill r.src.ctx.cluster).drain[r.src.ctx.queue]).length) :
    ∃ u, vdrainBody f64 t o v en t0 = r.done (u.setElems v (r.drained f64 t) r.elems) ∧ Steady r.src u ∧ SameField r.src u ∧ u.mem = r.src.mem ∧
      (u.mill r.src.ctx.cluster).drain[r.src.ctx.queue] =
        (r.src.mill r.src.ctx.cluster).drain[r.src.ctx.queue].drop ((r.len - r.start) * (if f64 then 8 else 4)) := by
  unfold drainSpec at hb
  unfold vdrainBody
  dsimp only
  rw [hb]
  dsimp only [bind, Except.bind]
  rw [if_neg (Nat.not_le.2 hlt), heldMill_of hh]
  dsimp only
  rw [if_neg (Nat.not_lt.2 hq), VRun.stop_of_calm hsf]
  have hlanes (m : Mill) : r.lanes (r.src.setMill r.src.ctx.cluster m) = (r.src.setMill r.src.ctx.cluster m, []) :=
    r.lanes_of_quiet ((Steady.setMill _ _ _).quiet hcalm)
  rw [hlanes]
  dsimp only
  rw [VRun.ended_of_calm hsf]
  refine ⟨_, rfl, Steady.setMill _ _ _, fun _ => rfl, rfl, ?_⟩
  rw [State.mill_setMill, if_pos rfl]
  exact Vector.getElem_set_self _

end ends

theorem length_feedNew (r : VRun) (f : Feed) (t : FTy) (v : VReg) : (r.feedNew f t v).length = (r.len - r.start) * (feedBytes f t 0).length := by
  unfold VRun.feedNew
  rw [length_flatMap_feedBytes (fun e => if r.active e then (r.get v (ftyE t) e).1 else 0), List.length_drop, List.length_range]

/-- What `onward` asks, once the run is complete. -/
theorem onward_of {s u w : State} {r : VRun} {i : Instr} (hi : Issued s i r) (hst : Steady r.src u) (hmem : u.mem = r.src.mem) (hran : Ran s r u w)
    (hvs : u.ctx.inTrap = false → w.ctx.vstart = 0) : Claims.onward s w :=
  ⟨hran.mem.trans (hmem.trans hi.mem), hran.getX, hran.pc, fun ht => hvs (hst.inTrap.trans (hi.inTrap.trans ht))⟩

/-- The elements that an instruction processes lie below its length, each once. -/
theorem VRun.mem_elems_lt {r : VRun} {e : Nat} (h : e ∈ r.elems) : e < r.len :=
  List.mem_range.1 (List.mem_of_mem_drop (List.mem_of_mem_filter h))

theorem VRun.elems_nodup (r : VRun) : r.elems.Nodup := (List.nodup_range.sublist (List.drop_sublist _ _)).filter _

/-- Every element that vdrain processes receives its value. -/
theorem elements_setElems {s u w : State} {r : VRun} {d : VReg} (val : Nat → Nat) (hp : Claims.placed r d) (hlen : r.len ≤ plotCount (r.src.plotOf d))
    (hst : Steady r.src u) (hf : SameField r.src u) (hran : Ran s r (u.setElems d val r.elems) w) :
    Claims.elements r w d (fun e => some (val e)) := by
  have hfield := hf.myCore hst
  have hw : swf 0 0 u.myCore.field = true := by rw [hfield]; exact hp.1
  have hplot := hst.plotOf d
  refine ⟨fun e he => ?_, fun c hc => ?_⟩
  · rw [hran.elem, ← hplot]
    refine State.elem_setElems hw r.elems_nodup (fun i hi j hj hne => ?_) he
    rw [hplot]
    exact plotCells_disjoint hp.2 ((VRun.mem_elems_lt hi).trans_le hlen) ((VRun.mem_elems_lt hj).trans_le hlen) hne
  · rw [hran.field, State.field_setElems_other hw (by rwa [hplot]), hfield]

end Sys2Proof.Machine

open Sys2Proof Sys2Proof.Machine in
/-- Settles O50: the body of each instruction waits, or appends and takes in one step; a body that waits leaves its instruction queued. -/
theorem millQueues : Obligations.MillQueues := by
  intro s r o v t f f64 hsf hcalm hlt
  dsimp only
  have hfeed : Plain (.vfeed f t o v) := fun _ => rfl
  have hdrain : Plain (.vdrain f64 t o v) := fun _ => rfl
  refine ⟨fun hh => ⟨fun hd => ?_, fun hd => ?_⟩, fun hh hd => ⟨fun hq => ?_, fun hq => ?_⟩, fun hh hd hp => ⟨fun hq => ?_, fun hq => ?_⟩⟩
  · exact staysQueued_of hfeed hd rfl fun _ _ hb => ⟨_, vfeedBody_unheld hlt hb hh⟩
  · exact staysQueued_of hdrain hd rfl fun _ _ hb => ⟨_, vdrainBody_unheld hlt hb hh⟩
  · obtain ⟨en, t0, hb⟩ := dispatches_begun hfeed hd
    have hcluster : s.ctx.cluster = r.src.ctx.cluster := by unfold Ctx.cluster; rw [dispatches_self hfeed hd]
    obtain ⟨u, hu, hst, hf, hmem, hmill⟩ := vfeedBody_fits hlt hh hsf hcalm hb.begins (by rw [← length_feedNew r f t v]; exact hq)
    obtain ⟨w, hw, hfin, hvs⟩ := done_ok r u
    have hran : Ran s r u w := ran_of hb.toIssued hst hfin none
    refine ⟨w, (hb.runs _).trans (vtry_ok (hu.trans hw)), onward_of hb.toIssued hst hmem hran hvs, fieldStays_of hran hst hf, ?_⟩
    rw [hcluster]
    unfold State.mill at hmill ⊢
    rw [done_mills hw]
    exact hmill
  · refine staysQueued_of hfeed hd rfl fun _ _ hb => ⟨_, vfeedBody_full hlt hh hb ?_⟩
    rw [← length_feedNew r f t v]
    exact hq
  · obtain ⟨en, t0, hb⟩ := dispatches_begun hdrain hd
    have hcluster : s.ctx.cluster = r.src.ctx.cluster := by unfold Ctx.cluster; rw [dispatches_self hdrain hd]
    have hlen : r.len ≤ plotCount (r.src.plotOf v) := (vbegin_len hb.begins).trans_le (min_le_right _ _)
    obtain ⟨u, hu, hst, hf, hmem, hmill⟩ := vdrainBody_fits hlt hh hsf hcalm hb.begins hq
    have hsts := hst.trans (State.steady_setElems u v (r.drained f64 t) r.elems)
    obtain ⟨w, hw, hfin, hvs⟩ := done_ok r (u.setElems v (r.drained f64 t) r.elems)
    have hran : Ran s r (u.setElems v (r.drained f64 t) r.elems) w := ran_of hb.toIssued hsts hfin none
    refine ⟨w, (hb.runs _).trans (vtry_ok (hu.trans hw)), onward_of hb.toIssued hsts ((State.setElems_mem _ _ _ _).trans hmem) hran hvs, hran.masks, ?_,
      elements_setElems _ hp hlen hst hf hran⟩
    rw [hcluster]
    unfold State.mill at hmill ⊢
    rw [done_mills hw, State.setElems_mills]
    exact hmill
  · exact staysQueued_of hdrain hd rfl fun _ _ hb => ⟨_, vdrainBody_short hlt hh hb hq⟩

/-! ## Engine operations and stream transfers (R44-R51, R253, R256, O30) -/



namespace Sys2Proof.Machine

/-! ### The issue point (R46) -/

theorem argOp_of {s : State} {o : EngineOp} (ha : s.arg = .op o.id) (ho : s.ops.find? (fun p => p.id == o.id) = some o) : s.argOp = some o := by
  unfold State.argOp
  rw [ha]
  exact ho

theorem kept_detectLines {s t : State} {w : Who} {ls : List Nat} (h : s.detectLines w ls = .ok t) : Kept s t :=
  foldE_ind (P := Kept s) (fun _ _ _ hu hv => hu.trans (State.kept_detectLine (.inl hv))) ls (Kept.refl s) h

/-- The lines of an operation are touched, and nothing else. -/
theorem kept_touchOp (s : State) (o : EngineOp) : Kept s (s.touchOp o) := by
  unfold State.touchOp
  dsimp only
  exact foldl_ind (P := Kept s) (fun _ _ h => h.trans (State.kept_touch _ _ _ _ _ _ _)) _
    (foldl_ind (P := Kept s) (fun _ _ h => h.trans (State.kept_touch _ _ _ _ _ _ _)) _ (Kept.refl s))

theorem addMarks_mem (s : State) (ps : List (Nat × Nat)) (ms : List Bool) : (s.addMarks ps ms).mem = s.mem := by
  unfold State.addMarks
  split <;> rfl

/-- One piece moved to one piece of its length. -/
theorem moveBytes_mem {s : State} (h : s.mem.wf = true) (ps pd n : Nat) :
    (s.moveBytes [(ps, n)] [(pd, n)]).mem = s.mem.setBytes pd (s.mem.bytes ps n) := by
  have hlen : (s.mem.bytes ps n).length = n := by rw [Memory.bytes_eq h, List.length_map, List.length_range]
  unfold State.moveBytes
  dsimp only
  rw [addMarks_mem, State.writePieces, State.writePieces, State.putBytes_mem]
  unfold State.readPieces
  rw [List.flatMap_singleton, List.take_of_length_le hlen.le]

theorem byte_setBytes_bytes {m : Memory} (h : m.wf = true) (ps pd n : Nat) :
    (∀ k, k < n → (m.setBytes pd (m.bytes ps n)).byte (pd + k) = m.byte (ps + k)) ∧
      ∀ a, a < pd ∨ pd + n ≤ a → (m.setBytes pd (m.bytes ps n)).byte a = m.byte a := by
  have hlen : (m.bytes ps n).length = n := by rw [Memory.bytes_eq h, List.length_map, List.length_range]
  refine ⟨fun k hk => ?_, fun a ha => Memory.byte_setBytes_of_outside h (by rwa [hlen])⟩
  rw [Memory.byte_setBytes h, if_pos (by omega), Nat.add_sub_cancel_left, Memory.bytes_eq h, List.getD_eq_getElem?_getD]
  simp [hk]

/-- An operation changed where its number is found. -/
theorem mem_updateWhere {α : Type} {p : α → Bool} {f : α → α} {l : List α} {y : α} (h : y ∈ updateWhere p f l) :
    (∃ x ∈ l, p x = true ∧ y = f x) ∨ (y ∈ l ∧ p y = false) := by
  obtain ⟨x, hx, rfl⟩ := List.mem_map.1 h
  cases hp : p x
  · exact .inr ⟨by simpa [hp] using hx, by simp [hp]⟩
  · exact .inl ⟨x, hx, hp, by simp⟩

/-- The issue point of an operation that nothing blocks and whose lines have no error: its data moves, and it is issued. -/
theorem issueOp_issues {s t : State} {o : EngineOp} (hb : s.opBlocked o = false) (hd : s.detectLines o.who (o.holds ++ o.owns) = .ok t) :
    (s.issueOp o).mem = ((t.touchOp o).moveBytes o.src o.dst).mem ∧ ∀ p ∈ (s.issueOp o).ops, p.id = o.id → p.issued = true := by
  unfold State.issueOp
  dsimp only
  rw [hb, if_neg Bool.false_ne_true, hd]
  dsimp only
  generalize (t.touchOp o).moveBytes o.src o.dst = u
  have hops (v : State) (hv : v.ops = updateWhere (fun p => p.id == o.id) (fun p => { p with issued := true, arrivals := o.kind.arrivals }) u.ops) :
      ∀ p ∈ v.ops, p.id = o.id → p.issued = true := by
    intro p hp hid
    rw [hv] at hp
    rcases mem_updateWhere hp with ⟨x, -, -, rfl⟩ | ⟨-, h⟩
    · rfl
    · exact absurd (beq_iff_eq.2 hid) (by rw [h]; decide)
  split
  · exact ⟨rfl, hops _ rfl⟩
  · exact ⟨rfl, hops _ rfl⟩

theorem copyAtIssue : Claims.CopyAtIssue := by
  intro s t o ps pd n ha ho hi hsrc hdst hw
  have hexec : exec .engineIssuePoint s = .next (s.issueOp o) := by
    show execEngineIssuePoint s = _
    unfold execEngineIssuePoint
    rw [argOp_of ha ho]
    dsimp only
    rw [hi, if_neg Bool.false_ne_true]
  refine ⟨fun hb => ⟨_, hexec, ?_⟩, fun hb hd => ⟨_, hexec, ?_⟩⟩
  · unfold State.issueOp
    dsimp only
    rw [hb, if_pos rfl]
  · have hmem := ((kept_detectLines hd).trans (kept_touchOp t o)).mem
    obtain ⟨hm, hops⟩ := issueOp_issues hb hd
    rw [hsrc, hdst, moveBytes_mem (hmem ▸ hw), hmem] at hm
    rw [hm]
    obtain ⟨hin, hout⟩ := byte_setBytes_bytes hw ps pd n
    exact ⟨hin, hout, hops⟩

/-! ### Retirement (R44) -/

/-- An operation with no arrival outstanding goes, and its scoreboard entries with it. -/
theorem engineRetire_ok {s : State} {o : EngineOp} (ha : s.arg = .op o.id) (ho : s.ops.find? (fun p => p.id == o.id) = some o) (hi : o.issued = true)
    (harr : o.arrivals = []) :
    ∃ u, exec .engineRetire s = .next u ∧ (∀ p ∈ u.ops, p.id ≠ o.id) ∧ (∀ p ∈ s.ops, p.id ≠ o.id → p ∈ u.ops) ∧
      (∀ e ∈ (u.core o.core).board, e.op ≠ .engine o.id) ∧ u.mem = s.mem ∧ u.ctx = s.ctx := by
  have hcore : (s.modCore o.core (fun x => { x with board := x.board.filter (fun e => e.op != .engine o.id) })).core o.core =
      { s.core o.core with board := (s.core o.core).board.filter (fun e => e.op != .engine o.id) } := (State.core_modCore _ _ _ _).trans (if_pos rfl)
  refine ⟨{ s.modCore o.core (fun x => { x with board := x.board.filter (fun e => e.op != .engine o.id) }) with
    ops := s.ops.filter (fun p => p.id != o.id) }, ?_, fun p hp => ?_, fun p hp hne => ?_, fun e he => ?_, rfl, rfl⟩
  · show execEngineRetire s = _
    unfold execEngineRetire
    rw [argOp_of ha ho]
    dsimp only
    rw [hi, harr]
    rfl
  · exact bne_iff_ne.1 (List.mem_filter.1 hp).2
  · exact List.mem_filter.2 ⟨hp, bne_iff_ne.2 hne⟩
  · have he : e ∈ ((s.modCore o.core (fun x => { x with board := x.board.filter (fun e => e.op != .engine o.id) })).core o.core).board := he
    rw [hcore] at he
    exact bne_iff_ne.1 (List.mem_filter.1 he).2

/-! ### Arrivals (R51, R256) -/

/-- No line of an L2 without errors stops a step. -/
theorem detectLines_clean {s : State} (h : ∀ d : BitVec 2, ∀ y ∈ (s.die d).l2, y.bad = []) (w : Who) (ls : List Nat) : s.detectLines w ls = .ok s := by
  have hone (l : Nat) : s.detectLine w l = .ok s := by
    have hd : s.l2Detect (l2Die w l) l = (s, none) := by
      unfold State.l2Detect
      cases hf : s.l2Find (l2Die w l) l with
      | none => rfl
      | some x =>
        have hx : x ∈ (s.die (l2Die w l)).l2 := List.mem_of_find?_eq_some hf
        dsimp only
        rw [h _ x hx]
        rfl
    unfold State.detectLine
    rw [hd]
  unfold State.detectLines
  induction ls with
  | nil => rfl
  | cons l ls ih =>
    rw [foldE, hone]
    exact ih

/-- An operation's arrivals after one of them. -/
def State.withArrivals (s : State) (id : Nat) (rest : List (Nat × Nat)) : State :=
  { s with ops := updateWhere (fun q => q.id == id) (fun q => { q with arrivals := rest }) s.ops }

theorem withArrivals_ops (s : State) (id : Nat) (rest : List (Nat × Nat)) : ∀ p ∈ (s.withArrivals id rest).ops, p.id = id → p.arrivals = rest := by
  intro p hp hid
  rcases mem_updateWhere hp with ⟨x, -, -, rfl⟩ | ⟨-, h⟩
  · rfl
  · exact absurd (beq_iff_eq.2 hid) (by rw [h]; decide)

theorem kept_touchAll (s : State) (w : Who) (ps : List (Nat × Path)) : Kept s (ps.foldl (fun s p => s.touch w p.2 p.1 false false .no) s) :=
  foldl_ind (P := Kept s) (fun u p h => h.trans (State.kept_touch u w p.2 p.1 false false .no)) ps (Kept.refl s)

section arrivals
variable {s : State} {o : EngineOp} {dst src : Word} {len : Nat} {tg : BitVec 4} {pot : Word} {t i : Nat} {rest : List (Nat × Nat)}

/-- The addition that arrival i of a multicast sends. -/
def arrivalAdd (o : EngineOp) (len i : Nat) (pot : Word) : PotAdd :=
  { ctx := o.ctx, die := o.who.die, lease := o.lease, sub := o.sub, pot := pot, count := BitVec.ofNat 64 (min 2048 (len - 2048 * i)), scope := .cluster }

/-- An arrival touches lines of the target, sends its count, and leaves the rest. -/
theorem exec_mcastArrival (ha : s.arg = .op o.id) (ho : s.ops.find? (fun p => p.id == o.id) = some o) (hk : o.kind = .mcast dst src len tg pot)
    (harr : o.arrivals = (t, i) :: rest) (hpot : pot ≠ 0) (hclean : ∀ d : BitVec 2, ∀ y ∈ (s.die d).l2, y.bad = []) :
    ∃ v, Kept s v ∧ exec .mcastArrival s = .next (((v.post .potAddition (.pot (arrivalAdd o len i pot))).withArrivals o.id rest).post
      (if rest.isEmpty then .engineRetire else .mcastArrival) (.op o.id)) := by
  show ∃ v, Kept s v ∧ execMcastArrival s = _
  unfold execMcastArrival
  rw [argOp_of ha ho]
  dsimp only
  rw [hk, harr]
  dsimp only
  rw [detectLines_clean hclean]
  dsimp only
  rw [if_neg hpot]
  generalize hv : List.foldl _ s _ = v
  refine ⟨v, hv ▸ kept_touchAll s _ _, ?_⟩
  cases rest <;> rfl

theorem mcastArrival_ok (ha : s.arg = .op o.id) (ho : s.ops.find? (fun p => p.id == o.id) = some o) (hk : o.kind = .mcast dst src len tg pot)
    (harr : o.arrivals = (t, i) :: rest) (hpot : pot ≠ 0) (hclean : ∀ d : BitVec 2, ∀ y ∈ (s.die d).l2, y.bad = []) :
    ∃ u, exec .mcastArrival s = .next u ∧ (∀ p ∈ u.ops, p.id = o.id → p.arrivals = rest) ∧ u.mem = s.mem ∧
      (.potAddition, .pot (arrivalAdd o len i pot)) ∈ u.pend ∧
      (if rest = [] then (.engineRetire, .op o.id) ∈ u.pend else (.mcastArrival, .op o.id) ∈ u.pend) := by
  obtain ⟨v, hv, hexec⟩ := exec_mcastArrival ha ho hk harr hpot hclean
  refine ⟨_, hexec, withArrivals_ops _ _ _, hv.mem, ?_, ?_⟩
  · exact List.mem_append_left _ (List.mem_append_right _ List.mem_cons_self)
  · cases rest <;> exact List.mem_append_right _ List.mem_cons_self

end arrivals

end Sys2Proof.Machine

/-! ### Stream slots (R48-R50) -/



namespace Sys2Proof.Machine

/-- A slot of the list, changed. -/
theorem lookupN_updateWhere {α : Type} (k : Nat) (t : α) (l : List (Nat × α)) :
    lookupN k (updateWhere (fun q => q.1 == k) (fun q => (q.1, t)) l) = (lookupN k l).map (fun _ => t) := by
  unfold updateWhere
  induction l with
  | nil => rfl
  | cons p l ih =>
    obtain ⟨j, a⟩ := p
    by_cases h : j = k
    · simp [lookupN, h]
    · simp only [List.map_cons, beq_false_of_ne h, Bool.false_eq_true, if_false, lookupN, if_neg h]
      exact ih

namespace State
variable {s : State}

/-- The slots, memory and the context are as they were. -/
structure SlotsStay (s t : State) : Prop where
  slots : ∀ j, t.streamAt j = s.streamAt j
  mem : t.mem = s.mem
  ctx : t.ctx = s.ctx

theorem SlotsStay.trans {s t u : State} (a : SlotsStay s t) (b : SlotsStay t u) : SlotsStay s u :=
  ⟨fun j => (b.slots j).trans (a.slots j), b.mem.trans a.mem, b.ctx.trans a.ctx⟩

theorem SlotsStay.of_kept {s t : State} (h : Kept s t) : SlotsStay s t := ⟨h.streamAt, h.mem, h.ctx⟩

theorem slotsStay_unboard (s : State) (k : Nat) : SlotsStay s (s.unboard k) := ⟨streamAt_unboard s k, rfl, rfl⟩

theorem slotsStay_postStream (s : State) (k : Nat) : SlotsStay s (s.postStream k) := by
  unfold postStream
  dsimp only
  split <;> exact ⟨fun _ => rfl, rfl, rfl⟩

theorem slotsStay_boardFill (s : State) (k : Nat) (t : Stream) : SlotsStay s (s.boardFill k t) := by
  unfold boardFill
  split
  · exact ⟨fun _ => rfl, rfl, rfl⟩
  · exact ⟨streamAt_modBoard s (· ++ _), rfl, rfl⟩

theorem streamAt_setStream (s : State) (k : Nat) (t : Stream) : (s.setStream k t).streamAt k = (s.streamAt k).map (fun _ => t) := by
  unfold setStream
  rw [streamAt_modMyFe]
  exact lookupN_updateWhere k t _

theorem switchTo_self {c : CtxId} (hc : s.ctx.id = c) (hp : s.ctx.present = true) : s.switchTo c = s := if_pos (by simp [hc, hp])

/-- Work done as the current context. -/
theorem as_self {c : CtxId} {f : State → State} (hc : c = s.ctx.id) (hp : s.ctx.present = true) (hid : (f s).ctx.id = s.ctx.id)
    (hpr : (f s).ctx.present = s.ctx.present) : s.as c f = f s := by
  unfold as
  rw [switchTo_self hc.symm hp, switchTo_self hid (hpr.trans hp)]

/-- The transfer unit's work is on its way. -/
theorem mem_postStream {fe : BitVec 9} {k : BitVec 4} (hc : s.ctx.core = fe.toNat / 2) (hf : s.ctx.fe = (fe.toNat % 2 == 1)) :
    (.streamTransfer, .stream fe k) ∈ (s.postStream k.toNat).pend := by
  have hn : s.feNum = fe := by
    apply BitVec.eq_of_toNat_eq
    have hlt := fe.isLt
    unfold feNum
    rw [BitVec.toNat_ofNat, hc, hf]
    by_cases h : fe.toNat % 2 = 1
    · rw [if_pos (beq_iff_eq.2 h)]
      omega
    · rw [if_neg (mt beq_iff_eq.1 h)]
      omega
  have hk : BitVec.ofNat 4 k.toNat = k := by rw [BitVec.ofNat_toNat, BitVec.setWidth_eq]
  unfold postStream
  rw [hn, hk]
  dsimp only
  split
  · next h => exact List.contains_iff_mem.1 h
  · exact List.mem_append_right _ List.mem_cons_self

/-- An access refused is refused where it was to arrive. -/
theorem load_fault {v : State} {a : Agent} {va : Word} {n : Nat} {keep : Keep} {f : XFault} (h : s.load a va n keep = .error (.fault v f)) :
    s.reach a .load .strand va n = .error (.fault v f) := by
  cases hr : s.reach a .load .strand va n with
  | error x =>
    rw [load_error hr] at h
    cases h
    rfl
  | ok p =>
    exfalso
    unfold load access at h
    rw [hr] at h
    dsimp only [bind, Except.bind] at h
    split at h <;> cases h

/-! ### The transfer unit (R49, R50) -/

/-- A slot after a turn of its unit: what it got is appended, and where something stopped it, it comes again. -/
def fetched (s : State) (k : Nat) (t : Stream) (got : List StreamElem) (stopped : Bool) : State :=
  let t := { t with ahead := t.ahead ++ got }
  let s := s.setStream k t
  if stopped then (s.boardFill k t).postStream k else s

theorem streamFetch_waits {k : Nat} {t : Stream}
    (h : ¬ ((s.unboard k).fillRanges t = [] ∨ (s.unboard k).myCore.board.length < 32)) : s.streamFetch k t = (s.unboard k).postStream k := by
  obtain ⟨h1, h2⟩ := not_or.1 h
  unfold streamFetch
  exact if_pos (by simp [h1, Nat.not_lt.1 h2])

theorem streamFetch_free {k : Nat} {t : Stream} (h : (s.unboard k).fillRanges t = [] ∨ (s.unboard k).myCore.board.length < 32) :
    s.streamFetch k t = ((s.unboard k).streamRead t (t.room - t.ahead.length) []).2.2.fetched k t
      ((s.unboard k).streamRead t (t.room - t.ahead.length) []).1 ((s.unboard k).streamRead t (t.room - t.ahead.length) []).2.1 := by
  unfold streamFetch
  refine if_neg ?_
  rcases h with h | h
  · simp [h]
  · simp [h]

/-- A slot that is full, or has fetched its last element, has nothing to read and takes no place in the stash. -/
theorem fillRanges_full {t : Stream} (h : t.room ≤ t.ahead.length ∨ t.total ≤ t.pos + t.ahead.length) : s.fillRanges t = [] := by
  have hn : min (t.room - t.ahead.length) (t.total - (t.pos + t.ahead.length)) = 0 := by omega
  unfold fillRanges
  dsimp only
  rw [hn]
  rfl

theorem streamRead_full {t : Stream} (h : t.room ≤ t.ahead.length ∨ t.total ≤ t.pos + t.ahead.length) :
    s.streamRead t (t.room - t.ahead.length) [] = ([], false, s) := by
  by_cases hr : t.room ≤ t.ahead.length
  · rw [Nat.sub_eq_zero_of_le hr]
    rfl
  · obtain ⟨n, hn⟩ : ∃ n, t.room - t.ahead.length = n + 1 := ⟨t.room - t.ahead.length - 1, by omega⟩
    rw [hn]
    unfold streamRead
    exact if_pos (h.resolve_left hr)

/-- The element at which a slot stands next. -/
abbrev nextAddr (t : Stream) : Word := t.addr (t.pos + t.ahead.length)

section one
variable {t : Stream} (hl : t.pos + t.ahead.length < t.total)
include hl

theorem streamRead_held (hh : s.streamHeld t.stamp .load (nextAddr t) = true) : s.streamRead t 1 [] = ([], true, s) := by
  unfold streamRead
  exact (if_neg (Nat.not_le.2 hl)).trans (if_pos hh)

theorem streamRead_value (hh : s.streamHeld t.stamp .load (nextAddr t) = false) {b : Nat} {v : State}
    (hv : s.load .stream (nextAddr t) t.size .normal = .ok (some b, v)) :
    ∃ c, s.streamRead t 1 [] =
      ([{ val := BitVec.ofNat 64 (loadConv (mform t.mfmt).enc (mform t.mfmt).sat t.ty none b).1, bad := false, fault := none, skip := false, stamp := t.stamp }],
        false, v.clampIf c) := by
  refine ⟨(loadConv (mform t.mfmt).enc (mform t.mfmt).sat t.ty none b).2, ?_⟩
  unfold streamRead
  refine (if_neg (Nat.not_le.2 hl)).trans ((if_neg (by rw [List.length_nil, Nat.add_zero, hh]; decide)).trans ?_)
  dsimp only [List.length_nil, Nat.add_zero]
  rw [hv]
  rfl

theorem streamRead_fault (hh : s.streamHeld t.stamp .load (nextAddr t) = false) {f : XFault} {v : State}
    (hv : s.load .stream (nextAddr t) t.size .normal = .error (.fault v f)) :
    s.streamRead t 1 [] = ([{ val := 0, bad := false, fault := some (f.cause, f.tval), skip := false, stamp := t.stamp }], false, v) := by
  unfold streamRead
  refine (if_neg (Nat.not_le.2 hl)).trans ((if_neg (by rw [List.length_nil, Nat.add_zero, hh]; decide)).trans ?_)
  dsimp only [List.length_nil, Nat.add_zero]
  rw [hv]
  rfl

end one

/-- What stays after a turn of a slot's unit, and what the slot then is. -/
theorem fetched_slots {s0 s : State} {k : Nat} {t : Stream} (hm : s.mem = s0.mem) (hs : s.streamAt k = some t) (got : List StreamElem) (stopped : Bool) :
    (s.fetched k t got stopped).streamAt k = some { t with ahead := t.ahead ++ got } ∧ (s.fetched k t got stopped).mem = s0.mem ∧
      (s.fetched k t got stopped).ctx = s.ctx := by
  have hset : (s.setStream k { t with ahead := t.ahead ++ got }).streamAt k = some { t with ahead := t.ahead ++ got } := by
    rw [streamAt_setStream, hs]
    rfl
  unfold fetched
  dsimp only
  split
  · have h := (slotsStay_boardFill (s.setStream k { t with ahead := t.ahead ++ got }) k { t with ahead := t.ahead ++ got }).trans (slotsStay_postStream _ k)
    exact ⟨(h.slots k).trans hset, h.mem.trans hm, h.ctx⟩
  · exact ⟨hset, hm, rfl⟩

theorem clampIf_self (s : State) (b : Bool) : (s.clampIf b).ctx.id = s.ctx.id ∧ (s.clampIf b).ctx.present = s.ctx.present ∧
    (∀ j, (s.clampIf b).streamAt j = s.streamAt j) ∧ (s.clampIf b).mem = s.mem := by
  unfold clampIf
  split
  · exact ⟨rfl, rfl, streamAt_of rfl rfl, rfl⟩
  · exact ⟨rfl, rfl, fun _ => rfl, rfl⟩

end State

section transfer
variable {s : State} {fe : BitVec 9} {k : BitVec 4} {t : Stream} (ha : s.arg = .stream fe k)
include ha

theorem streamTransfer_unset (hq : lookupN k.toNat ((s.core (fe.toNat / 2)).fe (fe.toNat % 2 == 1)).streams = none) :
    exec .streamTransfer s = .next s := by
  show execStreamTransfer s = _
  unfold execStreamTransfer
  rw [ha]
  dsimp only
  rw [hq]

variable (hq : lookupN k.toNat ((s.core (fe.toNat / 2)).fe (fe.toNat % 2 == 1)).streams = some t)
include hq

theorem streamTransfer_orphan (hc : s.findCtx t.ctx = none) : exec .streamTransfer s = .next s := by
  show execStreamTransfer s = _
  unfold execStreamTransfer
  rw [ha]
  dsimp only
  rw [hq]
  dsimp only
  rw [hc]
  rfl

variable (hid : t.ctx = s.ctx.id) (hp : s.ctx.present = true)
include hid hp

/-- The unit of an input slot of the current context. -/
theorem streamTransfer_input (ho : t.output = false) (hf : (s.streamFetch k.toNat t).ctx.id = s.ctx.id)
    (hpr : (s.streamFetch k.toNat t).ctx.present = s.ctx.present) : exec .streamTransfer s = .next (s.streamFetch k.toNat t) := by
  have hfind : s.findCtx t.ctx = some s.ctx := List.find?_cons_of_pos (by simp [hid, hp])
  show execStreamTransfer s = _
  unfold execStreamTransfer
  rw [ha]
  dsimp only
  rw [hq]
  dsimp only
  rw [hfind, ho]
  refine congrArg Host.Outcome.next ((if_neg Bool.false_ne_true).trans ?_)
  exact State.as_self (f := fun s => if false = true then s.streamStore k.toNat t else s.streamFetch k.toNat t) hid hp hf hpr

variable (hcore : s.ctx.core = fe.toNat / 2) (hfe : s.ctx.fe = (fe.toNat % 2 == 1)) (ho : t.output = false)
include hcore hfe ho

omit ha hid hp ho in
theorem streamAt_named : s.streamAt k.toNat = some t := by
  unfold State.streamAt State.myFe State.myCore
  rw [hcore, hfe]
  exact hq

/-- What a turn whose reading ends in v leaves. -/
theorem streamTransfer_reads {got : List StreamElem} {stopped : Bool} {v : State}
    (hfree : (s.unboard k.toNat).fillRanges t = [] ∨ (s.unboard k.toNat).myCore.board.length < 32)
    (hr : (s.unboard k.toNat).streamRead t (t.room - t.ahead.length) [] = (got, stopped, v)) (hmem : v.mem = s.mem)
    (hslots : ∀ j, v.streamAt j = s.streamAt j) (hvid : v.ctx.id = s.ctx.id) (hvp : v.ctx.present = s.ctx.present) :
    exec .streamTransfer s = .next (v.fetched k.toNat t got stopped) ∧
      (v.fetched k.toNat t got stopped).streamAt k.toNat = some { t with ahead := t.ahead ++ got } ∧ (v.fetched k.toNat t got stopped).mem = s.mem ∧
      (v.fetched k.toNat t got stopped).ctx = v.ctx := by
  have hfetch : s.streamFetch k.toNat t = v.fetched k.toNat t got stopped := by rw [State.streamFetch_free hfree, hr]
  obtain ⟨hs, hm, hc⟩ := State.fetched_slots hmem ((hslots _).trans (streamAt_named hq hcore hfe)) got stopped
  have hexec := streamTransfer_input ha hq hid hp ho (by rw [hfetch, hc, hvid]) (by rw [hfetch, hc, hvp])
  exact ⟨hexec.trans (congrArg _ hfetch), hs, hm, hc⟩

/-- A slot that has nothing to fetch stays. -/
theorem streamTransfer_full (h : t.room ≤ t.ahead.length ∨ t.total ≤ t.pos + t.ahead.length) :
    ∃ u, exec .streamTransfer s = .next u ∧ u.streamAt k.toNat = some t ∧ u.mem = s.mem ∧ u.ctx = s.ctx := by
  obtain ⟨hx, hs, hm, hc⟩ := streamTransfer_reads ha hq hid hp hcore hfe ho (.inl (State.fillRanges_full h)) (State.streamRead_full h) rfl
    (State.streamAt_unboard s _) rfl rfl
  rw [List.append_nil] at hs
  exact ⟨_, hx, hs, hm, hc⟩

variable (hroom : t.ahead.length + 1 = t.room) (hleft : t.pos + t.ahead.length < t.total)
include hroom

/-- A slot that gets an element. -/
theorem streamTransfer_gets {e : StreamElem} {v : State}
    (hfree : (s.unboard k.toNat).fillRanges t = [] ∨ (s.unboard k.toNat).myCore.board.length < 32)
    (hr : (s.unboard k.toNat).streamRead t 1 [] = ([e], false, v)) (hmem : v.mem = s.mem)
    (hslots : ∀ j, v.streamAt j = s.streamAt j) (hvid : v.ctx.id = s.ctx.id) (hvp : v.ctx.present = s.ctx.present) :
    ∃ u t', exec .streamTransfer s = .next u ∧ u.streamAt k.toNat = some t' ∧ u.mem = s.mem ∧ t'.ahead = t.ahead ++ [e] := by
  have hone : t.room - t.ahead.length = 1 := by omega
  obtain ⟨hx, hs, hm, -⟩ := streamTransfer_reads ha hq hid hp hcore hfe ho hfree (hone ▸ hr) hmem hslots hvid hvp
  exact ⟨_, _, hx, hs, hm, rfl⟩

include hleft

/-- A slot that something older, or a full scoreboard, stands before comes again. -/
theorem streamTransfer_again (h : ¬ ((s.unboard k.toNat).fillRanges t = [] ∨ (s.unboard k.toNat).myCore.board.length < 32) ∨
      (s.unboard k.toNat).streamHeld t.stamp .load (State.nextAddr t) = true) :
    ∃ u, exec .streamTransfer s = .next u ∧ u.streamAt k.toNat = some t ∧ u.mem = s.mem ∧ (.streamTransfer, .stream fe k) ∈ u.pend := by
  have hone : t.room - t.ahead.length = 1 := by omega
  by_cases hfree : (s.unboard k.toNat).fillRanges t = [] ∨ (s.unboard k.toNat).myCore.board.length < 32
  · have hr := State.streamRead_held hleft (h.resolve_left (not_not_intro hfree))
    obtain ⟨hx, hs, hm, -⟩ := streamTransfer_reads ha hq hid hp hcore hfe ho hfree (hone.symm ▸ hr) (v := s.unboard k.toNat) rfl
      (State.streamAt_unboard s _) rfl rfl
    rw [List.append_nil] at hs
    refine ⟨_, hx, hs, hm, ?_⟩
    have hb := State.slotsStay_boardFill ((s.unboard k.toNat).setStream k.toNat { t with ahead := t.ahead ++ [] }) k.toNat { t with ahead := t.ahead ++ [] }
    exact State.mem_postStream (by rw [hb.ctx]; exact hcore) (by rw [hb.ctx]; exact hfe)
  · have hst := (State.slotsStay_unboard s k.toNat).trans (State.slotsStay_postStream _ k.toNat)
    have hw := State.streamFetch_waits hfree
    have hexec := streamTransfer_input ha hq hid hp ho (by rw [hw, hst.ctx]) (by rw [hw, hst.ctx])
    exact ⟨_, hexec.trans (congrArg _ hw), (hst.slots _).trans (streamAt_named hq hcore hfe), hst.mem, State.mem_postStream hcore hfe⟩

end transfer

theorem engineMoves : Claims.EngineMoves := by
  intro s o ha ho hi
  refine ⟨engineRetire_ok ha ho hi, fun dst src len tg pot t i rest hk harr hpot hclean => mcastArrival_ok ha ho hk harr hpot hclean, fun fe k => ?_⟩
  let x : State := { s with arg := .stream fe k }
  have hx : x.arg = .stream fe k := rfl
  refine ⟨streamTransfer_unset hx, fun t hq => ⟨streamTransfer_orphan hx hq, fun hid hp hcore hfe hout => ⟨streamTransfer_full hx hq hid hp hcore hfe hout, ?_⟩⟩⟩
  intro y va free gets hroom hleft
  refine ⟨fun hfree hh => ⟨fun v b hv => ?_, fun v f hv => ?_⟩, streamTransfer_again hx hq hid hp hcore hfe hout hroom hleft⟩
  · obtain ⟨c, hr⟩ := State.streamRead_value hleft hh hv
    obtain ⟨_, _, -, hk, -⟩ := State.load_ok hv
    obtain ⟨hcid, hcp, hcs, hcm⟩ := State.clampIf_self v c
    exact streamTransfer_gets hx hq hid hp hcore hfe hout hroom hfree hr (hcm.trans hk.mem)
      (fun j => (hcs j).trans ((hk.streamAt j).trans (State.streamAt_unboard x _ j))) (hcid.trans (congrArg Ctx.id hk.ctx)) (hcp.trans (congrArg Ctx.present hk.ctx))
  · have hk := (kept_refused (State.load_fault hv)).1
    exact streamTransfer_gets hx hq hid hp hcore hfe hout hroom hfree (State.streamRead_fault hleft hh hv) hk.mem
      (fun j => (hk.streamAt j).trans (State.streamAt_unboard x _ j)) (congrArg Ctx.id hk.ctx) (congrArg Ctx.present hk.ctx)

end Sys2Proof.Machine

/-- Settles O30: each step's next state is written out; the issue point by the bytes that it reads and writes, the transfer unit by what its
reading comes to. -/
theorem engineSteps : Obligations.EngineSteps := ⟨Sys2Proof.Machine.copyAtIssue, Sys2Proof.Machine.engineMoves⟩

/-! ## The barrier (R57, R65, O25) -/

namespace Sys2Proof.Machine

/-- A repair by a core is counted (event 0x09, R65). -/
def State.repaired (s : State) (core : Option (Nat × Bool)) : State := match core with | some c => s.count c.1 c.2 0x09 1 | none => s

/-- The phase of a descriptor's word 0, as the claims read it. -/
theorem phase_eq (d0 : Word) : bits d0 63 62 = (d0.extractLsb' 62 2).toNat := bits_eq_extract d0 63 62

theorem zero_field_iff (r : Word) : bits r 59 55 = 0 ↔ r.extractLsb' 55 5 = 0 := bits_eq_zero_iff r 59 55

namespace State
variable {s t : State} {w : Who} {core : Option (Nat × Bool)} {r d0 : Word}

theorem healRef_null (hk : refKind r = 0) : s.healRef w core r = .ok (r, s) := if_pos hk

theorem healRef_malformed (h : refKind r = 3 ∨ (refKind r ≠ 0 ∧ r.extractLsb' 55 5 ≠ 0)) :
    s.healRef w core r = .error (.operand s (refField r)) := by
  have hk : refKind r ≠ 0 := by omega
  have hb : (decide (refKind r = 3) || bits r 59 55 != 0) = true := by
    rw [Bool.or_eq_true, bne_iff_ne, decide_eq_true_eq, Ne, zero_field_iff]
    exact h.imp id And.right
  unfold healRef
  dsimp only
  rw [if_neg hk, if_pos hb]

/-- The barrier once it has the descriptor's word 0: what it answers for a reference of another phase. -/
def healFrom (t : State) (w : Who) (core : Option (Nat × Bool)) (r d0 : Word) : HealRes (Word × State) := do
  let p := bits d0 63 62
  if refPhase r != (p + 3) % 4 then .error (.operand t (refField r))
  else
    let (moved, s) ← if bitAt d0 61 then t.parcelBit w core 4 (refAddr r) else .ok (false, t)
    if !moved then .ok (mkRef p (refKind r) (refAddr r), s)
    else
      let (hdr, s) ← if refKind r = 1 then .ok (some (refAddr r), s) else s.headerBelow w core (refAddr r)
      match hdr with
      | none => .error (.operand s (refField r))
      | some hdr =>
        let (hit, s) ← s.lookup w core p hdr
        match hit with
        | none => .ok (r, s)
        | some h => .ok (if refKind r = 1 then h else mkRef (refPhase h) 2 (refAddr h + (refAddr r - hdr)), s)

section object
variable (hk : refKind r = 1 ∨ refKind r = 2) (hz : r.extractLsb' 55 5 = 0)
  (hd : s.descWord w core (regionBase (refAddr r)) (regionBase (refAddr r)) = .ok (d0, t))
include hk hz hd

theorem healRef_eq : s.healRef w core r = if refPhase r = (d0.extractLsb' 62 2).toNat then .ok (r, t) else (t.repaired core).healFrom w core r d0 := by
  have hb : ¬ (decide (refKind r = 3) || bits r 59 55 != 0) = true := by
    rw [Bool.or_eq_true, bne_iff_ne, decide_eq_true_eq, Ne, zero_field_iff]
    exact fun h => h.elim (fun h3 => by omega) (· hz)
  unfold healRef
  dsimp only
  rw [if_neg (by omega), if_neg hb, hd]
  dsimp only [bind, Except.bind]
  rw [← phase_eq]
  by_cases hp : refPhase r = bits d0 63 62
  · rw [if_pos hp, if_pos hp, if_pos hp]
  · rw [if_neg hp, if_neg hp, if_neg hp]
    rcases core with _ | ⟨n, f⟩ <;> rfl

end object

section from_descriptor
variable {u v x : State} {h hdr : Word}

theorem healFrom_stale (hp : refPhase r ≠ (bits d0 63 62 + 3) % 4) : t.healFrom w core r d0 = .error (.operand t (refField r)) :=
  if_pos (bne_iff_ne.2 hp)

variable (hp : refPhase r = (bits d0 63 62 + 3) % 4)
include hp

/-- The phase of a reference of the phase before passes. -/
theorem phase_passes : ¬ (refPhase r != (bits d0 63 62 + 3) % 4) = true := fun h => bne_iff_ne.1 h hp

theorem healFrom_idle (ha : d0.getLsbD 61 = false) : t.healFrom w core r d0 = .ok (mkRef (bits d0 63 62) (refKind r) (refAddr r), t) := by
  unfold healFrom bitAt
  rw [if_neg (phase_passes hp), ha]
  rfl

variable (ha : d0.getLsbD 61 = true)
include ha

theorem healFrom_outside (hb : t.parcelBit w core 4 (refAddr r) = .ok (false, u)) :
    t.healFrom w core r d0 = .ok (mkRef (bits d0 63 62) (refKind r) (refAddr r), u) := by
  unfold healFrom bitAt
  rw [if_neg (phase_passes hp), ha, if_pos rfl, hb]
  rfl

variable (hb : t.parcelBit w core 4 (refAddr r) = .ok (true, u))
include hb

/-- An object's reference is looked up by its own address. -/
theorem healFrom_object (hk : refKind r = 1) {hit : Option Word} (hl : u.lookup w core (bits d0 63 62) (refAddr r) = .ok (hit, v)) :
    t.healFrom w core r d0 = .ok (hit.getD r, v) := by
  unfold healFrom bitAt
  rw [if_neg (phase_passes hp), ha, if_pos rfl, hb]
  dsimp only [bind, Except.bind]
  rw [if_neg (by decide), if_pos hk, hl]
  cases hit with
  | none => rfl
  | some h => exact congrArg (fun a => Except.ok (a, v)) (if_pos hk)

/-- Below an interior reference no header is marked. -/
theorem healFrom_unmarked (hk : refKind r = 2) (hh : u.headerBelow w core (refAddr r) = .ok (none, v)) :
    t.healFrom w core r d0 = .error (.operand v (refField r)) := by
  unfold healFrom bitAt
  rw [if_neg (phase_passes hp), ha, if_pos rfl, hb]
  dsimp only [bind, Except.bind]
  rw [if_neg (by decide), if_neg (by omega), hh]

/-- An interior reference moves with the object around it. -/
theorem healFrom_interior (hk : refKind r = 2) (hh : u.headerBelow w core (refAddr r) = .ok (some hdr, v))
    (hl : v.lookup w core (bits d0 63 62) hdr = .ok (some h, x)) :
    t.healFrom w core r d0 = .ok (mkRef (refPhase h) 2 (refAddr h + (refAddr r - hdr)), x) := by
  have hk1 : refKind r ≠ 1 := by omega
  unfold healFrom bitAt
  rw [if_neg (phase_passes hp), ha, if_pos rfl, hb]
  dsimp only [bind, Except.bind]
  rw [if_neg (by decide), if_neg hk1, hh]
  dsimp only
  rw [hl]
  exact congrArg (fun a => Except.ok (a, x)) (if_neg hk1)

end from_descriptor
end State
end Sys2Proof.Machine

section
open Sys2Proof.Machine Sys2Proof.Machine.State

/-- Settles O25: the reference's kind and phase, then Active and the from-parcels, decide which line of the table applies; one lemma for
each. -/
theorem barrier : Obligations.Barrier := by
  intro s w core r
  refine ⟨healRef_null, healRef_malformed, fun hk hz d0 t hd => ?_⟩
  rw [healRef_eq hk hz hd, ← phase_eq]
  refine ⟨fun hp => ⟨t, if_pos hp⟩, fun hp hq => (if_neg hp).trans (healFrom_stale hq), fun hp ha => ?_, fun hp ha => ?_⟩
  all_goals
    have hne : refPhase r ≠ bits d0 63 62 := by
      have := bits_lt d0 63 62
      omega
    rw [if_neg hne]
  · exact healFrom_idle hp ha
  · exact ⟨fun u hb => healFrom_outside hp ha hb, fun u v hk hb hl => healFrom_object hp ha hb hk hl, fun u v h hk hb hl => healFrom_object hp ha hb hk hl,
      fun u v hk hb hh => healFrom_unmarked hp ha hb hk hh, fun u v x hdr h hk hb hh hl => healFrom_interior hp ha hb hk hh hl⟩

end

/-! ## Identity, pins and references that are made (R71, R182-R184, O28) -/

namespace Sys2Proof.Machine

/-! ### What the barrier leaves alone -/

namespace Ends
variable {α : Type} {P : α → Prop}

/-- What holds of a value that a barrier answers holds of what the instruction goes on with. -/
theorem of_healed {x : HealRes α} (h : Ends P (fun _ => True) x) : Ends P (fun _ => True) (Machine.healed x) := by
  match x, h with
  | .ok _, h => exact h
  | .error (.operand _ _), _ => trivial
  | .error (.unread _ _ _), _ => trivial
  | .error (.wait _), _ => trivial

theorem of_scalarAcc {x : ARes α} (h : Ends P (fun _ => True) x) : Ends P (fun _ => True) (Machine.scalarAcc x) := by
  match x, h with
  | .ok _, h => exact h
  | .error (.fault _ _), _ => trivial
  | .error (.wait _), _ => trivial

theorem any (x : Res α) : Ends (fun _ => True) (fun _ => True) x := by cases x <;> trivial

end Ends

/-- An access that leaves all but caches and translations, from a state that has done so. -/
theorem Kept.ends {α : Type} {s t : State} {r : ARes (α × State)} (h : Kept s t) (k : KeptBy t r) : Ends (fun x => Kept s x.2) (fun _ => True) r := by
  match r, k with
  | .ok (_, _), k => exact h.trans k
  | .error (.fault _ _), _ => trivial
  | .error (.wait _), _ => trivial

namespace Kept
variable {s t : State} (h : Kept s t)
include h

theorem descWord (w : Who) (core : Option (Nat × Bool)) (va tval : Word) : Ends (fun x => Kept s x.2) (fun _ => True) (t.descWord w core va tval) := by
  unfold State.descWord
  split
  · trivial
  · trivial
  · next e u hu =>
    have hk := h.trans ((State.kept_checked t _ _ _ _ _ _ _ _).ok hu)
    dsimp only
    split
    · trivial
    · next v hv =>
      exact .ite trivial ((hk.trans (State.kept_detectLine (.inl hv))).trans (State.kept_touch _ _ _ _ _ _ _))

theorem parcelBit (w : Who) (core : Option (Nat × Bool)) (k : Nat) (va : Word) : Ends (fun x => Kept s x.2) (fun _ => True) (t.parcelBit w core k va) :=
  .ite h ((h.descWord _ _ _ _).bind fun _ hu => hu)

theorem bitmapWord (w : Who) (core : Option (Nat × Bool)) (va : Word) : Ends (fun x => Kept s x.2) (fun _ => True) (t.bitmapWord w core va) := by
  have ht := State.kept_translate t w .load va (fun _ => none)
  unfold State.bitmapWord
  split
  · trivial
  · next e => rw [e] at ht; exact h.trans ht
  · next e u hu =>
    have hk := h.trans (ht.ok hu)
    dsimp only
    split
    · trivial
    · next v hv => exact (hk.trans (State.kept_detectLine (.inl hv))).trans (State.kept_touch _ _ _ _ _ _ _)

theorem countHere (core : Option (Nat × Bool)) (e : Nat) : Kept s (match core with | some (n, f) => t.count n f e 1 | none => t) := by
  split
  · exact h.trans (State.kept_count _ _ _ _ _)
  · exact h

omit h in
theorem probe (w : Who) (core : Option (Nat × Bool)) (region table hdr : Word) (n fuel : Nat) :
    ∀ {t : State} (i : Nat), Kept s t → Ends (fun x => Kept s x.2) (fun _ => True) (t.probe w core region table hdr n fuel i) := by
  induction fuel with
  | zero => exact fun _ h => h
  | succ fuel ih =>
    intro t i h
    rw [State.probe]
    exact (h.descWord _ _ _ _).bind fun _ hu => .ite hu (.ite ((hu.descWord _ _ _ _).bind fun _ hv => hv) (ih _ hu))

/-- A hit enters the core's forwarding cache. -/
theorem modFwd (n : Nat) (f : Core → List FwdHit) : Kept s (t.modCore n (fun k => { k with fwd := f k })) :=
  h.trans (Kept.of_setCore t n _ rfl rfl rfl rfl rfl (fun g => by cases g <;> rfl) (fun g => by cases g <;> rfl))

theorem lookup (w : Who) (core : Option (Nat × Bool)) (phase : Nat) (hdr : Word) :
    Ends (fun x => Kept s x.2) (fun _ => True) (t.lookup w core phase hdr) := by
  unfold State.lookup
  dsimp only
  split
  · exact h
  · refine ((h.countHere core 0x0A).descWord _ _ _ _).bind fun _ hu => (probe _ _ _ _ _ _ _ _ hu).bind fun ⟨r, v⟩ hv => ?_
    dsimp only
    split
    · dsimp only [Ends]
      exact hv.modFwd _ _
    · exact hv

omit h in
theorem bitBelow (w : Who) (core : Option (Nat × Bool)) (bitmap : Word) (gran k : Nat) :
    ∀ {t : State} (met : List XFault), Kept s t → Ends (fun x => Kept s x.2.2) (fun _ => True) (t.bitBelow w core bitmap gran met k) := by
  induction k with
  | zero => exact fun _ h => h
  | succ k ih =>
    intro t met h
    rw [State.bitBelow]
    refine (h.bitmapWord _ _ _).bind fun ⟨v, u⟩ hu => ?_
    dsimp only
    split
    · exact ih _ hu
    · split
      · exact hu
      · exact ih _ hu

theorem headerSearch (w : Who) (core : Option (Nat × Bool)) (va : Word) : Ends (fun x => Kept s x.2.2) (fun _ => True) (t.headerSearch w core va) := by
  unfold State.headerSearch
  dsimp only
  split
  · exact h
  · refine Ends.bind (P := fun x : Nat × State => Kept s x.2) (foldl_ind (P := Ends (fun x : Nat × State => Kept s x.2) fun _ => True) (fun r k hr => ?_) _ h)
      fun _ hu => (bitBelow _ _ _ _ _ _ hu).bind fun _ hv => hv
    exact hr.bind fun _ hu => (hu.parcelBit _ _ _ _).bind fun _ hv => hv

theorem healRef (w : Who) (core : Option (Nat × Bool)) (r : Word) : Ends (fun x => Kept s x.2) (fun _ => True) (t.healRef w core r) := by
  refine .ite h (.ite trivial ((h.descWord _ _ _ _).bind fun ⟨d0, u⟩ hu => ?_))
  dsimp only
  generalize hv : (if refPhase r = bits d0 63 62 then u else _) = v
  have hv : Kept s v := by
    rw [← hv]
    split
    · exact hu
    · exact hu.countHere core 0x09
  refine .ite hv (.ite trivial (.join (P := fun x : Bool × State => Kept s x.2) (hv.parcelBit _ _ _ _) hv fun _ hw => .ite hw
    (.join (P := fun x : Option Word × State => Kept s x.2) hw ((hw.headerSearch _ _ _).bind fun _ hx => hx) fun ⟨hdr, x⟩ hx => ?_)))
  dsimp only
  split
  · trivial
  · refine (hx.lookup _ _ _ _).bind fun ⟨hit, y⟩ hy => ?_
    dsimp only
    split
    · exact hy
    · exact hy

theorem headOf (w : Who) (core : Option (Nat × Bool)) (hdr w0 : Word) : Ends (fun x => Kept s x.2) (fun _ => True) (t.headOf w core hdr w0) :=
  .ite h ((h.descWord _ _ _ _).bind fun _ hu => .ite hu ((hu.descWord _ _ _ _).bind fun _ hv => hv))

end Kept

/-! ### The checks of the pins (R183) -/

theorem hval_keeps (r : HReg) (s : State) : Ends (fun x => Kept s x.2) (fun _ => True) (hval r s) := ((Kept.refl s).healRef _ _ _).of_healed

theorem refBase_lane (r : HReg) (s : State) : Ends (fun x => x.2.lane = s.lane) (fun _ => True) (refBase r s) :=
  (hval_keeps r s).bind fun x ht => (Ends.any _).seq ((Ends.any _).seq (show x.2.lane = s.lane from ht.lane))

theorem refAdmits_keeps (k : Acc) (sc : Scope) (va : Word) (s : State) : Ends (fun x => Kept s x.2) (fun _ => True) (refAdmits k sc va s) :=
  (Ends.any _).seq ((Kept.refl s).ends (State.kept_translate _ _ _ _ _)).of_scalarAcc

theorem load_keeps (s : State) (a : Agent) (va : Word) (n : Nat) (keep : Keep) : Ends (fun x => Kept s x.2) (fun _ => True) (s.load a va n keep) := by
  cases h : s.load a va n keep with
  | error e => trivial
  | ok x => obtain ⟨_, _, _, hk, _⟩ := State.load_ok h; exact hk

theorem refHead_lane (hdr : Word) (s : State) : Ends (fun x => x.2.2.lane = s.lane) (fun _ => True) (refHead hdr s) :=
  (load_keeps s _ _ _ _).of_scalarAcc.bind fun x ht => ((Kept.refl (x.2.consume x.1.isNone)).headOf _ _ _ _).of_healed.bind fun _ hu =>
    (hu.lane.trans (State.consume_lane _ _)).trans ht.lane

/-- The checks of hpin and hunpin belong to no other agent. -/
theorem refPinned_lane {a : HReg} {pin : Bool} {s t : State} {hdr w0 : Word} {hd : Head} (h : refPinned a pin s = .ok (hdr, w0, hd, t)) :
    t.lane = s.lane := by
  refine Ends.ok (P := fun x : Word × Word × Head × State => x.2.2.2.lane = s.lane) (E := fun _ => True) ?_ h
  refine (refBase_lane a s).bind fun _ ht => (refAdmits_keeps _ _ _ _).bind fun _ hu => (refHead_lane _ _).bind fun ⟨w0, hd, w⟩ hw => ?_
  dsimp only at hw ⊢
  split
  · trivial
  · exact (Ends.any _).seq (hw.trans (hu.lane.trans ht))

/-! ### The instructions -/

theorem sameObject_iff (x y : Word) : sameObject x y = true ↔ Claims.equalRefs x y := by
  unfold sameObject Claims.equalRefs
  rw [Bool.and_eq_true, Bool.or_eq_true, beq_iff_eq, beq_iff_eq, beq_iff_eq]

/-- What an atomic has written where it arrived reads back. -/
theorem written_num {t u : State} (hw : u.mem.wf = true) (p : State.Reached) (v : Word) : (Claims.written t u p v).mem.num p.pa 8 = v.toNat := by
  unfold Claims.written
  rw [State.putBytes_mem, (State.kept_touch _ _ _ _ _ _ _).mem]
  exact (Memory.num_setNum hw p.pa 8 v.toNat).trans (Nat.mod_eq_of_lt v.isLt)

theorem setH_who (s : State) (r : HReg) (v : Word) : (s.setH r v).ctx.who = s.ctx.who := by
  unfold State.setH Ctx.setH
  dsimp only
  split <;> rfl

theorem setH_here (s : State) (r : HReg) (v : Word) : (s.setH r v).here = s.here := by
  unfold State.here State.setH Ctx.setH
  dsimp only
  split <;> rfl

section instructions
variable {s t u v : State} (h : Claims.onFront s)
include h

/-- hcmp heals both of its references. -/
theorem exec_hcmp {d : XReg} {a b : HReg} {x y : Word} (hx : s.healRef s.ctx.who s.here (s.ctx.getH a) = .ok (x, t))
    (hy : (t.setH a x).healRef t.ctx.who t.here ((t.ctx.setH a x).getH b) = .ok (y, u)) :
    exec (.hcmp d a b) s = .next (((u.setH b y).setX d (boolWord (sameObject x y))).advance 4) := by
  have hval1 : hval a s = .ok (x, t) := by unfold hval; rw [hx]; rfl
  have hval2 : hval b (t.setH a x) = .ok (y, u) := by
    unfold hval
    rw [setH_who, setH_here]
    exact congrArg healed hy
  show execHcmp d a b s = _
  unfold execHcmp
  rw [legal_front h, drained_of_empty h.2.2]
  dsimp only [bind, Except.bind]
  rw [hval1]
  dsimp only
  rw [hval2]
  rfl

end instructions

/-! ### The pins (R71, R183) -/

section pins
variable {s t u v : State} {a : HReg} {d : XReg} {hdr w0 : Word} {hd : Head} {p : State.Reached}

/-- A context's atomic on a header that replaces its word 0. -/
theorem atomic_header {f : Nat → Option Nat} {n : Nat} (hl : t.lane = none) (ha : Claims.refAdmitted t .atomic .device hdr p u)
    (hp : u.poisonedAt p.pa 8 = false) (hf : f (u.mem.num p.pa 8) = some (n % 2 ^ 64)) :
    t.atomic .gleaner .device hdr 8 f = .ok (u.mem.num p.pa 8, false, Claims.written t u p (word n)) := by
  rw [State.atomic_writes ha hp (State.readAt_mem rfl) hf (.inl rfl)]
  unfold Claims.written Claims.writerOf word
  rw [if_pos hl, BitVec.toNat_ofNat]
  rfl

/-- The context's windows are those of a list. -/
def State.withPins (s : State) (l : List PinWin) : State := { s with ctx := { s.ctx with pins := l } }

@[simp] theorem State.withPins_lane (s : State) (l : List PinWin) : (s.withPins l).lane = s.lane := rfl
@[simp] theorem State.withPins_mem (s : State) (l : List PinWin) : (s.withPins l).mem = s.mem := rfl
@[simp] theorem State.withPins_pins (s : State) (l : List PinWin) : (s.withPins l).ctx.pins = l := rfl

variable (h : Claims.onFront s)
include h

/-- A count or a table of windows that is full. -/
theorem exec_hpin_full (hr : refPinned a true s = .ok (hdr, w0, hd, t)) (hfull : 8 ≤ t.ctx.pins.length ∨ headPins w0 = 255) :
    exec (.hpin d a) s = .next (t.takeTrap (.scalar 0x02 hdr)) := by
  have hc : (decide (t.ctx.pins.length < 8) && headPins w0 != 255) ≠ true := by
    simp only [ne_eq, Bool.and_eq_true, decide_eq_true_eq, bne_iff_ne]
    omega
  show execHpin d a s = _
  unfold execHpin
  rw [legal_front h, drained_of_empty h.2.2]
  dsimp only [bind, Except.bind]
  rw [hr]
  dsimp only
  rw [check_fails hc]
  rfl

/-- hpin whose checks pass: the count is one higher, and the object's window is open. -/
theorem exec_hpin (hr : refPinned a true s = .ok (hdr, w0, hd, t)) (hroom : t.ctx.pins.length < 8) (hcount : headPins w0 ≠ 255)
    (ha : Claims.refAdmitted t .atomic .device hdr p u) (hp : u.poisonedAt p.pa 8 = false) :
    let z := Claims.written t u p (word (u.mem.num p.pa 8 + 2 ^ 54))
    exec (.hpin d a) s = .next (((z.withPins (z.ctx.pins ++ [{ header := hdr, size := 16 * hd.size }])).setX d hdr).advance 4) := by
  have hat := atomic_header (f := fun o => some ((o + 2 ^ 54) % 2 ^ 64)) ((refPinned_lane hr).trans h.1) ha hp rfl
  show execHpin d a s = _
  unfold execHpin
  rw [legal_front h, drained_of_empty h.2.2]
  dsimp only [bind, Except.bind]
  rw [hr]
  dsimp only
  rw [check_of (by simp [hroom, hcount]), hat]
  rfl

theorem hpin_next (hr : refPinned a true s = .ok (hdr, w0, hd, t)) (hroom : t.ctx.pins.length < 8) (hcount : headPins w0 ≠ 255)
    (ha : Claims.refAdmitted t .atomic .device hdr p u) (hp : u.poisonedAt p.pa 8 = false) :
    ∃ z, exec (.hpin d a) s = .next z ∧ z.ctx.getX d = (if d = 0 then 0 else hdr) ∧
      z.ctx.pins = u.ctx.pins ++ [{ header := hdr, size := 16 * hd.size }] ∧
      (u.mem.wf = true → z.mem.num p.pa 8 = (u.mem.num p.pa 8 + 2 ^ 54) % 2 ^ 64) := by
  have hk := State.kept_access ha
  have hl : t.lane = none := (refPinned_lane hr).trans h.1
  refine ⟨_, exec_hpin h hr hroom hcount ha hp, ?_⟩
  generalize hz : Claims.written t u p _ = z
  have hpins : z.ctx.pins = u.ctx.pins := by rw [← hz, written_ctx hl hk.ctx, hk.ctx]
  generalize hq : z.withPins _ = q
  have hql : q.lane = none := by rw [← hq, State.withPins_lane, ← hz, written_lane, hk.lane, hl]
  rw [State.advance_ctx ((State.setX_lane _ _ _).trans hql), State.setX_ctx hql, State.advance_mem, State.setX_mem]
  refine ⟨(Ctx.getX_setX _ d d hdr).trans ?_, ?_, fun hw => ?_⟩
  · rw [if_pos rfl]
  · dsimp only
    rw [Ctx.setX_pins, ← hq, State.withPins_pins, hpins]
  · rw [← hq, State.withPins_mem, ← hz]
    exact (written_num hw p _).trans (BitVec.toNat_ofNat _ _)

/-- hunpin without a window of the object. -/
theorem exec_hunpin_none (h0 : release (some .device) s = .ok t) (hr : refPinned a false t = .ok (hdr, w0, hd, u))
    (hnone : ∀ p ∈ u.ctx.pins, p.header ≠ hdr) : exec (.hunpin a) s = .next (u.takeTrap (.scalar 0x02 hdr)) := by
  have hfind : u.ctx.pins.find? (fun p => p.header == hdr) = none := List.find?_eq_none.2 fun p hp => by simpa using hnone p hp
  show execHunpin a s = _
  unfold execHunpin
  rw [legal_front h, drained_of_empty h.2.2]
  dsimp only [bind, Except.bind]
  rw [h0]
  dsimp only
  rw [hr]
  dsimp only
  rw [hfind]
  rfl

/-- hunpin of an object with a window: the window goes, and the count is one lower. -/
theorem hunpin_next {k : PinWin} (h0 : release (some .device) s = .ok t) (hr : refPinned a false t = .ok (hdr, w0, hd, u))
    (hk : u.ctx.pins.find? (fun k => k.header == hdr) = some k) (hcount : headPins w0 ≠ 0)
    (ha : Claims.refAdmitted u .atomic .device hdr p v) (hp : v.poisonedAt p.pa 8 = false) :
    ∃ z, exec (.hunpin a) s = .next z ∧ z.ctx.pins = v.ctx.pins.erase k ∧
      (v.mem.wf = true → z.mem.num p.pa 8 = (v.mem.num p.pa 8 + 2 ^ 64 - 2 ^ 54) % 2 ^ 64) := by
  have hka := State.kept_access ha
  have hl : u.lane = none := (refPinned_lane hr).trans ((kept_release h0).lane.trans h.1)
  have hat := atomic_header (f := fun o => if headPins w0 = 0 then none else some ((o + 2 ^ 64 - 2 ^ 54) % 2 ^ 64)) hl ha hp (if_neg hcount)
  generalize hz : Claims.written u v p _ = z at hat
  have hpins : z.ctx.pins = v.ctx.pins := by rw [← hz, written_ctx hl hka.ctx, hka.ctx]
  have hx : exec (.hunpin a) s = .next ((z.withPins (z.ctx.pins.erase k)).advance 4) := by
    show execHunpin a s = _
    unfold execHunpin
    rw [legal_front h, drained_of_empty h.2.2]
    dsimp only [bind, Except.bind]
    rw [h0]
    dsimp only
    rw [hr]
    dsimp only
    rw [hk]
    dsimp only
    rw [hat]
    rfl
  generalize hq : z.withPins _ = q at hx
  have hql : q.lane = none := by rw [← hq, State.withPins_lane, ← hz, written_lane, hka.lane, hl]
  refine ⟨_, hx, ?_, fun hw => ?_⟩
  · rw [State.advance_ctx hql, ← hq]
    dsimp only
    rw [State.withPins_pins, hpins]
  · rw [State.advance_mem, ← hq, State.withPins_mem, ← hz]
    exact (written_num hw p _).trans (BitVec.toNat_ofNat _ _)

end pins

/-! ### References that are made (R184) -/

section make
variable {s t u v : State} {a b : HReg} {d e : XReg} (h : Claims.onFront s)
include h

theorem exec_hmake_misaligned (hx : (s.getX d).toNat % 16 ≠ 0) : exec (.hmake a d) s = .next (s.takeTrap (.scalar 0x02 (s.getX d))) := by
  show execHmake a d s = _
  unfold execHmake
  rw [legal_front h, drained_of_empty h.2.2]
  dsimp only [bind, Except.bind]
  rw [check_fails (by simpa using hx)]
  rfl

/-- hmake where no cycle is active: a reference of the region's phase. -/
theorem exec_hmake {tl : Tlb} {w0 d0 : Word} {hd : Head} (hx : (s.getX d).toNat % 16 = 0) (ha : refAdmits .load .strand (s.getX d) s = .ok (tl, t))
    (hh : refHead (s.getX d) t = .ok (w0, some hd, u))
    (hd0 : u.descWord u.ctx.who u.here (regionBase (s.getX d)) (regionBase (s.getX d)) = .ok (d0, v)) (hact : d0.getLsbD 61 = false) :
    exec (.hmake a d) s = .next ((v.setH a (mkRef (d0.extractLsb' 62 2).toNat 1 (s.getX d))).advance 4) := by
  show execHmake a d s = _
  unfold execHmake
  rw [legal_front h, drained_of_empty h.2.2]
  dsimp only [bind, Except.bind]
  rw [check_of (by simpa using hx), ha]
  dsimp only
  rw [hh]
  dsimp only
  rw [check_of (b := (some hd).isSome) rfl, hd0]
  dsimp only [healed]
  unfold bitAt
  rw [hact, ← bits_eq_extract d0 63 62]
  rfl

/-- hmake.i checks its offset against the object. -/
theorem exec_hmakeI {base : Word} {tl : Tlb} {w0 : Word} {hd : Head} (hb : refBase b s = .ok (base, t))
    (ha : refAdmits .load .strand (refAddr base) t = .ok (tl, u)) (hh : refHead (refAddr base) u = .ok (w0, some hd, v)) :
    exec (.hmakeI a b e) s =
      if (s.getX e).toNat % 16 = 0 ∧ 16 ≤ (s.getX e).toNat ∧ (s.getX e).toNat < 16 * hd.size
      then .next ((v.setH a (mkRef (refPhase base) 2 (refAddr base + s.getX e))).advance 4)
      else .next (v.takeTrap (.scalar 0x02 (s.getX e))) := by
  show execHmakeI a b e s = _
  unfold execHmakeI
  rw [legal_front h, drained_of_empty h.2.2]
  dsimp only [bind, Except.bind]
  rw [hb]
  dsimp only
  rw [ha]
  dsimp only
  rw [hh]
  dsimp only
  by_cases hoff : (s.getX e).toNat % 16 = 0 ∧ 16 ≤ (s.getX e).toNat ∧ (s.getX e).toNat < 16 * hd.size
  · rw [if_pos hoff, check_of (by simpa [and_assoc] using hoff)]
    rfl
  · rw [if_neg hoff, check_fails (by simpa [and_assoc] using hoff)]
    rfl

end make
end Sys2Proof.Machine

section
open Sys2Proof.Machine

/-- Settles O28: the checks of the pins leave the executing agent what it is (`refPinned_lane`), and their atomic writes the header's word where it
arrives. -/
theorem identityAndPins : Obligations.IdentityAndPins := by
  intro s t u v a b d e hs
  refine ⟨fun x y hx hy _ => ?_, fun hdr w0 hd hr => ⟨fun hroom hcount p ha hp => hpin_next hs hr hroom hcount ha hp, exec_hpin_full hs hr⟩,
    fun hdr w0 hd h0 hr => ⟨fun p hk hcount q ha hp => hunpin_next hs h0 hr hk hcount ha hp, exec_hunpin_none hs h0 hr⟩,
    exec_hmake_misaligned hs, fun tl w0 hd d0 => exec_hmake hs, fun base tl w0 hd hb ha hh => ?_⟩
  · rw [exec_hcmp hs hx hy, ← sameObject_iff]
    exact ⟨fun h => by rw [h]; rfl, fun h => by rw [Bool.not_eq_true] at h; rw [h]; rfl⟩
  · rw [exec_hmakeI hs hb ha hh]
    exact ⟨fun h16 hlow hhigh => if_pos ⟨h16, hlow, hhigh⟩, fun hbad => if_neg (by omega)⟩

end

/-! ## Steps of a relocation cycle (R67-R69, R370, O35) -/

namespace Sys2Proof.Machine

/-- The cycle that a step of the Gleaner is for. -/
theorem argGlean_of {s : State} {g : Glean} (ha : s.arg = .op g.id) (hg : s.gleans.find? (fun k => k.id == g.id) = some g) : s.argGlean = some g := by
  unfold State.argGlean
  rw [ha]
  exact hg

theorem orFail_ok {α : Type} (g : Glean) (hdr : Word) (a : α) (k : α → GObj) : orFail g hdr (.ok a) k = k a := rfl

/-! ### One object (R68) -/

section object
variable {s : State} {g : Glean} (ha : s.arg = .op g.id) (hg : s.gleans.find? (fun k => k.id == g.id) = some g) (hf : s.cpFrozen g.die = false)
  (hs : g.step = .copy) {hdr : Word} {rest : List Word} (ht : g.todo = hdr :: rest)
include ha hg hf hs ht

/-- GLEANER_OBJECT_COPY takes the next live object, and asks for the next step of the cycle. -/
theorem exec_objectCopy {u : State} {g' : Glean} (hc : copyObject s { g with todo := rest } hdr = .ok (u, g')) :
    exec .gleanerObjectCopy s = .next (if g'.todo = [] then (u.modGlean g.id (fun _ => g')).post .gleanerCycle (.op g.id)
      else (u.modGlean g.id (fun _ => g')).post .gleanerObjectCopy (.op g.id)) := by
  show execGleanerObjectCopy s = _
  unfold execGleanerObjectCopy
  rw [argGlean_of ha hg]
  rw [hs] at hc
  dsimp only
  rw [hs, ht]
  dsimp only
  rw [hf, hc]
  simp

end object

section copy
variable {s s1 s3 : State} {g : Glean} {hdr w0 : Word} {hd : Head}
  (hw : s.gleanLoad g hdr 0 = .ok (w0, s1)) (hh : s1.headOf g.who none hdr w0 = .ok (some hd, s3))
include hw hh

/-- A pinned object and one that is not in the stable state stay in place. -/
theorem copyObject_stays (hp : headPins w0 ≠ 0 ∨ headState w0 ≠ 0) : copyObject s g hdr = keepObject s3 g hdr := by
  unfold copyObject
  rw [hw, orFail_ok]
  dsimp only
  rw [hh]
  exact if_pos (by simpa using hp)

/-- Any other well-formed object moves. -/
theorem copyObject_moves {s4 : State} {pa : Nat} (hp : headPins w0 = 0) (hst : headState w0 = 0)
    (ha : s3.unitCheck g.who .atomic .device 8 hdr 8 = .ok (pa, s4)) : copyObject s g hdr = moveObject s4 g hdr w0 (16 * hd.size) := by
  unfold copyObject
  rw [hw, orFail_ok]
  dsimp only
  rw [hh]
  dsimp only
  rw [if_neg (by simp [hp, hst]), ha]
  rfl

end copy

/-- Steps 3 to 5 of R68 where nothing fails: the copy, the entry, the old header. -/
theorem moveObject_ok {s s5 s6 s7 s8 : State} {g : Glean} {hdr w0 : Word} {n off : Nat} {ps : List Nat} {src room : List (Nat × Nat)}
    (hr : roomFor n g.toParcels g.toOff = some (ps, off)) (hsrc : s.gleanRange g .load hdr n 0 = .ok (src, s5))
    (hm : ∀ m ∈ s5.markBytes src, m = false)
    (hroom : s5.gleanRange g .store (g.base + word (ps.headD 0 * 2 ^ 21 + off)) n 1 = .ok (room, s6))
    (hi : installFwd (s6.writePieces none room (leBytes 8 (w0 &&& 0x003FFFFFFFFFFFFF).toNat ++ (s6.readPieces src).drop 8))
      { g with toParcels := ps, toOff := off + n } hdr (g.base + word (ps.headD 0 * 2 ^ 21 + off)) = .ok (some s7))
    (hw : s7.gleanStore { g with toParcels := ps, toOff := off + n } .store hdr (w0 ||| 0x8000000000000000) 0 = .ok s8) :
    moveObject s g hdr w0 n = .ok (s8.countDie g.die g.lease g.sub 0x23 1, { g with toParcels := ps, toOff := off + n }) := by
  have hmark : (s5.markBytes src).findIdx? id = none := List.findIdx?_eq_none_iff.2 hm
  unfold moveObject
  rw [hr]
  dsimp only
  rw [hsrc, orFail_ok]
  dsimp only
  rw [hmark]
  dsimp only
  rw [hroom]
  dsimp only
  rw [hi, orFail_ok]
  dsimp only
  rw [hw, orFail_ok]

theorem objectMoves : Claims.ObjectMoves := by
  intro s s1 s3 s4 s5 s6 s7 s8 g hdr w0 rest hd pa off ps src room ha hg hf hs ht
  dsimp only
  intro hw hh hp hst hat hr hsrc hm hroom hi hstore
  have hc := (copyObject_moves hw hh hp hst hat).trans (moveObject_ok hr hsrc hm hroom hi hstore)
  exact exec_objectCopy ha hg hf hs ht hc

/-! ### The steps of a cycle (R67) -/

theorem cycleSteps : Claims.CycleSteps := by
  intro s g ha hg hf
  have hx : exec .gleanerCycle s = execGleanerCycle s := rfl
  unfold execGleanerCycle at hx
  rw [argGlean_of ha hg] at hx
  dsimp only at hx
  rw [hf, Bool.false_and, if_neg Bool.false_ne_true] at hx
  refine ⟨fun hdr rest u g' hs ht hc => exec_objectCopy ha hg hf hs ht hc, fun hdr w0 u v h hw hh hp => copyObject_stays hw hh hp,
    fun hs ht => ?_, fun ps u hs ht hp => ?_, fun p rest u hs ht hp => ?_, fun hs ht => ?_, fun hs hk ho => ?_, fun hs => ?_⟩
  all_goals
    rw [hs] at hx
    refine hx.trans ?_
  · exact if_pos (by simpa using ht)
  · dsimp only
    rw [ht, hp]
    rfl
  · dsimp only
    rw [ht]
    dsimp only
    rw [hp]
    rfl
  · dsimp only
    rw [ht]
  · have hnone : s.ctxs.filter g.healsCtx = [] := List.filter_eq_nil_iff.2 fun k hm => by simp [hk k hm]
    dsimp only
    rw [hnone]
    exact if_neg (by simpa using ho)
  · rfl

/-! ### The steps go on (R370) -/

theorem gleanerGoesOn : Claims.GleanerGoesOn := by
  intro s
  constructor
  · show ∃ t, execGleanerCycle s = .next t
    unfold execGleanerCycle
    split
    · exact ⟨_, rfl⟩
    · next g _ =>
      dsimp only
      split
      · exact ⟨_, rfl⟩
      · cases g.step with
        | done => exact ⟨_, rfl⟩
        | copy =>
          dsimp only
          split
          · exact ⟨_, rfl⟩
          · split <;> exact ⟨_, rfl⟩
        | fixup =>
          dsimp only
          split
          · exact ⟨_, rfl⟩
          · split <;> exact ⟨_, rfl⟩
        | heal =>
          dsimp only
          split
          · exact ⟨_, rfl⟩
          · exact ⟨_, rfl⟩
          · split <;> exact ⟨_, rfl⟩
  · show ∃ t, execGleanerObjectCopy s = .next t
    unfold execGleanerObjectCopy
    split
    · exact ⟨_, rfl⟩
    · split
      · split
        · exact ⟨_, rfl⟩
        · split <;> exact ⟨_, rfl⟩
      · exact ⟨_, rfl⟩

end Sys2Proof.Machine

/-- Settles O35: the cases of the two steps' definitions; an object's move is `copyObject` followed through steps 2 to 5 of R68. -/
theorem relocationSteps : Obligations.RelocationSteps :=
  ⟨Sys2Proof.Machine.cycleSteps, Sys2Proof.Machine.objectMoves, Sys2Proof.Machine.gleanerGoesOn⟩

/-! ## hglean and hglean.free (R62, R64, R67, R264, O34) -/

namespace Sys2Proof.Machine

/-! ### Translation and the next identifier

hglean gives its cycle an identifier before it translates the lines that the cycle takes, and the claim reads them in the state before.
No translation reads or changes the next identifier: one lemma for each operation on its way. -/

namespace State

/-- The state with another next identifier. -/
def numbered (s : State) (n : Nat) : State := { s with nextId := n }

variable (s : State) (n : Nat)

@[simp] theorem numbered_die (d : BitVec 2) : (s.numbered n).die d = s.die d := rfl
@[simp] theorem numbered_core (k : Nat) : (s.numbered n).core k = s.core k := rfl
@[simp] theorem numbered_cores : (s.numbered n).cores = s.cores := rfl
@[simp] theorem numbered_mem : (s.numbered n).mem = s.mem := rfl
@[simp] theorem numbered_cachedCopy (line : Nat) : (s.numbered n).cachedCopy line = s.cachedCopy line := rfl
@[simp] theorem numbered_l2Find (d : BitVec 2) (line : Nat) : (s.numbered n).l2Find d line = s.l2Find d line := rfl
@[simp] theorem numbered_groupFor (w : Who) (line : Nat) : (s.numbered n).groupFor w line = s.groupFor w line := rfl
@[simp] theorem numbered_poisonedAt (pa k : Nat) : (s.numbered n).poisonedAt pa k = s.poisonedAt pa k := rfl
@[simp] theorem numbered_ownedLine (line : Nat) (write : Bool) : (s.numbered n).ownedLine line write = s.ownedLine line write := rfl
@[simp] theorem numbered_lease? (l : Byte) : (s.numbered n).lease? l = s.lease? l := rfl
@[simp] theorem numbered_sub? (l b : Byte) : (s.numbered n).sub? l b = s.sub? l b := rfl
@[simp] theorem numbered_tlbFind (w : Who) (va : Word) : (s.numbered n).tlbFind w va = s.tlbFind w va := rfl

@[simp] theorem numbered_setCore (k : Nat) (c : Core) : (s.numbered n).setCore k c = (s.setCore k c).numbered n := rfl
@[simp] theorem numbered_modCore (k : Nat) (f : Core → Core) : (s.numbered n).modCore k f = (s.modCore k f).numbered n := rfl
@[simp] theorem numbered_post (i : Instr) (a : EventArg) : (s.numbered n).post i a = (s.post i a).numbered n := rfl
@[simp] theorem numbered_modDie (d : BitVec 2) (f : Die → Die) : (s.numbered n).modDie d f = (s.modDie d f).numbered n := rfl
@[simp] theorem numbered_free : (s.numbered n).free = (s.free.1, s.free.2.numbered n) := rfl
@[simp] theorem numbered_dramWrite (line : Nat) : (s.numbered n).dramWrite line = (s.dramWrite line).numbered n := rfl
@[simp] theorem numbered_l2Mod (d : BitVec 2) (y : L2Way) (f : L2Way → L2Way) : (s.numbered n).l2Mod d y f = (s.l2Mod d y f).numbered n := rfl
@[simp] theorem numbered_postContain (d : BitVec 2) (x : L2Way) (line : Nat) : (s.numbered n).postContain d x line = (s.postContain d x line).numbered n := rfl

theorem numbered_foldl {α : Type} {f : State → α → State} (step : ∀ s a, f (numbered s n) a = numbered (f s a) n) (l : List α) :
    ∀ s : State, l.foldl f (s.numbered n) = (l.foldl f s).numbered n := by
  induction l with
  | nil => exact fun _ => rfl
  | cons a l ih => exact fun s => (congrArg (l.foldl f) (step s a)).trans (ih _)

@[simp] theorem numbered_walks : (s.numbered n).walks = s.walks := rfl
@[simp] theorem numbered_tlb : (s.numbered n).tlb = s.tlb := rfl
@[simp] theorem numbered_dramErr : (s.numbered n).dramErr = s.dramErr := rfl
@[simp] theorem numbered_latent : (s.numbered n).latent = s.latent := rfl

@[simp] theorem numbered_dramScan (line : Nat) : (s.numbered n).dramScan line = (s.dramScan line).numbered n := by
  unfold dramScan
  rw [numbered_dramErr]
  cases lookupN line s.dramErr <;> rfl

@[simp] theorem numbered_dramRead (line : Nat) : (s.numbered n).dramRead line = (s.dramRead line).numbered n := by
  unfold dramRead
  rw [numbered_cachedCopy, numbered_dramScan]
  cases s.cachedCopy line with
  | true => rfl
  | false =>
    dsimp only
    rw [numbered_latent]
    cases lookupN line (s.dramScan line).latent <;> rfl

theorem numbered_ite {c : Prop} {_ : Decidable c} (a b : State) : (if c then a.numbered n else b.numbered n) = (if c then a else b).numbered n :=
  (apply_ite (fun t => numbered t n) c a b).symm

@[simp] theorem numbered_countDie (d : BitVec 2) (l b : Byte) (e k : Nat) : (s.numbered n).countDie d l b e k = (s.countDie d l b e k).numbered n := by
  unfold countDie
  dsimp only
  rw [numbered_die]
  split <;> rfl

@[simp] theorem numbered_dramBytes (line : Nat) (l b : Byte) (k : Nat) : (s.numbered n).dramBytes line l b k = (s.dramBytes line l b k).numbered n := by
  unfold dramBytes
  rw [numbered_countDie, numbered_ite]

@[simp] theorem numbered_l2WriteBack (d : BitVec 2) (x : L2Way) : (s.numbered n).l2WriteBack d x = (s.l2WriteBack d x).numbered n := by
  unfold l2WriteBack
  rw [numbered_die]
  dsimp only
  refine numbered_foldl n (fun s i => ?_) _ s
  rw [numbered_dramWrite, numbered_dramBytes, numbered_ite]

@[simp] theorem numbered_l2Victim (d : BitVec 2) (slice set group : Nat) : (s.numbered n).l2Victim d slice set group =
    match s.l2Victim d slice set group with
    | .ok (w, t) => .ok (w, t.numbered n)
    | .error t => .error (t.numbered n) := by
  unfold l2Victim
  simp only [numbered_die, numbered_free, numbered_l2WriteBack, numbered_modDie, numbered_post]
  split
  · rfl
  · split
    · rfl
    · split
      · rfl
      · split <;> rfl

@[simp] theorem numbered_l2Touch (d : BitVec 2) (g : Option Nat) (line : Nat) (write whole : Bool) :
    (s.numbered n).l2Touch d g line write whole = (s.l2Touch d g line write whole).numbered n := by
  unfold l2Touch
  rw [numbered_l2Find]
  cases s.l2Find d line with
  | some y =>
    dsimp only
    rw [numbered_l2Mod, numbered_ite]
  | none =>
    dsimp only
    rw [numbered_dramWrite, numbered_dramRead, numbered_ite]
    generalize (if (write && whole) = true then s.dramWrite line else s.dramRead line) = t
    cases g with
    | none => rfl
    | some g =>
      dsimp only
      rw [numbered_die, numbered_post, numbered_ite]
      generalize (if (bitAt (t.die d).errinj 63 && bits (t.die d).errinj 62 60 == 0 && bits (t.die d).errinj 47 7 == line) = true
        then t.post .errinjPerform (.die d) else t) = u
      rw [numbered_die]
      cases (u.die d).l2.find? (fun x => x.holds (line / 4) && x.way / 4 == g) with
      | some y => rfl
      | none =>
        dsimp only
        rw [numbered_l2Victim]
        cases u.l2Victim d (l2Slice (line / 4)) (l2Set (line / 4)) g with
        | error x => rfl
        | ok x => rfl

@[simp] theorem numbered_l2Detect (d : BitVec 2) (line : Nat) :
    (s.numbered n).l2Detect d line = ((s.l2Detect d line).1.numbered n, (s.l2Detect d line).2) := by
  unfold l2Detect
  rw [numbered_l2Find]
  cases s.l2Find d line with
  | none => rfl
  | some x =>
    dsimp only
    split
    · rfl
    · split <;> rfl

theorem numbered_detectLine (w : Who) (line : Nat) : (s.numbered n).detectLine w line =
    match s.detectLine w line with
    | .ok t => .ok (t.numbered n)
    | .error t => .error (t.numbered n) := by
  unfold detectLine
  rw [numbered_l2Detect]
  obtain ⟨t, x⟩ := s.l2Detect (l2Die w line) line
  cases x <;> rfl

@[simp] theorem numbered_writeBack (w : Who) (line : Nat) : (s.numbered n).writeBack w line = (s.writeBack w line).numbered n := by
  unfold writeBack
  dsimp only
  rw [numbered_l2Detect]
  obtain ⟨t, x⟩ := s.l2Detect (l2Die w line) line
  cases x with
  | none =>
    dsimp only
    rw [numbered_groupFor, numbered_l2Find, numbered_dramBytes, numbered_ite, numbered_l2Touch]
  | some x =>
    dsimp only
    rw [numbered_die, numbered_l2Mod, numbered_ite, numbered_postContain]

@[simp] theorem numbered_l2Count (w : Who) (line : Nat) (write whole : Bool) :
    (s.numbered n).l2Count w line write whole = (s.l2Count w line write whole).numbered n := by
  unfold l2Count
  dsimp only
  rw [numbered_l2Find]
  cases s.l2Find (l2Die w line) line with
  | some _ => rfl
  | none =>
    dsimp only
    rw [numbered_groupFor, numbered_countDie, numbered_dramBytes]

@[simp] theorem numbered_recallL1 (w : Who) (k line : Nat) (write : Bool) :
    (s.numbered n).recallL1 w k line write = (s.recallL1 w k line write).numbered n := by
  unfold recallL1
  dsimp only
  rw [numbered_core, numbered_setCore, numbered_writeBack, numbered_ite]

@[simp] theorem numbered_recallStash (w : Who) (k : Nat) (f : Bool) (p : Path) (line : Nat) (write : Bool) :
    (s.numbered n).recallStash w k f p line write = (s.recallStash w k f p line write).numbered n := by
  unfold recallStash
  dsimp only
  rw [numbered_core, numbered_modCore, numbered_writeBack, numbered_ite, numbered_ite]

@[simp] theorem numbered_recallLine (w : Who) (p : Path) (line : Nat) (write : Bool) :
    (s.numbered n).recallLine w p line write = (s.recallLine w p line write).numbered n := by
  unfold recallLine
  rw [numbered_cores]
  refine numbered_foldl n (fun s q => ?_) _ s
  dsimp only
  rw [numbered_recallL1, numbered_ite, numbered_recallStash, numbered_recallStash, numbered_ite]

/-- A unit without an L1 reaches a line. -/
theorem numbered_touch_l2 (w : Who) (line : Nat) (write whole : Bool) (keep : Keep) :
    (s.numbered n).touch w .l2 line write whole keep = (s.touch w .l2 line write whole keep).numbered n := by
  unfold touch
  dsimp only
  rw [numbered_recallLine, numbered_groupFor, numbered_l2Count, numbered_l2Touch, numbered_ite]

@[simp] theorem numbered_walkPut (e : WalkEntry) : (s.numbered n).walkPut e = (s.walkPut e).numbered n := by
  unfold walkPut
  dsimp only
  rw [numbered_walks]
  split <;> rfl

@[simp] theorem numbered_tlbPut (w : Who) (va : Word) (e : Tlb) (p : TlbAt) : (s.numbered n).tlbPut w va e p = (s.tlbPut w va e p).numbered n := by
  unfold tlbPut
  dsimp only
  rw [numbered_tlb]
  split <;> rfl

@[simp] theorem numbered_cacheTlb (w : Who) (va : Word) (e : Tlb) : (s.numbered n).cacheTlb w va e = (s.cacheTlb w va e).numbered n :=
  numbered_foldl n (fun s p => numbered_tlbPut s n w va e p) _ s

@[simp] theorem numbered_refill (w : Who) (va : Word) (e : Tlb) : (s.numbered n).refill w va e = (s.refill w va e).numbered n := by
  unfold refill
  cases tlbPlaces w va with
  | nil => rfl
  | cons p l =>
    dsimp only
    rw [numbered_tlbPut, numbered_ite]

end State

/-! Walks and translations. -/

/-- What an access answers, its state with another next identifier. -/
def ARes.numbered {α : Type} (n : Nat) : ARes (α × State) → ARes (α × State)
  | .ok (a, t) => .ok (a, t.numbered n)
  | .error (.fault t f) => .error (.fault (t.numbered n) f)
  | .error (.wait t) => .error (.wait (t.numbered n))

theorem ARes.numbered_bind {α β : Type} {n : Nat} {x y : ARes (α × State)} {f : α × State → ARes (β × State)} (h : x = y.numbered n)
    (k : ∀ a t, f (a, t.numbered n) = (f (a, t)).numbered n) : (x >>= f) = ARes.numbered n (y >>= f) := by
  subst h
  match y with
  | .ok (a, t) => exact k a t
  | .error (.fault _ _) => rfl
  | .error (.wait _) => rfl

namespace State
variable (s : State) (n : Nat)

theorem numbered_readEntry (w : Who) (pa : Nat) : (s.numbered n).readEntry w pa = (s.readEntry w pa).numbered n := by
  unfold readEntry
  rw [numbered_ownedLine, numbered_detectLine]
  split
  · rfl
  · cases s.detectLine w (pa / 128) with
    | error t => rfl
    | ok t =>
      dsimp only
      rw [numbered_touch_l2, numbered_poisonedAt, numbered_mem]
      rfl

theorem numbered_walk2 (w : Who) (ipa k : Nat) : ∀ (s : State) (table : Nat), (s.numbered n).walk2 w ipa k table = (s.walk2 w ipa k table).numbered n := by
  induction k with
  | zero => exact fun _ _ => rfl
  | succ k ih =>
    intro s table
    rw [walk2, walk2]
    refine ARes.numbered_bind (numbered_readEntry s n w _) fun e t => ?_
    dsimp only
    cases parseEntry true (3 - k) e with
    | bad => rfl
    | ptr _ =>
      dsimp only
      rw [numbered_walkPut]
      exact ih _ _
    | leaf l => rfl

theorem numbered_stage2 (w : Who) (fresh : Bool) (ipa : Nat) : (s.numbered n).stage2 w fresh ipa = (s.stage2 w fresh ipa).numbered n := by
  unfold stage2
  rw [numbered_lease?]
  cases s.lease? w.lease with
  | none => rfl
  | some l => exact numbered_walk2 n w ipa _ s _

theorem numbered_walk1 (w : Who) (fresh : Bool) (va k : Nat) :
    ∀ (s : State) (table : Nat), (s.numbered n).walk1 w fresh va k table = (s.walk1 w fresh va k table).numbered n := by
  induction k with
  | zero => exact fun _ _ => rfl
  | succ k ih =>
    intro s table
    rw [walk1, walk1]
    refine ARes.numbered_bind (numbered_stage2 s n w fresh _) fun l2 t => ?_
    dsimp only
    cases l2.filter (fun l => l.r && l.cls == 0) with
    | none => rfl
    | some l2 =>
      refine ARes.numbered_bind (numbered_readEntry t n w _) fun e u => ?_
      dsimp only
      cases parseEntry false (3 - k) e with
      | bad => rfl
      | ptr _ =>
        dsimp only
        rw [numbered_walkPut]
        exact ih _ _
      | leaf l => rfl

theorem numbered_walkBoth (w : Who) (fresh : Bool) (k : Acc) (va : Word) : (s.numbered n).walkBoth w fresh k va = (s.walkBoth w fresh k va).numbered n := by
  unfold walkBoth
  dsimp only
  rw [numbered_sub?]
  split
  · rfl
  · cases s.sub? w.lease w.sub with
    | none => rfl
    | some b =>
      refine ARes.numbered_bind (numbered_walk1 n w fresh _ _ s _) fun l1 t => ?_
      dsimp only
      cases l1.filter (fun l => k.allowed l.x l.w l.r) with
      | none => rfl
      | some l1 =>
        refine ARes.numbered_bind (numbered_stage2 t n w fresh _) fun l2 u => ?_
        dsimp only
        cases l2.filter (fun l => k.allowed l.x l.w l.r) <;> rfl

theorem numbered_walkFresh (w : Who) (k : Acc) (va : Word) (test : Tlb → Option Nat) :
    (s.numbered n).walkFresh w k va test = (s.walkFresh w k va test).numbered n := by
  unfold walkFresh
  refine ARes.numbered_bind (numbered_walkBoth s n w true k va) fun e t => ?_
  dsimp only
  cases test e with
  | some c => rfl
  | none =>
    dsimp only
    rw [numbered_cacheTlb]
    rfl

theorem numbered_translate (w : Who) (k : Acc) (va : Word) (test : Tlb → Option Nat) :
    (s.numbered n).translate w k va test = (s.translate w k va test).numbered n := by
  unfold translate
  rw [numbered_tlbFind]
  cases s.tlbFind w va with
  | some e =>
    dsimp only
    rw [numbered_refill, numbered_walkFresh]
    split <;> rfl
  | none =>
    dsimp only
    rw [numbered_walkBoth]
    match s.walkBoth w false k va with
    | .ok (e, t) =>
      show (if (test e).isNone = true then _ else _) = _
      rw [numbered_cacheTlb, numbered_walkFresh]
      dsimp only
      split <;> rfl
    | .error (.fault t f) => exact numbered_walkFresh t n w k va test
    | .error (.wait _) => rfl

end State

/-- The lines under a range do not depend on the next identifier. -/
theorem runsOf_numbered (s : State) (n : Nat) (w : Who) (va : Word) (k : Nat) : runsOf (s.numbered n) w va k = runsOf s w va k := by
  unfold runsOf
  refine List.filterMap_congr fun p _ => ?_
  rw [State.numbered_translate]
  match s.translate w .load p.1 (fun _ => none) with
  | .ok (_, _) => rfl
  | .error (.fault _ _) => rfl
  | .error (.wait _) => rfl


/-! ### hglean (R264) -/

open Claims (liveHeaders cycleOf)

/-- A cycle under an identifier. -/
def Glean.named (g : Glean) (id : Nat) : Glean := { g with id := id }

/-- hglean once it has read the bitmap: the count of live objects, the lines that the cycle takes, and the flip (R67, step 1). -/
def startCycle (d : XReg) (base map : Word) (ws : List Word) (ps : List (Nat × Nat)) (t : State) : Res State := do
  let d0 := ws.getD 0 0
  let n := fwdCount (ws.getD 1 0)
  let s := t.consume ((t.markBytes ps).any id)
  let live := liveHeaders t base (parcelsOf (ws.drop 4)) ps
  if n / 2 < live.length then .ok ((s.setX d 1).advance 4)
  else
    let g := (cycleOf (s.numbered (s.nextId + 1)) ws base map live).named s.nextId
    let s := s.numbered (s.nextId + 1)
    let own := g.owns.flatMap (fun r => (List.range r.2).map (fun i => r.1 + i))
    if own.any (fun l => s.ownedLine l true) || s.opBefore g.id s.ctx.core own (State.pieceLines ps) ||
        s.collBefore g.id s.ctx.core (own ++ State.pieceLines ps) then waits s
    else
      let flip : Word := (d0 &&& 0x1FFFFFFFFFFFFFFF) ||| word ((bits d0 63 62 + 1) % 4 * 2 ^ 62 + 2 ^ 61)
      let (s, g) : State × Glean ← match s.gleanStore g .store base flip 2 with
        | .ok s => (.ok (s, g) : Res (State × Glean))
        | .error (.wait s) => waits s
        | .error (.fail s f code) => .ok (s.gleanRecord g f code, { g with stopped := true, todo := [], owns := [], holds := [] })
      .ok (((({ s with gleans := s.gleans ++ [g] } : State).post .gleanerCycle (.op g.id)).setX d 0).advance 4)

/-- hglean once it has checked the descriptor: the bitmap's range and its lines. -/
def readBitmap (d : XReg) (base map : Word) (ws : List Word) (t : State) : Res State := do
  let (ps, s) ← scalarAcc (t.rangeCheck .gleaner .load map (16384 * (parcelsOf (ws.drop 4)).length))
  if s.cpFrozen s.ctx.die || s.gleans.any (fun g => g.base == base && g.lease == s.ctx.lease && g.sub == s.ctx.sub)
      || (State.pieceLines ps).any (fun l => s.ownedLine l false) then waits s
  else match s.detectLines s.ctx.who (State.pieceLines ps) with
    | .error s => waits s
    | .ok s => startCycle d base map ws ps ((State.pieceLines ps).foldl (fun (s : State) l => s.touch s.ctx.who .l2 l false false .no) s)

/-- hglean once it has read the descriptor: Active, and the rules of R62. -/
def openCycle (d : XReg) (base map : Word) (ws : List Word) (t : State) : Res State := do
  let d1 := ws.getD 1 0
  let d2 := ws.getD 2 0
  if bitAt (ws.getD 0 0) 61 then .ok ((t.setX d 2).advance 4)
  else
    let (f1, s) ← scalarAcc (readable t (fwdBase d1) (16 * fwdCount d1))
    let (f2, s) ← scalarAcc (readable s (fwdBase d2) (8 * bits d2 15 0))
    check (decide (bits d1 2 0 < 6) && f1 && f2) s 0x1C base
    readBitmap d base map ws s

section hglean
variable {s t : State} {d a b : XReg} {ws : List Word} (h : Claims.onFront s)
include h

theorem exec_hglean (hb : (s.getX a).toNat % 2 ^ 29 = 0) (hm : (s.getX b).toNat % 128 = 0) (hw : commandWords s (s.getX a) 12 = .ok (ws, t)) :
    exec (.hglean d a b) s = settle (openCycle d (s.getX a) (s.getX b) ws t) := by
  show execHglean d a b s = _
  unfold execHglean
  rw [command_front h]
  dsimp only [bind, Except.bind]
  rw [check_of (decide_eq_true hb), check_of (decide_eq_true hm), hw]
  rfl

theorem exec_hglean_misaligned (hb : (s.getX a).toNat % 2 ^ 29 ≠ 0) : exec (.hglean d a b) s = .next (s.takeTrap (.scalar 0x02 (s.getX a))) := by
  show execHglean d a b s = _
  unfold execHglean
  rw [command_front h]
  dsimp only [bind, Except.bind]
  rw [check_fails (mt of_decide_eq_true hb)]
  rfl

theorem exec_hglean_bitmap (hb : (s.getX a).toNat % 2 ^ 29 = 0) (hm : (s.getX b).toNat % 128 ≠ 0) :
    exec (.hglean d a b) s = .next (s.takeTrap (.scalar 0x04 (s.getX b))) := by
  show execHglean d a b s = _
  unfold execHglean
  rw [command_front h]
  dsimp only [bind, Except.bind]
  rw [check_of (decide_eq_true hb), check_fails (mt of_decide_eq_true hm)]
  rfl

end hglean

section opening
variable {t t1 t2 t3 t4 : State} {d : XReg} {base map : Word} {ws : List Word} {f1 f2 : Bool} {ps : List (Nat × Nat)}

/-- Of a region whose cycle is active nothing else is checked. -/
theorem openCycle_active (ha : (ws.getD 0 0).getLsbD 61 = true) : openCycle d base map ws t = .ok ((t.setX d 2).advance 4) := if_pos ha

variable (ha : (ws.getD 0 0).getLsbD 61 = false) (h1 : readable t (fwdBase (ws.getD 1 0)) (16 * fwdCount (ws.getD 1 0)) = .ok (f1, t1))
  (h2 : readable t1 (fwdBase (ws.getD 2 0)) (8 * ((ws.getD 2 0).extractLsb' 0 16).toNat) = .ok (f2, t2))
include ha h1 h2

/-- The descriptor's checks (R62) after its tables have been read. -/
theorem openCycle_invalid (hbad : 5 < ((ws.getD 1 0).extractLsb' 0 3).toNat ∨ f1 = false ∨ f2 = false) :
    openCycle d base map ws t = .error (.trap t2 (.scalar 0x1C base)) := by
  have hc : ¬ (decide (bits (ws.getD 1 0) 2 0 < 6) && f1 && f2) = true := by
    rw [bits_eq_extract (ws.getD 1 0) 2 0]
    rcases hbad with hs | rfl | rfl
    · rw [decide_eq_false (Nat.not_lt.2 hs)]; exact Bool.false_ne_true
    · simp
    · simp
  unfold openCycle bitAt
  rw [ha, if_neg Bool.false_ne_true, h1]
  dsimp only [scalarAcc, bind, Except.bind]
  rw [bits_eq_extract (ws.getD 2 0) 15 0, h2]
  dsimp only
  rw [check_fails hc]

variable (hn : ((ws.getD 1 0).extractLsb' 0 3).toNat ≤ 5) (hf1 : f1 = true) (hf2 : f2 = true)
include hn hf1 hf2

theorem openCycle_valid : openCycle d base map ws t = readBitmap d base map ws t2 := by
  have hc : (decide (bits (ws.getD 1 0) 2 0 < 6) && f1 && f2) = true := by
    rw [bits_eq_extract (ws.getD 1 0) 2 0, decide_eq_true (Nat.lt_succ_of_le hn), hf1, hf2]
    rfl
  unfold openCycle bitAt
  rw [ha, if_neg Bool.false_ne_true, h1]
  dsimp only [scalarAcc, bind, Except.bind]
  rw [bits_eq_extract (ws.getD 2 0) 15 0, h2]
  dsimp only
  rw [check_of hc]

end opening

section bitmap
variable {t t3 t4 : State} {d : XReg} {base map : Word} {ws : List Word} {ps : List (Nat × Nat)}

theorem readBitmap_fault {x : State} {f : XFault}
    (hr : t.rangeCheck .gleaner .load map (16384 * (parcelsOf (ws.drop 4)).length) = .error (.fault x f)) :
    readBitmap d base map ws t = .error (.trap x (.scalar f.cause f.tval)) := by
  unfold readBitmap
  rw [hr]
  rfl

/-- What hglean waits for: the die's Gleaner, an older cycle of the region, a unit that owns a line of the bitmap. -/
theorem stuck_iff (s : State) (base : Word) (lines : List Nat) :
    (s.cpFrozen s.ctx.die || s.gleans.any (fun g => g.base == base && g.lease == s.ctx.lease && g.sub == s.ctx.sub)
        || lines.any (fun l => s.ownedLine l false)) = true ↔
      s.cpFrozen s.ctx.die = true ∨ (∃ g ∈ s.gleans, g.base = base ∧ g.lease = s.ctx.lease ∧ g.sub = s.ctx.sub) ∨
        ∃ l ∈ lines, s.ownedLine l false = true := by
  simp only [Bool.or_eq_true, List.any_eq_true, Bool.and_eq_true, beq_iff_eq, or_assoc, and_assoc]

variable (hr : t.rangeCheck .gleaner .load map (16384 * (parcelsOf (ws.drop 4)).length) = .ok (ps, t3))
include hr

theorem readBitmap_stuck (hs : t3.cpFrozen t3.ctx.die = true ∨ (∃ g ∈ t3.gleans, g.base = base ∧ g.lease = t3.ctx.lease ∧ g.sub = t3.ctx.sub) ∨
    ∃ l ∈ State.pieceLines ps, t3.ownedLine l false = true) : readBitmap d base map ws t = .error (.wait t3) := by
  unfold readBitmap
  rw [hr]
  exact if_pos ((stuck_iff _ _ _).2 hs)

theorem readBitmap_free (hs : ¬ (t3.cpFrozen t3.ctx.die = true ∨ (∃ g ∈ t3.gleans, g.base = base ∧ g.lease = t3.ctx.lease ∧ g.sub = t3.ctx.sub) ∨
    ∃ l ∈ State.pieceLines ps, t3.ownedLine l false = true)) (hd : t3.detectLines t3.ctx.who (State.pieceLines ps) = .ok t4) :
    readBitmap d base map ws t =
      startCycle d base map ws ps ((State.pieceLines ps).foldl (fun (s : State) l => s.touch s.ctx.who .l2 l false false .no) t4) := by
  unfold readBitmap
  rw [hr]
  refine (if_neg (mt (stuck_iff _ _ _).1 hs)).trans ?_
  rw [hd]

end bitmap

/-- The lines that a cycle takes do not depend on the next identifier. -/
theorem cycleOf_numbered (s : State) (n : Nat) (ws : List Word) (base map : Word) (live : List Word) :
    (cycleOf (s.numbered n) ws base map live).named s.nextId = cycleOf s ws base map live := by
  unfold Glean.named cycleOf
  dsimp only
  rw [runsOf_numbered, runsOf_numbered, runsOf_numbered]
  rfl

/-- Word 0 of the descriptor after the flip (R67): the next phase, and Active. -/
def flipped (d0 : Word) : Word :=
  (d0 &&& 0x1FFFFFFFFFFFFFFF) ||| BitVec.ofNat 64 (((d0.extractLsb' 62 2).toNat + 1) % 4 * 2 ^ 62 + 2 ^ 61)

theorem flipped_active (d0 : Word) : (flipped d0).getLsbD 61 = true := by
  have hp : ∀ p, p < 4 → (BitVec.ofNat 64 (p * 2 ^ 62 + 2 ^ 61)).getLsbD 61 = true := by decide
  exact getLsbD_or_right _ _ (hp _ (Nat.mod_lt _ (by decide)))

theorem flipped_phase (d0 : Word) : ((flipped d0).extractLsb' 62 2).toNat = ((d0.extractLsb' 62 2).toNat + 1) % 4 := by
  have hp : ∀ p, p < 4 → ((BitVec.ofNat 64 (p * 2 ^ 62 + 2 ^ 61)).extractLsb' 62 2).toNat = p := by decide
  have hm : (0x1FFFFFFFFFFFFFFF : Word).extractLsb' 62 2 = 0#2 := by decide
  unfold flipped
  rw [BitVec.extractLsb'_or, BitVec.extractLsb'_and, hm, BitVec.and_zero, BitVec.zero_or]
  exact hp _ (Nat.mod_lt _ (by decide))

theorem flipped_rest (d0 : Word) : (flipped d0).extractLsb' 0 61 = d0.extractLsb' 0 61 := by
  have hp : ∀ p, p < 4 → (BitVec.ofNat 64 (p * 2 ^ 62 + 2 ^ 61)).extractLsb' 0 61 = 0#61 := by decide
  have hm : (0x1FFFFFFFFFFFFFFF : Word).extractLsb' 0 61 = BitVec.allOnes 61 := by decide
  unfold flipped
  rw [BitVec.extractLsb'_or, BitVec.extractLsb'_and, hm, BitVec.and_allOnes, hp _ (Nat.mod_lt _ (by decide)), BitVec.or_zero]

section start
variable {t u : State} {d : XReg} {base map : Word} {ws : List Word} {ps : List (Nat × Nat)}

theorem startCycle_refused (hl : fwdCount (ws.getD 1 0) / 2 < (liveHeaders t base (parcelsOf (ws.drop 4)) ps).length) :
    startCycle d base map ws ps t = .ok (((t.consume ((t.markBytes ps).any id)).setX d 1).advance 4) := if_pos hl

/-- The lines of a cycle's runs. -/
def ownLines (g : Glean) : List Nat := g.owns.flatMap (fun r => (List.range r.2).map (fun i => r.1 + i))

theorem startCycle_starts {live : List Word} {t6 : State} {g : Glean} (hlive : liveHeaders t base (parcelsOf (ws.drop 4)) ps = live)
    (h6 : t.consume ((t.markBytes ps).any id) = t6) (hg : cycleOf t6 ws base map live = g) (hl : live.length ≤ fwdCount (ws.getD 1 0) / 2)
    (hown : ∀ l ∈ ownLines g, (t6.numbered (t6.nextId + 1)).ownedLine l true = false)
    (hop : (t6.numbered (t6.nextId + 1)).opBefore g.id (t6.numbered (t6.nextId + 1)).ctx.core (ownLines g) (State.pieceLines ps) = false)
    (hcoll : (t6.numbered (t6.nextId + 1)).collBefore g.id (t6.numbered (t6.nextId + 1)).ctx.core (ownLines g ++ State.pieceLines ps) = false)
    (hst : (t6.numbered (t6.nextId + 1)).gleanStore g .store base (flipped (ws.getD 0 0)) 2 = .ok u) :
    startCycle d base map ws ps t = .ok (((({ u with gleans := u.gleans ++ [g] } : State).post .gleanerCycle (.op g.id)).setX d 0).advance 4) := by
  have hfree : (ownLines g).any (fun l => (t6.numbered (t6.nextId + 1)).ownedLine l true) = false :=
    List.any_eq_false.2 fun l hm => Bool.eq_false_iff.1 (hown l hm)
  unfold ownLines at hfree hop hcoll
  unfold flipped at hst
  unfold startCycle word
  rw [h6, hlive]
  dsimp only
  rw [if_neg (Nat.not_lt.2 hl), cycleOf_numbered, hg, hfree, hop, hcoll, bits_eq_extract (ws.getD 0 0) 63 62]
  rw [hst]
  rfl

end start
/-! ### Bytes outside a write -/

section sparse
variable {α : Type} {d : α} {k : Nat}

/-- Entries below a key are passed over. -/
theorem sget_append_below {l : List (Nat × α)} (h : ∀ c ∈ l, c.1 < k) (r : List (Nat × α)) : sget d (l ++ r) k = sget d r k := by
  induction l with
  | nil => rfl
  | cons c l ih =>
    have hc := h c List.mem_cons_self
    rw [List.cons_append, sget, if_neg (by omega), if_neg (by omega)]
    exact ih fun c hm => h c (List.mem_cons_of_mem _ hm)

/-- A search ends at the first entry past its key. -/
theorem sget_above {l : List (Nat × α)} (h : ∀ c ∈ l.head?, k < c.1) : sget d l k = d := by
  cases l with
  | nil => rfl
  | cons c l =>
    have hc : k < c.1 := h c rfl
    rw [sget, if_neg (by omega), if_pos hc]

/-- What stands from an address on does not matter below it, if nothing is found there. -/
theorem sget_takeWhile {a : Nat} (hk : k < a) {r : List (Nat × α)} (hr : sget d r k = d) (m : List (Nat × α)) :
    sget d (m.takeWhile (fun c => decide (c.1 < a)) ++ r) k = sget d m k := by
  induction m with
  | nil => exact hr
  | cons c m ih =>
    by_cases hc : c.1 < a
    · rw [List.takeWhile_cons, if_pos (decide_eq_true hc), List.cons_append, sget, sget, ih]
    · rw [List.takeWhile_cons, if_neg (mt of_decide_eq_true hc), List.nil_append, hr, sget, if_neg (by omega), if_pos (by omega)]

end sparse

/-- A write leaves the bytes outside its range, whatever form memory has. -/
theorem Memory.byte_outside (m : Memory) {a x : Nat} {bs : List Byte} (h : x < a ∨ a + bs.length ≤ x) : (m.setBytes a bs).byte x = m.byte x := by
  have hcells : ∀ c ∈ cellsOf a bs, a ≤ c.1 ∧ c.1 < a + bs.length := fun c hc => by
    obtain ⟨hlow, hget, _⟩ := mem_cellsOf.1 hc
    have := (List.getElem?_eq_some_iff.1 hget).1
    omega
  unfold setBytes byte
  rcases h with h | h
  · refine sget_takeWhile h (sget_above fun c hc => ?_) m
    rw [List.head?_append, Option.mem_def, Option.or_eq_some_iff] at hc
    rcases hc with hc | ⟨_, hc⟩
    · exact h.trans_le (hcells c (List.mem_of_head? hc)).1
    · have := List.head?_dropWhile_not (fun c : Host.Cell => decide (c.1 < a + bs.length)) m
      rw [hc] at this
      simp at this
      omega
  · rw [sget_append_below (fun c hc => ?_), sget_append_below (fun c hc => (hcells c hc).2.trans_le h)]
    · conv => rhs; rw [← List.takeWhile_append_dropWhile (p := fun c : Host.Cell => decide (c.1 < a + bs.length)) (l := m)]
      refine (sget_append_below (fun c hc => ?_) _).symm
      have := List.mem_takeWhile_imp hc
      simp at this
      omega
    · have := List.mem_takeWhile_imp hc
      simp at this
      omega

/-! ### Memory until the flip -/

theorem commandWord_mem (s : State) (va : Word) : Ends (fun x => x.2.mem = s.mem) (fun _ => True) (commandWord s va) := by
  unfold commandWord
  refine ((Kept.refl s).ends (State.kept_checked s _ _ _ _ _ _ _ _)).of_scalarAcc.bind fun ⟨e, t⟩ ht => .ite trivial ?_
  cases hd : t.detectLine s.ctx.who (e.phys va / 128) with
  | error x => trivial
  | ok u =>
    have hk := (ht.trans (State.kept_detectLine (.inl hd))).trans (State.kept_touch u s.ctx.who (State.pathOf u.ctx) (e.phys va / 128) false false .normal)
    exact (State.consume_mem _ _).trans hk.mem

theorem commandWords_mem {s t : State} {va : Word} {n : Nat} {ws : List Word} (h : commandWords s va n = .ok (ws, t)) : t.mem = s.mem := by
  refine Ends.ok (P := fun x : List Word × State => x.2.mem = s.mem) (E := fun _ => True) ?_ h
  refine Ends.foldE (P := fun x : List Word × State => x.2.mem = s.mem) (fun st i hst => (commandWord_mem st.2 _).bind fun x hu => ?_) _ rfl
  exact (hu.trans hst : x.2.mem = s.mem)

theorem kept_readable {s t : State} {va : Word} {n : Nat} {b : Bool} (h : readable s va n = .ok (b, t)) : Kept s t := by
  refine Ends.ok (P := fun x : Bool × State => Kept s x.2) (E := fun _ => True) ?_ h
  refine Ends.foldE (fun st p hst => ?_) _ (Kept.refl s)
  have ht := State.kept_translate st.2 s.ctx.who .load p.1 (fun _ => none)
  split
  · next e => rw [e] at ht; exact hst.trans ht
  · next e => rw [e] at ht; exact hst.trans ht
  · trivial

/-- The bitmap's lines are read through the L2. -/
theorem kept_touchLines (s : State) (ls : List Nat) : Kept s (ls.foldl (fun (s : State) l => s.touch s.ctx.who .l2 l false false .no) s) :=
  Kept.foldl (fun (s : State) l => State.kept_touch s s.ctx.who .l2 l false false .no) ls s

theorem kept_gleanLine {s t : State} {g : Glean} {line : Nat} {write whole : Bool} (h : s.gleanLine g line write whole = .ok t) : Kept s t := by
  unfold State.gleanLine at h
  split at h
  · cases h
  · cases hd : s.detectLine g.who line with
    | error x => rw [hd] at h; cases h
    | ok u => rw [hd] at h; cases h; exact (State.kept_detectLine (.inl hd)).trans (State.kept_touch _ _ _ _ _ _ _)

/-- A Gleaner's write of a word writes its eight bytes. -/
theorem gleanStore_mem {s t u : State} {g : Glean} {k : Acc} {va v : Word} {code pa : Nat} (hc : s.unitCheck g.who k .device 8 va 8 = .ok (pa, t))
    (h : s.gleanStore g k va v code = .ok u) : u.mem = s.mem.setBytes pa (leBytes 8 v.toNat) := by
  unfold State.gleanStore at h
  rw [hc] at h
  dsimp only [gleanAcc, bind, Except.bind] at h
  cases hl : t.gleanLine g (pa / 128) true false with
  | error x => rw [hl] at h; cases h
  | ok x =>
    rw [hl] at h
    cases h
    rw [State.putBytes_mem, ((State.kept_unitCheck hc).trans (kept_gleanLine hl)).mem]

theorem cycleStart : Claims.CycleStart := by
  intro s t t1 t2 t3 t4 u w d a b ws f1 f2 ps pa hs
  refine ⟨exec_hglean_misaligned hs, exec_hglean_bitmap hs, fun hb hm hw => ?_⟩
  rw [exec_hglean hs hb hm hw]
  refine ⟨fun ha => by rw [openCycle_active ha]; rfl, fun ha h1 h2 => ⟨fun hbad => by rw [openCycle_invalid ha h1 h2 hbad]; rfl, fun hn hf1 hf2 => ?_⟩⟩
  rw [openCycle_valid ha h1 h2 hn hf1 hf2]
  refine ⟨fun x f hr => by rw [readBitmap_fault hr]; rfl, fun hr => ⟨fun hst => by rw [readBitmap_stuck hr hst]; rfl, fun hst hd => ?_⟩⟩
  rw [readBitmap_free hr hst hd]
  refine ⟨fun hl => by rw [startCycle_refused hl]; rfl, fun hl hown hop hcoll hc hstore => ?_⟩
  have h5 := ((((kept_readable h1).trans (kept_readable h2)).trans (State.kept_rangeCheck hr)).trans (kept_detectLines hd)).trans
    (kept_touchLines t4 (State.pieceLines ps))
  have hmem : u.mem = s.mem.setBytes pa (leBytes 8 (flipped (ws.getD 0 0)).toNat) :=
    (gleanStore_mem hc hstore).trans (congrArg (fun m : Memory => m.setBytes pa _) ((State.consume_mem _ _).trans (h5.mem.trans (commandWords_mem hw))))
  refine ⟨by rw [startCycle_starts rfl rfl rfl hl hown hop hcoll hstore]; rfl, flipped_active _, flipped_phase _, flipped_rest _, fun hwf => ?_, fun x hx => ?_⟩
  · rw [hmem]
    exact (Memory.num_setNum hwf pa 8 _).trans (Nat.mod_eq_of_lt (flipped (ws.getD 0 0)).isLt)
  · rw [hmem]
    exact Memory.byte_outside s.mem (by rwa [leBytes_length])

/-! ### hglean.free (R264) -/

/-- At most the parcels asked for come back. The range check is a variable here, so that the kernel does not compute it over a parcel's
2^21 bytes. -/
theorem returnParcels_length (g : Glean) (l : List Nat) :
    ∀ s : State, Ends (fun x => x.1.length ≤ l.length) (fun _ => True) (returnParcels s g l) := by
  obtain ⟨range, e⟩ : ∃ r, r = State.gleanRange := ⟨_, rfl⟩
  delta returnParcels returnParcels._f
  rw [← e]
  clear e
  induction l with
  | nil => exact fun _ => Nat.le_refl 0
  | cons p l ih =>
    intro s
    dsimp only [List.brecOn, List.brecOn.go] at ih ⊢
    split
    · trivial
    · exact (ih _).mono fun x hx => Nat.le_succ_of_le hx
    · exact (ih _).bind fun x hx => Nat.succ_le_succ hx

/-- The end of a cycle: it is over, and what it answers counts parcels that nothing in place keeps. -/
theorem freeCycle_ok {s t : State} {g : Glean} {ws : List Word} {n : Nat} (h : freeCycle s g ws = .ok (n, t)) :
    (∀ x ∈ t.gleans, x.id ≠ g.id) ∧ n ≤ ((parcelsOf (ws.drop 4)).filter (fun p => !g.inPlace.contains p)).length := by
  unfold freeCycle at h
  dsimp only [bind, Except.bind] at h
  split at h
  · cases h
  · split at h
    · cases h
    · next done hdone =>
      split at h
      · cases h
      · split at h
        · cases h
        · cases h
          exact ⟨fun x hx => by simpa using (List.mem_filter.1 hx).2, (returnParcels_length g _ _).ok hdone⟩

section free
variable {s t : State} {d a : XReg} {ws : List Word} (hs : Claims.onFront s) (hw : commandWords s (s.getX a) 8 = .ok (ws, t))
include hs hw

theorem exec_hgleanFree_inactive (ha : (ws.getD 0 0).getLsbD 61 = false) : exec (.hgleanFree d a) s = .next (t.takeTrap (.scalar 0x02 (s.getX a))) := by
  show execHgleanFree d a s = _
  unfold execHgleanFree bitAt
  rw [command_front hs]
  dsimp only [bind, Except.bind]
  rw [hw]
  dsimp only
  rw [check_fails (by rw [ha]; exact Bool.false_ne_true)]
  rfl

variable (ha : (ws.getD 0 0).getLsbD 61 = true) {g : Glean}
  (hg : t.gleans.find? (fun k => k.base == s.getX a && k.lease == t.ctx.lease && k.sub == t.ctx.sub) = some g)
include ha hg

/-- The cycle's steps, or a die that is frozen, are awaited. -/
theorem exec_hgleanFree_waits (hst : g.step ≠ .done ∨ t.cpFrozen t.ctx.die = true) : exec (.hgleanFree d a) s = .next t.yieldTurn := by
  show execHgleanFree d a s = _
  unfold execHgleanFree bitAt
  rw [command_front hs]
  dsimp only [bind, Except.bind]
  rw [hw]
  dsimp only
  rw [check_of ha, hg]
  exact congrArg settle (if_pos (by simpa using hst))

theorem exec_hgleanFree {n : Nat} {u : State} (hst : g.step = .done) (hf : t.cpFrozen t.ctx.die = false) (hc : freeCycle t g ws = .ok (n, u)) :
    exec (.hgleanFree d a) s = .next ((u.setX d (BitVec.ofNat 64 n)).advance 4) := by
  show execHgleanFree d a s = _
  unfold execHgleanFree bitAt
  rw [command_front hs]
  dsimp only [bind, Except.bind]
  rw [hw]
  dsimp only
  rw [check_of ha, hg]
  refine (congrArg settle (if_neg (by simp [hst, hf]))).trans ?_
  rw [Option.getD_some, hc]
  rfl

end free

theorem cycleFree : Claims.CycleFree := by
  intro s t u d a ws hs
  refine fun hw => ⟨exec_hgleanFree_inactive hs hw, fun g ha hg => ⟨exec_hgleanFree_waits hs hw ha hg, fun n hst hf hc => ?_⟩⟩
  obtain ⟨hover, hcount⟩ := freeCycle_ok hc
  exact ⟨exec_hgleanFree hs hw ha hg hst hf hc, hover, hcount⟩

end Sys2Proof.Machine

/-- Settles O34: hglean as its three stages (`openCycle`, `readBitmap`, `startCycle`), whose accesses before the flip write no memory;
hglean.free by what `freeCycle` answers. -/
theorem relocationCommands : Obligations.RelocationCommands := ⟨Sys2Proof.Machine.cycleStart, Sys2Proof.Machine.cycleFree⟩

/-! ## Special values of floating point (R73, R116, R147, R148, O6)

What the bit patterns of R73 decode to; then each operation on values. -/

namespace Sys2Proof.Machine

/-- An encoding of R73 with an infinity: the magnitude after the largest finite one has all exponent bits set and no fraction bit. -/
structure Fmt.HasInfinity (f : Fmt) : Prop where
  hasInf : f.hasInf = true
  ebits : 0 < f.ebits
  maxFinite : f.maxFinite + 1 = (2 ^ f.ebits - 1) * 2 ^ f.mbits

theorem hasInfinity_sFmt (t : STy) : (sFmt t).HasInfinity := by
  cases t <;> exact ⟨rfl, by decide, by decide⟩

/-! ### What bit patterns decode to (R73) -/

section patterns
variable {f : Fmt} {a : Nat} {p : Bool}

theorem two_pow_signBit (f : Fmt) : 2 ^ f.signBit = 2 ^ f.mbits * 2 ^ f.ebits := by
  unfold Fmt.signBit
  rw [Nat.add_comm, pow_add]

/-- Exponent field. -/
def Fmt.exponent (f : Fmt) (b : Nat) : Nat := b / 2 ^ f.mbits % 2 ^ f.ebits

/-- Fraction field. -/
def Fmt.fraction (f : Fmt) (b : Nat) : Nat := b % 2 ^ f.mbits

/-- Sign. -/
def Fmt.negative (f : Fmt) (b : Nat) : Bool := b / 2 ^ f.signBit % 2 == 1

theorem magnitude_div (f : Fmt) (b : Nat) : b % 2 ^ f.signBit / 2 ^ f.mbits = f.exponent b := by
  rw [two_pow_signBit, Nat.mod_mul_right_div_self]
  rfl

theorem magnitude_mod (f : Fmt) (b : Nat) : b % 2 ^ f.signBit % 2 ^ f.mbits = f.fraction b := by
  rw [two_pow_signBit, Nat.mod_mul_right_mod]
  rfl

theorem magnitude_eq (f : Fmt) (b : Nat) : b % 2 ^ f.signBit = f.exponent b * 2 ^ f.mbits + f.fraction b := by
  rw [← magnitude_div, ← magnitude_mod, Nat.mul_comm, Nat.div_add_mod]

theorem exponent_le (f : Fmt) (b : Nat) : f.exponent b ≤ 2 ^ f.ebits - 1 := Nat.le_sub_one_of_lt (Nat.mod_lt _ (Nat.two_pow_pos _))

/-- The codes past the largest finite magnitude are those of the full exponent. -/
theorem maxFinite_lt (h : f.HasInfinity) (b : Nat) : f.maxFinite < b % 2 ^ f.signBit ↔ f.exponent b = 2 ^ f.ebits - 1 := by
  have hle := exponent_le f b
  rw [← magnitude_div] at hle ⊢
  rw [← Nat.succ_le_iff, Nat.succ_eq_add_one, h.maxFinite, ← Nat.le_div_iff_mul_le (Nat.two_pow_pos _)]
  omega

theorem decode_full (h : f.HasInfinity) (he : f.exponent a = 2 ^ f.ebits - 1) :
    f.decode a = if f.fraction a = 0 then .inf (f.negative a) else .nan := by
  have hinf : a % 2 ^ f.signBit = f.maxFinite + 1 ↔ f.fraction a = 0 := by
    rw [magnitude_eq, he, h.maxFinite]
    omega
  unfold Fmt.decode
  dsimp only
  rw [if_pos ((maxFinite_lt h a).2 he), h.hasInf, Bool.true_and]
  simp only [beq_iff_eq, hinf]
  rfl

theorem decode_below (h : f.HasInfinity) (he : f.exponent a ≠ 2 ^ f.ebits - 1) :
    f.decode a = if f.exponent a = 0 then .num (f.negative a) (f.fraction a) (1 - (f.bias : Int) - f.mbits)
      else .num (f.negative a) (2 ^ f.mbits + f.fraction a) ((f.exponent a : Int) - f.bias - f.mbits) := by
  unfold Fmt.decode
  dsimp only
  rw [if_neg (mt (maxFinite_lt h a).1 he), magnitude_div, magnitude_mod]
  rfl

theorem decode_nan (h : f.HasInfinity) (ha : Claims.isNaN f a) : f.decode a = .nan := by
  obtain ⟨-, he, hf⟩ := ha
  exact (decode_full h he).trans (if_neg hf)

/-- The sign bit in front of a magnitude. -/
theorem negative_withSign {m : Nat} (hm : m < 2 ^ f.signBit) : f.negative (f.withSign p m) = p := by
  unfold Fmt.negative Fmt.withSign
  cases p
  · simp [Nat.div_eq_of_lt hm]
  · simp [Nat.add_div_left _ (Nat.two_pow_pos _), Nat.div_eq_of_lt hm]

theorem withSign_mod {m : Nat} (hm : m < 2 ^ f.signBit) : f.withSign p m % 2 ^ f.signBit = m := by
  unfold Fmt.withSign
  cases p <;> simp [Nat.mod_eq_of_lt hm]

theorem isInf_iff (h : f.HasInfinity) : Claims.isInf f p a ↔ a = f.inf p := by
  unfold Claims.isInf Fmt.inf Fmt.withSign
  rw [if_pos h.hasInf, h.maxFinite]
  cases p
  · simp
  · exact Iff.rfl

theorem isZero_iff : Claims.isZero f p a ↔ a = f.zero p := by
  cases p <;> exact Iff.rfl

theorem infinity_lt (h : f.HasInfinity) : f.maxFinite + 1 < 2 ^ f.signBit := by
  rw [h.maxFinite, two_pow_signBit, Nat.mul_comm]
  exact Nat.mul_lt_mul_of_pos_left (Nat.sub_lt (Nat.two_pow_pos _) Nat.one_pos) (Nat.two_pow_pos _)

theorem decode_inf (h : f.HasInfinity) (ha : Claims.isInf f p a) : f.decode a = .inf p := by
  obtain rfl := (isInf_iff h).1 ha
  have hlt := infinity_lt h
  have hbits : f.inf p = f.withSign p (f.maxFinite + 1) := if_pos h.hasInf
  rw [hbits]
  have hmod : f.withSign p (f.maxFinite + 1) % 2 ^ f.signBit = f.maxFinite + 1 := withSign_mod hlt
  have he : f.exponent (f.withSign p (f.maxFinite + 1)) = 2 ^ f.ebits - 1 := (maxFinite_lt h _).1 (by omega)
  have hf : f.fraction (f.withSign p (f.maxFinite + 1)) = 0 := by
    rw [← magnitude_mod, hmod, h.maxFinite, Nat.mul_mod_left]
  rw [decode_full h he, if_pos hf, negative_withSign hlt]

/-- A finite pattern is a number, zero only as the pattern of a zero. -/
theorem decode_finite (h : f.HasInfinity) (ha : Claims.isFinite f p a) : ∃ m e, f.decode a = .num p m e ∧ (m = 0 ↔ Claims.isZero f p a) := by
  obtain ⟨-, he, hsign⟩ := ha
  have hneg : f.negative a = p := by
    unfold Fmt.negative
    rw [show a / 2 ^ f.signBit = _ from hsign]
    cases p <;> rfl
  have hbits : a = 2 ^ f.signBit * (if p then 1 else 0) + (f.exponent a * 2 ^ f.mbits + f.fraction a) := by
    rw [← magnitude_eq, ← show a / 2 ^ f.signBit = _ from hsign, Nat.div_add_mod]
  have hzero : f.exponent a * 2 ^ f.mbits + f.fraction a = 0 ↔ Claims.isZero f p a := by
    rw [isZero_iff]
    unfold Fmt.zero Fmt.withSign
    cases p <;> simp only [if_true, if_false, Bool.false_eq_true] at hbits ⊢ <;> omega
  have hp := Nat.two_pow_pos f.mbits
  rw [decode_below h he, hneg]
  split
  · next hx => exact ⟨_, _, rfl, by rw [← hzero, hx]; omega⟩
  · next hx =>
    have := Nat.mul_pos (Nat.pos_of_ne_zero hx) hp
    exact ⟨_, _, rfl, by rw [← hzero]; omega⟩

theorem isFinite_of_isZero (h : f.HasInfinity) (ha : Claims.isZero f p a) : Claims.isFinite f p a := by
  have hpow := two_pow_signBit f
  have hpos := Nat.two_pow_pos f.signBit
  have hlt : a < 2 ^ f.width := by
    have : 2 ^ f.width = 2 ^ f.signBit * 2 := pow_succ 2 f.signBit
    rw [isZero_iff.1 ha]
    unfold Fmt.zero Fmt.withSign
    split <;> omega
  have hexp : f.exponent a = 0 := by
    rw [← magnitude_div, isZero_iff.1 ha]
    unfold Fmt.zero
    rw [withSign_mod hpos, Nat.zero_div]
  refine ⟨hlt, ?_, ?_⟩
  · show f.exponent a ≠ _
    have := Nat.one_lt_two_pow h.ebits.ne'
    omega
  · show a / 2 ^ f.signBit = _
    rw [isZero_iff.1 ha]
    unfold Fmt.zero Fmt.withSign
    cases p <;> simp [Nat.div_self hpos]

theorem decode_zero (h : f.HasInfinity) (ha : Claims.isZero f p a) : ∃ e, f.decode a = .num p 0 e := by
  obtain ⟨m, e, hd, hm⟩ := decode_finite h (isFinite_of_isZero h ha)
  exact ⟨e, by rw [hd, hm.2 ha]⟩

end patterns

/-! ### Operations on values (R116, R147, R148) -/

namespace FVal

theorem add_nan (rm : RMode) (x : FVal) : x.add rm .nan = some .nan := by cases x <;> rfl
theorem mul_nan (x : FVal) : x.mul .nan = some .nan := by cases x <;> rfl
theorem div_nan (f : Fmt) (rm : RMode) (x : FVal) : FVal.div f rm x .nan = { bits := f.nan, flags := 0 } := by cases x <;> rfl
theorem lt_nan (x : FVal) : x.lt .nan = false := by cases x <;> rfl
theorem eqv_nan (x : FVal) : x.eqv .nan = false := by cases x <;> rfl

/-- Infinities of opposite signs have no sum. -/
theorem inf_add_opposite (rm : RMode) (p : Bool) : (inf p).add rm (inf (!p)) = none := by cases p <;> rfl

theorem inf_mul_zero (p q : Bool) (e : Int) : (inf p).mul (num q 0 e) = none := rfl
theorem zero_mul_inf (p q : Bool) (e : Int) : (num q 0 e).mul (inf p) = none := rfl

theorem signedAt_zero (p : Bool) (e e0 : Int) : signedAt p 0 e e0 = 0 := by
  unfold signedAt
  cases p <;> simp

theorem signedAt_not (p : Bool) (m : Nat) (e e0 : Int) : signedAt (!p) m e e0 = -signedAt p m e e0 := by
  unfold signedAt
  cases p <;> simp

/-- The exact sum of a number and its opposite is a zero whose sign the rounding mode gives (R116). -/
theorem num_add_opposite (rm : RMode) (p : Bool) {m : Nat} (e : Int) (hm : m ≠ 0) :
    (num p m e).add rm (num (!p) m e) = some (num (rm == .rdn) 0 0) := by
  unfold add
  simp only [signedAt_not, Int.add_right_neg, if_true, hm, decide_false, Bool.false_and, Bool.false_eq_true, if_false]

theorem zeros_lt (p q : Bool) (e g : Int) : (num p 0 e).lt (num q 0 g) = false := by
  unfold lt
  simp [signedAt_zero]

theorem zeros_eqv (p q : Bool) (e g : Int) : (num p 0 e).eqv (num q 0 g) = true := by
  unfold eqv
  simp [signedAt_zero]

end FVal

section operations
variable {f : Fmt} {rm : RMode} {a b c : Nat} {p q : Bool}

theorem fma_of_nan (h : (f.decode a).mul (f.decode b) = some .nan) : f.fma rm p q a b c = { bits := f.nan, flags := 0 } := by
  unfold Fmt.fma
  rw [h]
  cases p <;> rfl

theorem fma_of_none (h : (f.decode a).mul (f.decode b) = none) : f.fma rm p q a b c = f.invalid := by
  unfold Fmt.fma
  rw [h]

section nan
variable (ha : f.decode a = .nan)
include ha

theorem nan_first : f.add rm a b = { bits := f.nan, flags := 0 } ∧ f.sub rm a b = { bits := f.nan, flags := 0 } ∧
    f.mul rm a b = { bits := f.nan, flags := 0 } ∧ f.div rm a b = { bits := f.nan, flags := 0 } ∧ f.sqrt rm a = { bits := f.nan, flags := 0 } ∧
    f.fma rm p q a b c = { bits := f.nan, flags := 0 } ∧ f.toInt rm 64 a = { bits := 0, flags := fNV } ∧ f.cmp .eq a b = (false, 0) ∧
    f.cmp .lt a b = (false, fNV) ∧ f.cmp .le a b = (false, fNV) := by
  refine ⟨?_, ?_, ?_, ?_, ?_, fma_of_nan (by rw [ha]; rfl), ?_, ?_, ?_, ?_⟩
  · unfold Fmt.add; rw [ha]; rfl
  · unfold Fmt.sub; rw [ha]; rfl
  · unfold Fmt.mul; rw [ha]; rfl
  · unfold Fmt.div; rw [ha]; rfl
  · unfold Fmt.sqrt; rw [ha]
  · unfold Fmt.toInt; rw [ha]
  iterate 3 · unfold Fmt.cmp; rw [ha]; rfl

theorem nan_second : f.add rm b a = { bits := f.nan, flags := 0 } ∧ f.sub rm b a = { bits := f.nan, flags := 0 } ∧
    f.mul rm b a = { bits := f.nan, flags := 0 } ∧ f.div rm b a = { bits := f.nan, flags := 0 } ∧
    f.fma rm p q b a c = { bits := f.nan, flags := 0 } ∧ f.cmp .eq b a = (false, 0) ∧ f.cmp .lt b a = (false, fNV) ∧ f.cmp .le b a = (false, fNV) := by
  refine ⟨?_, ?_, ?_, ?_, fma_of_nan (by rw [ha]; exact FVal.mul_nan _), ?_, ?_, ?_⟩
  · unfold Fmt.add; rw [ha, FVal.add_nan]; rfl
  · unfold Fmt.sub; rw [ha]; exact congrArg (f.fin rm) (FVal.add_nan rm _)
  · unfold Fmt.mul; rw [ha, FVal.mul_nan]; rfl
  · unfold Fmt.div; rw [ha, FVal.div_nan]
  iterate 3 · unfold Fmt.cmp; simp [ha, FVal.lt_nan, FVal.eqv_nan]

theorem minmax_nan_nan (hb : f.decode b = .nan) (m : Bool) : f.minmax m a b = f.nan := by
  unfold Fmt.minmax
  rw [ha, hb]
  rfl

theorem minmax_nan_first (hb : f.decode b ≠ .nan) (m : Bool) : f.minmax m a b = b := by
  unfold Fmt.minmax
  simp [ha, hb]

theorem minmax_nan_second (hb : f.decode b ≠ .nan) (m : Bool) : f.minmax m b a = b := by
  unfold Fmt.minmax
  simp [ha, hb]

end nan

/-- -0 stands below +0 (R147). -/
theorem minmax_zeros {e g : Int} (ha : f.decode a = .num true 0 e) (hb : f.decode b = .num false 0 g) :
    f.minmax false a b = a ∧ f.minmax false b a = a ∧ f.minmax true a b = b ∧ f.minmax true b a = b := by
  unfold Fmt.minmax
  simp [ha, hb, FVal.zeros_lt, FVal.zeros_eqv, FVal.isNeg]

theorem sqrt_negative_zero {e : Int} (ha : f.decode a = .num true 0 e) : f.sqrt rm a = { bits := f.zero true, flags := 0 } := by
  unfold Fmt.sqrt
  rw [ha]
  rfl

theorem sqrt_negative {m : Nat} {e : Int} (ha : f.decode a = .num true m e) (hm : m ≠ 0) : f.sqrt rm a = f.invalid := by
  unfold Fmt.sqrt
  rw [ha]
  exact if_neg hm

theorem opposite_infinities (ha : f.decode a = .inf p) (hb : f.decode b = .inf (!p)) :
    f.add rm a b = f.invalid ∧ f.sub rm a a = f.invalid ∧ f.div rm a b = f.invalid := by
  refine ⟨?_, ?_, ?_⟩
  · unfold Fmt.add; rw [ha, hb, FVal.inf_add_opposite]; rfl
  · unfold Fmt.sub; rw [ha]; exact congrArg (f.fin rm) (FVal.inf_add_opposite rm p)
  · unfold Fmt.div; rw [ha, hb]; rfl

theorem infinity_times_zero {e : Int} (ha : f.decode a = .inf p) (hb : f.decode b = .num q 0 e) :
    f.mul rm a b = f.invalid ∧ f.mul rm b a = f.invalid ∧ ∀ m n, f.fma rm m n a b c = f.invalid := by
  refine ⟨?_, ?_, fun m n => fma_of_none (by rw [ha, hb]; exact FVal.inf_mul_zero p q e)⟩
  · unfold Fmt.mul; rw [ha, hb, FVal.inf_mul_zero]; rfl
  · unfold Fmt.mul; rw [ha, hb, FVal.zero_mul_inf]; rfl

theorem zero_div_zero {e g : Int} (ha : f.decode a = .num p 0 e) (hb : f.decode b = .num q 0 g) : f.div rm a b = f.invalid := by
  unfold Fmt.div
  rw [ha, hb]
  rfl

theorem number_div_zero {m : Nat} {e g : Int} (ha : f.decode a = .num p m e) (hm : m ≠ 0) (hb : f.decode b = .num q 0 g) :
    f.div rm a b = { bits := f.inf (p != q), flags := fDZ } := by
  unfold Fmt.div
  rw [ha, hb]
  exact if_neg hm

theorem sub_same {m : Nat} {e : Int} (ha : f.decode a = .num p m e) (hm : m ≠ 0) : f.sub rm a a = { bits := f.zero (rm == .rdn), flags := 0 } := by
  unfold Fmt.sub
  rw [ha]
  exact congrArg (f.fin rm) (FVal.num_add_opposite rm p e hm)

theorem toInt_infinity (ha : f.decode a = .inf p) : f.toInt rm 64 a = { bits := if p then 2 ^ 63 else 2 ^ 63 - 1, flags := fNV } := by
  unfold Fmt.toInt
  rw [ha]
  cases p <;> rfl

end operations

end Sys2Proof.Machine

open Sys2Proof Sys2Proof.Machine in
/-- Settles O6: what each pattern decodes to, and each operation's branch for it; no branch asks for the rounding mode but the sign of
an exact zero difference. -/
theorem fpSpecialValues : Obligations.FpSpecialValues := by
  intro t rm a b c p q
  have h := hasInfinity_sFmt t
  dsimp only
  refine ⟨fun ha => nan_first (decode_nan h ha), fun hb => nan_second (decode_nan h hb),
    fun ha hb => minmax_nan_nan (decode_nan h ha) (decode_nan h hb), fun ha hb m => ?_, fun ha hb => ?_,
    fun ha hb => opposite_infinities (decode_inf h ha) (decode_inf h hb), fun ha hb => ?_, fun ha hb => ?_, fun ha hna hb => ?_, fun ha hna => ?_,
    fun ha => ⟨_, isZero_iff.2 rfl, fun hna => ?_⟩, fun ha => toInt_infinity (decode_inf h ha), fun ha => toInt_infinity (decode_inf h ha)⟩
  · obtain ⟨k, e, hb, -⟩ := decode_finite h hb
    have hnum : (sFmt t).decode b ≠ .nan := by rw [hb]; exact FVal.noConfusion
    exact ⟨minmax_nan_first (decode_nan h ha) hnum m, minmax_nan_second (decode_nan h ha) hnum m⟩
  · obtain ⟨e, hda⟩ := decode_zero h ha
    obtain ⟨g, hdb⟩ := decode_zero h hb
    obtain ⟨h1, h2, h3, h4⟩ := minmax_zeros hda hdb
    exact ⟨h1, h2, h3, h4, by rw [sqrt_negative_zero hda, ← isZero_iff.1 ha]⟩
  · obtain ⟨g, hb⟩ := decode_zero h hb
    exact infinity_times_zero (decode_inf h ha) hb
  · obtain ⟨e, ha⟩ := decode_zero h ha
    obtain ⟨g, hb⟩ := decode_zero h hb
    exact zero_div_zero ha hb
  · obtain ⟨k, e, hda, hk⟩ := decode_finite h ha
    obtain ⟨g, hb⟩ := decode_zero h hb
    exact ⟨_, (isInf_iff h).2 rfl, number_div_zero hda (mt hk.1 hna) hb⟩
  · obtain ⟨k, e, hda, hk⟩ := decode_finite h ha
    exact sqrt_negative hda (mt hk.1 hna)
  · obtain ⟨k, e, hda, hk⟩ := decode_finite h ha
    exact sub_same hda (mt hk.1 hna)

/-! ## Group and channel scales (R75, R81-R84, O47)

The codes of a group, the units in which a group is read, the loop over the groups, and then the unit-stride loads in both scale modes. -/

namespace Sys2Proof.Machine

/-! ### Packed codes (R75) -/

theorem codeAt_packCodes (q3 : Bool) {cs : List Nat} {j : Nat} (hc : ∀ x ∈ cs, x < 2 ^ codeBits q3) (hj : j < cs.length) :
    codeAt q3 (packCodes q3 cs) j = cs.getD j 0 := by
  unfold codeAt
  induction cs generalizing j with
  | nil => exact absurd hj (Nat.not_lt_zero _)
  | cons c cs ih =>
    obtain ⟨hlt, hcs⟩ := List.forall_mem_cons.1 hc
    rw [packCodes]
    cases j with
    | zero => rw [Nat.mul_zero, pow_zero, Nat.div_one, Nat.add_mul_mod_self_left, Nat.mod_eq_of_lt hlt]; rfl
    | succ j =>
      rw [Nat.mul_succ, pow_add, Nat.mul_comm (2 ^ (codeBits q3 * j)), ← Nat.div_div_eq_div_mul, Nat.add_mul_div_left _ _ (Nat.two_pow_pos _),
        Nat.div_eq_of_lt hlt, Nat.zero_add, ih hcs (Nat.lt_of_succ_lt_succ hj)]
      rfl

/-- A bit of the packed field stands in the unit that holds it. -/
theorem testBit_unitsNum {us : List Nat} (hu : ∀ u ∈ us, u < 65536) (k : Nat) :
    (unitsNum (us.map some)).testBit k = (us.getD (k / 16) 0).testBit (k % 16) := by
  induction us generalizing k with
  | nil => simp [unitsNum]
  | cons u us ih =>
    obtain ⟨hlt, hus⟩ := List.forall_mem_cons.1 hu
    have hnum : unitsNum ((u :: us).map some) = 2 ^ 16 * unitsNum (us.map some) + u := Nat.add_comm _ _
    rw [hnum, Nat.testBit_two_pow_mul_add _ hlt]
    split
    · next hk => rw [Nat.div_eq_of_lt hk, Nat.mod_eq_of_lt hk]; rfl
    · next hk =>
      obtain ⟨j, rfl⟩ := Nat.exists_eq_add_of_le' (Nat.le_of_not_lt hk)
      rw [ih hus, Nat.add_sub_cancel, Nat.add_div_right _ (by decide), Nat.add_mod_right]
      rfl

theorem sum_bits (n w : Nat) : ((List.range w).map (fun i => if n.testBit i then 2 ^ i else 0)).sum = n % 2 ^ w := by
  induction w with
  | zero => exact (Nat.mod_one n).symm
  | succ w ih =>
    rw [List.range_succ, List.map_append, List.sum_append, ih, Nat.mod_pow_succ, ← Nat.toNat_testBit, List.map_singleton, List.sum_singleton]
    cases n.testBit w <;> simp

/-- A code as the model takes it from the packed field is the code as the claims take it from the units. -/
theorem codeAt_units (q3 : Bool) {us : List Nat} (hu : ∀ u ∈ us, u < 65536) (j : Nat) :
    codeAt q3 (unitsNum (us.map some)) j = Claims.codeOf (fun k => us.getD k 0) (if q3 then 3 else 4) j := by
  unfold codeAt Claims.codeOf
  rw [← sum_bits]
  refine congrArg List.sum (List.map_congr_left fun i _ => ?_)
  rw [Nat.testBit_div_two_pow, testBit_unitsNum hu, Nat.add_comm]
  rfl

/-! ### Units of a group (R82) -/

theorem length_run (n : Nat) : ∀ (a : Nat) (m : Memory), (Memory.run a n m).length = n := by
  induction n with
  | zero => exact fun _ _ => rfl
  | succ n ih =>
    intro a m
    cases m with
    | nil => exact congrArg Nat.succ (ih _ _)
    | cons c m =>
      rw [Memory.run]
      split <;> exact congrArg Nat.succ (ih _ _)

/-- n bytes are a number below 256^n, whatever form memory has. -/
theorem num_lt_pow (m : Memory) (pa n : Nat) : m.num pa n < 256 ^ n :=
  (leNat_lt (m.bytes pa n)).trans_eq (congrArg (256 ^ ·) (length_run n _ _))

theorem trapAt_ne_ok {α : Type} (r : VRun) (s : State) (c : Nat) (tv : Word) (e : Nat) (a : α) : r.trapAt s c tv e ≠ .ok a := by
  unfold VRun.trapAt vraise
  split <;> (intro h; cases h)

theorem acc_ok {α : Type} {r : VRun} {e : Nat} {x : ARes α} {a : α} (h : r.acc e x = .ok a) : x = .ok a := by
  match x, h with
  | .ok _, h => exact congrArg Except.ok (Except.ok.inj h)
  | .error (.fault s f), h => exact absurd h (trapAt_ne_ok r s f.cause f.tval e a)
  | .error (.wait s), h => cases (show waits s = .ok a from h)

/-- A load where nothing is marked answers a number of its bytes. -/
theorem plainLoad_clean {s t : State} {a : Agent} {va : Word} {n : Nat} {keep : Keep} {b : Option Nat} (hs : s.ErrorFree) (ha : a.isScalar = false)
    (h : plainLoad a keep s va n = .ok (b, t)) : (∃ x, b = some x ∧ x < 256 ^ n) ∧ Kept s t ∧ State.Sound s t := by
  obtain ⟨p, u, hacc, -⟩ := State.load_ok h
  obtain ⟨v, hreach, -⟩ := State.access_ok hacc
  obtain ⟨w, hw, hk, hsound⟩ := State.load_arrives (keep := keep) hs ha hreach
  cases (show s.load a va n keep = _ from h).symm.trans hw
  exact ⟨⟨_, rfl, num_lt_pow _ _ _⟩, hk, hsound⟩

/-- Reading the units of a group changes nothing but the caches, and each unit is a number of 16 bits. -/
theorem groupUnits_ok {r : VRun} {s t : State} {keep : Keep} {va : Word} {n f : Nat} {us : List Nat} (hs : s.ErrorFree)
    (h : r.groupUnits (plainLoad .vector keep) va n f s = .ok (us.map some, t)) : (∀ u ∈ us, u < 65536) ∧ Kept s t ∧ State.Sound s t := by
  have hinv := foldE_ind (P := fun st : List (Option Nat) × State => (∀ b ∈ st.1, ∃ x, b = some x ∧ x < 65536) ∧ Kept s st.2 ∧ State.Sound s st.2)
    (fun st i st' hst hf => ?_) _ ⟨fun b hb => absurd hb List.not_mem_nil, Kept.refl s, State.Sound.refl s⟩ h
  · obtain ⟨hu, hk⟩ := hinv
    refine ⟨fun u hmem => ?_, hk⟩
    obtain ⟨x, hx, hlt⟩ := hu _ (List.mem_map_of_mem hmem)
    cases hx
    exact hlt
  · obtain ⟨hu, hk, hsound⟩ := hst
    cases hx : r.acc f (plainLoad .vector keep st.2 (va + word (2 * i)) 2) with
    | error e => rw [hx] at hf; cases hf
    | ok x =>
      obtain ⟨b, w⟩ := x
      rw [hx] at hf
      cases hf
      obtain ⟨hb, hkw, hsw⟩ := plainLoad_clean (hsound.free hs) rfl (acc_ok hx)
      refine ⟨fun c hc => ?_, hk.trans hkw, hsound.trans hsw⟩
      rcases List.mem_append.1 hc with hc | hc
      · exact hu c hc
      · rw [List.mem_singleton.1 hc]
        exact hb

/-! ### Elements written with their conversion's Clamped (R80) -/

theorem clampIf_clampIf (s : State) (a b : Bool) : (s.clampIf a).clampIf b = s.clampIf (a || b) := by
  unfold State.clampIf
  cases a <;> cases b <;> simp [BitVec.or_assoc]

theorem clampIf_setElem (s : State) (d : VReg) (e v : Nat) (b : Bool) : (s.setElem d e v).clampIf b = (s.clampIf b).setElem d e v := by
  cases b <;> rfl

/-- An element receives what its conversion gives. -/
def State.setConverted (d : VReg) (res : Nat → Nat × Bool) (s : State) (e : Nat) : State := (s.clampIf (res e).2).setElem d e (res e).1

theorem steady_setConverted (d : VReg) (res : Nat → Nat × Bool) (s : State) (e : Nat) : Steady s (s.setConverted d res e) :=
  (Steady.clampIf s _).trans (Steady.setElem _ d e _)

/-- Clamped may be set first, and the elements written after. -/
theorem foldl_setConverted (d : VReg) (res : Nat → Nat × Bool) (l : List Nat) (s : State) :
    l.foldl (State.setConverted d res) s = (s.clampIf (l.any fun e => (res e).2)).setElems d (fun e => (res e).1) l := by
  induction l generalizing s with
  | nil => rfl
  | cons a l ih =>
    rw [List.foldl_cons, ih]
    unfold State.setConverted
    rw [clampIf_setElem, clampIf_clampIf]
    rfl

/-- Where no lane meets an error, a loop over elements does what it does at the active ones. -/
theorem foldl_active {r : VRun} {one put : State → Nat → State} (hone : ∀ s e, Quiet s → one s e = if r.active e then put s e else s)
    (hput : ∀ s e, Steady s (put s e)) (l : List Nat) {s : State} (hs : Quiet s) : l.foldl one s = (l.filter r.active).foldl put s := by
  induction l generalizing s with
  | nil => rfl
  | cons a l ih =>
    rw [List.foldl_cons, hone s a hs]
    by_cases ha : r.active a = true
    · rw [if_pos ha, List.filter_cons_of_pos ha]
      exact ih ((hput s a).quiet hs)
    · rw [if_neg ha, List.filter_cons_of_neg ha]
      exact ih hs

/-! ### The loop over the groups (R81) -/

/-- A loop all of whose steps but one leave the state. -/
theorem foldE_single {α : Type} {f : State → α → Res State} {P : State → Prop} {a : α} {s t : State} {l : List α} (hn : l.Nodup) (ha : a ∈ l)
    (hskip : ∀ u, P u → ∀ b, b ≠ a → f u b = .ok u) (hs : P s) (ht : P t) (hf : f s a = .ok t) : foldE f s l = .ok t := by
  have hrest (l : List α) (hl : ∀ b ∈ l, b ≠ a) : foldE f t l = .ok t := by
    induction l with
    | nil => rfl
    | cons b l ih =>
      obtain ⟨hb, hl⟩ := List.forall_mem_cons.1 hl
      rw [foldE, hskip t ht b hb]
      exact ih hl
  induction l with
  | nil => cases ha
  | cons b l ih =>
    obtain ⟨hb, hn⟩ := List.nodup_cons.1 hn
    rw [foldE]
    by_cases hba : b = a
    · subst hba
      rw [hf]
      exact hrest l fun c hc h => hb (h ▸ hc)
    · rw [hskip s hs b hba]
      exact ih hn ((List.mem_cons.1 ha).resolve_left (Ne.symm hba))

section group
variable {r : VRun} {ld : Loader} {q3 sat : Bool} {t : ETy} {d c : VReg} {bs g : Nat} {base : Word} {s : State}

/-- The active elements of a group are those of the instruction that lie in it. -/
theorem groupElems_active (hr : r.sfault = none) (bs g : Nat) : (r.groupElems bs g).filter r.active = r.elems.filter (fun e => e / bs = g) := by
  unfold VRun.groupElems VRun.elems
  rw [VRun.stop_of_calm hr, List.filter_filter, List.filter_filter]
  refine List.filter_congr fun e _ => Bool.and_comm _ _

/-- A group without an active element is passed by. -/
theorem groupLoad_inactive (hq : Quiet s) (hnone : (r.groupElems bs g).filter r.active = []) : r.groupLoad ld q3 sat t d c bs base s g = .ok s := by
  have hfind : (r.groupElems bs g).find? r.active = none := by rw [← List.head?_filter, hnone]; rfl
  unfold VRun.groupLoad
  dsimp only
  rw [hfind]
  refine congrArg Except.ok ?_
  rw [foldl_active (r := r) (put := fun s _ => s) (fun u e hu => ?_) (fun u _ => Steady.refl u) _ hq, hnone]
  · rfl
  · rw [VRun.lane_of_quiet hu, ite_self]

/-- The scale word of a group goes to its element of the scale plot while that plot has one. -/
def State.keepScale (s : State) (c : VReg) (g v : Nat) : State := if g < plotCount (s.plotOf c) then s.setElem c g v else s

theorem steady_keepScale (s : State) (c : VReg) (g v : Nat) : Steady s (s.keepScale c g v) := Steady.ite (Steady.setElem s c g v) (Steady.refl s)

/-- What the elements of a group become, from its units. -/
def groupValue (q3 sat : Bool) (t : ETy) (us : List Nat) (bs e : Nat) : Nat × Bool :=
  loadConv (.group q3) sat t (some (us.getD 0 0)) (codeAt q3 (unitsNum ((us.drop 1).map some)) (e % bs))

/-- The state when the scale and the elements of group g are written. -/
def State.loadedGroup (v : State) (d c : VReg) (g : Nat) (res : Nat → Nat × Bool) (sc : Nat) (es : List Nat) : State :=
  es.foldl (State.setConverted d res) (v.keepScale c g sc)

theorem steady_loadedGroup (v : State) (d c : VReg) (g : Nat) (res : Nat → Nat × Bool) (sc : Nat) (es : List Nat) :
    Steady v (v.loadedGroup d c g res sc es) :=
  foldl_ind (P := Steady v) (fun u e h => h.trans (steady_setConverted d res u e)) es (steady_keepScale v c g sc)

theorem loadedGroup_mem (v : State) (d c : VReg) (g : Nat) (res : Nat → Nat × Bool) (sc : Nat) (es : List Nat) :
    (v.loadedGroup d c g res sc es).mem = v.mem := by
  unfold State.loadedGroup
  rw [foldl_setConverted, State.setElems_mem, clampIf_mem]
  unfold State.keepScale
  split <;> rfl

/-- A group with active elements, whose units are read. -/
theorem groupLoad_active {es us : List Nat} {f : Nat} {v : State} (hact : (r.groupElems bs g).filter r.active = f :: es)
    (hus : r.groupUnits ld (base + word (g * groupBytes q3 bs)) (groupBytes q3 bs / 2) f s = .ok (us.map some, v)) (hv : Quiet v) :
    r.groupLoad ld q3 sat t d c bs base s g =
      .ok (v.loadedGroup d c g (groupValue q3 sat t us bs) (us.getD 0 0) (f :: es)) := by
  have hfind : (r.groupElems bs g).find? r.active = some f := by rw [← List.head?_filter, hact]; rfl
  have hbad : (us.map some).any Option.isNone = false := by simp
  have hhead : ((us.map some).headD none).getD 0 = us.getD 0 0 := by cases us <;> rfl
  unfold VRun.groupLoad
  dsimp only
  rw [hfind]
  dsimp only
  rw [hus]
  dsimp only [bind, Except.bind]
  rw [hbad, hhead, ← hact]
  refine congrArg Except.ok (foldl_active (fun u e hu => ?_) (steady_setConverted d _) _ ((steady_keepScale v c g _).quiet hv))
  rw [VRun.lane_of_quiet hu, ← List.map_drop]
  cases r.active e <;> rfl

/-- All elements lie in group g: the loop over the groups is that group's. -/
theorem groups_single {us : List Nat} {N : Nat} {v : State} (hr : r.sfault = none) (hq : Quiet s) (hv : Quiet v) (hbs : 0 < bs) (hN : g < N)
    (hel : r.elems = (List.range bs).map fun j => g * bs + j)
    (hus : r.groupUnits ld (base + word (g * groupBytes q3 bs)) (groupBytes q3 bs / 2) (g * bs) s = .ok (us.map some, v)) :
    foldE (r.groupLoad ld q3 sat t d c bs base) s (List.range N) =
      .ok (v.loadedGroup d c g (groupValue q3 sat t us bs) (us.getD 0 0) r.elems) := by
  have hin : ∀ e ∈ r.elems, e / bs = g := by
    rw [hel]
    intro e he
    obtain ⟨j, hj, rfl⟩ := List.mem_map.1 he
    rw [Nat.mul_comm, Nat.mul_add_div hbs, Nat.div_eq_of_lt (List.mem_range.1 hj), Nat.add_zero]
  obtain ⟨n, rfl⟩ := Nat.exists_eq_succ_of_ne_zero hbs.ne'
  have hfirst : ∃ es, r.elems = g * n.succ :: es := ⟨_, by rw [hel, List.range_succ_eq_map, List.map_cons]; rfl⟩
  obtain ⟨es, hes⟩ := hfirst
  have hact : (r.groupElems n.succ g).filter r.active = g * n.succ :: es := by
    rw [groupElems_active hr, ← hes]
    exact List.filter_eq_self.2 fun e he => decide_eq_true (hin e he)
  refine foldE_single (P := Quiet) List.nodup_range (List.mem_range.2 hN) (fun u hu k hk => groupLoad_inactive hu ?_) hq ?_ ?_
  · rw [groupElems_active hr]
    exact List.filter_eq_nil_iff.2 fun e he h => hk ((of_decide_eq_true h).symm.trans (hin e he))
  · exact (steady_loadedGroup v _ _ _ _ _ _).quiet hv
  · rw [groupLoad_active hact hus hv, hes]

end group

/-! ### Plots whose boxes lie apart (R90) -/

section boxes
variable {p q : Word} {i j : Nat}

/-- An element begins inside the bounding box. -/
theorem plotPos_within (hi : i < plotCount p) : (plotBox p).r0 ≤ (plotPos p i).1 ∧ (plotPos p i).1 ≤ (plotBox p).r1 ∧ (plotBox p).c0 ≤ (plotPos p i).2 := by
  unfold plotCount at hi
  split at hi
  · omega
  unfold plotPos plotBox
  dsimp only
  split
  · next hs =>
    have hi : i < plotW p * plotH p := by rw [hs] at hi; exact hi
    have := Nat.div_lt_of_lt_mul hi
    dsimp only
    generalize i / plotW p = row at this ⊢
    omega
  · dsimp only
    omega
  · next hs =>
    have hi : i < plotH p := by rw [hs] at hi; exact hi
    dsimp only
    omega
  · next hs =>
    have hi : i < plotH p := by rw [hs] at hi; exact hi
    dsimp only
    omega
  · next h0 h1 _ _ =>
    have hh : i < plotH p := by
      split at hi
      · exact absurd ‹_› h0
      · exact absurd ‹_› h1
      · exact hi
    have := Nat.mul_le_mul_right (plotEw p) (Nat.le_sub_one_of_lt hh)
    dsimp only
    omega

/-- No cell belongs to elements of two plots whose boxes do not meet. -/
theorem plotCells_apart {rows rows' : Nat × Nat} (hp : plotLegal p rows = true) (hq : plotLegal q rows' = true)
    (h : (plotBox p).meets (plotBox q) = false) (hi : i < plotCount p) (hj : j < plotCount q) : ∀ c ∈ plotCells p i, c ∉ plotCells q j := by
  have hbox := plotLegal_box hp
  have hbox' := plotLegal_box hq
  have hin := plotPos_inside hi
  have hin' := plotPos_inside hj
  obtain ⟨h1, h2, h3⟩ := plotPos_within hi
  obtain ⟨h1', h2', h3'⟩ := plotPos_within hj
  have hmeet : ¬ ((plotBox p).r0 ≤ (plotBox q).r1 ∧ (plotBox q).r0 ≤ (plotBox p).r1 ∧ (plotBox p).c0 ≤ (plotBox q).c1 ∧ (plotBox q).c0 ≤ (plotBox p).c1) := by
    intro hm
    simp [Box.meets, hm] at h
  unfold plotCells cellIndex
  generalize plotPos p i = a at h1 h2 h3 hin
  generalize plotPos q j = b at h1' h2' h3' hin'
  simp only [List.mem_map, List.mem_range]
  rintro c ⟨k, hk, rfl⟩ ⟨l, hl, he⟩
  omega

end boxes

/-! ### A load of a whole group (R75, R81) -/

section groupLoads
variable {t0 : State} {r : VRun} {en : VQEntry} {t : ETy} {o : VOpts} {q : LdOrd} {xs : XReg} {d c : VReg} {q3 : Bool}

/-- What a load in group mode names. -/
def groupSpec (t : ETy) (o : VOpts) (d c : VReg) : VSpec := { memSpec 1 o (some (d, some (ETy.cells t))) [] d false with also := [(c, some 1)] }

theorem blockSize_pos (s : State) : 0 < s.blockSize := Nat.mul_pos (by decide) (Nat.two_pow_pos _)

/-- The unit-stride body in group mode. -/
theorem vldBody_group (hb : vbegin en (groupSpec t o d c) t0 = .ok r) (hfmt : t0.ctx.mfmt = r.src.ctx.mfmt)
    (henc : (mform r.src.ctx.mfmt).enc = .group q3) (hs : (mform r.src.ctx.mfmt).scale = 1) (ha : (mform r.src.ctx.mfmt).admits t .unit = true)
    (hboard : r.src.myCore.board = []) (hmeet : (plotBox (r.src.plotOf c)).meets (plotBox (r.src.plotOf d)) = false) (hsf : r.sfault = none) :
    vldBody t o q xs d c en t0 = (do
      let u ← foldE (r.groupLoad (plainLoad .vector (r.src.keeps (ceilDiv r.vl r.src.blockSize * groupBytes q3 r.src.blockSize))) q3
        (mform r.src.ctx.mfmt).sat t d c r.src.blockSize (en.x xs)) r.src (List.range (ceilDiv r.len r.src.blockSize))
      let u ← r.done u
      .ok (u.acquire (acqOf q))) := by
  unfold vldBody
  rw [hfmt]
  generalize mform r.src.ctx.mfmt = m at henc hs ha
  obtain ⟨enc, sat, scale⟩ := m
  obtain rfl : enc = .group q3 := henc
  obtain rfl : scale = 1 := hs
  have hk : vcheck r.entry (groupSpec t o d c) ((⟨.group q3, sat, 1⟩ : MForm).admits t .unit && ((1 : Nat) != 0 || c == 0)) r.src 0x02 = .ok () :=
    vcheck_of (by rw [ha]; rfl)
  have hm : vcheck r.entry (groupSpec t o d c) (!(plotBox (r.src.plotOf c)).meets (plotBox (r.src.plotOf d))) r.src 0x02 = .ok () :=
    vcheck_of (by rw [hmeet]; rfl)
  unfold groupSpec memSpec at hb hk hm
  unfold memSpec
  simp only [Nat.reduceBEq, Bool.false_eq_true, if_false, if_true]
  rw [hb]
  dsimp only [bind, Except.bind]
  rw [hk]
  dsimp only
  rw [hm, VRun.board_of_empty hboard]
  dsimp only
  rw [VRun.stop_of_calm hsf]
  generalize foldE (ε := Stop) _ r.src _ = x
  cases x with
  | error => rfl
  | ok u =>
    dsimp only
    rw [VRun.ended_of_calm hsf]
    rfl

end groupLoads

/-- A load whose elements have left state u: it completes, and acquires. -/
theorem load_completes {s t0 u : State} {i : Instr} {k : VSpec} {r : VRun} {en : VQEntry} {body : VQEntry → State → Res State} {c : Option Scope}
    (hb : Begun s i k r en t0) (hx : exec i s = vissue i body s) (hbody : body en t0 = r.done u >>= fun w => .ok (w.acquire c))
    (hst : Steady r.src u) (hmem : u.mem = r.src.mem) : ∃ w, exec i s = .next w ∧ Claims.onward s w ∧ Ran s r u w := by
  obtain ⟨w, hw, hfin, hvs⟩ := done_ok r u
  have hran := ran_of hb.toIssued hst hfin c
  refine ⟨w.acquire c, ?_, onward_of hb.toIssued hst hmem hran fun ht => ?_, hran⟩
  · rw [hx, hb.runs]
    refine vtry_ok (hbody.trans ?_)
    rw [hw]
    rfl
  · rw [(kept_acquire w c).ctx]
    exact hvs ht

section groupClaim
variable {s v : State} {r : VRun} {t : ETy} {o : VOpts} {q : LdOrd} {cc : BitVec 4} {xs : XReg} {d c : VReg} {q3 : Bool} {g : Nat} {us : List Nat}

/-- The elements of a group hold what was written, and the scale beside them. -/
theorem loadedGroup_elems {l : List Nat} {res : Nat → Nat × Bool} {rows rows' : Nat × Nat} (hw : swf 0 0 s.myCore.field = true)
    (hd : plotLegal (s.plotOf d) rows = true) (hc : plotLegal (s.plotOf c) rows' = true)
    (hmeet : (plotBox (s.plotOf c)).meets (plotBox (s.plotOf d)) = false) (hl : ∀ e ∈ l, e < plotCount (s.plotOf d)) (hn : l.Nodup) (sc : Nat) :
    (∀ e ∈ l, (s.loadedGroup d c g res sc l).elem d e = (res e).1 % 2 ^ (16 * plotEw (s.plotOf d))) ∧
      (g < plotCount (s.plotOf c) → (s.loadedGroup d c g res sc l).elem c g = sc % 2 ^ (16 * plotEw (s.plotOf c))) := by
  unfold State.loadedGroup
  rw [foldl_setConverted]
  have hst := (steady_keepScale s c g sc).trans (Steady.clampIf (s.keepScale c g sc) (l.any fun e => (res e).2))
  have hfield : ((s.keepScale c g sc).clampIf (l.any fun e => (res e).2)).myCore.field = (s.keepScale c g sc).myCore.field :=
    (SameField.clampIf _ _).myCore (Steady.clampIf _ _)
  have hwk : swf 0 0 (s.keepScale c g sc).myCore.field = true := by
    unfold State.keepScale
    split
    · exact State.setElem_wf hw g sc
    · exact hw
  rw [← hfield] at hwk
  generalize (s.keepScale c g sc).clampIf (l.any fun e => (res e).2) = w at hst hfield hwk
  have hpd := hst.plotOf d
  refine ⟨fun e he => ?_, fun hg => ?_⟩
  · rw [← hpd]
    refine State.elem_setElems hwk hn (fun i hi j hj hne => ?_) he
    rw [hpd]
    exact plotCells_disjoint hd (hl i hi) (hl j hj) hne
  · have hscale : s.keepScale c g sc = s.setElem c g sc := if_pos hg
    refine Eq.trans ?_ (State.elem_setElem_same hw c g sc)
    refine State.elem_congr ((State.steady_setElems w d _ l).plotOf c |>.trans (hst.plotOf c)) fun k hk => ?_
    rw [State.field_setElems_other hwk fun e he => ?_, hfield, hscale]
    rw [hpd]
    exact plotCells_apart hc hd hmeet hg (hl e he) k hk

/-- Element j of a group, with its code taken from the units as the claims take it. -/
theorem groupValue_code {sat : Bool} {bs j : Nat} (hu : ∀ u ∈ us, u < 65536) (hj : j < bs) : groupValue q3 sat t us bs (g * bs + j) =
    loadConv (.group q3) sat t (some (us.getD 0 0)) (Claims.codeOf (fun k => us.getD (k + 1) 0) (if q3 then 3 else 4) j) := by
  have hunits : (fun k => (us.drop 1).getD k 0) = fun k => us.getD (k + 1) 0 := by
    funext k
    rw [List.getD_eq_getElem?_getD, List.getElem?_drop, Nat.add_comm, List.getD_eq_getElem?_getD]
  unfold groupValue
  rw [Nat.mul_comm, Nat.mul_add_mod, Nat.mod_eq_of_lt hj, codeAt_units q3 fun u h => hu u (List.mem_of_mem_drop h), hunits]

theorem group_load (hcalm : Claims.calm r) (hm : Claims.memCalm r.src) (henc : (mform r.src.ctx.mfmt).enc = .group q3)
    (hs : (mform r.src.ctx.mfmt).scale = 1) (ha : (mform r.src.ctx.mfmt).admits t .unit = true)
    (hd : Claims.dispatches s (.vld t o q cc xs d c) (groupSpec t o d c) r) (hp : Claims.placed r d) (hc : Claims.plotNamed r.src (c, some 1))
    (hlegal : plotLegal (r.src.plotOf c) (r.src.rows r.src.ctx.core r.src.ctx.fe) = true)
    (hmeet : (plotBox (r.src.plotOf c)).meets (plotBox (r.src.plotOf d)) = false)
    (hel : r.elems = (List.range r.src.blockSize).map fun j => g * r.src.blockSize + j)
    (hus : r.groupUnits (plainLoad .vector (r.src.keeps (ceilDiv r.vl r.src.blockSize * groupBytes q3 r.src.blockSize)))
      (s.getX xs + word (g * groupBytes q3 r.src.blockSize)) (groupBytes q3 r.src.blockSize / 2) (g * r.src.blockSize) r.src = .ok (us.map some, v)) :
    ∃ u, exec (.vld t o q cc xs d c) s = .next u ∧ Claims.onward s u ∧
      (∀ j, j < r.src.blockSize → u.elem d (g * r.src.blockSize + j) = (loadConv (mform r.src.ctx.mfmt).enc (mform r.src.ctx.mfmt).sat t
        (some (us.getD 0 0)) (Claims.codeOf (fun k => us.getD (k + 1) 0) (if q3 then 3 else 4) j)).1 % 2 ^ (16 * plotEw (r.src.plotOf d))) ∧
      (g < plotCount (r.src.plotOf c) → u.elem c g = us.getD 0 0 % 2 ^ 16) := by
  obtain ⟨hsf, hq, -⟩ := hcalm
  obtain ⟨-, -, hcells, -⟩ := hc
  obtain ⟨en, t0, hb⟩ := dispatches_begun (fun _ => rfl) hd
  have hbs := blockSize_pos r.src
  have hlen : r.len ≤ plotCount (r.src.plotOf d) := (vbegin_len hb.begins).trans_le (min_le_right _ _)
  have hmem (j : Nat) (hj : j < r.src.blockSize) : g * r.src.blockSize + j ∈ r.elems := by
    rw [hel]
    exact List.mem_map_of_mem (List.mem_range.2 hj)
  have hN : g < ceilDiv r.len r.src.blockSize := by
    have := VRun.mem_elems_lt (hmem 0 hbs)
    refine (Nat.le_div_iff_mul_le hbs).2 ?_
    rw [Nat.succ_mul]
    omega
  obtain ⟨hunits, hkept, hsound⟩ := groupUnits_ok (errorFree_of_calm hm) hus
  have hsv := Steady.of_kept hkept hsound
  have hloop := groups_single (q3 := q3) (sat := (mform r.src.ctx.mfmt).sat) (t := t) (d := d) (c := c) hsf hq (hsv.quiet hq) hbs hN hel hus
  have hwv : swf 0 0 v.myCore.field = true := by rw [SameField.myCore hkept.field hsv]; exact hp.1
  have hpd := hsv.plotOf d
  have hpc := hsv.plotOf c
  obtain ⟨helems, hscale⟩ := loadedGroup_elems (s := v) (d := d) (c := c) (g := g) (l := r.elems)
    (res := groupValue q3 (mform r.src.ctx.mfmt).sat t us r.src.blockSize) hwv (by rw [hpd]; exact hp.2) (by rw [hpc]; exact hlegal)
    (by rw [hpd, hpc]; exact hmeet) (fun e he => by rw [hpd]; exact (VRun.mem_elems_lt he).trans_le hlen) r.elems_nodup (us.getD 0 0)
  have hst := hsv.trans (steady_loadedGroup v d c g (groupValue q3 (mform r.src.ctx.mfmt).sat t us r.src.blockSize) (us.getD 0 0) r.elems)
  have hmemu := (loadedGroup_mem v d c g (groupValue q3 (mform r.src.ctx.mfmt).sat t us r.src.blockSize) (us.getD 0 0) r.elems).trans hkept.mem
  generalize v.loadedGroup d c g _ (us.getD 0 0) r.elems = u at hloop helems hscale hmemu hst
  obtain ⟨w, hexec, honward, hran⟩ := load_completes (body := vldBody t o q xs d c) (c := acqOf q) hb rfl (by
    rw [vldBody_group hb.begins hb.format henc hs ha (board_of_calm hm) hmeet hsf, hb.enX, hloop]
    rfl) hst hmemu
  refine ⟨w, hexec, honward, fun j hj => ?_, fun hg => ?_⟩
  · rw [hran.elem, helems _ (hmem j hj), hpd, henc, groupValue_code hunits hj]
  · rw [hran.elem, hscale (by rw [hpc]; exact hg), hpc, hcells 1 rfl]

end groupClaim

/-! ### Loads in channel mode (R83, R84) -/

/-- Where no stream element faults, it does not matter which elements an instruction takes (R50). -/
theorem taking_of_flows {r : VRun} (hr : r.sfault = none) (hflow : Claims.flows r) {takes : Nat → List (VReg × Nat)}
    (hsrc : ∀ e, ∀ p ∈ takes e, ∃ n, (p.1, n) ∈ r.spec.srcs) : r.taking takes = r := by
  have hin (e : Nat) (p : VReg × Nat) (hp : p ∈ takes e) : r.src.inputFault p.1 p.2 = none := by
    obtain ⟨n, hn⟩ := hsrc e p hp
    unfold State.inputFault
    cases hi : r.src.inputOf p.1 with
    | none => rfl
    | some st =>
      rw [Option.bind_some]
      cases ha : st.ahead[p.2]? with
      | none => rfl
      | some x => rw [Option.bind_some, hflow _ hn st hi x (List.mem_of_getElem? ha)]; rfl
  unfold VRun.taking
  dsimp only
  split
  · rfl
  · have hmet (seen : VReg × Nat → Bool) (e : Nat) : ((takes e).filter seen).findSome? (fun p => r.src.inputFault p.1 p.2) = none :=
      List.findSome?_eq_none_iff.2 fun p hp => hin e p (List.mem_of_mem_filter hp)
    simp only [hmet, hr, Option.filter_none]
    rw [List.findSome?_eq_none_iff.2 fun _ _ => rfl, ← hr]

/-- The encodings that channel mode admits have one byte an element (R78). -/
theorem channel_encoding {v : Word} {t : ETy} (hs : (mform v).scale = 2) (ha : (mform v).admits t .unit = true) :
    (mform v).enc.size t = 1 ∧ ∀ q3, (mform v).enc ≠ .group q3 := by
  unfold MForm.admits at ha
  rw [hs] at ha
  have hint : ∀ w sg, (mform v).enc = .int w sg → w = 8 := by
    unfold mform encOf
    dsimp only
    intro w sg h
    split at h <;> cases h <;> rfl
  cases he : (mform v).enc with
  | native => rw [he] at ha; cases ha
  | group q3 => rw [he] at ha; cases ha
  | fp f =>
    rw [he] at ha
    have hw : f.width = 8 := by simp at ha; exact ha.2.1
    have hsize : (Enc.fp f).size t = f.width / 8 := rfl
    exact ⟨by rw [hsize, hw], fun _ => Enc.noConfusion⟩
  | int w sg =>
    obtain rfl := hint w sg he
    exact ⟨rfl, fun _ => Enc.noConfusion⟩

/-- One element loaded with a scale (R79). -/
theorem loadElem_scaled {r : VRun} {ld : Loader} {enc : Enc} {sat : Bool} {t : ETy} {d : VReg} {sc : Option Nat} {va : Word × Bool} {z e b : Nat}
    {s w : State} (hld : ld s va.1 z = .ok (some b, w)) (hk : Kept s w) (hs : State.Sound s w) :
    ∃ u, r.loadElem ld enc sat t d sc va z false s e = .ok u ∧ Steady s u ∧ u.mem = s.mem ∧
      (swf 0 0 s.myCore.field = true → Received s u d e (loadConv enc sat t sc b).1) := by
  have hst := ((Steady.of_kept hk hs).trans (Steady.vectorPoison w va.2)).trans (Steady.clampIf _ (loadConv enc sat t sc b).2)
  have hf := (SameField.trans hk.field (SameField.vectorPoison w va.2)).trans (SameField.clampIf _ (loadConv enc sat t sc b).2)
  refine ⟨_, ?_, hst.trans (Steady.setElem _ d e (loadConv enc sat t sc b).1), ?_, fun hw => received_setElem hst hf hw d e _⟩
  · unfold VRun.loadElem
    rw [hld]
    rfl
  · rw [State.setElem_mem, clampIf_mem, vectorPoison_mem, hk.mem]

section channel
variable {s t0 v : State} {r : VRun} {en : VQEntry} {t : ETy} {o : VOpts} {q : LdOrd} {cc : BitVec 4} {xs : XReg} {d c : VReg} {e : Nat} {l : State.Reached}

/-- What a load in channel mode names. -/
def channelSpec (t : ETy) (o : VOpts) (d c : VReg) : VSpec := memSpec 1 o (some (d, some (ETy.cells t))) [(c, some 1)] d true

/-- An element in channel mode: a row inside the window as it stands, another with the scale of its channel. -/
def VRun.loadChannel (r : VRun) (ld : Loader) (t : ETy) (d c : VReg) (base : Word) (lost : Bool) (s : State) (e : Nat) : Res State :=
  let kv := r.src.ctx.kvwin
  let m := mform r.src.ctx.mfmt
  let at' := base + word (kvPlace kv e).1
  let sc := r.get c .bf16 (e % kvC kv)
  if (kvPlace kv e).2 then r.loadElem ld .native m.sat t d none (at', false) 2 lost s e
  else r.loadElem ld m.enc m.sat t d (some sc.1) (at', sc.2) (m.enc.size t) lost s e

/-- The unit-stride body in channel mode. -/
theorem vldBody_channel (hb : vbegin en (channelSpec t o d c) t0 = .ok r) (hfmt : t0.ctx.mfmt = r.src.ctx.mfmt)
    (hs : (mform r.src.ctx.mfmt).scale = 2) (ha : (mform r.src.ctx.mfmt).admits t .unit = true) (hboard : r.src.myCore.board = [])
    (hkv : kvOk r.src.ctx.kvwin r.vl (r.src.plotOf c) = true) (hsf : r.sfault = none) (hflow : Claims.flows r) :
    vldBody t o q xs d c en t0 = (do
      let u ← r.each (r.loadChannel (plainLoad .vector (r.src.keeps r.vl)) t d c (en.x xs)) r.src
      let u ← r.done u
      .ok (u.acquire (acqOf q))) := by
  have hspec : r.spec = channelSpec t o d c := (vbegin_ok hb).1
  have htake : r.taking (fun e => if (kvPlace r.src.ctx.kvwin e).2 then [] else [(c, e % kvC r.src.ctx.kvwin)]) = r := by
    refine taking_of_flows hsf hflow fun e p hp => ⟨some 1, ?_⟩
    rw [hspec]
    split at hp
    · cases hp
    · rw [List.mem_singleton.1 hp]
      exact List.mem_singleton_self _
  have hgroup := (channel_encoding hs ha).2
  unfold VRun.loadChannel vldBody
  rw [hfmt]
  generalize mform r.src.ctx.mfmt = m at hgroup hs ha
  obtain ⟨enc, sat, scale⟩ := m
  obtain rfl : scale = 2 := hs
  have hk : vcheck r.entry (channelSpec t o d c) ((⟨enc, sat, 2⟩ : MForm).admits t .unit && ((2 : Nat) != 0 || c == 0)) r.src 0x02 = .ok () :=
    vcheck_of (by rw [ha]; rfl)
  unfold channelSpec at hb hk
  simp only [Nat.reduceBEq, Bool.false_eq_true, if_false, if_true]
  rw [hb]
  dsimp only [bind, Except.bind]
  rw [hk]
  have hc : vcheck r.entry (memSpec 1 o (some (d, some (ETy.cells t))) [(c, some 1)] d true) (kvOk r.src.ctx.kvwin r.vl (r.src.plotOf c)) r.src 0x02 = .ok () :=
    vcheck_of hkv
  cases enc with
  | group q3 => exact absurd rfl (hgroup q3)
  | native | fp | int =>
    dsimp only
    rw [hc]
    dsimp only
    rw [htake, VRun.board_of_empty hboard]
    rfl

/-- The value that an element receives from its bytes at pa. -/
def VRun.channelValue (r : VRun) (t : ETy) (c : VReg) (m : Memory) (pa e : Nat) : Nat :=
  if (kvPlace r.src.ctx.kvwin e).2 then m.num pa 2
  else (loadConv (mform r.src.ctx.mfmt).enc (mform r.src.ctx.mfmt).sat t (some (r.get c .bf16 (e % kvC r.src.ctx.kvwin)).1) (m.num pa 1)).1

theorem loadChannel_arrives {ld : Loader} {base : Word} {pa : Nat} {w : State} (hs : (mform r.src.ctx.mfmt).scale = 2)
    (ha : (mform r.src.ctx.mfmt).admits t .unit = true) (hw : swf 0 0 r.src.myCore.field = true)
    (hld : ld r.src (base + word (kvPlace r.src.ctx.kvwin e).1) (if (kvPlace r.src.ctx.kvwin e).2 then 2 else 1) =
      .ok (some (r.src.mem.num pa (if (kvPlace r.src.ctx.kvwin e).2 then 2 else 1)), w)) (hk : Kept r.src w) (hsound : State.Sound r.src w) :
    ∃ u, r.loadChannel ld t d c base false r.src e = .ok u ∧ Steady r.src u ∧ u.mem = r.src.mem ∧
      Received r.src u d e (r.channelValue t c r.src.mem pa e) := by
  unfold VRun.loadChannel VRun.channelValue
  dsimp only
  rw [(channel_encoding hs ha).1]
  cases hraw : (kvPlace r.src.ctx.kvwin e).2 <;> simp only [hraw, if_true, if_false, Bool.false_eq_true] at hld ⊢
  · obtain ⟨u, hu, hst, hmem, hrec⟩ := loadElem_scaled (r := r) (enc := (mform r.src.ctx.mfmt).enc) (sat := (mform r.src.ctx.mfmt).sat) (t := t) (d := d)
      (sc := some (r.get c .bf16 (e % kvC r.src.ctx.kvwin)).1) (va := (_, (r.get c .bf16 (e % kvC r.src.ctx.kvwin)).2)) (e := e) hld hk hsound
    exact ⟨u, hu, hst, hmem, hrec hw⟩
  · obtain ⟨u, hu, hst, hmem, hrec⟩ := loadElem_scaled (r := r) (enc := .native) (sat := (mform r.src.ctx.mfmt).sat) (t := t) (d := d) (sc := none)
      (va := (_, false)) (e := e) hld hk hsound
    exact ⟨u, hu, hst, hmem, hrec hw⟩

theorem channel_load (hcalm : Claims.calm r) (hm : Claims.memCalm r.src) (he : r.elems = [e])
    (hs : (mform r.src.ctx.mfmt).scale = 2) (ha : (mform r.src.ctx.mfmt).admits t .unit = true)
    (hkv : kvOk r.src.ctx.kvwin r.vl (r.src.plotOf c) = true) (hd : Claims.dispatches s (.vld t o q cc xs d c) (channelSpec t o d c) r)
    (hp : Claims.placed r d) (hflow : Claims.flows r)
    (hreach : r.src.reach .vector .load .strand (s.getX xs + word (kvPlace r.src.ctx.kvwin e).1) (if (kvPlace r.src.ctx.kvwin e).2 then 2 else 1) = .ok (l, v)) :
    ∃ u, exec (.vld t o q cc xs d c) s = .next u ∧ Claims.onward s u ∧ Claims.masksStay r u ∧
      Claims.elements r u d (fun _ => some (r.channelValue t c s.mem l.pa e)) := by
  obtain ⟨hsf, hq, -⟩ := hcalm
  obtain ⟨en, t0, hb⟩ := dispatches_begun (fun _ => rfl) hd
  obtain ⟨x, hld, hkept, hsound⟩ := State.load_arrives (keep := r.src.keeps r.vl) (errorFree_of_calm hm) rfl hreach
  obtain ⟨u, hu, hst, hmem, hrec⟩ := loadChannel_arrives (ld := plainLoad .vector (r.src.keeps r.vl)) (t := t) (d := d) (c := c) hs ha hp.1 hld hkept hsound
  rw [hb.mem] at hrec
  obtain ⟨w, hexec, honward, hran⟩ := load_completes (body := vldBody t o q xs d c) (c := acqOf q) hb rfl (by
    rw [vldBody_channel hb.begins hb.format hs ha (board_of_calm hm) hkv hsf hflow, hb.enX, VRun.each_one hsf hq he hu (hst.quiet hq)]
    rfl) hst hmem
  exact ⟨w, hexec, honward, hran.masks, elements_one hran he hrec⟩

/-- The window and the row of an element, in the fields of R83. -/
theorem kvPlace_eq (kv : Word) (e : Nat) : kvPlace kv e =
    (e / (kv.extractLsb' 0 13).toNat * (2 * (kv.extractLsb' 0 13).toNat) + e % (kv.extractLsb' 0 13).toNat *
        (if (kv.extractLsb' 16 24).toNat ≤ (kv.extractLsb' 40 24).toNat + e / (kv.extractLsb' 0 13).toNat then 2 else 1),
      decide ((kv.extractLsb' 16 24).toNat ≤ (kv.extractLsb' 40 24).toNat + e / (kv.extractLsb' 0 13).toNat)) := by
  unfold kvPlace kvWindow kvBase kvC
  simp only [bits_eq_extract, decide_eq_true_eq]

end channel

end Sys2Proof.Machine

open Sys2Proof Sys2Proof.Machine in
/-- Settles O47: codes are packed and taken back digit by digit; a load of a whole group is its group's step alone, which writes the scale and
then the elements; one in channel mode is the access of its element, with the scale of its channel or raw. -/
theorem vectorFormats : Obligations.VectorFormats := by
  intro t o q cc xs d c s v r e l
  dsimp only
  refine ⟨fun q3 cs j hcs hj => codeAt_packCodes q3 hcs hj, fun q3 g us hcalm hm henc hs ha hd hp hc hlegal hmeet hel hus => ?_,
    fun hcalm hm he hw hs ha _ hch hvl hrows hd hp hflow hreach => ?_⟩
  · exact group_load hcalm hm henc hs ha hd hp hc hlegal hmeet hel hus
  · have hC : kvC r.src.ctx.kvwin = (r.src.ctx.kvwin.extractLsb' 0 13).toNat := bits_eq_extract _ 12 0
    have hbase : kvBase r.src.ctx.kvwin = (r.src.ctx.kvwin.extractLsb' 40 24).toNat := bits_eq_extract _ 63 40
    have hkv : kvOk r.src.ctx.kvwin r.vl (r.src.plotOf c) = true := by
      unfold kvOk
      rw [hC, hbase, decide_eq_true hch, decide_eq_true hvl, decide_eq_true (Nat.le_sub_one_of_lt hrows)]
      rfl
    have h := channel_load (c := c) (l := l) (v := v) hcalm hm he hs ha hkv hd hp hflow (by rw [kvPlace_eq]; simp only [decide_eq_true_eq]; exact hreach)
    unfold VRun.channelValue at h
    rw [kvPlace_eq, hC, num_eq_value hw, num_eq_value hw] at h
    simpa only [decide_eq_true_eq] using h
